-- ==== Sys2Proof/Word.lean ====
section
/-! DEFINITION. The word types and their plainest arithmetic, and the sparse map that every store of the machine
(memory, register files, tables) is held in. -/

namespace Sys2Proof

/-- A 64-bit value of a named register or a result-queue entry (R62). -/
abbrev Word := BitVec 64

/-- One byte (R9). -/
abbrev Byte := BitVec 8

/-- An instruction word of 96 bits (R138). -/
abbrev IWord := BitVec 96

/-- A sparse store: pairs of key and value, keys strictly rising. An unlisted key reads as the default that the
reader names. -/
abbrev SMap (α : Type) := List (Nat × α)

namespace SMap

/-- The entry listed at `k`, if there is one. -/
def find {α : Type} : SMap α → Nat → Option α
  | [], _ => none
  | (j, v) :: rest, k => if j = k then some v else find rest k

/-- The value at `k`; `d` where nothing is listed. -/
def get {α : Type} (d : α) (m : SMap α) (k : Nat) : α := (find m k).getD d

/-- List `v` at `k`, in key order. -/
def put {α : Type} : SMap α → Nat → α → SMap α
  | [], k, v => [(k, v)]
  | (j, u) :: rest, k, v =>
    if k < j then (k, v) :: (j, u) :: rest
    else if j = k then (k, v) :: rest
    else (j, u) :: put rest k v

/-- Take what is listed at `k` out. -/
def erase {α : Type} : SMap α → Nat → SMap α
  | [], _ => []
  | (j, u) :: rest, k => if j = k then erase rest k else (j, u) :: erase rest k

/-- Store `v` at `k` in a map whose unlisted keys read as `d`: the default is never listed. -/
def set {α : Type} [DecidableEq α] (d : α) (m : SMap α) (k : Nat) (v : α) : SMap α :=
  if v = d then erase m k else put m k v

/-- Every listed key is above `lo`, keys rise strictly, and no entry equals the default. -/
def okFrom {α : Type} [DecidableEq α] (d : α) : Option Nat → SMap α → Bool
  | _, [] => true
  | lo, (k, v) :: rest =>
    (match lo with | none => true | some l => decide (l < k)) && decide (v ≠ d) && okFrom d (some k) rest

/-- The canonical form: keys strictly rising, no entry equal to what an unlisted key reads as. -/
def ok {α : Type} [DecidableEq α] (d : α) (m : SMap α) : Bool := okFrom d none m

/-- Apply `f` to the value at `k` and list the result. -/
def modify {α : Type} (d : α) (m : SMap α) (k : Nat) (f : α → α) : SMap α := put m k (f (get d m k))

end SMap

/-- Sparse bytes by address. -/
abbrev Memory := List Host.Cell

end Sys2Proof
end

