-- ==== Sys2Proof/Config.lean ====
section
/-! DEFINITION. The constants that one part fixes and the free values: what the manual leaves open. Each constant
has no body, so that no proof can use a value of it. -/

namespace Sys2Proof.Config

/-- A fresh free value of 64 bits; the argument is the counter `State.fresh` (log entry 1). -/
opaque freeWord : Nat → BitVec 64

/-- A duration that R426 leaves to the part, in cycles; the argument is the counter `State.fresh` (log entry 2). -/
opaque duration : Nat → Nat

/-- Which of the two neighbours a faithful FP32 VEXP gives for an operand (R204; log entry 3). -/
opaque expUp : BitVec 32 → Bool

/-- Which of the two neighbours a faithful FP32 VTANH gives for an operand (R204; log entry 3). -/
opaque tanhUp : BitVec 32 → Bool

/-- The home of a physical address: 1 to 4 the stacked DRAM of stack 0 to 3, 5 far memory, anything else no frame
of this package (R96 gives the die and channel, no rule gives the map of physical addresses; log entry 4). -/
opaque homeOf : Nat → Nat

/-- The key that the security processor generates for a key identifier at its nth request (R390; log entry 5). -/
opaque keyValue : Nat → Nat → BitVec 512

/-- A round of the cipher of a 16-byte block: key, block number, round, and half a block (R364; log entry 36). -/
opaque xtsRound : BitVec 512 → Nat → Nat → BitVec 64 → BitVec 64

/-- The device identity public key (R390; log entry 5). -/
opaque identityKey : BitVec 512

/-- The fused serial number (R390; log entry 5). -/
opaque serial : BitVec 128

/-- The digest of firmware image 0 to 3 (R389, R390; log entry 5). -/
opaque firmwareDigest : Nat → BitVec 256

/-- The signature that the security processor puts under an attestation report (R390; log entry 5). -/
opaque attestSignature : List Nat → BitVec 512

/-- Whether the far-memory channels are present and trained (R1, R423 step 2; log entry 6). -/
opaque farPresent : Bool

/-- The bytes that an entry of a row log holds beside the row's old contents (R328 gives the log's bytes and no entry size; log entry 7). -/
opaque logTag : Nat

/-- The bytes that an entry of a hold buffer holds beside the byte written (R328; log entry 7). -/
opaque holdTag : Nat

/-- The cause with which a peer package answers a request, 0 where it succeeds; the argument is the counter `State.fresh`
(R383; log entry 8). -/
opaque peerCause : Nat → Nat

end Sys2Proof.Config
end

