-- ==== Sys2Proof/Syntax.lean ====
section
/-! DEFINITION. The instruction word's fields (R138, R147) and the one inductive of everything the part does in one
indivisible step: a constructor for each row of the operation table, the 188 operations a word can name and the 81 events of the
engines, the network, the hub, the host and the links. -/

namespace Sys2Proof

/-- The eight operand kinds (R147). -/
inductive OpKind where
  | nreg | qage | ptr | imm | direct | pred | tile | special
  deriving DecidableEq, Repr

/-- A 20-bit operand field (R147): its kind and its 17-bit payload, kept whole, so that the encoding checks of R156
can see every reserved bit. -/
structure Operand where
  kind : OpKind
  payload : BitVec 17
  deriving DecidableEq, Repr

/-- The fields of an instruction word but for the opcode, which the constructor of `Instr` is (R138). -/
structure Fields where
  /-- version, bits 95..94 -/
  v : BitVec 2
  /-- guard: predicate number in bits 3..1, negate bit in bit 0 (R66) -/
  g : BitVec 4
  /-- scheduling hint, bits 79..62 -/
  h : BitVec 18
  a : Operand
  b : Operand
  c : Operand
  m : BitVec 2
  deriving DecidableEq, Repr

/-- Who runs a thread: thread `t` of the core at front end `c` (0 control, 1 to 10 helper, 11 trap context, 12 the
burin unit), or request thread `id` of a memory core (R87, R127, R350). -/
inductive Agent where
  | core (c t : Nat)
  | req (id : Nat)
  deriving DecidableEq, Repr

/-- A local store: the local memory of the core at front end `c`, or the shared memory of physical cluster `k`. -/
inductive Place where
  | core (c : Nat)
  | cluster (k : Nat)
  deriving DecidableEq, Repr

/-- Every operation and event of the part. A core is named by its front end's number, 272 × stack + 17 × x + y; a group
by 256 × context + group number; an engine operation, a write or a request by the number it got from `State.fresh`. -/
inductive Instr where
  /-- Adds two 64-bit integer sources with wrap and pushes the result. (R160) -/
  | add (w : Fields)
  /-- Subtracts two 64-bit integer sources with wrap and pushes the result. (R160) -/
  | sub (w : Fields)
  /-- Writes the low 64 bits of the product of two integers. (R160) -/
  | mul (w : Fields)
  /-- Writes the high 64 bits of the signed 128-bit product. (R160) -/
  | mulhs (w : Fields)
  /-- Writes the high 64 bits of the unsigned 128-bit product. (R160) -/
  | mulhu (w : Fields)
  /-- Signed division truncating toward zero, with fixed results for division by zero and overflow. (R161) -/
  | divs (w : Fields)
  /-- Unsigned division, giving all ones when the divisor is zero. (R161) -/
  | divu (w : Fields)
  /-- Signed remainder taking the sign of the dividend. (R161) -/
  | rems (w : Fields)
  /-- Unsigned remainder. (R161) -/
  | remu (w : Fields)
  /-- Bitwise AND of two sources. (R160) -/
  | and (w : Fields)
  /-- Bitwise OR of two sources. (R160) -/
  | or (w : Fields)
  /-- Bitwise XOR of two sources. (R160) -/
  | xor (w : Fields)
  /-- Bitwise AND of the first source with the complement of the second. (R160) -/
  | andn (w : Fields)
  /-- Shifts left by bits 5..0 of the amount. (R160) -/
  | shl (w : Fields)
  /-- Shifts right logically. (R160) -/
  | shrl (w : Fields)
  /-- Shifts right arithmetically. (R160) -/
  | shra (w : Fields)
  /-- Rotates a 64-bit value left. (R160) -/
  | rotl (w : Fields)
  /-- Counts leading zero bits, giving 64 for zero. (R162) -/
  | clz (w : Fields)
  /-- Counts one bits. (R162) -/
  | popc (w : Fields)
  /-- Signed minimum of two sources. (R160) -/
  | mins (w : Fields)
  /-- Signed maximum of two sources. (R160) -/
  | maxs (w : Fields)
  /-- Unsigned minimum of two sources. (R160) -/
  | minu (w : Fields)
  /-- Unsigned maximum of two sources. (R160) -/
  | maxu (w : Fields)
  /-- Absolute value, with ABS of -2^63 giving -2^63. (R162) -/
  | abs (w : Fields)
  /-- Sign-extends a value from width C. (R162) -/
  | sext (w : Fields)
  /-- Zero-extends a value from width C. (R162) -/
  | zext (w : Fields)
  /-- Extracts a bit field at the position and width given by the control. (R162) -/
  | bfx (w : Fields)
  /-- Inserts a bit field into the destination, keeping its other bits. (R162) -/
  | bfi (w : Fields)
  /-- Loads a sign-extended 40-bit wide immediate. (R163) -/
  | li (w : Fields)
  /-- Writes immediate bits 23..0 into bits 63..40 of the destination, keeping its low bits. (R163) -/
  | lih (w : Fields)
  /-- Copies a source, giving the pointer image for a pointer source. (R163) -/
  | mov (w : Fields)
  /-- Writes C when the predicate is true, else writes the destination back, and pushes the value. (R163) -/
  | sel (w : Fields)
  /-- Sets a predicate when the two sources are equal. (R164) -/
  | cmpEq (w : Fields)
  /-- Sets a predicate when the two sources differ. (R164) -/
  | cmpNe (w : Fields)
  /-- Sets a predicate on signed less-than. (R164) -/
  | cmpLt (w : Fields)
  /-- Sets a predicate on signed greater-or-equal. (R164) -/
  | cmpGe (w : Fields)
  /-- Sets a predicate on unsigned less-than. (R164) -/
  | cmpLtu (w : Fields)
  /-- Sets a predicate on unsigned greater-or-equal. (R164) -/
  | cmpGeu (w : Fields)
  /-- ANDs two predicates. (R164) -/
  | pand (w : Fields)
  /-- ORs two predicates. (R164) -/
  | por (w : Fields)
  /-- XORs two predicates. (R164) -/
  | pxor (w : Fields)
  /-- Inverts a predicate. (R164) -/
  | pnot (w : Fields)
  /-- Floating add rounded by M in FP32, FP16 or BF16. (R165) -/
  | fadd (w : Fields)
  /-- Floating multiply rounded by M. (R165) -/
  | fmul (w : Fields)
  /-- Fused multiply-add into the destination with one rounding. (R165) -/
  | ffma (w : Fields)
  /-- Sets a predicate on floating equality. (R166) -/
  | fcmpEq (w : Fields)
  /-- Sets a predicate on floating inequality, true with a NaN. (R166) -/
  | fcmpNe (w : Fields)
  /-- Sets a predicate on floating less-than, setting NV on NaN. (R166) -/
  | fcmpLt (w : Fields)
  /-- Sets a predicate on floating less-or-equal, setting NV on NaN. (R166) -/
  | fcmpLe (w : Fields)
  /-- Sets a predicate when either operand is NaN. (R166) -/
  | fcmpUn (w : Fields)
  /-- Converts a scalar between floating, integer and DM8 formats. (R167) -/
  | fcvt (w : Fields)
  /-- Branches by a word offset. (R168) -/
  | br (w : Fields)
  /-- Branches to a register address plus an offset. (R168) -/
  | bri (w : Fields)
  /-- Writes the link and branches by an offset. (R168) -/
  | call (w : Fields)
  /-- Branches to the address held in a register. (R168) -/
  | ret (w : Fields)
  /-- Decrements a count and branches while it is nonzero. (R168) -/
  | loop (w : Fields)
  /-- Does nothing, filling timing gaps and carrying hints. (R171) -/
  | nop (w : Fields)
  /-- Ends the control context's current routine, which completes when results, commits and helpers are done. (R172) -/
  | rtend (w : Fields)
  /-- Loads one byte from local or shared memory, or performs a personality operation. (R175) -/
  | ldlB (w : Fields)
  /-- Loads two bytes from local or shared memory. (R175) -/
  | ldlH (w : Fields)
  /-- Loads four bytes from local or shared memory. (R175) -/
  | ldlW (w : Fields)
  /-- Loads eight bytes, or removes, reads or looks up an entry on a personality bank. (R178) -/
  | ldlD (w : Fields)
  /-- Stores one byte to local or shared memory. (R175) -/
  | stlB (w : Fields)
  /-- Stores two bytes to local or shared memory. (R175) -/
  | stlH (w : Fields)
  /-- Stores four bytes to local or shared memory. (R175) -/
  | stlW (w : Fields)
  /-- Stores eight bytes, or appends, pushes, inserts, puts or adds on a personality bank. (R178) -/
  | stlD (w : Fields)
  /-- Writes a pointer's base and stride. (R177) -/
  | setp (w : Fields)
  /-- Loads an 8-byte pointer image from an array bank or shared memory. (R177) -/
  | ldp (w : Fields)
  /-- Sets the personality of a bank or span by format, adopt or raw mode. (R180) -/
  | bpers (w : Fields)
  /-- Joins banks into a span or dissolves one. (R182) -/
  | bspan (w : Fields)
  /-- Returns the status word of a bank or span, performed at the bank. (R183) -/
  | bstat (w : Fields)
  /-- Snapshots and clears a histogram into array rows. (R184) -/
  | bsnap (w : Fields)
  /-- Element-wise vector add. (R194) -/
  | vadd (w : Fields)
  /-- Element-wise vector subtract. (R194) -/
  | vsub (w : Fields)
  /-- Element-wise vector multiply. (R194) -/
  | vmul (w : Fields)
  /-- Element-wise fused multiply-add into the destination. (R194) -/
  | vfma (w : Fields)
  /-- Element-wise minimum. (R194) -/
  | vmin (w : Fields)
  /-- Element-wise maximum. (R194) -/
  | vmax (w : Fields)
  /-- Element-wise absolute value. (R194) -/
  | vabs (w : Fields)
  /-- Element-wise negation. (R194) -/
  | vneg (w : Fields)
  /-- Element-wise bitwise AND. (R196) -/
  | vand (w : Fields)
  /-- Element-wise bitwise OR. (R196) -/
  | vor (w : Fields)
  /-- Element-wise bitwise XOR. (R196) -/
  | vxor (w : Fields)
  /-- Element-wise shift left. (R196) -/
  | vshl (w : Fields)
  /-- Element-wise shift right, arithmetic for I and logical for N formats. (R196) -/
  | vshr (w : Fields)
  /-- Writes an all-ones mask where elements are equal. (R197) -/
  | vcmpEq (w : Fields)
  /-- Writes a mask where elements differ. (R197) -/
  | vcmpNe (w : Fields)
  /-- Writes a mask where b < c. (R197) -/
  | vcmpLt (w : Fields)
  /-- Writes a mask where b <= c. (R197) -/
  | vcmpLe (w : Fields)
  /-- Writes a mask where b > c. (R197) -/
  | vcmpGt (w : Fields)
  /-- Writes a mask where b >= c. (R197) -/
  | vcmpGe (w : Fields)
  /-- Writes C where the mask is nonzero and keeps the destination elsewhere. (R198) -/
  | vsel (w : Fields)
  /-- Converts each element into the destination format, rows paced by the wider span. (R200) -/
  | vcvt (w : Fields)
  /-- Copies elements bit for bit. (R199) -/
  | vmov (w : Fields)
  /-- Writes a scalar to every element. (R199) -/
  | vbcast (w : Fields)
  /-- Writes start plus index to each element. (R199) -/
  | viota (w : Fields)
  /-- Sums a vector in fixed order into a named register. (R201) -/
  | vsum (w : Fields)
  /-- Reduces a vector to its maximum. (R201) -/
  | vrmax (w : Fields)
  /-- Reduces a vector to its minimum. (R201) -/
  | vrmin (w : Fields)
  /-- Writes the sequential prefix sums of a vector. (R203) -/
  | vscan (w : Fields)
  /-- Computes e^x per element. (R204) -/
  | vexp (w : Fields)
  /-- Computes 1/x per element, correctly rounded. (R204) -/
  | vrcp (w : Fields)
  /-- Computes 1/sqrt(x) per element, correctly rounded. (R204) -/
  | vrsq (w : Fields)
  /-- Computes tanh x per element. (R204) -/
  | vtanh (w : Fields)
  /-- Permutes elements by an N16 index vector through the operand latch. (R206) -/
  | vperm (w : Fields)
  /-- Compresses selected elements to the front and pushes their count. (R206) -/
  | vcomp (w : Fields)
  /-- Expands packed elements to selected positions and pushes the count used. (R206) -/
  | vexpn (w : Fields)
  /-- Packs a vector into a bitmask-plus-values object within a reservation. (R207) -/
  | vpack (w : Fields)
  /-- Checks and unpacks a bitmask-plus-values object into a dense vector. (R209) -/
  | vunpk (w : Fields)
  /-- Maps elements to order-preserving unsigned keys or back. (R211) -/
  | vord (w : Fields)
  /-- Extracts a digit of each element, writing a sentinel on prefix mismatch. (R212) -/
  | vdigit (w : Fields)
  /-- Adds each row of buckets to a histogram bank as one operation per row and pushes the drop count. (R213) -/
  | vhisto (w : Fields)
  /-- Counts elements meeting a condition into a named register. (R214) -/
  | vcount (w : Fields)
  /-- Configures a tile's shape, type, block length and sparsity, clearing, reinterpreting or strictly checking it. (R222) -/
  | tcfg (w : Fields)
  /-- Sets every tile element to zero. (R224) -/
  | tzero (w : Fields)
  /-- Loads a tile from local rows with conversion. (R225) -/
  | tload (w : Fields)
  /-- Stores a tile to local rows with rounding or saturation. (R226) -/
  | tstore (w : Fields)
  /-- Starts a dense matrix product accumulating into a tile. (R227) -/
  | mma (w : Fields)
  /-- Starts a product with an N-of-16 sparse A operand. (R230) -/
  | mmas (w : Fields)
  /-- Starts a product whose A rows are gathered by index. (R231) -/
  | mmag (w : Fields)
  /-- Quantises an FP32 tile into DM8 codes and SC20 scales. (R233) -/
  | qstage (w : Fields)
  /-- Reads and clears a tile's verdict counters, joining its checksum verdicts. (R234) -/
  | tchk (w : Fields)
  /-- Sends a product command to another core's lent array. (R239) -/
  | mcmd (w : Fields)
  /-- Fills a capability-table entry and lands its capability. (R236) -/
  | capmint (w : Fields)
  /-- Opens or closes a lend window for remote matrix commands. (R238) -/
  | lend (w : Fields)
  /-- Binds a merge-tree stream to a local region. (R240) -/
  | mbind (w : Fields)
  /-- Starts or resumes a merge of the selected streams. (R241) -/
  | mmerge (w : Fields)
  /-- Stops a running merge after the current entry and writes the partial row. (R242) -/
  | mdrain (w : Fields)
  /-- Returns the merge status word, trapping on an unsorted input. (R242) -/
  | mstat (w : Fields)
  /-- Loads words into the burin program store. (R243) -/
  | bkld (w : Fields)
  /-- Arms the burin unit on a watched region and a stage barrier. (R244) -/
  | bkarm (w : Fields)
  /-- Disarms the burin unit. (R246) -/
  | bkoff (w : Fields)
  /-- Returns the burin unit's status word. (R246) -/
  | bkstat (w : Fields)
  /-- Starts a copy between local and global memory served by a memory core. (R251) -/
  | cpy (w : Fields)
  /-- Starts a copy with channel interleave into or from F planes. (R253) -/
  | cpyi (w : Fields)
  /-- Starts a copy that decompresses blocks into local memory. (R254) -/
  | cpyz (w : Fields)
  /-- Seals the unsealed operations into a new batch and lands its number. (R257) -/
  | sealBatch (w : Fields)
  /-- Waits until at most n batches are unfinished, or for a stage barrier fill, trapping on failed operations. (R125) -/
  | waitb (w : Fields)
  /-- Reports a batch's state without waiting. (R259) -/
  | cpq (w : Fields)
  /-- Starts a remote get into local memory. (R260) -/
  | rget (w : Fields)
  /-- Starts a remote put from local memory. (R260) -/
  | rput (w : Fields)
  /-- Writes a payload and then applies a flag or counter signal at the same package. (R261) -/
  | wsig (w : Fields)
  /-- Issues a timed send of a row, word or deposit within its slot. (R264) -/
  | send (w : Fields)
  /-- Queues a counted-exchange packet for the next XEND. (R271) -/
  | xput (w : Fields)
  /-- Declares the receive area and capacity and arrives on the exchange domain. (R271) -/
  | xend (w : Fields)
  /-- Sends a message to a bank or deposit register of a group core, or retries a held one. (R266) -/
  | amsg (w : Fields)
  /-- Writes the deposit-register enable mask. (R268) -/
  | depcfg (w : Fields)
  /-- Arrives at a barrier domain and waits for its release. (R270) -/
  | bar (w : Fields)
  /-- Arrives at a barrier domain and continues. (R270) -/
  | bara (w : Fields)
  /-- Waits for the release of the domain's current phase and lands the exchange total. (R270) -/
  | barw (w : Fields)
  /-- Defines a barrier domain by cluster and core masks. (R269) -/
  | barcfg (w : Fields)
  /-- Orders the thread's accesses at a given scope and order. (R103) -/
  | fence (w : Fields)
  /-- Atomically adds at the home and returns the old value. (R262) -/
  | atomAdd (w : Fields)
  /-- Atomic minimum at the home. (R262) -/
  | atomMin (w : Fields)
  /-- Atomic maximum at the home. (R262) -/
  | atomMax (w : Fields)
  /-- Atomic AND at the home. (R262) -/
  | atomAnd (w : Fields)
  /-- Atomic OR at the home. (R262) -/
  | atomOr (w : Fields)
  /-- Atomic XOR at the home. (R262) -/
  | atomXor (w : Fields)
  /-- Atomic swap at the home. (R262) -/
  | atomSwap (w : Fields)
  /-- Atomic compare-and-swap at the home. (R262) -/
  | atomCas (w : Fields)
  /-- Arms an expected sequence tag for a local row. (R265) -/
  | stag (w : Fields)
  /-- Starts a helper at a word and lands its number. (R273) -/
  | hstart (w : Fields)
  /-- Seals and waits on the helper's batches, then ends the helper and merges its FFLG. (R273) -/
  | hexit (w : Fields)
  /-- Waits until the named helper is not live. (R273) -/
  | hjoin (w : Fields)
  /-- Returns the live helpers and the grant pointer. (R273) -/
  | hstat (w : Fields)
  /-- Publishes or signals a dependence key, readying it when its count reaches zero. (R274) -/
  | tkpost (w : Fields)
  /-- Removes the head of a queue bank or of the privileged queue. (R275) -/
  | tktake (w : Fields)
  /-- Posts a launch record to a launch queue and lands status and handle. (R276) -/
  | launch (w : Fields)
  /-- Writes the run-time size read at the next anchor. (R277) -/
  | setsz (w : Fields)
  /-- Makes an anchor once earlier results and stores are done. (R278) -/
  | anch (w : Fields)
  /-- Raises cause 0x300 plus its immediate. (R279) -/
  | trap (w : Fields)
  /-- Reads a special register. (R281) -/
  | srr (w : Fields)
  /-- Writes a special register under its access rules. (R281) -/
  | srw (w : Fields)
  /-- Starts a new generation of a WOS page. (R263) -/
  | pgen (w : Fields)
  /-- Returns from a trap by resume, restart or next. (R280) -/
  | rft (w : Fields)
  /-- Requests a proof at the group's next domain-0 release. (R282) -/
  | snap (w : Fields)
  /-- Rolls a group back to its latest proof. (R282) -/
  | roll (w : Fields)
  /-- Arms a core detector to report injected errors. (R402) -/
  | inj (w : Fields)
  /-- Moves a slab or half to a bin. (R282) -/
  | binset (w : Fields)
  /-- Binds two halves to a front end. (R282) -/
  | regbind (w : Fields)
  /-- Requests a cluster move at the group's next domain-0 barrier. (R316) -/
  | mapset (w : Fields)
  /-- Shoots down translations of a page or context and drains old accesses. (R373) -/
  | tlbinv (w : Fields)
  /-- Saves every stopped group of a context to its area. (R360) -/
  | ctxsave (w : Fields)
  /-- Kills a whole context and empties its launch queues and hub map. (R361) -/
  | ctxsaveKill (w : Fields)
  /-- Kills one group. (R361) -/
  | ctxsaveGkill (w : Fields)
  /-- Restores a saved context or installs a free one, optionally running it. (R360) -/
  | ctxload (w : Fields)
  /-- Sets a context's frame quota. (R282) -/
  | quota (w : Fields)
  /-- Requests a stop-at-cycle of a group followed by its save. (R282) -/
  | preempt (w : Fields)
  /-- A result lands on its latency cycle, writing its destination and pushing onto the result queue. (R64) -/
  | resultLanding (ag : Agent)
  /-- A local write passes its check and becomes visible to other agents. (R72) -/
  | counterproofCommit (pl : Place) (id : Nat)
  /-- A retiring word fails its check and is replayed, or taken as timing trap 0x04F. (R393) -/
  | counterproofMismatch (c t word lane : Nat)
  /-- A vector instruction reads its step's source rows and lands a destination row. (R190) -/
  | vectorRowStep (c op : Nat)
  /-- A product, quantise or merge engine starts once it is free and its operands have landed. (R221) -/
  | engineStart (c op : Nat)
  /-- A matrix product lands in its tile and sets the unread mark. (R229) -/
  | productLanding (c op : Nat)
  /-- A checksum-enabled product reaches pass, indeterminate or mismatch. (R61) -/
  | checksumVerdict (c op : Nat)
  /-- A mismatched product replays when the array is free. (R394) -/
  | productReplay (c op : Nat)
  /-- A host DMWr posts a launch record and completes with its outcome. (R341) -/
  | hostLaunchDmwr (port offset : Nat) (data : List Word)
  /-- An 8-byte DMWr signals a key in a context's hub map; `ctx` is 256 times the port it comes over plus the number of the context. (R385, R338) -/
  | hubMapSignal (ctx : Nat) (key : BitVec 32)
  /-- The management controller retests a bin-D half and posts 0x2C4 on a pass. (R397) -/
  | binDRetest (slab : Nat) (pass : Bool)
  /-- The checkpoint finishes and GO reads 0. (R388) -/
  | checkpointComplete (ok : Bool)
  /-- A PCIe completion arrives on a host port for a device-issued request, including the zero-length read that acknowledges posted host-memory writes for a FENCE.sys release. (R118) -/
  | hostPortCompletion (port : Nat) (ok : Bool)
  /-- A held DKEY signal is retried when a hub-map key is removed. (R342) -/
  | dkeyRetry (ctx : Nat)
  /-- A personality operation is performed indivisibly at the bank when granted. (R91) -/
  | personalityOperation (c req : Nat)
  /-- A BPERS or BSPAN is performed at the bank after earlier accesses. (R293) -/
  | bankChangePerform (c req : Nat)
  /-- The changing cycles end and held accesses proceed under the new personality. (R293) -/
  | bankChangeEnd (c req : Nat)
  /-- The trap context starts at TVEC on the second cycle after a precise trap. (R350) -/
  | trapContextStart (c : Nat)
  /-- An open slot is granted to the next qualifying live helper. (R79) -/
  | helperGrant (c : Nat)
  /-- After a routine completes, the control context removes the next routine entry from bank 15 or finishes its work. (R334) -/
  | routineDispatch (c : Nat)
  /-- When CYC mod 1024 is 0, BUDG is reset to the per-core allowance. (R136) -/
  | budgetRefill (c : Nat)
  /-- The NI applies a deposit to a control-context register, detecting collisions. (R85) -/
  | depositArrival (c j : Nat) (v : Word)
  /-- A timed send writes its row, word or deposit at the target on its landing cycle. (R107) -/
  | sendLanding (id : Nat)
  /-- A receiving NI checks a logical request's map version and performs or refuses it. (R317) -/
  | remoteRequestReceive (op part : Nat)
  /-- The sending NI retranslates and reissues a request refused as stale. (R317) -/
  | staleReissue (op part : Nat)
  /-- A memory core starts a request thread for an arriving copy, get, put, signal, atomic or generation. (R127) -/
  | memoryCoreRequest (op : Nat)
  /-- A translation point walks the hashed page table on a TLB miss and checks the entry. (R370) -/
  | pageWalk (op part : Nat)
  /-- A memory core writes copy data into local memory, setting the landed tag and crediting a stage barrier. (R251) -/
  | copyPush (op part : Nat)
  /-- A home performs a global access once its vector-clock condition holds. (R114) -/
  | homePerform (op part : Nat)
  /-- A die sends a clock notice when its count moved and 32 cycles have passed. (R113) -/
  | clockNoticeSend (die : Nat)
  /-- A clock notice or numbered request raises the receiving die's knowledge vector. (R113) -/
  | clockNoticeReceive (die src : Nat) (num : Nat)
  /-- A reply to an RC read or atomic merges the home's vector clock. (R113) -/
  | rcReplyReceive (die : Nat) (clk : List Nat)
  /-- The destination hub applies the signal after the payload and earlier writes are performed. (R119) -/
  | wsigSignal (op : Nat)
  /-- An engine operation completes, with status, to its issuing thread. (R123) -/
  | engineOperationComplete (op : Nat)
  /-- A push into a watched row starts a burin kernel trigger. (R244) -/
  | burinTrigger (c row : Nat)
  /-- The merge tree decides one output entry per cycle and writes full rows. (R241) -/
  | mergeDecision (c : Nat)
  /-- A target checks an arriving matrix command and replies or accepts it. (R135) -/
  | mcmdArrival (op : Nat)
  /-- An accepted command starts on the target array when it is free. (R239) -/
  | mcmdStart (c op : Nat)
  /-- The target performs a message as one personality operation and replies with its status. (R266) -/
  | amsgArrival (op : Nat)
  /-- A counted-exchange packet lands in its receiver's area. (R109) -/
  | exchangePacketLand (grp dom idx : Nat)
  /-- The sync tree releases every domain member on one cycle. (R322) -/
  | barrierRelease (grp dom : Nat)
  /-- Every member image is written and a held release may proceed. (R328) -/
  | proofReady (grp : Nat)
  /-- At the last domain-0 arrival with a MAPSET pending, NIs take the new map version and copying starts. (R316) -/
  | mapChangeBegin (grp : Nat)
  /-- The moved clusters' state is copied and the delayed release falls due. (R316) -/
  | mapCopyComplete (grp : Nat)
  /-- The sequencer stops every member of a coupled domain 64 cycles after a timing trap. (R308) -/
  | coupledStop (grp dom : Nat)
  /-- After RFT.rst and all stops, the domain is released again on one cycle. (R308) -/
  | coupledRerelease (grp dom : Nat)
  /-- At the stop cycle of a PREEMPT every member stops and in-flight results go to flight lists. (R358) -/
  | stopAtCycle (grp : Nat)
  /-- After CTXLOAD the sequencer broadcasts a resume cycle and every anchor moves. (R359) -/
  | resumeCycle (ctx : Nat)
  /-- Members stop, held writes are discarded, logs and images restored. (R331) -/
  | rollback (grp : Nat)
  /-- The repeated superstep is released 40 cycles after the last restore. (R331) -/
  | rollbackRelease (grp : Nat)
  /-- Consumption of an uncorrectable error rolls back or kills the group. (R400) -/
  | ueConsumed (grp code detail : Nat)
  /-- The image and ARG bytes are read and checked, rejecting or passing the kernel. (R300) -/
  | kernelCheck (grp : Nat)
  /-- The sequencer places a checked group or holds it. (R314) -/
  | placement (grp : Nat)
  /-- After installing, the package-wide start broadcast starts the group. (R297) -/
  | startBroadcast (grp : Nat)
  /-- When every member's work is finished the group retires and signals DKEY. (R337) -/
  | groupRetire (grp : Nat)
  /-- The hub takes a fault record and fills, charges and releases a demand page or fails on quota. (R374) -/
  | faultService
  /-- The sequencer takes the next record by effective priority and dequeues it. (R339) -/
  | launchDecision
  /-- Writing GO with DIR 0 starts a whole-device checkpoint to the safe tier. (R388) -/
  | checkpointSave
  /-- Writing GO with DIR 1 writes the image back. (R388) -/
  | checkpointRestore
  /-- A plain memory write to the launch window is discarded and counted. (R341) -/
  | launchWindowWrite (port offset : Nat)
  /-- A die is reset on an uncorrectable error outside group data. (R401) -/
  | dieReset (die : Nat)
  /-- The host writes BASE and context 0 is loaded from that area. (R387) -/
  | ctx0pWrite (v : Word)
  /-- Writes the package's fabric number, ignored while a link is up. (R386) -/
  | fabnoWrite (v : Word)
  /-- A write to a management-window register without behaviour of its own. (R385) -/
  | mgmtRegisterWrite (offset : Nat) (v : Word)
  /-- The security processor generates the key of a key identifier. (R390) -/
  | keyGenerate (id : Nat)
  /-- The security processor erases the key of a key identifier. (R390) -/
  | keyErase (id : Nat)
  /-- Returns the device identity public key. (R390) -/
  | identityKeyRead
  /-- Returns a signed report over a nonce. (R390) -/
  | attestationReport (nonce : BitVec 256)
  /-- The supervisor enables a Ronoi link, starting training. (R380) -/
  | linkEnable (link : Nat)
  /-- The supervisor disables a link. (R380) -/
  | linkDisable (link : Nat)
  /-- Training or retraining ends up, degraded or failed and notice 0x2C2 is posted. (R380) -/
  | linkTrainingDone (link good : Nat)
  /-- A replay threshold or lane loss sends the link into retraining. (R380) -/
  | linkRetrainTrigger (link lost : Nat)
  /-- A flit arrives, is acknowledged, or triggers a replay on CRC failure. (R381) -/
  | flitReceive (link : Nat) (flit : BitVec 256)
  /-- A link leaves or rejoins a set; requests are held and resent on the new mapping. (R382) -/
  | linkSetChange (link : Nat) (joins : Bool)
  /-- A request from a peer is translated through the export table: form 0 a read, 1 a write, 2 and 3 a flag and a counter signal, 4 and 12 an
  atomic on a signed and on an unsigned location, plus its operation. (R119, R262, R383) -/
  | peerRequest (src : Nat) (offset : Nat) (form : Nat) (data : List Byte) (len : Nat)
  /-- Device reset runs bring-up steps 1 to 6 and trains the host ports. (R423) -/
  | deviceReset (fails : Nat)
  /-- Over-power or bin-C count steps the clock down one step. (R424) -/
  | clockStepDown
  /-- A die at 105 C or above steps the clock straight to 1.28 GHz. (R424) -/
  | thermalStep
  /-- After 2^30 cycles without a condition the clock steps up. (R424) -/
  | clockStepUp
  /-- The management controller refreshes PWR every 2^16 cycles. (R425) -/
  | pwrRefresh (pkgw tmax : Nat)
  /-- Held records and groups are placed again when clusters fall free. (R340) -/
  | heldPlacementRetry
  deriving DecidableEq, Repr

end Sys2Proof
end

