-- ==== Sys2Proof/Machine/Encoding.lean ====
section
/-! DEFINITION. The hint readings of R140 to R143, what each operand position admits, and the encoding checks of R156. -/

namespace Sys2Proof

/-- The hint as V reads it (R140 to R143): V = 3 gives none. -/
structure Hint where
  delta : Nat
  rst : Bool
  ec : Nat
  osc : Nat
  cx : Bool
  /-- reserved bits, or LDX = 1 with DELTA = 0 -/
  bad : Bool
  deriving DecidableEq, Repr

/-- R141: bits 79..62 of the word are bits 17..0 here. -/
def hintV0 (h : BitVec 18) : Hint :=
  let d := (h.extractLsb' 12 6).toNat
  let ldx := h.getLsbD 11
  { delta := if ldx then d * 64 else d, rst := h.getLsbD 10, ec := (h.extractLsb' 7 3).toNat,
    osc := (h.extractLsb' 3 4).toNat, cx := h.getLsbD 2,
    bad := h.getLsbD 1 || h.getLsbD 0 || (ldx && d == 0) }

/-- R142. -/
def hintV1 (h : BitVec 18) : Hint :=
  { delta := (h.extractLsb' 14 4).toNat, rst := h.getLsbD 13, ec := 2 * (h.extractLsb' 11 2).toNat,
    osc := (h.extractLsb' 8 3).toNat, cx := false, bad := h.extractLsb' 0 8 != 0 }

/-- R143. -/
def hintV2 (h : BitVec 18) : Hint :=
  { delta := (h.extractLsb' 6 12).toNat, rst := h.getLsbD 5, ec := (h.extractLsb' 2 3).toNat,
    osc := 0, cx := h.getLsbD 1, bad := h.getLsbD 0 }

/-- The hint of a word (R140). -/
def Fields.hint (w : Fields) : Hint :=
  match w.v.toNat with
  | 0 => hintV0 w.h
  | 1 => hintV1 w.h
  | 2 => hintV2 w.h
  | _ => { delta := 0, rst := false, ec := 0, osc := 0, cx := false, bad := false }

/-- Units that an energy class debits (R136). -/
def classUnits (ec : Nat) : Nat := if ec = 0 then 0 else 2 ^ (ec - 1)

namespace Operand

/-- An all-zero field: absent where a position admits nothing (R149). -/
def zero (o : Operand) : Bool := o.kind == .nreg && o.payload == 0

/-- Format code, payload bits 16..13 (R147, R427). -/
def fmt (o : Operand) : Nat := (o.payload.extractLsb' 13 4).toNat

/-- Register, pointer, predicate or tile number, or queue age less 1 (R147). -/
def num (o : Operand) : Nat :=
  match o.kind with
  | .nreg => (o.payload.extractLsb' 0 5).toNat
  | .qage | .ptr => (o.payload.extractLsb' 0 4).toNat
  | .pred | .tile => (o.payload.extractLsb' 0 3).toNat
  | .special => (o.payload.extractLsb' 0 10).toNat
  | .imm | .direct => o.payload.toNat

/-- Post-increment mark of a pointer (R147). -/
def inc (o : Operand) : Bool := o.kind == .ptr && o.payload.getLsbD 12

/-- The value of an immediate (R147). -/
def immInt (o : Operand) : Int := o.payload.toInt

/-- Row number that a direct address names: R427 in a typed position, R147 elsewhere. -/
def directRow (o : Operand) (typed : Bool) : Nat :=
  if typed then
    let sel := (o.payload.extractLsb' 0 13).toNat
    if sel < 0x1000 then sel else 0x4000 + (sel - 0x1000)
  else (o.payload.extractLsb' 0 16).toNat

/-- Some reserved payload bit is set (R147), or a format code stands where none is read (R148). -/
def reservedSet (o : Operand) (typed : Bool) : Bool :=
  match o.kind with
  | .nreg => o.payload.extractLsb' 5 8 != 0 || (!typed && o.fmt != 0)
  | .qage => o.payload.extractLsb' 4 9 != 0 || (!typed && o.fmt != 0)
  | .ptr => o.payload.extractLsb' 4 8 != 0 || (!typed && o.fmt != 0)
  | .imm => false
  | .direct => !typed && o.payload.getLsbD 16
  | .pred | .tile => o.payload.extractLsb' 3 14 != 0
  | .special => o.payload.extractLsb' 10 7 != 0

/-- A format code of 0xC to 0xF where one is read (R148). -/
def reservedFmt (o : Operand) (typed : Bool) : Bool :=
  typed && (match o.kind with | .nreg | .qage | .ptr | .direct => decide (0xC ≤ o.fmt) | _ => false)

end Operand

/-- What an instruction does with an operand position: reads it, writes it, or both. -/
inductive Role where
  | src | dst | both
  deriving DecidableEq, Repr

/-- What an operand position admits (R158, R193, R217, R249, R282). -/
structure Pos where
  kinds : List OpKind := []
  /-- the position may be unused (R149) -/
  opt : Bool := false
  /-- a format code is read (R148) -/
  typed : Bool := false
  /-- a post-incremented pointer is admitted -/
  inc : Bool := false
  /-- range of an immediate -/
  lo : Int := -65536
  hi : Int := 65535
  role : Role := .src
  /-- registers named from the one given on: 2 for a pair or a WSIG address pair, 3 for a quad -/
  span : Nat := 1
  /-- the number must be a multiple of this: 2 for a pair, 4 for a quad -/
  step : Nat := 1
  deriving DecidableEq, Repr

/-- How an opcode reads M (R153). -/
inductive MRead where
  | zero
  | rnd
  /-- rounding when the typed destination A is floating or DM8, overflow behaviour when it is an integer format -/
  | type
  | own (admitted : List Nat)
  deriving DecidableEq, Repr

/-- An instruction's entry in the operand and cost tables. -/
structure Form where
  name : String
  /-- least energy class (R146) -/
  cls : Nat
  a : Pos := {}
  b : Pos := {}
  c : Pos := {}
  m : MRead := .zero
  wide : Bool := false
  priv : Bool := false
  /-- a helper may issue it (R81) -/
  helper : Bool := false
  /-- cause 0x045 in a timed segment before any other cause of the word (R83, R250); the bank instructions and VHISTO have
  their own order (R177, R189) -/
  untimed : Bool := false
  /-- it lands a scalar result on the queue (R64) -/
  push : Bool := false
  /-- its result or pointer lands so many cycles after issue, where that is fixed -/
  lat : Nat := 0
  /-- it belongs to the memory-core profile (R128), and to the burin profile (R245) -/
  memCore : Bool := false
  burin : Bool := false
  /-- fields that the word's form leaves unused (R149, R249) -/
  noB : Fields → Bool := fun _ => false
  noC : Fields → Bool := fun _ => false
  /-- the format codes that the instruction admits together, of A, B and C (R148): others are cause 0x002 -/
  fmts : Nat → Nat → Nat → Bool := fun _ _ _ => true
  /-- a further value that the instruction excludes: cause 0x002; one that it excludes in an untimed segment; a form that a user context may
  not use: cause 0x003 -/
  bad2 : Fields → Bool := fun _ => false
  bad2u : Fields → Bool := fun _ => false
  priv3 : Fields → Bool := fun _ => false
  /-- a further reserved field value: cause 0x004 -/
  bad4 : Fields → Bool := fun _ => false

/-- Which engine issues the word (R155). -/
inductive Profile where
  | front | memCore | burin
  deriving DecidableEq, Repr

/-- The special-register numbers (R152). -/
def specialAssigned (k : Nat) : Bool :=
  decide (k ≤ 0x00A) || (decide (0x010 ≤ k) && decide (k ≤ 0x017)) || (decide (0x100 ≤ k) && decide (k ≤ 0x108))

/-- R152: the privileged ones. -/
def specialPriv (k : Nat) : Bool := decide (0x100 ≤ k) && decide (k ≤ 0x108)

/-- R152: those that SRW may name. -/
def specialWritable (k : Nat) : Bool :=
  k == 0x000 || k == 0x009 || k == 0x00A || k == 0x100 || k == 0x102 || k == 0x104 || k == 0x106 || k == 0x107 ||
  k == 0x108

/-- Is the position present in this word? -/
def Pos.present (p : Pos) (o : Operand) : Bool := !p.kinds.isEmpty && !(p.opt && o.zero)

/-- Step 4 of R156 at one position: a kind the position does not allow, or an excluded value. -/
def Pos.bad2 (p : Pos) (o : Operand) : Bool :=
  p.present o &&
    (!(p.kinds.contains o.kind) ||
      (match o.kind with
       | .imm => decide (o.immInt < p.lo) || decide (p.hi < o.immInt)
       | .ptr => (o.inc && !p.inc) || o.num % p.step != 0
       | .nreg => o.num % p.step != 0
       | .special => !specialAssigned o.num || ((p.role != .src) && !specialWritable o.num)
       | _ => false))

/-- Step 5 of R156 at one position: an unused field that is not zero, a reserved payload bit or format code. -/
def Pos.bad4 (p : Pos) (o : Operand) : Bool :=
  if p.present o then o.reservedSet p.typed || o.reservedFmt p.typed else !o.zero

/-- The element width in bytes of a format code (R39); 0 where there is none. -/
def fmtWidth (f : Nat) : Nat :=
  match f with
  | 0x1 => 4 | 0x2 => 2 | 0x3 => 2 | 0x4 => 1 | 0x5 => 2 | 0x6 => 4 | 0x7 => 8 | 0x8 => 1 | 0x9 => 2 | 0xA => 4
  | 0xB => 1 | _ => 0

/-- FP32, FP16, BF16 (R193). -/
def fmtF (f : Nat) : Bool := f == 1 || f == 2 || f == 3

/-- I8, I16, I32. -/
def fmtI (f : Nat) : Bool := f == 4 || f == 5 || f == 6

/-- N8, N16, N32. -/
def fmtN (f : Nat) : Bool := f == 8 || f == 9 || f == 10

/-- F, I, N and DM8. -/
def fmtX (f : Nat) : Bool := fmtF f || fmtI f || fmtN f || f == 11

/-- The N format of a width in bytes. -/
def fmtNOf (width : Nat) : Nat := if width = 1 then 8 else if width = 2 then 9 else 10

/-- The codes that may stand for an operand's: its own, or, where that is reserved and so left to step 5, and for an immediate, which takes the
element format, any that is in range (R148, R188). -/
def Operand.codes (o : Operand) : List Nat := if o.kind == .imm || 0xC ≤ o.fmt then List.range 12 else [o.fmt]

/-- Step 4 of R156 for the format codes: no reading of the reserved ones makes them codes that the instruction admits. -/
def Form.fmtsBad (f : Form) (w : Fields) : Bool :=
  !(w.a.codes.any fun a => w.b.codes.any fun b => w.c.codes.any fun c => f.fmts a b c)

/-- An M that the reading does not define (R153). -/
def MRead.bad (r : MRead) (w : Fields) : Bool :=
  match r with
  | .zero => w.m != 0
  | .rnd => false
  | .type => !(fmtF w.a.fmt || w.a.fmt == 11) && decide (2 ≤ w.m.toNat)
  | .own l => !(l.contains w.m.toNat)

/-- The 40-bit immediate of the wide form (R150). -/
def Fields.wideImm (w : Fields) : BitVec 40 :=
  let k : OpKind → BitVec 3 := fun
    | .nreg => 0 | .qage => 1 | .ptr => 2 | .imm => 3 | .direct => 4 | .pred => 5 | .tile => 6 | .special => 7
  k w.b.kind ++ w.b.payload ++ (k w.c.kind ++ w.c.payload)

/-- Step 2 of R156 for an assigned opcode: outside the profile of the issuing engine. -/
def Form.outside (f : Form) (p : Profile) : Bool :=
  match p with
  | .front => false
  | .memCore => !f.memCore
  | .burin => !f.burin

/-- What the word's form admits in fields B and C: nothing where it leaves them unused. -/
def Form.posB (f : Form) (w : Fields) : Pos := if f.noB w then {} else f.b
def Form.posC (f : Form) (w : Fields) : Pos := if f.noC w then {} else f.c

/-- A used operand field that names a privileged special register. -/
def Pos.privileged (p : Pos) (o : Operand) : Bool := p.present o && o.kind == .special && specialPriv o.num

/-- Step 3 of R156: an opcode, an operand or a form that a user context may not use. -/
def Form.unprivileged (f : Form) (w : Fields) : Bool :=
  f.priv || f.priv3 w || f.a.privileged w.a || (!f.wide && ((f.posB w).privileged w.b || (f.posC w).privileged w.c))

/-- A named register, age or predicate that the profile gives no place (R128, R245), or an operand kind it does not
allow. -/
def Operand.outside (o : Operand) (p : Profile) : Bool :=
  match p with
  | .front => false
  | .memCore => o.kind == .ptr || o.kind == .tile || (o.kind == .special && o.num != 1)
  | .burin =>
    (match o.kind with
     | .nreg => decide (16 ≤ (o.payload.extractLsb' 0 5).toNat)
     | .qage | .ptr | .tile | .special => true
     | _ => false)

/-- The excluded operands of the burin CPY (R256) and of the memory-core copies (R128). -/
def Form.profileBad2 (f : Form) (w : Fields) (p : Profile) : Bool :=
  (!f.wide && ((f.a.present w.a && w.a.outside p) || ((f.posB w).present w.b && w.b.outside p) ||
    ((f.posC w).present w.c && w.c.outside p))) ||
  (f.wide && w.a.outside p) ||
  (match p with
   | .memCore => ((f.name == "CPY" || f.name == "CPYI" || f.name == "CPYZ") && w.a.kind != .nreg && w.a.kind != .qage) ||
       (f.name == "AMSG" && w.a.kind == .imm)
   | _ => false)

/-- The encoding checks of R156, step by step, for a word of an assigned opcode in a timed or an untimed segment (R238). -/
def Form.cause (f : Form) (w : Fields) (priv : Bool) (p : Profile) (timed : Bool) : Option Nat :=
  if w.v = 3 then some 0x001
  else if f.outside p then some 0x000
  else if !priv && f.unprivileged w then some 0x003
  else if f.a.bad2 w.a || (!f.wide && ((f.posB w).bad2 w.b || (f.posC w).bad2 w.c)) || f.fmtsBad w || f.bad2 w ||
      (!timed && f.bad2u w) || f.profileBad2 w p then some 0x002
  else if (p != .memCore && w.hint.bad) || f.a.bad4 w.a || (!f.wide && ((f.posB w).bad4 w.b || (f.posC w).bad4 w.c)) || f.m.bad w ||
      decide (w.hint.ec < f.cls) || f.bad4 w || (p == .burin && f.name == "CPY" && w.m != 0) then some 0x004
  else none

/-! The operand positions. -/

def pN : Pos := { kinds := [.nreg] }
def pDst : Pos := { kinds := [.nreg], role := .dst }
def pBoth : Pos := { kinds := [.nreg], role := .both }
def pNQ : Pos := { kinds := [.nreg, .qage] }
def pNQI : Pos := { kinds := [.nreg, .qage, .imm] }
def pNQIr (lo hi : Int) : Pos := { kinds := [.nreg, .qage, .imm], lo := lo, hi := hi }
def pImm (lo hi : Int) : Pos := { kinds := [.imm], lo := lo, hi := hi }
def pOff : Pos := { kinds := [.imm] }
def pPred : Pos := { kinds := [.pred] }
def pPredD : Pos := { kinds := [.pred], role := .dst }
def pTile : Pos := { kinds := [.tile] }
def pSpecR : Pos := { kinds := [.special] }
def pSpecW : Pos := { kinds := [.special], role := .dst }
def Pos.orUnused (p : Pos) : Pos := { p with opt := true }
def Pos.withFmt (p : Pos) : Pos := { p with typed := true }
/-- address positions of LDL, STL and the bank instructions (R158) -/
def pAddr : Pos := { kinds := [.nreg, .qage, .ptr, .direct], inc := true }
def pAddr0 : Pos := { kinds := [.nreg, .qage, .ptr, .direct] }
def pPtrD : Pos := { kinds := [.ptr], role := .dst }
/-- R186: memory operand and scalar operand -/
def pMem : Pos := { kinds := [.ptr, .direct], inc := true }
def pMemT : Pos := { kinds := [.ptr, .direct], inc := true, typed := true }
def pScT : Pos := { kinds := [.nreg, .qage, .imm], typed := true }
def pMemScT : Pos := { kinds := [.ptr, .direct, .nreg, .qage, .imm], inc := true, typed := true }
/-- R249 -/
def pLoc : Pos := { kinds := [.ptr, .direct, .nreg, .qage], inc := true }
def pPairT : Pos := { kinds := [.ptr], inc := true, typed := true, span := 2, step := 2 }
def pPair : Pos := { kinds := [.ptr], inc := true, span := 2, step := 2 }
def pQuadT : Pos := { kinds := [.ptr], inc := true, typed := true, span := 3, step := 4 }
def pLen : Pos := pNQIr 1 65535

/-! The forms, in the opcode map's order. Class 0x0 (R158, R159). -/

def fAlu (n : String) : Form :=
  { name := n, cls := 3, a := pDst, b := pNQI, c := pNQI, helper := true, push := true, lat := 1, memCore := true, burin := true }
def fMul (n : String) : Form := { fAlu n with lat := 3 }
def fDiv (n : String) : Form := { fAlu n with cls := 4, lat := 18, burin := false }
/-- R160: an immediate amount outside 0 to 63 is excluded. -/
def fShift (n : String) : Form :=
  { fAlu n with bad2 := fun w => w.c.kind == .imm && (decide (w.c.immInt < 0) || decide (63 < w.c.immInt)) }
def fUn (n : String) : Form := { fAlu n with b := pNQ, c := {} }
def fExt (n : String) : Form := { fAlu n with b := pNQ, c := pImm 1 64 }
/-- R162: an immediate control with any of bits 16..12 set is reserved. -/
def fField (n : String) (r : Role) : Form :=
  { fAlu n with
    a := { kinds := [.nreg], role := r }, b := pNQ, c := pNQI,
    bad4 := fun w => w.c.kind == .imm && w.c.payload.extractLsb' 12 5 != 0 }
def fLi : Form := { fAlu "LI" with b := {}, c := {}, wide := true }
/-- R163: immediate bits 39..24 are reserved. -/
def fLih : Form :=
  { fAlu "LIH" with a := pBoth, b := {}, c := {}, wide := true, bad4 := fun w => w.wideImm.extractLsb' 24 16 != 0 }
def fMov : Form := { fAlu "MOV" with b := { kinds := [.nreg, .qage, .imm, .ptr] }, c := {} }
def fSel : Form := { fAlu "SEL" with a := pBoth, b := pPred, c := pNQI }
def fCmp (n : String) : Form := { fAlu n with a := pPredD }
def fPred (n : String) : Form := { fAlu n with cls := 2, a := pPredD, b := pPred, c := pPred }
def fPnot : Form := { fPred "PNOT" with c := {} }

/-! Class 0x1 (R165 to R167). -/

def fFp (n : String) (r : Role) : Form :=
  { name := n, cls := 4, a := { kinds := [.nreg], role := r, typed := true }, b := pNQ.withFmt, c := pNQ.withFmt, m := .rnd,
    helper := true, push := true, lat := 4, memCore := true, fmts := fun a b c => fmtF a && b == a && c == a }
def fFcmp (n : String) : Form :=
  { name := n, cls := 3, a := pPredD, b := pNQ.withFmt, c := pNQ.withFmt, helper := true, push := true, lat := 2,
    memCore := true, fmts := fun _ b c => fmtF b && c == b }
def fFcvt : Form :=
  { name := "FCVT", cls := 3, a := pDst.withFmt, b := pNQ.withFmt, m := .rnd, helper := true, push := true, lat := 3,
    memCore := true, fmts := fun a b _ => a != 0 && b != 0 }

/-! Class 0x2 (R168 to R172). -/

def fBr (n : String) : Form := { name := n, cls := 2, helper := true, memCore := true }
def fBr0 : Form := { fBr "BR" with a := pOff, burin := true }
def fBri : Form := { fBr "BRI" with a := pNQ, b := pOff }
def fCall : Form := { fBr "CALL" with a := pDst, b := pOff, push := true, lat := 1 }
def fRet : Form := { fBr "RET" with a := pNQ }
def fLoop : Form := { fBr "LOOP" with a := pBoth, b := pOff, push := true, lat := 1, burin := true }
def fNop : Form := { fBr "NOP" with cls := 0, burin := true }
def fRtend : Form := { fBr "RTEND" with cls := 1, helper := false, burin := true }

/-! Class 0x3 (R173 to R184). -/

def fLdl (n : String) : Form :=
  { name := n, cls := 3, a := pDst, b := pAddr, c := pNQI.orUnused, m := .own [0, 1, 2, 3], helper := true, push := true,
    memCore := true, burin := true }
def fStl (n : String) : Form :=
  { name := n, cls := 3, a := pAddr, b := pNQI, c := pNQI.orUnused, m := .own [0, 2, 3], helper := true, memCore := true }
def fSetp : Form :=
  { name := "SETP", cls := 2, a := pPtrD, b := pAddr0, c := pNQIr (-32768) 65535, helper := true, lat := 1 }
def fLdp : Form := { name := "LDP", cls := 3, a := pPtrD, b := pAddr0, c := pNQI.orUnused, helper := true }
def fBpers : Form :=
  { name := "BPERS", cls := 5, a := pAddr, b := pNQI, c := pOff, m := .own [0, 1, 2],
    bad2 := fun w => w.c.kind == .imm && (decide (w.c.immInt < 0) || decide (5 < w.c.immInt) || (w.m == 2 && w.c.immInt != 0)) }
def fBspan : Form :=
  { name := "BSPAN", cls := 4, a := pAddr, b := pNQI, m := .own [0],
    bad2 := fun w => w.b.kind == .imm && !([1, 2, 4, 8, 16].contains w.b.immInt) }
def fBstat : Form :=
  { name := "BSTAT", cls := 3, a := pDst, b := pAddr, m := .own [0], helper := true, push := true }
def fBsnap : Form :=
  { name := "BSNAP", cls := 5, a := pAddr, b := pAddr, m := .own [0], helper := true, push := true }

/-! Classes 0x4 and 0x5 (R193). -/

def fVec (n : String) (cls : Nat) : Form :=
  { name := n, cls := cls, a := pMemT, b := pMemT, helper := true }
def fVec3 (n : String) (ok : Nat → Bool) (m : MRead) : Form :=
  { fVec n 4 with c := pMemScT, m := m, fmts := fun a b c => ok a && b == a && c == a }
def fVfma : Form := { fVec3 "VFMA" (fun f => fmtF f || fmtI f || fmtN f) .type with a := { pMemT with role := .both } }
def fVec2 (n : String) (ok : Nat → Bool) (m : MRead) (cls : Nat) : Form :=
  { fVec n cls with m := m, fmts := fun a b _ => ok a && b == a }
def fVcmp (n : String) : Form :=
  { fVec n 4 with
    c := pMemScT, fmts := fun a b c => (fmtF b || fmtI b || fmtN b) && c == b && a == fmtNOf (fmtWidth b) }
def fVsel : Form :=
  { fVec "VSEL" 4 with
    c := pMemScT, fmts := fun a b c => fmtX a && c == a && b == fmtNOf (fmtWidth a) }
def fVcvt : Form := { fVec "VCVT" 4 with m := .rnd, fmts := fun a b _ => fmtX a && fmtX b }
def fVmov : Form := fVec2 "VMOV" fmtX .zero 3
def fVbcast : Form :=
  { fVec "VBCAST" 3 with b := pScT, fmts := fun a b _ => fmtX a && b == a }
def fViota : Form :=
  { fVec "VIOTA" 3 with
    b := pScT.orUnused, noB := fun w => w.b.zero,
    fmts := fun a _ _ => fmtF a || fmtI a || fmtN a,
    bad2 := fun w => !w.b.zero && !(w.a.codes.any fun a => w.b.codes.contains a && (fmtF a || fmtI a || fmtN a)) }
/-- R202. -/
def vsumOk (b a : Nat) : Bool :=
  match b with
  | 1 => a == 1
  | 2 => a == 1 || a == 2
  | 3 => a == 1 || a == 3
  | 4 | 5 | 6 => a == 6 || a == 7
  | 8 | 9 | 10 => a == 10 || a == 7
  | _ => false
def fVsum : Form :=
  { fVec "VSUM" 4 with a := pDst.withFmt, m := .type, push := true, fmts := fun a b _ => vsumOk b a }
def fVred (n : String) : Form :=
  { fVec2 n (fun f => fmtF f || fmtI f || fmtN f) .type 4 with a := pDst.withFmt, push := true }
def fVscan : Form := fVec2 "VSCAN" (fun f => fmtF f || fmtI f || fmtN f) .type 4
def fVfun (n : String) : Form := fVec2 n fmtF .rnd 5
/-- R206: A and B in X and of one width; C N16, or N of A's width. -/
def fVperm : Form :=
  { fVec "VPERM" 4 with
    c := pMemT, fmts := fun a b c => fmtX a && fmtX b && fmtWidth a == fmtWidth b && c == 9 }
def fVcomp (n : String) : Form :=
  { fVec n 4 with
    c := pMemT, push := true,
    fmts := fun a b c => fmtX a && fmtX b && fmtWidth a == fmtWidth b && c == fmtNOf (fmtWidth a) }
def fVpack : Form :=
  { fVec "VPACK" 5 with
    a := { kinds := [.ptr], inc := true }, m := .own [0], push := true,
    fmts := fun _ b _ => fmtX b }
def fVunpk : Form :=
  { fVec "VUNPK" 5 with b := pMem, m := .own [0], push := true, fmts := fun a _ _ => fmtX a }
/-- R211: the side that holds keys is the N format of the other's width. -/
def vordOk (m a b : Nat) : Bool :=
  let key := if m < 2 then a else b
  let num := if m < 2 then b else a
  (fmtF num || fmtI num || fmtN num) && key == fmtNOf (fmtWidth num)
def fVord : Form :=
  { fVec "VORD" 4 with m := .own [0, 1, 2, 3], bad2 := fun w => !(w.a.codes.any fun a => w.b.codes.any fun b => vordOk w.m.toNat a b) }
def fVdigit : Form :=
  { fVec "VDIGIT" 4 with
    c := pNQI, m := .own [0],
    fmts := fun a b _ => fmtN a && (fmtI b || fmtN b),
    bad4 := fun w => w.c.kind == .imm && w.c.payload.extractLsb' 9 8 != 0 }
def fVhisto : Form :=
  { fVec "VHISTO" 4 with
    a := { kinds := [.ptr, .direct] }, c := pNQI.orUnused, m := .own [0], push := true,
    fmts := fun _ b _ => fmtN b }
/-- R214: C is unused for M = 0 and present for M = 1 and 2. -/
def fVcount : Form :=
  { fVec "VCOUNT" 4 with
    a := pDst, c := pScT, m := .own [0, 1, 2], push := true, noC := fun w => w.m == 0 || w.m == 3, fmts := fun _ b _ => fmtX b,
    bad2 := fun w => !(w.m == 0 || w.m == 3) && !(w.b.codes.any fun b => w.c.codes.contains b && fmtX b) }

/-! Class 0x6 and 0x7 (R217, R218). -/

def fTcfg : Form := { name := "TCFG", cls := 2, a := pTile, b := pNQI, m := .own [0, 1, 2] }
def fTzero : Form := { name := "TZERO", cls := 3, a := pTile, m := .own [0] }
def fTload : Form := { name := "TLOAD", cls := 5, a := pTile, b := pMemT, m := .own [0] }
def fTstore : Form := { name := "TSTORE", cls := 5, a := pMemT, b := pTile, m := .type }
def fMma (n : String) (b : Pos) : Form :=
  { name := n, cls := 5, a := pTile, b := b, c := pImm 0 65535, m := .own [0, 1, 2, 3] }
def fQstage : Form := { name := "QSTAGE", cls := 5, a := pPair, b := pTile, c := pImm 0 65535, m := .own [1, 2, 3] }
def fTchk : Form := { name := "TCHK", cls := 2, a := pDst, b := pTile, m := .own [0], push := true, lat := 2 }
def fMcmd : Form := { name := "MCMD", cls := 4, a := pNQ, b := pNQ, c := pNQ, m := .own [0] }
def fCapmint : Form :=
  { name := "CAPMINT", cls := 2, a := pDst, b := pNQ, c := pNQIr 0 65535, m := .own [0], push := true, lat := 2 }
def fLend : Form := { name := "LEND", cls := 1, a := pImm 0 65535, b := pImm 0 65535, m := .own [0], bad2u := fun w => w.a.immInt != 0 }
def fMbind : Form := { name := "MBIND", cls := 2, a := pImm 0 8, b := pMem, c := pNQIr 0 65535, m := .own [0] }
def fMmerge : Form := { name := "MMERGE", cls := 5, a := pImm 0 255, c := pImm 0 65535, m := .own [0, 1, 2] }
def fMdrain : Form := { name := "MDRAIN", cls := 2, m := .own [0] }
def fMstat : Form := { name := "MSTAT", cls := 2, a := pDst, m := .own [0], push := true, lat := 2 }
def fBkld : Form := { name := "BKLD", cls := 3, a := pImm 0 255, b := pMem, c := pNQIr 1 256, m := .own [0] }
def fBkarm : Form := { name := "BKARM", cls := 2, a := pImm 0 255, b := pMem, c := pNQI, m := .own [0] }
def fBkoff : Form := { name := "BKOFF", cls := 2, m := .own [0] }
def fBkstat : Form := { name := "BKSTAT", cls := 2, a := pDst, m := .own [0], push := true, lat := 2 }

/-! Classes 0x8 to 0xC (R249, R250, R282). -/

def fCpy (n : String) (ms : List Nat) : Form :=
  { name := n, cls := 4, a := pLoc, b := pNQ, c := pLen, m := .own ms, helper := true, memCore := true }
/-- CPY alone belongs to the burin profile; its A is a named register or a direct address, its B and C as R256 says. -/
def fCpy0 : Form := { fCpy "CPY" [0, 1, 2, 3] with burin := true }
def fSeal : Form :=
  { name := "SEAL", cls := 2, a := pDst.orUnused, m := .own [0], helper := true, push := true, lat := 1, memCore := true }
def fWaitb : Form :=
  { name := "WAITB", cls := 2, a := { kinds := [.imm, .special], lo := 0, hi := 14 }, m := .own [0], helper := true, memCore := true,
    bad2 := fun w => w.a.kind == .special && !(decide (0x010 ≤ w.a.num) && decide (w.a.num ≤ 0x017)) }
def fCpq : Form :=
  { name := "CPQ", cls := 2, a := pDst, b := pNQIr 0 65535, m := .own [0], helper := true, push := true, lat := 2, memCore := true }
def fRget : Form := { name := "RGET", cls := 4, a := pLoc, b := pNQ, c := pLen, m := .own [0, 1], helper := true }
def fRput : Form := { name := "RPUT", cls := 4, a := pNQ, b := pLoc, c := pLen, m := .own [0], helper := true }
/-- A negative immediate C fails the encoding (DEDUCED, log entry 19). -/
def fWsig : Form :=
  { name := "WSIG", cls := 4, a := { kinds := [.nreg], span := 2, step := 2 }, b := pMem, c := pNQI, m := .own [0, 1], helper := true,
    bad2 := fun w => w.c.kind == .imm && decide (w.c.immInt < 0) }
/-- R264: C of .dep must be 0; the source is a memory operand for .row, a register otherwise. -/
def fSend : Form :=
  { name := "SEND", cls := 3, a := pNQ, b := { kinds := [.ptr, .direct, .nreg, .qage], inc := true }, c := pImm 0 65535,
    m := .own [0, 1, 2],
    bad2 := fun w => (w.m == 0 && (w.b.kind == .nreg || w.b.kind == .qage)) ||
      ((w.m == 1 || w.m == 2) && (w.b.kind == .ptr || w.b.kind == .direct)) || (w.m == 2 && w.c.immInt != 0) }
def fXput : Form := { name := "XPUT", cls := 3, a := pNQ, b := pMem, c := pLen, m := .own [0] }
def fXend : Form := { name := "XEND", cls := 2, a := pMem, b := pNQIr 0 65535, c := pImm 0 31, m := .own [0] }
/-- R266, R267: A imm 0 is .retry and takes no B and no C. -/
def fAmsg : Form :=
  { name := "AMSG", cls := 3, a := { kinds := [.nreg, .qage, .imm], lo := 0, hi := 0 },
    b := { kinds := [.nreg, .qage, .ptr, .direct], inc := true }, c := (pNQIr 8 2048).orUnused,
    m := .own [0, 1, 2, 3], helper := true, memCore := true, noB := fun w => w.a.kind == .imm, noC := fun w => w.a.kind == .imm }
def fDepcfg : Form := { name := "DEPCFG", cls := 2, a := pImm 0 255, m := .own [0] }
def fBar (n : String) : Form := { name := n, cls := 2, a := pImm 0 31, m := .own [0, 1] }
def fBarw : Form := { name := "BARW", cls := 2, a := pImm 0 31, m := .own [0], push := true }
def fBarcfg : Form := { name := "BARCFG", cls := 2, a := pImm 0 31, b := pNQ, c := pNQIr 1 65535, m := .own [0] }
def fFence : Form := { name := "FENCE", cls := 1, a := pImm 0 4, m := .own [0, 1, 2, 3], helper := true }
/-- R249: I32, N32, I64 or 0x0. -/
def fAtom (n : String) : Form :=
  { name := n, cls := 3, a := pBoth.withFmt, b := pNQ, c := pNQI, m := .own [0, 1, 2, 3], helper := true, untimed := true, push := true,
    fmts := fun a _ _ => [0, 6, 7, 10].contains a }
def fStag : Form := { name := "STAG", cls := 1, a := pMem, b := pNQIr 0 65535 }
def fHstart : Form := { name := "HSTART", cls := 2, a := pDst, b := pOff, push := true, lat := 1 }
def fHexit : Form := { name := "HEXIT", cls := 1, helper := true }
def fHjoin : Form := { name := "HJOIN", cls := 1, a := pNQIr 0 10, untimed := true }
def fHstat : Form := { name := "HSTAT", cls := 2, a := pDst, helper := true, push := true, lat := 1 }
/-- R249: C is the count of .pub and unused for .sig. -/
def fTkpost : Form :=
  { name := "TKPOST", cls := 3, a := { kinds := [.ptr, .direct, .nreg, .qage, .imm], inc := true, lo := 0, hi := 0 }, b := pNQI,
    c := pNQIr 0 65535, m := .own [0, 1], helper := true, untimed := true, push := true, noC := fun w => w.m != 1 }
def fTktake : Form :=
  { name := "TKTAKE", cls := 3, a := pDst, b := { kinds := [.ptr, .direct, .nreg, .qage, .imm], inc := true, lo := 0, hi := 0 },
    m := .own [0], helper := true, untimed := true, push := true, priv3 := fun w => w.b.kind == .imm && w.b.immInt == 0 }
def fLaunch : Form :=
  { name := "LAUNCH", cls := 4, a := pDst, b := pMem, c := pNQIr 0 7, m := .own [0], helper := true, untimed := true, push := true }
def fSetsz : Form := { name := "SETSZ", cls := 1, a := pNQIr 0 65535, push := true, lat := 1 }
def fAnch : Form := { name := "ANCH", cls := 1 }
def fTrap : Form := { name := "TRAP", cls := 1, a := pImm 0 255, helper := true, memCore := true }
def fSrr : Form := { name := "SRR", cls := 2, a := pDst, b := pSpecR, helper := true, push := true, lat := 2, memCore := true }
def fSrw : Form := { name := "SRW", cls := 2, a := pSpecW, b := pNQI, helper := true }
def fPgen : Form := { name := "PGEN", cls := 4, a := pNQ, helper := true }

def fPriv (n : String) : Form := { name := n, cls := 2, m := .own [0], priv := true, untimed := true }
def fRft : Form := { fPriv "RFT" with m := .own [0, 1, 2] }
def fSnap : Form := { fPriv "SNAP" with a := pNQ }
def fRoll : Form := { fPriv "ROLL" with a := pNQ }
def fInj : Form := { fPriv "INJ" with a := pImm 0 63, b := pNQIr 0 65535 }
def fBinset : Form := { fPriv "BINSET" with a := pNQ, b := pImm 0 3, push := true, lat := 1 }
def fRegbind : Form := { fPriv "REGBIND" with a := pNQ, b := pNQ, push := true, lat := 1 }
def fMapset : Form := { fPriv "MAPSET" with a := pNQ, b := pNQ, c := pNQ, push := true, lat := 1 }
def fTlbinv : Form := { fPriv "TLBINV" with a := pNQ, b := pNQ, c := pImm 0 1 }
def fCtxsave (n : String) (m : Nat) : Form := { fPriv n with a := pNQ, m := .own [m] }
def fCtxload : Form := { fPriv "CTXLOAD" with a := pNQ, b := pImm 0 1, c := pNQ.orUnused }
def fQuota : Form := { fPriv "QUOTA" with a := pNQ, b := pNQI }
def fPreempt : Form := { fPriv "PREEMPT" with a := pNQ }

/-- An operation's ten-bit opcode (R154), the entry of its operand and cost tables, and its fields. -/
structure WordOf where
  op : Nat
  form : Form
  w : Fields

/-- The word side of an operation; an event has none. -/
def Instr.word : Instr → Option WordOf
  | .add w => some ⟨0x0, fAlu "ADD", w⟩
  | .sub w => some ⟨0x1, fAlu "SUB", w⟩
  | .mul w => some ⟨0x2, fMul "MUL", w⟩
  | .mulhs w => some ⟨0x3, fMul "MULHS", w⟩
  | .mulhu w => some ⟨0x4, fMul "MULHU", w⟩
  | .divs w => some ⟨0x5, fDiv "DIVS", w⟩
  | .divu w => some ⟨0x6, fDiv "DIVU", w⟩
  | .rems w => some ⟨0x7, fDiv "REMS", w⟩
  | .remu w => some ⟨0x8, fDiv "REMU", w⟩
  | .and w => some ⟨0x9, fAlu "AND", w⟩
  | .or w => some ⟨0xa, fAlu "OR", w⟩
  | .xor w => some ⟨0xb, fAlu "XOR", w⟩
  | .andn w => some ⟨0xc, fAlu "ANDN", w⟩
  | .shl w => some ⟨0xd, fShift "SHL", w⟩
  | .shrl w => some ⟨0xe, fShift "SHRL", w⟩
  | .shra w => some ⟨0xf, fShift "SHRA", w⟩
  | .rotl w => some ⟨0x10, fShift "ROTL", w⟩
  | .clz w => some ⟨0x11, fUn "CLZ", w⟩
  | .popc w => some ⟨0x12, fUn "POPC", w⟩
  | .mins w => some ⟨0x13, fAlu "MINS", w⟩
  | .maxs w => some ⟨0x14, fAlu "MAXS", w⟩
  | .minu w => some ⟨0x15, fAlu "MINU", w⟩
  | .maxu w => some ⟨0x16, fAlu "MAXU", w⟩
  | .abs w => some ⟨0x17, fUn "ABS", w⟩
  | .sext w => some ⟨0x18, fExt "SEXT", w⟩
  | .zext w => some ⟨0x19, fExt "ZEXT", w⟩
  | .bfx w => some ⟨0x1a, fField "BFX" .dst, w⟩
  | .bfi w => some ⟨0x1b, fField "BFI" .both, w⟩
  | .li w => some ⟨0x1c, fLi, w⟩
  | .lih w => some ⟨0x1d, fLih, w⟩
  | .mov w => some ⟨0x1e, fMov, w⟩
  | .sel w => some ⟨0x1f, fSel, w⟩
  | .cmpEq w => some ⟨0x20, fCmp "CMP_EQ", w⟩
  | .cmpNe w => some ⟨0x21, fCmp "CMP_NE", w⟩
  | .cmpLt w => some ⟨0x22, fCmp "CMP_LT", w⟩
  | .cmpGe w => some ⟨0x23, fCmp "CMP_GE", w⟩
  | .cmpLtu w => some ⟨0x24, fCmp "CMP_LTU", w⟩
  | .cmpGeu w => some ⟨0x25, fCmp "CMP_GEU", w⟩
  | .pand w => some ⟨0x28, fPred "PAND", w⟩
  | .por w => some ⟨0x29, fPred "POR", w⟩
  | .pxor w => some ⟨0x2a, fPred "PXOR", w⟩
  | .pnot w => some ⟨0x2b, fPnot, w⟩
  | .fadd w => some ⟨0x40, fFp "FADD" .dst, w⟩
  | .fmul w => some ⟨0x41, fFp "FMUL" .dst, w⟩
  | .ffma w => some ⟨0x42, fFp "FFMA" .both, w⟩
  | .fcmpEq w => some ⟨0x48, fFcmp "FCMP_EQ", w⟩
  | .fcmpNe w => some ⟨0x49, fFcmp "FCMP_NE", w⟩
  | .fcmpLt w => some ⟨0x4a, fFcmp "FCMP_LT", w⟩
  | .fcmpLe w => some ⟨0x4b, fFcmp "FCMP_LE", w⟩
  | .fcmpUn w => some ⟨0x4c, fFcmp "FCMP_UN", w⟩
  | .fcvt w => some ⟨0x50, fFcvt, w⟩
  | .br w => some ⟨0x80, fBr0, w⟩
  | .bri w => some ⟨0x81, fBri, w⟩
  | .call w => some ⟨0x82, fCall, w⟩
  | .ret w => some ⟨0x83, fRet, w⟩
  | .loop w => some ⟨0x84, fLoop, w⟩
  | .nop w => some ⟨0x85, fNop, w⟩
  | .rtend w => some ⟨0x86, fRtend, w⟩
  | .ldlB w => some ⟨0xc0, fLdl "LDL_B", w⟩
  | .ldlH w => some ⟨0xc1, fLdl "LDL_H", w⟩
  | .ldlW w => some ⟨0xc2, fLdl "LDL_W", w⟩
  | .ldlD w => some ⟨0xc3, fLdl "LDL_D", w⟩
  | .stlB w => some ⟨0xc4, fStl "STL_B", w⟩
  | .stlH w => some ⟨0xc5, fStl "STL_H", w⟩
  | .stlW w => some ⟨0xc6, fStl "STL_W", w⟩
  | .stlD w => some ⟨0xc7, fStl "STL_D", w⟩
  | .setp w => some ⟨0xc8, fSetp, w⟩
  | .ldp w => some ⟨0xc9, fLdp, w⟩
  | .bpers w => some ⟨0xd0, fBpers, w⟩
  | .bspan w => some ⟨0xd1, fBspan, w⟩
  | .bstat w => some ⟨0xd2, fBstat, w⟩
  | .bsnap w => some ⟨0xd3, fBsnap, w⟩
  | .vadd w => some ⟨0x100, fVec3 "VADD" (fun f => fmtF f || fmtI f || fmtN f) .type, w⟩
  | .vsub w => some ⟨0x101, fVec3 "VSUB" (fun f => fmtF f || fmtI f || fmtN f) .type, w⟩
  | .vmul w => some ⟨0x102, fVec3 "VMUL" (fun f => fmtF f || fmtI f || fmtN f) .type, w⟩
  | .vfma w => some ⟨0x103, fVfma, w⟩
  | .vmin w => some ⟨0x104, fVec3 "VMIN" (fun f => fmtF f || fmtI f || fmtN f) .type, w⟩
  | .vmax w => some ⟨0x105, fVec3 "VMAX" (fun f => fmtF f || fmtI f || fmtN f) .type, w⟩
  | .vabs w => some ⟨0x106, fVec2 "VABS" (fun f => fmtF f || fmtI f) .type 4, w⟩
  | .vneg w => some ⟨0x107, fVec2 "VNEG" (fun f => fmtF f || fmtI f) .type 4, w⟩
  | .vand w => some ⟨0x108, fVec3 "VAND" (fun f => fmtI f || fmtN f) .zero, w⟩
  | .vor w => some ⟨0x109, fVec3 "VOR" (fun f => fmtI f || fmtN f) .zero, w⟩
  | .vxor w => some ⟨0x10a, fVec3 "VXOR" (fun f => fmtI f || fmtN f) .zero, w⟩
  | .vshl w => some ⟨0x10b, fVec3 "VSHL" (fun f => fmtI f || fmtN f) .zero, w⟩
  | .vshr w => some ⟨0x10c, fVec3 "VSHR" (fun f => fmtI f || fmtN f) .zero, w⟩
  | .vcmpEq w => some ⟨0x110, fVcmp "VCMP_EQ", w⟩
  | .vcmpNe w => some ⟨0x111, fVcmp "VCMP_NE", w⟩
  | .vcmpLt w => some ⟨0x112, fVcmp "VCMP_LT", w⟩
  | .vcmpLe w => some ⟨0x113, fVcmp "VCMP_LE", w⟩
  | .vcmpGt w => some ⟨0x114, fVcmp "VCMP_GT", w⟩
  | .vcmpGe w => some ⟨0x115, fVcmp "VCMP_GE", w⟩
  | .vsel w => some ⟨0x118, fVsel, w⟩
  | .vcvt w => some ⟨0x119, fVcvt, w⟩
  | .vmov w => some ⟨0x11a, fVmov, w⟩
  | .vbcast w => some ⟨0x11b, fVbcast, w⟩
  | .viota w => some ⟨0x11c, fViota, w⟩
  | .vsum w => some ⟨0x140, fVsum, w⟩
  | .vrmax w => some ⟨0x141, fVred "VRMAX", w⟩
  | .vrmin w => some ⟨0x142, fVred "VRMIN", w⟩
  | .vscan w => some ⟨0x143, fVscan, w⟩
  | .vexp w => some ⟨0x148, fVfun "VEXP", w⟩
  | .vrcp w => some ⟨0x149, fVfun "VRCP", w⟩
  | .vrsq w => some ⟨0x14a, fVfun "VRSQ", w⟩
  | .vtanh w => some ⟨0x14b, fVfun "VTANH", w⟩
  | .vperm w => some ⟨0x150, fVperm, w⟩
  | .vcomp w => some ⟨0x151, fVcomp "VCOMP", w⟩
  | .vexpn w => some ⟨0x152, fVcomp "VEXPN", w⟩
  | .vpack w => some ⟨0x158, fVpack, w⟩
  | .vunpk w => some ⟨0x159, fVunpk, w⟩
  | .vord w => some ⟨0x15a, fVord, w⟩
  | .vdigit w => some ⟨0x15b, fVdigit, w⟩
  | .vhisto w => some ⟨0x15c, fVhisto, w⟩
  | .vcount w => some ⟨0x15d, fVcount, w⟩
  | .tcfg w => some ⟨0x180, fTcfg, w⟩
  | .tzero w => some ⟨0x181, fTzero, w⟩
  | .tload w => some ⟨0x182, fTload, w⟩
  | .tstore w => some ⟨0x183, fTstore, w⟩
  | .mma w => some ⟨0x188, fMma "MMA" pPairT, w⟩
  | .mmas w => some ⟨0x189, fMma "MMAS" pPairT, w⟩
  | .mmag w => some ⟨0x18a, fMma "MMAG" pQuadT, w⟩
  | .qstage w => some ⟨0x190, fQstage, w⟩
  | .tchk w => some ⟨0x191, fTchk, w⟩
  | .mcmd w => some ⟨0x1c0, fMcmd, w⟩
  | .capmint w => some ⟨0x1c1, fCapmint, w⟩
  | .lend w => some ⟨0x1c2, fLend, w⟩
  | .mbind w => some ⟨0x1c8, fMbind, w⟩
  | .mmerge w => some ⟨0x1c9, fMmerge, w⟩
  | .mdrain w => some ⟨0x1ca, fMdrain, w⟩
  | .mstat w => some ⟨0x1cb, fMstat, w⟩
  | .bkld w => some ⟨0x1d0, fBkld, w⟩
  | .bkarm w => some ⟨0x1d1, fBkarm, w⟩
  | .bkoff w => some ⟨0x1d2, fBkoff, w⟩
  | .bkstat w => some ⟨0x1d3, fBkstat, w⟩
  | .cpy w => some ⟨0x200, fCpy0, w⟩
  | .cpyi w => some ⟨0x201, fCpy "CPYI" [0, 1, 2, 3], w⟩
  | .cpyz w => some ⟨0x202, fCpy "CPYZ" [0, 2], w⟩
  | .sealBatch w => some ⟨0x208, fSeal, w⟩
  | .waitb w => some ⟨0x209, fWaitb, w⟩
  | .cpq w => some ⟨0x20a, fCpq, w⟩
  | .rget w => some ⟨0x240, fRget, w⟩
  | .rput w => some ⟨0x241, fRput, w⟩
  | .wsig w => some ⟨0x242, fWsig, w⟩
  | .send w => some ⟨0x248, fSend, w⟩
  | .xput w => some ⟨0x249, fXput, w⟩
  | .xend w => some ⟨0x24a, fXend, w⟩
  | .amsg w => some ⟨0x250, fAmsg, w⟩
  | .depcfg w => some ⟨0x251, fDepcfg, w⟩
  | .bar w => some ⟨0x280, fBar "BAR", w⟩
  | .bara w => some ⟨0x281, fBar "BARA", w⟩
  | .barw w => some ⟨0x282, fBarw, w⟩
  | .barcfg w => some ⟨0x283, fBarcfg, w⟩
  | .fence w => some ⟨0x288, fFence, w⟩
  | .atomAdd w => some ⟨0x290, fAtom "ATOM_ADD", w⟩
  | .atomMin w => some ⟨0x291, fAtom "ATOM_MIN", w⟩
  | .atomMax w => some ⟨0x292, fAtom "ATOM_MAX", w⟩
  | .atomAnd w => some ⟨0x293, fAtom "ATOM_AND", w⟩
  | .atomOr w => some ⟨0x294, fAtom "ATOM_OR", w⟩
  | .atomXor w => some ⟨0x295, fAtom "ATOM_XOR", w⟩
  | .atomSwap w => some ⟨0x296, fAtom "ATOM_SWAP", w⟩
  | .atomCas w => some ⟨0x297, fAtom "ATOM_CAS", w⟩
  | .stag w => some ⟨0x298, fStag, w⟩
  | .hstart w => some ⟨0x2c0, fHstart, w⟩
  | .hexit w => some ⟨0x2c1, fHexit, w⟩
  | .hjoin w => some ⟨0x2c2, fHjoin, w⟩
  | .hstat w => some ⟨0x2c3, fHstat, w⟩
  | .tkpost w => some ⟨0x2c8, fTkpost, w⟩
  | .tktake w => some ⟨0x2c9, fTktake, w⟩
  | .launch w => some ⟨0x2ca, fLaunch, w⟩
  | .setsz w => some ⟨0x2d0, fSetsz, w⟩
  | .anch w => some ⟨0x2d1, fAnch, w⟩
  | .trap w => some ⟨0x300, fTrap, w⟩
  | .srr w => some ⟨0x301, fSrr, w⟩
  | .srw w => some ⟨0x302, fSrw, w⟩
  | .pgen w => some ⟨0x303, fPgen, w⟩
  | .rft w => some ⟨0x310, fRft, w⟩
  | .snap w => some ⟨0x311, fSnap, w⟩
  | .roll w => some ⟨0x312, fRoll, w⟩
  | .inj w => some ⟨0x313, fInj, w⟩
  | .binset w => some ⟨0x314, fBinset, w⟩
  | .regbind w => some ⟨0x315, fRegbind, w⟩
  | .mapset w => some ⟨0x316, fMapset, w⟩
  | .tlbinv w => some ⟨0x317, fTlbinv, w⟩
  | .ctxsave w => some ⟨0x318, fCtxsave "CTXSAVE" 0, w⟩
  | .ctxload w => some ⟨0x319, fCtxload, w⟩
  | .quota w => some ⟨0x31a, fQuota, w⟩
  | .preempt w => some ⟨0x31b, fPreempt, w⟩
  | .ctxsaveKill w => some ⟨0x318, fCtxsave "CTXSAVE_KILL" 1, w⟩
  | .ctxsaveGkill w => some ⟨0x318, fCtxsave "CTXSAVE_GKILL" 2, w⟩
  | _ => none

/-! The registers of a word. -/

/-- The registers that an operand names, packed (R428); `span` for a pair, quad or address pair. p0 is among them, as an operand and as a
destination, though it ignores writes; only as a guard it is not (R69; DESIGN CHOICE, log entry 47). -/
def operandRegs (o : Operand) (span : Nat) : List Nat :=
  match o.kind with
  | .nreg => (List.range span).map (o.num + ·)
  | .ptr => (List.range span).map (0x100 + o.num + ·)
  | .pred => [0x200 + o.num]
  | .qage => [0x400 + o.num]
  | _ => []

/-- The registers that a word reads, its guard apart. A post-incremented or addressing pointer is read. -/
def Form.reads (f : Form) (w : Fields) : List Nat :=
  let one (p : Pos) (o : Operand) : List Nat := if p.present o && p.role != .dst then operandRegs o p.span else []
  one f.a w.a ++ one (f.posB w) w.b ++ one (f.posC w) w.c

/-- The registers that a word writes: its destination and the pointers that it advances. -/
def Form.writes (f : Form) (w : Fields) : List Nat :=
  let one (p : Pos) (o : Operand) : List Nat :=
    if p.present o && (p.role != .src || o.inc) then operandRegs o p.span else []
  one f.a w.a ++ one (f.posB w) w.b ++ one (f.posC w) w.c

/-- The guard's predicate is read like any operand (R66); p0 is no register to wait for. -/
def Fields.guardReg (w : Fields) : List Nat :=
  let r := (w.g.extractLsb' 1 3).toNat
  if r = 0 then [] else [0x200 + r]

end Sys2Proof
end

