-- ==== Sys2Proof/WellFormed.lean ====
section
/-! DEFINITION. Which instructions are well formed: the operations whose word passes the encoding checks of R156 in a
privileged view of a front end. -/

namespace Sys2Proof

/-- The operation is one that a word names, and its word passes the encoding checks (R156), read as context 0 reads
them. -/
def WellFormed (i : Instr) : Bool :=
  match i.word with
  | some x => x.form.cause x.w true .front true == none
  | none => false

end Sys2Proof
end

