-- ==== Sys2Proof/Decode.lean ====
section
/-! DEFINITION. The decoder, total on any bytes, and the encoder, both from the field table of R138, the byte order of
R139, the operand kinds of R147 and the opcode map of R154. -/

namespace Sys2Proof

/-- Why bytes are no operation. -/
inductive DecodeError where
  /-- fewer than the twelve bytes of a word (R139) -/
  | truncated
  /-- V = 3, which reads no hint (R140): cause 0x001 -/
  | noVersion
  /-- an unassigned cell of the opcode map (R154): cause 0x000 -/
  | unassigned
  deriving DecidableEq, Repr

/-- Class 0x0 of the opcode map (R154). -/
def opTable0 : List (Nat × (Fields → Instr)) := [
  (0x0, Instr.add),
  (0x1, Instr.sub),
  (0x2, Instr.mul),
  (0x3, Instr.mulhs),
  (0x4, Instr.mulhu),
  (0x5, Instr.divs),
  (0x6, Instr.divu),
  (0x7, Instr.rems),
  (0x8, Instr.remu),
  (0x9, Instr.and),
  (0xa, Instr.or),
  (0xb, Instr.xor),
  (0xc, Instr.andn),
  (0xd, Instr.shl),
  (0xe, Instr.shrl),
  (0xf, Instr.shra),
  (0x10, Instr.rotl),
  (0x11, Instr.clz),
  (0x12, Instr.popc),
  (0x13, Instr.mins),
  (0x14, Instr.maxs),
  (0x15, Instr.minu),
  (0x16, Instr.maxu),
  (0x17, Instr.abs),
  (0x18, Instr.sext),
  (0x19, Instr.zext),
  (0x1a, Instr.bfx),
  (0x1b, Instr.bfi),
  (0x1c, Instr.li),
  (0x1d, Instr.lih),
  (0x1e, Instr.mov),
  (0x1f, Instr.sel),
  (0x20, Instr.cmpEq),
  (0x21, Instr.cmpNe),
  (0x22, Instr.cmpLt),
  (0x23, Instr.cmpGe),
  (0x24, Instr.cmpLtu),
  (0x25, Instr.cmpGeu),
  (0x28, Instr.pand),
  (0x29, Instr.por),
  (0x2a, Instr.pxor),
  (0x2b, Instr.pnot)]

/-- Class 0x1 of the opcode map (R154). -/
def opTable1 : List (Nat × (Fields → Instr)) := [
  (0x40, Instr.fadd),
  (0x41, Instr.fmul),
  (0x42, Instr.ffma),
  (0x48, Instr.fcmpEq),
  (0x49, Instr.fcmpNe),
  (0x4a, Instr.fcmpLt),
  (0x4b, Instr.fcmpLe),
  (0x4c, Instr.fcmpUn),
  (0x50, Instr.fcvt)]

/-- Class 0x2 of the opcode map (R154). -/
def opTable2 : List (Nat × (Fields → Instr)) := [
  (0x80, Instr.br),
  (0x81, Instr.bri),
  (0x82, Instr.call),
  (0x83, Instr.ret),
  (0x84, Instr.loop),
  (0x85, Instr.nop),
  (0x86, Instr.rtend)]

/-- Class 0x3 of the opcode map (R154). -/
def opTable3 : List (Nat × (Fields → Instr)) := [
  (0xc0, Instr.ldlB),
  (0xc1, Instr.ldlH),
  (0xc2, Instr.ldlW),
  (0xc3, Instr.ldlD),
  (0xc4, Instr.stlB),
  (0xc5, Instr.stlH),
  (0xc6, Instr.stlW),
  (0xc7, Instr.stlD),
  (0xc8, Instr.setp),
  (0xc9, Instr.ldp),
  (0xd0, Instr.bpers),
  (0xd1, Instr.bspan),
  (0xd2, Instr.bstat),
  (0xd3, Instr.bsnap)]

/-- Class 0x4 of the opcode map (R154). -/
def opTable4 : List (Nat × (Fields → Instr)) := [
  (0x100, Instr.vadd),
  (0x101, Instr.vsub),
  (0x102, Instr.vmul),
  (0x103, Instr.vfma),
  (0x104, Instr.vmin),
  (0x105, Instr.vmax),
  (0x106, Instr.vabs),
  (0x107, Instr.vneg),
  (0x108, Instr.vand),
  (0x109, Instr.vor),
  (0x10a, Instr.vxor),
  (0x10b, Instr.vshl),
  (0x10c, Instr.vshr),
  (0x110, Instr.vcmpEq),
  (0x111, Instr.vcmpNe),
  (0x112, Instr.vcmpLt),
  (0x113, Instr.vcmpLe),
  (0x114, Instr.vcmpGt),
  (0x115, Instr.vcmpGe),
  (0x118, Instr.vsel),
  (0x119, Instr.vcvt),
  (0x11a, Instr.vmov),
  (0x11b, Instr.vbcast),
  (0x11c, Instr.viota)]

/-- Class 0x5 of the opcode map (R154). -/
def opTable5 : List (Nat × (Fields → Instr)) := [
  (0x140, Instr.vsum),
  (0x141, Instr.vrmax),
  (0x142, Instr.vrmin),
  (0x143, Instr.vscan),
  (0x148, Instr.vexp),
  (0x149, Instr.vrcp),
  (0x14a, Instr.vrsq),
  (0x14b, Instr.vtanh),
  (0x150, Instr.vperm),
  (0x151, Instr.vcomp),
  (0x152, Instr.vexpn),
  (0x158, Instr.vpack),
  (0x159, Instr.vunpk),
  (0x15a, Instr.vord),
  (0x15b, Instr.vdigit),
  (0x15c, Instr.vhisto),
  (0x15d, Instr.vcount)]

/-- Class 0x6 of the opcode map (R154). -/
def opTable6 : List (Nat × (Fields → Instr)) := [
  (0x180, Instr.tcfg),
  (0x181, Instr.tzero),
  (0x182, Instr.tload),
  (0x183, Instr.tstore),
  (0x188, Instr.mma),
  (0x189, Instr.mmas),
  (0x18a, Instr.mmag),
  (0x190, Instr.qstage),
  (0x191, Instr.tchk)]

/-- Class 0x7 of the opcode map (R154). -/
def opTable7 : List (Nat × (Fields → Instr)) := [
  (0x1c0, Instr.mcmd),
  (0x1c1, Instr.capmint),
  (0x1c2, Instr.lend),
  (0x1c8, Instr.mbind),
  (0x1c9, Instr.mmerge),
  (0x1ca, Instr.mdrain),
  (0x1cb, Instr.mstat),
  (0x1d0, Instr.bkld),
  (0x1d1, Instr.bkarm),
  (0x1d2, Instr.bkoff),
  (0x1d3, Instr.bkstat)]

/-- Class 0x8 of the opcode map (R154). -/
def opTable8 : List (Nat × (Fields → Instr)) := [
  (0x200, Instr.cpy),
  (0x201, Instr.cpyi),
  (0x202, Instr.cpyz),
  (0x208, Instr.sealBatch),
  (0x209, Instr.waitb),
  (0x20a, Instr.cpq)]

/-- Class 0x9 of the opcode map (R154). -/
def opTable9 : List (Nat × (Fields → Instr)) := [
  (0x240, Instr.rget),
  (0x241, Instr.rput),
  (0x242, Instr.wsig),
  (0x248, Instr.send),
  (0x249, Instr.xput),
  (0x24a, Instr.xend),
  (0x250, Instr.amsg),
  (0x251, Instr.depcfg)]

/-- Class 0xa of the opcode map (R154). -/
def opTableA : List (Nat × (Fields → Instr)) := [
  (0x280, Instr.bar),
  (0x281, Instr.bara),
  (0x282, Instr.barw),
  (0x283, Instr.barcfg),
  (0x288, Instr.fence),
  (0x290, Instr.atomAdd),
  (0x291, Instr.atomMin),
  (0x292, Instr.atomMax),
  (0x293, Instr.atomAnd),
  (0x294, Instr.atomOr),
  (0x295, Instr.atomXor),
  (0x296, Instr.atomSwap),
  (0x297, Instr.atomCas),
  (0x298, Instr.stag)]

/-- Class 0xb of the opcode map (R154). -/
def opTableB : List (Nat × (Fields → Instr)) := [
  (0x2c0, Instr.hstart),
  (0x2c1, Instr.hexit),
  (0x2c2, Instr.hjoin),
  (0x2c3, Instr.hstat),
  (0x2c8, Instr.tkpost),
  (0x2c9, Instr.tktake),
  (0x2ca, Instr.launch),
  (0x2d0, Instr.setsz),
  (0x2d1, Instr.anch)]

/-- Class 0xc of the opcode map (R154). -/
def opTableC : List (Nat × (Fields → Instr)) := [
  (0x300, Instr.trap),
  (0x301, Instr.srr),
  (0x302, Instr.srw),
  (0x303, Instr.pgen),
  (0x310, Instr.rft),
  (0x311, Instr.snap),
  (0x312, Instr.roll),
  (0x313, Instr.inj),
  (0x314, Instr.binset),
  (0x315, Instr.regbind),
  (0x316, Instr.mapset),
  (0x317, Instr.tlbinv),
  (0x318, Instr.ctxsave),
  (0x319, Instr.ctxload),
  (0x31a, Instr.quota),
  (0x31b, Instr.preempt)]

/-- The assigned cells of the opcode map (R154). CTXSAVE stands for its three forms, which M tells apart (R360). -/
def opTable : List (Nat × (Fields → Instr)) :=
  opTable0 ++ opTable1 ++ opTable2 ++ opTable3 ++ opTable4 ++ opTable5 ++ opTable6 ++ opTable7 ++ opTable8 ++ opTable9 ++ opTableA ++ opTableB ++ opTableC

/-- The cell at a ten-bit opcode. -/
def opLookup (op : Nat) : Option (Fields → Instr) := (opTable.find? fun e => e.1 == op).map (·.2)

/-- The operand kind of three bits (R147). -/
def kindOf (k : BitVec 3) : OpKind :=
  match k.toNat with
  | 0 => .nreg | 1 => .qage | 2 => .ptr | 3 => .imm | 4 => .direct | 5 => .pred | 6 => .tile | _ => .special

/-- The three bits of an operand kind (R147). -/
def kindBits : OpKind → BitVec 3
  | .nreg => 0 | .qage => 1 | .ptr => 2 | .imm => 3 | .direct => 4 | .pred => 5 | .tile => 6 | .special => 7

/-- The fields of a word (R138). -/
def fieldsOf (x : IWord) : Fields :=
  { v := x.extractLsb' 94 2, g := x.extractLsb' 80 4, h := x.extractLsb' 62 18,
    a := { kind := kindOf (x.extractLsb' 59 3), payload := x.extractLsb' 42 17 },
    b := { kind := kindOf (x.extractLsb' 39 3), payload := x.extractLsb' 22 17 },
    c := { kind := kindOf (x.extractLsb' 19 3), payload := x.extractLsb' 2 17 },
    m := x.extractLsb' 0 2 }

/-- The operation that a word names. V = 3 is found first, then an unassigned cell, as R156 orders them. -/
def decodeWord (x : IWord) : Except DecodeError Instr :=
  let w := fieldsOf x
  if w.v = 3 then .error .noVersion
  else
    match opLookup (x.extractLsb' 84 10).toNat with
    | none => .error .unassigned
    | some f =>
      match f w with
      | .ctxsave w => .ok (if w.m = 1 then .ctxsaveKill w else if w.m = 2 then .ctxsaveGkill w else .ctxsave w)
      | i => .ok i

/-- Twelve bytes as a word, the lowest-addressed byte lowest (R139). -/
def wordOfBytes : List Byte → IWord
  | [] => 0
  | b :: rest => (wordOfBytes rest <<< (8 : Nat)) ||| b.setWidth 96

/-- Decode the first twelve bytes and give the rest back. -/
def decode (bs : List Byte) : Except DecodeError (Instr × List Byte) :=
  if bs.length < 12 then .error .truncated
  else
    match decodeWord (wordOfBytes (bs.take 12)) with
    | .ok i => .ok (i, bs.drop 12)
    | .error e => .error e

/-- A word's twelve bytes, lowest first (R139). -/
def bytesOfWord (x : IWord) : List Byte := (List.range 12).map fun k => x.extractLsb' (8 * k) 8

/-- A word from its opcode and fields (R138). -/
def packWord (op : Nat) (w : Fields) : IWord :=
  w.v ++ (BitVec.ofNat 10 op ++ (w.g ++ (w.h ++ (kindBits w.a.kind ++ (w.a.payload ++ (kindBits w.b.kind ++
    (w.b.payload ++ (kindBits w.c.kind ++ (w.c.payload ++ w.m)))))))))

/-- The word of an operation; an event has none. -/
def encodeWord (i : Instr) : Option IWord := i.word.map fun x => packWord x.op x.w

/-- The bytes of an operation. -/
def encode (i : Instr) : Option (List Byte) := (encodeWord i).map bytesOfWord

/-- The operation that the decoder reads from an instruction whose bits are `w`, bit 0 the lowest bit of the first byte:
the twelve bytes of R139, any bit above `nbits` zero. -/
def decodeTableWord (nbits w : Nat) : Option Instr :=
  match decode (bytesOfWord (BitVec.ofNat 96 (w % 2 ^ nbits))) with
  | .ok (i, _) => some i
  | .error _ => none

end Sys2Proof
end

