-- ==== Sys2Proof/Machine/Flags.lean ====
section
/-! DEFINITION. Numbers to the last bit: exact fractions, the formats of R32 to R39, every rounding and conversion of R50
to R59, and the FFLG bits of R53 that each of them raises. -/

namespace Sys2Proof.Machine

/-- FFLG bits (R53). -/
abbrev Flags := BitVec 8
def fNV : Flags := 0x01
def fDZ : Flags := 0x02
def fOF : Flags := 0x04
def fUF : Flags := 0x08
def fNX : Flags := 0x10
def fSAT : Flags := 0x20
def fNAR : Flags := 0x40
def fCKI : Flags := 0x80

/-- A flag where a condition holds. -/
def flagIf (b : Bool) (f : Flags) : Flags := if b then f else 0

/-- An exact rational number; `den` is not zero. -/
structure Frac where
  num : Int
  den : Nat
  deriving DecidableEq, Repr

namespace Frac

def norm (n : Int) (d : Nat) : Frac :=
  let g := Nat.gcd n.natAbs d
  if g ≤ 1 then ⟨n, d⟩ else ⟨n / (g : Int), d / g⟩

def ofInt (n : Int) : Frac := ⟨n, 1⟩
def add (a b : Frac) : Frac :=
  if a.den = b.den then norm (a.num + b.num) a.den else norm (a.num * b.den + b.num * a.den) (a.den * b.den)
def neg (a : Frac) : Frac := ⟨-a.num, a.den⟩
def sub (a b : Frac) : Frac := add a (neg b)
def mul (a b : Frac) : Frac := norm (a.num * b.num) (a.den * b.den)
/-- `b` is not zero -/
def div (a b : Frac) : Frac :=
  norm (if b.num < 0 then -(a.num * b.den) else a.num * b.den) (a.den * b.num.natAbs)
def abs (a : Frac) : Frac := ⟨a.num.natAbs, a.den⟩
def isZero (a : Frac) : Bool := a.num == 0
def isNeg (a : Frac) : Bool := decide (a.num < 0)
def lt (a b : Frac) : Bool := decide (a.num * b.den < b.num * a.den)
def le (a b : Frac) : Bool := decide (a.num * b.den ≤ b.num * a.den)
def eq (a b : Frac) : Bool := decide (a.num * b.den = b.num * a.den)
/-- 2^e -/
def pow2 (e : Int) : Frac := if 0 ≤ e then ⟨2 ^ e.toNat, 1⟩ else ⟨1, 2 ^ (-e).toNat⟩
/-- 10^e -/
def pow10 (e : Int) : Frac := if 0 ≤ e then ⟨10 ^ e.toNat, 1⟩ else ⟨1, 10 ^ (-e).toNat⟩
/-- the exponent e with 2^e ≤ |a| < 2^(e + 1), for `a` not zero -/
def exp2 (a : Frac) : Int :=
  let n := a.num.natAbs
  let e : Int := (Nat.log2 n : Int) - (Nat.log2 a.den : Int)
  let low : Bool := if 0 ≤ e then decide (n < a.den * 2 ^ e.toNat) else decide (n * 2 ^ (-e).toNat < a.den)
  if low then e - 1 else e

end Frac

/-- A value read from a format: a real number with its sign, an infinity, a NaN or a NaR (R32 to R37). -/
inductive Num where
  | fin (neg : Bool) (mag : Frac)
  | inf (neg : Bool)
  | nan (signalling : Bool)
  | nar
  deriving DecidableEq, Repr

namespace Num

def zero (neg : Bool) : Num := .fin neg (.ofInt 0)
/-- the signed value of a finite number -/
def real : Num → Frac
  | .fin neg m => if neg then m.neg else m
  | _ => .ofInt 0
/-- a real number as a value; zero takes the sign given -/
def ofReal (zneg : Bool) (x : Frac) : Num := if x.isZero then .zero zneg else .fin x.isNeg x.abs
def isNan : Num → Bool
  | .nan _ | .nar => true
  | _ => false
def snan : Num → Bool
  | .nan s => s
  | _ => false
def isInf : Num → Bool
  | .inf _ => true
  | _ => false
def isZero : Num → Bool
  | .fin _ m => m.isZero
  | _ => false
def sign : Num → Bool
  | .fin n _ => n
  | .inf n => n
  | _ => false
def negate : Num → Num
  | .fin n m => .fin (!n) m
  | .inf n => .inf (!n)
  | x => x

end Num

/-! Rounding an exact magnitude to an integer multiple (R50). -/

/-- Does the mode take the larger of two neighbouring magnitudes? `neg` is the sign, `odd` whether the lower neighbour is
odd, `rem` over `den` the part above it. -/
def roundUp (mode : Nat) (neg odd : Bool) (rem den : Nat) : Bool :=
  if rem = 0 then false
  else
    match mode with
    | 0 => decide (den < 2 * rem) || (decide (2 * rem = den) && odd)
    | 1 => false
    | 2 => !neg
    | _ => neg

/-- A real number rounded to an integer; the flag says that it was not one. -/
def roundInt (mode : Nat) (x : Frac) : Int × Bool :=
  let n := x.num.natAbs
  let q := n / x.den
  let r := n % x.den
  let q' := if roundUp mode x.isNeg (q % 2 == 1) r x.den then q + 1 else q
  (if x.isNeg then -(q' : Int) else q', r != 0)

/-! The floating formats (R32). -/

/-- Exponent and fraction widths of FP32, FP16 and BF16 by format code (R39). -/
def fExpBits (f : Nat) : Nat := if f = 2 then 5 else 8
def fFracBits (f : Nat) : Nat := if f = 1 then 23 else if f = 2 then 10 else 7
def fBias (f : Nat) : Int := (2 : Int) ^ (fExpBits f - 1) - 1

/-- The canonical NaN (R32). -/
def canonNan (f : Nat) : Nat := if f = 1 then 0x7FC00000 else if f = 2 then 0x7E00 else 0x7FC0

def infBits (f : Nat) (neg : Bool) : Nat :=
  (if neg then 2 ^ (fExpBits f + fFracBits f) else 0) + (2 ^ fExpBits f - 1) * 2 ^ fFracBits f

def zeroBits (f : Nat) (neg : Bool) : Nat := if neg then 2 ^ (fExpBits f + fFracBits f) else 0

/-- Read a floating value. -/
def decodeFloat (f bits : Nat) : Num :=
  let fb := fFracBits f
  let eb := fExpBits f
  let frac := bits % 2 ^ fb
  let e := bits / 2 ^ fb % 2 ^ eb
  let neg := bits / 2 ^ (fb + eb) % 2 == 1
  if e = 2 ^ eb - 1 then (if frac = 0 then .inf neg else .nan (decide (frac < 2 ^ (fb - 1))))
  else if e = 0 then .fin neg ((Frac.ofInt frac).mul (.pow2 (1 - fBias f - fb)))
  else .fin neg ((Frac.ofInt (frac + 2 ^ fb)).mul (.pow2 ((e : Int) - fBias f - fb)))

/-- Round a real number that is not zero into a floating format: bits and flags. Tininess is found after rounding; an
overflow is an infinity or the largest finite value by the mode (R32, R50, R52). -/
def roundFloat (f mode : Nat) (x : Frac) : Nat × Flags :=
  let neg := x.isNeg
  let fb := fFracBits f
  let emin := 1 - fBias f
  let emax := fBias f
  let a := x.abs
  let e := a.exp2
  let cut (ex : Int) : Nat × Bool :=
    let q := a.mul (.pow2 ((fb : Int) - ex))
    let m := q.num.natAbs / q.den
    let r := q.num.natAbs % q.den
    (if roundUp mode neg (m % 2 == 1) r q.den then m + 1 else m, r != 0)
  let tiny := decide (e < emin) && !((cut e).1 == 2 ^ (fb + 1) && e + 1 == emin)
  let ex := max e emin
  let (m, inexact) := cut ex
  let (m, ex) := if m = 2 ^ (fb + 1) then (2 ^ fb, ex + 1) else (m, ex)
  let s := zeroBits f neg
  if emax < ex then
    let toInf := mode = 0 || (mode = 2 && !neg) || (mode = 3 && neg)
    (if toInf then infBits f neg else infBits f neg - 1, fOF ||| fNX)
  else
    let bits := if m < 2 ^ fb then m else m - 2 ^ fb + (ex + fBias f).toNat * 2 ^ fb
    (s + bits, flagIf inexact fNX ||| flagIf (tiny && inexact) fUF)

/-- Encode a value in a floating format. NaN and NaR give the canonical NaN; a signalling NaN raises NV. -/
def encodeFloat (f mode : Nat) (x : Num) : Nat × Flags :=
  match x with
  | .nan s => (canonNan f, flagIf s fNV)
  | .nar => (canonNan f, 0)
  | .inf n => (infBits f n, 0)
  | .fin n m => if m.isZero then (zeroBits f n, 0) else roundFloat f mode (if n then m.neg else m)

/-! DM8 (R33 to R36). -/

/-- Read a DM8 code. -/
def decodeDm8 (c : Nat) : Num :=
  let neg := c / 128 % 2 == 1
  let body := c % 128
  let m (e : Int) (f n : Nat) : Num := .fin neg ((Frac.pow10 e).mul (Frac.norm ((n : Int) + 9 * f) n))
  if body = 0 then (if neg then .nar else .zero false)
  else if body < 8 then .nar
  else if body < 16 then
    let k := body % 8
    m (if k < 4 then (k : Int) - 7 else k) 0 1
  else if body < 32 then
    let k := body / 4 % 4
    m (if k = 0 then -3 else if k = 1 then -2 else if k = 2 then 2 else 3) (body % 4) 4
  else if body < 64 then m (if body / 16 % 2 = 0 then -1 else 1) (body % 16) 16
  else m 0 (body % 64) 64

/-- An element that is selected or moved: a DM8 code whose body is 1 to 7 is read as NaR, and no operation produces it (R34). -/
def passElem (f c : Nat) : Nat := if f = 11 && 1 ≤ c % 128 && c % 128 < 8 then 0x80 else c

/-- The bodies of the real codes in ascending order of magnitude (R34), zero first. -/
def dm8Bodies : List Nat :=
  [0] ++ [8, 9, 10, 11] ++ (List.range 8).map (16 + ·) ++ (List.range 16).map (32 + ·) ++ (List.range 64).map (64 + ·) ++
    (List.range 16).map (48 + ·) ++ (List.range 8).map (24 + ·) ++ [12, 13, 14, 15]

/-- The magnitude of a body. -/
def dm8Mag (body : Nat) : Frac := (decodeDm8 body).real.abs

/-- The neighbours of a magnitude in the list: the last body not above it, and the next one. -/
def dm8Neighbours (a : Frac) : List Nat → Nat → Nat × Option Nat
  | [], last => (last, none)
  | b :: rest, last => if (dm8Mag b).le a then dm8Neighbours a rest b else (last, some b)

/-- Convert a real number that is not zero to DM8 (R35, steps 3 to 5). -/
def roundDm8 (mode : Nat) (x : Frac) : Nat × Flags :=
  let a := x.abs
  let neg := x.isNeg
  let code (b : Nat) : Nat := if b = 0 then 0 else if neg then b + 128 else b
  if (Frac.pow10 7).lt a then (code 0x0F, fSAT ||| fNX)
  else
    match dm8Neighbours a dm8Bodies 0 with
    | (lo, none) => (code lo, flagIf (!(dm8Mag lo).eq a) fNX)
    | (lo, some hi) =>
      if (dm8Mag lo).eq a then (code lo, 0)
      else
        let twice := (Frac.ofInt 2).mul a
        let mid := (dm8Mag lo).add (dm8Mag hi)
        let up :=
          match mode with
          | 0 => if twice.eq mid then (lo == 0 || hi % 2 == 0) else mid.lt twice
          | 1 => false
          | 2 => !neg
          | _ => neg
        (code (if up then hi else lo), fNX)

/-- Encode a value as DM8 (R35). -/
def encodeDm8 (mode : Nat) (x : Num) : Nat × Flags :=
  match x with
  | .nan s => (0x80, fNAR ||| flagIf s fNV)
  | .nar => (0x80, 0)
  | .inf n => (if n then 0x8F else 0x0F, fSAT ||| fNX)
  | .fin n m => if m.isZero then (0, 0) else roundDm8 mode (if n then m.neg else m)

/-! Integer formats. -/

/-- A signed format: I8, I16, I32, I64. -/
def fmtSigned (f : Nat) : Bool := fmtI f || f == 7
def intFmt (f : Nat) : Bool := fmtSigned f || fmtN f
def fmtBits (f : Nat) : Nat := 8 * fmtWidth f

/-- Read an integer format. -/
def decodeInt (f bits : Nat) : Int :=
  let n := fmtBits f
  let b := bits % 2 ^ n
  if fmtSigned f && decide (2 ^ (n - 1) ≤ b) then (b : Int) - 2 ^ n else b

def intMin (f : Nat) : Int := if fmtSigned f then -(2 ^ (fmtBits f - 1)) else 0
def intMax (f : Nat) : Int := if fmtSigned f then 2 ^ (fmtBits f - 1) - 1 else 2 ^ fmtBits f - 1

/-- Keep the low bits (R51, .wrap). -/
def wrapInt (f : Nat) (x : Int) : Nat := (x % (2 ^ fmtBits f : Int)).toNat

/-- Clamp to the format's range; the flag says that it clamped. -/
def clampInt (f : Nat) (x : Int) : Int × Bool :=
  if x < intMin f then (intMin f, true) else if intMax f < x then (intMax f, true) else (x, false)

/-- Wrap or saturate by M (R51). -/
def narrowInt (f m : Nat) (x : Int) : Nat × Flags :=
  if m = 1 then
    let (y, c) := clampInt f x
    (wrapInt f y, flagIf c fSAT)
  else (wrapInt f x, 0)

/-! Any format (R39). -/

/-- Read an element of a floating, integer or DM8 format as a number. -/
def decodeElem (f bits : Nat) : Num :=
  if fmtF f then decodeFloat f bits
  else if f = 11 then decodeDm8 (bits % 256)
  else .ofReal false (.ofInt (decodeInt f bits))

/-- A floating, DM8 or integer value to an integer format (R52). -/
def toInt (f mode : Nat) (x : Num) : Nat × Flags :=
  match x with
  | .nan _ | .nar => (0, fNV)
  | .inf n => (wrapInt f (if n then intMin f else intMax f), fNV)
  | .fin _ _ =>
    let (v, inexact) := roundInt mode x.real
    let (y, c) := clampInt f v
    (wrapInt f y, if c then fNV else flagIf inexact fNX)

/-- The conversion of FCVT and VCVT (R167): source format `fs`, destination format `fd`, rounding mode. -/
def convert (fd fs mode bits : Nat) : Nat × Flags :=
  let x := decodeElem fs bits
  if intFmt fs && intFmt fd then
    let (y, c) := clampInt fd (decodeInt fs bits)
    (wrapInt fd y, flagIf c fSAT)
  else if intFmt fd then toInt fd mode x
  else if fd = 11 then
    if fs = 11 then ((match x with | .nar => 0x80 | _ => bits % 256), 0) else encodeDm8 mode x
  else if fs = 11 then encodeFloat fd 0 x
  else if fs = fd then
    match x with
    | .nan s => (canonNan fd, flagIf s fNV)
    | _ => (bits % 2 ^ fmtBits fd, 0)
  else encodeFloat fd mode x

/-! Floating arithmetic: exact, then rounded once (R165, R194). -/

/-- A NaN operand gives the canonical NaN; a signalling one raises NV. -/
def nanResult (f : Nat) (xs : List Num) : Nat × Flags := (canonNan f, flagIf (xs.any Num.snan) fNV)

/-- The sign of an exact zero sum: of two zeros of one sign that sign, else − only under RD (IEEE 754-2019). -/
def zeroSumSign (mode : Nat) (a b : Bool) : Bool := if a == b then a else mode == 3

def addNum (f mode : Nat) (x y : Num) : Nat × Flags :=
  if x.isNan || y.isNan then nanResult f [x, y]
  else
    match x, y with
    | .inf a, .inf b => if a == b then (infBits f a, 0) else (canonNan f, fNV)
    | .inf a, _ => (infBits f a, 0)
    | _, .inf b => (infBits f b, 0)
    | _, _ =>
      let s := x.real.add y.real
      if s.isZero then (zeroBits f (zeroSumSign mode x.sign y.sign), 0) else roundFloat f mode s

/-- The exact product as a value: infinity times zero is a NaN that raises NV. -/
def mulExact (x y : Num) : Num × Flags :=
  if x.isNan || y.isNan then (.nan false, flagIf (x.snan || y.snan) fNV)
  else
    let n := x.sign != y.sign
    if x.isInf || y.isInf then (if x.isZero || y.isZero then (.nan false, fNV) else (.inf n, 0))
    else (.fin n (x.real.abs.mul y.real.abs), 0)

def mulNum (f mode : Nat) (x y : Num) : Nat × Flags :=
  let (p, fl) := mulExact x y
  let (b, fl') := encodeFloat f mode p
  (b, fl ||| fl')

/-- x × y + d, rounded once. Zero times infinity raises NV also where d is a quiet NaN, which IEEE 754 leaves open (R32; DESIGN CHOICE, log
entry 55). -/
def fmaNum (f mode : Nat) (x y d : Num) : Nat × Flags :=
  let (p, fl) := mulExact x y
  if p.isNan || d.isNan then (canonNan f, fl ||| flagIf d.snan fNV)
  else
    let (b, fl') := addNum f mode p d
    (b, fl ||| fl')

/-- x < y of numbers that are no NaN; the zeros are equal. -/
def numLt (x y : Num) : Bool :=
  match x, y with
  | .inf a, .inf b => a && !b
  | .inf a, _ => a
  | _, .inf b => !b
  | _, _ => x.real.lt y.real

def numEq (x y : Num) : Bool :=
  match x, y with
  | .inf a, .inf b => a == b
  | .inf _, _ | _, .inf _ => false
  | _, _ => x.real.eq y.real

/-- A floating comparison (R166, R197): 0 eq, 1 ne, 2 lt, 3 le, 4 gt, 5 ge, 6 unordered. -/
def cmpNum (cc : Nat) (x y : Num) : Bool × Flags :=
  let un := x.isNan || y.isNan
  let ordered := decide (2 ≤ cc) && decide (cc ≤ 5)
  let fl := flagIf ((ordered && un) || x.snan || y.snan) fNV
  let r :=
    if un then cc == 1 || cc == 6
    else
      match cc with
      | 0 => numEq x y
      | 1 => !numEq x y
      | 2 => numLt x y
      | 3 => numLt x y || numEq x y
      | 4 => numLt y x
      | 5 => numLt y x || numEq x y
      | _ => false
  (r, fl)

/-- Floating minimum or maximum (R194): −0 is below +0, one NaN gives the other operand. -/
def minMaxNum (f : Nat) (isMax : Bool) (bx yb : Nat) : Nat × Flags :=
  let x := decodeFloat f bx
  let y := decodeFloat f yb
  let fl := flagIf (x.snan || y.snan) fNV
  if x.isNan && y.isNan then (canonNan f, fl)
  else if x.isNan then (yb, fl)
  else if y.isNan then (bx, fl)
  else
    let below := numLt x y || (numEq x y && x.sign && !y.sign)
    (if below != isMax then bx else yb, fl)

/-! SC20 scales and scale words (R37, R38, R59). -/

/-- The value of a scale; none where it is invalid. -/
def scaleValue (sc : Nat) : Option Frac :=
  let e := sc / 4096 % 256
  let m := sc % 4096
  if e = 0 then some (.ofInt 0)
  else if e = 255 then none
  else some ((Frac.pow2 ((e : Int) - 127 - 12)).mul (.ofInt (4096 + m)))

/-- A scale word whose bits 63..60 are not zero is a format fault. -/
def scaleWordBad (w : Nat) : Bool := w / 2 ^ 60 % 16 != 0

/-- Scale `n` of the plane: field n mod 3 of its word (R44). -/
def scaleField (w n : Nat) : Nat := w / 2 ^ (20 * (n % 3)) % 2 ^ 20

/-- The scale that QSTAGE chooses from the largest magnitude of a block (R59). -/
def chooseScale (big : Frac) : Nat :=
  if big.isZero then 0
  else
    let q := big.div (Frac.norm 631 64)
    let e := q.exp2
    if e < -126 then 4096
    else
      let f := q.mul (.pow2 (12 - e))
      let m := f.num.natAbs / f.den + (if f.num.natAbs % f.den = 0 then 0 else 1)
      let (m, e) := if m = 8192 then (4096, e + 1) else (m, e)
      if 127 < e then 254 * 4096 + 4095 else (e + 127).toNat * 4096 + (m - 4096)

/-! Square root and the transcendental functions (R204, R205). -/

/-- The integer square root by bits: the largest r below 2^(k+1) with r² ≤ n. -/
def isqrtBits (n : Nat) : Nat → Nat → Nat
  | 0, r => if (r + 1) * (r + 1) ≤ n then r + 1 else r
  | k + 1, r => isqrtBits n k (if (r + 2 ^ (k + 1)) * (r + 2 ^ (k + 1)) ≤ n then r + 2 ^ (k + 1) else r)

def isqrt (n : Nat) : Nat := isqrtBits n (Nat.log2 n / 2 + 1) 0

/-- A rational interval. -/
structure Interval where
  lo : Frac
  hi : Frac
  deriving DecidableEq, Repr

/-- e^x for 0 ≤ x ≤ 1/2 within 2^-bits or so: k terms of the series with fixed-point steps, and the remainder bound. -/
def expSeries (x : Frac) (bits : Nat) : Nat → Nat → Nat → Nat → Nat
  | 0, _, _, acc => acc
  | k + 1, i, term, acc =>
    let t := term * x.num.natAbs / (x.den * i)
    expSeries x bits k (i + 1) t (acc + t)

/-- Bounds of e^x: x is halved until it is small, the series is summed in fixed point, and the result is squared back. -/
def expBounds (x : Frac) (bits : Nat) : Interval :=
  let a := x.abs
  let h : Nat := if a.isZero then 0 else (max 0 (a.exp2 + 2)).toNat
  let y := a.mul (.pow2 (-(h : Int)))
  let one := 2 ^ bits
  let lo0 := expSeries y bits (bits / 2) 1 one one
  let hi0 := lo0 + bits
  let sq (up : Bool) (v : Nat) : Nat := if up then v * v / one + 1 else v * v / one
  let rec squares (up : Bool) : Nat → Nat → Nat
    | 0, v => v
    | k + 1, v => squares up k (sq up v)
  let lo := squares false h lo0
  let hi := squares true h hi0
  if x.isNeg then { lo := Frac.norm (one : Int) hi, hi := Frac.norm (one : Int) lo }
  else { lo := Frac.norm lo one, hi := Frac.norm hi one }

/-- Bounds of tanh x = 1 − 2 / (e^2x + 1). -/
def tanhBounds (x : Frac) (bits : Nat) : Interval :=
  let e := expBounds ((Frac.ofInt 2).mul x) bits
  let t (v : Frac) : Frac := (v.sub (.ofInt 1)).div (v.add (.ofInt 1))
  { lo := t e.lo, hi := t e.hi }

/-- Round a number that an interval encloses, where both ends round alike; the low end where they do not. -/
def roundBetween (f mode : Nat) (i : Interval) : Nat × Flags := roundFloat f mode i.lo

/-- The two neighbours of a real number in a format: toward zero and away from it. -/
def faithful (f : Nat) (i : Interval) (away : Bool) : Nat × Flags :=
  let m := if away then (if i.lo.isNeg then 3 else 2) else 1
  roundFloat f m (if away == i.lo.isNeg then i.lo else i.hi)

/-- Fixed-point bits for an operand: enough that no operand of the format lies too near a boundary to round. -/
def fnBits (f : Nat) : Nat := if f = 1 then 96 else 128

/-- VEXP (R204, R205). FP32 is faithful: which neighbour, the part decides. -/
def expNum (f mode bits : Nat) : Nat × Flags :=
  match decodeFloat f bits with
  | .nan s => (canonNan f, flagIf s fNV)
  | .nar => (canonNan f, 0)
  | .inf true => (zeroBits f false, 0)
  | .inf false => (infBits f false, 0)
  | .fin n m =>
    let one := ((roundFloat f 0 (.ofInt 1)).1, (0 : Flags))
    if m.isZero then one
    else
      let x := if n then m.neg else m
      -- beyond these bounds every format overflows or is below half of its least magnitude
      let big := (Frac.ofInt 89).lt m
      if big && !n then roundFloat f (if f = 1 then (if Config.expUp (BitVec.ofNat 32 bits) then 2 else 1) else mode) (.pow2 130)
      else if (Frac.ofInt 104).lt m && n then
        roundFloat f (if f = 1 then (if Config.expUp (BitVec.ofNat 32 bits) then 2 else 1) else mode) (.pow2 (-160))
      else
        let i := expBounds x (fnBits f + 32)
        if f = 1 then
          let (b, fl) := faithful f i (Config.expUp (BitVec.ofNat 32 bits))
          (b, fl ||| fNX)
        else
          let (b, fl) := roundBetween f mode i
          (b, fl ||| fNX)

/-- VTANH (R204, R205). -/
def tanhNum (f mode bits : Nat) : Nat × Flags :=
  match decodeFloat f bits with
  | .nan s => (canonNan f, flagIf s fNV)
  | .nar => (canonNan f, 0)
  | .inf n => ((roundFloat f 0 (.ofInt (if n then -1 else 1))).1, 0)
  | .fin n m =>
    if m.isZero then (zeroBits f n, 0)
    else
      let x := if n then m.neg else m
      let up := Config.tanhUp (BitVec.ofNat 32 bits)
      let i : Interval :=
        if (Frac.ofInt 40).lt m then
          -- 1 - 2^-100 and 1 enclose it
          let c := (Frac.ofInt 1).sub (.pow2 (-100))
          if n then { lo := .ofInt (-1), hi := c.neg } else { lo := c, hi := .ofInt 1 }
        else if m.lt (.pow2 (-60)) then
          -- x - x³ and x enclose it
          let c := x.sub (x.mul (x.mul x))
          if n then { lo := x, hi := c } else { lo := c, hi := x }
        else tanhBounds x (fnBits f + 96)
      -- the end nearer zero lies strictly inside its rounding cell
      let inner := if n then i.hi else i.lo
      if f = 1 then
        let r := roundFloat f (if up then (if n then 3 else 2) else 1) inner
        (r.1, r.2 ||| fNX)
      else
        let r := roundFloat f mode inner
        (r.1, r.2 ||| fNX)

/-- VRCP: 1/x, correctly rounded (R204, R205). -/
def rcpNum (f mode bits : Nat) : Nat × Flags :=
  match decodeFloat f bits with
  | .nan s => (canonNan f, flagIf s fNV)
  | .nar => (canonNan f, 0)
  | .inf n => (zeroBits f n, 0)
  | .fin n m =>
    if m.isZero then (infBits f n, fDZ)
    else
      let q := (Frac.ofInt 1).div m
      roundFloat f mode (if n then q.neg else q)

/-- VRSQ: 1/√x, correctly rounded (R204, R205). The root is cut far below the format's last place, and marked as inexact
where it is. -/
def rsqNum (f mode bits : Nat) : Nat × Flags :=
  match decodeFloat f bits with
  | .nan s => (canonNan f, flagIf s fNV)
  | .nar => (canonNan f, 0)
  | .inf true => (canonNan f, fNV)
  | .inf false => (zeroBits f false, 0)
  | .fin n m =>
    if m.isZero then (infBits f n, fDZ)
    else if n then (canonNan f, fNV)
    else
      let q := (Frac.ofInt 1).div m
      let k : Nat := 200
      let v := q.num.natAbs * 2 ^ (2 * k) / q.den
      let r := isqrt v
      let exact := r * r == v && q.num.natAbs * 2 ^ (2 * k) % q.den == 0
      if exact then roundFloat f mode (Frac.norm r (2 ^ k))
      else roundFloat f mode (Frac.norm (2 * r + 1 : Nat) (2 ^ (k + 1)))

end Sys2Proof.Machine
end

