-- ==== Sys2Proof/Machine/State.lean ====
section
/-! DEFINITION. The state of one ZT-9 package and module as plain data, the reasons a step can stop, and the state after
device reset. Every field names the rule that gives it. The fields marked MODEL are the model's own: the agenda, the order of issue inside
a cycle and the counter of free values. -/

namespace Sys2Proof.Machine

/-- The part stops, and nothing is claimed about what follows. -/
inductive Fault where
  /-- Raised by `step` when bring-up step `step` of R423 has failed: the device is held in reset, and nothing more happens. Safe. -/
  | heldInReset (step : Nat)
  deriving DecidableEq, Repr

/-- An operation has no meaning in this state. -/
inductive Refusal where
  /-- The operation `mnemonic` has no meaning in the model yet. Safe. Raised by arms of `exec` alone. -/
  | notModelled (mnemonic : String)
  deriving DecidableEq, Repr

/-- A pointer: 24-bit local base and signed 16-bit stride (R62). -/
structure Ptr where
  base : BitVec 24 := 0
  stride : BitVec 16 := 0
  deriving DecidableEq, Repr

/-- The destination of a result (R357, DKIND). -/
inductive Dest where
  | none
  | n (r : Nat)
  | a (r : Nat)
  | p (r : Nat)
  deriving DecidableEq, Repr

/-- A scalar load's read of a store (R71, R176): it samples the bytes at the start of cycle `cyc`. -/
structure Sample where
  addr : Nat := 0
  width : Nat := 0
  signed : Bool := false
  /-- the value is a pointer image (R177) -/
  ptr : Bool := false
  cyc : Nat := 0
  deriving DecidableEq, Repr

/-- A result in flight (R64, R73, R357). -/
structure Flight where
  dest : Dest := .none
  value : Word := 0
  push : Bool := false
  /-- landing cycle; for a result whose landing is not known yet, the cycle is set when it is -/
  land : Nat := 0
  known : Bool := true
  /-- cycles by which returns from traps have moved a landing that is not known yet (R73) -/
  shift : Nat := 0
  /-- word address of the word that gives the result (R428) -/
  word : Nat := 0
  /-- issue order -/
  seq : Nat := 0
  /-- the value is still to be read from a store -/
  sample : Option Sample := none
  /-- latency of a result that the counterproof recomputes; 0 for one that it does not check (R391) -/
  lat : Nat := 0
  /-- a corrected read has delayed it past its published cycle (R399); the mark of that report (R402) -/
  late : Option Nat := none
  deriving DecidableEq, Repr

/-- A batch of sealed operations (R124). -/
structure Batch where
  num : BitVec 16 := 0
  ops : List Nat := []
  deriving DecidableEq, Repr

/-- A restart image (R74). -/
structure Restart where
  word : Nat := 0
  cyc : Nat := 0
  /-- FIRST of the timed segment that holds the word -/
  seg : Nat := 0
  /-- the word begins the segment, and the anchoring event before it had been satisfied -/
  first : Bool := false
  fresh : Bool := false
  q : List Word := []
  a : SMap Ptr := []
  p : BitVec 8 := 0
  fflg : BitVec 8 := 0
  deriving DecidableEq, Repr

/-- A trap that a thread has taken: CAUSE, EPCW and the cause record n2 to n7 (R348, R350). -/
structure TrapRec where
  cause : Nat := 0
  timed : Bool := false
  epcw : Nat := 0
  record : List Word := []
  /-- the failed engine operation that the trap reports (R125) -/
  op : Option Nat := none
  /-- the trap cycle -/
  cyc : Nat := 0
  /-- the trap was raised in a coupled segment (R354) -/
  coupled : Bool := false
  deriving DecidableEq, Repr

/-- What a thread is doing. -/
inductive TStat where
  | free
  | run
  /-- a trap is taken and not yet returned from (R350) -/
  | trapped
  /-- RTEND has issued and the routine is not complete (R172) -/
  | ending
  /-- the core's work is done (R334) -/
  | done
  /-- stopped by a stop cycle, a rollback or a map change (R308, R331, R358) -/
  | stopped
  deriving DecidableEq, Repr

/-- A fence whose remote ordering still holds later accesses back (R103, R105). -/
structure FenceRec where
  seq : Nat := 0
  scope : Nat := 0
  order : Nat := 0
  /-- the thread's earlier accesses that had not been performed when it issued -/
  before : List Nat := []
  /-- its issue cycle -/
  issued : Nat := 0
  deriving DecidableEq, Repr

/-- A thread (R62): control context, helper, trap context, burin unit or request thread. -/
structure Thread where
  stat : TStat := .free
  n : SMap Word := []
  /-- result queue, newest first, 16 entries at most; an entry not listed is zero -/
  q : List Word := []
  a : SMap Ptr := []
  /-- bit k is pk; bit 0 is never read -/
  p : BitVec 8 := 0
  fflg : BitVec 8 := 0
  vl : BitVec 16 := 0
  pc : Nat := 0
  /-- MODEL: the word at `pc` has issued and been debited, and its wait goes on (R126, R28) -/
  waiting : Bool := false
  /-- MODEL: the engine operation or bank request that the waiting word waits for -/
  waitOn : Option Nat := none
  /-- first cycle on which an untimed word may issue (R170, R210, R232) -/
  notBefore : Nat := 0
  /-- cycle 0 of the current anchor (ANCH, R63) -/
  anchor : Nat := 0
  /-- anchor number of the current segment; 0 at group start (R306) -/
  anchorK : Nat := 0
  /-- an anchoring event has just been satisfied (R68) -/
  fresh : Bool := false
  /-- FIRST of the timed segment that the thread is in (R303) -/
  seg : Option Nat := none
  /-- domain whose release was the anchor, for a coupled segment (R303) -/
  anchorDom : Nat := 0
  /-- issue cycle of the previous word -/
  prev : Nat := 0
  /-- cycle on which the next timed word issues, where a return from a trap fixes it (R308, R354) -/
  dueAt : Option Nat := none
  /-- last open slot that the previous timed word grants (R78) -/
  openTo : Nat := 0
  flight : List Flight := []
  unsealed : List Nat := []
  /-- newest first: the 64 most recent, and older ones that hold a failed operation (R125, R259) -/
  batches : List Batch := []
  nextBatch : BitVec 16 := 0
  /-- messages refused as full, oldest first (R267) -/
  msgs : List Nat := []
  fences : List FenceRec := []
  /-- failed operations passed over by RFT.next (R125) -/
  restart : Option Restart := none
  /-- restarts to one restart point in a row (R309) -/
  restarts : Nat := 0
  trap : Option TrapRec := none
  deriving DecidableEq, Repr

/-- A local write that has not yet become part of the committed bytes (R71, R72, R90). -/
structure PendWrite where
  id : Nat := 0
  /-- place of its word in the order of issue: the number that the word took when it issued -/
  seq : Nat := 0
  /-- thread number of the writer; 13 a push, 12 a send or another remote write (R87) -/
  who : Nat := 0
  /-- front end of the writing core (for shared memory) -/
  core : Nat := 0
  addr : Nat := 0
  data : List Byte := []
  /-- address of the word that wrote it (R393) -/
  word : Nat := 0
  /-- the bytes are written at the end of this cycle -/
  endC : Nat := 0
  /-- from this cycle every agent reads the bytes -/
  commitC : Nat := 0
  /-- lane group that the duplicate datapath checks, for a vector row (R392), and the first-row latency of its word -/
  lane : Option Nat := none
  lat : Nat := 6
  /-- a scalar store, which the counterproof recomputes (R391) -/
  scalar : Bool := false
  /-- the products whose verdicts must come before a row of TSTORE commits (R226) -/
  after : List Nat := []
  deriving DecidableEq, Repr

/-- A local bank's personality and span (R284, R285); the header and the structure lie in the bank's bytes. -/
structure Bank where
  /-- personality code (R180) -/
  pers : Nat := 0
  /-- first bank of the span and log2 of its count (R183) -/
  first : Nat := 0
  span : Nat := 0
  /-- requests of BPERS and BSPAN that hold the bank changing (R181) -/
  changing : List Nat := []
  deriving DecidableEq, Repr

/-- What a bank request does when the bank grants it (R91). -/
inductive BankOp where
  /-- LDL with modifier `m` and key or bucket `key` (R178) -/
  | ldl (m : Nat) (key : Word)
  /-- STL with modifier `m` (R178) -/
  | stl (m : Nat) (datum : Word)
  /-- BSTAT (R183) -/
  | stat
  /-- BSNAP to `dest` (R184) -/
  | snap (dest : Nat)
  /-- one row of a VHISTO: its buckets and the increment (R213) -/
  | histo (vop : Nat) (buckets : List Nat) (inc : Nat) (last : Bool)
  /-- dependence-map update (R274) -/
  | tkpost (key : Word) (delta : Int)
  /-- a message of words (R266) -/
  | amsg (op : Nat) (m : Nat) (words : List Word)
  /-- the removal of the next routine entry (R334) -/
  | routine
  /-- BPERS: code, mode and B (R180) -/
  | pers (code mode : Nat) (b : Word)
  /-- BSPAN (R182) -/
  | span (count : Nat)
  deriving DecidableEq, Repr

/-- A request that is to be performed at a bank (R88, R91). -/
structure BankReq where
  bank : Nat := 0
  /-- requester number (R87) -/
  who : Nat := 0
  op : BankOp := .stat
  /-- `seq` of the flight entry that pushes the status, and of the one that writes the destination (R27) -/
  flight : Option Nat := none
  dest : Option Nat := none
  /-- thread that issued it -/
  thr : Nat := 0
  /-- remote operation to complete -/
  remote : Option Nat := none
  issued : Nat := 0
  /-- address of its word -/
  word : Nat := 0
  performed : Bool := false
  /-- cause found at the bank -/
  fail : Option Nat := none
  status : Word := 0
  deriving DecidableEq, Repr

/-- A tile (R220). -/
structure Tile where
  rows : Nat := 64
  cols : Nat := 64
  /-- 0 FP32, 1 I32 -/
  ty : Nat := 0
  bl : Nat := 0
  sp : Nat := 0
  elems : SMap (BitVec 32) := []
  /-- the operations whose write of the tile has not landed, oldest first -/
  busy : List Nat := []
  unread : Bool := false
  last : Nat := 0
  ind : Nat := 0
  /-- products with .ck whose verdict is still due -/
  verdicts : List Nat := []
  /-- the product with .ck that has made the tile's latest write (R226) -/
  writer : Option Nat := none
  /-- elements whose word in the accumulator store is poisoned (R398) -/
  poison : SMap Bool := []
  deriving DecidableEq, Repr

/-- Which engine operation of the matrix chapter (R221). -/
inductive EngKind where
  | product
  | quant
  | merge
  /-- a tile that stays busy, or whose verdict stays pending, as it stood when the context stood still (R235) -/
  | held
  deriving DecidableEq, Repr

/-- An operation of the array, the quantiser or the merge tree, from its issue to its end (R221, R228, R233, R241). -/
structure Eng where
  kind : EngKind := .product
  tile : Nat := 0
  fmt : Nat := 0
  k : Nat := 0
  zero : Bool := false
  ck : Bool := false
  sparse : Bool := false
  gather : Bool := false
  aBase : Nat := 0
  aStride : Nat := 0
  bBase : Nat := 0
  bStride : Nat := 0
  /-- base of the index vector of a gather -/
  iBase : Nat := 0
  issue : Nat := 0
  timed : Bool := false
  word : Nat := 0
  start : Nat := 0
  started : Bool := false
  /-- rows, columns, type, block length and sparsity of the tile -/
  tm : Nat := 0
  tn : Nat := 0
  ty : Nat := 0
  bl : Nat := 0
  sp : Nat := 0
  /-- the tile's elements on the start cycle (R229) -/
  acc : SMap (BitVec 32) := []
  /-- 0 not streaming, 1 metadata, 2 values, 3 computing (R228) -/
  phase : Nat := 0
  slot : Nat := 0
  /-- rows that the gather has read (R231) -/
  gslot : Nat := 0
  idx : List Byte := []
  mA : List Byte := []
  mB : List Byte := []
  vA : List Byte := []
  vB : List Byte := []
  /-- cycles that the phases have taken -/
  lm : Nat := 0
  lv : Nat := 0
  checked : Bool := false
  /-- the array is held before this cycle -/
  until_ : Nat := 0
  /-- the MCMD that this product serves (R239) -/
  lent : Option Nat := none
  replay : Bool := false
  /-- operand rows that the control context does not write until the replay's verdict (R394) -/
  kept : List Nat := []
  /-- block length of QSTAGE, or mask and mode of MMERGE -/
  arg : Nat := 0
  mode : Nat := 0
  incs : List (Nat × Ptr) := []
  /-- an element of D became infinite (R61); the product has landed -/
  inf : Bool := false
  landed : Bool := false
  /-- cycles by which corrections have put off its next read, those that they have added to the two phases, and the mark of the latest report
  (R399, R402) -/
  stall : Nat := 0
  corrM : Nat := 0
  corrV : Nat := 0
  late : Nat := 0
  /-- cycles by which returns from traps and resumptions move its landing and its verdict (R235) -/
  shift : Nat := 0
  deriving DecidableEq, Repr

/-- An entry of the flight list for a tile (R235, R357): the operation, and the cycles left to its landing and to its verdict, 0 for none. -/
structure TileHold where
  op : Nat := 0
  tile : Nat := 0
  busy : Nat := 0
  verdict : Nat := 0
  deriving DecidableEq, Repr

/-- Which vector instruction (R193). -/
inductive VCode where
  | vadd | vsub | vmul | vfma | vmin | vmax | vabs | vneg
  | vand | vor | vxor | vshl | vshr
  | vcmp (cc : Nat) | vsel | vcvt | vmov | vbcast | viota
  | vsum | vrmax | vrmin | vscan
  | vexp | vrcp | vrsq | vtanh
  | vperm | vcomp | vexpn | vpack | vunpk | vord | vdigit | vhisto | vcount
  /-- row accesses of TLOAD, TSTORE, QSTAGE, BKLD and BSNAP, which go as those of vector instructions do (R184, R225, R226, R233, R243) -/
  | tload | tstore | qstage | bkld | bsnap
  deriving DecidableEq, Repr

/-- A memory operand of a vector instruction as it stood at issue (R186). -/
structure VMem where
  base : Nat := 0
  stride : Nat := 0
  fmt : Nat := 0
  /-- rows spanned -/
  rows : Nat := 0
  /-- pointer to advance (R26), if any -/
  inc : Option Nat := none
  deriving DecidableEq, Repr

/-- A vector instruction in progress (R190). -/
structure VecOp where
  code : VCode := .vmov
  thr : Nat := 0
  m : Nat := 0
  vl : Nat := 0
  a : Option VMem := none
  b : Option VMem := none
  c : Option VMem := none
  /-- scalar source -/
  sc : Option Word := none
  /-- format of A, and of the element operands -/
  fmtA : Nat := 0
  timed : Bool := false
  word : Nat := 0
  /-- steps in all, cycles a step, first-row latency -/
  ns : Nat := 0
  s : Nat := 1
  l0 : Nat := 6
  /-- next step and cycle within it, and the cycle on which that read is due (R190, R191) -/
  step : Nat := 0
  sub : Nat := 0
  next : Nat := 0
  /-- operands that this read cycle has read, where a deferral keeps others back (R191) -/
  got : List Nat := []
  /-- VUNPK: 0 header rows, 1 the check, 2 value rows (R209) -/
  phase : Nat := 0
  /-- source bytes read so far, in row order -/
  bufA : List Byte := []
  bufB : List Byte := []
  bufC : List Byte := []
  /-- destination rows that are still to be written: cycle and row -/
  out : List (Nat × Nat) := []
  /-- bytes of the destination that the instruction writes -/
  extent : Nat := 0
  /-- writes made so far, by number (R265) -/
  writes : List Nat := []
  /-- a row that it reads was armed at issue -/
  armed : Bool := false
  /-- the thread's next word waits for the check or for the last armed read (R210, R265) -/
  holds : Bool := false
  flags : BitVec 8 := 0
  /-- `seq` of the flight entry of the scalar result, and its value once it is known -/
  flight : Option Nat := none
  value : Word := 0
  /-- cycle on which the scalar result lands, once it is known -/
  lands : Option Nat := none
  /-- flight entries of post-incremented pointers, each with the pointer it lands -/
  incs : List (Nat × Ptr) := []
  /-- VHISTO: elements dropped -/
  dropped : Nat := 0
  /-- local rows in one row of a tile (R225, R226) -/
  per : Nat := 1
  /-- rows that are written as they stand: address and bytes -/
  rows : List (Nat × List Byte) := []
  /-- no row commits before this cycle (R265) -/
  least : Nat := 0
  /-- TSTORE: the products whose verdicts its rows wait for (R226, R394) -/
  src : List Nat := []
  /-- TLOAD: cycles by which returns from traps and resumptions move its landing (R235) -/
  shift : Nat := 0
  /-- QSTAGE: its issue cycle, the tile's unread mark before it, and the bytes that its rows held before it (R235) -/
  issue : Nat := 0
  unread : Bool := false
  olds : List (Nat × List Byte) := []
  /-- ROT at issue (R392) -/
  rot : Nat := 0
  /-- tile of TLOAD, word offset of BKLD -/
  tile : Nat := 0
  deriving DecidableEq, Repr

/-- A stage barrier and its ring (R130, R131, R299). -/
structure Sbs where
  s : Nat := 0
  rows : Nat := 0
  fills : BitVec 16 := 0
  /-- stage of the next fill to be waited for: f mod S of fill f (R130) -/
  stage : Nat := 0
  base : Nat := 0
  /-- bytes landed in each fill not yet waited for, oldest first -/
  counts : List Nat := []
  deriving DecidableEq, Repr

/-- An entry of the capability table (R236). -/
structure Cap where
  valid : Bool := false
  rights : BitVec 4 := 0
  tmask : BitVec 8 := 0
  lo : Nat := 0
  hi : Nat := 0
  kmax : Nat := 0
  expiry : Nat := 0
  check : BitVec 16 := 0
  deriving DecidableEq, Repr

/-- A merge stream (R240): the row that its cursor has reached is read once (R134). -/
structure MStream where
  base : Nat := 0
  count : Nat := 0
  cursor : Nat := 0
  prevKey : Nat := 0
  row : Option (Nat × List Byte) := none
  deriving DecidableEq, Repr

/-- The merge tree (R134, R240 to R242). -/
structure Merge where
  /-- streams 0 to 7 are inputs, 8 is the output -/
  streams : SMap MStream := []
  mask : Nat := 0
  mode : Nat := 0
  /-- output entries since the last MMERGE with a nonzero mask -/
  out : Nat := 0
  /-- entries of the output region so far, and those of its last row that is not full -/
  pos : Nat := 0
  part : List Word := []
  /-- STATE of MSTAT -/
  st : Nat := 0
  faultStream : Nat := 0
  faultEntry : Nat := 0
  /-- the mark of a report that has stopped it (R402) -/
  faultMark : Nat := 0
  /-- MODEL: number under which its accesses wait at banks (R88), the first cycle of decisions (R241), the next cycle on which it goes on, an
  MDRAIN that has issued (R242), and the state that it enters once its last row is written -/
  key : Nat := 0
  ready : Nat := 0
  next : Nat := 0
  drain : Bool := false
  fin : Nat := 0
  deriving DecidableEq, Repr

/-- The burin unit (R132, R243 to R246); its registers and its word address are thread 12 of the core. -/
structure Burin where
  /-- program store of 256 words, as bytes -/
  store : Memory := []
  armed : Bool := false
  entry : Nat := 0
  rowBase : Nat := 0
  rows : Nat := 0
  sbs : Nat := 0
  /-- pending triggers, oldest first, 16 at most: the row, and its index in the region that it was pushed into -/
  pend : List (Nat × Nat) := []
  running : Bool := false
  /-- the cause that has stopped the unit, and that of its last fault -/
  fault : Option Nat := none
  last : Nat := 0
  faultWord : Nat := 0
  runs : Nat := 0
  /-- the region to watch once the running trigger ends -/
  next : Option (Nat × Nat × Nat × Nat) := none
  /-- the stop has not been taken as cause 0x0E0 yet -/
  untaken : Bool := false
  deriving DecidableEq, Repr

/-- A barrier release that waits for the member's BARW (R322, R323). -/
structure Release where
  cyc : Nat := 0
  total : Nat := 0
  fail : Option Nat := none
  record : List Word := []
  maxSz : Nat := 0
  maxTotal : Nat := 0
  deriving DecidableEq, Repr

/-- A packet of a counted exchange (R271). -/
structure XPacket where
  target : Nat := 0
  src : Nat := 0
  len : Nat := 0
  /-- MODEL: the place of its XPUT in the order of issue, and its cycle (R123) -/
  mark : Nat := 0
  issued : Nat := 0
  deriving DecidableEq, Repr

/-- The lend window of a core (R238): first cycle, the cycle after its last, and the segment it was opened in. -/
structure Lend where
  lo : Nat := 0
  hi : Nat := 0
  seg : Option Nat := none
  deriving DecidableEq, Repr

/-- What takes a word back that traps precisely after later words have issued (R110, R265): the word, its thread as it stood before it, and
its debit. Whatever it and later words have begun has a number from `mark` on. -/
structure Undo where
  word : Nat := 0
  mark : Nat := 0
  thread : Thread := {}
  /-- its issue cycle, and the units that its thread had debited before it since the last refill (R136) -/
  cyc : Nat := 0
  spent : Nat := 0
  deriving DecidableEq, Repr

/-- MODEL: an access that reaches a bank on cycle `arrive` and has not been served (R88). -/
structure Acc where
  bank : Nat := 0
  arrive : Nat := 0
  /-- requester number (R87), and front end of the requesting core -/
  who : Nat := 0
  core : Nat := 0
  /-- it belongs to the first group of R88, and is served on its cycle -/
  first : Bool := false
  /-- a scalar load or store, which is served at the end of a cycle; another access asks for the bank when its event comes -/
  scalar : Bool := false
  addr : Nat := 0
  /-- `seq` of the flight or `id` of the pending write that it serves, or the number of the operation, request or instruction -/
  key : Nat := 0
  /-- the latest cycle on which it has asked for the bank -/
  seen : Nat := 0
  undo : Option Undo := none
  deriving DecidableEq, Repr

/-- A trap that the control context takes before its next word (R85, R264), or on resumption (R353): the cycle of its cause. -/
structure Owed where
  cyc : Nat := 0
  cause : Nat := 0
  timed : Bool := false
  record : List Word := []
  deriving DecidableEq, Repr

/-- A word whose check has failed and whose replay is due (R393, R394): its result, or, in a timed segment, its word, which the restart
executes again. -/
structure Replay where
  thr : Nat := 0
  /-- number of the flight or of the write -/
  id : Nat := 0
  word : Nat := 0
  /-- which of the word's results it is: the packed register, 0xFFF for a push alone, or 0x1000 and the address of a row -/
  slot : Nat := 0
  timed : Bool := false
  /-- a product with .ck (R394) -/
  product : Bool := false
  /-- an armed detector makes the replay fail too (R402) -/
  fails : Bool := false
  /-- its report is an injected one -/
  injected : Bool := false
  deriving DecidableEq, Repr

/-- A core: a front end with the halves bound to it (R14, R62, R63). -/
structure Core where
  grp : Option Nat := none
  core : Nat := 0
  clus : Nat := 0
  stk : Nat := 0
  stg : Nat := 0
  /-- gang width 1, 2 or 4 (R16) -/
  gang : Nat := 1
  threads : SMap Thread := []
  mem : Memory := []
  pend : List PendWrite := []
  banks : SMap Bank := []
  reqs : SMap BankReq := []
  /-- the cycle after the one on which each bank last served an access (R88) -/
  served : SMap Nat := []
  /-- MODEL: accesses to the local banks that have not been served (R88 to R91, R191) -/
  acc : List Acc := []
  /-- landed tags of rows: the tag, the cycle at whose end it landed, and the tag before (R265) -/
  tags : SMap (Nat × Nat × Nat) := []
  /-- armed rows and their tags, 32 at most (R265) -/
  armed : List (Nat × Nat) := []
  /-- entries freed by reads of the current coupled segment (R308) -/
  freed : List (Nat × Nat) := []
  tiles : SMap Tile := []
  engs : SMap Eng := []
  /-- tiles of the flight list while the control context stands still (R235, R357) -/
  held : List TileHold := []
  vecs : SMap VecOp := []
  /-- DEPST (R86) -/
  dcol : Bool := false
  arv : BitVec 8 := 0
  en : BitVec 8 := 0
  /-- masks that DEPCFG has written, each with the first cycle on which it is in force, oldest first (R268) -/
  enNext : List (Nat × BitVec 8) := []
  /-- the traps that the control context takes before its next words, oldest first (R85, R264) -/
  owed : List Owed := []
  /-- the latest landing in n24 to n31 of the control context: cycle and word (R85) -/
  depLand : SMap (Nat × Nat) := []
  sz : BitVec 32 := 0
  budg : Nat := 0
  /-- MODEL: the units that each thread has debited since the last refill (R136) -/
  spent : SMap Nat := []
  /-- CTL.ALLOW and CTL.WCHK (R348) -/
  allow : Nat := 0
  wchk : Bool := false
  /-- grant pointer (R79) -/
  grant : Nat := 10
  /-- MODEL: the cycle after the front end's latest issue (R76), and places of the cyclic order that its helpers have been offered
  (R79) -/
  issuedAt : Nat := 0
  tried : Nat := 0
  tvec : BitVec 11 := 0
  /-- CAUSE and EPCW (R348) -/
  cause : Word := 0
  epcw : BitVec 13 := 0
  /-- thread whose trap is being handled (CTL.INTRAP) -/
  inTrap : Option Nat := none
  sbs : SMap Sbs := []
  guard : List Word := []
  caps : SMap Cap := []
  lend : Option Lend := none
  merge : Merge := {}
  burin : Burin := {}
  /-- armed injections of each detector (R282, R402) -/
  inj : SMap Nat := []
  /-- ROT (R392) -/
  rot : Nat := 0
  /-- current state of the plate (R297) -/
  state : Nat := 0
  /-- packets since the last XEND (R271) -/
  xputs : List XPacket := []
  /-- pending releases by domain (R323) -/
  rels : SMap Release := []
  /-- the core's total of its latest counted exchange (R305) -/
  xtotal : Nat := 0
  /-- rows written since the proof (R328) -/
  logged : List Nat := []
  /-- the core's work is done (R334) -/
  finished : Bool := false
  /-- results under replay (R393, R394) -/
  replays : List Replay := []
  /-- MODEL: what the part's own errors make each detector report on its next checks (R391, R398; log entry 58) -/
  real : SMap Nat := []
  /-- poisoned 8-byte words of local memory, by address div 8 (R398) -/
  poison : SMap Bool := []
  deriving DecidableEq, Repr

/-- A timed use of a shared bank on one cycle (R110): a scalar access, a row of a vector instruction or of the array, or a timed send. -/
structure Claim where
  cyc : Nat := 0
  bank : Nat := 0
  core : Nat := 0
  addr : Nat := 0
  /-- it is a timed send, a requester of its own beside its core's control context -/
  sent : Bool := false
  /-- the scalar access; the vector instruction; the send -/
  acc : Option Acc := none
  vec : Option Nat := none
  send : Option Nat := none
  /-- a row that the array or the gather unit reads (R228) -/
  eng : Option Nat := none
  deriving DecidableEq, Repr

/-- A physical cluster: its shared memory and its network interface (R18, R19, R20). -/
structure Cluster where
  mem : Memory := []
  pend : List PendWrite := []
  /-- rows of timed vector instructions that shared banks have served, the latest cycle's (R110) -/
  claims : List Claim := []
  /-- the cycle after the one on which each shared bank last served an access, and accesses that have not been served (R110, R111) -/
  served : SMap Nat := []
  acc : List Acc := []
  /-- deposits held for a saved core: core, register, value (R85) -/
  heldDeps : List (Nat × Nat × Word) := []
  /-- rows written since the proof (R328) -/
  logged : List Nat := []
  /-- poisoned 8-byte words, by address div 8 (R398) -/
  poison : SMap Bool := []
  deriving DecidableEq, Repr

/-- The vector clock and the knowledge vector of one die (R112). -/
structure Die where
  vc : List Nat := [0, 0, 0, 0, 0]
  know : List Nat := [0, 0, 0, 0, 0]
  /-- cycle of the latest clock notice, and the count it carried (R113) -/
  noticed : Nat := 0
  sent : Nat := 0
  /-- a notice is due, and is on the agenda -/
  due : Bool := false
  /-- MODEL: the cycle on which the latest message to each die arrives (R112) -/
  last : SMap Nat := []
  deriving DecidableEq, Repr

/-- A timed send on its way (R107, R264). -/
structure Send where
  src : Nat := 0
  dst : Nat := 0
  addr : Nat := 0
  /-- 0 .row, 1 .w, 2 .dep -/
  form : Nat := 0
  tag : Nat := 0
  data : List Byte := []
  lands : Nat := 0
  /-- the row is read at the start of this cycle -/
  readC : Nat := 0
  readRow : Nat := 0
  grp : Nat := 0
  /-- caught in a shared-bank conflict, it is written on a later cycle (R110) -/
  late : Bool := false
  deriving DecidableEq, Repr

/-- Which engine operation (R123). -/
inductive ReqKind where
  | cpyLd | cpySt | cpyiLd | cpyiSt | cpyz
  | rget | rput | wsig
  | atom (op : Nat)
  | pgen | amsg | mcmd | tkpost
  | snap | roll | tlbinv | ctxsave | ctxload | preempt
  deriving DecidableEq, Repr

/-- How far a part of an operation has come (R377). -/
inductive PartSt where
  | unbegun
  /-- it waits at its translation point for a demand page (R374) -/
  | held
  /-- translated; it is on its way to its home or waits there -/
  | sent
  /-- performed at its home; its bytes are being pushed -/
  | pushing
  deriving DecidableEq, Repr

/-- A part of an operation: one page and one channel stripe at most (R377), with the stamp of R113. -/
structure Part where
  /-- offset of its first byte on the global side -/
  off : Nat := 0
  len : Nat := 0
  st : PartSt := .unbegun
  pa : Nat := 0
  /-- what the home-map entry names: 1 to 6 (R96) -/
  home : Nat := 0
  /-- die of its home; 5 where it leaves the package -/
  die : Nat := 0
  ct : Nat := 0
  /-- element format, geometry code and poison tolerance of the page (R379) -/
  ef : Nat := 0
  bg : Nat := 0
  pt : Bool := false
  /-- the page's key identifier (R364) -/
  key : Nat := 0
  /-- the page's geometry, whatever the operation makes of it -/
  geo : Nat := 0
  stamp : List Nat := []
  num : Option Nat := none
  /-- a walk is under way: the generation that it has recorded (R373); and the entry that it has read and on which A or D is still to be set:
  where it lies and its two words (R372) -/
  gen : Option Nat := none
  found : Option (Nat × Nat × Nat) := none
  /-- a read that waits at its home for an unwritten granule (R101, R121) -/
  absent : Bool := false
  /-- bytes that a request at a logical target has read so far, one row a cycle (R88) -/
  got : List Byte := []
  /-- bytes of a load that are still to be pushed, by local address; of a store that was on its way when its group was saved, what it writes,
  by offset within the part -/
  segs : List (Nat × List Byte) := []
  deriving DecidableEq, Repr

/-- How an operation stands (R125). -/
inductive OpSt where
  | running
  | done
  | failed (cause : Nat)
  deriving DecidableEq, Repr

/-- An engine operation (R123). -/
structure EngOp where
  kind : ReqKind := .cpyLd
  agent : Agent := .core 0 0
  core : Nat := 0
  ctx : Nat := 0
  grp : Nat := 0
  m : Nat := 0
  /-- register or queue values of the operands at issue -/
  av : Word := 0
  bv : Word := 0
  cv : Word := 0
  /-- a further value: the signal address of WSIG, the compare value of ATOM.cas -/
  ev : Word := 0
  /-- local side: address and bytes -/
  la : Nat := 0
  /-- front end that a logical operand names, and that of the signal of a WSIG -/
  tgt : Nat := 0
  sigTgt : Nat := 0
  /-- global or remote address -/
  va : Nat := 0
  len : Nat := 0
  /-- format code of ATOM (R262) -/
  fmt : Nat := 0
  /-- element width of CPYI, block length of a block-scaled page -/
  width : Nat := 0
  /-- the part that is being served, its offset the resume offset (R377) -/
  part : Part := {}
  /-- output bytes delivered, and source bytes of the block being decoded (R254) -/
  emitted : Nat := 0
  buf : List Byte := []
  /-- every part has been performed; the signal of a WSIG is left (R119) -/
  paid : Bool := false
  st : OpSt := .running
  /-- the cause that its completion will carry -/
  cause : Option Nat := none
  /-- non-error status (R259) -/
  stat : Nat := 0
  old : Word := 0
  tag : Nat := 0
  mapv : BitVec 16 := 0
  issued : Nat := 0
  passed : Bool := false
  /-- it has been refused for its map version and sent again (R317) -/
  reissued : Bool := false
  /-- its message has reached the target's NI, which has checked its flits -/
  atNi : Bool := false
  /-- first faulting address, access kind and resume offset (R377) -/
  fva : Word := 0
  fkind : Nat := 0
  foff : Nat := 0
  /-- every access has been performed -/
  performed : Bool := false
  /-- an SC access of it has left (R99) -/
  sc : Bool := false
  /-- MODEL: its place among the requests that have reached its memory core (R127) -/
  arrived : Option Nat := none
  /-- pushes that the program serving it has made into the requesting core, and those of them that a resumption must not make again: address
  and length (R129, R377) -/
  pushed : List (Nat × Nat) := []
  skip : List (Nat × Nat) := []
  /-- swaps that have failed in the walk under way (R372) -/
  swaps : Nat := 0
  /-- the two addresses of a WSIG have been judged (R261) -/
  judged : Bool := false
  /-- the request was taken from the network (no second start) -/
  begun : Bool := false
  /-- message words of AMSG, or the command of MCMD -/
  words : List Word := []
  /-- the request thread that serves it (R127) -/
  thread : Option Nat := none
  /-- the request thread that issued it -/
  parent : Option Nat := none
  poisoned : Bool := false
  /-- the peer package whose request it is (R383) -/
  peer : Option Nat := none
  /-- accesses that a TLBINV drains: operation and part (R120) -/
  drain : List (Nat × Nat) := []
  /-- entries of the table that it takes out of the TLBs -/
  pages : List Nat := []
  /-- suspended at a stop cycle (R358) -/
  suspended : Bool := false
  deriving DecidableEq, Repr

/-- A request thread of a memory core that runs a loader or storer program (R127 to R129). -/
structure ReqThread where
  op : Nat := 0
  /-- memory core: 0 to 127 beside stacked-DRAM channels, 128 to 143 beside far-memory channels -/
  memCore : Nat := 0
  ring : Nat := 0
  loader : Bool := true
  thread : Thread := {}
  scratch : Memory := []
  deriving DecidableEq, Repr

/-- An entry of a TLB (R370, R373). -/
structure TlbEntry where
  point : Nat := 0
  ctx : Nat := 0
  sz : Nat := 0
  vpn : Nat := 0
  at_ : Nat := 0
  w0 : Word := 0
  w1 : Word := 0
  deriving DecidableEq, Repr

/-- An arrival at a barrier domain (R270, R322). -/
structure Arrival where
  core : Nat := 0
  xend : Bool := false
  proof : Bool := false
  cap : Nat := 0
  area : Nat := 0
  packets : List XPacket := []
  cyc : Nat := 0
  deriving DecidableEq, Repr

/-- A packet that the phase delivers: source bytes, receiver and its place there (R109). -/
structure Delivery where
  src : Nat := 0
  saddr : Nat := 0
  dst : Nat := 0
  daddr : Nat := 0
  len : Nat := 0
  mark : Nat := 0
  issued : Nat := 0
  /-- bytes that have been written, and whether all have -/
  done : Nat := 0
  landed : Bool := false
  deriving DecidableEq, Repr

/-- A barrier domain (R269, R321). -/
structure Domain where
  configured : Bool := false
  clusters : BitVec 64 := 0
  cores : BitVec 16 := 0
  arrivals : List Arrival := []
  /-- 0 gathering or idle, 1 summing, 2 delivering, 3 holding -/
  phase : Nat := 0
  /-- the release falls due no earlier than this cycle (R316, R322) -/
  due : Nat := 0
  /-- the cause with which the pass has failed, and its record (R270, R325) -/
  fail : Option Nat := none
  record : List Word := []
  deliveries : List Delivery := []
  deriving DecidableEq, Repr

/-- A timed segment of the plate (R303). -/
structure Seg where
  first : Nat := 0
  nw : Nat := 0
  coup : Bool := false
  deriving DecidableEq, Repr

/-- A switch entry (R302). -/
structure Switch where
  anw : Nat := 0
  k : Nat := 0
  src : Nat := 0
  cont : Nat := 0
  deriving DecidableEq, Repr

/-- A send slot (R306). -/
structure Slot where
  k : Nat := 0
  cyc : Nat := 0
  snd : Nat := 0
  tgt : Nat := 0
  deriving DecidableEq, Repr

/-- A state of the plate (R301). -/
structure PlateState where
  cap : Nat := 0
  resv : Nat := 0
  entry : Nat := 0
  switches : List Switch := []
  slots : List Slot := []
  deriving DecidableEq, Repr

/-- A kernel as installed (R297, R298). -/
structure Kernel where
  codeW : Nat := 0
  code : Memory := []
  segs : List Seg := []
  states : List PlateState := []
  rings : List Word := []
  loader : Memory := []
  loaderW : Nat := 0
  storer : Memory := []
  storerW : Nat := 0
  arg : List Byte := []
  deriving DecidableEq, Repr

/-- The states of a group (R310). -/
inductive GState where
  | pending | placed | running | changingMap | stopped | saved | rollingBack | retired | killed | rejected
  deriving DecidableEq, Repr

/-- A write to global memory that waits for the next proof (R329). -/
structure HoldWrite where
  memCore : Nat := 0
  pa : Nat := 0
  byte : Byte := 0
  deriving DecidableEq, Repr

/-- A core's image, and a cluster's (R328, R356). -/
structure Image where
  at_ : Nat := 0
  core : Core := {}
  /-- deposits that the NI held for the core (R85) -/
  deps : List (Nat × Word) := []
  deriving DecidableEq, Repr

structure SharedImage where
  at_ : Nat := 0
  mem : Memory := []
  /-- writes of the members that are not committed yet, and accesses that have not been served -/
  pend : List PendWrite := []
  acc : List Acc := []
  deriving DecidableEq, Repr

/-- A proof (R327, R328): the images on its release cycle, and the release that the repeated superstep begins with (R331). -/
structure Proof where
  cyc : Nat := 0
  dom : Nat := 0
  rels : SMap Release := []
  images : List Image := []
  shared : List SharedImage := []
  ops : SMap EngOp := []
  reqThreads : SMap ReqThread := []
  domains : SMap Domain := []
  ready : Bool := false
  deriving DecidableEq, Repr

/-- A coupled restart under way (R308, R408). -/
structure Coupled where
  dom : Nat := 0
  trapC : Nat := 0
  stopC : Nat := 0
  stopped : Bool := false
  /-- cores that trapped, and those of them that have executed RFT.rst -/
  traps : List Nat := []
  rst : List Nat := []
  /-- the latest trap cycle of cause 0x043 -/
  energy : Option Nat := none
  last : Nat := 0
  deriving DecidableEq, Repr

/-- A group and the kernel instance that it runs (R297, R310). -/
structure Group where
  ctx : Nat := 0
  num : Nat := 0
  st : GState := .pending
  /-- the launch record, eight words (R276) -/
  record : List Word := []
  queue : Nat := 0
  /-- waiting for WKEY (R297) -/
  waiting : Bool := false
  queuedAt : Nat := 0
  /-- MODEL: order of acceptance -/
  order : Nat := 0
  /-- checked and not placeable yet (R340) -/
  heldPlace : Bool := false
  dequeued : Bool := false
  kernel : Kernel := {}
  /-- physical cluster of each logical cluster (R18) -/
  map : List Nat := []
  /-- front end of each member, by rank (R313, R315) -/
  members : List Nat := []
  mapv : BitVec 16 := 0
  /-- pending cluster moves: logical, physical (R316) -/
  moves : List (Nat × Nat) := []
  /-- pending moves that the map change under way does not make (log entry 64) -/
  deferred : List (Nat × Nat) := []
  domains : SMap Domain := []
  proof : Option Proof := none
  /-- proofs that are being written, by the domain whose release waits for each (R327, R328) -/
  taking : List Proof := []
  hold : List HoldWrite := []
  /-- granules of WOS pages that the held writes have written (R101, R329) -/
  granules : SMap Bool := []
  /-- SNAPs to join when the proof is taken -/
  snaps : List Nat := []
  stopC : Option Nat := none
  preempts : List Nat := []
  saved : List Image := []
  savedShared : List SharedImage := []
  /-- coupled restarts under way, by domain (R308, R408) -/
  coupled : SMap Coupled := []
  /-- ROLLs to join -/
  rolls : List Nat := []
  /-- an uncorrectable error that a rollback answers: the code and detail of the notice that a kill would post (R400) -/
  ue : Option (Nat × Nat) := none
  /-- a release waits for the copy of cores that move, and its domain (R316, R319) -/
  copying : Bool := false
  copyDom : Nat := 0
  resumeAt : Option Nat := none
  /-- the cause with which the fault service has ended a read of its image (R297, R374) -/
  fault : Option Nat := none
  deriving DecidableEq, Repr

/-- A launch queue (R332, R341). -/
structure LQueue where
  recs : List Nat := []
  acc : Nat := 0
  disc : Nat := 0
  handle : Nat := 0
  deriving DecidableEq, Repr

/-- A context (R346, R355). -/
structure Context where
  /-- state code (R346) -/
  st : Nat := 0
  /-- CTXP, a physical address -/
  area : Nat := 0
  root : Word := 0
  /-- QUOTA: USED and LIMIT -/
  used : Nat := 0
  limit : Nat := 0
  /-- a quota failure has been noticed since LIMIT was last written (R363) -/
  noticed : Bool := false
  allow : Nat := 0
  wchk : Bool := false
  keys : List Nat := []
  home : List Word := []
  guard : List Word := []
  queues : SMap LQueue := []
  /-- hub dependence map: key, count (R342) -/
  hubMap : SMap (BitVec 32) := []
  /-- last group number assigned (R310) -/
  lastGrp : Nat := 255
  /-- DKEY signals held by the sequencer (R342) -/
  dkeys : List Nat := []
  /-- charged demand pages: where the entry lies, size code, virtual page number (R362) -/
  charged : List (Nat × Nat × Nat) := []
  deriving DecidableEq, Repr

/-- A flit that a link keeps until it is acknowledged (R381): the granule of its request, which chooses its link, and whether it was sent under
a mapping that has changed since (R382). -/
structure Kept where
  flit : BitVec 256 := 0
  granule : Nat := 0
  old : Bool := false
  deriving DecidableEq, Repr

/-- A Ronoi link (R380, R381). -/
structure Link where
  /-- state code (R380) -/
  st : Nat := 0
  lanes : Nat := 0
  /-- good lanes found by the last training -/
  good : Nat := 0
  replays : Nat := 0
  /-- consecutive failed attempts at retraining -/
  attempts : Nat := 0
  /-- flits that have gone over the link since it came up, and the counts at its latest replays, newest first, 16 at most (R380) -/
  flits : Nat := 0
  window : List Nat := []
  /-- next sequence number to send, and to receive -/
  seqTx : Nat := 0
  seqRx : Nat := 0
  /-- unacknowledged flits, oldest first, 4,096 at most (R381) -/
  buffer : List Kept := []
  /-- flits that wait for room in the replay buffer: kind, destination, granule and payload -/
  waiting : List (Nat × Nat × Nat × BitVec 184) := []
  /-- flits received in order -/
  rx : List (BitVec 256) := []
  /-- flits to send -/
  tx : List (BitVec 256) := []
  deriving DecidableEq, Repr

/-- A fault record (R374): the request that is held, or the group whose image the sequencer reads. -/
structure FaultRec where
  op : Nat := 0
  grp : Option Nat := none
  part : Nat := 0
  ctx : Nat := 0
  va : Nat := 0
  deriving DecidableEq, Repr

/-- A request through a host port that waits for its completion (R118): the operation, the thread whose access it is, and whether that access
is an SC access. -/
structure PortWrite where
  port : Nat := 0
  op : Nat := 0
  agent : Agent := .core 0 0
  sc : Bool := false
  deriving DecidableEq, Repr

/-- The hub's registers and queues (R332, R343, R376, R385 to R388, R425). -/
structure Hub where
  privQ : List Word := []
  heldNotices : List Word := []
  faults : List FaultRec := []
  heldFaults : List FaultRec := []
  servicing : Bool := false
  ovf : Bool := false
  heldCount : Nat := 0
  ecom : BitVec 8 := 0
  stale : BitVec 16 := 0
  fnum : BitVec 12 := 0xFFF
  ctx0Ld : Bool := false
  ctx0Err : Bool := false
  ctx0Base : BitVec 40 := 0
  ckBase : Word := 0
  ckDone : BitVec 32 := 0
  ckRef : Bool := false
  ckErr : Bool := false
  ckDir : Bool := false
  ckGo : Bool := false
  pkgw : BitVec 16 := 0
  tmax : BitVec 8 := 0
  binc : BitVec 8 := 0
  bind : BitVec 8 := 0
  clk : Nat := 0
  /-- CLK as PWR last showed it (R425) -/
  clkShown : Nat := 0
  /-- cycle of the latest clock step, and of the last cycle with a condition (R424) -/
  stepped : Option Nat := none
  conditionAt : Nat := 0
  exports : SMap Word := []
  linkSets : SMap (BitVec 16) := []
  /-- peers to which new requests are held until what was sent under an old mapping has been acknowledged (R382) -/
  linkHold : List Nat := []
  /-- payloads of a peer's WSIGs that have ended with error status: peer, tag, cause (R119) -/
  failedPayloads : List (Nat × Nat × Nat) := []
  /-- live encryption keys by identifier, and how often each was generated (R390) -/
  keys : SMap (BitVec 512) := []
  keyGens : Nat := 0
  /-- replies in the security mailbox, newest first (R390) -/
  mailbox : List (BitVec 512) := []
  reports : List (List Nat) := []
  /-- the bring-up step that has failed; 0 none (R423) -/
  failed : Nat := 0
  /-- requests through host ports that wait for a completion, oldest first (R118) -/
  portWrites : List PortWrite := []
  /-- completions of the last deferrable host operations, newest first (R341) -/
  completions : List Nat := []
  deriving DecidableEq, Repr

/-- Bindings of a front end: the slabs of its west and east half (R14); a front end not listed keeps the halves of its
own slab, and `parked` front ends hold no context. -/
structure Binding where
  west : Option Nat := none
  east : Option Nat := none
  parked : Bool := false
  deriving DecidableEq, Repr

/-- MODEL: an event that is due on a cycle. Lower `prio` goes first on one cycle. -/
structure Entry where
  due : Nat := 0
  prio : Nat := 0
  ev : Instr
  deriving DecidableEq, Repr

/-- MODEL: who may use an issue slot of the current cycle. -/
inductive Turn where
  /-- thread `t` of core `c`, or the burin unit (`t` = 12) -/
  | thr (c t : Nat)
  /-- the helpers of core `c`, by a grant (R79) -/
  | grant (c : Nat)
  /-- request thread `id` of a memory core -/
  | req (id : Nat)
  deriving DecidableEq, Repr

/-- The package. -/
structure State where
  /-- CYC: cycles since device reset (R63) -/
  now : Nat := 0
  /-- MODEL: events due now or later, in order -/
  agenda : List Entry := []
  /-- MODEL: the issue slots of this cycle that are still to be offered -/
  todo : List Turn := []
  /-- MODEL: loads, streams and sends have read on this cycle -/
  read : Bool := true
  /-- MODEL: the slots of this cycle have been laid out -/
  opened : Bool := false
  /-- MODEL: the scalar accesses of this cycle have been served -/
  closed : Bool := false
  /-- MODEL: the agent whose word is being executed -/
  cur : Agent := .core 0 0
  /-- MODEL: counter of free values and of names -/
  fresh : Nat := 0
  cores : SMap Core := []
  clusters : SMap Cluster := []
  dies : SMap Die := []
  groups : SMap Group := []
  contexts : SMap Context := []
  /-- stacked DRAM and far memory, by physical address (R22) -/
  phys : Memory := []
  /-- the key under which a 16-byte block of it is sealed: its bytes are held plain (R364) -/
  blockKeys : SMap (BitVec 512) := []
  /-- host memory and the safe tier: bits 51 of the address and below (R116) -/
  host : Memory := []
  /-- frame-type tags: frame number, consistency type plus 1 (R120, R122); frames of host memory from 2^50 on -/
  frameTags : SMap Nat := []
  /-- the context that owns a frame of an IP page, plus 1 (R102) -/
  frameOwner : SMap Nat := []
  /-- written granules of WOS pages, by physical granule number (R101); those of host memory from 2^60 on -/
  granules : SMap Bool := []
  /-- the pages through which a frame has been accessed: context and virtual address; a frame without one is free (R122) -/
  mappers : SMap (List (Nat × Nat)) := []
  /-- poisoned 8-byte words of global memory, by physical address div 8 (R379) -/
  poison : SMap Bool := []
  /-- handler region of 2,048 words, the same in every front end (R350) -/
  handler : Memory := []
  ops : SMap EngOp := []
  reqThreads : SMap ReqThread := []
  sends : SMap Send := []
  tlb : List TlbEntry := []
  /-- MODEL: the pages that translations have found: context, size code, virtual page number (R366) -/
  pages : List (Nat × Nat × Nat) := []
  /-- generation number of the translation points (R373) -/
  gen : Nat := 0
  /-- the hub: sequencer, security processor, host ports, links' fabric numbers, power and faults -/
  hub : Hub := {}
  links : SMap Link := []
  /-- bin code of each half-slab: slab number × 2, plus 1 for the east half (R396) -/
  bins : SMap Nat := []
  /-- halves that have passed a retest since they entered bin D (R397) -/
  passed : List Nat := []
  /-- bin moves of halves that are bound to a running group: they take effect at its rollback, or when the half falls free (R396) -/
  binDue : List (Nat × Nat) := []
  bindings : SMap Binding := []
  deriving DecidableEq, Repr

/-- The package after device reset, once bring-up steps 1 to 6 of R423 have passed and the host ports have trained: CYC is 0, every
bank is array, every counter of R112 is 0, every half is bound to its own slab's front end and the front ends of row 16 of each
column are spare (R15), no context is loaded and no group exists. Every register whose reset value no rule states is 0, and so is every byte
of memory that nothing has written (log entries 9 and 10). -/
def State.reset : State := {}

end Sys2Proof.Machine
end

