-- ==== Sys2Proof/Machine/Access.lean ====
section
/-! DEFINITION. The named reads and writes of the state: cores and threads, registers, the agenda, the bytes of local and
shared memory as each agent sees them, and the local guard. -/

namespace Sys2Proof

/-- What a byte of memory that nothing has written reads as (DESIGN CHOICE, log entry 10). -/
def Machine.unwritten : Byte := 0

/-- The canonical form of a memory: addresses strictly rising, and no byte listed that an unlisted address reads as. -/
abbrev Memory.wf (m : Memory) : Prop := SMap.ok Machine.unwritten m = true

end Sys2Proof

namespace Sys2Proof.Machine

/-- The outcome of a step of this machine. -/
abbrev Out := Host.Outcome State Fault Refusal

/-- Apply a function to every listed value. -/
def mapVals {α : Type} (f : α → α) (m : SMap α) : SMap α := m.map fun e => (e.1, f e.2)

/-! Where things are. -/

/-- Front end `y` of column `x` of a stack (R11). -/
def feKey (stack x y : Nat) : Nat := stack * 272 + x * 17 + y

/-- The stack, column and row of a front end or slab. -/
def feStack (fe : Nat) : Nat := fe / 272
def feX (fe : Nat) : Nat := fe % 272 / 17
def feY (fe : Nat) : Nat := fe % 272 % 17

/-- The physical cluster of a front end: its column (R313). -/
def clusterOf (fe : Nat) : Nat := feStack fe * 16 + feX fe

/-- A group's key. -/
def groupKey (ctx num : Nat) : Nat := ctx * 256 + num

def State.coreAt (s : State) (c : Nat) : Core := SMap.get {} s.cores c
def State.setCore (s : State) (c : Nat) (k : Core) : State := { s with cores := SMap.put s.cores c k }
def State.modCore (s : State) (c : Nat) (f : Core → Core) : State := s.setCore c (f (s.coreAt c))
def State.clusterAt (s : State) (k : Nat) : Cluster := SMap.get {} s.clusters k
def State.setCluster (s : State) (k : Nat) (v : Cluster) : State := { s with clusters := SMap.put s.clusters k v }
def State.modCluster (s : State) (k : Nat) (f : Cluster → Cluster) : State := s.setCluster k (f (s.clusterAt k))
def State.groupAt (s : State) (g : Nat) : Group := SMap.get {} s.groups g
def State.setGroup (s : State) (g : Nat) (v : Group) : State := { s with groups := SMap.put s.groups g v }
def State.modGroup (s : State) (g : Nat) (f : Group → Group) : State := s.setGroup g (f (s.groupAt g))
def State.contextAt (s : State) (x : Nat) : Context := SMap.get {} s.contexts x
def State.setContext (s : State) (x : Nat) (v : Context) : State := { s with contexts := SMap.put s.contexts x v }
def State.modContext (s : State) (x : Nat) (f : Context → Context) : State := s.setContext x (f (s.contextAt x))
def State.dieAt (s : State) (d : Nat) : Die := SMap.get {} s.dies d
def State.setDie (s : State) (d : Nat) (v : Die) : State := { s with dies := SMap.put s.dies d v }
def State.opAt (s : State) (o : Nat) : EngOp := SMap.get {} s.ops o
def State.setOp (s : State) (o : Nat) (v : EngOp) : State := { s with ops := SMap.put s.ops o v }
def State.modOp (s : State) (o : Nat) (f : EngOp → EngOp) : State := s.setOp o (f (s.opAt o))
def State.reqAt (s : State) (r : Nat) : ReqThread := SMap.get {} s.reqThreads r
def State.setReq (s : State) (r : Nat) (v : ReqThread) : State := { s with reqThreads := SMap.put s.reqThreads r v }
def State.linkAt (s : State) (l : Nat) : Link := SMap.get {} s.links l
def State.setLink (s : State) (l : Nat) (v : Link) : State := { s with links := SMap.put s.links l v }

def Core.thread (k : Core) (t : Nat) : Thread := SMap.get {} k.threads t
def Core.setThread (k : Core) (t : Nat) (th : Thread) : Core := { k with threads := SMap.put k.threads t th }
def Core.modThread (k : Core) (t : Nat) (f : Thread → Thread) : Core := k.setThread t (f (k.thread t))

/-- The thread of an agent. -/
def State.threadOf (s : State) : Agent → Thread
  | .core c t => (s.coreAt c).thread t
  | .req id => (s.reqAt id).thread

def State.setThread (s : State) (ag : Agent) (th : Thread) : State :=
  match ag with
  | .core c t => s.modCore c fun k => k.setThread t th
  | .req id => s.setReq id { s.reqAt id with thread := th }

def State.modThread (s : State) (ag : Agent) (f : Thread → Thread) : State := s.setThread ag (f (s.threadOf ag))

/-- The core behind an agent: a request thread acts for the core that issued the request (R127). -/
def State.coreOf (s : State) : Agent → Nat
  | .core c _ => c
  | .req id => (s.opAt (s.reqAt id).op).core

def State.groupOfCore (s : State) (c : Nat) : Nat := (s.coreAt c).grp.getD 0

/-- The context that an agent acts for. -/
def State.ctxOf (s : State) (ag : Agent) : Nat := s.groupOfCore (s.coreOf ag) / 256

/-- The privileged view: threads of context 0, and every trap context (R347). -/
def State.privileged (s : State) (ag : Agent) : Bool :=
  match ag with
  | .core c 11 => (s.coreAt c).inTrap.isSome || s.ctxOf ag == 0
  | _ => s.ctxOf ag == 0

/-! Names and the agenda. -/

/-- A fresh number. -/
def State.take (s : State) : Nat × State := (s.fresh, { s with fresh := s.fresh + 1 })

/-- A duration that R426 leaves to the part. -/
def State.delay (s : State) : Nat × State := (Config.duration s.fresh, { s with fresh := s.fresh + 1 })

/-- A fresh free value (log entry 1). -/
def State.free (s : State) : Word × State := (Config.freeWord s.fresh, { s with fresh := s.fresh + 1 })

def entryBefore (x y : Entry) : Bool := x.due < y.due || (x.due == y.due && x.prio < y.prio)

/-- Put an event on the agenda, after those of the same cycle and priority. -/
def agendaInsert (e : Entry) : List Entry → List Entry
  | [] => [e]
  | x :: rest => if entryBefore e x then e :: x :: rest else x :: agendaInsert e rest

/-- The event is due on cycle `due`. -/
def State.at (s : State) (due prio : Nat) (ev : Instr) : State :=
  { s with agenda := agendaInsert { due := due, prio := prio, ev := ev } s.agenda }

/-- The event is due after a duration that R426 leaves to the part, and at least `least` cycles on. -/
def State.later (s : State) (least : Nat) (ev : Instr) : State :=
  let (d, s) := s.delay
  s.at (s.now + least + d) 60 ev

/-- Is such an event on the agenda? -/
def State.pending (s : State) (ev : Instr) : Bool := s.agenda.any fun e => e.ev == ev

/-- Take an event off the agenda. -/
def State.cancel (s : State) (p : Instr → Bool) : State := { s with agenda := s.agenda.filter fun e => !p e.ev }

/-! The order of events on one cycle: what happened at the end of the cycle before, the refill, landings, verdicts, commits by requester;
then, once what reads at the start of the cycle has read, releases, engines, the network; then, after the issue slots, timed sends and the
accesses to banks (R88). -/
def prioDeposit : Nat := 0
def prioRefill : Nat := 1
def prioVerdict : Nat := 5
def prioLanding : Nat := 2
def prioCommit : Nat := 10
def prioRelease : Nat := 30
/-- A tile that lands is free before the engines that start on the cycle (R218, R220). -/
def prioTile : Nat := 31
def prioEngine : Nat := 32
def prioNet : Nat := 60
def prioSend : Nat := 79
def prioBank : Nat := 80

/-! Registers. -/

/-- The image of a pointer (R163). -/
def Ptr.image (p : Ptr) : Word := p.base.setWidth 64 ||| (p.stride.setWidth 64 <<< (24 : Nat))

/-- The pointer of an image (R177). -/
def Ptr.ofImage (w : Word) : Ptr := { base := w.extractLsb' 0 24, stride := w.extractLsb' 24 16 }

namespace Thread

def readN (th : Thread) (r : Nat) : Word := SMap.get 0 th.n r
def writeN (th : Thread) (r : Nat) (v : Word) : Thread := { th with n := SMap.set 0 th.n r v }
def readA (th : Thread) (r : Nat) : Ptr := SMap.get {} th.a r
def writeA (th : Thread) (r : Nat) (p : Ptr) : Thread := { th with a := SMap.set {} th.a r p }
/-- q(k + 1): the entry that is k-th newest (R62). -/
def readQ (th : Thread) (k : Nat) : Word := th.q.getD k 0
/-- p0 reads true (R62). -/
def readP (th : Thread) (r : Nat) : Bool := r == 0 || th.p.getLsbD r
/-- Writes to p0 are ignored (R62). -/
def writeP (th : Thread) (r : Nat) (v : Bool) : Thread :=
  if r = 0 then th
  else { th with p := (th.p &&& ~~~((1 : BitVec 8) <<< r)) ||| (if v then (1 : BitVec 8) <<< r else 0) }
/-- A landing pushes its value (R64). -/
def pushQ (th : Thread) (v : Word) : Thread := { th with q := (v :: th.q).take 16 }
/-- Flags are sticky (R53). -/
def raise (th : Thread) (f : BitVec 8) : Thread := { th with fflg := th.fflg ||| f }

/-- The value of an operand that is read (R158): a direct address stands for its byte address. -/
def value (th : Thread) (o : Operand) (typed : Bool) : Word :=
  match o.kind with
  | .nreg => th.readN o.num
  | .qage => th.readQ o.num
  | .ptr => (th.readA o.num).image
  | .imm => BitVec.ofInt 64 o.immInt
  | .direct => BitVec.ofNat 64 (o.directRow typed * 256)
  | .pred => if th.readP o.num then 1 else 0
  | .tile | .special => BitVec.ofNat 64 o.num

/-- The value of a source operand in a position that reads no format code. -/
def src (th : Thread) (o : Operand) : Word := th.value o false

/-- The base that an address operand gives (R173). -/
def base (th : Thread) (o : Operand) (typed : Bool) : Nat :=
  match o.kind with
  | .ptr => (th.readA o.num).base.toNat
  | .direct => o.directRow typed * 256 % 2 ^ 24
  | _ => (th.value o typed).toNat % 2 ^ 24

/-- The stride that a memory operand gives: 0 for a direct address (R186). -/
def stride (th : Thread) (o : Operand) : Int :=
  match o.kind with
  | .ptr => (th.readA o.num).stride.toInt
  | _ => 0

/-- Does the guard read true (R66)? -/
def guardTrue (th : Thread) (w : Fields) : Bool :=
  let p := th.readP (w.g.extractLsb' 1 3).toNat
  if w.g.getLsbD 0 then !p else p

end Thread

/-- The register that a destination is, packed as a cause record packs it (R428). -/
def Dest.packed : Dest → Option Nat
  | .none => Option.none
  | .n r => some r
  | .a r => some (0x100 + r)
  | .p r => some (0x200 + r)

/-- The outstanding write to a register, if there is one. -/
def Thread.outstanding (th : Thread) (reg : Nat) : Option Flight := th.flight.find? fun f => f.dest.packed == some reg

/-! Results in flight. -/

/-- A result lands `lat` cycles from now (R25). -/
def State.landAs (s : State) (ag : Agent) (word : Nat) (dest : Dest) (v : Word) (push : Bool) (lat check : Nat) : State :=
  let (q, s) := s.take
  let f : Flight := { dest := dest, value := v, push := push, land := s.now + lat, word := word, seq := q, lat := check }
  (s.modThread ag fun th => { th with flight := th.flight ++ [f] }).at (s.now + lat) prioLanding (.resultLanding ag)

/-- A result that the counterproof recomputes lands `lat` cycles from now (R391). -/
def State.land (s : State) (ag : Agent) (word : Nat) (dest : Dest) (v : Word) (push : Bool) (lat : Nat) : State :=
  s.landAs ag word dest v push lat lat

/-- A result whose landing cycle is not known yet; its number is given back. -/
def State.landUnknown (s : State) (ag : Agent) (word : Nat) (dest : Dest) (push : Bool) : Nat × State :=
  let (q, s) := s.take
  let f : Flight := { dest := dest, push := push, known := false, word := word, seq := q }
  (q, s.modThread ag fun th => { th with flight := th.flight ++ [f] })

/-- The cycle and the value of a result become known; returns from traps that the result has outlasted move its landing (R73). -/
def State.landKnown (s : State) (ag : Agent) (q : Nat) (v : Word) (land : Nat) : State :=
  let land := land + (((s.threadOf ag).flight.find? fun f => f.seq == q).map (·.shift)).getD 0
  (s.modThread ag fun th =>
    { th with flight := th.flight.map fun f => if f.seq = q then { f with value := v, land := land, known := true } else f }).at
      land prioLanding (.resultLanding ag)

/-- Drop a result that will not land. -/
def State.dropFlight (s : State) (ag : Agent) (q : Nat) : State :=
  s.modThread ag fun th => { th with flight := th.flight.filter fun f => f.seq != q }

/-! Bytes. -/

def memByte (m : Memory) (a : Nat) : Byte := SMap.get unwritten m a
def memRead (m : Memory) (a n : Nat) : List Byte := (List.range n).map fun i => memByte m (a + i)
/-- Writing one byte keeps the canonical form: what an unlisted address reads as is not listed. -/
def memSet (m : Memory) (a : Nat) (b : Byte) : Memory := SMap.set unwritten m a b
def memWrite : Memory → Nat → List Byte → Memory
  | m, _, [] => m
  | m, a, b :: bs => memWrite (memSet m a b) (a + 1) bs

/-- Little-endian value of bytes (R31). -/
def leNat : List Byte → Nat
  | [] => 0
  | b :: bs => b.toNat + 256 * leNat bs

/-- The `n` bytes of a value, lowest first (R31). -/
def leBytes : Nat → Nat → List Byte
  | 0, _ => []
  | n + 1, v => BitVec.ofNat 8 v :: leBytes n (v / 256)

/-- Sign-extend the low `bits` bits of a value to 64. -/
def signExtend (bits : Nat) (v : Nat) : Word := (BitVec.ofNat bits v).signExtend 64

/-! Own local memory (R20) and cluster shared memory (R19). -/

def localEnd : Nat := 0x100000
def sharedStart : Nat := 0x400000
def sharedEnd : Nat := 0x800000

def isLocal (a : Nat) : Bool := a < localEnd
def isShared (a : Nat) : Bool := sharedStart ≤ a && a < sharedEnd

/-- Bits 19..16 of a local address: the bank. -/
def bankOf (a : Nat) : Nat := a / 65536 % 16
/-- Bits 21..16 of a shared address: the shared bank (R19). -/
def sharedBankOf (a : Nat) : Nat := a / 65536 % 64

/-- The store that holds an address of core `c`. -/
def placeOf (c a : Nat) : Place := if isShared a then .cluster (clusterOf c) else .core c

def State.memOf (s : State) : Place → Memory
  | .core c => (s.coreAt c).mem
  | .cluster k => (s.clusterAt k).mem

def State.pendOf (s : State) : Place → List PendWrite
  | .core c => (s.coreAt c).pend
  | .cluster k => (s.clusterAt k).pend

def State.setPend (s : State) (p : Place) (l : List PendWrite) : State :=
  match p with
  | .core c => s.modCore c fun k => { k with pend := l }
  | .cluster c => s.modCluster c fun k => { k with pend := l }

def State.setMem (s : State) (p : Place) (m : Memory) : State :=
  match p with
  | .core c => s.modCore c fun k => { k with mem := m }
  | .cluster c => s.modCluster c fun k => { k with mem := m }

/-- A list in the order of a key; equal keys keep their order. -/
def sortLe (key : PendWrite → Nat × Nat) : List PendWrite → List PendWrite
  | [] => []
  | x :: rest => sortBack key x (sortLe key rest)
where
  /-- insert before the first entry whose key is not lower -/
  sortBack (key : PendWrite → Nat × Nat) (x : PendWrite) : List PendWrite → List PendWrite
    | [] => [x]
    | y :: rest =>
      let (a, b) := key x
      let (c, d) := key y
      if c < a || (c == a && d < b) then y :: sortBack key x rest else x :: y :: rest

/-- The byte at `a` that the last of these writes leaves, or `d`. -/
def overlay (d : Byte) (a : Nat) : List PendWrite → Byte
  | [] => d
  | w :: rest =>
    let d := if w.addr ≤ a && a < w.addr + w.data.length then w.data.getD (a - w.addr) d else d
    overlay d a rest

/-- Of two writes of one thread that end on one cycle, the later-issued word's is the scalar store's (R71). -/
def PendWrite.rankAt (w : PendWrite) : Nat := if w.commitC ≤ w.endC + 3 then 1 else 0

/-- Of two writes of one thread, the second ends later, or on the same cycle by a later word (R71). -/
def PendWrite.before (x y : PendWrite) : Bool :=
  decide (x.endC < y.endC) || (x.endC == y.endC && (decide (x.rankAt < y.rankAt) || (x.rankAt == y.rankAt && decide (x.seq < y.seq))))

/-- Bytes of an earlier write of the thread give way to those of one that commits before it. -/
def PendWrite.yield (x y : PendWrite) : PendWrite :=
  if x.who == y.who && x.core == y.core && x.before y then
    { x with data := (List.range x.data.length).map fun i =>
        let a := x.addr + i
        if y.addr ≤ a && a < y.addr + y.data.length then y.data.getD (a - y.addr) 0 else x.data.getD i 0 }
  else x

/-- The byte that requester `who` of core `c` reads at the start of cycle `t`: the committed bytes, and over them its own writes that
ended on an earlier cycle (R71, R72, R90). Writes that commit on a cycle are committed before any agent reads on it; one whose check has
failed on it is not seen (R72). -/
def viewByte (m : Memory) (pend : List PendWrite) (c who t a : Nat) : Byte :=
  overlay (memByte m a) a
    (sortLe (fun w => (2 * w.endC + w.rankAt, w.seq)) (pend.filter fun w => w.who == who && w.core == c && w.endC < t))

/-- The bytes that requester `who` of core `c` reads at the start of cycle `t` (R71, R90). -/
def State.view (s : State) (c who t a n : Nat) : List Byte :=
  let p := placeOf c a
  let m := s.memOf p
  let pend := (s.pendOf p).filter fun w => w.addr < a + n && a < w.addr + w.data.length
  if pend.isEmpty then memRead m a n else (List.range n).map fun i => viewByte m pend c who t (a + i)

/-- The committed bytes now. -/
def State.committed (s : State) (c a n : Nat) : List Byte := s.view c 99 s.now a n

/-- The requester number of a thread (R87): the burin unit is 11, the trap context 14. -/
def requester (t : Nat) : Nat := if t = 11 then 14 else if t = 12 then 11 else t

/-- The thread of a requester number. -/
def threadNo (who : Nat) : Nat := if who = 14 then 11 else if who = 11 then 12 else who

/-- A local write that ends with cycle `endC` and commits at the start of cycle `commitC` (R71, R72). -/
def State.write (s : State) (c who a : Nat) (bs : List Byte) (endC commitC : Nat) (word : Nat := 0)
    (lane : Option Nat := none) (lat : Nat := 6) (seq : Option Nat := none) (after : List Nat := []) : Nat × State :=
  let (q, s) := s.take
  let p := placeOf c a
  let w : PendWrite := { id := q, seq := seq.getD q, who := who, core := c, addr := a, data := bs, word := word, endC := endC, commitC := commitC,
                         lane := lane, lat := lat, after := after }
  (q, (s.setPend p (s.pendOf p ++ [w])).at commitC (prioCommit + who) (.counterproofCommit p q))

/-- A scalar store whose access has not been served: its bytes are written when it is (R71, R88). -/
def State.writeLater (s : State) (c who a : Nat) (bs : List Byte) (endC word : Nat) : Nat × State :=
  let (q, s) := s.take
  let p := placeOf c a
  let w : PendWrite := { id := q, seq := q, who := who, core := c, addr := a, data := bs, word := word, endC := endC, commitC := endC + 3,
                         scalar := true }
  (q, s.setPend p (s.pendOf p ++ [w]))

/-- The writes of a place of which `f` gives another cycle are moved. -/
def State.mapPend (s : State) (p : Place) (f : PendWrite → PendWrite) : State := s.setPend p ((s.pendOf p).map f)

/-- Some write of the thread is not committed yet: its own, in local or in shared memory (R72). -/
def State.uncommitted (s : State) (c who : Nat) : Bool :=
  (s.pendOf (.core c)).any (fun w => w.who == who) || (s.pendOf (.cluster (clusterOf c))).any (fun w => w.who == who && w.core == c)

/-! Banks (R284, R286). -/

def Core.bank (k : Core) (b : Nat) : Bank := SMap.get {} k.banks b
/-- The personality code of the bank that an address lies in; shared memory and reserved addresses have none. -/
def Core.persAt (k : Core) (a : Nat) : Nat := if isLocal a then (k.bank (bankOf a)).pers else 0
/-- First bank of the span that holds bank `b`: the bank itself where it is not spanned. -/
def Core.spanFirst (k : Core) (b : Nat) : Nat := if (k.bank b).span = 0 then b else (k.bank b).first
def Core.spanCount (k : Core) (b : Nat) : Nat := 2 ^ (k.bank b).span
def Core.spanBanks (k : Core) (b : Nat) : List Nat := (List.range (k.spanCount b)).map (k.spanFirst b + ·)
/-- The bank, or its span, is changing (R181, R284). -/
def Core.changing (k : Core) (b : Nat) : Bool := (k.spanBanks b).any fun j => !(k.bank j).changing.isEmpty

/-- A byte of the range lies in a bank that is not array (R91). -/
def Core.personality (k : Core) (a n : Nat) : Bool :=
  isLocal a && n != 0 && (List.range 16).any fun b => (k.bank b).pers != 0 && b * 65536 < a + n && a < (b + 1) * 65536

/-- A byte of the range lies in a bank that is changing. -/
def Core.changingIn (k : Core) (a n : Nat) : Bool :=
  isLocal a && n != 0 && (List.range 16).any fun b => k.changing b && b * 65536 < a + n && a < (b + 1) * 65536

/-- A byte of the range lies in an operand row of a product under replay (R394). -/
def Core.kept (k : Core) (a n : Nat) : Bool :=
  k.engs.any fun e => e.2.kept.any fun r => r < a + n && a < r + 256

/-- The place of a request in the order of issue of its thread: a row of VHISTO has its instruction's. -/
def BankReq.order (r : BankReq) (q : Nat) : Nat := match r.op with | .histo v _ _ _ => v | _ => q

/-- An earlier operation of the thread on the bank is still to be performed (R91): a request, or a row that a VHISTO has not read. -/
def requestWaits (k : Core) (q : Nat) (r : BankReq) : Bool :=
  let here (b : Nat) : Bool := k.spanFirst b == k.spanFirst r.bank
  let o := r.order q
  r.remote.isNone &&
    ((k.reqs.any fun x => x.2.remote.isNone && x.2.thr == r.thr && !x.2.performed && here x.2.bank &&
        (decide (x.2.order x.1 < o) || (x.2.order x.1 == o && decide (x.1 < q)))) ||
      k.vecs.any fun x => x.2.code == .vhisto && x.2.thr == r.thr && decide (x.1 < o) && decide (x.2.step < x.2.ns) &&
        x.2.a.any fun m => here (bankOf m.base))

/-- The turn of an access in the order of issue of its thread has come (R91): one that has its place at a bank but not its turn keeps no other
from the bank. -/
def Core.inTurn (k : Core) (key : Nat) : Bool :=
  match SMap.find k.reqs key with
  | some r => !requestWaits k key r
  | none => true

/-! Poisoned words (R398). -/

def State.poisonOf (s : State) : Place → SMap Bool
  | .core c => (s.coreAt c).poison
  | .cluster k => (s.clusterAt k).poison

/-- A word of the range is poisoned. -/
def poisonedIn (m : SMap Bool) (a n : Nat) : Bool :=
  n != 0 && !m.isEmpty && (List.range ((a + n - 1) / 8 - a / 8 + 1)).any fun i => SMap.get false m (a / 8 + i)

/-- Words that are written whole are poisoned no longer (DESIGN CHOICE, log entry 58). -/
def healed (m : SMap Bool) (a n : Nat) : SMap Bool := m.filter fun e => !(decide (a ≤ 8 * e.1) && decide (8 * e.1 + 8 ≤ a + n))

def State.heal (s : State) (p : Place) (a n : Nat) : State :=
  if (s.poisonOf p).isEmpty then s
  else match p with
    | .core c => s.modCore c fun k => { k with poison := healed k.poison a n }
    | .cluster c => s.modCluster c fun k => { k with poison := healed k.poison a n }

/-! What a bank serves (R88, R111). -/

/-- The bank of an address in its store. -/
def bankIn (a : Nat) : Nat := if isShared a then sharedBankOf a else bankOf a

def State.accOf (s : State) : Place → List Acc
  | .core c => (s.coreAt c).acc
  | .cluster k => (s.clusterAt k).acc

def State.setAcc (s : State) (p : Place) (l : List Acc) : State :=
  match p with
  | .core c => s.modCore c fun k => { k with acc := l }
  | .cluster c => s.modCluster c fun k => { k with acc := l }

def State.servedOf (s : State) : Place → SMap Nat
  | .core c => (s.coreAt c).served
  | .cluster k => (s.clusterAt k).served

/-- The bank serves an access on this cycle. -/
def State.serve (s : State) (p : Place) (bank : Nat) : State :=
  match p with
  | .core c => s.modCore c fun k => { k with served := SMap.put k.served bank (s.now + 1) }
  | .cluster c => s.modCluster c fun k => { k with served := SMap.put k.served bank (s.now + 1) }

/-- A timed send is written into the bank on that cycle (R89, R110). -/
def sendAt (s : State) (p : Place) (bank cyc : Nat) : Bool :=
  s.sends.any fun e => e.2.lands == cyc && e.2.form != 2 && placeOf e.2.dst e.2.addr == p && bankIn e.2.addr == bank

/-- The bank has served an access on this cycle, or an access of the first group is placed on it (R88). -/
def bankTaken (s : State) (p : Place) (bank : Nat) : Bool :=
  SMap.get 0 (s.servedOf p) bank == s.now + 1 || (s.accOf p).any (fun x => x.first && x.bank == bank && x.arrive == s.now) ||
    sendAt s p bank s.now

/-- Of two accesses of the second group, `x` is served before `y`: first-come, ties by ascending requester number (R88); of one thread's a
scalar access before a row (R191). -/
def Acc.before (x y : Acc) : Bool :=
  decide (x.arrive < y.arrive) || (x.arrive == y.arrive &&
    (decide (x.who < y.who) || (x.who == y.who && (if x.scalar == y.scalar then decide (x.key < y.key) else x.scalar))))

/-- The bank grants an access of the second group: it is free, and none that waits goes before it. -/
def bankGrants (s : State) (p : Place) (x : Acc) : Bool :=
  let turn (y : Acc) : Bool := match p with | .core c => (s.coreAt c).inTurn y.key | .cluster _ => true
  !bankTaken s p x.bank &&
    !((s.accOf p).any fun y => !y.first && y.bank == x.bank && y.key != x.key && decide (y.arrive ≤ s.now) && y.before x && turn y)

/-- The access waits at its bank; one that waits already keeps its place, as long as it asks on every cycle. -/
def State.await (s : State) (p : Place) (x : Acc) : State :=
  let same (y : Acc) : Bool := y.key == x.key && y.bank == x.bank
  if (s.accOf p).any same then s.setAcc p ((s.accOf p).map fun y => if same y then { y with seen := s.now } else y)
  else s.setAcc p (s.accOf p ++ [{ x with seen := s.now }])

/-- The access is served, and waits no longer. -/
def State.granted (s : State) (p : Place) (x : Acc) : State :=
  (s.setAcc p ((s.accOf p).filter fun y => !(y.key == x.key && y.bank == x.bank))).serve p x.bank

/-- The access of operation `key` that waits at a bank, or one that reaches it now. -/
def State.accessOf (s : State) (c a who key : Nat) : Acc :=
  match (s.accOf (placeOf c a)).find? fun y => y.key == key && y.bank == bankIn a with
  | some y => y
  | none => { bank := bankIn a, arrive := s.now, who := who, core := c, addr := a, key := key }

/-- An access to the bank of local address `a` of core `c` by an event of this cycle: the state in which it has been served, or the one in
which it waits. -/
def State.ask (s : State) (c a who key : Nat) : State ⊕ State :=
  let p := placeOf c a
  let x := s.accessOf c a who key
  if bankGrants s p x then .inl (s.granted p x) else .inr (s.await p x)

/-! The local guard (R349, R174). -/

/-- Where a window that grants the rights and holds address `a` ends; 0 where it does not hold it. -/
def windowReach (g : Word) (a : Nat) (rd wr : Bool) : Nat :=
  let base := (g.extractLsb' 0 16).toNat
  let limit := (g.extractLsb' 16 16).toNat
  let ok := (!rd || g.getLsbD 32) && (!wr || g.getLsbD 33) && (g.getLsbD 32 || g.getLsbD 33)
  if ok && base ≤ limit && base * 256 ≤ a && a < (limit + 1) * 256 then (limit + 1) * 256 else 0

/-- The furthest that one window lets an access run from `a`. -/
def guardReach (ws : List Word) (a : Nat) (rd wr : Bool) : Nat := ws.foldl (fun r g => max r (windowReach g a rd wr)) 0

/-- The first byte of an access that R174 does not permit. -/
def Core.guardFail (k : Core) (a n : Nat) (rd wr : Bool) : Option Nat :=
  if n = 0 then none
  else
    let stop := if isLocal a then localEnd else if isShared a then sharedEnd else a
    let reach := min stop (guardReach k.guard a rd wr)
    if a + n ≤ reach then none else some (max a reach)

/-- The cause record of 0x0D4 (R428). -/
def guardRecord (fail : Nat) (rd wr : Bool) (n : Nat) : List Word :=
  [BitVec.ofNat 64 (fail % 2 ^ 24), (if rd && wr then 3 else if wr then 2 else 1), BitVec.ofNat 64 n]

/-! Injection (R402). -/

/-- The detector reports an error on this check, one of the part's own or one that INJ has armed it for; one report fewer is then due. The
mark is what an injected report adds to a cause record or to a notice's detail. -/
def State.takeInj (s : State) (c d : Nat) : Option (State × Nat) :=
  let k := s.coreAt c
  let n := SMap.get 0 k.inj d
  let r := SMap.get 0 k.real d
  if r != 0 then some (s.setCore c { k with real := SMap.set 0 k.real d (r - 1) }, 0)
  else if n != 0 then some (s.setCore c { k with inj := SMap.set 0 k.inj d (n - 1) }, 2 ^ 37)
  else none

/-- Bit 37 marks an injected report in a cause record and in a notice's detail (R402). -/
def injMark : Nat := 2 ^ 37

/-- The slabs of a core in gang order (R13, R16). -/
def gangSlabs (fe width : Nat) : List Nat :=
  let s := feStack fe
  let x := feX fe
  let y := feY fe
  if width = 1 then [fe]
  else if width = 2 then [fe, feKey s x (y + 1)]
  else [fe, feKey s (x + 1) y, feKey s x (y + 1), feKey s (x + 1) (y + 1)]

/-- The halves of a front end in gang order, west before east: slab × 2, plus 1 for an east half; none where no half is bound (R13 to
R16). -/
def State.halfSlots (s : State) (fe width : Nat) : List (Option Nat) :=
  if width = 1 then
    match SMap.find s.bindings fe with
    | some b => [b.west.map (· * 2), b.east.map (· * 2 + 1)]
    | none => [some (fe * 2), some (fe * 2 + 1)]
  else (gangSlabs fe width).flatMap fun x => [some (x * 2), some (x * 2 + 1)]

/-- The halves bound to a front end. -/
def State.halvesOf (s : State) (fe width : Nat) : List Nat := (s.halfSlots fe width).filterMap id

/-- The slab word of a half: 0 west, 1 east, 2 both (R282). -/
def slabWord (fe half : Nat) : Nat := feStack fe * 2048 + feY fe * 64 + feX fe * 4 + half

/-! Coordinates (R18, R428). -/

/-- STK, CLUS and CORE packed in ten bits. -/
def Core.coords (k : Core) : Nat := k.stk * 256 + k.clus * 16 + k.core

/-- The core that has these logical coordinates in a group, if there is one. -/
def State.memberAt (s : State) (g stk clus core : Nat) : Option Nat :=
  (s.groupAt g).members.find? fun c => (s.coreAt c).stk == stk && (s.coreAt c).clus == clus && (s.coreAt c).core == core

end Sys2Proof.Machine
end

