-- ==== Sys2Proof/Machine/Ops.lean ====
section
/-! DEFINITION. The operations that many meanings share: notices, the end of a group, taking an exception and returning
from one, and the issue of a word with every check that stands before its own effect. -/

namespace Sys2Proof.Machine

/-! Notices (R343 to R345). -/

/-- A notice (R343). -/
def noticeWord (code ctx grp detail : Nat) : Word :=
  BitVec.ofNat 64 ((code % 1024) * 2 ^ 54 + (ctx % 256) * 2 ^ 46 + (grp % 256) * 2 ^ 38 + detail % 2 ^ 38)

/-- A full privileged queue holds 1,024 notices (R332). -/
def privCapacity : Nat := 1024

/-- Post a notice; a full queue leaves it held at its source, in order (R345). -/
def State.post (s : State) (code ctx grp detail : Nat) : State :=
  let n := noticeWord code ctx grp detail
  let h := s.hub
  if h.heldNotices.isEmpty && h.privQ.length < privCapacity then { s with hub := { h with privQ := h.privQ ++ [n] } }
  else { s with hub := { h with heldNotices := h.heldNotices ++ [n], heldCount := h.heldCount + 1 } }

/-- Take the oldest notice; a held one is posted in the room (R345). -/
def State.takeNotice (s : State) : Option (Word × State) :=
  match s.hub.privQ with
  | [] => none
  | n :: rest =>
    match s.hub.heldNotices with
    | [] => some (n, { s with hub := { s.hub with privQ := rest } })
    | m :: held =>
      some (n, { s with hub := { s.hub with privQ := rest ++ [m], heldNotices := held, heldCount := s.hub.heldCount - 1 } })

/-! Groups and contexts as they end. -/

/-- Placed, Running, Changing map or Rolling back (R346). -/
def GState.runs : GState → Bool
  | .placed | .running | .changingMap | .rollingBack => true
  | _ => false

/-- A group whose barriers go on and whose sends land. -/
def GState.meets : GState → Bool
  | .running | .changingMap => true
  | _ => false

/-- States in which a group holds physical clusters (R310, R311). -/
def GState.holds : GState → Bool
  | .placed | .running | .changingMap | .rollingBack | .stopped => true
  | _ => false

/-- The groups of a context: their keys. -/
def State.groupsOf (s : State) (x : Nat) : List Nat := (s.groups.map (·.1)).filter fun g => g / 256 == x

/-- The state of a context is set, and its code is written into the context header (R346, R355). -/
def State.setCtxState (s : State) (x st : Nat) : State :=
  let c := s.contextAt x
  if c.st = st then s
  else { s.setContext x { c with st := st } with phys := memWrite s.phys (c.area + 4) [BitVec.ofNat 8 st] }

/-- The state of a context that its groups give it (R346): Free, Saved and Killed are entered by name. -/
def State.settleContext (s : State) (x : Nat) : State :=
  let c := s.contextAt x
  let gs := (s.groupsOf x).map s.groupAt
  if c.st = 0 || c.st = 5 then s
  else
    s.setCtxState x
      (if gs.any fun g => g.st.runs || (g.st == .stopped && g.resumeAt.isSome) then 2
       else if gs.any (·.st == .stopped) then 3
       else if c.st = 4 && gs.any (·.st == .saved) then 4
       else 1)

/-- The operations of a group: their numbers. -/
def State.opsOf (s : State) (g : Nat) : List Nat := (s.ops.filter fun e => e.2.grp == g && e.2.st == .running).map (·.1)

/-- An event of an operation. -/
def eventOp : Instr → Option Nat
  | .remoteRequestReceive o _ | .staleReissue o _ | .memoryCoreRequest o | .pageWalk o _ | .copyPush o _
  | .homePerform o _ | .wsigSignal o | .engineOperationComplete o | .mcmdArrival o | .amsgArrival o => some o
  | .mcmdStart _ o => some o
  | _ => none

/-- An event of a core's own. -/
def eventCore : Instr → Option Nat
  | .resultLanding (.core c _) => some c
  | .counterproofCommit (.core c) _ => some c
  | .counterproofMismatch c _ _ _ | .vectorRowStep c _ | .engineStart c _ | .productLanding c _ | .checksumVerdict c _
  | .productReplay c _ | .personalityOperation c _ | .bankChangePerform c _ | .bankChangeEnd c _ | .trapContextStart c
  | .helperGrant c | .routineDispatch c | .budgetRefill c | .depositArrival c _ _ | .burinTrigger c _
  | .mergeDecision c => some c
  | _ => none

/-- An event of a group's own. -/
def eventGroup : Instr → Option Nat
  | .exchangePacketLand g _ _ | .barrierRelease g _ | .proofReady g | .mapChangeBegin g | .mapCopyComplete g
  | .coupledStop g _ | .coupledRerelease g _ | .stopAtCycle g | .rollback g | .rollbackRelease g | .placement g
  | .kernelCheck g | .startBroadcast g | .groupRetire g => some g
  | _ => none

/-- What stays in a front end when the state of its core is discarded: what belongs to the front end itself. -/
def Core.cleared (k : Core) : Core := { inj := k.inj, rot := k.rot, tvec := k.tvec }

/-- A cluster's interface drops what it holds for these members. -/
def Cluster.drop (k : Cluster) (members : List Nat) : Cluster :=
  { k with heldDeps := k.heldDeps.filter (fun h => !members.contains h.1), acc := k.acc.filter fun x => !members.contains x.core }

/-- What a group leaves when it ends: its members' state, held writes, undo log, suspended copies and held requests go, and its
clusters fall free (R310, R361). What waits to be joined with it ends. -/
def State.endGroup (s : State) (g : Nat) (st : GState) : State :=
  let gr := s.groupAt g
  let ops := s.opsOf g
  let s := gr.members.foldl (fun s c => if (s.coreAt c).grp == some g then s.modCore c Core.cleared else s) s
  let s := { s with ops := s.ops.filter fun e => e.2.grp != g }
  let s := { s with sends := s.sends.filter fun e => e.2.grp != g }
  let s := { s with reqThreads := s.reqThreads.filter fun e => !ops.contains e.2.op }
  let s := { s with clusters := mapVals (fun k => k.drop (if gr.st.holds then gr.members else [])) s.clusters }
  let s := s.cancel fun e =>
    ((eventOp e).any fun o => ops.contains o) || ((eventCore e).any fun c => gr.st.holds && gr.members.contains c) || eventGroup e == some g
  let s := s.setGroup g { gr with st := st, heldPlace := false, hold := [], granules := [], proof := none, taking := [], deferred := [], members := [], map := [],
                                  saved := [], savedShared := [], domains := [], moves := [], snaps := [], rolls := [], preempts := [],
                                  coupled := [] }
  let s := (gr.snaps ++ gr.rolls ++ gr.preempts).foldl (fun s o => s.at s.now prioNet (.engineOperationComplete o)) s
  (s.settleContext gr.ctx).at s.now prioNet .heldPlacementRetry

/-- A group is killed (R361). -/
def State.killGroup (s : State) (g : Nat) : State := s.endGroup g .killed

/-! What a proof keeps (R328 to R330). -/

/-- Every held write of a group is performed toward every agent (R329). -/
def State.commitHold (s : State) (g : Nat) : State :=
  let h := (s.groupAt g).hold
  let s := { s with phys := h.foldl (fun (m : Memory) (w : HoldWrite) => memSet m w.pa w.byte) s.phys }
  let s := { s with granules := (s.groupAt g).granules.foldl (fun (m : SMap Bool) (x : Nat × Bool) => SMap.put m x.1 true) s.granules,
                    poison := s.poison.filter fun e => !h.any fun w => w.pa / 8 == e.1 }
  s.modGroup g fun gr => { gr with hold := [], granules := [] }

/-- An early commit discards the proof and is counted (R330). -/
def State.earlyCommit (s : State) (g : Nat) : State :=
  let s := s.commitHold g
  let gr := s.groupAt g
  let s := s.setGroup g { gr with proof := none }
  let s := gr.members.foldl (fun s c => (s.modCore c fun k => { k with logged := [] }).modCluster (clusterOf c) fun k => { k with logged := [] }) s
  { s with hub := { s.hub with ecom := s.hub.ecom + 1 } }

/-- The entries of a row log of `bytes` bytes: each holds a row's old contents (R328; log entry 7). -/
def logEntries (bytes : Nat) : Nat := bytes / (256 + Config.logTag)

/-- Rows that are written for the first time since the proof of group `g` are logged, and a full log commits the proof early (R328, R330). -/
def State.logRows (s : State) (p : Place) (g : Nat) (rows : List Nat) : State :=
  if (s.groupAt g).proof.isNone then s
  else
    let add (l : List Nat) : List Nat := l ++ rows.eraseDups.filter fun r => !l.contains r
    match p with
    | .core c =>
      let s := s.modCore c fun k => { k with logged := add k.logged }
      if logEntries (488 * 1024) < (s.coreAt c).logged.length then s.earlyCommit g else s
    | .cluster k =>
      let s := s.modCluster k fun v => { v with logged := add v.logged }
      if logEntries (2 * 2 ^ 20) < (s.clusterAt k).logged.length then s.earlyCommit g else s

/-- The rows that a range of bytes touches, by number. -/
def rowSpan (a n : Nat) : List Nat := (List.range ((a + n + 255) / 256 - a / 256)).map (a / 256 + ·)

/-- Write committed bytes at once. -/
def State.poke (s : State) (c a : Nat) (bs : List Byte) : State :=
  let p := placeOf c a
  ((s.setMem p (memWrite (s.memOf p) a bs)).heal p a bs.length).logRows p (s.groupOfCore c) (rowSpan a bs.length)

/-- The rows in which two memories differ. -/
def memDiff (m m' : Memory) : List Nat :=
  ((m'.filter fun e => memByte m e.1 != e.2) ++ m.filter fun e => memByte m' e.1 == unwritten).map (·.1 / 256)

/-- What a bank operation has changed in local memory is logged (R328). -/
def State.logChanges (s : State) (c : Nat) (before : Memory) : State :=
  let g := s.groupOfCore c
  if (s.groupAt g).proof.isNone then s else s.logRows (.core c) g (memDiff before (s.coreAt c).mem)

/-! Traps. -/

/-- What a precise or timing trap reports (R348, R350, R428). -/
structure TrapInfo where
  cause : Nat := 0
  /-- taken as a timing trap, whatever its cause -/
  timed : Bool := false
  /-- n2 to n7; words not given are zero -/
  record : List Word := []
  op : Option Nat := none
  /-- EPCW is the next word (R279) -/
  after : Bool := false
  /-- the shared-bank access that met a conflict: cluster and claim (R110) -/
  claim : Option (Nat × Claim) := none
  /-- the mark of an injected report, for the notice of a double trap (R402) -/
  mark : Nat := 0
  deriving DecidableEq, Repr

/-- The timing-class causes that end in a restart (R307). -/
def timingCause (cause : Nat) : Bool := [0x043, 0x046, 0x049, 0x04B, 0x04C, 0x04E, 0x04F].contains cause

/-- A segment of the kernel's plate holds a word (R303). -/
def segAt (k : Kernel) (pc : Nat) : Option Seg := k.segs.find? fun g => g.first ≤ pc && pc < g.first + g.nw

def State.kernelAt (s : State) (c : Nat) : Kernel := (s.groupAt (s.groupOfCore c)).kernel

/-- The timed segment that a thread's word lies in: only a control context has timed code (R67). -/
def State.segOf (s : State) (ag : Agent) (pc : Nat) : Option Seg :=
  match ag with
  | .core c 0 => segAt (s.kernelAt c) pc
  | _ => none

/-- The control context of a core is in a timed segment, whether it runs or stands still (R82, R137). -/
def State.controlInTimed (s : State) (c : Nat) : Bool :=
  let th := (s.coreAt c).thread 0
  (th.stat == .run || th.stat == .trapped || th.stat == .stopped) && (s.segOf (.core c 0) th.pc).isSome

/-- The control context of a core goes on in a timed segment: the cycles that no word of its opens are closed (R78). -/
def State.controlTimed (s : State) (c : Nat) : Bool :=
  ((s.coreAt c).thread 0).stat == .run && s.controlInTimed c

/-- CAUSE as R348 lays it out. -/
def causeWord (timed : Bool) (thr cause : Nat) : Word :=
  BitVec.ofNat 64 ((if timed then 2 ^ 14 else 0) + (thr % 16) * 1024 + cause % 1024)

/-- The trap of thread `t` is the one being handled: CAUSE and EPCW are set, and the trap context starts on the second
cycle (R350). -/
def State.startTrap (s : State) (c t : Nat) : State :=
  let k := s.coreAt c
  let tr := (k.thread t).trap.getD {}
  (s.setCore c { k with inTrap := some t, cause := causeWord tr.timed t tr.cause, epcw := BitVec.ofNat 13 tr.epcw }).at
    (s.now + 2) prioEngine (.trapContextStart c)

/-- A timing-class or precise trap in a coupled segment stops its domain 64 cycles on (R308, R354); a later one of the same domain adds its
core to the cores that must return (R408). -/
def State.coupledReport (s : State) (c : Nat) (energy : Bool) : State :=
  let g := s.groupOfCore c
  let dom := ((s.coreAt c).thread 0).anchorDom
  let put (q : Coupled) : State := s.modGroup g fun gr => { gr with coupled := SMap.put gr.coupled dom q }
  match SMap.find (s.groupAt g).coupled dom with
  | some q => put { q with traps := q.traps ++ [c], energy := if energy then some s.now else q.energy }
  | none =>
    (put { dom := dom, trapC := s.now, stopC := s.now + 64, traps := [c], energy := if energy then some s.now else none }).at
      (s.now + 64) prioEngine (.coupledStop g dom)

/-- A burin fault stops the unit; its pending triggers are kept (R246). -/
def Core.burinFault (k : Core) (cause word : Nat) : Core :=
  { k.modThread 12 (fun th => { th with stat := .free, waiting := false }) with
    burin := { k.burin with fault := some cause, last := cause, faultWord := word, untaken := true, running := false } }

/-- The thread's restart image at its next word, which lies in segment `g` (R74). Restarts to one word in a row are counted on
(R309). -/
def Thread.takePoint (th : Thread) (g : Seg) (now : Nat) : Thread :=
  { th with
    restart := some { word := th.pc, cyc := now, seg := g.first, first := th.seg != some g.first, fresh := th.fresh,
                      q := th.q, a := th.a, p := th.p, fflg := th.fflg },
    restarts := if th.restart.any fun r => r.word == th.pc then th.restarts else 0 }

/-- Take a precise or timing trap (R73, R350, R351). The thread issues nothing further, its results in flight stay on
its flight list, and the trap context starts on the second cycle, unless it is handling another trap. A control context that
traps at a segment's first word has that word as its restart point (R74), and its trap is one of the segment it lies in (R308, R354). The
burin unit stops with a burin fault (R246), a request thread ends its request (R129), and a trap of the trap context is a double trap
(R351). -/
def State.takeTrap (s : State) (ag : Agent) (pc : Nat) (i : TrapInfo) : State :=
  let epcw := if i.after then pc + 1 else pc
  match ag with
  | .req id =>
    let r := s.reqAt id
    (s.setReq id { r with thread := { r.thread with stat := .trapped, waiting := false,
                                                    trap := some { cause := i.cause, epcw := epcw, cyc := s.now } } }).at
      s.now prioNet (.engineOperationComplete r.op)
  | .core c 12 =>
    s.modCore c fun k => k.burinFault i.cause pc
  | .core c 11 =>
    let g := s.groupOfCore c
    (s.killGroup g).post 0x021 (g / 256) (g % 256) (i.cause % 1024 + (pc % 8192) * 1024 + i.mark)
  | .core c t =>
    let k := s.coreAt c
    let th := k.thread t
    let timed := i.timed || timingCause i.cause
    let at_ := s.segOf ag pc
    let th := match at_ with | some g => if th.seg = some g.first then th else th.takePoint g s.now | none => th
    let third := timed && t == 0 && decide (2 ≤ th.restarts)
    let coup := t == 0 && (at_.any (·.coup) || (match th.seg with | some f => (s.kernelAt c).segs.any (fun g => g.first == f && g.coup) | none => false))
    let tr : TrapRec := { cause := if third then 0x04D else i.cause, timed := timed, epcw := epcw,
                          record := i.record, op := i.op, cyc := s.now, coupled := coup }
    let s := s.setCore c (k.setThread t { th with stat := .trapped, waiting := false, trap := some tr })
    let s := if k.inTrap.isNone then s.startTrap c t else s
    if coup then s.coupledReport c (i.cause == 0x043) else s

/-- The control context owes a trap: of the causes of one cycle only the first is taken (R264, R353). -/
def State.owe (s : State) (c : Nat) (o : Owed) : State :=
  s.modCore c fun k => if k.owed.any (fun x => x.cyc == o.cyc) then k else { k with owed := k.owed ++ [o] }

/-- A timing trap that an earlier word or an engine raises on the control context (R353, order 2): it is taken before the
context's next word; a context that a stop cycle has stopped takes it on resumption. A thread that no longer runs takes none. -/
def State.timingTrap (s : State) (c : Nat) (cause : Nat) (record : List Word) : State :=
  let th := (s.coreAt c).thread 0
  if th.stat == .run then s.takeTrap (.core c 0) th.pc { cause := cause, timed := true, record := record }
  else if th.stat == .stopped then s.owe c { cyc := s.now, cause := cause, timed := true, record := record }
  else s

/-- An uncorrectable error is consumed (R379, R400). -/
def State.consume (s : State) (g code detail : Nat) : State := s.at s.now prioNet (.ueConsumed g code detail)

/-- The bin that a half is in or will be in once its due move has taken effect (R396). -/
def State.binSoon (s : State) (h : Nat) : Nat :=
  match s.binDue.find? fun x => x.1 == h with
  | some x => x.2
  | none => SMap.get 0 s.bins h

/-- A half's move to a bin is due. -/
def State.dueBin (s : State) (h bin : Nat) : State := { s with binDue := s.binDue.filter (fun x => x.1 != h) ++ [(h, bin)] }

/-- A half is marginal: it is to move one bin up (R395). An injected report moves none (R402). -/
def State.marginal (s : State) (h mark : Nat) : State := if mark != 0 then s else s.dueBin h (min 3 (s.binSoon h + 1))

/-- Bytes of local or shared memory are read by core `c` (R398 to R400): a poisoned word, or a detector that reports an uncorrectable error, is
consumed; a correctable error delays the read by a cycle. The second answer says that the read is delayed, with the mark of its report. -/
def State.detectRead (s : State) (c a n : Nat) : State × Option Nat :=
  let (ue, ce) := if isShared a then (8, 7) else (6, 5)
  if poisonedIn (s.poisonOf (placeOf c a)) a n then (s.consume (s.groupOfCore c) 0x281 (slabWord c 2), none)
  else
    match s.takeInj c ue with
    | some (s, mark) => (s.consume (s.groupOfCore c) 0x281 (slabWord c 2 + mark), none)
    | none =>
      match s.takeInj c ce with
      | some (s, mark) => (s, some mark)
      | none => (s, none)

/-- A row that is read: a timed read that is delayed past its published cycle ends in a timing trap, and another one absorbs the delay (R399).
The second answer says that it is to be absorbed. -/
def State.detectRow (s : State) (c a : Nat) (timed : Bool) : State × Bool :=
  match s.detectRead c a 256 with
  | (s, some mark) => if timed then (s.timingTrap c 0x04E [BitVec.ofNat 64 mark], false) else (s, true)
  | (s, none) => (s, false)

/-- Bytes that an engine, a bank or the network takes as a source are read (R400); a correction delays no published cycle. -/
def State.useBytes (s : State) (c a n : Nat) : State := if n = 0 then s else (s.detectRead c a n).1

/-- The thread's results land at the same cycles relative to now as they had relative to cycle `since`, also those whose landing is
not known yet (R73). -/
def State.resumeFlights (s : State) (ag : Agent) (since : Nat) : State :=
  let th := s.threadOf ag
  let shift := s.now + 1 - since
  let fl := th.flight.map fun f =>
    if f.known && f.sample.isNone then { f with land := f.land + shift }
    else if f.known then { f with land := f.land + shift, shift := f.shift + shift } else { f with shift := f.shift + shift }
  let s := s.setThread ag { th with flight := fl }
  fl.foldl (fun s f => if f.known then s.at f.land prioLanding (.resultLanding ag) else s) s

/-- The restart image of a thread goes back, and its flight list is emptied (R74). A segment's first word begins it again. -/
def Thread.restore (th : Thread) : Thread :=
  match th.restart with
  | some r => { th with
      q := r.q, a := r.a, p := r.p, fflg := r.fflg, flight := [], pc := r.word, restarts := th.restarts + 1,
      seg := if r.first then none else some r.seg, fresh := r.fresh }
  | none => { th with flight := [] }

/-- The issuing agent, the word's address and the kind of segment. -/
structure Cx where
  ag : Agent
  c : Nat
  t : Nat
  pc : Nat
  timed : Bool
  /-- the word has issued on an earlier cycle, and its wait goes on -/
  again : Bool
  /-- the thread before the word, and the first number that the word may take -/
  before : Thread := {}
  mark : Nat := 0
  /-- units that the thread has debited since the last refill -/
  spent : Nat := 0
  deriving DecidableEq, Repr

/-- What a meaning answers for an issued word. -/
inductive Verdict where
  | done (s : State)
  /-- the word has issued and waits; it is executed again on the next cycle -/
  | wait (s : State)
  /-- the word does not issue on this cycle -/
  | hold
  | trap (i : TrapInfo)

/-- A trap with a cause alone. -/
def Verdict.cause (n : Nat) : Verdict := .trap { cause := n }
/-- A trap with a cause and a record. -/
def Verdict.report (n : Nat) (r : List Word) : Verdict := .trap { cause := n, record := r }
/-- What a full resource does: an untimed word holds, a timed one takes the timing trap (R124, R267, R357). -/
def Verdict.full (cx : Cx) (n : Nat) : Verdict := if cx.timed then .cause n else .hold

/-- What the checks before a word's own effect decide. -/
inductive Gate where
  | go | skip | hold
  | trap (i : TrapInfo)
  deriving DecidableEq, Repr

def agentCore (s : State) (ag : Agent) : Nat := s.coreOf ag
def agentThread : Agent → Nat
  | .core _ t => t
  | .req _ => 15

/-- Which profile an agent's engine admits (R155). -/
def agentProfile : Agent → Profile
  | .req _ => .memCore
  | .core _ 12 => .burin
  | .core _ _ => .front

/-- Words are debited in threads of a core, not in a request thread (R128, R136). -/
def budgeted : Agent → Bool
  | .req _ => false
  | _ => true

/-- The core's check mode (R69). -/
def State.wchk (s : State) (c : Nat) : Bool := (s.coreAt c).wchk

/-- The cycle on which a thread's next word is due. -/
def Thread.due (th : Thread) (seg : Option Seg) (h : Hint) : Nat :=
  match th.dueAt, seg with
  | some d, _ => d
  | none, none => th.notBefore
  | none, some g => if th.seg = some g.first then th.prev + max 1 h.delta else th.anchor + h.delta

/-- The bits of a word (R138); its own encoding is what a cause record holds (R157). -/
def wordBits (x : WordOf) : Nat :=
  let kb : OpKind → Nat := fun
    | .nreg => 0 | .qage => 1 | .ptr => 2 | .imm => 3 | .direct => 4 | .pred => 5 | .tile => 6 | .special => 7
  let o (p : Operand) : Nat := kb p.kind * 2 ^ 17 + p.payload.toNat
  x.w.m.toNat + 4 * (o x.w.c + 2 ^ 20 * (o x.w.b + 2 ^ 20 * (o x.w.a + 2 ^ 20 * (x.w.h.toNat + 2 ^ 18 * (x.w.g.toNat + 16 * (x.op + 1024 * x.w.v.toNat))))))

/-- The record of an illegal-instruction trap (R350). -/
def wordRecord (bits : Nat) : List Word := [BitVec.ofNat 64 bits, BitVec.ofNat 64 (bits / 2 ^ 64)]

/-- The units that a word debits: an LDL or STL that turns out to be a personality operation counts as class 4 at
least (R146); a word whose guard reads false debits the class that it declares (R66). -/
def wordUnits (s : State) (cx : Cx) (x : WordOf) : Nat :=
  let u := classUnits x.w.hint.ec
  if !(s.threadOf cx.ag).guardTrue x.w then u
  else if 0xC0 ≤ x.op ∧ x.op ≤ 0xC7 then
    let o := if x.op < 0xC4 then x.w.b else x.w.a
    if (s.coreAt cx.c).persAt ((s.threadOf cx.ag).base o false) != 0 then max u 8 else u
  else u

/-- The target of SEND's A value, packed as in a send-slot entry (R306, R250). -/
def sendTarget (s : State) (cx : Cx) (a : Word) : Nat :=
  let k := s.coreAt cx.c
  let scope := (a.extractLsb' 34 2).toNat
  let tstk := if scope = 2 then (a.extractLsb' 32 2).toNat else k.stk
  let tcl := if scope = 0 then k.clus else (a.extractLsb' 28 4).toNat
  tstk * 256 + tcl * 16 + (a.extractLsb' 24 4).toNat

/-- The send slots of the core's current state for this target under the thread's anchor number (R306). -/
def sendSlots (s : State) (cx : Cx) (a : Word) : List Slot :=
  let k := s.coreAt cx.c
  ((s.kernelAt cx.c).states.getD k.state {}).slots.filter fun e =>
    e.k == (s.threadOf cx.ag).anchorK && e.snd == k.coords && e.tgt == sendTarget s cx a

/-- The word of SEND issues in its slot (R108, R306). -/
def sendSlot (s : State) (cx : Cx) (a : Word) : Bool :=
  cx.timed && (sendSlots s cx a).any fun e => e.cyc == s.now - (s.threadOf cx.ag).anchor

/-- The cause record of a SEND outside its slot, or untimed: the A value, the cycle and the number of the anchor, and the cycle
of the first slot that matches otherwise (R407). -/
def slotRecord (s : State) (cx : Cx) (a : Word) : List Word :=
  let th := s.threadOf cx.ag
  [a, BitVec.ofNat 64 (s.now - th.anchor), BitVec.ofNat 64 th.anchorK,
   if cx.timed then BitVec.ofNat 64 (((sendSlots s cx a).head?.map (·.cyc)).getD 0xFFFF) else 0xFFFFFFFF]

/-- A register's write outstanding inside its window (R69): the cause record of 0x040. The landing of a result that is not known yet is a free
value (log entry 1). -/
def windowRecord (th : Thread) (now : Nat) (reg : Nat) : Option (List Word) :=
  (th.outstanding reg).map fun f =>
    [BitVec.ofNat 64 reg, BitVec.ofNat 64 f.word, if f.known || f.land != 0 then BitVec.ofNat 64 (f.land - th.anchor) else Config.freeWord f.seq,
     BitVec.ofNat 64 (now - th.anchor)]

/-- An earlier write to the register that lands on the same cycle (R70): the cause record of 0x041. -/
def collideRecord (th : Thread) (reg land : Nat) : Option (List Word) :=
  (th.flight.find? fun f => f.dest.packed == some reg && f.land == land).map fun f =>
    [BitVec.ofNat 64 reg, BitVec.ofNat 64 f.word, BitVec.ofNat 64 (land - th.anchor)]

/-- The scoreboard of an untimed segment holds the word (R67). -/
def scoreboard (th : Thread) (x : WordOf) : Bool :=
  let reads := x.w.guardReg ++ x.form.reads x.w
  let writes := x.form.writes x.w
  reads.any (fun r => if 0x400 ≤ r then th.flight.any (·.push) else (th.outstanding r).isSome) ||
    writes.any (fun r => (th.outstanding r).isSome)

/-- A word that a thread may not issue (R81, R273, R350): cause 0x047. -/
def forbidden (t : Nat) (x : WordOf) : Bool :=
  if 1 ≤ t ∧ t ≤ 10 then
    !x.form.helper || (x.op == 0x302 && !([0x000, 0x009, 0x00A].contains x.w.a.num))
  else if t = 0 then x.op == 0x2C1
  else if t = 11 then [0x86, 0x2C0, 0x2C1, 0x2C2].contains x.op
  else false

/-- Where the word stands: agent, address and segment. -/
def State.cx (s : State) : Cx :=
  let ag := s.cur
  let th := s.threadOf ag
  { ag := ag, c := s.coreOf ag, t := agentThread ag, pc := th.pc, timed := (s.segOf ag th.pc).isSome, again := th.waiting, before := th,
    mark := s.fresh, spent := SMap.get 0 (s.coreAt (s.coreOf ag)).spent (agentThread ag) }

/-- The checks before a word's own effect, in the order of R353: the encoding checks, the guard, the windows or the
scoreboard, the issue rules. -/
def gate (x : WordOf) (s : State) : Gate :=
  let cx := s.cx
  let th := s.threadOf cx.ag
  let k := s.coreAt cx.c
  let seg := s.segOf cx.ag cx.pc
  let h := x.w.hint
  let unanchored := seg.any fun g => th.seg != some g.first && !th.fresh
  /- a helper beside timed code leaves the state's reserve (R137) -/
  let beside := decide (1 ≤ cx.t) && decide (cx.t ≤ 10) && s.controlInTimed cx.c
  let reserve := if beside then ((s.kernelAt cx.c).states.getD k.state {}).resv else 0
  let u := if budgeted cx.ag then wordUnits s cx x else 0
  if th.stat != .run then .hold
  else if !unanchored && decide (s.now < th.due seg h) then .hold
  else
    match x.form.cause x.w (s.privileged cx.ag) (agentProfile cx.ag) cx.timed with
    | some n => .trap { cause := n, record := wordRecord (wordBits x) }
    | none =>
      let window := cx.timed && k.wchk && !h.cx
      match (if window then x.w.guardReg.findSome? (windowRecord th s.now) else none) with
      | some r => .trap { cause := 0x040, record := r }
      | none =>
        if !cx.timed && x.w.guardReg.any (fun r => (th.outstanding r).isSome) then .hold
        else if !th.guardTrue x.w then
          if k.budg < u then (if cx.timed then .trap { cause := 0x043 } else .hold)
          else if k.budg < u + reserve then .hold
          else .skip
        else
          match (if window then (x.form.reads x.w).findSome? (windowRecord th s.now) else none) with
          | some r => .trap { cause := 0x040, record := r }
          | none =>
            match (if cx.timed && k.wchk && x.form.lat != 0 then
                     (x.form.writes x.w).findSome? (fun r => collideRecord th r (s.now + x.form.lat)) else none) with
            | some r => .trap { cause := 0x041, record := r }
            | none =>
              if !cx.timed && scoreboard th x then .hold
              else if k.budg < u then (if cx.timed then .trap { cause := 0x043 } else .hold)
              else if k.budg < u + reserve then .hold
              else if beside && (x.op / 64 == 4 || x.op / 64 == 5) then .hold
              else if x.op == 0x248 && !forbidden cx.t x && !sendSlot s cx (th.src x.w.a) then
                .trap { cause := 0x044, record := slotRecord s cx (th.src x.w.a) }
              else if unanchored || (cx.timed && x.form.untimed) then .trap { cause := 0x045 }
              else if forbidden cx.t x then .trap { cause := 0x047 }
              else if seg.any (fun g => th.seg == some g.first) && h.delta == 0 then .trap { cause := 0x048 }
              else .go

/-- The thread after its word has issued: the pc has moved on, the hint's open slots are granted, and a restart point has
taken its image (R74, R78). The image is taken as the word issues, also of one whose guard reads false (DESIGN CHOICE, log entry 43). -/
def Thread.issued (th : Thread) (seg : Option Seg) (h : Hint) (now : Nat) : Thread :=
  match seg with
  | none => { th with pc := th.pc + 1, prev := now, seg := none, fresh := false, dueAt := none, restarts := 0 }
  | some g =>
    let th := if th.seg != some g.first || h.rst then th.takePoint g now else th
    { th with pc := th.pc + 1, prev := now, seg := some g.first, fresh := false, dueAt := none, openTo := now + h.osc }

/-- A word issues: its class is debited, its front end has issued on this cycle, and a helper's issue moves the grant
pointer (R76, R79, R136). -/
def State.issued (s : State) (x : WordOf) : State :=
  let cx := s.cx
  let th := s.threadOf cx.ag
  let seg := s.segOf cx.ag cx.pc
  let u := if budgeted cx.ag then wordUnits s cx x else 0
  let s := s.setThread cx.ag (th.issued seg x.w.hint s.now)
  match cx.ag with
  | .req _ => s
  | .core c t =>
    s.modCore c fun k =>
      { k with
               budg := k.budg - u, spent := SMap.set 0 k.spent t (SMap.get 0 k.spent t + u), issuedAt := if t ≤ 11 then s.now + 1 else k.issuedAt,
               lend := if t = 0 && k.lend.any (fun l => l.seg != seg.map (·.first)) then none else k.lend,
               grant := if 1 ≤ t ∧ t ≤ 10 then t else k.grant }

/-- A word that fails the encoding checks debits its energy class and does nothing else (R156); a word with V = 3 has no
class to debit. -/
def State.debitOnly (s : State) (ag : Agent) (u : Nat) : State :=
  match ag with
  | .core c _ => s.modCore c fun k => { k with budg := k.budg - u }
  | .req _ => s

/-- The word goes on waiting: it has issued, and its address is the thread's again. -/
def State.markWaiting (s : State) (cx : Cx) : State :=
  s.modThread cx.ag fun th => { th with waiting := true, pc := cx.pc }

/-- A waiting word is executed again: as it stood after its issue. A cycle on which an untimed word waits, the last one too, is an open slot
(R28). -/
def State.again (s : State) (cx : Cx) : State :=
  s.modThread cx.ag fun th => { th with waiting := false, pc := cx.pc + 1, openTo := if cx.timed then th.openTo else s.now }

/-! Tiles and engine operations that end early. -/

def Core.tile (k : Core) (t : Nat) : Tile := SMap.get {} k.tiles t
def Core.setTile (k : Core) (t : Nat) (v : Tile) : Core := { k with tiles := SMap.put k.tiles t v }
def Core.modTile (k : Core) (t : Nat) (f : Tile → Tile) : Core := k.setTile t (f (k.tile t))
def Core.eng (k : Core) (q : Nat) : Eng := SMap.get {} k.engs q
def Core.setEng (k : Core) (q : Nat) (e : Eng) : Core := { k with engs := SMap.put k.engs q e }

/-- An engine operation of the core's own that writes a tile. -/
def Eng.writesTile (e : Eng) : Bool := e.lent.isNone && (e.kind == .product || e.kind == .held)

/-- The flight-list entries of the core's own tile writes (R235). -/
def Core.tileEntries (k : Core) : Nat := k.engs.countP (·.2.writesTile) + k.vecs.countP (·.2.code == .tload)

/-- The flight-list entries of a thread: its results in flight, with those of tiles in the control context's list (R357). -/
def State.tilesInFlight (s : State) : Agent → Nat
  | .core c 0 => (s.coreAt c).tileEntries
  | _ => 0
def State.inFlight (s : State) (ag : Agent) : Nat := (s.threadOf ag).flight.length + s.tilesInFlight ag

/-- A thread may have at most 32 of them (R357). -/
def overfull (s : State) (ag : Agent) : Bool := decide (32 < s.inFlight ag)

/-- A tile loses the marks that an operation has set on it. -/
def Tile.without (v : Tile) (q : Nat) : Tile := { v with busy := v.busy.filter (· != q), verdicts := v.verdicts.filter (· != q) }

/-- The engine operation is dropped: its tile is as it stood (R232, R235). -/
def State.dropEng (s : State) (c q : Nat) : State :=
  let e := (s.coreAt c).eng q
  let mine := e.incs.map (·.1)
  let s := s.modThread (.core c 0) fun th => { th with flight := th.flight.filter fun f => !mine.contains f.seq }
  s.modCore c fun k => { k.modTile e.tile (·.without q) with engs := SMap.erase k.engs q }

/-- A remote operation's reply: its status, or an error status (R266, R274). -/
def State.replyOp (s : State) (o : Nat) (status : Nat) (fail : Option Nat) : State :=
  (s.modOp o fun e => { e with stat := status, cause := fail, performed := true, part := { e.part with num := none } }).at
    (s.now + 2) prioNet (.engineOperationComplete o)

/-- The cycle from which on the control context stands still in a trap, or because its group has stopped. -/
def State.standsSince (s : State) (c : Nat) : Option Nat :=
  let th := (s.coreAt c).thread 0
  match th.stat with
  | .trapped => some ((th.trap.getD {}).cyc)
  | _ => (s.groupAt (s.groupOfCore c)).stopC

/-- An entry for a tile comes into the flight list, or the cycles that it holds are given. -/
def Core.holdTile (k : Core) (q tile busy verdict : Nat) : Core :=
  { k with held :=
      if k.held.any (·.op == q) then
        k.held.map fun h => if h.op = q then { h with busy := max h.busy busy, verdict := max h.verdict verdict } else h
      else k.held ++ [{ op := q, tile := tile, busy := busy, verdict := verdict }] }

/-- A write of a tile has landed: the tile is busy no longer, but while the control context stands still the flight list keeps the cycles
that remained to the landing (R235). -/
def State.tileLands (s : State) (c q tile : Nat) : State :=
  let s := s.modCore c fun k => k.modTile tile fun v => { v with busy := v.busy.filter (· != q) }
  match s.standsSince c with
  | some t => s.modCore c fun k => k.holdTile q tile (s.now - t) 0
  | none => s

/-- A verdict is no longer pending, but while the control context stands still the flight list keeps the cycles that remained to it (R235). -/
def State.verdictComes (s : State) (c q tile : Nat) : State :=
  let s := s.modCore c fun k => k.modTile tile fun v => { v with verdicts := v.verdicts.filter (· != q) }
  match s.standsSince c with
  | some t => s.modCore c fun k => k.holdTile q tile 0 (s.now - t)
  | none => s

/-- The tiles of the flight list are busy, and their verdicts pending, for the cycles that were left from cycle `since` on, counted from `at_`;
what is still in flight lands as much later (R235). -/
def State.resumeTiles (s : State) (c since at_ : Nat) : State :=
  let by_ := at_ - since
  let k := s.coreAt c
  let eng (e : Eng) : Eng :=
    match e.kind with
    | .product => if e.lent.isNone && e.started then { e with shift := e.shift + by_ } else e
    | .held => { e with start := e.start + by_, until_ := e.until_ + by_ }
    | _ => e
  let vec (v : VecOp) : VecOp :=
    if v.code == .tload then { v with shift := v.shift + by_, out := v.out.map fun x => (x.1 + by_, x.2) } else v
  let s := s.modCore c fun k =>
    { k with engs := mapVals eng k.engs, vecs := mapVals vec k.vecs, held := [] }
  let s := k.held.foldl (fun s h =>
    s.modCore c fun k =>
      (k.modTile h.tile fun v => { v with busy := if h.busy = 0 then v.busy else v.busy ++ [h.op],
                                          verdicts := if h.verdict = 0 then v.verdicts else v.verdicts ++ [h.op] }).setEng h.op
        { kind := .held, tile := h.tile, start := at_ + h.busy, until_ := at_ + h.verdict, started := true }) s
  let s := (s.coreAt c).engs.foldl (fun s x =>
    match x.2.kind with
    | .held => (s.at (max x.2.start s.now) prioTile (.productLanding c x.1)).at (max x.2.until_ s.now) prioVerdict (.checksumVerdict c x.1)
    | .product =>
      let land := x.2.until_ + 12 + x.2.shift
      if x.2.lent.isSome || !x.2.started || x.2.phase < 3 then s
      else (s.at (max land s.now) prioTile (.productLanding c x.1)).at (max (land + 8) s.now) prioVerdict (.checksumVerdict c x.1)
    | _ => s) s
  (s.coreAt c).vecs.foldl (fun s x => if x.2.code == .tload then s.at (s.now + 1) (if x.2.timed then prioEngine else prioBank + requester x.2.thr) (.vectorRowStep c x.1) else s) s

/-- An operation ends with a cause: a timing trap in a timed segment, else precise at its word (R232), also of a thread that a stop has stopped
since. A lent command ends with an error status. So does a conflict of an array read end them, which has no restart point (R110; DEDUCED, log entry
20). -/
def State.failEng (s : State) (c q : Nat) (i : TrapInfo) : State :=
  let e := (s.coreAt c).eng q
  let stat := ((s.coreAt c).thread 0).stat
  let s := s.dropEng c q
  match e.lent with
  | some o => s.replyOp o 0 (some i.cause)
  | none =>
    if e.timed then s.timingTrap c i.cause i.record
    else if stat == .run || stat == .stopped then s.takeTrap (.core c 0) e.word i
    else s

/-! Shared-bank conflicts between timed requesters (R110). -/

/-- A word traps precisely although later words have issued: the thread is as it stood before the word, and what the word and later ones
have begun is gone. A thread that no longer runs keeps the trap that it has. -/
def State.undoWord (s : State) (c t : Nat) (u : Undo) (i : TrapInfo) : State :=
  if ((s.coreAt c).thread t).stat != .run then s
  else
    let mine (w : PendWrite) : Bool := w.core == c && w.who == requester t && decide (u.mark ≤ w.seq)
    let access (x : Acc) : Bool := x.core == c && x.who == requester t && decide (u.mark ≤ x.key)
    let own (e : Nat × Eng) : Bool := t == 0 && e.2.lent.isNone && decide (u.mark ≤ e.1)
    -- units that were debited before the latest refill have lapsed (R136)
    let kept := if s.now / 1024 = u.cyc / 1024 then u.spent else 0
    let s := s.modCore c fun k =>
      { k.setThread t u.thread with
        budg := k.budg + (SMap.get 0 k.spent t - kept), spent := SMap.set 0 k.spent t kept, pend := k.pend.filter fun w => !mine w, acc := k.acc.filter fun x => !access x,
        reqs := k.reqs.filter fun x => !(x.2.thr == t && x.2.remote.isNone && decide (u.mark ≤ x.1)),
        vecs := k.vecs.filter fun x => !(x.2.thr == t && decide (u.mark ≤ x.1)), engs := k.engs.filter fun e => !own e,
        tiles := if t = 0 then mapVals (fun v => { v with busy := v.busy.filter fun q => decide (q < u.mark) || (k.engs.any fun e => e.1 == q && e.2.lent.isSome) })
          k.tiles else k.tiles }
    let s := s.modCluster (clusterOf c) fun v => { v with pend := v.pend.filter (fun w => !mine w), acc := v.acc.filter fun x => !access x }
    let s : State := { s with
      ops := s.ops.filter fun x => !(x.2.agent == .core c t && decide (u.mark ≤ x.1)),
      sends := s.sends.filter fun x => !(t == 0 && x.2.src == c && decide (u.mark ≤ x.1)) }
    s.takeTrap (.core c t) u.word i

/-- The instruction ends with a cause and nothing that it would have written: precisely at its word, or as a timing trap in a
timed segment (R210, R265). A thread that a stop has stopped since takes the trap too, and issues nothing on resumption. -/
def State.failVec (s : State) (c q : Nat) (i : TrapInfo) : State :=
  match SMap.find (s.coreAt c).vecs q with
  | none => s
  | some v =>
    let ag : Agent := .core c v.thr
    let mine := v.flight.toList ++ v.incs.map (·.1)
    let s := s.modThread ag fun th => { th with flight := th.flight.filter fun f => !mine.contains f.seq }
    let s := s.modCore c fun k =>
      { k.modTile v.tile (·.without q) with
              vecs := SMap.erase k.vecs q, pend := k.pend.filter (fun w => !v.writes.contains w.id),
              acc := k.acc.filter fun x => x.key != q }
    let s := s.modCluster (clusterOf c) fun k =>
      { k with pend := k.pend.filter (fun w => !v.writes.contains w.id), acc := k.acc.filter fun x => x.key != q }
    if v.timed then s.timingTrap c i.cause i.record
    else if (s.threadOf ag).stat == .run || (s.threadOf ag).stat == .stopped then s.takeTrap ag v.word i
    else s

/-- The timed uses of a shared bank on this cycle that are known: scalar accesses, rows that the bank has served, and timed sends (R110). A
send that a conflict has delayed takes part in no other (DESIGN CHOICE, log entry 44). -/
def sharedUses (s : State) (k bank : Nat) : List Claim :=
  let v := s.clusterAt k
  ((v.acc.filter fun x => x.first && x.bank == bank && x.arrive == s.now).map fun x =>
    { cyc := s.now, bank := bank, core := x.core, addr := x.addr, acc := some x }) ++
    (v.claims.filter fun q => q.bank == bank && q.cyc == s.now) ++
    (s.sends.filter fun e => e.2.form != 2 && !e.2.late && e.2.lands == s.now && placeOf e.2.dst e.2.addr == .cluster k && sharedBankOf e.2.addr == bank).map
      fun e => { cyc := s.now, bank := bank, core := e.2.src, addr := e.2.addr, send := some e.1, sent := true }

/-- Sort pairs by their first component. -/
def pairInsert (x : Nat × Nat) : List (Nat × Nat) → List (Nat × Nat)
  | [] => [x]
  | y :: rest => if x.1 ≤ y.1 then x :: y :: rest else y :: pairInsert x rest
def pairSort : List (Nat × Nat) → List (Nat × Nat)
  | [] => []
  | x :: rest => pairInsert x (pairSort rest)

/-- Cores in ascending order of their coordinates. -/
def State.byCoords (s : State) (l : List Nat) : List Nat := (pairSort (l.map fun c => ((s.coreAt c).coords, c))).map (·.2)

/-- The requesters of a conflict, each with its coordinates and its address, in ascending order: control contexts and timed sends (R110). A
control context that uses the bank more than once is one requester, with its lowest address (DEDUCED, log entry 44). -/
def conflictRequesters (s : State) (l : List Claim) : List (Nat × Nat) :=
  let at_ (q : Claim) : Nat × Nat := ((s.coreAt q.core).coords, q.addr)
  let words := (pairSort ((l.filter fun q => !q.sent).map at_)).foldl (fun l x => if l.any (·.1 == x.1) then l else l ++ [x]) []
  pairSort (words ++ (l.filter (·.sent)).map at_)

/-- The cause record of 0x081 (R428): the bank, how many requesters, and the two lowest coordinates with their addresses. -/
def conflictRecord (s : State) (bank : Nat) (l : List Claim) : List Word :=
  let l := conflictRequesters s l
  let x := l.getD 0 (0, 0)
  let y := l.getD 1 (0, 0)
  [BitVec.ofNat 64 bank, BitVec.ofNat 64 l.length, BitVec.ofNat 64 x.1, BitVec.ofNat 64 x.2, BitVec.ofNat 64 y.1, BitVec.ofNat 64 y.2]

/-- Insert a send before those of senders with higher coordinates. -/
def sendInsert (s : State) (x : Nat × Send) : List (Nat × Send) → List (Nat × Send)
  | [] => [x]
  | y :: rest =>
    if (s.coreAt x.2.src).coords < (s.coreAt y.2.src).coords then x :: y :: rest else y :: sendInsert s x rest

/-- The sends caught in a conflict are written on the following cycles, one a cycle, in ascending order of their senders (R110). -/
def State.postpone (s : State) : Nat → List (Nat × Send) → State
  | _, [] => s
  | t, (q, e) :: rest =>
    (({ s with sends := SMap.put s.sends q { e with lands := t, late := true } }).at t prioSend (.sendLanding q)).postpone (t + 1) rest

/-- The uses of a shared bank on one cycle come from two requesters at least (R110). -/
def conflicting (l : List Claim) : Bool :=
  match l with
  | [] => false
  | x :: rest => rest.any fun y => y.core != x.core || x.sent || y.sent

/-- A further requester of a conflict is found on its cycle: what the others report counts it (R110, R428). -/
def State.reRecord (s : State) (k bank : Nat) (record : List Word) : State :=
  let fix (r : TrapRec) : TrapRec :=
    if r.cause = 0x081 && r.cyc = s.now && r.record.head? == some (BitVec.ofNat 64 bank) then { r with record := record } else r
  { s with cores := s.cores.map fun e =>
      if clusterOf e.1 = k && e.2.threads.any (fun x => x.2.trap.any fun r => fix r != r) then
        (e.1, { e.2 with threads := mapVals (fun th => { th with trap := th.trap.map fix }) e.2.threads })
      else e }

/-- None of the accesses is performed: a scalar word traps precisely, a row's instruction ends in a timing trap, and the sends are written
later (R110). `l` are the uses of cluster `k` that stand, `all` those that the record names; they are remembered for the rest of the cycle. -/
def State.conflict (s : State) (k bank : Nat) (l all : List Claim) : State :=
  let s := s.reRecord k bank (conflictRecord s bank all)
  let s := s.modCluster k fun v =>
    let old := v.claims.filter fun x => x.cyc == s.now
    { v with claims := old ++ (all.filter fun q => !old.contains q).map fun q => { q with acc := none, vec := none, send := none, eng := none } }
  let i : TrapInfo := { cause := 0x081, record := conflictRecord s bank all }
  let s := l.foldl (fun s q =>
    match q.acc, q.vec, q.eng with
    | some x, _, _ =>
      let s := s.setAcc (placeOf x.core x.addr) ((s.accOf (placeOf x.core x.addr)).filter (· != x))
      (match x.undo with | some u => s.undoWord x.core (threadNo x.who) u i | none => s)
    | none, some v, _ => s.failVec q.core v i
    | none, none, some e => if (SMap.find (s.coreAt q.core).engs e).isSome then s.failEng q.core e i else s
    | none, none, none => s) s
  s.postpone (s.now + 1) ((l.filterMap fun q => q.send.bind fun n => (SMap.find s.sends n).map fun e => (n, e)).foldl (fun l x => sendInsert s x l) [])

/-- A word that meets a conflict on its issue cycle traps; the others of the conflict trap with it. -/
def State.conflictTrap (s : State) (i : TrapInfo) : State :=
  match i.claim with
  | none => s
  | some (k, q) =>
    let l := sharedUses s k q.bank
    s.conflict k q.bank l (q :: l)

/-- A result of the word that is to land on one cycle with an earlier word's write of its register, under WCHK (R70): the cause record
of 0x041. -/
def lateCollision (s t : State) (cx : Cx) : Option (List Word) :=
  if cx.timed && !cx.again && s.wchk cx.c then
    let old := (s.threadOf cx.ag).flight
    (t.threadOf cx.ag).flight.findSome? fun f =>
      if old.any (·.seq == f.seq) || decide (f.land ≤ s.now) then none else f.dest.packed.bind fun r => collideRecord (s.threadOf cx.ag) r f.land
  else none

/-- What an issued word's verdict comes to: a word whose results would make more than 32 entries takes cause 0x049 in a timed segment, and
waits in an untimed one (R357). -/
def finish (s : State) (cx : Cx) : Verdict → Out
  | .done t =>
    if overfull t cx.ag then (if cx.timed then .next (s.takeTrap cx.ag cx.pc { cause := 0x049 }) else .next s)
    else
      match lateCollision s t cx with
      | some r => .next (s.takeTrap cx.ag cx.pc { cause := 0x041, record := r })
      | none => .next t
  | .wait t => if overfull t cx.ag && !cx.again then .next s else .next (t.markWaiting cx)
  | .hold => .next s
  | .trap i => .next ((s.conflictTrap i).takeTrap cx.ag cx.pc i)

/-- The trap that the control context takes before its next word: a deposit collision comes after every other cause (R85, R264,
R353). -/
def owedTrap (s : State) (cx : Cx) : Option Owed :=
  if cx.t = 0 then
    let l := (s.coreAt cx.c).owed
    match l.find? fun o => o.cause != 0x042 with
    | some o => some o
    | none => l.head?
  else none

/-- The owed trap is taken at the word that has not issued. -/
def State.takeOwed (s : State) (cx : Cx) (o : Owed) : State :=
  (s.modCore cx.c fun k => { k with owed := k.owed.filter (· != o) }).takeTrap cx.ag cx.pc
    { cause := o.cause, timed := o.timed, record := o.record }

/-- A word that traps discards the deposit collisions that the context owes (R353, order 9). -/
def State.dropOwed (s : State) (c : Nat) : State :=
  if (s.coreAt c).owed.isEmpty then s else s.modCore c fun k => { k with owed := k.owed.filter (·.cause != 0x042) }

/-- A deposit collision that is owed comes after every cause of the word itself (R353, order 9): a word that traps discards it, and
one that would go on has not issued. -/
def settle (s : State) (cx : Cx) (v : Verdict) : Out :=
  match owedTrap s cx, v with
  | none, v => finish s cx v
  | some _, .trap i => finish (s.dropOwed cx.c) cx (.trap i)
  | some _, .hold => .next s
  | some o, _ => .next (s.takeOwed cx o)

/-- The causes that an engine or an earlier word makes of a word (R353, order 2). -/
def engineCause (n : Nat) : Bool := [0x046, 0x049, 0x04B].contains n

/-- A timed word that would give a result where the flight list is full takes cause 0x049 before its own causes (R353, R357). -/
def crowded (s : State) (cx : Cx) (x : WordOf) (v : Verdict) : Verdict :=
  match v with
  | .trap i =>
    if cx.timed && decide (32 ≤ s.inFlight cx.ag) && (x.form.push || !(x.form.writes x.w).isEmpty) && !engineCause i.cause then .trap { cause := 0x049 }
    else v
  | _ => v

/-- The cause of the word that goes before trap `i` of its gate (R353): what an engine or an earlier word makes of it comes before every check
of the word, and a collision of a result before the issue rules. `v` is what the word would come to. -/
def precedence (s : State) (cx : Cx) (i : TrapInfo) (v : Verdict) : TrapInfo :=
  if !cx.timed || engineCause i.cause then i
  else
    match v with
    | .trap t => if engineCause t.cause || (t.cause == 0x041 && decide (0x043 ≤ i.cause)) then t else i
    | .done t =>
      if overfull t cx.ag then { cause := 0x049 }
      else if i.cause < 0x043 then i
      else
        match lateCollision s t cx with
        | some r => { cause := 0x041, record := r }
        | none => i
    | _ => i

/-- Issue the word of an instruction and give it its effect. A trap that the context owes comes first, but for a deposit
collision. -/
def issue (i : Instr) (body : Cx → Fields → State → Verdict) (s : State) : Out :=
  match i.word with
  | none => .next s
  | some x =>
    let cx := s.cx
    if cx.again then finish s cx (body cx x.w (s.again cx))
    else
      match gate x s, owedTrap s cx with
      | .hold, _ => .next s
      | .skip, none => .next (s.issued x)
      | .skip, some o => .next (s.takeOwed cx o)
      | .trap t, o =>
        match o.filter (·.cause != 0x042) with
        | some o => .next (s.takeOwed cx o)
        | none =>
          let t := if (s.threadOf cx.ag).guardTrue x.w then precedence s cx t (crowded s cx x (body cx x.w (s.issued x))) else t
          let s := if cx.t = 0 then s.dropOwed cx.c else s
          .next ((if t.cause < 0x010 ∧ x.w.v ≠ 3 then s.debitOnly cx.ag (if budgeted cx.ag then classUnits x.w.hint.ec else 0) else s).takeTrap
            cx.ag cx.pc t)
      | .go, o =>
        match o.filter (·.cause != 0x042) with
        | some o => .next (s.takeOwed cx o)
        | none => settle s cx (crowded s cx x (body cx x.w (s.issued x)))

/-- The illegal-instruction trap of a word that names no operation (R156): cause 0x001 for V = 3, whose cycle in a timed segment is that of V = 2
(DEDUCED, log entry 15), else 0x000. -/
def illegalWord (s : State) (bits : Nat) : State :=
  let cx := s.cx
  let v3 := bits / 2 ^ 94 == 3
  let w : Nat := bits
  let h := (BitVec.ofNat 18 (w / 2 ^ 62))
  let hint := if w / 2 ^ 94 = 0 then hintV0 h else if w / 2 ^ 94 = 1 then hintV1 h else hintV2 h
  let th := s.threadOf cx.ag
  if th.stat != .run || decide (s.now < th.due (s.segOf cx.ag cx.pc) hint) then s
  else
    match (owedTrap s cx).filter (·.cause != 0x042) with
    | some o => s.takeOwed cx o
    | none =>
      let s := if cx.t = 0 then s.dropOwed cx.c else s
      (if v3 then s else s.debitOnly cx.ag (if budgeted cx.ag then classUnits hint.ec else 0)).takeTrap cx.ag cx.pc
        { cause := if v3 then 0x001 else 0x000, record := wordRecord bits }

/-! Where a word's bytes are fetched from (R139, R243, R298, R350). -/

/-- The code that an agent runs, as bytes from word 0. -/
def State.codeOf (s : State) : Agent → Memory
  | .core _ 11 => s.handler
  | .core c 12 => (s.coreAt c).burin.store
  | .core c _ => (s.kernelAt c).code
  | .req id =>
    let r := s.reqAt id
    let k := (s.groupAt (s.opAt r.op).grp).kernel
    if r.loader then k.loader else k.storer

/-- How many words an agent's code region holds. -/
def State.codeWords (s : State) : Agent → Nat
  | .core _ 11 => 2048
  | .core _ 12 => 256
  | .core c _ => (s.kernelAt c).codeW
  | .req id =>
    let r := s.reqAt id
    let k := (s.groupAt (s.opAt r.op).grp).kernel
    if r.loader then k.loaderW else k.storerW

/-- The twelve bytes of the word that an agent fetches next. -/
def State.fetch (s : State) (ag : Agent) : List Byte := memRead (s.codeOf ag) (12 * (s.threadOf ag).pc) 12

end Sys2Proof.Machine
end

