-- ==== Sys2Proof/Machine/Operands.lean ====
section
/-! DEFINITION. Every operand form: effective addresses and pointers (R65, R173), memory operands of rows (R186, R187), the
checks on a range or on rows (R174, R189), the results that an instruction lands, and the places of scalar accesses on a
bank (R88 to R91, R110, R176). -/

namespace Sys2Proof.Machine

/-! Results. -/

/-- A scalar result: it is pushed, and written to register A if A names one (R64). -/
def result (cx : Cx) (dest : Dest) (v : Word) (lat : Nat) (s : State) : Verdict :=
  .done (s.land cx.ag cx.pc dest v true lat)

/-- The issuing thread. -/
def State.self (s : State) (cx : Cx) : Thread := s.threadOf cx.ag

/-- Raise FFLG bits of the issuing thread; a request thread sets none (R42, R128). -/
def State.raise (s : State) (cx : Cx) (f : Flags) : State :=
  match cx.ag with
  | .req _ => s
  | _ => s.modThread cx.ag fun th => th.raise f

/-- Advance a post-incremented pointer so that it lands `lat` cycles on (R26, R65): a base advances modulo 2^24. -/
def State.advance (s : State) (cx : Cx) (o : Operand) (by_ : Int) (lat : Nat) : State :=
  if o.inc then
    let p := (s.self cx).readA o.num
    let q : Ptr := { p with base := p.base + BitVec.ofInt 24 by_ }
    s.land cx.ag cx.pc (.a o.num) q.image false lat
  else s

/-- Advance a pointer once by its stride as the word issues (R249, R251). -/
def State.advanceNow (s : State) (cx : Cx) (o : Operand) : State :=
  if o.inc then
    s.modThread cx.ag fun th =>
      let p := th.readA o.num
      th.writeA o.num { p with base := p.base + BitVec.ofInt 24 p.stride.toInt }
  else s

/-! Bytes that the issuing thread reads (R71, R90). -/

/-- The bytes at `a` as the issuing thread reads them at the start of cycle `t`. -/
def State.reads (s : State) (cx : Cx) (t a n : Nat) : List Byte := s.view cx.c (requester cx.t) t a n

/-- The guard check of R174 with the cause record of 0x0D4. -/
def guardTrap (s : State) (cx : Cx) (a n : Nat) (rd wr : Bool) : Option TrapInfo :=
  ((s.coreAt cx.c).guardFail a n rd wr).map fun f => { cause := 0x0D4, record := guardRecord f rd wr n }

/-- The first of several checks that gives a trap. -/
def firstTrap : List (Option TrapInfo) → Option TrapInfo
  | [] => none
  | some t :: _ => some t
  | none :: rest => firstTrap rest

def causeIf (b : Bool) (n : Nat) : Option TrapInfo := if b then some { cause := n } else none

/-- Go on where no check traps. -/
def checked (t : Option TrapInfo) (k : Verdict) : Verdict :=
  match t with
  | some t => .trap t
  | none => k

/-! Scalar addresses (R173). -/

structure Addr where
  base : Nat
  ea : Nat
  /-- personality of the bank that the base decides -/
  pers : Nat
  deriving DecidableEq, Repr

/-- The address of LDL, STL or LDP: base, and offset where the base lies in no personality bank. -/
def scalarAddr (s : State) (cx : Cx) (o c : Operand) : Addr :=
  let th := s.self cx
  let base := th.base o false
  let pers := (s.coreAt cx.c).persAt base
  let off : Word := if c.zero then 0 else th.src c
  { base := base, ea := (base + off.toNat) % 2 ^ 24, pers := pers }

/-! Rows (R186, R187). -/

/-- A memory operand of rows: base, stride and element format as they stand at issue. -/
def memOperand (th : Thread) (o : Operand) (typed : Bool) : VMem :=
  { base := th.base o typed, stride := ((th.stride o) % (2 ^ 24 : Int)).toNat, fmt := o.fmt,
    inc := if o.inc then some o.num else none }

/-- Rows that `n` elements of `w` bytes span (R187). -/
def spanRows (n w : Nat) : Nat := (n * w + 255) / 256

/-- Address of row j. -/
def VMem.row (m : VMem) (j : Nat) : Nat := (m.base + j * m.stride) % 2 ^ 24

/-- Base on a row boundary and stride a multiple of 256 (R186). -/
def VMem.aligned (m : VMem) : Bool := m.base % 256 == 0 && m.stride % 256 == 0

/-- The first row, if any, that the guard does not permit (R174, R189). -/
def rowsGuard (s : State) (cx : Cx) (m : VMem) (n : Nat) (rd wr : Bool) : Option TrapInfo :=
  (List.range n).findSome? fun j => guardTrap s cx (m.row j) 256 rd wr

/-- Some row lies in a personality bank (R91). -/
def rowsPers (s : State) (cx : Cx) (m : VMem) (n : Nat) : Bool :=
  (List.range n).any fun j => (s.coreAt cx.c).personality (m.row j) 256

/-- The conflict that a timed scalar access to local memory meets on its cycle: a timed send is written into its bank (R89). -/
def scalarConflict (s : State) (cx : Cx) (a cyc : Nat) : Option TrapInfo :=
  causeIf (cx.timed && isLocal a && sendAt s (.core cx.c) (bankOf a) cyc) 0x083

/-- The landed tag of a row at the start of cycle `t` (R265). -/
def Core.tagAt (k : Core) (row t : Nat) : Nat :=
  let e := SMap.get (0, 0, 0) k.tags row
  if e.2.1 < t then e.1 else e.2.2

/-- A push or a timed send that is written at the end of cycle `cyc` sets the landed tag of each row it writes. -/
def Core.setTag (k : Core) (row tag cyc : Nat) : Core := { k with tags := SMap.put k.tags row (tag, cyc, k.tagAt row cyc) }

/-- A read of an armed row on cycle `t` whose tag differs from the landed one (R265): cause 0x080, with the row's address, the
armed tag and the landed tag in its record (R407). -/
def tagMismatch (k : Core) (row t : Nat) : Option TrapInfo :=
  match k.armed.find? fun e => e.1 == row with
  | some e => if k.tagAt row t = e.2 then none else some { cause := 0x080, record := [BitVec.ofNat 64 (256 * row), BitVec.ofNat 64 e.2,
                                                                                     BitVec.ofNat 64 (k.tagAt row t)] }
  | none => none

/-- A read of an armed row whose tag matches frees its entry (R265); a coupled restart may arm it again (R308). -/
def State.freeTag (s : State) (c row : Nat) : State :=
  s.modCore c fun k =>
    match k.armed.find? fun e => e.1 == row with
    | some e => { k with armed := k.armed.filter (fun x => x.1 != row), freed := e :: k.freed }
    | none => k

end Sys2Proof.Machine
end

