-- ==== Sys2Proof/Machine/VectorMath.lean ====
section
/-! DEFINITION. What the vector instructions compute from the elements they have read: element arithmetic (R194 to R200,
R204), reductions and scan (R57, R58, R201 to R203), keys and digits (R211, R212), and the bitmask-plus-values form
(R45 to R48). -/

namespace Sys2Proof.Machine

/-! Elements in bytes. -/

/-- Element `i` of bytes that hold elements of width `w`. -/
def elemAt (buf : List Byte) (w i : Nat) : Nat := leNat ((buf.drop (i * w)).take w)

/-- Elements `i` to `i + n − 1`. -/
def elemsFrom (buf : List Byte) (w i n : Nat) : List Nat :=
  let b := (buf.drop (i * w)).take (n * w)
  (List.range n).map fun j => elemAt b w j

/-- The elements of row `j` of an operand of `vl` elements: the first, and how many. -/
def rowElems (vl w j : Nat) : Nat × Nat :=
  let per := 256 / w
  (j * per, min vl ((j + 1) * per) - j * per)

/-- The scalar element that an operand supplies (R188), with the flags of an immediate's conversion. -/
def scalarElem (th : Thread) (o : Operand) (f : Nat) : Nat × Flags :=
  match o.kind with
  | .imm =>
    let x := Num.ofReal false (.ofInt o.immInt)
    if fmtF f then encodeFloat f 0 x
    else if f = 11 then encodeDm8 0 x
    else (wrapInt f o.immInt, 0)
  | _ => ((th.value o true).toNat % 2 ^ fmtBits f, 0)

/-! One element. -/

/-- Two integer operands, exact, then wrapped or saturated (R195). -/
def intOp (f m : Nat) (g : Int → Int → Int) (b c : Nat) : Nat × Flags := narrowInt f m (g (decodeInt f b) (decodeInt f c))

/-- Minimum or maximum (R194, R195). -/
def minMaxElem (f : Nat) (isMax : Bool) (b c : Nat) : Nat × Flags :=
  if fmtF f then minMaxNum f isMax b c
  else
    let below := decide (decodeInt f b < decodeInt f c)
    (if below != isMax then b else c, 0)

/-- A shift by an amount read as unsigned (R196). -/
def shiftElem (f : Nat) (left : Bool) (b c : Nat) : Nat :=
  let n := fmtBits f
  if left then (if n ≤ c then 0 else b * 2 ^ c % 2 ^ n)
  else if fmtI f then
    let x := decodeInt f b
    if n ≤ c then (if x < 0 then 2 ^ n - 1 else 0) else wrapInt f (x / (2 ^ c : Int))
  else if n ≤ c then 0 else b / 2 ^ c

/-- A comparison of elements (R197): 0 eq, 1 ne, 2 lt, 3 le, 4 gt, 5 ge. -/
def cmpElem (f cc : Nat) (b c : Nat) : Bool × Flags :=
  if fmtF f then cmpNum cc (decodeFloat f b) (decodeFloat f c)
  else
    let x := decodeInt f b
    let y := decodeInt f c
    (match cc with
     | 0 => decide (x = y)
     | 1 => decide (x ≠ y)
     | 2 => decide (x < y)
     | 3 => decide (x ≤ y)
     | 4 => decide (y < x)
     | _ => decide (y ≤ x), 0)

/-- start + index (R199). -/
def iotaElem (f start i : Nat) : Nat × Flags :=
  if fmtF f then
    let r := addNum f 0 (decodeFloat f start) (.ofReal false (.ofInt i))
    (r.1, r.2 &&& fNX)
  else (wrapInt f (decodeInt f start + i), 0)

/-- The unsigned key of an element, and back (R211). -/
def ordElem (m fnum b : Nat) : Nat :=
  let n := fmtBits fnum
  let top := 2 ^ (n - 1)
  let full := 2 ^ n - 1
  let key (x : Nat) : Nat :=
    if fmtF fnum then (if top ≤ x then full - x else x + top)
    else if fmtI fnum then (x + top) % 2 ^ n
    else x
  let back (x : Nat) : Nat :=
    if fmtF fnum then (if top ≤ x then x - top else full - x)
    else if fmtI fnum then (x + top) % 2 ^ n
    else x
  match m with
  | 0 => key b
  | 1 => full - key b
  | 2 => back b
  | _ => back (full - b)

/-- The digit of an element (R212). -/
def digitElem (spec b : Nat) : Nat :=
  let pos := spec % 32
  let wd := spec / 32 % 8 + 1
  let mt := spec / 256 % 2 == 1
  let pfx := spec / 2 ^ 32
  if mt && b / 2 ^ (pos + wd) != pfx then 2 ^ wd else b / 2 ^ pos % 2 ^ wd

/-- One element of a streaming instruction: `a`, `b` and `c` are the elements of index `i`. -/
def vecElem (v : VecOp) (i a b c : Nat) : Nat × Flags :=
  let f := v.fmtA
  let fb := (v.b.map (·.fmt)).getD f
  let m := v.m
  match v.code with
  | .vadd => if fmtF f then addNum f m (decodeFloat f b) (decodeFloat f c) else intOp f m (· + ·) b c
  | .vsub => if fmtF f then addNum f m (decodeFloat f b) (decodeFloat f c).negate else intOp f m (· - ·) b c
  | .vmul => if fmtF f then mulNum f m (decodeFloat f b) (decodeFloat f c) else intOp f m (· * ·) b c
  | .vfma =>
    if fmtF f then fmaNum f m (decodeFloat f b) (decodeFloat f c) (decodeFloat f a)
    else narrowInt f m (decodeInt f b * decodeInt f c + decodeInt f a)
  | .vmin => minMaxElem f false b c
  | .vmax => minMaxElem f true b c
  | .vabs => if fmtF f then (b % 2 ^ (fmtBits f - 1), 0) else narrowInt f m ((decodeInt f b).natAbs : Int)
  | .vneg => if fmtF f then (b ^^^ 2 ^ (fmtBits f - 1), 0) else narrowInt f m (-(decodeInt f b))
  | .vand => (b &&& c, 0)
  | .vor => (b ||| c, 0)
  | .vxor => (b ^^^ c, 0)
  | .vshl => (shiftElem f true b c, 0)
  | .vshr => (shiftElem f false b c, 0)
  | .vcmp cc =>
    let r := cmpElem fb cc b c
    (if r.1 then 2 ^ fmtBits f - 1 else 0, r.2)
  | .vsel => (passElem f (if b != 0 then c else a), 0)
  | .vcvt => convert f fb m b
  | .vmov => (passElem f b, 0)
  | .vbcast => (passElem f c, 0)
  | .viota => iotaElem f c i
  | .vexp => expNum f m b
  | .vrcp => rcpNum f m b
  | .vrsq => rsqNum f m b
  | .vtanh => tanhNum f m b
  | .vord => (ordElem m (if m < 2 then fb else f) b, 0)
  | .vdigit => (digitElem (v.sc.getD 0).toNat b, 0)
  | _ => (0, 0)

/-! Reductions and scan. -/

/-- Combine neighbours in pairs; a last one without a partner goes on unchanged (R57). -/
def pairUp (op : Nat → Nat → Nat × Flags) : List Nat → List Nat × Flags
  | [] => ([], 0)
  | [x] => ([x], 0)
  | x :: y :: rest =>
    let (z, f) := op x y
    let (zs, g) := pairUp op rest
    (z :: zs, f ||| g)

/-- Combine until one value remains. -/
def treeFold (op : Nat → Nat → Nat × Flags) : Nat → List Nat → Nat × Flags
  | _, [] => (0, 0)
  | _, [x] => (x, 0)
  | 0, x :: _ => (x, 0)
  | k + 1, l =>
    let (l, f) := pairUp op l
    let (z, g) := treeFold op k l
    (z, f ||| g)

/-- The tree within each row, then the fold from row to row (R57). -/
def reduceRows (op : Nat → Nat → Nat × Flags) (rows : List (List Nat)) : Nat × Flags :=
  let ts := rows.map (treeFold op 9)
  match ts with
  | [] => (0, 0)
  | t :: rest =>
    rest.foldl (fun acc x =>
      let (z, f) := op acc.1 x.1
      (z, acc.2 ||| x.2 ||| f)) t

/-- The elements of B row by row. -/
def VecOp.rowsB (v : VecOp) (w : Nat) : List (List Nat) :=
  (List.range (spanRows v.vl w)).map fun j =>
    let (i, n) := rowElems v.vl w j
    elemsFrom v.bufB w i n

/-- The result of VSUM, VRMAX, VRMIN or VCOUNT over the elements read (R201, R202, R214). `fa` is A's format. -/
def reduceValue (v : VecOp) (fa : Nat) : Nat × Flags :=
  let fb := (v.b.map (·.fmt)).getD 0
  let w := fmtWidth fb
  let all := elemsFrom v.bufB w 0 v.vl
  match v.code with
  | .vsum =>
    if fmtF fb then
      if v.vl = 0 then (0, 0)
      else
        let up (x : Nat) : Nat × Flags := encodeFloat 1 0 (decodeFloat fb x)
        let rows := (v.rowsB w).map fun l => l.map fun x => (up x).1
        let fl := all.foldl (fun f x => f ||| (up x).2) 0
        let (z, f) := reduceRows (fun x y => addNum 1 v.m (decodeFloat 1 x) (decodeFloat 1 y)) rows
        if fa = 1 then (z, fl ||| f)
        else
          let (y, g) := encodeFloat fa v.m (decodeFloat 1 z)
          (y, fl ||| f ||| g)
    else narrowInt fa v.m (all.foldl (fun acc x => acc + decodeInt fb x) 0)
  | .vrmax | .vrmin =>
    let isMax := v.code == .vrmax
    if v.vl = 0 then
      (if fmtF fb then infBits fb isMax else wrapInt fb (if isMax then intMin fb else intMax fb), 0)
    else
      let (z, f) := reduceRows (minMaxElem fb isMax) (v.rowsB w)
      let (y, g) := if fmtF fb then encodeFloat fb v.m (decodeFloat fb z) else (z, 0)
      (y, f ||| g)
  | .vcount =>
    let c := (v.sc.getD 0).toNat
    ((all.filter fun x => match v.m with | 0 => x != 0 | 1 => x == c | _ => decide (x < c)).length, 0)
  | _ => (0, 0)

/-- The prefix sums of elements (R58, R203); the first is the first element, a NaN as the canonical NaN (R32). -/
def scanList (f m : Nat) : Option Nat → List Nat → List Nat × Flags
  | _, [] => ([], 0)
  | none, x :: rest =>
    let (z, h) := if fmtF f then encodeFloat f m (decodeFloat f x) else (x, 0)
    let (l, g) := scanList f m (some z) rest
    (z :: l, h ||| g)
  | some r, x :: rest =>
    let (z, h) := if fmtF f then addNum f m (decodeFloat f r) (decodeFloat f x) else intOp f m (· + ·) r x
    let (l, g) := scanList f m (some z) rest
    (z :: l, h ||| g)

/-! Rearrangement (R206). -/

def permList (b c : List Nat) (vl : Nat) : List Nat := c.map fun i => if i < vl then b.getD i 0 else 0

def compList (b c : List Nat) : List Nat := (b.zip c).filterMap fun e => if e.2 != 0 then some e.1 else none

def expnList : List Nat → List Nat → List Nat
  | _, [] => []
  | b, c :: cs =>
    if c != 0 then (match b with | x :: bs => x :: expnList bs cs | [] => 0 :: expnList [] cs)
    else 0 :: expnList b cs

/-! The bitmask-plus-values form. -/

/-- Bytes of header and mask for E elements. -/
def maskBytes (e : Nat) : Nat := 8 + 8 * ((e + 63) / 64)

/-- Pack a list of bits, lowest first, into bytes. -/
def packBits (bits : List Bool) (nbytes : Nat) : List Byte :=
  (List.range nbytes).map fun k =>
    BitVec.ofNat 8 ((List.range 8).foldl (fun acc i => if bits.getD (8 * k + i) false then acc + 2 ^ i else acc) 0)

/-- The header of an object of `e` elements, `nz` of them not zero (R45). -/
def objHeader (fmt e nz : Nat) : Nat := nz + e * 2 ^ 16 + fmt * 2 ^ 32

/-- The object that holds these elements (R45). -/
def packObject (fmt w : Nat) (xs : List Nat) : List Byte :=
  let nzs := xs.filter (· != 0)
  let e := xs.length
  leBytes 8 (objHeader fmt e nzs.length) ++ packBits (xs.map (· != 0)) (8 * ((e + 63) / 64)) ++
    nzs.flatMap (leBytes w)

def objE (h : Nat) : Nat := h / 2 ^ 16 % 2 ^ 16
def objNz (h : Nat) : Nat := h % 2 ^ 16

/-- The mask bits of an object's bytes. -/
def objMask (buf : List Byte) (e : Nat) : List Bool :=
  (List.range e).map fun i => ((buf.getD (8 + i / 8) 0).getLsbD (i % 8))

/-- The header fault of an object's header-and-mask bytes, counted from 1 in the order of R48, and the number of set mask bits
among its elements (R404); `fmt` is the format code expected. -/
def objFault (buf : List Byte) (fmt : Nat) : Option (Nat × Nat) :=
  let h := leNat (buf.take 8)
  let e := objE h
  let bits := (List.range (64 * ((e + 63) / 64))).map fun i => (buf.getD (8 + i / 8) 0).getLsbD (i % 8)
  let all := (bits.filter id).length
  let set := ((bits.take e).filter id).length
  if h / 2 ^ 40 != 0 then some (1, set)
  else if h / 2 ^ 32 % 256 != fmt then some (2, set)
  else if e == 0 then some (3, set)
  else if set != objNz h then some (4, set)
  else if all != set then some (5, set)
  else none

/-- The bytes that the object uses. -/
def objUsed (h w : Nat) : Nat := maskBytes (objE h) + objNz h * w

/-- The E elements of an object (R209). -/
def unpackObject (buf : List Byte) (w : Nat) : List Nat :=
  let h := leNat (buf.take 8)
  let e := objE h
  let vals := elemsFrom (buf.drop (maskBytes e)) w 0 (objNz h)
  expnList vals ((objMask buf e).map fun b => if b then 1 else 0)

/-! The rows of a destination. -/

/-- The bytes of row `j` of the destination, from what has been read. -/
def vecRow (v : VecOp) (j : Nat) : List Byte × Flags :=
  let w := fmtWidth v.fmtA
  let wb := match v.b with | some m => fmtWidth m.fmt | none => w
  let wc := match v.c with | some m => fmtWidth m.fmt | none => w
  let (i0, n) := rowElems v.vl w j
  let bytes (l : List Nat) : List Byte := l.flatMap fun x => leBytes w (passElem v.fmtA x)
  let sliceRow (l : List Byte) : List Byte := ((l.drop (256 * j)).take 256).take (v.extent - 256 * j)
  match v.code with
  | .vscan =>
    let (l, _) := scanList v.fmtA v.m none (elemsFrom v.bufB w 0 (i0 + n))
    let before := (scanList v.fmtA v.m none (elemsFrom v.bufB w 0 (i0 + n))).2
    (bytes (l.drop i0), before)
  | .vperm => (bytes (((permList (elemsFrom v.bufB wb 0 v.vl) (elemsFrom v.bufC wc 0 v.vl) v.vl).drop i0).take n), 0)
  | .vcomp => (sliceRow (bytes (compList (elemsFrom v.bufB wb 0 v.vl) (elemsFrom v.bufC wc 0 v.vl))), 0)
  | .vexpn => (bytes (((expnList (elemsFrom v.bufB wb 0 v.vl) (elemsFrom v.bufC wc 0 v.vl)).drop i0).take n), 0)
  | .vpack =>
    let fb := (v.b.map (·.fmt)).getD 0
    (sliceRow (packObject fb (fmtWidth fb) ((elemsFrom v.bufB (fmtWidth fb) 0 v.vl).map (passElem fb)) ++ List.replicate 256 0), 0)
  | .vunpk => (sliceRow (bytes (unpackObject v.bufB w)), 0)
  | _ =>
    let b := (elemsFrom v.bufB wb i0 n)
    let a := (elemsFrom v.bufA w i0 n)
    let c := (elemsFrom v.bufC wc i0 n)
    let sc := (v.sc.getD 0).toNat
    let rs := (List.range n).map fun k =>
      vecElem v (i0 + k) (a.getD k 0) (b.getD k 0) (if v.c.isSome then c.getD k 0 else sc)
    (bytes (rs.map (·.1)), rs.foldl (fun f r => f ||| r.2) 0)

end Sys2Proof.Machine
end

