-- ==== Sys2Proof/Machine/MatrixMath.lean ====
section
/-! DEFINITION. What the matrix array and the quantiser compute: the places of operand rows and planes (R43, R44, R227, R230), the
sums of products (R54, R55), tile loads and stores (R225, R226), and block quantisation (R59, R233). -/

namespace Sys2Proof.Machine

/-! Shapes (R219). -/

def arrayRows (gang : Nat) : Nat := if gang = 1 then 64 else 128
def arrayCols (gang : Nat) : Nat := if gang = 4 then 128 else 64

/-- Block length of a BL code (R222). -/
def blockLen (bl : Nat) : Nat := if bl = 0 then 0 else 8 * 2 ^ bl

/-- Kept values of a group of 16 (R222): 2, 4 or 8. -/
def keptOf (sp : Nat) : Nat := 2 ^ sp

namespace Eng

/-- Values in one A row: K, or K × N_s / 16 for MMAS (R228). -/
def kp (e : Eng) : Nat := if e.sparse then e.k * keptOf e.sp / 16 else e.k
def width (e : Eng) : Nat := fmtWidth e.fmt
def aSpan (e : Eng) : Nat := spanRows e.kp e.width
def bSpan (e : Eng) : Nat := spanRows e.k e.width

/-- Scale blocks in one matrix row. -/
def blocks (e : Eng) : Nat := if e.bl = 0 then 0 else (e.k + blockLen e.bl - 1) / blockLen e.bl
/-- Rows of the scale plane of an operand of `n` matrix rows (R227). -/
def scaleRows (e : Eng) (n : Nat) : Nat := spanRows ((n * e.blocks + 2) / 3) 8
/-- Rows of the index plane (R43, R230). -/
def idxRows (e : Eng) : Nat := if e.sparse then spanRows (e.tm * (e.k / 16) * keptOf e.sp / 2) 1 else 0

/-- Rows from `base` on, in address order. -/
def dense (base n : Nat) : List Nat := (List.range n).map fun j => (base + 256 * j) % 2 ^ 24
/-- The value rows of `n` matrix rows of `span` local rows. -/
def valueRows (base stride n span : Nat) : List Nat :=
  (List.range n).flatMap fun i => (List.range span).map fun j => (base + i * stride + 256 * j) % 2 ^ 24

/-- Metadata and value rows of A and B (R228). -/
def aMeta (e : Eng) : List Nat := if e.gather then [] else dense (e.aBase + e.tm * e.aStride) (e.idxRows + e.scaleRows e.tm)
def bMeta (e : Eng) : List Nat := if e.gather then [] else dense (e.bBase + e.tn * e.bStride) (e.scaleRows e.tn)
def aVal (e : Eng) : List Nat := if e.gather then [] else valueRows e.aBase e.aStride e.tm e.aSpan
def bVal (e : Eng) : List Nat := valueRows e.bBase e.bStride e.tn e.bSpan

/-- The rows of the phase in progress. -/
def phaseRows (e : Eng) : List Nat × List Nat := if e.phase = 1 then (e.aMeta, e.bMeta) else (e.aVal, e.bVal)

/-- The rows that a gather reads: index rows, then the table rows that the indices read so far select (R231). -/
def gatherRows (e : Eng) : List Nat :=
  let ir := spanRows (2 * e.tm) 1
  let xs := elemsFrom e.idx 2 0 e.tm
  dense e.iBase ir ++ (if e.gslot < ir then [] else xs.flatMap fun x => (List.range e.aSpan).map fun j => (e.aBase + x * e.aStride + 256 * j) % 2 ^ 24)

/-- Rows of the whole gather. -/
def gatherCount (e : Eng) : Nat := spanRows (2 * e.tm) 1 + e.tm * e.aSpan

/-- s of a phase: 2 where some A row and some B row lie in one bank (R228). -/
def phaseStall (e : Eng) : Nat :=
  let (a, b) := e.phaseRows
  let id (x : Nat) : Nat := if isShared x then 16 + sharedBankOf x else bankOf x
  let bs := (b.map id).eraseDups
  if (a.map id).eraseDups.any fun x => bs.contains x then 2 else 1

/-- D: compute cycles (R228), for an array of `ar` rows and `ac` columns. -/
def compute (e : Eng) (ar ac : Nat) : Nat :=
  let up (x y : Nat) : Nat := (x + y - 1) / y
  let p := match e.fmt with
    | 2 | 3 => up (4 * e.tn) ac
    | 1 => up (4 * e.tm) ar * up (4 * e.tn) ac
    | _ => 1
  let d := e.k * p
  if e.sparse then (if e.sp = 3 then d / 2 else d / 4) else d

/-- Cycles of the two phases where nothing is deferred. -/
def phases (e : Eng) : Nat × Nat :=
  let len (e : Eng) : Nat :=
    let (a, b) := e.phaseRows
    max a.length b.length * e.phaseStall
  (len { e with phase := 1 }, len { e with phase := 2 })

/-- U: cycles for which the array is occupied (R228). -/
def occupied (e : Eng) (ar ac : Nat) : Nat :=
  let (lm, lv) := e.phases
  lm + max (e.compute ar ac) lv

/-- Bit `i` to `i + n − 1` of bytes, little-endian. -/
def bitsAt (buf : List Byte) (i n : Nat) : Nat := leNat ((buf.drop (i / 8)).take 2) / 2 ^ (i % 8) % 2 ^ n

/-- The positions of group `g` of A row `i` (R43, R230). -/
def positions (e : Eng) (i g : Nat) : List Nat :=
  let n := keptOf e.sp
  let grp := i * (e.k / 16) + g
  (List.range n).map fun j => bitsAt e.mA (grp * n * 4 + 4 * j) 4

def ascending : List Nat → Bool
  | x :: y :: rest => decide (x < y) && ascending (y :: rest)
  | _ => true

/-- An index list of the index plane is not strictly ascending (R43): cause 0x0C0. -/
def indexFault (e : Eng) : Bool :=
  e.sparse && (List.range e.tm).any fun i => (List.range (e.k / 16)).any fun g => !ascending (e.positions i g)

/-- Scale word `n` of a plane. -/
def scaleWord (buf : List Byte) (n : Nat) : Nat := elemAt buf 8 n

/-- The scale plane of A and of B among the metadata read. -/
def aScales (e : Eng) : List Byte := e.mA.drop (256 * e.idxRows)

/-- A scale word has a reserved bit set (R38): cause 0x0C1. -/
def scaleFault (e : Eng) : Bool :=
  e.bl != 0 &&
    ((List.range ((e.tm * e.blocks + 2) / 3)).any (fun n => scaleWordBad (scaleWord e.aScales n)) ||
     (List.range ((e.tn * e.blocks + 2) / 3)).any (fun n => scaleWordBad (scaleWord e.mB n)))

/-- An element with the scale of its block (R44); `pos` is its logical position. -/
def scaled (e : Eng) (plane : List Byte) (row pos bits : Nat) : Num :=
  let x := decodeElem e.fmt bits
  if e.bl = 0 then x
  else
    let n := row * e.blocks + pos / blockLen e.bl
    match scaleValue (scaleField (scaleWord plane (n / 3)) n), x with
    | none, _ => .nar
    | some sc, .fin _ _ => .ofReal false (x.real.mul sc)
    | some _, x => x

/-- Row `i` of A as K numbers, positions that are not kept zero (R56), also against an infinity or a NaN of B (DESIGN CHOICE, log entry 55). -/
def aRow (e : Eng) (i : Nat) : List Num :=
  let vals := elemsFrom (e.vA.drop (256 * i * e.aSpan)) e.width 0 e.kp
  if e.sparse then
    let n := keptOf e.sp
    (List.range (e.k / 16)).flatMap fun g =>
      let ps := e.positions i g
      (List.range 16).map fun p =>
        match ps.idxOf? p with
        | some j => e.scaled e.aScales i (16 * g + p) (vals.getD (g * n + j) 0)
        | none => .zero false
  else (List.range e.k).map fun k => e.scaled e.aScales i k (vals.getD k 0)

/-- Row `j` of B, which is a column of the matrix. -/
def bRow (e : Eng) (j : Nat) : List Num :=
  let vals := elemsFrom (e.vB.drop (256 * j * e.bSpan)) e.width 0 e.k
  (List.range e.k).map fun k => e.scaled e.mB j k (vals.getD k 0)

end Eng

/-- One product of a group (R54). -/
def groupProduct (x y : Num) : Num × Flags :=
  if x == .nar || y == .nar then (.nan false, fNV) else mulExact x y

/-- The exact sum of a group of products. A quiet NaN among them gives a NaN and no NV, whatever infinities stand beside it (R54; DESIGN
CHOICE, log entry 55). -/
def groupSum (ps : List Num) : Num × Flags :=
  if ps.any Num.isNan then (.nan false, 0)
  else
    let pos := ps.any fun p => p.isInf && !p.sign
    let neg := ps.any fun p => p.isInf && p.sign
    if pos && neg then (.nan false, fNV)
    else if pos then (.inf false, 0)
    else if neg then (.inf true, 0)
    else
      let s := ps.foldl (fun acc p => acc.add p.real) (Frac.ofInt 0)
      (.ofReal (ps.all fun p => p.isZero && p.sign) s, 0)

/-- The sum over the groups of four, one rounding to FP32 for each (R54). -/
def dotFloat : Nat → List (Num × Num) → Flags → Nat × Flags
  | acc, [], f => (acc, f)
  | acc, p :: rest, f =>
    go acc ((p :: rest).length) (p :: rest) f
where
  /-- group after group, by fuel -/
  go (acc : Nat) : Nat → List (Num × Num) → Flags → Nat × Flags
    | _, [], f => (acc, f)
    | 0, _, f => (acc, f)
    | n + 1, l, f =>
      let g := (l.take 4).map fun e => groupProduct e.1 e.2
      let (s, f1) := groupSum (g.map (·.1))
      let (a, f2) := addNum 1 0 (decodeFloat 1 acc) s
      go a n (l.drop 4) (f ||| g.foldl (fun x e => x ||| e.2) 0 ||| f1 ||| f2)

/-- An I8 dot product into an I32 accumulator (R55). -/
def dotInt (acc : Nat) (l : List (Num × Num)) : Nat :=
  wrapInt 6 (l.foldl (fun s e => s + e.1.real.num * e.2.real.num) (decodeInt 6 acc))

/-- The product's elements, and the flags NV and OF (R229). -/
def Eng.product (e : Eng) : SMap (BitVec 32) × Flags :=
  let as := (List.range e.tm).map e.aRow
  let bs := (List.range e.tn).map e.bRow
  let cells := (List.range (e.tm * e.tn)).map fun n =>
    let l := (as.getD (n / e.tn) []).zip (bs.getD (n % e.tn) [])
    let a := if e.zero then 0 else (SMap.get 0 e.acc n).toNat
    if e.ty = 1 then (n, dotInt a l, (0 : Flags))
    else
      let r := dotFloat a l 0
      (n, r.1, r.2)
  (cells.filterMap fun x => if x.2.1 = 0 then none else some (x.1, BitVec.ofNat 32 x.2.1),
   (cells.foldl (fun f x => f ||| x.2.2) 0) &&& (fNV ||| fOF))

/-- A verdict is indeterminate (R61). -/
def Eng.indeterminate (e : Eng) (d : SMap (BitVec 32)) : Bool :=
  e.ty = 0 &&
    ((List.range e.tm).any (fun i => (e.aRow i).any fun x => x.isNan || x.isInf) ||
     (List.range e.tn).any (fun j => (e.bRow j).any fun x => x.isNan || x.isInf) ||
     d.any fun x => (decodeFloat 1 x.2.toNat).isInf)

/-! Tiles and local rows. -/

/-- The pairs that TLOAD admits (R225): format and tile type. -/
def tloadOk (f ty : Nat) : Bool := if ty = 0 then fmtF f || f == 11 else fmtI f

/-- The pairs that TSTORE admits (R226). -/
def tstoreOk (f ty : Nat) : Bool := tloadOk f ty

/-- The elements that TLOAD gives a tile: `per` local rows of format `f` for each tile row (R225). -/
def tileFromRows (t : Tile) (f per : Nat) (buf : List Byte) : SMap (BitVec 32) × Flags :=
  let w := fmtWidth f
  let cells := (List.range t.rows).flatMap fun i =>
    let xs := elemsFrom (buf.drop (256 * per * i)) w 0 t.cols
    (List.range t.cols).map fun j =>
      let b := xs.getD j 0
      let r := if t.ty = 0 then convert 1 f 0 b else (wrapInt 6 (decodeInt f b), (0 : Flags))
      (i * t.cols + j, BitVec.ofNat 32 r.1, r.2)
  (cells.filterMap fun x => if x.2.1 = 0 then none else some (x.1, x.2.1), (cells.foldl (fun g x => g ||| x.2.2) 0) &&& fNV)

/-- An element of a tile in a store format (R226): rounding, or wrapping or saturation, by M. -/
def tileElem (ty f m bits : Nat) : Nat × Flags :=
  if ty = 0 then convert f 1 m bits else narrowInt f m (decodeInt 6 bits)

/-- The local rows that TSTORE writes: address and bytes, and the flags OF, NV, SAT and NAR (R226). -/
def tileRows (t : Tile) (a : VMem) (m per : Nat) : List (Nat × List Byte) × Flags :=
  let w := fmtWidth a.fmt
  let rows := (List.range t.rows).map fun i =>
    let rs := (List.range t.cols).map fun j => tileElem t.ty a.fmt m (SMap.get 0 t.elems (i * t.cols + j)).toNat
    (rs.flatMap fun r => leBytes w r.1, rs.foldl (fun g r => g ||| r.2) 0)
  (rows.zipIdx.flatMap fun x =>
     (List.range per).map fun p => ((a.base + x.2 * a.stride + 256 * p) % 2 ^ 24, (x.1.1.drop (256 * p)).take 256),
   (rows.foldl (fun g r => g ||| r.2) 0) &&& (fOF ||| fNV ||| fSAT ||| fNAR))

/-! Quantisation (R59, R233). -/

/-- One block: its scale and its codes. -/
def quantBlock (xs : List Num) : Nat × List Nat × Flags :=
  let big := xs.foldl (fun b x => match x with
    | .fin _ m => if b.lt m then m else b
    | _ => b) (Frac.ofInt 0)
  let anyInf := xs.any Num.isInf
  let sc := if anyInf then 254 * 4096 + 4095 else chooseScale big
  match scaleValue sc with
  | none => (sc, [], 0)
  | some v =>
    let rs := xs.map fun x =>
      match x with
      | .nan _ | .nar => (0x80, fNAR)
      | .inf n => encodeDm8 0 (.inf n)
      | .fin _ _ => if v.isZero then (0, 0) else encodeDm8 0 (.ofReal false (x.real.div v))
    (sc, rs.map (·.1), (rs.foldl (fun f r => f ||| r.2) 0) &&& (fSAT ||| fNAR))

/-- The rows that QSTAGE writes: element rows, then scale rows (R233). -/
def quantRows (t : Tile) (l aBase aStride sBase : Nat) : List (Nat × List Byte) × Nat × Flags :=
  let nb := t.cols / l
  let blocks := (List.range (t.rows * nb)).map fun n =>
    quantBlock ((List.range l).map fun j => decodeFloat 1 (SMap.get 0 t.elems (n / nb * t.cols + n % nb * l + j)).toNat)
  let erows := (List.range t.rows).map fun i =>
    ((aBase + i * aStride) % 2 ^ 24, ((blocks.drop (i * nb)).take nb).flatMap fun b => b.2.1.map (BitVec.ofNat 8))
  let words := (List.range ((blocks.length + 2) / 3)).map fun g =>
    (List.range 3).foldl (fun acc x => acc + (match blocks[3 * g + x]? with | some b => b.1 * 2 ^ (20 * x) | none => 0)) 0
  let bytes := words.flatMap (leBytes 8)
  let ns := spanRows bytes.length 1
  let srows := (List.range ns).map fun k => ((sBase + 256 * k) % 2 ^ 24, (bytes.drop (256 * k)).take 256)
  (erows ++ srows, ns, blocks.foldl (fun f b => f ||| b.2.2) 0)

end Sys2Proof.Machine
end

