-- ==== Sys2Proof/Machine/Structure.lean ====
section
/-! DEFINITION. The structures that a personality bank holds in its own bytes: queue, stack, map, heap and histogram (R178,
R179, R274, R286 to R294). -/

namespace Sys2Proof.Machine

/-- A structure's place: first bank, number of banks and personality code. -/
structure Span where
  first : Nat
  count : Nat
  pers : Nat
  deriving DecidableEq, Repr

/-- What an operation at a bank gives: the bytes after it, a status and a value. -/
structure BankResult where
  mem : Memory
  status : Nat := 0
  value : Nat := 0
  deriving DecidableEq, Repr

def Core.spanOf (k : Core) (b : Nat) : Span := { first := k.spanFirst b, count := k.spanCount b, pers := (k.bank b).pers }

def get64 (m : Memory) (a : Nat) : Nat := leNat (memRead m a 8)
def put64 (m : Memory) (a v : Nat) : Memory := memWrite m a (leBytes 8 v)
def get32 (m : Memory) (a : Nat) : Nat := leNat (memRead m a 4)
def put32 (m : Memory) (a v : Nat) : Memory := memWrite m a (leBytes 4 v)

/-! The header (R287, R288). -/

def Span.base (sp : Span) : Nat := sp.first * 65536
def Span.h0 (sp : Span) (m : Memory) : Nat := get64 m sp.base
def Span.h1 (sp : Span) (m : Memory) : Nat := get64 m (sp.base + 8)
def Span.count_ (sp : Span) (m : Memory) : Nat := sp.h0 m % 2 ^ 20
def Span.limit (sp : Span) (m : Memory) : Nat := sp.h0 m / 2 ^ 20 % 2 ^ 20
def headerWord (pers limit count : Nat) : Nat := 0x5B4B * 2 ^ 48 + pers * 2 ^ 45 + limit * 2 ^ 20 + count
/-- Write COUNT and keep the rest of word 0. -/
def Span.setCount (sp : Span) (m : Memory) (n : Nat) : Memory :=
  let h := sp.h0 m
  put64 m sp.base (h - h % 2 ^ 20 + n % 2 ^ 20)

/-- Capacity of one bank (R286). -/
def bankCapacity (pers : Nat) : Nat :=
  match pers with
  | 1 | 2 | 4 => 8160
  | 3 => 4096
  | 5 => 16320
  | _ => 0

/-- Byte address of 8-byte slot x of a striped structure (R286, R289). -/
def Span.slot8 (sp : Span) (x : Nat) : Nat :=
  let y := x / sp.count
  (sp.first + x % sp.count) * 65536 + (1 + y / 32) * 256 + 8 * (y % 32)

/-! Queue (R290). -/

structure Ring where
  head : Nat
  tail : Nat
  pad : Nat
  deriving DecidableEq, Repr

def noPad : Nat := 0x1FFFF
def ringOf (h1 : Nat) : Ring := { head := h1 / 2 ^ 34 % 2 ^ 17, tail := h1 / 2 ^ 17 % 2 ^ 17, pad := h1 % 2 ^ 17 }
def ringWord (r : Ring) : Nat := r.head * 2 ^ 34 + r.tail * 2 ^ 17 + r.pad

/-- Write words to slots from `t` on. -/
def Span.putWords (sp : Span) (m : Memory) (t : Nat) : List Word → Memory
  | [] => m
  | v :: rest => Span.putWords sp (put64 m (sp.slot8 t) v.toNat) (t + 1) rest

/-- Append a message whole, or refuse it (R290). -/
def Span.append (sp : Span) (m : Memory) (ws : List Word) : BankResult :=
  let l := sp.limit m
  let cnt := sp.count_ m
  let r := ringOf (sp.h1 m)
  let n := ws.length
  let padding : Int := if r.pad = noPad then 0 else (l : Int) - r.pad
  let used : Int := cnt + padding
  if l < n || l < used + n then { mem := m, status := 1 }
  else if r.tail + n ≤ l then
    let m := sp.putWords m r.tail ws
    let m := put64 m (sp.base + 8) (ringWord { r with tail := (r.tail + n) % l })
    { mem := sp.setCount m (cnt + n) }
  else if (l : Int) < used + ((l : Int) - r.tail) + n then { mem := m, status := 1 }
  else
    let m := sp.putWords m r.tail (List.replicate (l - r.tail) 0)
    let m := sp.putWords m 0 ws
    let m := put64 m (sp.base + 8) (ringWord { r with pad := r.tail, tail := n })
    { mem := sp.setCount m (cnt + n) }

/-- Remove or read the word at HEAD (R290). -/
def Span.remove (sp : Span) (m : Memory) (peek : Bool) : BankResult :=
  let cnt := sp.count_ m
  let r := ringOf (sp.h1 m)
  if cnt = 0 then { mem := m, status := 2 }
  else
    let v := get64 m (sp.slot8 r.head)
    if peek then { mem := m, value := v }
    else
      let r := { r with head := r.head + 1 }
      let r := if r.head = r.pad || r.head = sp.limit m then { r with head := 0, pad := noPad } else r
      let r := if cnt = 1 then { head := 0, tail := 0, pad := noPad } else r
      { mem := sp.setCount (put64 m (sp.base + 8) (ringWord r)) (cnt - 1), value := v }

/-! Stack: slots 0 to COUNT − 1. -/

def Span.push (sp : Span) (m : Memory) (v : Word) : BankResult :=
  let cnt := sp.count_ m
  if sp.limit m ≤ cnt then { mem := m, status := 1 }
  else { mem := sp.setCount (put64 m (sp.slot8 cnt) v.toNat) (cnt + 1) }

def Span.pop (sp : Span) (m : Memory) (peek : Bool) : BankResult :=
  let cnt := sp.count_ m
  if cnt = 0 then { mem := m, status := 2 }
  else
    let v := get64 m (sp.slot8 (cnt - 1))
    if peek then { mem := m, value := v } else { mem := sp.setCount m (cnt - 1), value := v }

/-! Map (R291). -/

def mapHash (key : Nat) : Nat := key * 0x9E3779B1 % 2 ^ 32
def mapHome (key : Nat) : Nat := mapHash key / 2 ^ 20
def Span.mapBank (sp : Span) (key : Nat) : Nat := sp.first + mapHash key / 2 ^ 16 % sp.count
def mapSlot (bank s : Nat) : Nat := bank * 65536 + (128 + s / 32) * 256 + 8 * (s % 32)
def mapOcc (m : Memory) (bank s : Nat) : Bool := (memByte m (bank * 65536 + 256 + s / 8)).getLsbD (s % 8)
def mapSetOcc (m : Memory) (bank s : Nat) (v : Bool) : Memory :=
  let a := bank * 65536 + 256 + s / 8
  let b := memByte m a
  let bit : Byte := (1 : Byte) <<< (s % 8)
  memWrite m a [if v then b ||| bit else b &&& ~~~bit]

/-- What a probe finds. -/
inductive Probe where
  | found (s : Nat)
  | absent (free : Option Nat)
  deriving DecidableEq, Repr

def mapProbe (m : Memory) (bank key : Nat) : Nat → Nat → Probe
  | 0, _ => .absent none
  | fuel + 1, s =>
    if mapOcc m bank s then
      if get64 m (mapSlot bank s) / 2 ^ 32 = key then .found s else mapProbe m bank key fuel ((s + 1) % 4096)
    else .absent (some s)

/-- Look a key up: the slot that holds it. -/
def Span.mapFind (sp : Span) (m : Memory) (key : Nat) : Probe := mapProbe m (sp.mapBank key) key 4096 (mapHome key)

/-- Close the gap that a removal at slot i leaves (R291). The first argument bounds the slots looked at: every key that moves comes nearer its home,
and 4,096 keys are less than 4,096 slots from theirs. -/
def mapClose (m : Memory) (bank : Nat) : Nat → Nat → Nat → Memory
  | 0, _, _ => m
  | fuel + 1, i, j =>
    if mapOcc m bank j then
      let h := mapHome (get64 m (mapSlot bank j) / 2 ^ 32)
      if (j + 4096 - i) % 4096 ≤ (j + 4096 - h) % 4096 then
        let m := put64 m (mapSlot bank i) (get64 m (mapSlot bank j))
        let m := mapSetOcc (mapSetOcc m bank i true) bank j false
        mapClose m bank fuel j ((j + 1) % 4096)
      else mapClose m bank fuel i ((j + 1) % 4096)
    else m

def Span.mapRemoveAt (sp : Span) (m : Memory) (bank s : Nat) : Memory :=
  let m := mapSetOcc m bank s false
  sp.setCount (mapClose m bank (2 ^ 36) s ((s + 1) % 4096)) (sp.count_ m - 1)

/-- Insert a key that is absent, or refuse (R291). -/
def Span.mapInsert (sp : Span) (m : Memory) (key val : Nat) (free : Option Nat) : Option Memory :=
  match free with
  | some s =>
    if sp.limit m ≤ sp.count_ m then none
    else
      let bank := sp.mapBank key
      let cnt := sp.count_ m
      some (sp.setCount (mapSetOcc (put64 m (mapSlot bank s) (key * 2 ^ 32 + val)) bank s true) (cnt + 1))
  | none => none

/-- Put or add (R178, R179). -/
def Span.mapStore (sp : Span) (m : Memory) (add : Bool) (datum : Nat) : BankResult :=
  let key := datum / 2 ^ 32 % 2 ^ 32
  let val := datum % 2 ^ 32
  match sp.mapFind m key with
  | .found s =>
    let a := mapSlot (sp.mapBank key) s
    let v := if add then (get64 m a + val) % 2 ^ 32 else val
    { mem := put64 m a (key * 2 ^ 32 + v), status := 4 }
  | .absent free =>
    match sp.mapInsert m key val free with
    | some m => { mem := m, status := 3 }
    | none => { mem := m, status := 1 }

def Span.mapLoad (sp : Span) (m : Memory) (key : Nat) (peek : Bool) : BankResult :=
  match sp.mapFind m key with
  | .found s =>
    let bank := sp.mapBank key
    let v := get64 m (mapSlot bank s)
    { mem := if peek then m else sp.mapRemoveAt m bank s, value := v }
  | .absent _ => { mem := m, status := 5 }

/-! Heap (R292): one binary min-heap in each bank, BCNT in word 1 of its row 0. -/

def heapSlot (bank s : Nat) : Nat := bank * 65536 + (1 + s / 32) * 256 + 8 * (s % 32)
def heapCnt (m : Memory) (bank : Nat) : Nat := get64 m (bank * 65536 + 8) % 2 ^ 13
def heapSetCnt (m : Memory) (bank n : Nat) : Memory :=
  let h := get64 m (bank * 65536 + 8)
  put64 m (bank * 65536 + 8) (h - h % 2 ^ 13 + n % 2 ^ 13)

def heapUp (m : Memory) (bank : Nat) : Nat → Nat → Memory
  | 0, _ => m
  | fuel + 1, s =>
    if s = 0 then m
    else
      let p := (s - 1) / 2
      let x := get64 m (heapSlot bank s)
      let y := get64 m (heapSlot bank p)
      if x < y then heapUp (put64 (put64 m (heapSlot bank s) y) (heapSlot bank p) x) bank fuel p else m

def heapDown (m : Memory) (bank n : Nat) : Nat → Nat → Memory
  | 0, _ => m
  | fuel + 1, s =>
    let l := 2 * s + 1
    if n ≤ l then m
    else
      let c := if l + 1 < n && get64 m (heapSlot bank (l + 1)) < get64 m (heapSlot bank l) then l + 1 else l
      let x := get64 m (heapSlot bank s)
      let y := get64 m (heapSlot bank c)
      if y < x then heapDown (put64 (put64 m (heapSlot bank s) y) (heapSlot bank c) x) bank n fuel c else m

/-- The bank of the span whose key is least, the lowest number on a tie. -/
def leastBank (key : Nat → Nat) : List Nat → Nat → Nat
  | [], best => best
  | b :: rest, best => leastBank key rest (if key b < key best then b else best)

def Span.banks (sp : Span) : List Nat := (List.range sp.count).map (sp.first + ·)

def Span.heapInsert (sp : Span) (m : Memory) (v : Word) : BankResult :=
  let cnt := sp.count_ m
  if sp.limit m ≤ cnt then { mem := m, status := 1 }
  else
    let bank := leastBank (heapCnt m) sp.banks sp.first
    let n := heapCnt m bank
    if 8160 ≤ n then { mem := m, status := 1 }
    else
      let m := heapUp (put64 m (heapSlot bank n) v.toNat) bank 14 n
      { mem := sp.setCount (heapSetCnt m bank (n + 1)) (cnt + 1) }

def Span.heapLoad (sp : Span) (m : Memory) (peek : Bool) : BankResult :=
  let cnt := sp.count_ m
  let key (b : Nat) : Nat := if heapCnt m b = 0 then 2 ^ 64 else get64 m (heapSlot b 0)
  let bank := leastBank key sp.banks sp.first
  if cnt = 0 || heapCnt m bank = 0 then { mem := m, status := 2 }
  else
    let v := get64 m (heapSlot bank 0)
    if peek then { mem := m, value := v }
    else
      let n := heapCnt m bank - 1
      let m := put64 m (heapSlot bank 0) (get64 m (heapSlot bank n))
      let m := heapDown (heapSetCnt m bank n) bank n 14 0
      { mem := sp.setCount m (cnt - 1), value := v }

/-! Histogram (R178, R289). -/

def Span.bucket (sp : Span) (b : Nat) : Nat :=
  let y := b / sp.count
  (sp.first + b % sp.count) * 65536 + (1 + y / 64) * 256 + 4 * (y % 64)

/-- Store a count; COUNT moves when the bucket moves between zero and nonzero (R292). -/
def Span.setBucket (sp : Span) (m : Memory) (b v : Nat) : Memory :=
  let a := sp.bucket b
  let old := get32 m a
  let cnt := sp.count_ m
  let cnt := if old = 0 && v != 0 then cnt + 1 else if old != 0 && v = 0 then cnt - 1 else cnt
  sp.setCount (put32 m a v) cnt

/-- Add to a bucket, saturating at 2^32 − 1; none for a bucket not below LIMIT. -/
def Span.bucketAdd (sp : Span) (m : Memory) (b v : Nat) : Option Memory :=
  if sp.limit m ≤ b then none else some (sp.setBucket m b (min (2 ^ 32 - 1) (get32 m (sp.bucket b) + v)))

def Span.bucketLoad (sp : Span) (m : Memory) (b : Nat) (clear : Bool) : BankResult :=
  if sp.limit m ≤ b then { mem := m, status := 6 }
  else
    let v := get32 m (sp.bucket b)
    { mem := if clear then sp.setBucket m b 0 else m, value := v }

/-- One row of VHISTO: an addition for each bucket; how many were dropped (R213). -/
def Span.bucketRow (sp : Span) (inc : Nat) : Memory → Nat → List Nat → Memory × Nat
  | m, d, [] => (m, d)
  | m, d, b :: rest =>
    match sp.bucketAdd m b inc with
    | some m => Span.bucketRow sp inc m d rest
    | none => Span.bucketRow sp inc m (d + 1) rest

/-! The operations of LDL and STL (R178, R179). -/

def Span.load (sp : Span) (m : Memory) (mode : Nat) (key : Nat) : BankResult :=
  match sp.pers with
  | 1 => sp.remove m (mode == 1)
  | 2 => sp.pop m (mode == 1)
  | 3 => sp.mapLoad m (key % 2 ^ 32) (mode == 3)
  | 4 => sp.heapLoad m (mode == 3)
  | 5 => sp.bucketLoad m (key % 2 ^ 32) (mode == 2)
  | _ => { mem := m }

def Span.store (sp : Span) (m : Memory) (mode : Nat) (datum : Word) : BankResult :=
  match sp.pers with
  | 1 => sp.append m [datum]
  | 2 => sp.push m datum
  | 3 => sp.mapStore m (mode == 3) datum.toNat
  | 4 => sp.heapInsert m datum
  | 5 =>
    match sp.bucketAdd m (datum.toNat / 2 ^ 32) (datum.toNat % 2 ^ 32) with
    | some m => { mem := m }
    | none => { mem := m, status := 6 }
  | _ => { mem := m }

/-! Dependence maps (R274, R288). -/

/-- The ready queue that a map's header names: its bank, if RQV is set. -/
def Span.readyQueue (sp : Span) (m : Memory) : Option Nat :=
  let h := sp.h1 m
  if h / 16 % 2 = 1 then some (h % 16) else none

/-- TKPOST at a map: bytes, and a status or the error 0x185 of a key that cannot be readied (R274, R291). `queue` is the span
that a bank number names. -/
def Span.taskPost (sp : Span) (queue : Nat → Span) (m : Memory) (key : Nat) (delta : Int) : Except Nat BankResult :=
  if sp.pers != 3 then .error 0x185
  else
    let key := key % 2 ^ 32
    let found := sp.mapFind m key
    let old : Int := match found with
      | .found s => (BitVec.ofNat 32 (get64 m (mapSlot (sp.mapBank key) s))).toInt
      | .absent _ => 0
    let v := BitVec.ofInt 32 (old + delta)
    if v = 0 then
      match sp.readyQueue m with
      | none => .error 0x185
      | some q =>
        let qs := queue q
        if qs.pers != 1 then .error 0x185
        else
          let r := qs.append m [BitVec.ofNat 64 key]
          if r.status = 1 then .ok { mem := m, status := 1 }
          else
            let m := match found with
              | .found s => sp.mapRemoveAt r.mem (sp.mapBank key) s
              | .absent _ => r.mem
            .ok { mem := m, status := 7 }
    else
      match found with
      | .found s => .ok { mem := put64 m (mapSlot (sp.mapBank key) s) (key * 2 ^ 32 + v.toNat) }
      | .absent free =>
        match sp.mapInsert m key v.toNat free with
        | some m => .ok { mem := m, status := 3 }
        | none => .ok { mem := m, status := 1 }

/-! BPERS (R180, R293, R294). -/

/-- Every byte of the span becomes zero. -/
def Span.clear (sp : Span) (m : Memory) : Memory :=
  m.filter fun e => !(sp.first * 65536 ≤ e.1 && e.1 < (sp.first + sp.count) * 65536)

/-- Write an empty header (R293). -/
def Span.format (sp : Span) (m : Memory) (pers : Nat) (b : Word) : Memory :=
  let limit := b.toNat % 2 ^ 20
  let limit := if limit = 0 then bankCapacity pers * sp.count else limit
  let m := put64 (sp.clear m) sp.base (headerWord pers limit 0)
  match pers with
  | 1 => put64 m (sp.base + 8) (ringWord { head := 0, tail := 0, pad := noPad })
  | 3 => put64 m (sp.base + 8) ((if b.getLsbD 24 then 16 else 0) + (b.toNat / 2 ^ 20 % 16))
  | _ => m

/-- Set bits of a map's occupancy bitmaps, and nonzero buckets of a histogram: what an adopt recounts. -/
def Span.recount (sp : Span) (m : Memory) (pers limit : Nat) : Nat :=
  match pers with
  | 3 => (sp.banks.map fun b => ((List.range 4096).filter fun s => mapOcc m b s).length).sum
  | 5 => ((List.range limit).filter fun b => get32 m (sp.bucket b) != 0).length
  | _ => sp.count_ m

/-- The header is valid for an adopt as `pers` with the limit of B; row 0 of a span's other banks is reserved too (R286, R294). -/
def Span.adoptOk (sp : Span) (m : Memory) (pers : Nat) (b : Word) : Bool :=
  let h0 := sp.h0 m
  let h1 := sp.h1 m
  let limit := sp.limit m
  let cap := bankCapacity pers * sp.count
  let cnt := sp.recount m pers limit
  let asked := b.toNat % 2 ^ 20
  let r := ringOf h1
  h0 / 2 ^ 48 == 0x5B4B && h0 / 2 ^ 45 % 8 == pers && h0 / 2 ^ 40 % 32 == 0 &&
  (sp.banks.all fun j => (memRead m (j * 65536 + 16) 240).all (· == 0) && (j == sp.first || get64 m (j * 65536) == 0)) &&
  (match pers with
   | 1 => h1 / 2 ^ 51 == 0
   | 3 => h1 / 32 == 0
   | 4 => sp.banks.all fun j => get64 m (j * 65536 + 8) / 2 ^ 13 == 0
   | _ => h1 == 0) &&
  (pers == 4 || sp.banks.all fun j => j == sp.first || get64 m (j * 65536 + 8) == 0) &&
  limit != 0 && decide (limit ≤ cap) && decide (sp.count_ m ≤ limit) && decide (cnt ≤ limit) &&
  (pers != 1 ||
    (decide (r.head < limit) && decide (r.tail < limit) && (r.pad == noPad || decide (r.head < r.pad)) &&
      (r.tail : Int) == ((r.head + sp.count_ m : Int) + (if r.pad = noPad then 0 else (limit : Int) - r.pad)) % limit)) &&
  (pers != 4 || (sp.banks.map (heapCnt m)).sum == sp.count_ m) &&
  (pers != 3 || h1 / 16 % 2 == 0 || !(sp.banks.contains (h1 % 16))) &&
  (asked == 0 || (decide (cnt ≤ asked) && (pers != 1 || asked == limit)))

/-- An adopt keeps the contents; COUNT is recounted where R293 says so and a limit of B replaces LIMIT. -/
def Span.adopt (sp : Span) (m : Memory) (pers : Nat) (b : Word) : Memory :=
  let asked := b.toNat % 2 ^ 20
  let limit := if asked = 0 then sp.limit m else asked
  put64 m sp.base (headerWord pers limit (sp.recount m pers (sp.limit m)))

/-- Cycles at the bank (R293). -/
def changeCycles (pers mode : Nat) : Nat :=
  if mode = 0 then 257
  else if pers = 0 then 1
  else if pers = 3 || pers = 5 then 257 else 2

/-- The status word of BSTAT (R183). -/
def Span.statusWord (sp : Span) (m : Memory) (span : Nat) (chg : Bool) : Nat :=
  (if sp.pers = 0 then 0 else sp.count_ m * 2 ^ 40 + sp.limit m * 2 ^ 20) + sp.first * 2 ^ 16 + span * 2 ^ 13 +
    (if chg then 8 else 0) + sp.pers

end Sys2Proof.Machine
end

