-- ==== Sys2Proof/Machine/Rows.lean ====
section
/-! DEFINITION. Which rows of local and shared memory a word in progress still reads and still writes (R190, R227), and what holds a later
word of its thread for their sake: the row part of the scoreboard (R410), a bank that is changing (R181), replays (R393, R394). -/

namespace Sys2Proof.Machine

/-! The steps of an instruction in progress. -/

/-- The address that destination row `j` is written to; none where no local row is written. -/
def VecOp.outAddr (v : VecOp) (j : Nat) : Option Nat :=
  match v.rows[j]? with
  | some r => some r.1
  | none => v.a.map fun m => m.row j

/-- A number for the bank of an address: 0 to 15 local, 16 to 79 shared. -/
def bankId (a : Nat) : Nat := if isShared a then 16 + sharedBankOf a else bankOf a

/-- Rows that an operand spans. -/
def VMem.span (m : VMem) (vl : Nat) : Nat := spanRows vl (fmtWidth m.fmt)

/-- A is read as well as written. -/
def VCode.readsA : VCode → Bool
  | .vfma | .vsel => true
  | _ => false

/-- Instructions that read all their sources before they write (R206, R208, R209), or write no row. -/
def VCode.twoPhase : VCode → Bool
  | .vperm | .vcomp | .vexpn | .vpack | .vunpk | .vsum | .vrmax | .vrmin | .vcount | .vhisto
  | .tload | .tstore | .qstage | .bkld | .bsnap => true
  | _ => false

/-- Row accesses that are no vector instruction's: they compare no armed tag (R265) and do not move ROT (R392). -/
def VCode.engine : VCode → Bool
  | .tload | .tstore | .qstage | .bkld | .bsnap => true
  | _ => false

/-- The row of source B that step `k` reads (R190, R200). -/
def VecOp.bRow (v : VecOp) (k : Nat) : Option Nat :=
  match v.b with
  | none => none
  | some m =>
    let wa := fmtWidth v.fmtA
    let wb := fmtWidth m.fmt
    if v.code == .vunpk || v.code == .tload || v.code == .bkld then some k
    else if v.code.twoPhase || wa ≤ wb then (if k < m.span v.vl then some k else none)
    else
      let r := wa / wb
      if k % r = 0 ∧ k / r < m.span v.vl then some (k / r) else none

/-- The destination row that step `k` completes (R190, R200). -/
def VecOp.aRow (v : VecOp) (k : Nat) : Option Nat :=
  match v.a with
  | none => none
  | some _ =>
    if v.code.twoPhase then none
    else
      match v.b with
      | none => some k
      | some m =>
        let wa := fmtWidth v.fmtA
        let wb := fmtWidth m.fmt
        if wb ≤ wa then some k
        else
          let r := wb / wa
          if (k + 1) % r = 0 ∨ k + 1 = m.span v.vl then some (k / r) else none

/-- Address of local row `j` of a memory operand: tile rows span `per` local rows (R225). -/
def VecOp.addr (v : VecOp) (m : VMem) (j : Nat) : Nat :=
  if v.per ≤ 1 then m.row j else (m.base + j / v.per * m.stride + j % v.per * 256) % 2 ^ 24

/-- The rows of step `k`, in the order in which rows of one bank are read: B, C, then A. Each has a number for its operand (0 A,
1 B, 2 C), its address, and whether it is read. -/
def VecOp.stepRows (v : VecOp) (k : Nat) : List (Nat × Nat × Bool) :=
  let b := match v.b, v.bRow k with | some m, some j => [(1, v.addr m j, true)] | _, _ => []
  let c := match v.c with | some m => if k < m.span v.vl then [(2, m.row k, true)] else [] | none => []
  let a :=
    match v.a with
    | none => []
    | some m =>
      if v.code.readsA then [(0, m.row k, true)]
      else match v.aRow k with | some j => [(0, m.row j, false)] | none => []
  b ++ c ++ a

/-- How many entries of a list precede and share the bank. -/
def rankIn (l : List (Nat × Nat × Bool)) : List (Nat × (Nat × Nat × Bool)) :=
  go [] l
where
  /-- pair each entry with its rank -/
  go (seen : List Nat) : List (Nat × Nat × Bool) → List (Nat × (Nat × Nat × Bool))
    | [] => []
    | x :: rest => ((seen.filter (· == bankId x.2.1)).length, x) :: go (bankId x.2.1 :: seen) rest

/-- s of R190: the most operands of one step that share a bank. -/
def VecOp.stalls (v : VecOp) : Nat :=
  (List.range v.ns).foldl (fun s k => (rankIn (v.stepRows k)).foldl (fun s e => max s (e.1 + 1)) s) 1

/-- The rows that are read on the next read cycle and have not been read on it yet: operand and address. -/
def VecOp.readsNow (v : VecOp) : List (Nat × Nat) :=
  (rankIn (v.stepRows v.step)).filterMap fun e =>
    if e.1 = v.sub ∧ e.2.2.2 ∧ !v.got.contains e.2.1 then some (e.2.1, e.2.2.1) else none

/-- The rows that are read and those that are written on cycle `t`: operand and address, and address. -/
def VecOp.readsOn (v : VecOp) (t : Nat) : List (Nat × Nat) := if v.step < v.ns && v.phase != 1 && v.next = t then v.readsNow else []
def VecOp.writesOn (v : VecOp) (t : Nat) : List Nat := (v.out.filter fun e => e.1 == t).filterMap fun e => v.outAddr e.2
def VecOp.rowsOn (v : VecOp) (t : Nat) : List Nat := v.writesOn t ++ (v.readsOn t).map (·.2)

/-! Products in progress. -/

/-- Every row of the operands that is known at issue. -/
def Eng.knownRows (e : Eng) : List Nat :=
  e.aMeta ++ e.bMeta ++ e.aVal ++ e.bVal ++ (if e.gather then Eng.dense e.iBase (spanRows (2 * e.tm) 1) else [])

/-- The rows that a product reads on this cycle: operand (0 A, 1 B) and address. -/
def Eng.readsNow (e : Eng) : List (Nat × Nat) :=
  let (a, b) := e.phaseRows
  let st := e.phaseStall
  let r := e.slot / st
  let sub := e.slot % st
  (if sub = 0 then (a[r]?.toList.map fun x => (0, x)) else []) ++ (if sub = st - 1 then (b[r]?.toList.map fun x => (1, x)) else [])

/-! The rows that are still to come. -/

/-- Destination rows that a vector instruction has not written yet: those that are due, and those of the steps that it still reads. Where
their number depends on data that it has not read, every row that it could reach. -/
def VecOp.rowsToWrite (v : VecOp) : List Nat :=
  let due := v.out.filterMap fun e => v.outAddr e.2
  match v.a with
  | none => due
  | some m =>
    if v.code == .vhisto then []
    else if v.code == .vpack || v.code == .vunpk then (if v.phase = 2 then due else (List.range m.rows).map m.row)
    else if v.code.twoPhase then (if v.step < v.ns then (List.range m.rows).map m.row else due)
    else due ++ (List.range (v.ns - v.step)).filterMap fun i => (v.aRow (v.step + i)).map m.row

/-- Source rows that a vector instruction has not read yet. -/
def VecOp.rowsToRead (v : VecOp) : List Nat :=
  (List.range (v.ns - v.step)).flatMap fun i =>
    (rankIn (v.stepRows (v.step + i))).filterMap fun e => if e.2.2.2 && (i != 0 || decide (v.sub < e.1) || (v.sub == e.1 && !v.got.contains e.2.1)) then some e.2.2.1 else none

/-- Operand rows that a product has not read yet. -/
def Eng.rowsToRead (e : Eng) : List Nat :=
  if e.kind != .product then []
  else if !e.started then e.knownRows ++ (if e.gather then e.gatherRows.drop e.gslot else [])
  else if 3 ≤ e.phase then []
  else
    let (a, b) := e.phaseRows
    let st := e.phaseStall
    a.drop ((e.slot + st - 1) / st) ++ b.drop (e.slot / st) ++ (if e.phase = 1 then e.aVal ++ e.bVal else [])

/-- Rows that a quantiser operation which has not started will write (R233). -/
def Core.quantRowsOf (k : Core) (e : Eng) : List Nat :=
  if e.kind != .quant then []
  else
    let t := SMap.get {} k.tiles e.tile
    Eng.valueRows e.aBase e.aStride t.rows 1 ++ Eng.dense e.bBase (spanRows ((t.rows * (t.cols / max 1 e.arg) + 2) / 3) 8)

/-- The rows, as multiples of 256, that a range touches. -/
def rangeRows (a n : Nat) : List Nat := if n = 0 then [] else (List.range ((a + n - 1) / 256 - a / 256 + 1)).map fun i => (a / 256 + i) * 256

/-- Rows that earlier words of a thread still write: what is under way in vector instructions, the quantiser and snapshots, and what
ends on this cycle or later (R71). -/
def State.rowsToWrite (s : State) (c t : Nat) : List Nat :=
  let k := s.coreAt c
  let pend := (k.pend ++ (s.clusterAt (clusterOf c)).pend).filter fun w => w.core == c && w.who == requester t && decide (s.now ≤ w.endC)
  (k.vecs.filter fun v => v.2.thr == t).flatMap (fun v => v.2.rowsToWrite) ++
    (if t = 0 then k.engs.flatMap fun e => if e.2.lent.isNone then k.quantRowsOf e.2 else [] else []) ++
    (k.reqs.flatMap fun r => match r.2.op with | .snap d => if r.2.thr = t then rangeRows d (4 * (k.spanOf r.2.bank).limit k.mem) else [] | _ => []) ++
    pend.flatMap fun w => rangeRows w.addr w.data.length

/-- Rows that earlier words of a thread still read. -/
def State.rowsToRead (s : State) (c t : Nat) : List Nat :=
  let k := s.coreAt c
  (k.vecs.filter fun v => v.2.thr == t).flatMap (fun v => v.2.rowsToRead) ++
    (if t = 0 then k.engs.flatMap fun e => if e.2.lent.isNone then e.2.rowsToRead else [] else []) ++
    (k.thread t).flight.flatMap fun f => match f.sample with | some x => if s.now < x.cyc then [x.addr / 256 * 256] else [] | none => []

/-- Local writes of a thread that have not been made or have not passed the counterproof (R28, R72). -/
def writesLeft (s : State) (c t : Nat) : Bool := s.uncommitted c (requester t) || !(s.rowsToWrite c t).isEmpty

/-- The row part of the scoreboard of an untimed segment holds a word that reads and writes these rows (R410). -/
def rowsHeld (s : State) (cx : Cx) (rd wr : List Nat) : Bool :=
  if cx.timed then false
  else
    let w := s.rowsToWrite cx.c cx.t
    let r := s.rowsToRead cx.c cx.t
    (rd ++ wr).any w.contains || wr.any r.contains

/-- Rows of a memory operand. -/
def VMem.list (m : VMem) (n : Nat) : List Nat := (List.range n).map m.row

/-- The check of a write will fail: a detector that stands for it reports (R393, R402). -/
def checkFails (k : Core) (scalar : Bool) : Bool :=
  let armed (d : Nat) : Bool := SMap.get 0 k.inj d != 0 || SMap.get 0 k.real d != 0
  armed (if scalar then 0 else 1) || armed 4 || k.replays.any fun x => !x.product

/-- Bytes that a vector word or a scalar store of the thread writes, where the check will fail or the replay is under way: in an untimed
segment no later word reads them before the replay commits (R393). -/
def rowsAtRisk (s : State) (cx : Cx) (a n : Nat) : Bool :=
  let k := s.coreAt cx.c
  let meets (b m : Nat) : Bool := decide (a < b + m) && decide (b < a + n)
  !cx.timed && (checkFails k false || checkFails k true) &&
    ((s.pendOf (placeOf cx.c a)).any (fun w => w.core == cx.c && w.who == requester cx.t && (w.scalar || w.lane.isSome) && checkFails k w.scalar &&
        meets w.addr w.data.length) ||
      checkFails k false && k.vecs.any fun v => v.2.thr == cx.t && v.2.a.any fun m => (List.range m.rows).any fun j => meets (m.row j) 256)

/-- Some row lies in a bank that is changing (R181), or may not be read yet (R393). -/
def rowsChanging (s : State) (cx : Cx) (m : VMem) (n : Nat) : Bool :=
  (List.range n).any fun j => (s.coreAt cx.c).changingIn (m.row j) 256 || rowsAtRisk s cx (m.row j) 256

/-- The control context does not write the rows of a product under replay (R394). -/
def rowsKept (s : State) (cx : Cx) (m : VMem) (n : Nat) : Bool :=
  cx.t == 0 && (List.range n).any fun j => (s.coreAt cx.c).kept (m.row j) 256

/-- A word that reads and writes these rows holds: R410, R181, R393, R394. -/
def rowWait (s : State) (cx : Cx) (rd wr : List Nat) : Bool :=
  let k := s.coreAt cx.c
  rowsHeld s cx rd wr || (rd ++ wr).any (fun a => k.changingIn a 256) || rd.any (rowsAtRisk s cx · 256) ||
    (cx.t == 0 && wr.any (k.kept · 256))

/-- A word goes on where nothing holds it. -/
def unlessHeld (b : Bool) (k : Verdict) : Verdict := if b then .hold else k

end Sys2Proof.Machine
end

