-- ==== Sys2Proof/Machine/LocalMem.lean ====
section
/-! DEFINITION. Class 0x3: scalar loads and stores, pointers (R173 to R179). -/

namespace Sys2Proof.Machine

/-- What LDL, STL and LDP find at their address, and the checks that stand before their effect (R174, R175, R177). -/
structure Access where
  addr : Addr
  width : Nat
  signed : Bool := false
  store : Bool := false
  /-- M -/
  m : Nat := 0
  deriving DecidableEq, Repr

/-- Bytes 0 to 7 of row 0 of the bank, or of the first bank of its span, are what a personality operation is checked on
(R174). -/
def persCheckAddr (k : Core) (a : Nat) : Nat := k.spanFirst (bankOf a) * 65536

/-- A form that a personality admits (R178): its M, and whether C is given. -/
def persForm (pers : Nat) (store : Bool) (m : Nat) (cGiven : Bool) : Bool :=
  match pers, store with
  | 1, true | 2, true => m == 0 && !cGiven
  | 1, false | 2, false => decide (m < 2) && !cGiven
  | 3, true => decide (2 ≤ m) && !cGiven
  | 3, false => decide (2 ≤ m) && cGiven
  | 4, true => m == 2 && !cGiven
  | 4, false => decide (2 ≤ m) && !cGiven
  | 5, true => m == 2 && !cGiven
  | 5, false => decide (2 ≤ m) && cGiven
  | _, _ => false

/-- The checks of a scalar access after the conflicts and the armed tag, in the order of R177: 0x0D4, 0x045, 0x0D2, 0x0D3. The width and the
alignment are those of an array bank or of shared memory (R175); a base or an address in a personality bank has its own (R173, R178). The bank of the
base is what R83 looks at (DEDUCED, log entry 16). -/
def accessTrap (s : State) (cx : Cx) (x : Access) (cGiven : Bool) (cyc : Nat) : Option TrapInfo :=
  let k := s.coreAt cx.c
  if x.addr.pers != 0 then
    firstTrap
      [guardTrap s cx (persCheckAddr k x.addr.base) 8 true true,
       causeIf cx.timed 0x045,
       causeIf (x.width != 8 || !persForm x.addr.pers x.store x.m cGiven || cx.t == 12) 0x0D3]
  else
    let pers := k.persAt x.addr.ea != 0
    firstTrap
      [scalarConflict s cx x.addr.ea cyc,
       guardTrap s cx x.addr.ea x.width (!x.store) x.store,
       causeIf (!pers && x.addr.ea % x.width != 0) 0x0D2,
       causeIf (pers || (if x.store then x.m != 0 else decide (2 ≤ x.m))) 0x0D3]

/-- The cycle on which a scalar access reaches its store (R71, R176): the bank on c + 1, a shared bank on c + 3. -/
def accessCycle (s : State) (a : Nat) : Nat := if isShared a then s.now + 3 else s.now + 1

/-- What takes the issuing word back. -/
def State.undoOf (s : State) (cx : Cx) : Undo := { word := cx.pc, mark := cx.mark, thread := cx.before, cyc := s.now, spent := cx.spent }

/-- The access waits for its cycle (R88). What a conflict or an armed tag may take back is kept (R110, R265). -/
def State.noteAccess (s : State) (cx : Cx) (x : Access) (key : Nat) : State :=
  let a := x.addr.ea
  let armed := !x.store && isLocal a && (s.coreAt cx.c).armed.any fun e => e.1 == a / 256
  let q : Acc := { bank := bankIn a, arrive := accessCycle s a, who := requester cx.t, core := cx.c, first := cx.timed, scalar := true,
                   addr := a, key := key,
                   undo := if armed || (cx.timed && isShared a) then some (s.undoOf cx) else none }
  let p := placeOf cx.c a
  s.setAcc p (s.accOf p ++ [q])

/-- Cycles from a load's read to its landing (R71, R176). -/
def loadLatency (a : Nat) : Nat := if isShared a then 5 else 3

/-- A load from an array bank or from shared memory into `dest`: it samples the bytes on the cycle that its bank serves it, and lands 3
cycles later, or 5 from shared memory (R71, R176). -/
def loadArray (cx : Cx) (x : Access) (dest : Dest) (push ptr : Bool) (s : State) : State :=
  let cyc := accessCycle s x.addr.ea
  let (q, s) := s.take
  let sm : Sample := { addr := x.addr.ea, width := x.width, signed := x.signed, ptr := ptr, cyc := cyc }
  let land := cyc + loadLatency x.addr.ea
  let f : Flight := { dest := dest, push := push, land := land, word := cx.pc, seq := q, sample := some sm, lat := land - s.now }
  (s.modThread cx.ag fun th => { th with flight := th.flight ++ [f] }).noteAccess cx x q

/-- A store to an array bank or to shared memory: written at the end of the cycle on which its bank serves it, committed 3 cycles later (R71,
R72, R176). -/
def storeArray (cx : Cx) (x : Access) (v : Word) (s : State) : State :=
  let (q, s) := s.writeLater cx.c (requester cx.t) x.addr.ea (leBytes x.width v.toNat) (accessCycle s x.addr.ea) cx.pc
  s.noteAccess cx x q

/-- A request to a bank by the issuing thread: it reaches the bank 4 cycles after issue (R91). -/
def State.request (s : State) (cx : Cx) (bank : Nat) (op : BankOp) (flight dest : Option Nat) : Nat × State :=
  let (q, s) := s.take
  let r : BankReq := { bank := bank, who := requester cx.t, op := op, flight := flight, dest := dest, thr := cx.t, issued := s.now, word := cx.pc }
  (q, (s.modCore cx.c fun k => { k with reqs := SMap.put k.reqs q r }).at (s.now + 4) (prioBank + requester cx.t)
        (.personalityOperation cx.c q))

/-- A personality operation by LDL or STL (R91, R178): its status is pushed, a load's destination is written on the same
cycle (R27). -/
def persAccess (cx : Cx) (x : Access) (op : BankOp) (dest : Dest) (s : State) : State :=
  let (f, s) := s.landUnknown cx.ag cx.pc .none true
  let (d, s) := if x.store then (none, s) else
    let (d, s) := s.landUnknown cx.ag cx.pc dest false
    (some d, s)
  (s.request cx (bankOf x.addr.base) op (some f) d).2

/-- Loads and stores of a request thread act on its scratch alone (R128). -/
def scratchAccess (id : Nat) (cx : Cx) (x : Access) (dest : Dest) (v : Word) (s : State) : Verdict :=
  let a := x.addr.ea
  if 0x1000 < a + x.width then .report 0x0D4 (guardRecord (max a 0x1000) (!x.store) x.store x.width)
  else if a % x.width != 0 then .cause 0x0D2
  else if (if x.store then x.m != 0 else decide (2 ≤ x.m)) then .cause 0x0D3
  else
    let r := s.reqAt id
    if x.store then .done (s.setReq id { r with scratch := memWrite r.scratch a (leBytes x.width v.toNat) })
    else
      let n := leNat (memRead r.scratch a x.width)
      result cx dest (if x.signed then signExtend (8 * x.width) n else BitVec.ofNat 64 n) 4 s

/-- The bank is changing, the row is one of a product under replay, it may not be read yet, or earlier words of the thread still write or
read it: the word holds at issue (R181, R393, R394, R410). -/
def accessHeld (s : State) (cx : Cx) (x : Access) : Bool :=
  if x.addr.pers != 0 then (s.coreAt cx.c).changing (bankOf x.addr.base)
  else
    let rows := rangeRows x.addr.ea x.width
    rowWait s cx (if x.store then [] else rows) (if x.store then rows else [])

/-- Two writes of one thread to a register that land on one cycle, under WCHK (R70). -/
def landCollide (s : State) (cx : Cx) (dest : Dest) (land : Nat) : Option TrapInfo :=
  if cx.timed && s.wchk cx.c then
    (dest.packed.bind fun r => collideRecord (s.self cx) r land).map fun r => { cause := 0x041, record := r }
  else none

/-- A post-increment that lands `lat` cycles on with another write of its pointer (R70). -/
def incCollide (s : State) (cx : Cx) (o : Operand) (lat : Nat) : Option TrapInfo :=
  if o.inc then landCollide s cx (.a o.num) (s.now + lat) else none

/-- The word's own causes, but for an armed tag that its read will not match: that cause goes before them (R265, R353). A tag that does not
match on the read cycle itself is found then. -/
def afterTag (s : State) (cx : Cx) (a : Nat) (t : Option TrapInfo) : Option TrapInfo :=
  t.map fun t => if isLocal a then (tagMismatch (s.coreAt cx.c) (a / 256) (s.now + 1)).getD t else t

/-- LDL of a width (R173 to R179). -/
def ldlBody (width : Nat) (cx : Cx) (w : Fields) (s : State) : Verdict :=
  let a := scalarAddr s cx w.b w.c
  let x : Access := { addr := a, width := width, signed := w.m.getLsbD 0, m := w.m.toNat }
  let dest : Dest := .n w.a.num
  match cx.ag with
  | .req id => scratchAccess id cx x dest 0 s
  | _ =>
    let cyc := accessCycle s a.ea
    let adv (s : State) := s.advance cx w.b ((s.self cx).stride w.b) 1
    let own := accessTrap s cx x (!w.c.zero) cyc
    unlessHeld (accessHeld s cx x) (checked (firstTrap [if a.pers = 0 then landCollide s cx dest (cyc + loadLatency a.ea) else none,
                        incCollide s cx w.b 1, if a.pers = 0 then afterTag s cx a.ea own else own])
      (if a.pers != 0 then .done (adv (persAccess cx x (.ldl w.m.toNat ((s.self cx).src w.c)) dest s))
       else .done (adv (loadArray cx x dest true false s))))

/-- STL of a width (R173 to R179). -/
def stlBody (width : Nat) (cx : Cx) (w : Fields) (s : State) : Verdict :=
  let a := scalarAddr s cx w.a w.c
  let x : Access := { addr := a, width := width, store := true, m := w.m.toNat }
  let v := (s.self cx).src w.b
  match cx.ag with
  | .req id => scratchAccess id cx x .none v s
  | _ =>
    let adv (s : State) := s.advance cx w.a ((s.self cx).stride w.a) 1
    unlessHeld (accessHeld s cx x) (checked (firstTrap [incCollide s cx w.a 1, accessTrap s cx x (!w.c.zero) (accessCycle s a.ea)])
      (if a.pers != 0 then .done (adv (persAccess cx x (.stl w.m.toNat v) .none s))
       else .done (adv (storeArray cx x v s))))

def execLdlB (w : Fields) (s : State) : Out := issue (.ldlB w) (ldlBody 1) s
def execLdlH (w : Fields) (s : State) : Out := issue (.ldlH w) (ldlBody 2) s
def execLdlW (w : Fields) (s : State) : Out := issue (.ldlW w) (ldlBody 4) s
def execLdlD (w : Fields) (s : State) : Out := issue (.ldlD w) (ldlBody 8) s
def execStlB (w : Fields) (s : State) : Out := issue (.stlB w) (stlBody 1) s
def execStlH (w : Fields) (s : State) : Out := issue (.stlH w) (stlBody 2) s
def execStlW (w : Fields) (s : State) : Out := issue (.stlW w) (stlBody 4) s
def execStlD (w : Fields) (s : State) : Out := issue (.stlD w) (stlBody 8) s

/-- SETP: base of B, stride the low 16 bits of C; nothing is pushed (R177). -/
def execSetp (w : Fields) (s : State) : Out :=
  issue (.setp w) (fun cx w s =>
    let th := s.self cx
    let p : Ptr := { base := BitVec.ofNat 24 (th.base w.b false), stride := (th.src w.c).setWidth 16 }
    .done (s.land cx.ag cx.pc (.a w.a.num) p.image false 1)) s

/-- LDP loads a pointer image from an array bank or from shared memory; a base or an address in a personality bank is cause 0x0D3, after
0x0D4 (R177). -/
def execLdp (w : Fields) (s : State) : Out :=
  issue (.ldp w) (fun cx w s =>
    let a := scalarAddr s cx w.b w.c
    let x : Access := { addr := if a.pers != 0 then { base := a.base, ea := a.base, pers := 0 } else { a with pers := 0 }, width := 8 }
    let ea := x.addr.ea
    let cyc := accessCycle s ea
    unlessHeld (accessHeld s cx x) (checked
      (firstTrap [landCollide s cx (.a w.a.num) (cyc + loadLatency ea), afterTag s cx ea (accessTrap s cx x false cyc)])
      (.done (loadArray cx x (.a w.a.num) false true s)))) s

end Sys2Proof.Machine
end

