-- ==== Sys2Proof/Machine/BankOps.lean ====
section
/-! DEFINITION. The bank instructions and what happens at a bank: BPERS, BSPAN, BSTAT, BSNAP (R180 to R184), the performance
of a personality operation (R91), and the change of a personality (R181, R293 to R295). -/

namespace Sys2Proof.Machine

/-! Requests at a bank. -/

def Core.req (k : Core) (q : Nat) : BankReq := SMap.get {} k.reqs q
def Core.setReq (k : Core) (q : Nat) (r : BankReq) : Core := { k with reqs := SMap.put k.reqs q r }
def Core.dropReq (k : Core) (q : Nat) : Core := { k with reqs := SMap.erase k.reqs q }

/-- The issue cycle of the earliest change that holds a bank. -/
def Core.changedFrom (k : Core) (bank : Nat) : Option Nat :=
  ((k.spanBanks bank).flatMap fun j => (k.bank j).changing).foldl (fun r q =>
    let t := (SMap.get {} k.reqs q).issued
    some (min t (r.getD t))) none

/-- An access that comes through the NI or from a memory core, which has reached its bank on cycle `arrive`, is held there by a change that
was issued by then; one that was there before is performed first (R181, R295). -/
def Core.holdsAccess (k : Core) (a arrive : Nat) : Bool :=
  isLocal a && (k.changedFrom (bankOf a)).any fun t => decide (t ≤ arrive)

/-- An access through the NI or from a memory core (R87, R88): a bank that is changing holds it, in its order of arrival (R295). -/
def State.askBank (s : State) (c a who key : Nat) : State ⊕ State :=
  let x := s.accessOf c a who key
  if (s.coreAt c).holdsAccess a x.arrive then .inr (s.await (placeOf c a) x) else s.ask c a who key

/-- The agent of a requester's thread. -/
def reqAgent (c : Nat) (r : BankReq) : Agent := .core c r.thr

/-- The status lands 2 cycles after the operation is performed, and a load's value with it (R91). -/
def State.landStatus (s : State) (c : Nat) (r : BankReq) (status value : Word) : State :=
  let ag := reqAgent c r
  let s := match r.flight with
    | some f => s.landKnown ag f status (s.now + 2)
    | none => s
  match r.dest with
  | some f => s.landKnown ag f value (s.now + 2)
  | none => s

/-- A message that was refused as full is itself held for its thread, under a number of its own (R267). -/
def State.holdMessage (s : State) (o : Nat) (words : List Word) : State :=
  let e := s.opAt o
  let (q, s) := s.take
  (s.setOp q { e with st := .done, stat := 1, performed := true, words := words }).modThread e.agent fun th => { th with msgs := th.msgs ++ [q] }

/-- The bytes of a snapshot: every bucket as an N32 count, zeros to the end of the last row (R184). -/
def snapBytes (sp : Span) (m : Memory) (limit : Nat) : List Byte :=
  let bs := (List.range limit).flatMap fun b => leBytes 4 (get32 m (sp.bucket b))
  bs ++ List.replicate ((256 - bs.length % 256) % 256) 0

/-- The rows of a snapshot are written one per cycle from cycle `t` on, each as a vector row (R72, R184); the status lands with the last. -/
def State.writeRows (s : State) (c q : Nat) (r : BankReq) (dest t : Nat) (bs : List Byte) : State :=
  let n := bs.length / 256
  let v : VecOp := { code := .bsnap, thr := r.thr, word := r.word, next := t, flight := r.flight, lands := some (t + (n - 1)),
                     rows := (List.range n).map fun j => (dest + 256 * j, (bs.drop (256 * j)).take 256),
                     out := (List.range n).map fun j => (t + j, j) }
  (s.modCore c fun k => { k with vecs := SMap.put k.vecs q v }).at t (prioBank + requester r.thr) (.vectorRowStep c q)

/-- The next routine begins: its first word issues on the second cycle after the removal, and the entry is written to n0 and
pushed on that cycle; a start word outside the code region is cause 0x010, the entry consumed (R334, R335, R428). -/
def State.beginRoutine (s : State) (c : Nat) (entry : Word) : State :=
  let ag : Agent := .core c 0
  let word := entry.toNat % 8192
  let s := s.modThread ag fun th => { th with stat := .run, pc := word, notBefore := s.now + 2, seg := none, fresh := false }
  if (s.kernelAt c).codeW ≤ word then
    s.takeTrap ag word { cause := 0x010, record := [BitVec.ofNat 64 word, 6, entry] }
  else s.landAs ag word (.n 0) entry true 2 0

/-- Bank 15 is no queue, or its queue is empty: the core's work is done (R334). -/
def State.workDone (s : State) (c : Nat) : State :=
  let g := s.groupOfCore c
  (s.modCore c fun k => { k.modThread 0 (fun th => { th with stat := .done }) with finished := true }).at
    s.now prioNet (.groupRetire g)

/-- A message performed at its target as one operation (R266): status, or the cause of an error status. `a` is the local
address; array banks and shared memory take 8 bytes of a plain message. -/
def messagePerform (sp : Span) (mem : Memory) (m : Nat) (a : Nat) (ws : List Word) : Except Nat BankResult :=
  let one := ws.length == 1
  let d := ws.getD 0 0
  match sp.pers, m with
  | 0, 0 => if one then .ok { mem := memWrite mem a (leBytes 8 d.toNat) } else .error 0x185
  | 1, 0 => .ok (sp.append mem ws)
  | 2, 0 | 4, 0 => if one then .ok (sp.store mem 0 d) else .error 0x185
  | 3, 2 | 3, 3 => if one then .ok (sp.store mem m d) else .error 0x185
  | 5, 2 => if one then .ok (sp.store mem m d) else .error 0x185
  | _, _ => .error 0x185

/-- Perform a granted operation at its bank: its effect is visible to every requester at once (R91). -/
def performAt (c q : Nat) (r : BankReq) (s : State) : State :=
  let k := s.coreAt c
  let sp := k.spanOf r.bank
  let setMem (s : State) (m : Memory) : State := s.modCore c fun k => { k with mem := m }
  let drop (s : State) : State := s.modCore c fun k => k.dropReq q
  match r.op with
  | .ldl m key =>
    let b := sp.load k.mem m key.toNat
    drop ((setMem s b.mem).landStatus c r (BitVec.ofNat 64 b.status) (BitVec.ofNat 64 b.value))
  | .stl m d =>
    let b := sp.store k.mem m d
    drop ((setMem s b.mem).landStatus c r (BitVec.ofNat 64 b.status) 0)
  | .stat =>
    drop (s.landStatus c r (BitVec.ofNat 64 (sp.statusWord k.mem (k.bank r.bank).span (k.changing r.bank))) 0)
  | .snap dest =>
    let limit := sp.limit k.mem
    let bs := snapBytes sp k.mem limit
    let m := (List.range limit).foldl (fun m b => put32 m (sp.bucket b) 0) k.mem
    let s := (setMem s (sp.setCount m 0)).writeRows c q r dest (s.now + 2) bs
    match r.flight with
    | some f => drop (s.landKnown (reqAgent c r) f 0 (s.now + 2 + (bs.length / 256 - 1)))
    | none => drop s
  | .histo vop buckets inc last =>
    let (m, d) := sp.bucketRow inc k.mem 0 buckets
    let v := SMap.get {} k.vecs vop
    let n := v.dropped + d
    let s := setMem s m
    if last then
      let s := v.incs.foldl (fun s x => s.landKnown (reqAgent c r) x.1 x.2.image (s.now + 3)) s
      drop ((s.modCore c fun k => { k with vecs := SMap.erase k.vecs vop }).landStatus c r (BitVec.ofNat 64 n) 0)
    else drop (s.modCore c fun k => { k with vecs := SMap.put k.vecs vop { v with dropped := n } })
  | .tkpost key delta =>
    match sp.taskPost k.spanOf k.mem key.toNat delta with
    | .ok b =>
      let s := setMem s b.mem
      match r.remote with
      | some o => drop (s.replyOp o b.status none)
      | none => (s.landStatus c r (BitVec.ofNat 64 b.status) 0).modCore c fun k => k.setReq q { r with performed := true }
    | .error n =>
      match r.remote with
      | some o => drop (s.replyOp o 0 (some n))
      | none =>
        -- the status that it would have pushed is no longer in flight
        let s := match r.flight with | some f => s.dropFlight (reqAgent c r) f | none => s
        s.modCore c fun k => k.setReq q { r with performed := true, fail := some n }
  | .amsg o m ws =>
    match messagePerform sp k.mem m ((s.opAt o).av.toNat % 2 ^ 24) ws with
    | .ok b => drop (((if b.status = 1 then s.holdMessage o ws else s).modCore c fun k => { k with mem := b.mem }).replyOp o b.status none)
    | .error n => drop (s.replyOp o 0 (some n))
  | .routine =>
    let b := if sp.pers = 1 then sp.remove k.mem false else { mem := k.mem, status := 2 }
    if b.status = 0 then drop ((setMem s b.mem).beginRoutine c (BitVec.ofNat 64 b.value))
    else drop (s.workDone c)
  | .pers _ _ _ | .span _ => s

/-- PERSONALITY_OPERATION: the bank performs a request on the first cycle that R88 grants it, in the order of issue of its thread, with its place
from the cycle on which it has reached the bank; a request that the NI brings holds while the bank is changing (R91, R181). -/
def execPersonalityOperation (c q : Nat) (s : State) : Out :=
  let k := s.coreAt c
  let again (s : State) (r : BankReq) : Out := .next (s.at (s.now + 1) (prioBank + r.who) (.personalityOperation c q))
  match SMap.find k.reqs q with
  | none => .next s
  | some r =>
    let a := r.bank * 65536
    if r.performed then .next s
    else if requestWaits k q r then again (s.await (.core c) (s.accessOf c a r.who q)) r
    else if r.op == .routine && (k.changing r.bank || !(s.groupAt (s.groupOfCore c)).st.meets) then again s r
    else
      match (if r.who = 12 then s.askBank c a 12 q else s.ask c a r.who q) with
      | .inl s => .next ((performAt c q r (s.useBytes c (k.spanFirst r.bank * 65536) 256)).logChanges c k.mem)
      | .inr s => again s r

/-! BPERS and BSPAN. -/

/-- The bank that a bank instruction's address names, and its checks (R174, R177, R180). -/
def bankTrap (s : State) (cx : Cx) (a : Nat) (rd wr : Bool) : Option TrapInfo :=
  let k := s.coreAt cx.c
  firstTrap
    [guardTrap s cx (if isLocal a then persCheckAddr k a else a - a % 65536) 8 rd wr,
     causeIf cx.timed 0x045,
     causeIf (!isLocal a) 0x0D6]

/-- The armed burin unit watches rows of the bank (R295). -/
def burinWatches (k : Core) (banks : List Nat) : Bool :=
  k.burin.armed && banks.any fun b => decide (k.burin.rowBase < (b + 1) * 256) && decide (b * 256 < k.burin.rowBase + k.burin.rows)

/-- Begin a change of the banks: they are changing from now on, and the thread waits (R181). -/
def beginChange (cx : Cx) (bank : Nat) (banks : List Nat) (op : BankOp) (s : State) : Verdict :=
  let (q, s) := s.take
  let r : BankReq := { bank := bank, who := requester cx.t, op := op, thr := cx.t, issued := s.now }
  let s := s.modCore cx.c fun k =>
    banks.foldl (fun k b => { k with banks := SMap.modify {} k.banks b fun v => { v with changing := v.changing ++ [q] } }) (k.setReq q r)
  let s := s.modThread cx.ag fun th => { th with waitOn := some q }
  .wait (s.at (s.now + 4) (prioBank + requester cx.t) (.bankChangePerform cx.c q))

/-- The waiting word finds its change done, failed, or still going on. -/
def awaitChange (cx : Cx) (o : Operand) (s : State) : Verdict :=
  let k := s.coreAt cx.c
  match (s.self cx).waitOn with
  | none => .done s
  | some q =>
    match SMap.find k.reqs q with
    | some r =>
      (match r.fail with
       | some n => .cause n
       | none => .wait s)
    | none => .done ((s.modThread cx.ag fun th => { th with waitOn := none }).advance cx o ((s.self cx).stride o) 1)

/-- BPERS (R180, R181, R295). -/
def execBpers (w : Fields) (s : State) : Out :=
  issue (.bpers w) (fun cx w s =>
    if cx.again then awaitChange cx w.a s
    else
      let k := s.coreAt cx.c
      let th := s.self cx
      let a := th.base w.a false
      let banks := k.spanBanks (bankOf a)
      checked (firstTrap [bankTrap s cx a true true, causeIf (burinWatches k banks) 0x0D6])
        (if k.changing (bankOf a) then .hold
         else beginChange cx (bankOf a) banks (.pers w.c.immInt.toNat w.m.toNat (th.src w.b)) s)) s

/-- BSPAN (R182). -/
def execBspan (w : Fields) (s : State) : Out :=
  issue (.bspan w) (fun cx w s =>
    if cx.again then awaitChange cx w.a s
    else
      let k := s.coreAt cx.c
      let th := s.self cx
      let a := th.base w.a false
      let n := (th.src w.b).toNat
      let banks := ((List.range (max n 1)).map (bankOf a + ·)).filter (· < 16)
      let banks := if n = 1 then k.spanBanks (bankOf a) else banks
      checked (firstTrap [bankTrap s cx a true true, causeIf (!([1, 2, 4, 8, 16].contains n)) 0x0D6])
        (if banks.any k.changing then .hold else beginChange cx (bankOf a) banks (.span n) s)) s

/-- BSTAT (R183). -/
def execBstat (w : Fields) (s : State) : Out :=
  issue (.bstat w) (fun cx w s =>
    let k := s.coreAt cx.c
    let th := s.self cx
    let a := th.base w.b false
    checked (bankTrap s cx a true false)
      (if k.changing (bankOf a) then .hold
       else
         let (f, s) := s.landUnknown cx.ag cx.pc (.n w.a.num) true
         let s := (s.request cx (bankOf a) .stat (some f) none).2
         .done (s.advance cx w.b (th.stride w.b) 1))) s

/-- BSNAP (R184): checks in the order of R177. A source that is no histogram is cause 0x0D3; a destination in shared memory 0x0D6. -/
def execBsnap (w : Fields) (s : State) : Out :=
  issue (.bsnap w) (fun cx w s =>
    let k := s.coreAt cx.c
    let th := s.self cx
    let d := th.base w.a false
    let h := th.base w.b false
    let sp := k.spanOf (bankOf h)
    let hist := isLocal h && sp.pers == 5
    let n := if hist then (sp.limit k.mem * 4 + 255) / 256 * 256 else 0
    checked
      (firstTrap
        [guardTrap s cx (if isLocal h then persCheckAddr k h else h - h % 65536) 8 true true,
         guardTrap s cx d (max n 1) true true,
         causeIf cx.timed 0x045,
         causeIf (d % 256 != 0) 0x0D2,
         causeIf (!isLocal d) 0x0D6,
         causeIf (k.personality d (max n 1)) 0x0D0,
         causeIf (!hist) 0x0D3])
      (if k.changing (bankOf h) || rowWait s cx [] (rangeRows d n) then .hold
       else
         let (f, s) := s.landUnknown cx.ag cx.pc .none true
         let s := (s.request cx (bankOf h) (.snap d) (some f) none).2
         let s := s.advance cx w.a (th.stride w.a) 1
         .done (s.advance cx w.b (th.stride w.b) 1))) s

/-- Rows of a merge: what its streams have not read and what its output region has not received, from these entries on. -/
def Merge.rowsFrom (g : Merge) (mask : Nat) (cursor : MStream → Nat) (pos : Nat) : List Nat :=
  g.streams.flatMap fun x =>
    let m := x.2
    if x.1 < 8 then (if mask.testBit x.1 then rangeRows (m.base + 8 * cursor m) (8 * (m.count - cursor m)) else [])
    else rangeRows (m.base + 8 * pos) (8 * (m.count - pos))

/-- Rows of a running merge: entries of a row that is not full have not been written. -/
def Merge.rowsLeft (g : Merge) : List Nat := if g.st != 1 then [] else g.rowsFrom g.mask (·.cursor) (g.pos - g.part.length)

/-- Rows of a merge that has not started. -/
def Merge.rowsToCome (g : Merge) (e : Eng) : List Nat :=
  if e.kind != .merge then []
  else if e.arg = 0 then g.rowsFrom g.mask (·.cursor) (g.pos - g.part.length)
  else g.rowsFrom e.arg (fun _ => 0) 0

/-- Rows that any word of the core issued before number `q` still reads or writes: vector, tile and engine words, and snapshots (R181). -/
def Core.rowsLeft (k : Core) (q : Nat) : List Nat :=
  ((k.vecs.filter fun e => decide (e.1 < q)).flatMap fun e => e.2.rowsToRead ++ e.2.rowsToWrite) ++
    ((k.engs.filter fun e => decide (e.1 < q)).flatMap fun e => e.2.rowsToRead ++ k.quantRowsOf e.2 ++ k.merge.rowsToCome e.2) ++
    ((k.reqs.filter fun e => decide (e.1 < q) && !e.2.performed).flatMap fun e => match e.2.op with
      | .snap d => rangeRows d (4 * (k.spanOf e.2.bank).limit k.mem)
      | _ => []) ++ k.merge.rowsLeft

/-- Every access to the banks that was issued before a change, or had reached them before it, has been performed (R181). -/
def changeReady (s : State) (c q : Nat) (banks : List Nat) : Bool :=
  let k := s.coreAt c
  let issued := (SMap.get {} k.reqs q).issued
  !(k.reqs.any fun e => e.1 < q && !e.2.performed && banks.contains e.2.bank) &&
  !(k.acc.any fun x => banks.contains x.bank && (x.scalar || decide (x.arrive < issued))) &&
  !(k.pend.any fun x => isLocal x.addr && banks.contains (bankOf x.addr)) &&
  !((k.rowsLeft q).any fun a => isLocal a && banks.contains (bankOf a)) &&
  !(k.vecs.any fun e => e.2.code == .vhisto && e.1 < q && (e.2.a.any fun m => banks.contains (bankOf m.base)))

/-- The banks that a change holds. -/
def Core.changingBanks (k : Core) (q : Nat) : List Nat := (List.range 16).filter fun b => (k.bank b).changing.contains q

def Core.endChange (k : Core) (q : Nat) : Core :=
  { k with banks := mapVals (fun b => { b with changing := b.changing.filter (· != q) }) k.banks }

/-- A change that fails at the bank has had no effect, and its cause waits for its word (R181). -/
def failChange (c q : Nat) (r : BankReq) (n : Nat) (s : State) : State :=
  s.modCore c fun k => (k.endChange q).setReq q { r with performed := true, fail := some n }

/-- BPERS performed: 0x0D6 for a limit above the capacity, 0x0D5 for an invalid header; else the new personality is in force
for every later access (R180, R181, R293, R294). -/
def performPers (c q : Nat) (r : BankReq) (code mode : Nat) (b : Word) (banks : List Nat) (s : State) : State :=
  let k := s.coreAt c
  let sp := k.spanOf r.bank
  if code != 0 && decide (bankCapacity code * sp.count < b.toNat % 2 ^ 20) then failChange c q r 0x0D6 s
  else if code != 0 && mode == 1 && !sp.adoptOk k.mem code b then failChange c q r 0x0D5 s
  else
    let m :=
      if code = 0 then (if mode = 0 then sp.clear k.mem else k.mem)
      else if mode = 0 then sp.format k.mem code b
      else sp.adopt k.mem code b
    let s := s.modCore c fun k =>
      banks.foldl (fun k j => { k with banks := SMap.modify {} k.banks j fun v => { v with pers := code } })
        ({ k with mem := m }.setReq q { r with performed := true })
    (s.logChanges c k.mem).at (s.now + changeCycles code mode) prioEngine (.bankChangeEnd c q)

/-- BSPAN performed (R182). -/
def performSpan (c q : Nat) (r : BankReq) (n : Nat) (banks : List Nat) (s : State) : State :=
  let k := s.coreAt c
  let b := r.bank
  let bad :=
    if n = 1 then (k.bank b).span == 0 || k.spanFirst b != b || (k.bank b).pers != 0
    else b % n != 0 || banks.length != n || banks.any fun j => (k.bank j).pers != 0 || (k.bank j).span != 0
  if bad then failChange c q r 0x0D6 s
  else
    let lg := if n = 1 then 0 else Nat.log2 n
    let s := s.modCore c fun k =>
      banks.foldl (fun k j => { k with banks := SMap.modify {} k.banks j fun v => { v with span := lg, first := if n = 1 then 0 else b } })
        (k.setReq q { r with performed := true })
    s.at (s.now + 1) prioEngine (.bankChangeEnd c q)

/-- BANK_CHANGE_PERFORM: on the first cycle on which every earlier access has been performed and the bank grants it. -/
def execBankChangePerform (c q : Nat) (s : State) : Out :=
  let k := s.coreAt c
  match SMap.find k.reqs q with
  | none => .next s
  | some r =>
    let banks := k.changingBanks q
    if r.performed then .next s
    else if bankTaken s (.core c) r.bank || !changeReady s c q banks then .next (s.at (s.now + 1) (prioBank + r.who) (.bankChangePerform c q))
    else
      let s := s.serve (.core c) r.bank
      match r.op with
      | .pers code mode b => .next (performPers c q r code mode b banks s)
      | .span n => .next (performSpan c q r n banks s)
      | _ => .next s

/-- BANK_CHANGE_END: the changing state ends; held accesses go on under the new personality (R293, R295). -/
def execBankChangeEnd (c q : Nat) (s : State) : Out := .next (s.modCore c fun k => (k.endChange q).dropReq q)

end Sys2Proof.Machine
end

