-- ==== Sys2Proof/Machine/Vector.lean ====
section
/-! DEFINITION. Classes 0x4 and 0x5, the vector instructions: their checks at issue (R186 to R189), their steps, collisions and
deferrals (R190, R191), and what each step reads and lands (R192 to R216). -/

namespace Sys2Proof.Machine

/-! Conflicts (R88, R89, R110, R111, R191). -/

/-- The cycle's place for an instruction's rows: those of a timed one before the issue slots, others with the second group's accesses. -/
def VecOp.prio (v : VecOp) : Nat := if v.timed then prioEngine else prioBank + requester v.thr

/-- TLOAD and BKLD land what they have read without a bank: before the issue slots of the cycle (R218). -/
def VecOp.landPrio (v : VecOp) : Nat := if v.code == .tload || v.code == .bkld then prioTile else v.prio

/-- The access of a row as it stands at its bank: the control context's has reached it on this cycle, since a deferral moves it; a helper's
has waited (R191). -/
def rowAccess (s : State) (c q : Nat) (v : VecOp) (a : Nat) : Acc :=
  if v.thr = 0 then { bank := bankIn a, arrive := s.now, core := c, addr := a, key := q } else s.accessOf c a (requester v.thr) q

/-- An earlier-issued instruction of the thread has a row at the bank on this cycle (R191). -/
def earlierRow (s : State) (c q : Nat) (v : VecOp) (a : Nat) : Bool :=
  (s.coreAt c).vecs.any fun x => decide (x.1 < q) && x.2.thr == v.thr &&
    (x.2.rowsOn s.now).any fun b => placeOf c b == placeOf c a && bankIn b == bankIn a

/-- A bank is not free for a row of operation `q` on this cycle. -/
def rowBlocked (s : State) (c q : Nat) (v : VecOp) (a : Nat) : Bool :=
  earlierRow s c q v a ||
    (if v.timed then bankTaken s (placeOf c a) (bankIn a) else !bankGrants s (placeOf c a) (rowAccess s c q v a))

/-- A bank serves a row; a timed row of shared memory is a timed use of its bank (R110). -/
def State.takeRow (s : State) (c q : Nat) (v : VecOp) (a : Nat) : State :=
  let s := s.granted (placeOf c a) (rowAccess s c q v a)
  if v.timed && isShared a then
    s.modCluster (clusterOf c) fun k =>
      { k with claims := (k.claims.filter fun x => x.cyc == s.now) ++ [{ cyc := s.now, bank := bankIn a, core := c, addr := a, vec := some q }] }
  else s

/-- The conflict that a timed instruction's first rows meet on its issue cycle (R110): its word traps precisely (DEDUCED, log entry 20). -/
def firstConflict (s : State) (cx : Cx) (v : VecOp) : Option TrapInfo :=
  if !v.timed then none
  else
    (v.rowsOn s.now).findSome? fun a =>
      if !isShared a then none
      else
        let k := clusterOf cx.c
        let l := sharedUses s k (bankIn a)
        let q : Claim := { cyc := s.now, bank := bankIn a, core := cx.c, addr := a }
        if l.any fun x => x.core != cx.c || x.send.isSome then
          some { cause := 0x081, record := conflictRecord s (bankIn a) (q :: l), claim := some (k, q) }
        else none

/-- Rows that an armed tag may still undo commit one cycle later where their instruction defers (R265, R191). -/
def State.deferCommits (s : State) (c : Nat) (v : VecOp) : State :=
  if !v.armed then s
  else
    [Place.core c, .cluster (clusterOf c)].foldl (fun s p =>
      let mine := (s.pendOf p).filter fun w => v.writes.contains w.id
      let s := s.setPend p ((s.pendOf p).map fun w => if v.writes.contains w.id then { w with commitC := w.commitC + 1 } else w)
      mine.foldl (fun s w => s.at (w.commitC + 1) (prioCommit + w.who) (.counterproofCommit p w.id)) s) s

/-- An operation defers: what it has not done by now moves by one cycle (R191, R399). -/
def State.deferVec (s : State) (c q : Nat) (v : VecOp) : State :=
  let s := s.deferCommits c v
  let v' : VecOp := { v with next := if s.now ≤ v.next then v.next + 1 else v.next,
                             out := v.out.map fun e => if s.now ≤ e.1 then (e.1 + 1, e.2) else e,
                             lands := v.lands.map (· + 1), least := if v.armed then v.least + 1 else v.least }
  let ag : Agent := .core c v.thr
  let mine := v.flight.toList ++ v.incs.map (·.1)
  let th := s.threadOf ag
  let th := { th with flight := th.flight.map (fun f => if mine.contains f.seq then { f with land := f.land + 1 } else f),
                      notBefore := if v.holds && !v.timed then th.notBefore + 1 else th.notBefore }
  let s := s.setThread ag th
  let s := match v.lands with | some l => s.at (l + 1) prioLanding (.resultLanding ag) | none => s
  s.modCore c fun k => { k with vecs := SMap.put k.vecs q v' }

/-- A helper's rows wait at their banks. -/
def State.awaitRows (s : State) (c q : Nat) (v : VecOp) (l : List Nat) : State :=
  if v.timed || v.thr = 0 then s else l.foldl (fun s a => s.await (placeOf c a) (rowAccess s c q v a)) s

/-! Ends. -/

/-- Flags as they are raised: at once, or with the end of an instruction that an armed tag may still undo (R265); those of a helper's rows on its own
slot, also after its HEXIT (DEDUCED, log entry 22). -/
def State.raiseVec (s : State) (c q : Nat) (f : Flags) : State :=
  let v := SMap.get {} (s.coreAt c).vecs q
  if v.armed then s.modCore c fun k => { k with vecs := SMap.put k.vecs q { v with flags := v.flags ||| f } }
  else s.modThread (.core c v.thr) fun th => th.raise f

/-- The instruction is over: its flags are raised and its pointers land on the cycle after `last`. -/
def State.endVec (s : State) (c q last : Nat) : State :=
  let v := SMap.get {} (s.coreAt c).vecs q
  let ag : Agent := .core c v.thr
  let s := s.modThread ag fun th => th.raise v.flags
  let s := v.incs.foldl (fun s e => s.landKnown ag e.1 e.2.image (last + 1)) s
  s.modCore c fun k => { k with vecs := SMap.erase k.vecs q }

/-! One cycle of an instruction. -/

/-- TLOAD lands its whole tile (R225). -/
def Core.landTile (k : Core) (v : VecOp) : Core × Flags :=
  let tl := SMap.get {} k.tiles v.tile
  let (es, f) := tileFromRows tl v.fmtA v.per v.bufB
  ({ k with tiles := SMap.put k.tiles v.tile { tl with elems := es, unread := true, writer := none } }, f)

/-- A row that is due: a tile for TLOAD, words of the program store for BKLD, else a local row. -/
def State.writeVecRow (s : State) (c q : Nat) (v : VecOp) (j : Nat) : State :=
  match v.code with
  | .tload =>
    let r := (s.coreAt c).landTile v
    ((s.setCore c r.1).raiseVec c q r.2).tileLands c q v.tile
  | .bkld =>
    s.modCore c fun k => { k with burin := { k.burin with store := memWrite k.burin.store (12 * v.tile) (v.bufB.take v.extent) } }
  | _ =>
    match v.outAddr j with
    | none => s
    | some a =>
      let r := match v.rows[j]? with | some r => (r.2, (0 : Flags)) | none => vecRow v j
      if r.1.isEmpty then s
      else
        let lane := if v.code.engine then none else some ((v.rot + j) % 4)
        let old := if v.code == .qstage then [(a, s.view c 0 (s.now + 1) a 256)] else []
        let (id, s) := s.write c (requester v.thr) a r.1 s.now (max (s.now + 6) v.least) v.word lane v.l0 (some q) v.src
        s.modCore c fun k => { k with vecs := SMap.modify {} k.vecs q fun v => { v with writes := v.writes ++ [id], olds := old ++ v.olds } }

/-- Write these destination rows, which are due. -/
def State.writeVecRows (s : State) (c q : Nat) (v : VecOp) (l : List (Nat × Nat)) : State :=
  l.foldl (fun s e =>
    (s.writeVecRow c q v e.2).modCore c fun k =>
      { k with vecs := SMap.modify {} k.vecs q fun v => { v with out := v.out.filter (· != e) } }) s

/-- Source rows of this cycle are read into the buffers. The second answer says that a correction of one delays the instruction (R399). -/
def State.readVecRows (s : State) (c q : Nat) (v : VecOp) : List (Nat × Nat) → State × Bool
  | [] => (s, false)
  | (o, a) :: rest =>
    let bs := s.view c (requester v.thr) s.now a 256
    let (s, late) := s.detectRow c a v.timed
    let s := if isLocal a && !v.code.engine then s.freeTag c (a / 256) else s
    let s := s.modCore c fun k => { k with vecs := SMap.modify {} k.vecs q fun v =>
      match o with
      | 0 => { v with bufA := v.bufA ++ bs }
      | 1 => { v with bufB := v.bufB ++ bs }
      | _ => { v with bufC := v.bufC ++ bs } }
    let r := s.readVecRows c q v rest
    (r.1, late || r.2)

/-- The mismatch, if any, that the rows read on this cycle meet (R265). -/
def rowsMismatch (s : State) (c : Nat) (l : List (Nat × Nat)) : Option TrapInfo :=
  l.findSome? fun e => if isLocal e.2 then tagMismatch (s.coreAt c) (e.2 / 256) s.now else none

/-- The scalar result is known and lands on cycle `land`. -/
def State.landVec (s : State) (c q : Nat) (v : VecOp) (x : Word) (land : Nat) : State :=
  let s := s.modCore c fun k => { k with vecs := SMap.put k.vecs q { v with lands := some land } }
  match v.flight with
  | some f => s.landKnown (.core c v.thr) f x land
  | none => s

/-- Destination rows of a two-phase instruction: row j lands on cycle `first` + j. -/
def rowsFrom (first n : Nat) : List (Nat × Nat) := (List.range n).map fun j => (first + j, j)

/-- An operand lies in shared memory: 4 cycles more (R190, R201). -/
def VecOp.sharedExtra (v : VecOp) : Nat :=
  if [v.a, v.b, v.c].any fun m => m.any fun x => isShared x.base then 4 else 0

/-- Every source row has been read: the results that follow (R201, R206, R208). -/
def State.vecRead (s : State) (c q : Nat) (v : VecOp) : State :=
  let put (s : State) (v : VecOp) : State := s.modCore c fun k => { k with vecs := SMap.put k.vecs q v }
  let w := fmtWidth v.fmtA
  match v.code with
  | .vsum | .vrmax | .vrmin | .vcount =>
    let (x, f) := reduceValue v v.fmtA
    let val : Word := if v.code == .vcount then BitVec.ofNat 64 x
      else if fmtSigned v.fmtA then signExtend (fmtBits v.fmtA) x else BitVec.ofNat 64 x
    (s.landVec c q v val (s.now + 10 + v.sharedExtra)).raiseVec c q f
  | .vperm => put s { v with out := rowsFrom (s.now + 7) (spanRows v.vl w), extent := v.vl * w }
  | .vexpn =>
    let n := spanRows v.vl w
    let v := { v with out := rowsFrom (s.now + 7) n, extent := v.vl * w }
    let used := ((elemsFrom v.bufC w 0 v.vl).filter (· != 0)).length
    s.landVec c q v (BitVec.ofNat 64 used) (s.now + 6 + n)
  | .vcomp =>
    let j := ((elemsFrom v.bufC w 0 v.vl).filter (· != 0)).length
    let n := spanRows j w
    let v := { v with out := rowsFrom (s.now + 7) n, extent := j * w }
    s.landVec c q v (BitVec.ofNat 64 j) (if n = 0 then s.now + 7 else s.now + 6 + n)
  | .vpack => put s { v with phase := 1, next := s.now + 1 }
  | .vunpk =>
    if v.phase = 0 then
      let e := objE (leNat (v.bufB.take 8))
      let nh := spanRows (maskBytes e) 1
      let s := if v.timed then s else s.modThread (.core c v.thr) fun th => { th with notBefore := max th.notBefore (s.now + 2 + nh - v.step) }
      if v.step < nh then put s { v with ns := nh, next := s.now + 1 } else put s { v with phase := 1, next := s.now + 1 }
    else put s v
  | .tload => put s { v with out := [(s.now + 6 + v.shift, 0)] }
  | .bkld => put s { v with out := [(s.now + 3, 0)] }
  | _ => put s v

/-- The check cycle of VPACK and VUNPK (R208, R209). -/
def State.vecCheck (s : State) (c q : Nat) (v : VecOp) : State :=
  let w := fmtWidth v.fmtA
  let k := s.coreAt c
  match v.code, v.a, v.b with
  | .vpack, some a, some b =>
    let wb := fmtWidth b.fmt
    let xs := elemsFrom v.bufB wb 0 v.vl
    let nz := (xs.filter (· != 0)).length
    let used := maskBytes v.vl + nz * wb
    let res := v.value.toNat
    if res < used then
      s.failVec c q { cause := 0x0C4, record := [BitVec.ofNat 64 a.base, BitVec.ofNat 64 res, BitVec.ofNat 64 used,
                                                 BitVec.ofNat 64 (objHeader v.fmtA v.vl nz)] }
    else
      let n := spanRows used 1
      let v := { v with phase := 2, extent := min (n * 256) res, out := rowsFrom (s.now + 6) n }
      s.landVec c q v (BitVec.ofNat 64 used) (s.now + 5 + n)
  | .vunpk, some a, some b =>
    let h := leNat (v.bufB.take 8)
    let e := objE h
    let nh := v.ns
    let used := objUsed h w
    let rows := spanRows used 1
    let guard (n : Nat) : Option TrapInfo := (List.range n).findSome? fun j =>
      (k.guardFail (b.row j) 256 true false).map fun f => { cause := 0x0D4, record := guardRecord f true false 256 }
    let na := spanRows v.vl w
    let overlap := (List.range rows).any fun j => (List.range na).any fun i => b.row j == a.row i
    match firstTrap [guard nh, (objFault v.bufB v.fmtA).map fun f =>
                       { cause := 0x0C2, record := [BitVec.ofNat 64 b.base, BitVec.ofNat 64 h, BitVec.ofNat 64 f.2, BitVec.ofNat 64 f.1] }, guard rows,
                     causeIf ((List.range rows).any fun j => k.personality (b.row j) 256) 0x0D0,
                     causeIf (decide (v.vl < e) || overlap) 0x0C8] with
    | some t => s.failVec c q t
    | none =>
      let n := spanRows (e * w) 1
      let s := s.modThread (.core c v.thr) fun th => { th with notBefore := if v.timed then th.notBefore else s.now + 1 }
      let incs := v.incs.map fun x => (x.1, { x.2 with base := x.2.base + BitVec.ofNat 24 (rows * b.stride) })
      let v := { v with phase := 2, ns := rows, extent := e * w, out := rowsFrom (s.now + 6) n, next := s.now + 1, incs := incs, holds := false }
      s.landVec c q v (BitVec.ofNat 64 e) (s.now + 5 + n)
  | _, _, _ => s

/-- VHISTO: the adds of the row that has just been read reach the bank 4 cycles on as one operation (R213). -/
def State.histoRow (s : State) (c q : Nat) (v : VecOp) (j : Nat) : State :=
  match v.a, v.b with
  | some a, some b =>
    let w := fmtWidth b.fmt
    let (i, n) := rowElems v.vl w j
    let r : BankReq := { bank := bankOf a.base, who := requester v.thr,
                         op := .histo q (elemsFrom v.bufB w i n) v.value.toNat (decide (j + 1 = v.ns)),
                         flight := v.flight, thr := v.thr, issued := s.now }
    let (id, s) := s.take
    (s.modCore c fun k => { k with reqs := SMap.put k.reqs id r }).at (s.now + 4) (prioBank + requester v.thr)
      (.personalityOperation c id)
  | _, _ => s

/-- A step has been read: the destination row that it completes is scheduled (R190), and the next step follows. -/
def State.stepDone (s : State) (c q : Nat) (v : VecOp) : State :=
  let out := match v.aRow v.step with
    | some j => if v.code.twoPhase then v.out else v.out ++ [(s.now + v.l0, j)]
    | none => v.out
  let s := if v.code == .vhisto then s.histoRow c q v v.step else s
  let s := match v.aRow v.step with
    | some j => if v.code.twoPhase || v.rows.length > j then s else s.raiseVec c q (vecRow v j).2
    | none => s
  let v := SMap.get v (s.coreAt c).vecs q
  let v := { v with step := v.step + 1, sub := 0, next := s.now + 1, out := out }
  if v.step = v.ns then s.vecRead c q v
  else s.modCore c fun k => { k with vecs := SMap.put k.vecs q v }

/-- What follows on this cycle: the next read, check or landing is awaited, or the instruction is over. -/
def State.vecNext (s : State) (c q : Nat) : State :=
  match SMap.find (s.coreAt c).vecs q with
  | none => s
  | some v =>
    let reads := v.step < v.ns || v.phase = 1
    let dues := (if reads then [v.next] else []) ++ v.out.map (·.1)
    match dues with
    | [] =>
      if v.code == .vhisto then s
      else if v.src.isEmpty then s.endVec c q (max s.now (v.lands.getD 0))
      else
        -- its rows wait for a verdict, its pointer does not (R226)
        let s := v.incs.foldl (fun s e => s.landKnown (.core c v.thr) e.1 e.2.image (s.now + 1)) s
        s.modCore c fun k => { k with vecs := SMap.modify {} k.vecs q fun v => { v with incs := [] } }
    | d :: rest =>
      let t := rest.foldl min d
      s.at t (if reads && v.next == t then v.prio else v.landPrio) (.vectorRowStep c q)

/-- The rows of this cycle that their banks do not grant: they and every access after this cycle move by one cycle (R191). -/
def rowsBlocked (s : State) (c q : Nat) (v : VecOp) : List Nat := (v.rowsOn s.now).filter (rowBlocked s c q v)

/-- A read cycle of a vector instruction, of which `reads` have been granted and `left` have not. -/
def State.readCycle (s : State) (c q : Nat) (v : VecOp) (reads left : List (Nat × Nat)) : State :=
  let v' := SMap.get {} (s.coreAt c).vecs q
  let put (v : VecOp) : State := s.modCore c fun k => { k with vecs := SMap.put k.vecs q v }
  if v.phase = 1 && v.next = s.now then s.vecCheck c q v'
  else if v.step < v.ns && v.phase != 1 && v.next = s.now then
    (if !left.isEmpty then put { v' with got := v.got ++ reads.map (·.1) }
     else if v.sub + 1 < v.s then put { v' with sub := v.sub + 1, got := [], next := s.now + 1 }
     else s.stepDone c q { v' with got := [] })
  else s

/-- One cycle of a vector instruction (R190 to R192). -/
def vecCycle (c q : Nat) (v : VecOp) (s : State) : State :=
  let blocked := rowsBlocked s c q v
  let reads := (v.readsOn s.now).filter fun e => !blocked.contains e.2
  let left := (v.readsOn s.now).filter fun e => blocked.contains e.2
  let writes := v.out.filter fun e => e.1 == s.now && !((v.outAddr e.2).any blocked.contains)
  let s := s.awaitRows c q v blocked
  let s := ((writes.filterMap fun e => v.outAddr e.2) ++ reads.map (·.2)).foldl (fun s a => s.takeRow c q v a) s
  match (if v.code.engine then none else rowsMismatch s c reads) with
  | some t => s.failVec c q t
  | none =>
    let (s, late) := (s.writeVecRows c q v writes).readVecRows c q v reads
    let s := s.readCycle c q v reads left
    let s :=
      match SMap.find (s.coreAt c).vecs q with
      | some v => if blocked.isEmpty && !late then s else s.deferVec c q v
      | none => s
    s.vecNext c q

/-- VECTOR_ROW_STEP. -/
def execVectorRowStep (c q : Nat) (s : State) : Out :=
  match SMap.find (s.coreAt c).vecs q with
  | none => .next s
  | some v => .next (vecCycle c q v s)

/-! Issue. -/

/-- How a memory operand is used: read, write, or both. -/
structure VUse where
  mem : VMem
  rd : Bool
  wr : Bool
  /-- rows to check -/
  rows : Nat
  /-- its stride need not be aligned -/
  anyStride : Bool := false
  deriving DecidableEq, Repr

/-- The checks of R189 over all the memory operands, in its order; `more` are the causes that come after 0x0D2. -/
def vecTrap (s : State) (cx : Cx) (us : List VUse) (histo : Option TrapInfo) (pers : List VUse) (more : List (Option TrapInfo)) :
    Option TrapInfo :=
  firstTrap
    ([us.findSome? fun u => rowsGuard s cx u.mem u.rows u.rd u.wr, histo,
      causeIf (us.any fun u => u.mem.base % 256 != 0 || (!u.anyStride && u.mem.stride % 256 != 0)) 0x0D2,
      causeIf (pers.any fun u => rowsPers s cx u.mem u.rows) 0x0D0] ++ more)

/-- The word holds for the rows of its operands (R181, R393, R394, R410). -/
def usesHeld (s : State) (cx : Cx) (us : List VUse) : Bool :=
  rowWait s cx ((us.filter (·.rd)).flatMap fun u => u.mem.list u.rows) ((us.filter (·.wr)).flatMap fun u => u.mem.list u.rows)

/-- A result that lands later: its landing cycle is what it is expected to be. The counterproof recomputes it (R391). -/
def State.landLater (s : State) (ag : Agent) (word : Nat) (dest : Dest) (push : Bool) (est : Nat) : Nat × State :=
  let (q, s) := s.landUnknown ag word dest push
  (q, s.modThread ag fun th => { th with flight := th.flight.map fun f => if f.seq = q then { f with land := est, lat := est - s.now } else f })

/-- A pointer operand is advanced by its span when the instruction is over (R26, R187). -/
def vecInc (cx : Cx) (o : Operand) (by_ : Int) (est : Nat) (s : State) : List (Nat × Ptr) × State :=
  if o.inc then
    let p := (s.self cx).readA o.num
    let (q, s) := s.landLater cx.ag cx.pc (.a o.num) false est
    ([(q, { p with base := p.base + BitVec.ofInt 24 by_ })], s)
  else ([], s)

/-- The last cycle, if any, on which an armed row is read (R265). -/
def armedUntil (k : Core) (now : Nat) (v : VecOp) : Option Nat :=
  (List.range v.ns).foldl (fun r st =>
    (rankIn (v.stepRows st)).foldl (fun r e =>
      if e.2.2.2 && isLocal e.2.2.1 && k.armed.any (fun x => x.1 == e.2.2.1 / 256) then some (now + st * v.s + e.1) else r) r) none

/-- ROT advances at the issue of each vector instruction (R392). -/
def State.turn (s : State) (c : Nat) : State := s.modCore c fun k => { k with rot := (k.rot + 1) % 4 }

/-- Begin an instruction whose checks have passed. A pointer that two operands advance is advanced from its value at issue by each, so that
it moves once (DESIGN CHOICE, log entry 45). -/
def vecBegin (cx : Cx) (w : Fields) (v : VecOp) (dest : Dest) (push : Bool) (est : Nat) (byA byB byC : Int) (s : State) : State :=
  let (q, s) := s.take
  let (fl, s) := if push then (let (f, s) := s.landLater cx.ag cx.pc dest true est; (some f, s)) else (none, s)
  let (ia, s) := vecInc cx w.a byA (est + 1) s
  let (ib, s) := vecInc cx w.b byB (est + 1) s
  let (ic, s) := vecInc cx w.c byC (est + 1) s
  let v := { v with flight := fl, incs := ia ++ ib ++ ic }
  let until_ := if cx.timed || v.code.engine then none else armedUntil (s.coreAt cx.c) s.now v
  let v := { v with rot := (s.coreAt cx.c).rot, armed := until_.isSome, holds := v.holds || until_.isSome,
                    -- no row commits before the last armed row has been read (R265)
                    least := match until_ with | some t => max v.least (t + 1) | none => v.least }
  let check := if v.code == .vpack || v.code == .vunpk then s.now + v.ns + 1 else 0
  let s := s.modThread cx.ag fun th =>
    { th with notBefore := if cx.timed then th.notBefore else max th.notBefore (max check (match until_ with | some t => t + 1 | none => 0)) }
  let s := s.modCore cx.c fun k => { k with vecs := SMap.put k.vecs q v }
  let s := if v.code.engine then s else s.turn cx.c
  s.at s.now v.prio (.vectorRowStep cx.c q)

/-- An instruction begins, unless its first rows meet a conflict. -/
def beginVec (cx : Cx) (w : Fields) (v : VecOp) (dest : Dest) (push : Bool) (est : Nat) (byA byB byC : Int) (s : State) : Verdict :=
  checked (firstConflict s cx v) (.done (vecBegin cx w v dest push est byA byB byC s))

/-- The memory operand in a position, with its span. -/
def vecMem (th : Thread) (o : Operand) (typed : Bool) (vl : Nat) : Option VMem :=
  match o.kind with
  | .ptr | .direct =>
    let m := memOperand th o typed
    some { m with rows := m.span vl }
  | _ => none

def VMem.advance (m : VMem) : Int := (m.rows : Int) * (if m.stride < 2 ^ 23 then (m.stride : Int) else (m.stride : Int) - 2 ^ 24)

def useOf (m : Option VMem) (rd wr : Bool) : List VUse :=
  match m with
  | some m => [{ mem := m, rd := rd, wr := wr, rows := m.rows }]
  | none => []

/-- Raise the flags that the conversion of an immediate sets, where the instruction sets any (R188, R199). -/
def immFlags (code : VCode) (f : Flags) : Flags :=
  match code with
  | .vadd | .vsub | .vmul | .vfma | .vmin | .vmax | .vbcast => f
  | _ => 0

/-- A streaming instruction: A written (and read by VFMA and VSEL), B and C as they stand. `scalar` is the operand that may be a
scalar. -/
def streamBody (code : VCode) (cx : Cx) (w : Fields) (s : State) : Verdict :=
  let th := s.self cx
  let vl := th.vl.toNat
  let a := vecMem th w.a true vl
  let isB := code == .vbcast || code == .viota
  let b := if isB then none else vecMem th w.b true vl
  let c := if isB then none else vecMem th w.c true vl
  let fa := w.a.fmt
  let fsc := match code with | .vcmp _ => w.b.fmt | _ => fa
  let so := if isB then w.b else w.c
  let scalar := if code == .vdigit then (th.src w.c, (0 : Flags))
    else if c.isSome || so.zero then ((0 : Word), 0)
    else
      let r := scalarElem th so fsc
      (BitVec.ofNat 64 r.1, r.2)
  let us := useOf a code.readsA true ++ useOf b true false ++ useOf c true false
  let sentinel := code == .vdigit && fa == 8 && scalar.1.toNat / 32 % 8 == 7 && scalar.1.toNat / 256 % 2 == 1
  unlessHeld (usesHeld s cx us) (checked (vecTrap s cx us none us [causeIf sentinel 0x0C8])
      (let ns := us.foldl (fun n u => max n u.rows) 0
       let l0 := (match code with | .vexp | .vrcp | .vrsq | .vtanh => 10 | _ => 6) + (if us.any fun u => isShared u.mem.base then 4 else 0)
       let v : VecOp := { code := code, thr := cx.t, m := w.m.toNat, vl := vl, a := a, b := b, c := c, sc := some scalar.1, fmtA := fa,
                          timed := cx.timed, word := cx.pc, ns := ns, l0 := l0, next := s.now, extent := vl * fmtWidth fa }
       let v := { v with s := v.stalls }
       let s := s.raise cx (immFlags code scalar.2)
       if ns = 0 then .done (s.turn cx.c)
       else
         let adv (m : Option VMem) : Int := match m with | some m => m.advance | none => 0
         let est := s.now + 5 + ns * v.s + l0 - 6
         beginVec cx w v .none false est (adv a) (adv b) (adv c) s))

/-- VSUM, VRMAX, VRMIN and VCOUNT (R201, R214). -/
def reduceBody (code : VCode) (cx : Cx) (w : Fields) (s : State) : Verdict :=
  let th := s.self cx
  let vl := th.vl.toNat
  let b := vecMem th w.b true vl
  let us := useOf b true false
  let sc := if code == .vcount && w.m != 0 then (scalarElem th w.c w.b.fmt).1 else 0
  unlessHeld (usesHeld s cx us) (checked (vecTrap s cx us none us [])
      (let ns := us.foldl (fun n u => max n u.rows) 0
       let extra := if us.any fun u => isShared u.mem.base then 4 else 0
       let v : VecOp := { code := code, thr := cx.t, m := w.m.toNat, vl := vl, b := b, sc := some (BitVec.ofNat 64 sc),
                          fmtA := if code == .vcount then w.b.fmt else w.a.fmt, timed := cx.timed, word := cx.pc, ns := ns, next := s.now }
       if ns = 0 then
         let (x, _) := reduceValue v v.fmtA
         let val : Word := if code != .vcount && fmtSigned v.fmtA then signExtend (fmtBits v.fmtA) x else BitVec.ofNat 64 x
         result cx (.n w.a.num) val (6 + extra) (s.turn cx.c)
       else
         beginVec cx w v (.n w.a.num) true (s.now + ns + 9 + extra) 0 ((b.map VMem.advance).getD 0) 0 s))

/-- VPERM, VCOMP and VEXPN (R206). -/
def arrangeBody (code : VCode) (cx : Cx) (w : Fields) (s : State) : Verdict :=
  let th := s.self cx
  let vl := th.vl.toNat
  let a := vecMem th w.a true vl
  let b := vecMem th w.b true vl
  let c := vecMem th w.c true vl
  let us := useOf a false true ++ useOf b true false ++ useOf c true false
  let push := code != .vperm
  unlessHeld (usesHeld s cx us) (checked (vecTrap s cx us none us [causeIf (us.any fun u => decide (8 < u.rows)) 0x0C8])
      (let ns := us.foldl (fun n u => max n u.rows) 0
       let v : VecOp := { code := code, thr := cx.t, vl := vl, a := a, b := b, c := c, fmtA := w.a.fmt, timed := cx.timed, word := cx.pc,
                          ns := ns, next := s.now }
       let v := { v with s := v.stalls }
       if ns = 0 then (if push then result cx .none 0 6 (s.turn cx.c) else .done (s.turn cx.c))
       else
         let adv (m : Option VMem) : Int := match m with | some m => m.advance | none => 0
         let est := s.now + ns * v.s + 5 + (match a with | some m => m.rows | none => 0)
         beginVec cx w v .none push est (adv a) (adv b) (adv c) s))

/-- VPACK (R207, R208). -/
def vpackBody (cx : Cx) (w : Fields) (s : State) : Verdict :=
  let th := s.self cx
  let vl := th.vl.toNat
  let p := th.readA w.a.num
  let res := if p.stride = 0 then 65536 else p.stride.toNat
  let nres := spanRows res 1
  let a : VMem := { base := p.base.toNat, stride := 256, rows := nres }
  match vecMem th w.b true vl with
  | none => .done s
  | some b =>
    let ua : VUse := { mem := a, rd := false, wr := true, rows := nres, anyStride := true }
    let ub : VUse := { mem := b, rd := true, wr := false, rows := b.rows }
    let overlap := (List.range nres).any fun i => (List.range b.rows).any fun j => a.row i == b.row j
    unlessHeld (usesHeld s cx [ua, ub]) (checked (vecTrap s cx [ua, ub] none [ua, ub] [causeIf (vl == 0 || overlap) 0x0C8])
        (let v : VecOp := { code := .vpack, thr := cx.t, vl := vl, a := some a, b := some b, fmtA := w.b.fmt, timed := cx.timed,
                            word := cx.pc, ns := b.rows, next := s.now, holds := !cx.timed, value := BitVec.ofNat 64 res }
         beginVec cx w v .none true (s.now + b.rows + 6) res b.advance 0 s))

/-- VUNPK (R209). -/
def vunpkBody (cx : Cx) (w : Fields) (s : State) : Verdict :=
  let th := s.self cx
  let vl := th.vl.toNat
  match vecMem th w.a true vl, vecMem th w.b false vl with
  | some a, some b =>
    let b := { b with rows := 1 }
    let ua : VUse := { mem := a, rd := false, wr := true, rows := a.rows }
    let ub : VUse := { mem := b, rd := true, wr := false, rows := 0 }
    -- the rows of the object are known when its header has been read; the word waits for every row that it may read (R410)
    let most := spanRows (maskBytes vl + vl * fmtWidth w.a.fmt) 1
    unlessHeld (usesHeld s cx [ua, { ub with rows := 1 }] || rowsHeld s cx (b.list most) [])
      (checked (vecTrap s cx [ua, ub] none [ua, { ub with rows := 1 }] [])
        (let v : VecOp := { code := .vunpk, thr := cx.t, vl := vl, a := some a, b := some b, fmtA := w.a.fmt, timed := cx.timed,
                            word := cx.pc, ns := 1, next := s.now, holds := !cx.timed }
         -- the check adds what the pointer of B moves by
         let s' := vecBegin cx { w with b := { w.b with payload := w.b.payload &&& ~~~(0x1000 : BitVec 17) } } v .none true
           (s.now + 7) a.advance 0 0 s
         let s' := if w.b.inc then
             let q := s.fresh
             let (f, s') := s'.landLater cx.ag cx.pc (.a w.b.num) false (s.now + 8)
             s'.modCore cx.c fun k => { k with vecs := SMap.modify {} k.vecs q fun v => { v with incs := v.incs ++ [(f, th.readA w.b.num)] } }
           else s'
         checked (firstConflict s cx v) (.done s')))
  | _, _ => .done s

/-- VHISTO (R213). -/
def vhistoBody (cx : Cx) (w : Fields) (s : State) : Verdict :=
  let th := s.self cx
  let k := s.coreAt cx.c
  let vl := th.vl.toNat
  let t := th.base w.a false
  match vecMem th w.b true vl with
  | none => .done s
  | some b =>
    let ub : VUse := { mem := b, rd := true, wr := false, rows := b.rows }
    let inc := if w.c.zero then 1 else (th.src w.c).toNat % 2 ^ 32
    let guard := firstTrap [guardTrap s cx (if isLocal t then persCheckAddr k t else t - t % 65536) 8 true true,
                            rowsGuard s cx b b.rows true false]
    unlessHeld (k.changing (bankOf t) || usesHeld s cx [ub]) (checked (firstTrap [guard, vecTrap s cx [ub] (causeIf cx.timed 0x045) [ub]
                          [causeIf (!(isLocal t && (k.bank (bankOf t)).pers == 5)) 0x0D3]])
      (if b.rows = 0 then result cx .none 0 6 (s.turn cx.c)
       else
         let v : VecOp := { code := .vhisto, thr := cx.t, vl := vl, a := some { base := t }, b := some b, fmtA := b.fmt, timed := cx.timed,
                            word := cx.pc, ns := b.rows, next := s.now, value := BitVec.ofNat 64 inc }
         beginVec cx w v .none true (s.now + b.rows + 5) 0 b.advance 0 s))

def execVadd (w : Fields) (s : State) : Out := issue (.vadd w) (streamBody .vadd) s
def execVsub (w : Fields) (s : State) : Out := issue (.vsub w) (streamBody .vsub) s
def execVmul (w : Fields) (s : State) : Out := issue (.vmul w) (streamBody .vmul) s
def execVfma (w : Fields) (s : State) : Out := issue (.vfma w) (streamBody .vfma) s
def execVmin (w : Fields) (s : State) : Out := issue (.vmin w) (streamBody .vmin) s
def execVmax (w : Fields) (s : State) : Out := issue (.vmax w) (streamBody .vmax) s
def execVabs (w : Fields) (s : State) : Out := issue (.vabs w) (streamBody .vabs) s
def execVneg (w : Fields) (s : State) : Out := issue (.vneg w) (streamBody .vneg) s
def execVand (w : Fields) (s : State) : Out := issue (.vand w) (streamBody .vand) s
def execVor (w : Fields) (s : State) : Out := issue (.vor w) (streamBody .vor) s
def execVxor (w : Fields) (s : State) : Out := issue (.vxor w) (streamBody .vxor) s
def execVshl (w : Fields) (s : State) : Out := issue (.vshl w) (streamBody .vshl) s
def execVshr (w : Fields) (s : State) : Out := issue (.vshr w) (streamBody .vshr) s
def execVcmpEq (w : Fields) (s : State) : Out := issue (.vcmpEq w) (streamBody (.vcmp 0)) s
def execVcmpNe (w : Fields) (s : State) : Out := issue (.vcmpNe w) (streamBody (.vcmp 1)) s
def execVcmpLt (w : Fields) (s : State) : Out := issue (.vcmpLt w) (streamBody (.vcmp 2)) s
def execVcmpLe (w : Fields) (s : State) : Out := issue (.vcmpLe w) (streamBody (.vcmp 3)) s
def execVcmpGt (w : Fields) (s : State) : Out := issue (.vcmpGt w) (streamBody (.vcmp 4)) s
def execVcmpGe (w : Fields) (s : State) : Out := issue (.vcmpGe w) (streamBody (.vcmp 5)) s
def execVsel (w : Fields) (s : State) : Out := issue (.vsel w) (streamBody .vsel) s
def execVcvt (w : Fields) (s : State) : Out := issue (.vcvt w) (streamBody .vcvt) s
def execVmov (w : Fields) (s : State) : Out := issue (.vmov w) (streamBody .vmov) s
def execVbcast (w : Fields) (s : State) : Out := issue (.vbcast w) (streamBody .vbcast) s
def execViota (w : Fields) (s : State) : Out := issue (.viota w) (streamBody .viota) s
def execVsum (w : Fields) (s : State) : Out := issue (.vsum w) (reduceBody .vsum) s
def execVrmax (w : Fields) (s : State) : Out := issue (.vrmax w) (reduceBody .vrmax) s
def execVrmin (w : Fields) (s : State) : Out := issue (.vrmin w) (reduceBody .vrmin) s
def execVscan (w : Fields) (s : State) : Out := issue (.vscan w) (streamBody .vscan) s
def execVexp (w : Fields) (s : State) : Out := issue (.vexp w) (streamBody .vexp) s
def execVrcp (w : Fields) (s : State) : Out := issue (.vrcp w) (streamBody .vrcp) s
def execVrsq (w : Fields) (s : State) : Out := issue (.vrsq w) (streamBody .vrsq) s
def execVtanh (w : Fields) (s : State) : Out := issue (.vtanh w) (streamBody .vtanh) s
def execVperm (w : Fields) (s : State) : Out := issue (.vperm w) (arrangeBody .vperm) s
def execVcomp (w : Fields) (s : State) : Out := issue (.vcomp w) (arrangeBody .vcomp) s
def execVexpn (w : Fields) (s : State) : Out := issue (.vexpn w) (arrangeBody .vexpn) s
def execVpack (w : Fields) (s : State) : Out := issue (.vpack w) vpackBody s
def execVunpk (w : Fields) (s : State) : Out := issue (.vunpk w) vunpkBody s
def execVord (w : Fields) (s : State) : Out := issue (.vord w) (streamBody .vord) s
def execVdigit (w : Fields) (s : State) : Out := issue (.vdigit w) (streamBody .vdigit) s
def execVhisto (w : Fields) (s : State) : Out := issue (.vhisto w) vhistoBody s
def execVcount (w : Fields) (s : State) : Out := issue (.vcount w) (reduceBody .vcount) s

end Sys2Proof.Machine
end

