-- ==== Sys2Proof/Machine/Matrix.lean ====
section
/-! DEFINITION. Class 0x6: tiles and their loads and stores (R220 to R226), the products of the matrix array from issue to
verdict (R227 to R232, R394), the quantiser (R233) and the verdict counters (R234). -/

namespace Sys2Proof.Machine

/-! Tiles. -/

/-- A word that reads or writes a busy tile holds, or takes cause 0x046 in a timed segment (R220). -/
def tileBusy (s : State) (cx : Cx) (t : Nat) (k : Verdict) : Verdict :=
  if ((s.coreAt cx.c).tile t).busy.isEmpty then k else Verdict.full cx 0x046

/-- The elements of a tile whose unlisted elements are zero: those below `n`. -/
def elemsBelow (m : SMap (BitVec 32)) (n : Nat) : SMap (BitVec 32) := m.filter fun e => e.1 < n

/-- TCFG's descriptor is refused (R222): cause 0x101. -/
def tcfgBad (gang : Nat) (d : Word) : Bool :=
  d.extractLsb' 22 42 != 0 || d.getLsbD 17 || decide (2 ≤ (d.extractLsb' 14 3).toNat) ||
    decide (arrayRows gang < (d.extractLsb' 0 7).toNat + 1) || decide (arrayCols gang < (d.extractLsb' 7 7).toNat + 1)

/-- The tile after TCFG (R222, R223). -/
def Tile.configure (t : Tile) (d : Word) (reint : Bool) : Tile :=
  let m := (d.extractLsb' 0 7).toNat + 1
  let n := (d.extractLsb' 7 7).toNat + 1
  { t with
          rows := m, cols := n, ty := (d.extractLsb' 14 3).toNat, bl := (d.extractLsb' 18 2).toNat, sp := (d.extractLsb' 20 2).toNat,
          writer := none, poison := [],
          elems := if reint then elemsBelow t.elems (min (t.rows * t.cols) (m * n)) else [], unread := false }

def execTcfg (w : Fields) (s : State) : Out :=
  issue (.tcfg w) (fun cx w s =>
    let t := w.a.num
    let k := s.coreAt cx.c
    let d : Word := if w.b.kind == .imm then w.b.payload.setWidth 64 else (s.self cx).src w.b
    tileBusy s cx t
      (checked (firstTrap [causeIf (tcfgBad k.gang d) 0x101, causeIf (w.m == 2 && (k.tile t).unread) 0x100])
        (.done (s.modCore cx.c fun k => k.modTile t fun v => v.configure d (w.m == 1))))) s

def execTzero (w : Fields) (s : State) : Out :=
  issue (.tzero w) (fun cx w s =>
    tileBusy s cx w.a.num
      (.done (s.modCore cx.c fun k => k.modTile w.a.num fun v => { v with elems := [], unread := false, writer := none, poison := [] }))) s

/-- Every local row of a tile's rows (R225). -/
def tileRowList (m : VMem) (t : Tile) (per : Nat) : List Nat :=
  (List.range (t.rows * per)).map fun j => (m.base + j / per * m.stride + j % per * 256) % 2 ^ 24

/-- The checks of TLOAD and TSTORE at issue, in the order of R226. -/
def tileTrap (s : State) (cx : Cx) (m : VMem) (t : Tile) (per : Nat) (rd : Bool) (pair : Bool) : Option TrapInfo :=
  let rows := tileRowList m t per
  firstTrap
    [rows.findSome? fun a => guardTrap s cx a 256 rd (!rd),
     causeIf (!m.aligned) 0x0D2,
     causeIf (rows.any fun a => (s.coreAt cx.c).personality a 256) 0x0D0,
     causeIf (!pair) 0x101]

/-- The pointer of a tile row operand advances once for each tile row (R225). -/
def tileAdvance (m : VMem) (n : Nat) : Int := { m with rows := n }.advance

def execTload (w : Fields) (s : State) : Out :=
  issue (.tload w) (fun cx w s =>
    let t := (s.coreAt cx.c).tile w.a.num
    match vecMem (s.self cx) w.b true 0 with
    | none => .done s
    | some m =>
      let per := spanRows t.cols (fmtWidth m.fmt)
      unlessHeld (rowWait s cx (tileRowList m t per) []) <| tileBusy s cx w.a.num
        (checked (tileTrap s cx m t per true (tloadOk m.fmt t.ty))
          (let q := s.fresh
           let rt := t.rows * per
           let s := s.modCore cx.c fun k => k.modTile w.a.num fun v => { v with busy := v.busy ++ [q] }
           let v : VecOp := { code := .tload, thr := cx.t, b := some m, fmtA := m.fmt, timed := cx.timed, word := cx.pc, ns := rt, next := s.now + 1,
                              per := per, tile := w.a.num }
           .done (vecBegin cx { w with a := w.c } v .none false (s.now + rt + 6) 0 (tileAdvance m t.rows) 0 s)))) s

/-- The slab word of the half that holds an array or a tile column of a core (R12): a half holds 32 columns, slab by slab in gang order, west before
east. -/
def State.columnSlab (s : State) (c col : Nat) : Nat :=
  match (s.halfSlots c (s.coreAt c).gang).getD (col / 32) none with
  | some h => slabWord (h / 2) (h % 2)
  | none => slabWord c 0

/-- The column that a report names: an injected one has none and names column 0 (DESIGN CHOICE, log entry 46); that of an error of the part is
free. -/
def State.failingColumn (s : State) (mark cols : Nat) : Nat × State :=
  if mark != 0 then (0, s)
  else
    let (v, s) := s.free
    (v.toNat % max 1 cols, s)

/-- The elements of a tile are read from the accumulator store: a poisoned word, or a detector that reports an uncorrectable error, is consumed; a
correctable one delays the read by a cycle, which ends a timed one in a timing trap (R399, R400, R402). The second answer says that the delay
is to be absorbed. -/
def State.accumulatorRead (s : State) (c tile : Nat) (timed : Bool) : State × Bool :=
  let t := (s.coreAt c).tile tile
  let ue (s : State) (col mark : Nat) : State := s.consume (s.groupOfCore c) 0x283 (s.columnSlab c col + mark)
  match t.poison.find? fun e => e.2 && decide (e.1 < t.rows * t.cols) with
  | some e => (ue s (e.1 % t.cols) 0, false)
  | none =>
    match s.takeInj c 10 with
    | some (s, mark) =>
      let (col, s) := s.failingColumn mark t.cols
      (ue s col mark, false)
    | none =>
      match s.takeInj c 9 with
      | some (s, mark) => if timed then (s.timingTrap c 0x04E [BitVec.ofNat 64 mark], false) else (s, true)
      | none => (s, false)

/-- The product whose verdict the rows of a TSTORE wait for: the one with .ck that has made the tile's latest write (R226). -/
def Tile.awaits (t : Tile) : List Nat := t.writer.toList.filter t.verdicts.contains

def execTstore (w : Fields) (s : State) : Out :=
  issue (.tstore w) (fun cx w s =>
    let t := (s.coreAt cx.c).tile w.b.num
    match vecMem (s.self cx) w.a true 0 with
    | none => .done s
    | some m =>
      let per := spanRows t.cols (fmtWidth m.fmt)
      unlessHeld (rowWait s cx [] (tileRowList m t per)) <| tileBusy s cx w.b.num
        (checked (tileTrap s cx m t per false (tstoreOk m.fmt t.ty))
          (let (rows, f) := tileRows t m w.m.toNat per
           let s := (s.modCore cx.c fun k => k.modTile w.b.num fun v => { v with unread := false }).raise cx f
           let v : VecOp := { code := .tstore, thr := cx.t, m := w.m.toNat, a := none, c := some m, timed := cx.timed, word := cx.pc, next := s.now,
                              rows := rows, out := rowsFrom (s.now + 6) rows.length, per := per, tile := w.b.num, src := t.awaits }
           let q := s.fresh
           let s := vecBegin cx { w with b := w.c } v .none false (s.now + 5 + rows.length) (tileAdvance m t.rows) 0 0 s
           let (s, late) := s.accumulatorRead cx.c w.b.num cx.timed
           .done (if late then s.deferVec cx.c q (SMap.get {} (s.coreAt cx.c).vecs q) else s)))) s

/-! Products: issue. -/

/-- AR and AC of a core. -/
def Core.compute (k : Core) (e : Eng) : Nat := e.compute (arrayRows k.gang) (arrayCols k.gang)
def Core.occupied (k : Core) (e : Eng) : Nat := e.occupied (arrayRows k.gang) (arrayCols k.gang)

/-- A start cycle of a timed segment lies in its range (R221): cause 0x04C. -/
def startTrap (s : State) (cx : Cx) (c : Nat) : Option TrapInfo :=
  let at_ := (s.self cx).anchor + c
  causeIf (cx.timed && (decide (at_ < s.now + 2) || decide (s.now + 4095 < at_))) 0x04C

/-- The stride of a product's operand covers one operand row (R227). -/
def strideOk (stride span : Nat) : Bool := stride % 256 == 0 && decide (span * 256 ≤ stride) && decide (stride < 2 ^ 23)

/-- K, the formats and the strides of a product (R227, R230, R231): cause 0x101. -/
def productBad (e : Eng) : Bool :=
  decide (e.k < 1) || decide (4096 < e.k) || (e.sparse && (e.k % 16 != 0 || e.sp == 0)) ||
    (if e.ty = 1 then e.fmt != 4 else !(fmtF e.fmt || e.fmt == 11)) || (e.bl != 0 && e.fmt != 11) ||
    !strideOk e.aStride e.aSpan || !strideOk e.bStride e.bSpan ||
    (e.gather && (decide (128 < e.tm * e.aSpan) || e.bl != 0))

/-- One past the last row that an operand occupies (R227). -/
def afterRows (l : List Nat) (base : Nat) : Nat := (l.getLast?.getD base + 256) % 2 ^ 24

/-- The pointers of a post-incremented pair or quad, and where they go (R227). The table pointer of a gather is settled when the
gather ends. -/
def productIncs (cx : Cx) (o : Operand) (e : Eng) (s : State) : List (Nat × Ptr) × State :=
  if !o.inc then ([], s)
  else
    let j := o.num
    let th := s.self cx
    let ps : List (Nat × Nat) :=
      if e.gather then [(j, afterRows (Eng.dense e.iBase (spanRows (2 * e.tm) 1)) e.iBase), (j + 1, e.aBase),
                        (j + 2, afterRows e.bVal e.bBase)]
      else [(j, afterRows (e.aVal ++ e.aMeta) e.aBase), (j + 1, afterRows (e.bVal ++ e.bMeta) e.bBase)]
    ps.foldl (fun acc p =>
      let (f, s) := acc.2.landLater cx.ag cx.pc (.a p.1) false (s.now + e.until_ + 13)
      (acc.1 ++ [(f, { th.readA p.1 with base := BitVec.ofNat 24 p.2 })], s)) ([], s)

/-- MMA, MMAS and MMAG at issue (R227, R230, R231). -/
def productBody (sparse gather : Bool) (cx : Cx) (w : Fields) (s : State) : Verdict :=
  let th := s.self cx
  let k := s.coreAt cx.c
  let t := k.tile w.a.num
  let j := w.b.num
  let ptr (i : Nat) : Nat × Nat := ((th.readA (j + i)).base.toNat, ((th.readA (j + i)).stride.toInt % (2 ^ 24 : Int)).toNat)
  let (ia, ib) := if gather then (1, 2) else (0, 1)
  let e : Eng := { kind := .product, tile := w.a.num, fmt := w.b.fmt, k := th.vl.toNat, zero := w.m.getLsbD 1, ck := w.m.getLsbD 0,
                   sparse := sparse, gather := gather, aBase := (ptr ia).1, aStride := (ptr ia).2, bBase := (ptr ib).1,
                   bStride := (ptr ib).2, iBase := (ptr 0).1, issue := s.now, timed := cx.timed, word := cx.pc,
                   start := if cx.timed then th.anchor + w.c.immInt.toNat else s.now + 2,
                   tm := t.rows, tn := t.cols, ty := t.ty, bl := t.bl, sp := t.sp }
  let rows := e.knownRows
  -- the table rows that the indices select as they stand (R410)
  let ir := if gather then spanRows (2 * e.tm) 1 else 0
  let table := if gather then ({ e with idx := (Eng.dense e.iBase ir).flatMap fun a => s.view cx.c 0 s.now a 256 } : Eng).gatherRows.drop ir else []
  unlessHeld (rowWait s cx (rows ++ table) []) <| checked
    (firstTrap
      [startTrap s cx w.c.immInt.toNat,
       rows.findSome? fun a => guardTrap s cx a 256 true false,
       causeIf (e.aBase % 256 != 0 || e.bBase % 256 != 0 || (gather && e.iBase % 256 != 0)) 0x0D2,
       causeIf (rows.any fun a => k.personality a 256) 0x0D0,
       causeIf (productBad e) 0x101])
    (let (q, s) := s.take
     let est := e.start - s.now + k.occupied e
     let (incs, s) := productIncs cx w.b { e with until_ := est } s
     let s := s.modCore cx.c fun k =>
       (k.setEng q { e with incs := incs }).modTile w.a.num fun v =>
         { v with busy := v.busy ++ [q], verdicts := if e.ck then v.verdicts ++ [q] else v.verdicts }
     let s := if cx.timed then s else s.modThread cx.ag fun th => { th with notBefore := s.now + 3 }
     let s := s.at e.start prioEngine (.engineStart cx.c q)
     .done (if gather then s.at s.now prioEngine (.engineStart cx.c q) else s))

/-! Products: streaming. -/

/-- The array streams no other product, and, for the core's own, no lent command that has been accepted is still to land and no lend window
is open (R221, R238). -/
def arrayFree (s : State) (c q : Nat) (own : Bool) : Bool :=
  let k := s.coreAt c
  let holds (e : Eng) : Bool :=
    (e.started && (decide (e.phase < 3) || decide (s.now < e.until_))) || (own && e.lent.isSome && !e.landed)
  !(k.engs.any fun e => e.1 != q && e.2.kind == .product && holds e.2) &&
    (!own || !(k.lend.any fun l => decide (l.lo ≤ s.now) && decide (s.now < l.hi)))

/-- A scalar access of the control context, or the read of its SEND.row, is at that local bank on this cycle. -/
def Acc.ahead (x : Acc) (bank now : Nat) : Bool :=
  x.bank == bank && if x.first then x.arrive == now else x.scalar && x.who == 0 && decide (x.arrive ≤ now)

/-- An array read meets, in its bank, an access that goes first: a scalar access of the control context, the read of its SEND.row, or a
timed send (R228), or what the bank has served on this cycle. Timed uses of a shared bank by others conflict instead (R110). -/
def arrayBlocked (s : State) (c a : Nat) : Bool :=
  let p := placeOf c a
  ((s.accOf p).any fun x => x.core == c && x.ahead (bankIn a) s.now) || (!isShared a && sendAt s p (bankIn a) s.now) ||
    SMap.get 0 (s.servedOf p) (bankIn a) == s.now + 1

/-- The access that an array read lets go first is served on this cycle, before what waits at the bank (R228). -/
def State.letGo (s : State) (c a : Nat) : State :=
  if isShared a then s
  else s.modCore c fun k => { k with acc := k.acc.map fun x => if x.ahead (bankOf a) s.now then { x with first := true, arrive := s.now } else x }

/-- A row that the array or the gather unit reads: its bank serves it as an access of the control context in a timed segment (R88, R228);
one of shared memory is a timed use of its bank (R110). A correction delays the phase's later reads (R399). -/
def State.arrayRead (s : State) (c q a : Nat) : State :=
  let (s, late) := (s.serve (placeOf c a) (bankIn a)).detectRead c a 256
  let s := match late with
    | some mark => s.modCore c fun k => k.setEng q { k.eng q with stall := 1, late := mark }
    | none => s
  if isShared a then
    s.modCluster (clusterOf c) fun k =>
      { k with claims := (k.claims.filter fun x => x.cyc == s.now) ++ [{ cyc := s.now, bank := bankIn a, core := c, addr := a, eng := some q }] }
  else s

/-- The reads of a cycle have been corrected: the phase takes a cycle more. -/
def Eng.corrected (e : Eng) : Eng :=
  if e.stall = 0 then e
  else if e.phase = 1 then { e with lm := e.lm + 1, corrM := e.corrM + 1 } else { e with lv := e.lv + 1, corrV := e.corrV + 1 }

/-- Corrections put the landing of a product past its published cycle (R399). -/
def Eng.overdue (e : Eng) (comp : Nat) : Bool := e.corrM != 0 || decide (max comp (e.lv - e.corrV) < max comp e.lv)

/-- The phase that begins has its rows read; an empty metadata phase is over at once, and when the values have been read the
product computes until its landing (R228). -/
def Eng.settle (e : Eng) (comp : Nat) : Eng :=
  let done (e : Eng) : Bool :=
    let (a, b) := e.phaseRows
    decide (max a.length b.length * e.phaseStall ≤ e.slot)
  let e := if e.phase = 1 && done e then { e with phase := 2, slot := 0 } else e
  if e.phase = 2 && done e then { e with phase := 3, until_ := e.start + e.lm + max comp e.lv } else e

/-- The landing cycle of a product (R229), and how much later returns and resumptions have put it (R235). -/
def Eng.landC (e : Eng) : Nat := e.until_ + 12 + e.shift

/-- A delay in the metadata phase of an untimed product moves its check cycle, and with it the control context's next word (R232): its next
read comes on cycle `next`. -/
def State.holdCheck (s : State) (c : Nat) (e : Eng) (next : Nat) : State :=
  let (a, b) := e.phaseRows
  let left := if e.phase = 1 then max a.length b.length * e.phaseStall - e.slot else 0
  if e.phase < 3 && !e.checked && !e.timed && e.lent.isNone && !e.replay then
    s.modThread (.core c 0) fun th => { th with notBefore := max th.notBefore (next + left + 1) }
  else s

/-- The accesses that an array read lets go first are served, and the read comes a cycle later. -/
def State.deferArray (s : State) (c : Nat) (e : Eng) : State := (e.readsNow.foldl (fun s x => s.letGo c x.2) s).holdCheck c e (s.now + 1)

/-- One cycle of a product that streams its rows. The faults of index planes and scale words are found on its check cycle
(R232). -/
def streamProduct (c q : Nat) (e : Eng) (s : State) : State :=
  let k := s.coreAt c
  if e.stall != 0 then s.setCore c (k.setEng q { e with stall := e.stall - 1 })
  else
  let checkNow := e.phase = 2 && !e.checked
  let fault := if !checkNow then none
    else firstTrap [causeIf e.indexFault 0x0C0, causeIf e.scaleFault 0x0C1]
  match fault with
  | some t => s.failEng c q t
  | none =>
    let e := if checkNow then { e with checked := true } else e
    let rd := e.readsNow
    let e := if e.phase = 1 then { e with lm := e.lm + 1 } else { e with lv := e.lv + 1 }
    if rd.any fun x => arrayBlocked s c x.2 then (s.setCore c (k.setEng q e)).deferArray c e
    else
      let e := rd.foldl (fun e x =>
        let bs := s.view c 0 s.now x.2 256
        match e.phase, x.1 with
        | 1, 0 => { e with mA := e.mA ++ bs }
        | 1, _ => { e with mB := e.mB ++ bs }
        | _, 0 => { e with vA := e.vA ++ bs }
        | _, _ => { e with vB := e.vB ++ bs }) e
      let s := rd.foldl (fun s x => s.arrayRead c q x.2) (s.setCore c (k.setEng q e))
      let e := ({ (s.coreAt c).eng q with slot := e.slot + 1 } : Eng).corrected.settle (k.compute e)
      let s := s.modCore c fun k => k.setEng q e
      let s := if e.stall != 0 then s.holdCheck c e (s.now + 2) else s
      if e.phase = 3 then
        let s := s.at e.landC prioTile (.productLanding c q)
        if e.timed && e.lent.isNone && !e.replay && e.overdue (k.compute e) then s.timingTrap c 0x04E [BitVec.ofNat 64 e.late] else s
      else s

/-- One cycle of a gather (R133, R231): every table row is checked as the gather reaches it, also for its bank, since it is a matrix operand
(R296). -/
def streamGather (c q : Nat) (e : Eng) (s : State) : State :=
  let k := s.coreAt c
  match e.gatherRows[e.gslot]? with
  | none => s
  | some a =>
    match firstTrap [(k.guardFail a 256 true false).map fun f => { cause := 0x0D4, record := guardRecord f true false 256 },
                     causeIf (k.personality a 256) 0x0D0] with
    | some t => s.failEng c q t
    | none =>
      let waits (s : State) : State :=
        if e.timed then s
        else s.modThread (.core c 0) fun th => { th with notBefore := max th.notBefore (s.now + 2) }
      if e.stall != 0 then waits (s.modCore c fun k => k.setEng q { e with stall := e.stall - 1, corrM := e.corrM + 1 })
      else if arrayBlocked s c a then waits (s.letGo c a)
      else
      let bs := s.view c 0 s.now a 256
      let ir := spanRows (2 * e.tm) 1
      let e := if e.gslot < ir then { e with idx := e.idx ++ bs } else { e with vA := e.vA ++ bs }
      let e := { e with gslot := e.gslot + 1 }
      let last := e.gslot = e.gatherCount
      -- the table pointer goes past the highest row that the indices select
      let e := if !last then e
        else { e with incs := match e.incs with
                 | x :: y :: rest =>
                   let top := (e.gatherRows.drop ir).foldl max 0
                   x :: (y.1, { y.2 with base := BitVec.ofNat 24 ((top + 256) % 2 ^ 24) }) :: rest
                 | l => l }
      waits ((s.setCore c (k.setEng q e)).arrayRead c q a)

/-- Every local write that the control context issued before a word has landed (R221). -/
def writesLanded (s : State) (c q : Nat) : Bool :=
  let k := s.coreAt c
  !(k.pend.any fun w => w.who == 0 && decide (w.seq < q) && decide (s.now ≤ w.endC)) &&
    !((s.clusterAt (clusterOf c)).pend.any fun w => w.core == c && w.who == 0 && decide (w.seq < q) && decide (s.now ≤ w.endC)) &&
    !(k.vecs.any fun v => v.2.thr == 0 && decide (v.1 < q) && (v.2.a.isSome || !v.2.out.isEmpty)) &&
    !(k.engs.any fun e => e.2.kind == .quant && decide (e.1 < q))

/-- The tile is busy for operation `q`: a write by an earlier word, by a TLOAD or by a lent command has not landed (R220). -/
def earlierWrite (k : Core) (t : Tile) (q : Nat) : Bool :=
  t.busy.any fun x => x != q && (decide (x < q) || (SMap.find k.vecs x).isSome || (k.eng x).lent.isSome)

/-- A product starts now. -/
def State.startProduct (s : State) (c q : Nat) (e : Eng) : State :=
  let k := s.coreAt c
  let t := k.tile e.tile
  let e := { e with started := true, start := s.now, acc := t.elems, phase := 1, slot := 0, lm := 0, lv := 0, checked := false,
                    mA := [], mB := [], vA := if e.gather then e.vA else [], vB := [], stall := 0, corrM := 0, corrV := 0 }
  let (s, late) := if e.zero then (s, false) else s.accumulatorRead c e.tile (e.timed && e.lent.isNone)
  let k := s.coreAt c
  let e := if late then { e with stall := 1, lm := 1 } else e
  let e := { e with until_ := s.now + k.occupied e }
  let e := e.settle (k.compute e)
  let s := s.setCore c (k.setEng q e)
  -- the check cycle is start + Lm (R232)
  let check := s.now + e.phases.1 + e.stall
  let s := if e.timed || e.lent.isSome then s
    else s.modThread (.core c 0) fun th => { th with notBefore := max th.notBefore (check + 1) }
  streamProduct c q e s

/-! The quantiser and the merge tree at their starts. -/

/-- The quantiser takes its tile on the start cycle and writes its rows from start + 8 on (R233). -/
def State.startQuant (s : State) (c q : Nat) (e : Eng) : State :=
  let k := s.coreAt c
  let t := k.tile e.tile
  let (rows, _, f) := quantRows t e.arg e.aBase e.aStride e.bBase
  let incs := e.incs
  let (s, late) := s.accumulatorRead c e.tile e.timed
  let first := s.now + 8 + (if late then 1 else 0)
  let v : VecOp := { code := .qstage, thr := 0, timed := e.timed, word := e.word, next := s.now, rows := rows, out := rowsFrom first rows.length,
                     incs := incs, issue := e.issue, unread := t.unread, tile := e.tile }
  let s := (s.modThread (.core c 0) fun th => th.raise f).modCore c fun k =>
    { (k.modTile e.tile fun t => { t with unread := false }) with engs := SMap.erase k.engs q, vecs := SMap.put k.vecs q v }
  s.at first v.prio (.vectorRowStep c q)

/-- The quantiser is still writing an earlier operation (R221). -/
def quantFree (s : State) (c : Nat) : Bool := !((s.coreAt c).vecs.any fun v => v.2.code == .qstage)

/-- The row of a stream that its cursor has reached (R134). -/
def MStream.rowNo (m : MStream) : Nat := (m.base + 8 * m.cursor) / 256

/-- A merge starts or resumes: it begins to read its rows, and its first decision follows a fill of 8 cycles (R241). -/
def State.startMerge (s : State) (c q : Nat) (e : Eng) : State :=
  let s := s.modCore c fun k =>
    let g := { k.merge with st := 1, mode := e.mode, key := q, drain := false, ready := s.now + 8, next := s.now, fin := 0 }
    let g := if e.arg = 0 then g
      else { g with mask := e.arg, out := 0, pos := 0, part := [],
                    streams := g.streams.map fun x => if x.1 < 8 then (x.1, { x.2 with cursor := 0, prevKey := 0, row := none }) else x }
    { k with engs := SMap.erase k.engs q, merge := g }
  s.at s.now prioBank (.mergeDecision c)

/-- What an engine needs besides its operands. -/
def engineFree (s : State) (c q : Nat) (e : Eng) : Bool :=
  match e.kind with
  | .product => arrayFree s c q true
  | .quant => quantFree s c
  | .merge => (s.coreAt c).merge.st != 1
  | .held => true

/-- The start cycle has come, or the operation waits for its engine and operands (R221). A start cycle of a timed segment moves with its
anchor while the control context stands still (R308, R354, R359). -/
def engineStartBody (c q : Nat) (e : Eng) (s : State) : State :=
  let k := s.coreAt c
  let gathering := e.gather && decide (e.gslot < e.gatherCount)
  let readsTile := match e.kind with | .product => !e.zero | .quant => true | .merge | .held => false
  let busy := readsTile && earlierWrite k (k.tile e.tile) q
  let go (s : State) : State :=
    match e.kind with
    | .product => s.startProduct c q e
    | .quant => s.startQuant c q e
    | .merge => s.startMerge c q e
    | .held => s
  let stands := match (k.thread 0).stat with | .trapped | .stopped => true | _ => false
  if e.started || (e.timed && stands) then s
  else if s.now < e.start then (if gathering then streamGather c q e s else s)
  else if e.timed then
    if gathering && e.corrM != 0 then (s.dropEng c q).timingTrap c 0x04E [BitVec.ofNat 64 e.late]
    else if busy || gathering then (s.dropEng c q).timingTrap c 0x046 []
    else if !engineFree s c q e then (s.dropEng c q).timingTrap c 0x04B []
    else go s
  else if !busy && !gathering && engineFree s c q e && writesLanded s c q then go s
  else
    let s := if e.kind == .product then s.modThread (.core c 0) fun th => { th with notBefore := max th.notBefore (s.now + 2) } else s
    s.at (s.now + 1) prioEngine (.engineStart c q)

/-- ENGINE_START. -/
def execEngineStart (c q : Nat) (s : State) : Out :=
  match SMap.find (s.coreAt c).engs q with
  | none => .next s
  | some e => .next (engineStartBody c q e s)

/-- The array and the gather units of a core go on for one cycle. -/
def State.streamEngines (s : State) (c : Nat) : State :=
  ((s.coreAt c).engs.map (·.1)).foldl (fun s q =>
    match SMap.find (s.coreAt c).engs q with
    | none => s
    | some e =>
      if e.kind != .product then s
      else if e.started && (e.phase == 1 || e.phase == 2) then streamProduct c q e s
      else if !e.started && e.gather && decide (e.gslot < e.gatherCount) then streamGather c q e s
      else s) s

/-! Products: landing and verdict. -/

/-- An entry of a tile that has waited for its cycles ends with the later of them. -/
def State.endHeld (s : State) (c q : Nat) : State :=
  s.modCore c fun k =>
    let v := k.tile (k.eng q).tile
    if v.busy.contains q || v.verdicts.contains q then k else { k with engs := SMap.erase k.engs q }

/-- The rows of a TSTORE that has read a discarded product are those of its replay (R226, R394; DESIGN CHOICE, log entry 46). -/
def State.storeAgain (s : State) (c q tile : Nat) : State :=
  let t := (s.coreAt c).tile tile
  ((s.coreAt c).vecs.filter fun x => x.2.src.contains q).foldl (fun s x =>
    match x.2.c with
    | none => s
    | some m =>
      let rows := (tileRows t m x.2.m x.2.per).1
      let fix (w : PendWrite) : PendWrite :=
        if x.2.writes.contains w.id then { w with data := ((rows.find? fun r => r.1 == w.addr).map (·.2)).getD w.data } else w
      let s := (s.mapPend (.core c) fix).mapPend (.cluster (clusterOf c)) fix
      s.modCore c fun k => { k with vecs := SMap.modify {} k.vecs x.1 fun v => { v with rows := rows } }) s

/-- A verdict has come: what waits for it commits on this cycle (R226). -/
def State.releaseStores (s : State) (c q : Nat) : State :=
  let s := s.modCore c fun k =>
    { k with vecs := (mapVals (fun v => { v with src := v.src.filter (· != q) }) k.vecs).filter fun x =>
        !(x.2.code == .tstore && x.2.src.isEmpty && x.2.out.isEmpty && x.2.incs.isEmpty && decide (x.2.next < s.now)) }
  [Place.core c, .cluster (clusterOf c)].foldl (fun s p =>
    let mine := (s.pendOf p).filter fun w => w.core == c && w.after.contains q
    let s := s.mapPend p fun w => if w.core = c then { w with after := w.after.filter (· != q) } else w
    mine.foldl (fun s w => s.at (max w.commitC s.now) (prioCommit + w.who) (.counterproofCommit p w.id)) s) s

/-- What a TSTORE has made of a discarded product goes with it (R226). -/
def State.dropStores (s : State) (c q : Nat) : State :=
  let gone := (s.coreAt c).vecs.filter fun x => x.2.src.contains q
  let incs := gone.flatMap fun x => x.2.incs.map (·.1)
  let s := s.modThread (.core c 0) fun th => { th with flight := th.flight.filter fun f => !incs.contains f.seq }
  let s := s.modCore c fun k => { k with vecs := k.vecs.filter fun x => !x.2.src.contains q, pend := k.pend.filter fun w => !w.after.contains q }
  s.modCluster (clusterOf c) fun k => { k with pend := k.pend.filter fun w => !(w.core == c && w.after.contains q) }

/-- PRODUCT_LANDING: the tile takes the product and its unread mark, the flags NV and OF are set, and a product with .ck has its
verdict 8 cycles on (R218, R229). A lent command is answered. A landing that a return or a resumption moves comes later (R235). -/
def execProductLanding (c q : Nat) (s : State) : Out :=
  match SMap.find (s.coreAt c).engs q with
  | none => .next s
  | some e =>
    if e.kind == .held then
      (if s.now < e.start || !((s.coreAt c).tile e.tile).busy.contains q then .next s else .next ((s.tileLands c q e.tile).endHeld c q))
    else if !e.started || e.phase < 3 || e.landed || (!e.kept.isEmpty && !e.replay) || s.now < e.landC then .next s
    else
      let ag : Agent := .core c 0
      let (d, f) := e.product
      let s := s.modCore c fun k => (k.modTile e.tile fun v =>
        { v with elems := d, unread := true, writer := if e.ck then some q else none, poison := [] }).setEng q
          { e with landed := true, inf := e.indeterminate d }
      let s := if e.replay then s.storeAgain c q e.tile else s
      let s := (s.tileLands c q e.tile).modThread ag fun th => th.raise f
      let s := if e.replay then s else e.incs.foldl (fun s x => s.landKnown ag x.1 x.2.image (s.now + 1)) s
      let s := match e.lent with | some o => if e.replay then s else s.replyOp o 0 none | none => s
      if e.ck then .next (s.at (s.now + 8) prioVerdict (.checksumVerdict c q))
      else .next (s.modCore c fun k => { k with engs := SMap.erase k.engs q })

/-- A verdict is counted (R234). -/
def Tile.verdict (t : Tile) (q n : Nat) : Tile :=
  { t with last := n, ind := if n = 2 then min 65535 (t.ind + 1) else t.ind, verdicts := t.verdicts.filter (· != q) }

/-- What the check of a product decides (R394): it passes, it is the first mismatch, or the replay of one mismatches too; with the mark of the
report. -/
inductive Agreement where
  | pass (s : State) (replay : Bool)
  | mismatch (s : State) (mark : Nat)
  | again (s : State) (mark : Nat)

/-- The checksums of a product agree, unless detector 2 reports a mismatch; detector 4 lets the replay fail as well. In a timed segment the product
of the same word, which the restart executes again, is the replay (R394, R402). -/
def checkProduct (s : State) (c q : Nat) (e : Eng) : Agreement :=
  let restarts := e.timed && e.lent.isNone
  let mine (x : Replay) : Bool := x.product && (if restarts then x.timed && x.word == e.word else !x.timed && x.id == q)
  let note (s : State) (fails : Bool) (mark : Nat) : State := s.modCore c fun k =>
    { k with replays := k.replays ++ [{ id := q, word := e.word, product := true, timed := restarts, fails := fails, injected := mark != 0 }] }
  match (s.coreAt c).replays.find? mine with
  | some x =>
    let s := s.modCore c fun k => { k with replays := k.replays.filter fun x => !mine x }
    if x.fails then .again s (if x.injected then injMark else 0)
    else
      match s.takeInj c 2 with
      | some (s, mark) => .again s mark
      | none => .pass s true
  | none =>
    match s.takeInj c 4 with
    | some (s, mark) => .mismatch (note s true mark) mark
    | none =>
      match s.takeInj c 2 with
      | some (s, mark) => .mismatch (note s false mark) mark
      | none => .pass s false

/-- The product's verdict is a first mismatch (R394): a replay in an untimed segment, a timing trap in a timed one, whose stores of the product go
with it. -/
def verdictMismatch (c q : Nat) (e : Eng) (mark : Nat) (s : State) : State :=
  if e.timed && e.lent.isNone then
    let s := (s.verdictComes c q e.tile).dropStores c q
    (s.modCore c fun k => { k with engs := SMap.erase k.engs q }).timingTrap c 0x102 [BitVec.ofNat 64 (e.word + mark), 0]
  else
    let kept := e.knownRows ++ e.gatherRows
    (s.modCore c fun k =>
      (k.modTile e.tile fun v => { v with busy := v.busy ++ [q] }).setEng q { e with kept := kept, landed := false }).at (s.now + 1) prioEngine (.productReplay c q)

/-- The replay mismatches too: the half that holds the failing column is marginal (R395). -/
def verdictAgain (c q : Nat) (e : Eng) (mark : Nat) (s : State) : State :=
  let s := s.dropStores c q
  let s := s.modCore c fun k => { k.modTile e.tile (fun v => v.verdict q 0) with engs := SMap.erase k.engs q }
  let (col, s) := s.failingColumn mark e.tn
  let s := match (s.halfSlots c (s.coreAt c).gang).getD (col / 32) none with | some h => s.marginal h mark | none => s
  s.consume (s.groupOfCore c) 0x280 (s.columnSlab c col + mark)

/-- CHECKSUM_VERDICT (R60, R61): sums formed without a fault of the part always agree, so a mismatch is one that a detector reports (R402). -/
def execChecksumVerdict (c q : Nat) (s : State) : Out :=
  match SMap.find (s.coreAt c).engs q with
  | none => .next s
  | some e =>
    let count (n : Nat) (s : State) : State :=
      let s := (s.verdictComes c q e.tile).modCore c fun k => { k.modTile e.tile (fun v => v.verdict q n) with engs := SMap.erase k.engs q }
      s.releaseStores c q
    if e.kind == .held then
      (if s.now < e.until_ || !((s.coreAt c).tile e.tile).verdicts.contains q then .next s
       else .next (((s.verdictComes c q e.tile).endHeld c q).releaseStores c q))
    else if !e.landed || s.now < e.landC + 8 then .next s
    else
    match (s.takeInj c 3).map (·.1) with
    | some s => .next ((count 2 s).modThread (.core c 0) fun th => th.raise fCKI)
    | none =>
      if e.inf then .next ((count 2 s).modThread (.core c 0) fun th => th.raise fCKI)
      else
        match checkProduct s c q e with
        | .pass s replay => .next (count (if replay then 3 else 1) s)
        | .mismatch s mark => .next (verdictMismatch c q e mark s)
        | .again s mark => .next (verdictAgain c q e mark s)

/-- PRODUCT_REPLAY: it starts when the array is free, from the tile as the first attempt found it, over the operand rows as they
then stand (R394). -/
def execProductReplay (c q : Nat) (s : State) : Out :=
  match SMap.find (s.coreAt c).engs q with
  | none => .next s
  | some e =>
    if !e.started || e.phase < 3 || s.now < e.until_ then .next s
    else if !arrayFree s c q e.lent.isNone then .next (s.at (s.now + 1) prioEngine (.productReplay c q))
    else
      let k := s.coreAt c
      let e := { e with replay := true, start := s.now, phase := 1, slot := 0, lm := 0, lv := 0, checked := false, mA := [], mB := [],
                        vA := if e.gather then e.vA else [], vB := [], until_ := s.now + k.occupied e, shift := 0, stall := 0, corrM := 0, corrV := 0 }
      let e := e.settle (k.compute e)
      .next (streamProduct c q e (s.setCore c (k.setEng q e)))

def execMma (w : Fields) (s : State) : Out := issue (.mma w) (productBody false false) s
def execMmas (w : Fields) (s : State) : Out := issue (.mmas w) (productBody true false) s
def execMmag (w : Fields) (s : State) : Out := issue (.mmag w) (productBody false true) s

/-! QSTAGE and TCHK. -/

def execQstage (w : Fields) (s : State) : Out :=
  issue (.qstage w) (fun cx w s =>
    let th := s.self cx
    let k := s.coreAt cx.c
    let t := k.tile w.b.num
    let l := 8 * 2 ^ w.m.toNat
    let pa := th.readA w.a.num
    let pb := th.readA (w.a.num + 1)
    let stride := (pa.stride.toInt % (2 ^ 24 : Int)).toNat
    let bad := t.ty == 1 || t.cols % l != 0
    let nsc := spanRows ((t.rows * (t.cols / l) + 2) / 3) 8
    let rows := Eng.valueRows pa.base.toNat stride t.rows 1 ++ Eng.dense pb.base.toNat nsc
    let start := if cx.timed then th.anchor + w.c.immInt.toNat else s.now + 2
    unlessHeld (rowWait s cx [] rows) <| checked
      (firstTrap
        [startTrap s cx w.c.immInt.toNat,
         rows.findSome? fun a => guardTrap s cx a 256 false true,
         causeIf (pa.base.toNat % 256 != 0 || pb.base.toNat % 256 != 0 || stride % 256 != 0) 0x0D2,
         causeIf (rows.any fun a => k.personality a 256) 0x0D0,
         causeIf bad 0x101])
      (let (q, s) := s.take
       let est := start + 8 + t.rows + nsc
       let (incs, s) :=
         if !w.a.inc then (([] : List (Nat × Ptr)), s)
         else
           let (f, s) := s.landLater cx.ag cx.pc (.a w.a.num) false est
           let (g, s) := s.landLater cx.ag cx.pc (.a (w.a.num + 1)) false est
           ([(f, { pa with base := pa.base + BitVec.ofNat 24 (t.rows * stride) }), (g, { pb with base := pb.base + BitVec.ofNat 24 (256 * nsc) })], s)
       let e : Eng := { kind := .quant, tile := w.b.num, aBase := pa.base.toNat, aStride := stride, bBase := pb.base.toNat, issue := s.now,
                        timed := cx.timed, word := cx.pc, start := start, arg := l, incs := incs }
       .done ((s.modCore cx.c fun k => k.setEng q e).at start prioEngine (.engineStart cx.c q)))) s

/-- TCHK reads and clears the verdict counters (R234). -/
def execTchk (w : Fields) (s : State) : Out :=
  issue (.tchk w) (fun cx w s =>
    let t := (s.coreAt cx.c).tile w.b.num
    if !t.verdicts.isEmpty then Verdict.full cx 0x046
    else
      let s := s.modCore cx.c fun k => k.modTile w.b.num fun v => { v with last := 0, ind := 0 }
      result cx (.n w.a.num) (BitVec.ofNat 64 (t.ind * 65536 + t.last)) 2 s) s

end Sys2Proof.Machine
end

