-- ==== Sys2Proof/Machine/Cycle.lean ====
section
/-! DEFINITION. The cycle: the clock, the slots that each front end offers (R76 to R79, R350), the reads of a cycle, and the
service of scalar accesses (R71, R88, R110). -/

namespace Sys2Proof.Machine

/-- No thread of the front end has issued on this cycle, and it is a cycle that the control context leaves free: any in an untimed
segment, one that its last timed word opened in a timed one (R28, R78, R350). -/
def slotOpen (s : State) (c : Nat) : Bool :=
  let k := s.coreAt c
  k.issuedAt != s.now + 1 && (!s.controlTimed c || decide (s.now ≤ (k.thread 0).openTo))

/-- A thread that may use a slot of its core: a word that has issued and waits needs none. -/
def offered (s : State) (c t : Nat) : Bool :=
  let th := (s.coreAt c).thread t
  th.stat == .run && (t == 0 || t == 12 || th.waiting || slotOpen s c)

/-- The slots of a core on one cycle, in order: the control context, the trap context, the words of helpers that wait, a grant to
the helpers, the burin unit, which stays where it stands while the control context is in a trap or stopped (R247). -/
def coreTurns (c : Nat) (k : Core) : List Turn :=
  let runs (t : Nat) : Bool := (k.thread t).stat == .run
  let stands := (k.thread 0).stat == .trapped || (k.thread 0).stat == .stopped
  let helpers := ((List.range 10).map (· + 1)).filter runs
  (if runs 0 then [.thr c 0] else []) ++ (if runs 11 then [.thr c 11] else []) ++
    (helpers.filter fun t => (k.thread t).waiting).map (.thr c ·) ++
    (if helpers.isEmpty then [] else [.grant c]) ++ (if runs 12 && !stands then [.thr c 12] else [])

/-- The slots of this cycle, core by core in ascending coordinates: words that reach the hub together are performed in that order (R338, R342). -/
def layOut (s : State) : State :=
  let active := (s.cores.filter fun e => e.2.grp.isSome).map (·.1)
  let turns := (s.byCoords active).flatMap (fun c => coreTurns c (s.coreAt c)) ++
    (s.reqThreads.filter fun e => e.2.thread.stat == .run).map fun e => .req e.1
  { s with
           todo := turns, opened := true,
           cores := mapVals (fun k => if k.tried = 0 then k else { k with tried := 0 }) s.cores }

/-- The value of a load, from the bytes it samples (R173). -/
def sampleValue (sm : Sample) (bs : List Byte) : Word :=
  let n := leNat bs
  if sm.ptr then (Ptr.ofImage (BitVec.ofNat 64 n)).image
  else if sm.signed then signExtend (8 * sm.width) n
  else BitVec.ofNat 64 n

/-- A load reads the bytes as they stand at the start of the cycle, and lands after its latency, and as much later as returns from traps have put
it; a correction delays it by a cycle (R71, R73, R399). -/
def State.sampleFlight (s : State) (c t : Nat) (f : Flight) (sm : Sample) : State :=
  let ag : Agent := .core c t
  let v := sampleValue sm (s.view c (requester t) s.now sm.addr sm.width)
  let (s, late) := s.detectRead c sm.addr sm.width
  let land := s.now + loadLatency sm.addr + f.shift + (if late.isSome then 1 else 0)
  let s := s.modThread ag fun th =>
    { th with flight := th.flight.map fun g =>
        if g.seq = f.seq then { g with value := v, sample := none, land := land, late := late } else g }
  s.at land prioLanding (.resultLanding ag)

/-- A scalar access leaves its bank's queue. -/
def State.leaveBank (s : State) (p : Place) (x : Acc) : State := s.setAcc p ((s.accOf p).filter (· != x))

/-- The bank serves a scalar access: a load reads, with its armed tag compared on this cycle (R265), and a store's bytes are written at the end of
the cycle and committed 3 cycles later (R71, R72). -/
def State.serveScalar (s : State) (p : Place) (x : Acc) : State :=
  let s := (s.leaveBank p x).serve p x.bank
  let t := threadNo x.who
  let ag : Agent := .core x.core t
  match (s.threadOf ag).flight.find? fun f => f.seq == x.key && f.sample.isSome with
  | some f =>
    let miss := if isLocal x.addr then tagMismatch (s.coreAt x.core) (x.addr / 256) s.now else none
    (match miss, x.undo with
     | some i, some u => s.undoWord x.core t u i
     | _, _ => (if isLocal x.addr then s.freeTag x.core (x.addr / 256) else s).sampleFlight x.core t f (f.sample.getD {}))
  | none =>
    match (s.pendOf p).find? fun w => w.id == x.key with
    | some w =>
      (s.mapPend p fun w => if w.id = x.key then { w with endC := s.now, commitC := s.now + 3 } else w).at (s.now + 3) (prioCommit + w.who)
        (.counterproofCommit p w.id)
    | none => s

/-- The scalar access waits for a further cycle: what it will give comes one cycle later. -/
def State.delayScalar (s : State) (p : Place) (x : Acc) : State :=
  let ag : Agent := .core x.core (threadNo x.who)
  let s := if (s.threadOf ag).flight.any fun f => f.seq == x.key then
      s.modThread ag fun th => { th with flight := th.flight.map fun f =>
        if f.seq = x.key then { f with land := f.land + 1, sample := f.sample.map fun m => { m with cyc := m.cyc + 1 } } else f }
    else s
  if (s.pendOf p).any fun w => w.id == x.key then
    s.mapPend p fun w => if w.id = x.key then { w with endC := w.endC + 1, commitC := w.commitC + 1 } else w
  else s

/-- The scalar accesses of a place in the order in which they are served (R88). -/
def accInsert (x : Acc) : List Acc → List Acc
  | [] => [x]
  | y :: rest => if x.before y then x :: y :: rest else y :: accInsert x rest
def accSort : List Acc → List Acc
  | [] => []
  | x :: rest => accInsert x (accSort rest)

/-- The banks of a place serve the scalar accesses that have reached them: one of the first group on its cycle, another when the bank is free and
nothing that waits goes before it (R88, R111). -/
def State.servePlace (s : State) (p : Place) : State :=
  let l := accSort ((s.accOf p).filter fun x => x.scalar && decide (x.arrive ≤ s.now))
  l.foldl (fun s x =>
    if !(s.accOf p).contains x then s
    else if x.first || bankGrants s p x then s.serveScalar p x
    else s.delayScalar p x) s

/-- Places at which accesses wait. -/
def State.accPlaces (s : State) : List Place :=
  (s.cores.filter fun e => !e.2.acc.isEmpty).map (fun e => Place.core e.1) ++
    (s.clusters.filter fun e => !e.2.acc.isEmpty).map fun e => Place.cluster e.1

/-- The end of a cycle: every scalar access that its bank can serve is served. -/
def serveAll (s : State) : State := s.accPlaces.foldl (fun s p => s.servePlace p) { s with closed := true }

/-- What no longer waits at a bank: accesses of the first group are over with their cycle, and one that has not asked for its bank on this cycle
has lost its place. -/
def State.pruneAcc (s : State) : State :=
  s.accPlaces.foldl (fun s p =>
    s.setAcc p ((s.accOf p).filter fun x => if x.first then decide (s.now < x.arrive) else x.scalar || x.seen == s.now)) s

/-- The row that a timed send reads on this cycle (R264), a row access of the sending control context: an armed tag is compared, and a mismatch
takes the word back (R265). -/
def State.sampleSend (s : State) (q : Nat) (e : Send) : State :=
  let miss := if isLocal e.readRow then tagMismatch (s.coreAt e.src) (e.readRow / 256) s.now else none
  match miss, ((s.accOf (placeOf e.src e.readRow)).find? fun x => x.key == q).bind (·.undo) with
  | some i, some u => s.undoWord e.src 0 u i
  | _, _ =>
    let s := if isLocal e.readRow then s.freeTag e.src (e.readRow / 256) else s
    let bs := s.view e.src 0 s.now e.readRow 256
    ({ s with sends := SMap.put s.sends q { e with data := bs } }.detectRow e.src e.readRow true).1

def State.sampleSends (s : State) : State :=
  s.sends.foldl (fun s x =>
    if x.2.form = 0 && x.2.readC = s.now && (SMap.find s.sends x.1).isSome then s.sampleSend x.1 x.2 else s) s

/-- Halves of the given slabs in a bin. -/
def State.inBin (s : State) (lo hi bin : Nat) : Nat := (s.bins.filter fun x => lo ≤ x.1 && x.1 < hi && x.2 == bin).length

/-- The management controller refreshes PWR (R425). -/
def State.refreshPwr (s : State) (pkgw tmax : Nat) : State :=
  { s with hub := { s.hub with pkgw := BitVec.ofNat 16 pkgw, tmax := BitVec.ofNat 8 tmax, clkShown := s.hub.clk,
                               binc := BitVec.ofNat 8 (min 255 (s.inBin 0 2176 2)), bind := BitVec.ofNat 8 (min 255 (s.inBin 0 2176 3)) } }

/-- On every 65,536th cycle PWR is refreshed; what the sensors read is free (R425). -/
def State.managePower (s : State) : State :=
  if s.now % 65536 = 0 then
    let (p, s) := s.free
    let (t, s) := s.free
    s.refreshPwr p.toNat t.toNat
  else s

/-- At most one step of the clock every 2^20 cycles (R424). -/
def stepFrom (h : Hub) : Nat := match h.stepped with | none => 0 | some t => t + 2 ^ 20

/-- Halves of one stack in bin C: 32 or more are a condition for a step down. -/
def stackCrowded (s : State) : Bool := (List.range 4).any fun st => decide (32 ≤ s.inBin (st * 544) ((st + 1) * 544) 2)

/-- The clock takes a step; a condition has been met where it goes down. -/
def State.setClock (s : State) (clk : Nat) (condition : Bool) : State :=
  { s with hub := { s.hub with clk := clk, stepped := if clk = s.hub.clk then s.hub.stepped else some s.now,
                               conditionAt := if condition then s.now else s.hub.conditionAt } }

/-- The steps that the management controller takes by itself (R424): down while a stack has 32 halves in bin C, up once no condition has held for
2^30 cycles. -/
def State.stepClock (s : State) : State :=
  let due := decide (stepFrom s.hub ≤ s.now)
  if stackCrowded s then
    if due && decide (s.hub.clk < 2) then s.setClock (s.hub.clk + 1) true else { s with hub := { s.hub with conditionAt := s.now } }
  else if due && decide (0 < s.hub.clk) && decide (s.hub.conditionAt + 2 ^ 30 ≤ s.now) then s.setClock (s.hub.clk - 1) false
  else s

/-- The cores that hold a context. -/
def State.active (s : State) : List Nat := (s.cores.filter fun e => e.2.grp.isSome).map (·.1)

/-- Rows that the array or the gather unit is about to read on this cycle. -/
def Eng.rowsNow (e : Eng) (now : Nat) : List Nat :=
  if e.kind != .product then []
  else if e.started then (if e.phase == 1 || e.phase == 2 then e.readsNow.map (·.2) else [])
  else if e.gather && decide (e.gslot < e.gatherCount) then e.gatherRows[e.gslot]?.toList
  else if e.timed && e.start == now then
    ({ e with phase := if e.phases.1 = 0 then 2 else 1, slot := 0 } : Eng).readsNow.map fun x => x.2
  else []

/-- The timed rows of a core that reach shared memory on this cycle (R110). -/
def rowClaims (s : State) (c : Nat) : List Claim :=
  let k := s.coreAt c
  let claim (a : Nat) : Claim := { cyc := s.now, bank := bankIn a, core := c, addr := a }
  (k.vecs.flatMap fun x => if x.2.timed then ((x.2.rowsOn s.now).filter isShared).map fun a => { claim a with vec := some x.1 } else []) ++
    k.engs.flatMap fun x => ((x.2.rowsNow s.now).filter isShared).map fun a => { claim a with eng := some x.1 }

/-- The clusters whose shared banks timed accesses reach on this cycle. -/
def sharedPlaces (s : State) : List Nat :=
  (((s.clusters.filter fun e => e.2.acc.any fun x => x.first && x.arrive == s.now).map (·.1)) ++
    ((s.sends.filter fun e => e.2.lands == s.now && e.2.form != 2 && isShared e.2.addr).map fun e => clusterOf e.2.dst) ++
    (s.active.filter fun c => !(rowClaims s c).isEmpty).map clusterOf).eraseDups

/-- Every conflict of timed requesters at a shared bank is found with all that take part in it, before any of them is performed (R110). -/
def resolveShared (s : State) : State :=
  (sharedPlaces s).foldl (fun s k =>
    let rows := (s.active.filter fun c => clusterOf c == k).flatMap (rowClaims s)
    let banks := ((((s.clusterAt k).acc.filter fun x => x.first && x.arrive == s.now).map (·.bank)) ++ rows.map (·.bank) ++
      ((s.sends.filter fun e => e.2.lands == s.now && e.2.form != 2 && isShared e.2.addr && clusterOf e.2.dst == k).map fun e => sharedBankOf e.2.addr)).eraseDups
    banks.foldl (fun s b =>
      let l := sharedUses s k b ++ rows.filter (·.bank == b)
      if conflicting l then s.conflict k b l l else s) s) s

/-- What reads at the start of a cycle, once the conflicts at shared banks are settled: sends and engines (R110, R228, R264). Loads read when
their banks serve them. -/
def readAll (s : State) : State :=
  let s := resolveShared { s with read := true }
  s.active.foldl (fun s c => s.streamEngines c) s.sampleSends

/-- The clock goes on by one cycle: on every 1,024th cycle the energy budgets are refilled (R136), PWR is refreshed, and the arithmetic clock may
take a step. -/
def tick (s : State) : State :=
  let s := (State.managePower { s.pruneAcc with now := s.now + 1, opened := false, read := false, closed := false }).stepClock
  let active := s.active
  if s.now % 1024 = 0 then active.foldl (fun s c => s.at s.now prioRefill (.budgetRefill c)) s else s

end Sys2Proof.Machine
end

