-- ==== Sys2Proof/Machine/Control.lean ====
section
/-! DEFINITION. Class 0x2: the control instructions (R168 to R172), and the starting and ending of a burin trigger (R132,
R244, R245). -/

namespace Sys2Proof.Machine

/-- The burin unit starts a trigger: n0 is the row's byte address, n1 its index in the region that it was pushed into; the other
registers keep their values (R244). -/
def Core.startTrigger (k : Core) (now row index : Nat) : Core :=
  let th := k.thread 12
  let th := (th.writeN 0 (BitVec.ofNat 64 (row * 256))).writeN 1 (BitVec.ofNat 64 index)
  { k.setThread 12 { th with stat := .run, pc := k.burin.entry, waiting := false, notBefore := now + 1 } with
    burin := { k.burin with running := true } }

/-- The unit takes its next pending trigger, unless it runs one or a fault has stopped it (R132, R246). -/
def Core.nextTrigger (k : Core) (now : Nat) : Core :=
  if k.burin.running || k.burin.fault.isSome then k
  else
    match k.burin.pend with
    | [] => k
    | (row, index) :: rest => Core.startTrigger { k with burin := { k.burin with pend := rest } } now row index

/-- A trigger ends; a region that replaces the watched one takes effect (R244). -/
def Core.endTrigger (k : Core) (now : Nat) : Core :=
  let b := k.burin
  let b := { b with running := false, runs := (b.runs + 1) % 65536 }
  let b := match b.next with
    | some (e, rb, n, sb) => { b with entry := e, rowBase := rb, rows := n, sbs := sb, next := none }
    | none => b
  Core.nextTrigger (({ k with burin := b }).modThread 12 fun th => { th with stat := .free }) now

/-- A taken branch: cause 0x04A out of the timed segment, cause 0x010 out of the code region, each before any effect; in an
untimed segment the target issues no earlier than the second cycle after the branch (R168 to R170, R428). -/
def branchTo (cx : Cx) (source : Nat) (target : Word) (s : State) : Verdict :=
  let inSeg := match s.segOf cx.ag cx.pc with
    | some g => decide (g.first ≤ target.toNat) && decide (target.toNat < g.first + g.nw)
    | none => true
  if !inSeg then .cause 0x04A
  else if s.codeWords cx.ag ≤ target.toNat then .report 0x010 [target, BitVec.ofNat 64 source]
  else
    .done (s.modThread cx.ag fun th =>
      { th with pc := target.toNat, notBefore := if cx.timed then th.notBefore else s.now + 2 })

/-- A state with a result in flight, where the branch is taken. -/
def Verdict.andLand (v : Verdict) (cx : Cx) (dest : Dest) (x : Word) : Verdict :=
  match v with
  | .done s => .done (s.land cx.ag cx.pc dest x true 1)
  | v => v

/-- The branching word's own address plus an offset (R168). -/
def relTarget (cx : Cx) (o : Operand) : Word := BitVec.ofInt 64 ((cx.pc : Int) + o.immInt)

def execBr (w : Fields) (s : State) : Out :=
  issue (.br w) (fun cx w s => branchTo cx 0 (relTarget cx w.a) s) s

def execBri (w : Fields) (s : State) : Out :=
  issue (.bri w) (fun cx w s => branchTo cx 1 ((s.self cx).src w.a + BitVec.ofInt 64 w.b.immInt) s) s

def execCall (w : Fields) (s : State) : Out :=
  issue (.call w) (fun cx w s =>
    (branchTo cx 2 (relTarget cx w.b) s).andLand cx (.n w.a.num) (BitVec.ofNat 64 (cx.pc + 1))) s

def execRet (w : Fields) (s : State) : Out :=
  issue (.ret w) (fun cx w s => branchTo cx 3 ((s.self cx).src w.a) s) s

/-- LOOP decrements its count and branches while it is not 0 (R168). -/
def execLoop (w : Fields) (s : State) : Out :=
  issue (.loop w) (fun cx w s =>
    let n := (s.self cx).readN w.a.num - 1
    if n = 0 then result cx (.n w.a.num) n 1 s
    else (branchTo cx 4 (relTarget cx w.b) s).andLand cx (.n w.a.num) n) s

def execNop (w : Fields) (s : State) : Out := issue (.nop w) (fun _ _ s => .done s) s

/-- RTEND ends the routine of a control context (R172), the trigger of a burin unit (R245) or the program of a request thread
(R129). -/
def execRtend (w : Fields) (s : State) : Out :=
  issue (.rtend w) (fun cx _ s =>
    match cx.ag with
    | .req id =>
      let r := s.reqAt id
      .done ((s.setReq id { r with thread := { r.thread with stat := .done } }).at s.now prioNet (.engineOperationComplete r.op))
    | .core c 12 => .done (s.modCore c fun k => k.endTrigger s.now)
    | .core c t =>
      .done ((s.modCore c fun k => k.modThread t fun th => { th with stat := .ending }).at s.now prioEngine (.routineDispatch c))) s

end Sys2Proof.Machine
end

