-- ==== Sys2Proof/Machine/Engine.lean ====
section
/-! DEFINITION. Engine operations: how a word starts one and how it completes (R123), batches and their waits (R124 to R126, R257 to
R259), stage barriers (R131), remote operands (R94, R95), and the anchors that waits make (R68, R304, R305). -/

namespace Sys2Proof.Machine

/-! Remote operands. -/

/-- The core or the cluster that a logical operand names, and the local address there; a cluster is given by its core 0. -/
structure Target where
  fe : Nat
  addr : Nat
  deriving DecidableEq, Repr

/-- The target of a logical remote operand; none where R95 refuses it. -/
def logicalTarget (s : State) (c : Nat) (r : Word) : Option Target :=
  let f (lo n : Nat) : Nat := r.toNat / 2 ^ lo % 2 ^ n
  let scope := f 34 2
  let a := f 0 24
  let k := s.coreAt c
  if f 36 28 != 0 || scope == 3 || (scope != 2 && f 32 2 != 0) || (scope == 0 && f 28 4 != 0) || (isShared a && f 24 4 != 0) then none
  else
    (s.memberAt (s.groupOfCore c) (if scope = 2 then f 32 2 else k.stk) (if scope = 0 then k.clus else f 28 4) (f 24 4)).map fun fe =>
      { fe := fe, addr := a }

/-- A remote operand of RGET, RPUT or WSIG that is refused at issue (R94, R95). -/
def remoteBad (s : State) (c : Nat) (r : Word) : Bool :=
  if r.getLsbD 63 then r.extractLsb' 56 7 != 0 else (logicalTarget s c r).isNone

/-! Starting an operation. -/

/-- The thread holds as many unsealed operations as it may (R124). -/
def opsFull (th : Thread) : Bool := decide (64 ≤ th.unsealed.length)

/-- A word that starts an engine operation: a timed one has its cause 0x049 before its own checks (R353). -/
def unlessFull (cx : Cx) (s : State) (k : Verdict) : Verdict := if cx.timed && opsFull (s.self cx) then .cause 0x049 else k

/-- A new engine operation of the issuing thread; its number is given back. -/
def State.newOp (s : State) (cx : Cx) (e : EngOp) : Nat × State :=
  let (q, s) := s.take
  let g := s.groupOfCore cx.c
  let parent := match cx.ag with | .req id => some id | _ => none
  (q, s.setOp q { e with agent := cx.ag, core := cx.c, ctx := s.ctxOf cx.ag, grp := g, mapv := (s.groupAt g).mapv, issued := s.now,
                         parent := parent })

/-- The word starts an engine operation that enters the unsealed set (R124), and `go` sends it on its way. -/
def startOpBy (cx : Cx) (e : EngOp) (go : Nat → State → State) (s : State) : Verdict :=
  if opsFull (s.self cx) then .full cx 0x049
  else
    let (q, s) := s.newOp cx e
    .done (go q (s.modThread cx.ag fun th => { th with unsealed := th.unsealed ++ [q] }))

/-- The first event of the operation is due after a duration of the part's. -/
def startOp (cx : Cx) (e : EngOp) (ev : Nat → Instr) (s : State) (least : Nat := 1) : Verdict :=
  startOpBy cx e (fun q s => s.later least (ev q)) s

/-! Completion. -/

/-- The operation has completed. -/
def State.opEnded (s : State) (o : Nat) : Bool := match SMap.find s.ops o with | some e => e.st != .running | none => true

/-- The cause with which an operation ended, unless it has been passed over (R125). -/
def State.opFailed (s : State) (o : Nat) : Option Nat :=
  match SMap.find s.ops o with
  | some e => if e.passed then none else (match e.st with | .failed n => some n | _ => none)
  | none => none

/-- An operation completes: with its cause, if it has one (R123). A copy of the burin unit that fails is a burin fault (R256). -/
def State.endOp (s : State) (o : Nat) (e : EngOp) (cause : Option Nat) : State :=
  let s := s.setOp o { e with st := match cause with | some n => .failed n | none => .done, performed := true }
  match e.agent with
  | .core c 12 =>
    let s := { s with ops := SMap.erase s.ops o }
    match cause with
    | some n => s.modCore c fun k => k.burinFault n ((k.thread 12).pc - 1)
    | none => s
  | .req id => if (s.reqAt id).thread.stat == .run then s else s.at s.now prioNet (.engineOperationComplete (s.reqAt id).op)
  | _ => s

/-- The operations of a request thread, oldest first. -/
def Thread.allOps (th : Thread) : List Nat := th.batches.reverse.flatMap (·.ops) ++ th.unsealed

/-- How a request that a program serves ends: none while it goes on (R129). -/
def State.requestEnd (s : State) (id : Nat) : Option (Option Nat) :=
  let th := (s.reqAt id).thread
  let ops := th.allOps
  match th.stat with
  | .trapped => if ops.all s.opEnded then some (th.trap.map (·.cause)) else none
  | .done => if ops.all s.opEnded then some (ops.findSome? s.opFailed) else none
  | _ => none

/-! Batches (R124, R257). -/

def Batch.ended (s : State) (b : Batch) : Bool := b.ops.all s.opEnded

/-- The unfinished batches of a list that is newest first: a batch is finished when every earlier one is, too. -/
def unfinished (s : State) : List Batch → Nat
  | [] => 0
  | b :: rest =>
    let n := unfinished s rest
    if n = 0 && b.ended s then 0 else n + 1

/-- The unsealed set becomes a batch. Of the batches that are no longer among the 64 most recent only those that hold a failed operation are of
use to a wait (R125, R259). -/
def State.sealBatch (s : State) (ag : Agent) : State :=
  let th := s.threadOf ag
  let l : List Batch := { num := th.nextBatch, ops := th.unsealed } :: th.batches
  let spent (b : Batch) : Bool := b.ended s && b.ops.all fun o => (s.opFailed o).isNone
  let old := l.drop 64
  let gone := (old.filter spent).flatMap (·.ops)
  let s := s.setThread ag { th with unsealed := [], batches := l.take 64 ++ old.filter fun b => !spent b, nextBatch := th.nextBatch + 1 }
  if gone.isEmpty then s else { s with ops := s.ops.filter fun x => !gone.contains x.1 }

def execSealBatch (w : Fields) (s : State) : Out :=
  issue (.sealBatch w) (fun cx w s =>
    let th := s.self cx
    if 15 ≤ unfinished s th.batches then .full cx 0x049
    else result cx (if w.a.zero then .none else .n w.a.num) (th.nextBatch.setWidth 64) 1 (s.sealBatch cx.ag)) s

/-- The failed operation that a wait reports: the earliest issued in the oldest of the batches (R125). -/
def firstFailed (s : State) (oldestFirst : List Batch) : Option (Nat × Nat × Batch) :=
  oldestFirst.findSome? fun b => b.ops.findSome? fun o => (s.opFailed o).map fun n => (o, n, b)

/-- The cause record of a failed operation (R377). -/
def failRecord (e : EngOp) (batch : Nat) : List Word :=
  [e.fva, BitVec.ofNat 64 e.fkind, BitVec.ofNat 64 batch, BitVec.ofNat 64 e.foff]

/-- The operations are joined: a poisoned one sets NAR in the thread (R379). -/
def State.join (s : State) (ag : Agent) (ops : List Nat) : State :=
  if ops.any fun o => (s.opAt o).poisoned && (SMap.find s.ops o).isSome then
    let s := s.modThread ag fun th => th.raise fNAR
    ops.foldl (fun s o => if (SMap.find s.ops o).isSome then s.modOp o fun e => { e with poisoned := false } else s) s
  else s

/-! Anchors (R68, R304, R305). -/

/-- What the selector of a core decides at an anchoring word. -/
inductive Selection where
  /-- no switch entry: the kernel goes on at the next word -/
  | stay
  | switch (state k word : Nat)
  | refuse (cause : Nat)
  deriving DecidableEq, Repr

/-- The state with the least capacity that covers a size. -/
def leastState (states : List PlateState) (size : Nat) : Option Nat :=
  (List.range states.length).foldl (fun r i =>
    let cap := (states.getD i {}).cap
    if cap < size then r
    else match r with
      | none => some i
      | some j => if cap < (states.getD j {}).cap then some i else some j) none

/-- State selection at anchoring word `pc`; `maxSz` and `maxTotal` are what the tree gives at a barrier release (R305). -/
def selectState (s : State) (c pc : Nat) (sync : Option (Nat × Nat)) : Selection :=
  let k := s.coreAt c
  let states := (s.kernelAt c).states
  match ((states.getD k.state {}).switches.find? fun e => e.anw == pc) with
  | none => .stay
  | some e =>
    let size :=
      match e.src, sync with
      | 0, _ => k.sz.toNat
      | 1, _ => k.xtotal
      | 2, none => k.sz.toNat
      | 2, some (m, _) => m
      | _, none => k.xtotal
      | _, some (_, m) => m
    match leastState states size with
    | none => .refuse 0x1D3
    | some i =>
      let st := states.getD i {}
      if k.allow < st.resv then .refuse 0x1D4
      else
        match st.switches.find? fun x => x.k == e.k with
        | some x => .switch i e.k x.cont
        | none => .stay

/-- An anchor number that no send slot names: the anchor has no switch entry (R306). -/
def noAnchor : Nat := 65536

/-- The thread's cycle 0 is cycle `a`: its next word begins a segment (R68). Only a control context has anchors. The cycles before `a` on
which an untimed word has waited are open slots (R28). -/
def anchorAt (cx : Cx) (a dom : Nat) (sync : Option (Nat × Nat)) (s : State) : Verdict :=
  if cx.t != 0 then .done s
  else
    let set (k : Nat) (pc : Option Nat) (s : State) : State :=
      (s.modCore cx.c fun v => if v.freed.isEmpty && v.replays.isEmpty then v else { v with freed := [], replays := v.replays.filter fun x => !x.timed }).modThread cx.ag fun th =>
        { th with anchor := a, anchorK := k, anchorDom := dom, fresh := true, seg := none, dueAt := none,
                  openTo := if cx.timed then th.openTo else a - 1, notBefore := a, pc := pc.getD th.pc }
    match selectState s cx.c cx.pc sync with
    | .stay => .done (set noAnchor none s)
    | .switch i k word => .done (set k (some word) (s.modCore cx.c fun v => { v with state := i }))
    | .refuse n => .cause n

/-- Every earlier result of the thread has landed and every earlier local write has been committed. -/
def threadQuiet (s : State) (cx : Cx) : Bool :=
  (s.self cx).flight.isEmpty && !writesLeft s cx.c cx.t

/-! Waits (R125, R126, R258). -/

/-- WAITB with a count: all but the `n` newest batches are finished, and none of them holds a failed operation. The cycles on which it waits
are open slots, in a timed segment too (R28, R126). -/
def waitBatches (cx : Cx) (n : Nat) (s : State) (k : State → Verdict) : Verdict :=
  let opens (s : State) : State := if cx.timed then s.modThread cx.ag fun th => { th with openTo := max th.openTo s.now } else s
  let th := s.self cx
  if n < unfinished s th.batches then .wait (opens s)
  else
    let s := if cx.again then opens s else s
    let l := (th.batches.drop n).reverse
    match firstFailed s l with
    | some (o, cause, b) => .trap { cause := cause, record := failRecord (s.opAt o) b.num.toNat, op := some o }
    | none => k (s.join cx.ag (l.flatMap (·.ops)))

/-- A stage barrier (R131). -/
def Core.stage (k : Core) (j : Nat) : Sbs := SMap.get {} k.sbs j

/-- The stop of the burin unit, where a word of the control context is the next to take it (R246). -/
def burinStop (k : Core) (cx : Cx) : Option TrapInfo :=
  if cx.t == 0 && k.burin.untaken then
    some { cause := 0x0E0, record := [BitVec.ofNat 64 k.burin.faultWord, BitVec.ofNat 64 (k.burin.fault.getD 0)] }
  else none

/-- The stop is taken once. -/
def State.takeBurin (s : State) (c : Nat) : State := s.modCore c fun k => { k with burin := { k.burin with untaken := false } }

/-- A stage-barrier wait (R131, R258, R326). -/
def waitStage (cx : Cx) (j : Nat) (s : State) : Verdict :=
  let k := s.coreAt cx.c
  let b := k.stage j
  if b.s = 0 then .cause 0x0D1
  else
    match (if k.burin.armed && k.burin.sbs == j then burinStop k cx else none) with
    | some t => .trap t
    | none =>
      if b.counts.headD 0 < b.rows * 256 then .wait s
      else
        let s := s.modCore cx.c fun k => { k with sbs := SMap.put k.sbs j { b with fills := b.fills + 1, stage := (b.stage + 1) % b.s, counts := b.counts.drop 1 } }
        anchorAt cx (s.now + 1) 0 none s

def waitbBody (cx : Cx) (w : Fields) (s : State) : Verdict :=
  match w.a.kind, cx.ag with
  | .special, .req _ => .cause 0x002
  | .special, _ => waitStage cx (w.a.num - 0x010) s
  | _, _ => waitBatches cx w.a.immInt.toNat s fun s => anchorAt cx (s.now + 1) 0 none s

/-- WAITB; a stop of the burin unit that it reports has been taken with the trap. -/
def execWaitb (w : Fields) (s : State) : Out :=
  let cx := s.cx
  let took (t : State) : State :=
    match (t.self cx).trap with
    | some r => if r.cause = 0x0E0 && (t.self cx).stat == .trapped && r.cyc = t.now then t.takeBurin cx.c else t
    | none => t
  match issue (.waitb w) waitbBody s with
  | .next t => .next (took t)
  | r => r

/-- The status word of CPQ, for the 64 most recent batches (R259). -/
def batchWord (s : State) (l : List Batch) (num : Nat) : Word × Option Batch :=
  match (l.take 64).find? fun b => b.num.toNat == num with
  | none => (3, none)
  | some b =>
    let later := l.takeWhile fun x => x.num != b.num
    let done := decide (unfinished s l ≤ later.length)
    let cause := b.ops.findSome? fun o =>
      (SMap.find s.ops o).bind fun e => match e.st with | .failed n => some n | _ => none
    let stat := (b.ops.findSome? fun o => (SMap.find s.ops o).bind fun e =>
      match e.st with | .done => if e.stat = 0 then none else some e.stat | _ => none).getD 0
    let st := if !done then 0 else if cause.isSome then 2 else 1
    (BitVec.ofNat 64 ((if st = 2 then cause.getD 0 else 0) * 2 ^ 32 + stat * 2 ^ 24 + b.ops.length * 2 ^ 16 + st),
      if st = 0 then none else some b)

def execCpq (w : Fields) (s : State) : Out :=
  issue (.cpq w) (fun cx w s =>
    let th := s.self cx
    let (v, b) := batchWord s th.batches (th.src w.b).toNat
    let s := match b with | some b => s.join cx.ag b.ops | none => s
    result cx (.n w.a.num) v 2 s) s

/-- ANCH: the cycle after every earlier result has landed and every earlier local write has been committed is cycle 0 (R278). -/
def execAnch (w : Fields) (s : State) : Out :=
  issue (.anch w) (fun cx _ s => if threadQuiet s cx then anchorAt cx (s.now + 1) 0 none s else .wait s) s

end Sys2Proof.Machine
end

