-- ==== Sys2Proof/Machine/Lend.lean ====
section
/-! DEFINITION. Lending the array: CAPMINT, LEND and MCMD (R135, R236 to R239). -/

namespace Sys2Proof.Machine

def Core.cap (k : Core) (i : Nat) : Cap := SMap.get {} k.caps i

/-- A field of a descriptor. -/
def bitField (w : Word) (lo n : Nat) : Nat := w.toNat / 2 ^ lo % 2 ^ n

/-- The check value that the generator gives: never 0 and never the entry's previous one (R236). -/
def checkValue (f : Word) (prev : BitVec 16) : BitVec 16 :=
  let v : BitVec 16 := f.setWidth 16
  if v != 0 && v != prev then v else if prev = 1 then 2 else 1

/-- A capability (R237). -/
def capWord (idx : Nat) (e : Cap) : Word :=
  BitVec.ofNat 64 (idx * 2 ^ 60 + e.rights.toNat * 2 ^ 56 + e.expiry / 1024 % 2 ^ 40 * 2 ^ 16 + e.check.toNat)

/-- CAPMINT (R236). -/
def execCapmint (w : Fields) (s : State) : Out :=
  issue (.capmint w) (fun cx w s =>
    let th := s.self cx
    let d := th.src w.b
    let life := (th.src w.c).toNat
    let idx := bitField d 0 4
    if bitField d 60 4 != 0 || d.getLsbD 7 || decide (bitField d 32 16 < bitField d 16 16) then .cause 0x101
    else if life = 0 then
      result cx (.n w.a.num) 0 2 (s.modCore cx.c fun k => { k with caps := SMap.put k.caps idx { (k.cap idx) with valid := false } })
    else
      let (f, s) := s.free
      let e : Cap := { valid := true, rights := BitVec.ofNat 4 (bitField d 4 4), tmask := BitVec.ofNat 8 (bitField d 8 8),
                       lo := bitField d 16 16, hi := bitField d 32 16, kmax := bitField d 48 12 + 1,
                       expiry := s.now + life * 1024, check := checkValue f ((s.coreAt cx.c).cap idx).check }
      result cx (.n w.a.num) (capWord idx e) 2 (s.modCore cx.c fun k => { k with caps := SMap.put k.caps idx e })) s

/-- LEND (R238). -/
def execLend (w : Fields) (s : State) : Out :=
  issue (.lend w) (fun cx w s =>
    let th := s.self cx
    let a := w.a.immInt.toNat
    let b := w.b.immInt.toNat
    let set (l : Option Lend) : Verdict := .done (s.modCore cx.c fun k => { k with lend := l })
    if cx.timed then
      let lo := th.anchor + a
      if lo < s.now + 1 then .cause 0x04C
      else set (if b = 0 then none else some { lo := lo, hi := lo + b, seg := th.seg })
    else set (if b = 0 then none else some { lo := s.now + 1, hi := s.now + 1 + b })) s

/-- A command word whose reserved fields or format are refused at the sender (R239). -/
def commandBad (d : Word) : Bool :=
  bitField d 58 6 != 0 || bitField d 3 4 != 0 || !([4, 11, 1, 2, 3].contains (bitField d 10 4))

/-- MCMD (R239). -/
def execMcmd (w : Fields) (s : State) : Out :=
  issue (.mcmd w) (fun cx w s =>
    let th := s.self cx
    let a := th.src w.a
    unlessFull cx s <|
    match (if a.getLsbD 63 || a.extractLsb' 0 24 != 0 then none else logicalTarget s cx.c a) with
    | none => .cause 0x182
    | some t =>
      if commandBad (th.src w.c) then .cause 0x101
      else
        startOp cx { kind := .mcmd, av := a, bv := th.src w.b, cv := th.src w.c, tgt := t.fe } (fun q => .mcmdArrival q) s 5) s

/-! At the target. -/

/-- The product that a command asks for, over packed rows, on the tile as it is configured (R239). -/
def commandEng (k : Core) (d : Word) : Eng :=
  let t := k.tile (bitField d 0 3)
  let e : Eng := { kind := .product, tile := bitField d 0 3, fmt := bitField d 10 4, k := bitField d 14 12 + 1,
                   zero := d.getLsbD 8, ck := d.getLsbD 7, sparse := d.getLsbD 9, aBase := bitField d 26 16 * 256,
                   bBase := bitField d 42 16 * 256, tm := t.rows, tn := t.cols, ty := t.ty, bl := t.bl, sp := t.sp }
  { e with aStride := e.aSpan * 256, bStride := e.bSpan * 256 }

/-- The command exceeds the entry's rights or bounds, or does not fit the tile (R239). -/
def rightsBad (k : Core) (c : Cap) (e : Eng) : Bool :=
  let r := c.rights
  (if e.sparse then !r.getLsbD 1 else !r.getLsbD 0) || (e.zero && !r.getLsbD 2) || !c.tmask.getLsbD e.tile ||
    decide (c.kmax < e.k) || productBad e ||
    e.knownRows.any fun a => decide (a / 256 < c.lo) || decide (c.hi < a / 256) || (k.guardFail a 256 true false).isSome ||
      k.personality a 256

/-- The cycle on which the array becomes free of the products that hold it and of the commands accepted before (R239). -/
def arrayFreeAt (k : Core) (now : Nat) : Nat :=
  k.engs.foldl (fun t x =>
    let e := x.2
    if e.kind != .product then t
    else if e.started then max t e.until_
    else if e.lent.isSome then max t (now + 1) + k.occupied e
    else t) 0

/-- The first status of R135 that applies to a command, 0 where it is accepted. -/
def commandStatus (k : Core) (now : Nat) (cap d : Word) : Nat :=
  let e := commandEng k d
  let c := k.cap (bitField cap 60 4)
  match k.lend with
  | none => 1
  | some l =>
    if now < l.lo || l.hi ≤ now then 1
    else if !c.valid then 2
    else if c.check.toNat != bitField cap 0 16 || c.expiry / 1024 % 2 ^ 40 != bitField cap 16 40 || c.rights.toNat != bitField cap 56 4 then 3
    else if c.expiry ≤ now then 4
    else if rightsBad k c e then 5
    else if l.hi ≤ max (now + 1) (arrayFreeAt k now) + k.occupied e + 12 then 6
    else 0

/-- A member's core runs: it is neither saved nor stopped (R238). -/
def State.coreRuns (s : State) (c : Nat) : Bool := (s.groupAt (s.groupOfCore c)).st.runs && (s.coreAt c).grp.isSome

/-- MCMD_ARRIVAL: the check cycle, the fourth after the command reached the target's NI (R239). A stamp of an older map sends the command
to where its core is now (R317). -/
def execMcmdArrival (o : Nat) (s : State) : Out :=
  match SMap.find s.ops o with
  | none => .next s
  | some e =>
    if e.st != .running || e.performed then .next s
    else if e.mapv != (s.groupAt e.grp).mapv then
      .next ({ s with hub := { s.hub with stale := s.hub.stale + 1 } }.at s.now prioNet (.staleReissue o 0))
    else
      let k := s.coreAt e.tgt
      let n := if s.coreRuns e.tgt then commandStatus k s.now e.bv e.cv else 1
      if n != 0 then .next (s.replyOp o n none)
      else
        let (q, s) := s.take
        let p := { commandEng k e.cv with lent := some o, issue := s.now, start := s.now + 1 }
        let s := s.modCore e.tgt fun k => k.setEng q p
        .next (s.at (s.now + 1) prioEngine (.mcmdStart e.tgt q))

/-- MCMD_START: commands run one at a time, in arrival order, once the array is free (R239); the tile is busy from the start on (R220). -/
def execMcmdStart (c q : Nat) (s : State) : Out :=
  match SMap.find (s.coreAt c).engs q with
  | none => .next s
  | some e =>
    let k := s.coreAt c
    let waits := k.engs.any fun x => decide (x.1 < q) && x.2.lent.isSome && !x.2.started
    if e.started then .next s
    else if arrayFree s c q false && !waits then
      let s := s.modCore c fun k => k.modTile e.tile fun v =>
        { v with busy := v.busy ++ [q], verdicts := if e.ck then v.verdicts ++ [q] else v.verdicts }
      .next (s.startProduct c q e)
    else .next (s.at (s.now + 1) prioEngine (.mcmdStart c q))

end Sys2Proof.Machine
end

