-- ==== Sys2Proof/Machine/Merge.lean ====
section
/-! DEFINITION. The merge tree: MBIND, MMERGE, MDRAIN, MSTAT and its decisions (R134, R240 to R242). -/

namespace Sys2Proof.Machine

def Merge.stream (g : Merge) (i : Nat) : MStream := SMap.get {} g.streams i
def Merge.setStream (g : Merge) (i : Nat) (m : MStream) : Merge := { g with streams := SMap.put g.streams i m }

/-- The input streams that take part. -/
def Merge.inputs (g : Merge) : List Nat := (List.range 8).filter g.mask.testBit

def MStream.exhausted (m : MStream) : Bool := decide (m.count ≤ m.cursor)

/-- The entry at a stream's cursor: key in the upper half, value in the lower (R240). -/
def MStream.head (m : MStream) : Nat :=
  match m.row with
  | some r => leNat ((r.2.drop ((m.base + 8 * m.cursor) % 256)).take 8)
  | none => 0

/-- MBIND (R240): a running tree comes before the checks of the region (R353). A pointer named with + moves once, by its stride (DESIGN CHOICE,
log entry 45). -/
def execMbind (w : Fields) (s : State) : Out :=
  issue (.mbind w) (fun cx w s =>
    let th := s.self cx
    let k := s.coreAt cx.c
    let i := w.a.immInt.toNat
    let b := th.base w.b false
    let n := (th.src w.c).toNat
    let out := i == 8
    let outside := decide (localEnd < b + 8 * n) || !isLocal b
    if k.merge.st = 1 then .full cx 0x04B
    else
      checked
        (firstTrap
          [if n ≤ 65535 then guardTrap s cx b (8 * n) (!out) out else none,
           causeIf (outside && decide (n ≤ 65535)) 0x0D4,
           causeIf (b % 8 != 0) 0x0D2,
           causeIf (k.personality b (8 * n) && decide (n ≤ 65535)) 0x0D0,
           causeIf (decide (65535 < n)) 0x101])
        (if k.changingIn b (8 * n) then .hold
         else
           let s := s.modCore cx.c fun k =>
             let g := k.merge.setStream i { base := b, count := n }
             { k with merge := if out then { g with pos := 0, part := [] } else g }
           .done (s.advance cx w.b (th.stride w.b) 1))) s

/-- MMERGE (R241). -/
def execMmerge (w : Fields) (s : State) : Out :=
  issue (.mmerge w) (fun cx w s =>
    let th := s.self cx
    let k := s.coreAt cx.c
    let mask := w.a.immInt.toNat
    let start := if cx.timed then th.anchor + w.c.immInt.toNat else s.now + 2
    checked (firstTrap [startTrap s cx w.c.immInt.toNat, causeIf (mask == 0 && k.merge.st != 2 && k.merge.st != 3) 0x101])
      (let (q, s) := s.take
       let e : Eng := { kind := .merge, issue := s.now, timed := cx.timed, word := cx.pc, start := start, arg := mask, mode := w.m.toNat }
       .done ((s.modCore cx.c fun k => k.setEng q e).at start prioEngine (.engineStart cx.c q)))) s

/-- The tree goes on with the accesses of this cycle. -/
def State.wakeMerge (s : State) (c : Nat) : State := s.at s.now prioBank (.mergeDecision c)

/-- The merge will stand in state `st` once its last row is written (R241, R242). -/
def State.stopMerge (s : State) (c st : Nat) : State := s.modCore c fun k => { k with merge := { k.merge with fin := st } }

/-- MDRAIN (R242): the decision of this cycle is still made. -/
def execMdrain (w : Fields) (s : State) : Out :=
  issue (.mdrain w) (fun cx _ s =>
    if (s.coreAt cx.c).merge.st = 1 then
      .done ((s.modCore cx.c fun k => { k with merge := { k.merge with drain := true, next := min k.merge.next s.now } }).wakeMerge cx.c)
    else .done s) s

/-- The status word of the tree (R242). -/
def Merge.word (g : Merge) : Word :=
  let exh := g.inputs.foldl (fun n i => if (g.stream i).exhausted then n + 2 ^ i else n) 0
  BitVec.ofNat 64 (g.out % 65536 * 2 ^ 32 + exh * 2 ^ 16 + g.st)

/-- MSTAT (R242). -/
def execMstat (w : Fields) (s : State) : Out :=
  issue (.mstat w) (fun cx w s =>
    let g := (s.coreAt cx.c).merge
    if g.st = 5 then .report 0x0C9 [BitVec.ofNat 64 (g.faultStream + g.faultMark), BitVec.ofNat 64 g.faultEntry]
    else result cx (.n w.a.num) g.word 2 s) s

/-- The stream with the least key, the lowest number on a tie (R134). -/
def Merge.least (g : Merge) : Option Nat :=
  g.inputs.foldl (fun r i =>
    let m := g.stream i
    if m.exhausted then r
    else match r with
      | none => some i
      | some j => if m.head / 2 ^ 32 < (g.stream j).head / 2 ^ 32 then some i else some j) none

/-- A stream whose head is below its previous key (R241). -/
def Merge.unsorted (g : Merge) : Option Nat :=
  g.inputs.find? fun i =>
    let m := g.stream i
    !m.exhausted && m.cursor != 0 && decide (m.head / 2 ^ 32 < m.prevKey)

/-- The value of two entries of equal key (R241), and the flags of the sum: of a matrix instruction's, NV and OF (R32, R53; DEDUCED that
MMERGE is one, log entry 48). -/
def combineValues (mode x y : Nat) : Nat × Flags :=
  if mode = 1 then ((x + y) % 2 ^ 32, 0)
  else
    let r := addNum 1 0 (decodeFloat 1 x) (decodeFloat 1 y)
    (r.1, r.2 &&& (fNV ||| fOF))

/-- The tree takes the head of stream `i`: it is combined with the last entry, or becomes the next one. None where the output has no
room for it. -/
def Merge.take (g : Merge) (i : Nat) : Option (Merge × Flags) :=
  let m := g.stream i
  let h := m.head
  let key := h / 2 ^ 32
  let g' := g.setStream i { m with cursor := m.cursor + 1, prevKey := key }
  let last := (g.part.getLast?.getD 0).toNat
  if g.mode != 0 && !g.part.isEmpty && last / 2 ^ 32 == key then
    let r := combineValues g.mode (last % 2 ^ 32) (h % 2 ^ 32)
    some ({ g' with part := g.part.dropLast ++ [BitVec.ofNat 64 (key * 2 ^ 32 + r.1)] }, r.2)
  else if (g.stream 8).count ≤ g.pos then none
  else some ({ g' with part := g.part ++ [BitVec.ofNat 64 h], pos := g.pos + 1, out := g.out + 1 }, 0)

/-- The output entries so far end a row. -/
def Merge.rowFull (g : Merge) : Bool := !g.part.isEmpty && ((g.stream 8).base + 8 * g.pos) % 256 == 0

/-- The next entry of stream `i` joins the last one, so that its row is not full yet. -/
def Merge.joins (g : Merge) (i : Nat) : Bool :=
  g.mode != 0 && !g.part.isEmpty && (g.part.getLast?.getD 0).toNat / 2 ^ 32 == (g.stream i).head / 2 ^ 32

/-- The tree reads the rows that its cursors have reached, each once its bank serves it (R88, R134); a correction keeps it a cycle (R399). -/
def State.loadMerge (s : State) (c : Nat) : State :=
  ((s.coreAt c).merge.inputs).foldl (fun s i =>
    let g := (s.coreAt c).merge
    let m := g.stream i
    if m.exhausted || m.row.any fun r => r.1 == m.rowNo then s
    else
      match s.ask c (m.rowNo * 256) 0 g.key with
      | .inr s => s
      | .inl s =>
        let bs := s.view c 0 s.now (m.rowNo * 256) 256
        let (s, late) := s.detectRead c (m.rowNo * 256) 256
        s.modCore c fun k =>
          let g := k.merge.setStream i { m with row := some (m.rowNo, bs) }
          { k with merge := if late.isSome then { g with next := s.now + 2 } else g }) s

/-- Every stream's head has been read. -/
def Merge.loaded (g : Merge) : Bool :=
  g.inputs.all fun i => (g.stream i).exhausted || (g.stream i).row.any fun r => r.1 == (g.stream i).rowNo

/-- The output entries that are not written yet go to their place once the bank serves the row, and commit as a vector row does (R72, R134).
None while the row waits at its bank. -/
def State.flushMerge (s : State) (c : Nat) (keep : Bool) : State ⊕ State :=
  let g := (s.coreAt c).merge
  let a := (g.stream 8).base + 8 * (g.pos - g.part.length)
  match s.ask c a 0 g.key with
  | .inr s => .inr s
  | .inl s =>
    let bs := g.part.flatMap fun v => leBytes 8 v.toNat
    let s := (s.write c 0 a bs s.now (s.now + 6)).2
    .inl (if keep then s else s.modCore c fun k => { k with merge := { k.merge with part := [] } })

/-- The merge leaves the running state once its last row is written: its partial row, or, after a fault, a row that is full (R241). -/
def State.endMerge (s : State) (c : Nat) : State :=
  let g := (s.coreAt c).merge
  let close (s : State) : State := s.modCore c fun k => { k with merge := { k.merge with st := g.fin, fin := 0 } }
  if g.part.isEmpty || (g.fin == 5 && !g.rowFull) then close s
  else match s.flushMerge c true with
    | .inl s => close s
    | .inr s => s

/-- One output entry is decided (R241); a row that it does not join has been written before. -/
def mergeDecide (c : Nat) (s : State) : State :=
  let g := (s.coreAt c).merge
  match g.least with
  | none => s.stopMerge c 4
  | some i =>
    match (match g.unsorted with
           | some j => some (j, 0, s)
           | none => (s.takeInj c 15).map fun (r : State × Nat) => (i, r.2, r.1)) with
    | some (j, mark, s) =>
      (s.modCore c fun k => { k with merge := { k.merge with faultStream := j, faultEntry := (g.stream j).cursor, faultMark := mark } }).stopMerge c 5
    | none =>
      match g.take i with
      | none => s.stopMerge c 2
      | some (g', f) => (s.modCore c fun k => { k with merge := g' }).modThread (.core c 0) fun th => th.raise f

/-- A full row is to be written before the next decision: of a plain merge at once, of one that combines when the next entry does not join it. -/
def Merge.flushes (g : Merge) : Bool :=
  g.rowFull && (g.mode == 0 || (match g.least with | some i => !g.joins i && g.unsorted.isNone | none => false))

/-- One cycle of the tree (R241): its rows are read, one entry is decided once they have been, and rows that are full are written. An access
that waits at its bank stalls it (R88). -/
def mergeStep (c : Nat) (s : State) : State :=
  let s := s.modCore c fun k => { k with merge := { k.merge with next := s.now + 1 } }
  let s := s.loadMerge c
  let g := (s.coreAt c).merge
  if s.now + 1 < g.next then s.at g.next prioBank (.mergeDecision c)
  else
  let r : State ⊕ State := if g.loaded && g.flushes then s.flushMerge c false else .inl s
  let s : State := match r with
    | .inr s => s
    | .inl s =>
      let g := (s.coreAt c).merge
      let s := if g.loaded && decide (g.ready ≤ s.now) && g.fin == 0 then mergeDecide c s else s
      let s := if g.drain then s.modCore c fun k => { k with merge := { k.merge with drain := false, fin := if k.merge.fin = 0 then 3 else k.merge.fin } } else s
      let g := (s.coreAt c).merge
      let s := if g.rowFull && g.mode == 0 && g.fin == 0 then (match s.flushMerge c false with | .inl s => s | .inr s => s) else s
      if ((s.coreAt c).merge.fin : Nat) = 0 then s else s.endMerge c
  if ((s.coreAt c).merge.st : Nat) = 1 then s.at (s.now + 1) prioBank (.mergeDecision c) else s

/-- The control context of a core stands still, in a trap or with its group (R247). -/
def State.stands (s : State) (c : Nat) : Bool :=
  !(s.groupAt (s.groupOfCore c)).st.meets || (match ((s.coreAt c).thread 0).stat with | .trapped | .stopped => true | _ => false)

/-- The tree stands where a stop or a trap has left it (R247): what it has asked of banks it will ask again. -/
def State.freezeMerge (s : State) (c : Nat) : State :=
  s.modCore c fun k => { k with acc := k.acc.filter fun x => x.key != k.merge.key || x.scalar }

/-- MERGE_DECISION. -/
def execMergeDecision (c : Nat) (s : State) : Out :=
  let g := (s.coreAt c).merge
  if g.st != 1 || s.now < g.next then .next s
  else if s.stands c then .next (s.freezeMerge c)
  else .next (mergeStep c s)

end Sys2Proof.Machine
end

