-- ==== Sys2Proof/Machine/Burin.lean ====
section
/-! DEFINITION. The burin unit: BKLD, BKARM, BKOFF, BKSTAT and the start of a trigger (R132, R243 to R246). -/

namespace Sys2Proof.Machine

/-- A BKLD is in progress. -/
def Core.loading (k : Core) : Bool := k.vecs.any fun v => v.2.code == .bkld

/-- A word that takes the unit's stop when it traps with it (R246). -/
def burinIssue (i : Instr) (body : Cx → Fields → State → Verdict) (s : State) : Out :=
  let cx := s.cx
  match issue i body s with
  | .next t =>
    match (t.self cx).trap with
    | some r => if r.cause = 0x0E0 && (t.self cx).stat == .trapped && r.cyc = t.now then .next (t.takeBurin cx.c) else .next t
    | none => .next t
  | r => r

/-- Rows from `b` on that reach beyond own local memory: the first byte that does (R243, R244, R428). -/
def outsideTrap (b : Nat) (bad : Bool) : Option TrapInfo :=
  if bad then some { cause := 0x0D4, record := guardRecord (max b localEnd) true false 256 } else none

/-- BKLD (R243): one row of the source is read per cycle. A unit that is busy comes before every other cause in a timed segment (R353), and
before the checks of the range in an untimed one. A pointer named with + moves by 256 for each row read (DESIGN CHOICE, log entry 45). -/
def bkldBody (cx : Cx) (w : Fields) (s : State) : Verdict :=
  let th := s.self cx
  let k := s.coreAt cx.c
  let off := w.a.immInt.toNat
  let n := (th.src w.c).toNat
  let m : VMem := { base := th.base w.b false, stride := 256, fmt := 5, rows := spanRows n 12, inc := if w.b.inc then some w.b.num else none }
  let bad := decide (256 < off + n)
  let m := if bad then { m with rows := 0 } else m
  let outside := m.base + 256 * m.rows > localEnd
  let taken := k.burin.armed || k.burin.running || k.loading
  let stop := burinStop k cx
  if taken && (cx.timed || stop.isNone) then .full cx 0x04B
  else unlessHeld (rowWait s cx (m.list m.rows) []) <| checked
    (firstTrap
      [stop, rowsGuard s cx m m.rows true false, outsideTrap m.base outside, causeIf (m.base % 256 != 0) 0x0D2,
       causeIf (rowsPers s cx m m.rows) 0x0D0, causeIf bad 0x101])
    (if n = 0 then .done s
     else
       let v : VecOp := { code := .bkld, thr := cx.t, vl := 12 * n, b := some m, timed := cx.timed, word := cx.pc, ns := m.rows,
                          next := s.now, extent := 12 * n, tile := off }
       .done (vecBegin cx w v .none false (s.now + m.rows + 3) 0 (256 * m.rows) 0 s))

def execBkld (w : Fields) (s : State) : Out := burinIssue (.bkld w) bkldBody s

/-- BKARM (R244). A pointer named with + moves once, by its stride (DESIGN CHOICE, log entry 45). -/
def bkarmBody (cx : Cx) (w : Fields) (s : State) : Verdict :=
  let th := s.self cx
  let k := s.coreAt cx.c
  let b := th.base w.b false
  let d := th.src w.c
  let n := bitField d 0 8 + 1
  let m : VMem := { base := b, stride := 256, fmt := 5, rows := n }
  checked
    (firstTrap
      [burinStop k cx, rowsGuard s cx m n true false, outsideTrap b (decide (localEnd < b + 256 * n)), causeIf (b % 256 != 0) 0x0D2,
       causeIf (rowsPers s cx m n) 0x0D0, causeIf (bitField d 11 6 != 0) 0x101])
    (if rowsChanging s cx m n then .hold
     else
       let g := k.burin
       let entry := w.a.immInt.toNat
       let sb := bitField d 8 3
       let deferred := g.running && g.armed
       let g := { g with fault := none, untaken := false }
       let g := if deferred then { g with armed := true, next := some (entry, b / 256, n, sb) }
         else { g with armed := true, entry := entry, rowBase := b / 256, rows := n, sbs := sb, next := none }
       let s := s.modCore cx.c fun k => Core.nextTrigger { k with burin := g } s.now
       .done (s.advance cx w.b (th.stride w.b) 1))

def execBkarm (w : Fields) (s : State) : Out := burinIssue (.bkarm w) bkarmBody s

/-- BKOFF disarms the unit; the running trigger and the pending ones still run (R246). -/
def execBkoff (w : Fields) (s : State) : Out :=
  issue (.bkoff w) (fun cx _ s => .done (s.modCore cx.c fun k => { k with burin := { k.burin with armed := false } })) s

/-- The status word of the unit (R246). -/
def Core.burinWord (k : Core) : Word :=
  let g := k.burin
  let bit (b : Bool) (n : Nat) : Nat := if b then 2 ^ n else 0
  BitVec.ofNat 64 (g.runs * 2 ^ 32 + g.last * 2 ^ 22 + g.pend.length * 2 ^ 17 + bit g.fault.isSome 3 + bit k.loading 2 +
    bit g.running 1 + bit g.armed 0)

def execBkstat (w : Fields) (s : State) : Out :=
  issue (.bkstat w) (fun cx w s => result cx (.n w.a.num) (s.coreAt cx.c).burinWord 2 s) s

/-- A row that the armed unit watches. -/
def Core.watches (k : Core) (row : Nat) : Bool :=
  k.burin.armed && decide (k.burin.rowBase ≤ row) && decide (row < k.burin.rowBase + k.burin.rows)

/-- The NI holds a push into the watched region while 16 triggers are pending (R132). -/
def Core.triggersFull (k : Core) (row : Nat) : Bool := k.watches row && decide (16 ≤ k.burin.pend.length)

/-- The causes with which a word or a copy of a burin kernel stops the unit (R245, R246, R251, R256). -/
def burinCauses : List Nat := [0x000, 0x001, 0x002, 0x004, 0x010, 0x0D0, 0x0D2, 0x0D3, 0x0D4, 0x150]

/-- BURIN_TRIGGER (R132, R244). -/
def execBurinTrigger (c row : Nat) (s : State) : Out := .next (start c row s)
where
  /-- the trigger starts or waits; a detector that reports stops the unit with one of the causes that a burin fault has, a free one (R402;
  DESIGN CHOICE, log entry 60) -/
  start (c row : Nat) (s : State) : State :=
    let s := s.modCore c fun k =>
      if !k.watches row then k else Core.nextTrigger { k with burin := { k.burin with pend := k.burin.pend ++ [(row, row - k.burin.rowBase)] } } s.now
    if !(s.coreAt c).watches row then s
    else
      match s.takeInj c 14 with
      | none => s
      | some (s, mark) =>
        let (f, s) := s.free
        s.modCore c fun k => k.burinFault (burinCauses.getD (f.toNat % burinCauses.length) 0) (k.burin.entry + mark)

end Sys2Proof.Machine
end

