-- ==== Sys2Proof/Machine/Links.lean ====
section
/-! DEFINITION. The Ronoi links: states, flits, acknowledgement and replay, link sets (R380 to R382). -/

namespace Sys2Proof.Machine

/-! Flits (R381). -/

/-- One bit of a CRC-32C (the Castagnoli polynomial, bits reflected). -/
def crcBit (c : BitVec 32) : BitVec 32 := if c.getLsbD 0 then (c >>> (1 : Nat)) ^^^ 0x82F63B78 else c >>> (1 : Nat)

def crcByte (c : BitVec 32) (b : Byte) : BitVec 32 :=
  (List.range 8).foldl (fun c _ => crcBit c) (c ^^^ b.setWidth 32)

/-- CRC-32C of bytes (R255, R381). -/
def crc32c (bs : List Byte) : BitVec 32 := ~~~(bs.foldl crcByte 0xFFFFFFFF)

/-- The CRC of a flit: over bits 255..32, from the lowest byte up (log entry 24). -/
def flitCrc (f : BitVec 256) : BitVec 32 := crc32c ((List.range 28).map fun i => f.extractLsb' (32 + 8 * i) 8)

def flitKind (f : BitVec 256) : Nat := (f.extractLsb' 252 4).toNat
def flitSeq (f : BitVec 256) : Nat := (f.extractLsb' 240 12).toNat

def makeFlit (kind seq dst src : Nat) (pay : BitVec 184) : BitVec 256 :=
  let body : BitVec 224 := BitVec.ofNat 4 kind ++ (BitVec.ofNat 12 seq ++ (BitVec.ofNat 12 dst ++ (BitVec.ofNat 12 src ++ pay)))
  let f : BitVec 256 := body ++ (0 : BitVec 32)
  f ||| (flitCrc f).setWidth 256

/-- The flits of a replay buffer (R381). -/
def replayFlits : Nat := 4096

/-- A link that carries flits: up or degraded. -/
def Link.usable (l : Link) : Bool := l.st == 2 || l.st == 3

def Kept.dst (k : Kept) : Nat := (k.flit.extractLsb' 228 12).toNat

/-- A flit takes the next number and stays in the replay buffer until it is acknowledged. -/
def Link.emit (l : Link) (src kind dst granule : Nat) (pay : BitVec 184) : Link :=
  let f := makeFlit kind l.seqTx dst src pay
  { l with seqTx := (l.seqTx + 1) % 4096, buffer := l.buffer ++ [{ flit := f, granule := granule }], tx := l.tx ++ [f] }

/-- Send a flit on a link; where the replay buffer is full it waits for room (R381). -/
def State.sendFlit (s : State) (link kind dst granule : Nat) (pay : BitVec 184) : State :=
  let l := s.linkAt link
  s.setLink link (if l.waiting.isEmpty && decide (l.buffer.length < replayFlits) then l.emit s.hub.fnum.toNat kind dst granule pay
    else { l with waiting := l.waiting ++ [(kind, dst, granule, pay)] })

/-- Flits that have waited for room are sent, as far as there is room. -/
def Link.drain (l : Link) (src : Nat) : Link :=
  (l.waiting.take (replayFlits - l.buffer.length)).foldl (fun l x => l.emit src x.1 x.2.1 x.2.2.1 x.2.2.2)
    { l with waiting := l.waiting.drop (replayFlits - l.buffer.length) }

/-- The flits go again from the first unacknowledged one on, behind the acknowledgements that wait (R381). -/
def Link.replayed (l : Link) : Link := { l with tx := (l.tx.filter fun f => flitKind f == 3) ++ l.buffer.map (·.flit) }

/-! Link sets (R382). -/

/-- The package has a fabric number (R386). -/
def Hub.assigned (h : Hub) : Bool := decide (2 ≤ h.fnum.toNat) && decide (h.fnum.toNat ≤ 0xFFE)

/-- The usable links of a peer's set, in ascending number; none before the package has a number of its own. -/
def State.peerLinks (s : State) (peer : Nat) : List Nat :=
  let m := SMap.get 0 s.hub.linkSets peer
  (List.range 12).filter fun l => s.hub.assigned && m.getLsbD l && (s.linkAt l).usable

/-- The link on which a request to a granule travels. -/
def State.peerLink (s : State) (peer pa : Nat) : Option Nat :=
  let l := s.peerLinks peer
  if l.isEmpty then none else l[pa / 64 % l.length]?

/-- A request or reply to a peer leaves, in as many flits as its payload needs; what a flit's 23 bytes hold is not stated, so they are free, but
for the status of a reply, which stands in the first two bytes of its first flit (DESIGN CHOICE, log entry 25). -/
def State.sendPeer (s : State) (link kind peer pa : Nat) (status : Option Nat) : Nat → State
  | 0 => s
  | n + 1 =>
    let (f, s) := s.free
    let (g, s) := s.free
    let (h, s) := s.free
    let low : BitVec 16 := match status with | some c => BitVec.ofNat 16 c | none => h.extractLsb' 40 16
    (s.sendFlit link kind peer pa (f ++ (g ++ (h.setWidth 40 ++ low) : BitVec 120))).sendPeer link kind peer pa none n

def flitsFor (bytes : Nat) : Nat := 1 + (bytes + 22) / 23

/-- The peers whose link set names a link. -/
def Hub.peersOn (h : Hub) (link : Nat) : List Nat := (h.linkSets.filter fun x => x.2.getLsbD link).map (·.1)

/-- Requests to a peer that were held go out again, once every flit that was sent under an old mapping has been acknowledged (R382). -/
def State.releasePeers (s : State) : State :=
  let owed (p : Nat) : Bool := (List.range 12).any fun l => (s.linkAt l).buffer.any fun k => k.old && k.dst == p
  if s.hub.linkHold.isEmpty then s else { s with hub := { s.hub with linkHold := s.hub.linkHold.filter owed } }

/-- The mapping of granules to links changes for some peers: new requests to them are held, and what has been sent to them is of the old mapping
(R382). -/
def State.holdPeers (s : State) (ps : List Nat) : State :=
  let mark (k : Kept) : Kept := if ps.contains k.dst then { k with old := true } else k
  let s := (List.range 12).foldl (fun s l => s.setLink l { s.linkAt l with buffer := (s.linkAt l).buffer.map mark }) s
  { s with hub := { s.hub with linkHold := s.hub.linkHold ++ ps.filter fun p => !s.hub.linkHold.contains p } }.releasePeers

/-- The unacknowledged flits of a link that carries none any more are sent again, in the order of their numbers, each on the link that the new
mapping gives its granule (R382). -/
def State.resend (s : State) (link : Nat) : State :=
  let l := s.linkAt link
  let s := s.setLink link { l with buffer := [], waiting := [], tx := [] }
  let s := l.buffer.foldl (fun s k =>
    match s.peerLink k.dst k.granule with
    | some x => s.sendFlit x (flitKind k.flit) k.dst k.granule (k.flit.extractLsb' 32 184)
    | none => s) s
  l.waiting.foldl (fun s x => match s.peerLink x.2.1 x.2.2.1 with | some y => s.sendFlit y x.1 x.2.1 x.2.2.1 x.2.2.2 | none => s) s

/-- A link leaves its sets, or rejoins them; one that has failed gives its flits to the others first. -/
def State.remap (s : State) (link : Nat) : State :=
  let l := s.linkAt link
  (if l.usable || l.st == 4 then s else s.resend link).holdPeers (s.hub.peersOn link)

/-! States (R380). -/

/-- Lanes that carry flits. -/
def lanesOf (good : Nat) : Nat := if 8 ≤ good then 8 else if 4 ≤ good then 4 else if 2 ≤ good then 2 else 0

/-- Entry to up, degraded or failed posts a notice. -/
def State.linkNotice (s : State) (link : Nat) : State :=
  let l := s.linkAt link
  s.post 0x2C2 0 0 (link % 16 + l.lanes % 16 * 16 + l.st * 256)

/-- LINK_ENABLE (R380). -/
def execLinkEnable (link : Nat) (s : State) : Out :=
  let l := s.linkAt link
  .next (if l.st = 0 then s.setLink link { l with st := 1, lanes := 0, attempts := 0 } else s)

/-- LINK_DISABLE (R380). -/
def execLinkDisable (link : Nat) (s : State) : Out :=
  let l := s.linkAt link
  .next ((s.setLink link { l with st := 0, lanes := 0, good := 0, attempts := 0 }).remap link)

/-- The link is up or degraded: traffic goes on from the first unacknowledged flit; a package without a number of its own sends none (R386). -/
def State.linkUp (s : State) (link good : Nat) : State :=
  let l := s.linkAt link
  let l := { l with st := if 8 ≤ good then 2 else 3, lanes := lanesOf good, good := good, attempts := 0, flits := 0, window := [] }
  ((s.setLink link (if s.hub.assigned then l.replayed else { l with tx := [] })).linkNotice link).remap link

def State.linkFail (s : State) (link good : Nat) : State :=
  let l := s.linkAt link
  ((s.setLink link { l with st := 5, lanes := 0, good := good, attempts := 0 }).linkNotice link).remap link

/-- LINK_TRAINING_DONE (R380): the lanes found good end a training or an attempt at retraining. -/
def execLinkTrainingDone (link good : Nat) (s : State) : Out :=
  let l := s.linkAt link
  .next
    (if l.st = 1 then (if 2 ≤ good then s.linkUp link good else s.linkFail link good)
     else if l.st = 4 then
       (if 2 ≤ good then s.linkUp link good
        else if 2 ≤ l.attempts then s.linkFail link good
        else s.setLink link { l with attempts := l.attempts + 1 })
     else s)

/-- Retraining: no flit goes over the link, and its flits wait (R380, R382). -/
def State.retrain (s : State) (link : Nat) : State :=
  let l := s.linkAt link
  if l.usable then (s.setLink link { l with st := 4, lanes := 0, attempts := 0 }).remap link else s

/-- LINK_RETRAIN_TRIGGER (R380). -/
def execLinkRetrainTrigger (link lost : Nat) (s : State) : Out :=
  let l := s.linkAt link
  .next ((s.setLink link { l with good := l.good - lost }).retrain link)

/-- A flit has gone over the link; a replay is counted, and 16 of them within any 65,536 flits send the link into retraining (R380). -/
def State.countFlit (s : State) (link : Nat) (replay : Bool) : State :=
  let l := s.linkAt link
  let l := { l with flits := l.flits + 1 }
  if replay then
    let w := (l.flits :: l.window).take 16
    let s := s.setLink link { l with replays := l.replays + 1, window := w }
    if w.length = 16 && decide (l.flits < w.getD 15 0 + 65536) then s.retrain link else s
  else s.setLink link l

/-- The acknowledgement of the latest flit taken in order goes out; a package without a number sends none (R381, R386). -/
def State.acknowledge (s : State) (link dst : Nat) : State :=
  let l := s.linkAt link
  if !s.hub.assigned then s
  else s.setLink link { l with tx := l.tx ++ [makeFlit 3 ((l.seqRx + 4095) % 4096) dst s.hub.fnum.toNat 0] }

/-- An acknowledgement frees the flits up to its number. One that frees none repeats an earlier one: the receiver has met a CRC failure, and the
flits go again from the first unacknowledged one (DESIGN CHOICE, log entry 25). -/
def State.takeAck (s : State) (link seq : Nat) : State :=
  let l := s.linkAt link
  if l.buffer.any fun k => flitSeq k.flit == seq then
    (s.setLink link ({ l with buffer := (l.buffer.dropWhile fun (k : Kept) => flitSeq k.flit != seq).drop 1 }.drain s.hub.fnum.toNat)).releasePeers
  else if l.buffer.isEmpty then s
  else (s.setLink link l.replayed).countFlit link true

/-- FLIT_RECEIVE (R381): a flit that fails its CRC is dropped, and the acknowledgement of the flit before it asks for the replay; a request or
reply in order is taken and acknowledged. -/
def execFlitReceive (link : Nat) (f : BitVec 256) (s : State) : Out :=
  let l := s.linkAt link
  let src := (f.extractLsb' 216 12).toNat
  if !l.usable then .next s
  else if f.extractLsb' 0 32 != flitCrc f then .next ((s.acknowledge link src).countFlit link true)
  else
    let s := s.countFlit link false
    let l := s.linkAt link
    if flitKind f = 3 then .next (s.takeAck link (flitSeq f))
    else if flitKind f = 1 ∨ flitKind f = 2 then
      if flitSeq f = l.seqRx then
        .next ((s.setLink link { l with seqRx := (l.seqRx + 1) % 4096, rx := l.rx ++ [f] }).acknowledge link src)
      else .next s
    else .next s

/-- LINK_SET_CHANGE (R382). -/
def execLinkSetChange (link : Nat) (_joins : Bool) (s : State) : Out := .next (s.remap link)

end Sys2Proof.Machine
end

