-- ==== Sys2Proof/Machine/Seal.lean ====
section
/-! DEFINITION. The encryption of frames (R364): AES-256-XTS takes each 16-byte block of a frame, under a key and at a place, to another block and back.
State holds a block as its plain bytes with the key under which they are sealed, so that an access under the same key finds them as they were
written; what stands in DRAM is the sealed block. -/

namespace Sys2Proof.Machine

/-- A key: none for an identifier without one, under which bytes stand plain. -/
abbrev Key := Option (BitVec 512)

/-- The key of an identifier (R364, R390). -/
def State.keyOf (s : State) (id : Nat) : Key := SMap.find s.hub.keys id

/-- A block that is sealed under a key, at block number `b`: four rounds of a Feistel network whose rounds are free, since no rule gives the tweak of a
place (log entry 36). -/
def sealBlock (k : BitVec 512) (b : Nat) (v : BitVec 128) : BitVec 128 :=
  let round (x : BitVec 64 × BitVec 64) (i : Nat) : BitVec 64 × BitVec 64 := (x.2, x.1 ^^^ Config.xtsRound k b i x.2)
  let x := [0, 1, 2, 3].foldl round (v.extractLsb' 64 64, v.extractLsb' 0 64)
  x.1 ++ x.2

/-- The block that a sealed one was. -/
def openBlock (k : BitVec 512) (b : Nat) (v : BitVec 128) : BitVec 128 :=
  let round (x : BitVec 64 × BitVec 64) (i : Nat) : BitVec 64 × BitVec 64 := (x.2 ^^^ Config.xtsRound k b i x.1, x.1)
  let x := [3, 2, 1, 0].foldl round (v.extractLsb' 64 64, v.extractLsb' 0 64)
  x.1 ++ x.2

def sealUnder (k : Key) (b : Nat) (v : BitVec 128) : BitVec 128 := match k with | some k => sealBlock k b v | none => v
def openUnder (k : Key) (b : Nat) (v : BitVec 128) : BitVec 128 := match k with | some k => openBlock k b v | none => v

/-- The 16 bytes of a block. -/
def blockIn (m : Memory) (b : Nat) : BitVec 128 := BitVec.ofNat 128 (leNat (memRead m (16 * b) 16))
def blockTo (m : Memory) (b : Nat) (v : BitVec 128) : Memory := memWrite m (16 * b) (leBytes 16 v.toNat)

/-- A block is held as its plain bytes under another key; what stands in DRAM is the same. -/
def State.rekeyBlock (s : State) (k : Key) (b : Nat) : State :=
  let old : Key := SMap.find s.blockKeys b
  if old = k then s
  else { s with phys := blockTo s.phys b (openUnder k b (sealUnder old b (blockIn s.phys b))),
                blockKeys := match k with | some x => SMap.put s.blockKeys b x | none => SMap.erase s.blockKeys b }

/-- An access under a key to `n` bytes: its blocks are held under that key from now on. -/
def State.rekey (s : State) (k : Key) (pa n : Nat) : State :=
  ((List.range ((pa + n + 15) / 16 - pa / 16)).map (pa / 16 + ·)).foldl (fun s b => s.rekeyBlock k b) s

/-- The bytes of DRAM as they stand, sealed (R388). -/
def State.stored (s : State) : Memory := s.blockKeys.foldl (fun m x => blockTo m x.1 (sealBlock x.2 x.1 (blockIn m x.1))) s.phys

/-- Bytes of DRAM as they are held, where these stand in it. -/
def State.held (s : State) (stored : Memory) : Memory :=
  s.blockKeys.foldl (fun m x => blockTo m x.1 (openBlock x.2 x.1 (blockIn m x.1))) stored

/-- The keys of the blocks of frames that are filled under a key. -/
def fillKeys (m : SMap (BitVec 512)) (frame frames : Nat) (k : Key) : SMap (BitVec 512) :=
  let m := m.filter fun x => !(frame * 4096 ≤ x.1 && x.1 < (frame + frames) * 4096)
  match k with
  | some x => (List.range (frames * 4096)).foldl (fun m i => SMap.put m (frame * 4096 + i) x) m
  | none => m

end Sys2Proof.Machine
end

