-- ==== Sys2Proof/Machine/Translate.lean ====
section
/-! DEFINITION. The home map, the page tables and their walk (R96, R366 to R373). -/

namespace Sys2Proof.Machine

/-! The home map (R96). -/

/-- What the home map of a context names for a virtual address: 0 nothing. -/
def homeTarget (s : State) (ctx va : Nat) : Nat :=
  let w := ((s.contextAt ctx).home.getD (va / 2 ^ 52 % 16) 0).toNat
  if w ≤ 6 then w else 0

/-- The translation point of an address (R96): memory cores 0 to 143, the host agent 144. An NI is given none (DEDUCED, log entry 32). -/
def pointOf (tgt va : Nat) : Nat :=
  if tgt = 5 then 128 + va / 2048 % 16 else if tgt = 6 then 144 else (tgt - 1) * 32 + va / 2048 % 32

/-- The die of a home: stacks 0 to 3, 4 the hub, 5 outside the package (R112, R116). -/
def dieOf (tgt : Nat) : Nat := if tgt = 6 then 5 else tgt - 1

/-! Frames (R2, R11). -/

/-- The 64 KiB frames of a stack (48 GiB) and of far memory (512 GiB). -/
def homeFrames (home : Nat) : Nat := if home = 5 then 8388608 else 786432

/-- How many of the frames below `n` a home holds. -/
def framesBelow (home : Nat) : Nat → Nat
  | 0 => 0
  | n + 1 => framesBelow home n + (if Config.homeOf (n * 65536) = home then 1 else 0)

/-- The part's map puts frame `f` into home `h`, which has room for it. -/
def placedIn (h f : Nat) : Bool := Config.homeOf (f * 65536) == h && decide (framesBelow h f < homeFrames h)

/-- The part's map puts the frame nowhere. -/
def unplaced (f : Nat) : Bool := !([1, 2, 3, 4, 5].any fun h => placedIn h f)

/-- How many of the frames below `n` the part's map puts nowhere. -/
def unplacedBelow : Nat → Nat
  | 0 => 0
  | n + 1 => unplacedBelow n + (if unplaced n then 1 else 0)

/-- Frames that a home would be short of by the part's map alone. -/
def missing (h : Nat) : Nat := homeFrames h - framesBelow h (2 ^ 36)

/-- The home that takes the `n`-th frame that the part's map puts nowhere: what stack 0 is short of comes first, then stack 1, and so on. -/
def fillHome (n : Nat) : List Nat → Nat
  | [] => 0
  | h :: rest => if n < missing h then h else fillHome (n - missing h) rest

/-- The home of a frame. Every stack holds 48 GiB and far memory 512 GiB (R2, R11), and no more: a frame beyond is nowhere. -/
def frameHome (pa : Nat) : Nat :=
  let f := pa / 65536
  if 2 ^ 36 ≤ f then 0
  else
    match [1, 2, 3, 4, 5].find? fun h => placedIn h f with
    | some h => h
    | none => fillHome (unplacedBelow f) [1, 2, 3, 4, 5]

/-! Entries (R368, R369). -/

/-- A page entry: where it lies, its two words, its index in the bucket. -/
structure Page where
  at_ : Nat
  w0 : Nat
  w1 : Nat
  deriving DecidableEq, Repr

def Page.v (p : Page) : Bool := p.w0.testBit 63
def Page.sz (p : Page) : Nat := p.w0 / 2 ^ 61 % 4
def Page.dem (p : Page) : Bool := p.w0.testBit 60
def Page.chg (p : Page) : Bool := p.w0.testBit 59
def Page.pt (p : Page) : Bool := p.w0.testBit 58
def Page.tag (p : Page) : Nat := p.w0 % 2 ^ 44
def Page.frame (p : Page) : Nat := p.w1 / 2 ^ 28 % 2 ^ 36
def Page.ct (p : Page) : Nat := p.w1 / 2 ^ 26 % 4
def Page.ef (p : Page) : Nat := p.w1 / 2 ^ 22 % 16
def Page.bg (p : Page) : Nat := p.w1 / 2 ^ 19 % 8
def Page.key (p : Page) : Nat := p.w1 / 2 ^ 7 % 2 ^ 12

/-- Log2 of a page size. -/
def pageLog (sz : Nat) : Nat := if sz = 0 then 16 else if sz = 1 then 21 else 29
/-- 64 KiB frames of a page. -/
def Page.frames (p : Page) : Nat := 2 ^ (pageLog p.sz - 16)

/-- An entry that R369 calls invalid. -/
def Page.invalid (p : Page) : Bool :=
  p.sz == 3 || p.w0 / 2 ^ 44 % 2 ^ 13 != 0 || (p.w0.testBit 57 && p.at_ % 128 != 0) || p.w1.testBit 0 ||
    p.tag % 2 ^ (pageLog p.sz - 12) != 0 || p.frame % p.frames != 0 || decide (12 ≤ p.ef) || p.bg == 4 ||
    (p.bg != 0 && p.ef != 11) || (p.chg && !p.dem)

/-- The virtual page number of a size (R370). -/
def pageVpn (sz va : Nat) : Nat := va % 2 ^ 56 / 2 ^ pageLog sz * 2 ^ (pageLog sz - 12)

/-- The bucket that a walk begins at (R370). -/
def walkBucket (vpn ctx buckets : Nat) : Nat := (vpn ^^^ (vpn / 2 ^ 17) ^^^ (ctx * 0x9E3779B1)) % 2 ^ buckets

/-- The first match of one size in its four buckets. -/
def walkSize (m : Memory) (root buckets ctx va sz : Nat) : Option Page :=
  let vpn := pageVpn sz va
  let b := walkBucket vpn ctx buckets
  (List.range 32).findSome? fun i =>
    let a := root + 128 * ((b + i / 8) % 2 ^ buckets) + 16 * (i % 8)
    let p : Page := { at_ := a, w0 := get64 m a, w1 := get64 m (a + 8) }
    if p.v && p.sz == sz && p.tag == vpn then some p else none

/-- The walk (R367, R370): an entry, or the cause that ends it. -/
def walkTable (s : State) (ctx va : Nat) : Except Nat Page :=
  let r := (s.contextAt ctx).root.toNat
  let b := r / 2 ^ 56
  if b < 4 || 24 < b || r / 2 ^ 52 % 16 != 0 || r % 128 != 0 then .error 0x14B
  else
    match [0, 1, 2].findSome? fun sz => walkSize s.phys (r % 2 ^ 52) b ctx va sz with
    | some p => .ok p
    | none => .error 0x140

/-- The page of an address as the table stands, where there is a valid one. -/
def peekPage (s : State) (ctx va : Nat) : Option Page :=
  match walkTable s ctx va with
  | .ok p => if p.invalid then none else some p
  | .error _ => none

/-- An access kind (R371, R377): 0 read, 1 write, 2 atomic, 3 fetch. -/
def Page.permits (p : Page) (kind : Nat) : Bool :=
  match kind with
  | 0 => p.w1.testBit 6
  | 1 => p.w1.testBit 5
  | 2 => p.w1.testBit 6 && p.w1.testBit 5 && p.w1.testBit 4
  | _ => p.w1.testBit 3

/-! Translation (R371 to R373). -/

/-- What a translation gives. -/
inductive Xlate where
  | page (pa tgt : Nat) (p : Page) (s : State)
  | fail (cause : Nat)
  /-- a demand page that is not filled -/
  | demand
  /-- A, or D for a write, is still to be set in the entry that has been read -/
  | swap (p : Page)
  /-- the bucket is locked, or a TLBINV of the page is under way -/
  | wait

/-- Word 1 of the entry once an access has set A, and D for a write (R372). -/
def Page.usedBy (p : Page) (kind : Nat) : Nat := p.w1 ||| 4 ||| (if kind = 1 || kind = 2 then 2 else 0)

/-- A, and D for a write, are set by a swap against the value that the walk read (R372); none where it fails. -/
def State.setUsed (s : State) (p : Page) (kind : Nat) : Option State :=
  if get64 s.phys (p.at_ + 8) != p.w1 then none else some { s with phys := put64 s.phys (p.at_ + 8) (p.usedBy kind) }

/-- The walker takes the bucket's lock, rereads the entry, writes A or D with a plain write where it is still the entry of the page, and gives
the lock back (R372), all on one cycle (DESIGN CHOICE, log entry 61). -/
def State.setLocked (s : State) (p : Page) (kind : Nat) : State :=
  let q : Page := { p with w0 := get64 s.phys p.at_, w1 := get64 s.phys (p.at_ + 8) }
  if q.v && q.sz == p.sz && q.tag == p.tag then { s with phys := put64 s.phys (p.at_ + 8) (q.usedBy kind) } else s

/-- The bucket of an entry is locked: no swap is made on it (R372). -/
def State.bucketLocked (s : State) (p : Page) : Bool := (get64 s.phys (p.at_ / 128 * 128)).testBit 57

/-- A TLBINV under way names the page of an address: new translations of it wait (R120, R366). -/
def State.invalidating (s : State) (ctx va : Nat) : Bool :=
  s.ops.any fun x =>
    x.2.kind == .tlbinv && x.2.st == .running && x.2.begun && x.2.bv.toNat == ctx &&
      (x.2.m == 1 || (let sz := (match walkTable s ctx va with | .ok p => max x.2.width p.sz | .error _ => x.2.width); pageVpn sz va == pageVpn sz x.2.va))

/-- The checks of R371 on an entry, but for the frame-type tag; then the frame's place (R96). -/
def checkPage (s : State) (ctx va kind tgt : Nat) (p : Page) (fill : Page → State → State) : Xlate :=
  if p.invalid then .fail 0x14B
  else if p.dem && !p.chg then .demand
  else if !(s.contextAt ctx).keys.contains p.key then .fail 0x14A
  else if !p.permits kind then .fail 0x141
  else
    let pa := p.frame * 65536 + va % 2 ^ pageLog p.sz
    if tgt ≤ 5 && frameHome pa != tgt then .fail 0x143
    else if p.usedBy kind != p.w1 then .swap p
    else .page pa tgt p (fill p s)

/-- A TLB entry of the translation point of an address serves it. -/
def TlbEntry.serves (e : TlbEntry) (pt ctx va : Nat) : Bool := e.point == pt && e.ctx == ctx && e.vpn == pageVpn e.sz va

/-- The point's TLB holds an entry for the address. -/
def State.cached (s : State) (ctx va : Nat) : Bool := s.tlb.any fun e => e.serves (pointOf (homeTarget s ctx va) va) ctx va

/-- A page that a context has had is known by its size (R366). -/
def State.notePage (s : State) (ctx sz vpn : Nat) : State :=
  if s.pages.contains (ctx, sz, vpn) then s else { s with pages := s.pages ++ [(ctx, sz, vpn)] }

/-- The translation point keeps the entry (R373). -/
def State.fillTlb (s : State) (ctx va tgt : Nat) (p : Page) : State :=
  let pt := pointOf tgt va
  let e : TlbEntry := { point := pt, ctx := ctx, sz := p.sz, vpn := pageVpn p.sz va, at_ := p.at_, w0 := BitVec.ofNat 64 p.w0,
                        w1 := BitVec.ofNat 64 p.w1 }
  let s := s.notePage ctx p.sz (pageVpn p.sz va)
  { s with tlb := (s.tlb.filter fun t => !t.serves pt ctx va) ++ [e] }

/-- Translate an address at its translation point (R370 to R373): by a TLB entry, or by a walk. -/
def lookup (s : State) (ctx va kind : Nat) : Xlate :=
  let tgt := homeTarget s ctx va
  if tgt = 0 then .fail 0x142
  else if tgt = 5 && !Config.farPresent then .fail 0x14C
  else if s.invalidating ctx va then .wait
  else
    let fill (p : Page) (s : State) : State := s.fillTlb ctx va tgt p
    match s.tlb.find? fun e => e.serves (pointOf tgt va) ctx va with
    | some e => checkPage s ctx va kind tgt { at_ := e.at_, w0 := e.w0.toNat, w1 := e.w1.toNat } fill
    | none =>
      match walkTable s ctx va with
      | .error n => .fail n
      | .ok p => checkPage s ctx va kind tgt p fill

/-- The point's TLB holds no entry for the address any more. -/
def State.uncache (s : State) (ctx va : Nat) : State :=
  { s with tlb := s.tlb.filter fun e => !e.serves (pointOf (homeTarget s ctx va) va) ctx va }

/-- The walk goes on from the first bucket: after a swap, or after one that has failed (R372). -/
def rewalk (s : State) (ctx va kind : Nat) : Xlate := lookup (s.uncache ctx va) ctx va kind

/-- A translation on one cycle, its swap with it: one that fails on an entry that has changed is repeated on the new one (R372). -/
def translate (s : State) (ctx va kind : Nat) : Xlate :=
  let swap (p : Page) (other : Xlate) : Xlate :=
    if s.bucketLocked p then .wait
    else match s.setUsed p kind with
      | some s => rewalk s ctx va kind
      | none => other
  match lookup s ctx va kind with
  | .swap p => swap p (match rewalk s ctx va kind with | .swap q => swap q .wait | r => r)
  | r => r

end Sys2Proof.Machine
end

