-- ==== Sys2Proof/Machine/Transfer.lean ====
section
/-! DEFINITION. How the parts of an engine operation are served: order (R98 to R105), clocks (R112 to R114), the page types (R101,
R102, R122), held writes of protected groups (R329, R330), pushes (R251, R265, R326), what each home does, the fault buffer and its service
(R374, R375), and quotas (R362, R363). -/

namespace Sys2Proof.Machine

/-! Kinds. -/

/-- The operation writes at its remote side. -/
def ReqKind.writes : ReqKind → Bool
  | .cpySt | .cpyiSt | .rput | .wsig | .atom _ | .pgen => true
  | _ => false

/-- It brings bytes into local memory. -/
def ReqKind.loads : ReqKind → Bool
  | .cpyLd | .cpyiLd | .cpyz | .rget => true
  | _ => false

/-- It accesses global memory or another core's memory. -/
def ReqKind.accesses (k : ReqKind) : Bool := k.writes || k.loads

/-- A signal that TKPOST sends to the hub map of its context (R274). -/
def EngOp.toHub (e : EngOp) : Bool := e.kind == .tkpost && e.av == 0 && e.fmt == 1

/-- A message, or a dependence-map update of another core's bank (R266, R274). -/
def EngOp.message (e : EngOp) : Bool := e.kind == .amsg || (e.kind == .tkpost && !e.toHub)

/-- It is a remote access of its agent (R93, R97). -/
def EngOp.accesses (e : EngOp) : Bool := e.kind.accesses || e.message

/-- An atomic. -/
def ReqKind.isAtom : ReqKind → Bool
  | .atom _ => true
  | _ => false

/-- It writes at its remote side, a message too. -/
def EngOp.writes (e : EngOp) : Bool := e.kind.writes || e.message

/-- The remote register that the part being served uses: the signal's once the payload of a WSIG is done. -/
def EngOp.reg (e : EngOp) : Word := if e.paid then e.ev else if e.message then e.av else e.bv

/-- Front end that the part being served goes to. -/
def EngOp.place (e : EngOp) : Nat := if e.paid then e.sigTgt else e.tgt

/-- The register form of a kind names a core's local memory, not global memory (R94). -/
def EngOp.logicalAt (e : EngOp) (r : Word) : Bool :=
  match e.kind with
  | .rget | .rput | .wsig | .atom _ => !r.getLsbD 63
  | _ => e.message

/-- The part goes to a core's local memory (R94). -/
def EngOp.logical (e : EngOp) : Bool := e.logicalAt e.reg

/-- First virtual address. -/
def EngOp.vaddr (e : EngOp) : Nat := e.reg.toNat % 2 ^ 56

/-- Virtual address of the part being served. -/
def EngOp.partVa (e : EngOp) : Nat := if e.paid then e.vaddr else (e.vaddr + e.part.off) % 2 ^ 56

/-- Its address in the target of a logical request. -/
def EngOp.partAddr (e : EngOp) : Nat := e.reg.toNat % 2 ^ 24 + (if e.paid then 0 else e.part.off)

/-- Access kind (R371). -/
def EngOp.access (e : EngOp) : Nat :=
  match e.kind with
  | .atom _ => 2
  | .wsig => if e.paid && e.m = 1 then 2 else 1
  | k => if k.writes then 1 else 0

/-- Die of the agent that issues the operation: a request thread's is its memory core's, and a peer's request comes in on die 4 (R117). -/
def State.dieOfOp (s : State) (e : EngOp) : Nat :=
  if e.peer.isSome then 4
  else
  match e.agent with
  | .req id => let m := (s.reqAt id).memCore; if m < 128 then m / 32 else 4
  | _ => feStack e.core

/-! The layout of a block-scaled page (R41, R252). -/

def pageBlock (bg : Nat) : Nat := if bg % 4 = 1 then 16 else if bg % 4 = 2 then 32 else 64
/-- Groups in one chunk (R41). -/
def groupsPer (l : Nat) : Nat := if l = 16 then 1170 else if l = 32 then 630 else 327
def upTo8 (n : Nat) : Nat := (n + 7) / 8 * 8

/-- What a byte of a block-scaled chunk is (R41): of an element or of a scale word of a group, or padding. -/
inductive ChunkByte where
  | elem (group pos : Nat)
  | scale (group pos : Nat)
  | padding
  deriving DecidableEq, Repr

def chunkByte (bg x : Nat) : ChunkByte :=
  let l := pageBlock bg
  let g := groupsPer l
  if bg < 4 then
    let j := x / (3 * l + 8)
    let r := x % (3 * l + 8)
    if g ≤ j then .padding else if r < 3 * l then .elem j r else .scale j (r - 3 * l)
  else if x < 3 * l * g then .elem (x / (3 * l)) (x % (3 * l))
  else
    let t := x - 3 * l * g
    if t < 8 * g then .scale (t / 8) (t % 8) else .padding

/-- The first group of a copy, if its address is the first byte of one. -/
def firstGroup (bg va : Nat) : Option Nat :=
  match chunkByte bg (va % 65536) with
  | .elem j 0 => some j
  | _ => none

/-- Element bytes of a copy: its C. -/
def EngOp.count (e : EngOp) : Nat := e.cv.toNat % 2 ^ 24

/-- Groups that a copy touches. -/
def EngOp.groups (e : EngOp) (bg : Nat) : Nat := (e.count + 3 * pageBlock bg - 1) / (3 * pageBlock bg)

/-- A copy keeps to the layout of its block-scaled page (R252): none where it does not; else the bytes that its global side spans. -/
def blockSpan (e : EngOp) (bg size : Nat) : Option Nat :=
  let l := pageBlock bg
  let g := groupsPer l
  match firstGroup bg e.vaddr with
  | none => none
  | some j0 =>
    let first := e.vaddr % size / 65536 * g + j0
    let last := first + e.groups bg - 1
    let pages := size / 65536 * g
    if pages ≤ last || (e.count % (3 * l) != 0 && last + 1 != pages) then none
    else
      let chunk := e.vaddr % size / 65536 * 65536
      let stop := if last % g + 1 = g then (last / g + 1) * 65536
        else last / g * 65536 + (if bg < 4 then (last % g + 1) * (3 * l + 8) else 3 * l * g + 8 * (last % g + 1))
      some (stop - chunk - e.vaddr % 65536)

/-! Order (R98 to R105). -/

/-- Bytes of one place that an operation has still to access, and what orders them: the place of bytes, its range, the consistency type
(R97; 4 where no page is mapped), and where they are: the front end that a logical operand names, or the die of the home. -/
structure Reach where
  space : Nat
  lo : Nat
  hi : Nat
  ct : Nat
  fe : Option Nat := none
  die : Nat := 0
  deriving DecidableEq, Repr

/-- Bytes of another core's local memory or of a cluster's shared memory: an RC access (R97). -/
def localReach (fe a n : Nat) : Reach :=
  { space := 4 + (if isShared a then 2 * clusterOf fe + 1 else 2 * fe), lo := a, hi := a + max 1 n, ct := 1, fe := some fe }

/-- Bytes of one 64 KiB of virtual memory: of its frame, in this package or at the host agent, or of an address that is not mapped. -/
def pageReach (s : State) (ctx va n : Nat) : Reach :=
  let tgt := homeTarget s ctx va
  match peekPage s ctx va with
  | some p =>
    let pa := p.frame * 65536 + va % 2 ^ pageLog p.sz
    { space := if tgt = 6 then 1 else 0, lo := pa, hi := pa + n, ct := p.ct, die := dieOf tgt }
  | none => { space := 2, lo := ctx * 2 ^ 56 + va, hi := ctx * 2 ^ 56 + va + n, ct := 4, die := dieOf tgt }

/-- A range of virtual memory, cut at 64 KiB. -/
def globalReach (s : State) (ctx va n : Nat) : List Reach :=
  (List.range ((va % 65536 + max 1 n + 65535) / 65536)).map fun i =>
    let lo := max va ((va / 65536 + i) * 65536)
    let hi := min (va + max 1 n) ((va / 65536 + i + 1) * 65536)
    pageReach s ctx (lo % 2 ^ 56) (hi - lo)

/-- The most bytes that the global side of an operation may span from its first address on (R252, R254). -/
def EngOp.globalSpan (s : State) (e : EngOp) : Nat :=
  match e.kind, peekPage s e.ctx e.vaddr with
  | .cpyz, _ => 16 * e.count + 65544
  | .atom _, _ => 8
  | .cpyLd, some p | .cpySt, some p => if p.bg = 0 then e.len else max e.len ((blockSpan e p.bg (2 ^ pageLog p.sz)).getD e.len)
  | _, _ => e.len

/-- What an operation has still to access: the rest of its payload, and the signal of a WSIG. A page generation acts on its whole page (R263). -/
def EngOp.reaches (s : State) (e : EngOp) : List Reach :=
  let at_ (r : Word) (fe off n : Nat) : List Reach :=
    if e.logicalAt r then [localReach fe (r.toNat % 2 ^ 24 + off) (n - off)] else globalReach s e.ctx ((r.toNat + off) % 2 ^ 56) (n - off)
  let main :=
    if e.paid then []
    else if e.kind == .pgen then
      let size := match peekPage s e.ctx e.vaddr with | some p => 2 ^ pageLog p.sz | none => 65536
      globalReach s e.ctx (e.vaddr / size * size) size
    else at_ e.reg e.tgt e.part.off (if e.message then e.len else e.globalSpan s)
  if e.kind == .wsig then main ++ at_ e.ev e.sigTgt 0 8 else main

/-- What the part that is being served accesses, once it has been translated. -/
def EngOp.partReach (e : EngOp) : Reach :=
  if e.logical then localReach e.place e.partAddr (if e.message then e.len else e.part.len)
  else
    { space := if e.part.home = 6 then 1 else 0, lo := e.part.pa, hi := e.part.pa + max 1 e.part.len, ct := e.part.ct, die := e.part.die }

/-- Two reaches share a 64-byte granule. -/
def sameGranule (x y : Reach) : Bool :=
  x.space == y.space && decide (x.lo / 64 * 64 < y.hi) && decide (y.lo / 64 * 64 < x.hi)

/-- The table of R98: is an access of type `x` ordered before a later one of type `y`? -/
def typeOrdered (x y : Nat) : Bool := decide (x < 3) && decide (y < 3) && (x == 0 || y == 0)

/-- The thread whose accesses an operation makes, and the number of its word: a copy that a loader or storer program makes is its request's
(R123, R127). -/
def State.root (s : State) (o : Nat) (e : EngOp) : Agent × Nat :=
  match e.agent with
  | .core c t => (.core c t, o)
  | .req id =>
    match SMap.find s.reqThreads id with
    | some r => ((s.opAt r.op).agent, r.op)
    | none => (.req id, o)

/-- One operation of a thread was issued before another; the copies of one program among themselves in the order of their words. -/
def State.goesBefore (s : State) (x : Nat × EngOp) (o : Nat) (e : EngOp) : Bool :=
  let (a, n) := s.root x.1 x.2
  let (b, m) := s.root o e
  a == b && (decide (n < m) || (n == m && x.2.agent == e.agent && decide (x.1 < o)))

/-- Earlier operations of the same thread that have not completed. -/
def State.earlierOpen (s : State) (o : Nat) (e : EngOp) : List (Nat × EngOp) :=
  s.ops.filter fun x => x.2.accesses && x.2.st == .running && s.goesBefore x o e

/-- Earlier operations of the same thread that have not been performed. -/
def State.earlier (s : State) (o : Nat) (e : EngOp) : List (Nat × EngOp) := (s.earlierOpen o e).filter fun x => !x.2.performed

/-- An earlier SC access of the thread has not been acknowledged: its operation goes on, or a host port owes a completion (R99, R118). -/
def unacknowledged (s : State) (o : Nat) (e : EngOp) : Bool :=
  (s.earlierOpen o e).any (·.2.sc) ||
    s.hub.portWrites.any fun x => x.sc && x.agent == (s.root o e).1 && decide (x.op < (s.root o e).2)

/-- A fence's scope holds the issuing core and the home (R103, R104). -/
def inScope (scope core : Nat) (logical : Option Nat) (die : Nat) : Bool :=
  match scope, logical with
  | 1, some t => clusterOf core == clusterOf t
  | 2, some t => feStack core == feStack t
  | 2, none => feStack core == die
  | 3, some _ => true
  | 3, none => decide (die < 5)
  | 4, _ => true
  | _, _ => false

/-- An access of the operation that is still to be made lies in a fence's scope. -/
def State.opInScope (s : State) (scope : Nat) (e : EngOp) : Bool :=
  scope == 4 || (e.reaches s).any fun r => inScope scope e.core r.fe r.die

/-- Every local write that thread `t` of a core issued before word `o`, which issued on cycle `issued`, has been committed (R123). -/
def writesDone (s : State) (c t o issued : Nat) : Bool :=
  let w := requester t
  !((s.coreAt c).pend.any fun x => x.who == w && decide (x.seq < o)) &&
    !((s.clusterAt (clusterOf c)).pend.any fun x => x.core == c && x.who == w && decide (x.seq < o)) &&
    !((s.coreAt c).vecs.any fun x =>
      x.2.thr == t && (if x.2.code == .qstage then decide (x.2.issue < issued) else decide (x.1 < o)) && (x.2.a.isSome || !x.2.rows.isEmpty)) &&
    !(t == 0 && (s.coreAt c).engs.any fun x => x.2.kind == .quant && decide (x.1 < o)) &&
    !((s.coreAt c).reqs.any fun x => x.2.thr == t && x.2.remote.isNone && decide (x.1 < o) && !x.2.performed)

/-- The conditions of R92 at a fence do not hold yet: an earlier local write of its thread is not committed, or an earlier personality operation
not performed. -/
def localOwed (s : State) (ag : Agent) (f : FenceRec) : Bool :=
  match ag with
  | .core c t => !writesDone s c t f.seq f.issued
  | .req _ => false

/-- A fence of the thread still holds the access back (R103 to R105, R118): until the conditions of R92 hold; an acquire until the earlier reads
have been performed, a release until every earlier access has, at system scope until they have been acknowledged. A fence of order .sc holds every
access back for every earlier one. -/
def fenceHolds (s : State) (ag : Agent) (o : Nat) (e : EngOp) (f : FenceRec) : Bool :=
  let left (b : Nat) (reads : Bool) : Bool :=
    match SMap.find s.ops b with
    | some x => x.st == .running && !x.performed && (!reads || !x.writes || x.kind.isAtom) && s.opInScope f.scope x
    | none => false
  let owed (b : Nat) : Bool :=
    f.scope == 4 && ((SMap.find s.ops b).any (fun x => x.st == .running) || s.hub.portWrites.any fun x => x.op == b)
  let r := e.partReach
  decide (f.seq < o) && inScope f.scope e.core r.fe r.die &&
    (localOwed s ag f || (f.order != 1 && f.before.any fun b => left b (f.order != 3)) ||
      (f.order != 0 && (e.writes || f.order == 3) && f.before.any fun b => left b false || owed b))

/-- An ATOM with a release waits for every earlier access of its thread (R106). -/
def atomReleases (e : EngOp) : Bool := e.kind.isAtom && e.m != 0

/-- A request of the group that has been refused for its map version and sent again is performed before those that are issued later (R317). -/
def reissuedFirst (s : State) (o : Nat) (e : EngOp) : Bool :=
  s.ops.any fun x => x.2.reissued && x.2.grp == e.grp && decide (x.1 < (s.root o e).2) && x.2.st == .running && !x.2.performed && x.2.cause.isNone

/-- The part may not be performed yet: an earlier access of the agent, a fence, or a request sent again goes first (R98 to R106, R317). -/
def orderHolds (s : State) (o : Nat) (e : EngOp) : Bool :=
  let r := e.partReach
  ((s.earlier o e).any fun x => (atomReleases e && r.ct == 1) || (x.2.reaches s).any fun q => sameGranule r q || typeOrdered q.ct r.ct) ||
    (r.ct == 0 && unacknowledged s o e) || (!e.reissued && reissuedFirst s o e) ||
    (let (a, n) := s.root o e; (s.threadOf a).fences.any (fenceHolds s a n e))

/-- The thread whose local accesses go before an operation, and the number of the word: for an operation of a request thread those of the
request (R127). -/
def State.source (s : State) (o : Nat) (e : EngOp) : Option (Nat × Nat × Nat) :=
  match s.root o e with
  | (.core c t, n) => some (c, t, n)
  | (.req _, _) => none

/-- Local bytes that words of thread `t` of a core, issued before word `o`, still read or write: address and length. -/
def localOpen (s : State) (c t o issued : Nat) : List (Nat × Nat) :=
  let k := s.coreAt c
  let before (x : Nat × VecOp) : Bool := x.2.thr == t && (if x.2.code == .qstage then decide (x.2.issue < issued) else decide (x.1 < o))
  ((k.pend ++ (s.clusterAt (clusterOf c)).pend).filter fun w => w.core == c && w.who == requester t && decide (w.seq < o)).map
      (fun w => (w.addr, w.data.length)) ++
    (k.vecs.filter before).flatMap (fun x => (x.2.rowsToWrite ++ x.2.rowsToRead).map fun a => (a, 256)) ++
    (k.engs.filter fun x => t == 0 && x.2.lent.isNone && decide (x.1 < o)).flatMap (fun x =>
      (k.quantRowsOf x.2 ++ x.2.rowsToRead).map fun a => (a, 256)) ++
    ((k.thread t).flight.filter fun f => decide (f.seq < o)).flatMap (fun f =>
      match f.sample with | some x => [(x.addr, x.width)] | none => []) ++
    (k.reqs.filter fun x => x.2.thr == t && x.2.remote.isNone && decide (x.1 < o)).flatMap fun x =>
      match x.2.op with | .snap d => [(d, 4 * (k.spanOf x.2.bank).limit k.mem)] | _ => []

/-- A push comes after the local accesses that its thread has issued before the operation and that share a granule with it (R98, R123). -/
def pushOrdered (s : State) (o : Nat) (e : EngOp) (a n : Nat) : Bool :=
  match s.source o e with
  | some (c, t, w) => !((localOpen s c t w (s.opAt w).issued).any fun x =>
      x.2 != 0 && decide (x.1 / 64 * 64 < a + n) && decide (a / 64 * 64 < x.1 + x.2))
  | none => true

/-- What the operation reads in local memory is as its thread has left it (R123). -/
def localReady (s : State) (o : Nat) (e : EngOp) : Bool :=
  match s.source o e with
  | none => true
  | some (c, t, o) => writesDone s c t o (s.opAt o).issued

/-! Clocks (R112 to R114). -/

def vecMax (x y : List Nat) : List Nat := (List.range 5).map fun i => max (x.getD i 0) (y.getD i 0)

/-- A message leaves die `src` for die `dst` and arrives after a duration of the part's; what goes from one die to another arrives in the order
in which it was sent (R112). -/
def State.message (s : State) (src dst prio : Nat) (ev : Instr) : State :=
  let (d, s) := s.delay
  let k := s.dieAt src
  if src = dst then s.at (s.now + 1 + d) prio ev
  else
    let t := max (s.now + 1 + d) (SMap.get 0 k.last dst)
    (s.setDie src { k with last := SMap.put k.last dst t }).at t prio ev

/-- A die whose count has changed since its latest clock notice sends one, once 32 cycles have passed since that notice (R113). -/
def State.noticeClock (s : State) (d : Nat) : State :=
  let k := s.dieAt d
  if k.due || k.vc.getD d 0 == k.sent then s
  else (s.setDie d { k with due := true }).at (max (k.noticed + 32) (s.now + 1)) prioNet (.clockNoticeSend d)

/-- A clock notice goes to every other die, behind all traffic already sent (R113). -/
def State.sendNotice (s : State) (d : Nat) : State :=
  let k := s.dieAt d
  let n := k.vc.getD d 0
  let s := s.setDie d { k with noticed := s.now, sent := n, due := false }
  ((List.range 5).filter (· != d)).foldl (fun s x => s.message d x prioNet (.clockNoticeReceive x d n)) s

/-- An RC access takes its stamp as it leaves, and its number where it writes on another die (R113). -/
def State.stampPart (s : State) (o : Nat) : State :=
  let e := s.opAt o
  let d := s.dieOfOp e
  let k := s.dieAt d
  if e.part.ct != 1 || e.part.die = 5 then s
  else if e.writes && d != e.part.die then
    let vc := k.vc.set d (k.vc.getD d 0 + 1)
    let s := s.setDie d { k with vc := vc }
    (s.setOp o { e with part := { e.part with stamp := vc, num := some (vc.getD d 0) } }).noticeClock d
  else s.setOp o { e with part := { e.part with stamp := k.vc, num := none } }

/-- A numbered request has arrived at its home's die (R113). -/
def State.arrive (s : State) (e : EngOp) : State :=
  match e.part.num with
  | none => s
  | some n =>
    let h := s.dieAt e.part.die
    let d := s.dieOfOp e
    s.setDie e.part.die { h with know := h.know.set d (max (h.know.getD d 0) n) }

/-- The condition of R114 at the home. -/
def clocksAllow (s : State) (o : Nat) (e : EngOp) : Bool :=
  if e.part.ct != 1 || e.part.die = 5 then true
  else
    let h := e.part.die
    let d := s.dieOfOp e
    (List.range 5).all fun k =>
      k == h ||
        (decide (e.part.stamp.getD k 0 ≤ (s.dieAt h).know.getD k 0) &&
          !(s.ops.any fun x => x.1 != o && x.2.part.die == h && s.dieOfOp x.2 == k &&
            (match x.2.part.num with
             | some n => decide (n < e.part.stamp.getD k 0) || (n == e.part.stamp.getD k 0 && !(k == d && e.part.num.isSome))
             | none => false)))

/-- The access is performed at its home: a write's stamp goes into the home's clock, and the reply of a read or an atomic carries that clock
(R113). Its number stands until the whole part has been performed (R114). -/
def State.mergeClocks (s : State) (o : Nat) : State :=
  let e := s.opAt o
  if e.part.ct != 1 || e.part.die = 5 then s
  else
    let h := s.dieAt e.part.die
    let vc := if e.writes then vecMax h.vc e.part.stamp else h.vc
    let s := s.setDie e.part.die { h with vc := vc }
    if e.access = 1 then s else s.message e.part.die (s.dieOfOp e) prioNet (.rcReplyReceive (s.dieOfOp e) vc)

/-- CLOCK_NOTICE_SEND (R113): nothing where a FENCE has sent a notice meanwhile, or where the count has not changed. -/
def execClockNoticeSend (d : Nat) (s : State) : Out :=
  let k := s.dieAt d
  if !k.due || decide (s.now < k.noticed + 32) then .next s
  else if k.vc.getD d 0 = k.sent then .next (s.setDie d { k with due := false })
  else .next (s.sendNotice d)

/-- CLOCK_NOTICE_RECEIVE (R113). -/
def execClockNoticeReceive (d src n : Nat) (s : State) : Out :=
  let k := s.dieAt d
  .next (s.setDie d { k with know := k.know.set src (max (k.know.getD src 0) n) })

/-- RC_REPLY_RECEIVE (R113). -/
def execRcReplyReceive (d : Nat) (clk : List Nat) (s : State) : Out :=
  let k := s.dieAt d
  let vc := vecMax k.vc clk
  let s := s.setDie d { k with vc := vc }
  .next (s.noticeClock d)

/-! Global bytes (R93, R329). -/

/-- A WOS granule has been written, as an agent of group `g` sees it: its own group's held writes are performed toward it (R101, R329). -/
def State.writtenFor (s : State) (g x : Nat) : Bool := SMap.get false s.granules x || SMap.get false (s.groupAt g).granules x

/-- The byte that an agent of group `g` reads: its own group's held writes are performed toward it. -/
def heldByte (d : Byte) (pa : Nat) : List HoldWrite → Byte
  | [] => d
  | w :: rest => heldByte (if w.pa = pa then w.byte else d) pa rest

def State.physRead (s : State) (g pa n : Nat) : List Byte :=
  let h := (s.groupAt g).hold
  let bs := memRead s.phys pa n
  if h.isEmpty then bs else (List.range n).map fun i => heldByte (memByte s.phys (pa + i)) (pa + i) h

/-- Another group holds a write to one of the granules: it is committed first (R329). -/
def State.forceCommit (s : State) (g pa n : Nat) : State :=
  (s.groups.filter fun x => x.1 != g && x.2.hold.any fun w => decide (pa / 64 * 64 ≤ w.pa) && decide (w.pa < (pa + n + 63) / 64 * 64)).foldl
    (fun s x => s.earlyCommit x.1) s

/-- A write to poisoned words clears them. -/
def clearPoison (m : SMap Bool) (pa n : Nat) : SMap Bool := m.filter fun e => !(pa / 8 ≤ e.1 && e.1 * 8 < pa + n)

/-- Writes that a memory core's hold buffer has room for: 1,536 KiB, shared by all groups (R328; log entry 7). -/
def holdEntries : Nat := 1536 * 1024 / (1 + Config.holdTag)

/-- Writes that the groups hold at a memory core. -/
def State.heldAt (s : State) (mc : Nat) : Nat := (s.groups.map fun x => (x.2.hold.filter fun w => w.memCore == mc).length).sum

/-- Bytes are written to a frame: held while a proof of the group is in force (R329). -/
def State.physWrite (s : State) (g home pa : Nat) (bs : List Byte) : State :=
  let s := s.forceCommit g pa bs.length
  let gr := s.groupAt g
  if gr.proof.isNone then { s with phys := memWrite s.phys pa bs, poison := clearPoison s.poison pa bs.length }
  else
    let mc := pointOf home pa
    let l := (List.range bs.length).map fun i => { memCore := mc, pa := pa + i, byte := bs.getD i 0 }
    let s := s.setGroup g { gr with hold := gr.hold ++ l }
    if holdEntries < s.heldAt mc then s.earlyCommit g else s

/-- Granules that a write has written are marked: for its group alone while the write is held (R101, R329). -/
def State.markWritten (s : State) (g home : Nat) (gs : List Nat) : State :=
  let put (m : SMap Bool) : SMap Bool := gs.foldl (fun m x => SMap.put m x true) m
  if home = 6 || (s.groupAt g).proof.isNone then { s with granules := put s.granules } else s.modGroup g fun gr => { gr with granules := put gr.granules }

/-- Granules become unwritten (R101). -/
def State.unmark (s : State) (p : Nat → Bool) : State :=
  let cut (m : SMap Bool) : SMap Bool := m.filter fun x => !p x.1
  { s with granules := cut s.granules, groups := mapVals (fun gr => if gr.granules.isEmpty then gr else { gr with granules := cut gr.granules }) s.groups }

/-! Page types (R101, R102, R106, R122). -/

/-- The address under which tags, owners and written granules are kept: that of a frame of host memory is beyond every frame of this package. -/
def frameKey (home pa : Nat) : Nat := if home = 6 then 2 ^ 66 + pa else pa

/-- The frame-type tag agrees with the translation; a frame without a tag takes it (R122). The host agent keeps no tags: there the type of the
latest translation stands. -/
def State.tagFrame (s : State) (home pa ct : Nat) : Option State :=
  let f := frameKey home pa / 65536
  match SMap.get 0 s.frameTags f with
  | 0 => some { s with frameTags := SMap.put s.frameTags f (ct + 1) }
  | t =>
    if t = ct + 1 then some s
    else if home = 6 then some { s with frameTags := SMap.put s.frameTags f (ct + 1) }
    else none

/-- An IP frame admits its owning context alone: the context that uses it first (R102). -/
def State.ownFrame (s : State) (home pa ctx : Nat) : Option State :=
  let f := frameKey home pa / 65536
  match SMap.get 0 s.frameOwner f with
  | 0 => some { s with frameOwner := SMap.put s.frameOwner f (ctx + 1) }
  | t => if t = ctx + 1 then some s else none

/-- A frame is accessed through a page: it is not free while the page maps it (R122). -/
def State.mapFrame (s : State) (home pa ctx va : Nat) : State :=
  let f := frameKey home pa / 65536
  let x := (ctx, va / 65536 * 65536)
  let l := SMap.get [] s.mappers f
  if l.contains x then s else { s with mappers := SMap.put s.mappers f (l ++ [x]) }

/-- What bits 51..40 of a physical address select at the host agent (R116). -/
def hostSelect (pa : Nat) : Nat := pa / 2 ^ 40 % 2 ^ 12

/-- The rules of tags and IP frames; a peer applies those of its own pages. -/
def State.admitAt (s : State) (e : EngOp) : Except Nat State :=
  if e.part.home = 6 && decide (2 ≤ hostSelect e.part.pa) then .ok s
  else
    match s.tagFrame e.part.home e.part.pa e.part.ct with
    | none => .error 0x144
    | some s =>
      let s := s.mapFrame e.part.home e.part.pa e.ctx e.partVa
      if e.part.ct != 3 then .ok s
      else match s.ownFrame e.part.home e.part.pa e.ctx with
        | none => .error 0x147
        | some s => .ok s

def granulesOf (pa n : Nat) : List Nat := (List.range ((pa + n + 63) / 64 - pa / 64)).map (pa / 64 + ·)

/-- A granule of the range is unwritten, as an agent of group `g` sees it (R101). -/
def State.unwritten (s : State) (g pa n : Nat) : Bool := (granulesOf pa n).any fun x => !(s.writtenFor g x)

/-- The byte at `a` of runs of bytes that start at `pa`, or zero. -/
def runByte (pa : Nat) (runs : List (Nat × List Byte)) (a : Nat) : Byte :=
  match runs.find? fun r => decide (pa + r.1 ≤ a) && decide (a < pa + r.1 + r.2.length) with
  | some r => r.2.getD (a - pa - r.1) 0
  | none => 0

/-- The granules that runs of bytes touch, each once. -/
def runGranules (pa : Nat) (runs : List (Nat × List Byte)) : List Nat :=
  (runs.flatMap fun r => if r.2.isEmpty then [] else granulesOf (pa + r.1) r.2.length).eraseDups

/-- A part's write to a page of type `ct`: a WOS granule is written once, whole, whatever runs of the write touch it (R101). -/
def State.typedRuns (s : State) (g home ct pa : Nat) (runs : List (Nat × List Byte)) : Except Nat State :=
  let put (s : State) (a : Nat) (bs : List Byte) : State :=
    if bs.isEmpty then s
    else if home = 6 then { s with host := memWrite s.host a bs }
    else s.physWrite g home a bs
  if ct != 2 then .ok (runs.foldl (fun s r => put s (pa + r.1) r.2) s)
  else
    let gs := runGranules pa runs
    let key (x : Nat) : Nat := frameKey home (64 * x) / 64
    let s := if home = 6 then s else gs.foldl (fun s x => s.forceCommit g (64 * x) 64) s
    if gs.any fun x => s.writtenFor g (key x) then .error 0x145
    else
      let s := s.markWritten g home (gs.map key)
      .ok (gs.foldl (fun s x => put s (64 * x) ((List.range 64).map fun i => runByte pa runs (64 * x + i))) s)

/-- A write of one run of bytes. -/
def State.typedWrite (s : State) (g home ct pa : Nat) (bs : List Byte) : Except Nat State := s.typedRuns g home ct pa [(0, bs)]

/-- Bytes of a float format that replace a poisoned element: NaR, or the canonical NaN (R32, R379). -/
def poisonElem (ef : Nat) : List Byte :=
  match ef with
  | 1 => leBytes 4 0x7FC00000
  | 2 => leBytes 2 0x7E00
  | 3 => leBytes 2 0x7FC0
  | _ => [0x80]

/-- The byte of a page of geometry `bg` at an address is of an element (R41). -/
def elementByte (bg a : Nat) : Bool :=
  bg == 0 || (match chunkByte bg (a % 65536) with | .elem _ _ => true | _ => false)

/-- What a read of poisoned data gives (R379): elements of a page that tolerates poison are NaR; none where it escalates. -/
def readPoison (s : State) (e : EngOp) (pa : Nat) (bs : List Byte) : Option (List Byte × Bool) :=
  let bad (a : Nat) : Bool := SMap.get false s.poison (a / 8) && !(s.groupAt e.grp).hold.any fun w => w.pa / 8 == a / 8
  let w := fmtWidth e.part.ef
  if !(s.poison.any fun x => decide (pa / 8 ≤ x.1) && decide (x.1 * 8 < pa + bs.length)) then some (bs, false)
  else if !e.part.pt || !(fmtF e.part.ef || e.part.ef == 11) ||
      (List.range bs.length).any (fun i => bad (pa + i) && !elementByte e.part.geo (pa + i)) then none
  else
    let q := poisonElem e.part.ef
    some ((List.range bs.length).map (fun i =>
      let a := pa + i
      let el := a / w * w
      if bad el || bad (el + w - 1) then q.getD (a - el) 0 else bs.getD i 0), true)

/-! The local side of a copy (R252, R253). -/

/-- The local address of the byte at offset `x` of the global side: none for a byte that has none. The second answer says that the byte
is padding, which a store writes as zero (R41). -/
def EngOp.localOf (e : EngOp) (bg x : Nat) : Option Nat × Bool :=
  match e.kind with
  | .cpyiLd | .cpyiSt =>
    let w := max 1 e.width
    let f := bitFieldNat e.bv 56 6 + 1
    let t := e.count / w
    let p := (t + f - 1) / f
    let n := x / w
    (some (e.la + n % f * p * w + n / f * w + x % w), false)
  | _ =>
    if bg = 0 then (some (e.la + x), false)
    else
      let l := pageBlock bg
      let g := groupsPer l
      let va := e.vaddr + x
      let j0 := (firstGroup bg e.vaddr).getD 0
      let chunks := va / 65536 - e.vaddr / 65536
      match chunkByte bg (va % 65536) with
      | .padding => (none, true)
      | .elem j r =>
        let i := chunks * g + j - j0
        if chunks * g + j < j0 || e.groups bg ≤ i || e.count ≤ i * 3 * l + r then (none, false) else (some (e.la + i * 3 * l + r), false)
      | .scale j r =>
        let i := chunks * g + j - j0
        if chunks * g + j < j0 || e.groups bg ≤ i then (none, false) else (some (upTo8 (e.la + e.count) + 8 * i + r), false)
where
  /-- a field of a register -/
  bitFieldNat (w : Word) (lo n : Nat) : Nat := w.toNat / 2 ^ lo % 2 ^ n

/-- Local bytes that a copy touches, from A on, where the page at B is as the table says it is at issue (R252, R253). -/
def EngOp.localBytes (e : EngOp) (p : Option Page) : Nat :=
  let bg := match p with | some p => p.bg | none => 0
  match e.kind with
  | .cpyiLd | .cpyiSt =>
    let w := match p with | some p => max 1 (fmtWidth p.ef) | none => 1
    let f := e.bv.toNat / 2 ^ 56 % 64 + 1
    let t := e.count / w
    f * ((t + f - 1) / f) * w
  | .cpyLd | .cpySt => if bg = 0 then e.count else upTo8 (e.la + e.count) - e.la + 8 * e.groups bg
  | _ => e.count

/-- Bytes from `a` on, cut at rows. -/
def rowSegs (a : Nat) (bs : List Byte) : Nat → List (Nat × List Byte)
  | 0 => []
  | n + 1 =>
    match bs with
    | [] => []
    | _ =>
      let k := 256 - a % 256
      (a, bs.take k) :: rowSegs (a + k) (bs.drop k) n

/-- Runs of consecutive bytes of a sparse map, cut at rows. -/
def runsOf : SMap Byte → List (Nat × List Byte)
  | [] => []
  | (a, b) :: rest =>
    match runsOf rest with
    | (c, bs) :: more => if c = a + 1 && c % 256 != 0 then (a, b :: bs) :: more else (a, [b]) :: (c, bs) :: more
    | [] => [(a, [b])]

/-- What a part of a load pushes: its bytes by local address, with the zero elements of an interleave after its last part (R253). Scale words
are moved as they stand, bits 63..60 unchecked (DESIGN CHOICE, log entry 51). -/
def loadSegs (e : EngOp) (bs : List Byte) : List (Nat × List Byte) :=
  let plain := e.part.bg = 0 && !(match e.kind with | .cpyiLd => true | _ => false)
  if plain then rowSegs (e.la + e.part.off) bs (bs.length / 256 + 2)
  else
    let m := (List.range bs.length).foldl (fun (m : SMap Byte) i =>
      match (e.localOf e.part.bg (e.part.off + i)).1 with
      | some a => SMap.put m a (bs.getD i 0)
      | none => m) []
    let w := max 1 e.width
    let f := e.bv.toNat / 2 ^ 56 % 64 + 1
    let t := e.count / w
    let m := if e.kind == .cpyiLd && decide (e.len ≤ e.part.off + bs.length) && t % f != 0 then
        let p := (t + f - 1) / f
        (List.range ((f - t % f) * w)).foldl (fun m i => SMap.put m (e.la + (t % f + i / w) * p * w + (p - 1) * w + i % w) 0) m
      else m
    runsOf m

/-- A part of a store brings its bytes along, or takes them from a request thread's scratch: it reads no local memory. -/
def EngOp.carries (e : EngOp) : Bool :=
  e.peer.isSome || decide (2 ^ 24 ≤ e.la) || (e.part.st == .sent && !e.part.segs.isEmpty) || e.paid || e.kind == .pgen || e.kind.isAtom || e.kind.loads

/-- The source of a part of a store is read in local memory: a damaged word of it is consumed (R400). -/
def State.useSource (s : State) (e : EngOp) : State :=
  if e.carries then s
  else if e.part.bg = 0 && e.kind != .cpyiSt then s.useBytes e.core (e.la + e.part.off) e.part.len
  else
    let l := (List.range e.part.len).filterMap fun i => (e.localOf e.part.bg (e.part.off + i)).1
    let bad (a : Nat) : Bool := poisonedIn (s.poisonOf (placeOf e.core a)) a 1
    match (l.find? bad).orElse fun _ => l.head? with
    | some a => s.useBytes e.core a 1
    | none => s

/-- The bytes that a part of a store writes: runs by offset within the part. They are read at once, under no requester number and in no bank cycle
(DEDUCED, log entry 21). -/
def storeRuns (s : State) (e : EngOp) : List (Nat × List Byte) :=
  let read (a n : Nat) : List Byte :=
    match e.agent with
    | .req id => if 2 ^ 24 ≤ e.la then memRead (s.reqAt id).scratch (a - 2 ^ 24) n else s.view e.core 99 s.now a n
    | _ => s.view e.core 99 s.now a n
  let plain := e.part.bg = 0 && !(match e.kind with | .cpyiSt => true | _ => false)
  if e.peer.isSome then [(0, (e.buf.drop e.part.off).take e.part.len)]
  else if e.part.st == .sent && !e.part.segs.isEmpty then e.part.segs
  else if plain then [(0, read (e.la + e.part.off) e.part.len)]
  else
    let m := (List.range e.part.len).foldl (fun (m : SMap Byte) i =>
      match e.localOf e.part.bg (e.part.off + i) with
      | (some a, _) => SMap.put m i ((read a 1).getD 0 0)
      | (none, true) => SMap.put m i 0
      | (none, false) => m) []
    runsOf m

/-! The fault buffer (R374, R375). -/

/-- The records that the buffer holds. -/
def faultCapacity : Nat := 4096

/-- A request is held on a demand page: its record goes to the fault buffer, or stays at its translation point. -/
def State.holdFault (s : State) (r : FaultRec) : State :=
  let h := s.hub
  let s :=
    if h.heldFaults.isEmpty && h.faults.length < faultCapacity then { s with hub := { h with faults := h.faults ++ [r] } }
    else
      let held := h.heldFaults ++ [r]
      let s' := { s with hub := { h with heldFaults := held, ovf := true } }
      if h.ovf then s' else s'.post 0x2C1 0 0 (held.length % 65536)
  if h.servicing then s else { s with hub := { s.hub with servicing := true } }.later 1 .faultService

/-- Zero bytes of physical memory. -/
def clearPhys (m : Memory) (a n : Nat) : Memory := m.filter fun e => !(a ≤ e.1 && e.1 < a + n)

/-- The first frame of a page as tags, owners, granules and mappings name it: those of host memory lie beyond the package's. -/
def Page.frameKey (p : Page) (home : Nat) : Nat := if home = 6 then 2 ^ 50 + p.frame else p.frame

/-- The frames of a page, at their home, are filled with zeros, typed, charged, and the page is marked (R374). -/
def State.fillPage (s : State) (ctx home : Nat) (p : Page) : State :=
  let f := p.frameKey home
  let clear (m : Memory) : Memory := clearPhys m (p.frame * 65536) (p.frames * 65536)
  let s := { s.unmark fun x => decide (f * 1024 ≤ x) && decide (x < (f + p.frames) * 1024) with
                    phys := put64 (if home = 6 then s.phys else clear s.phys) p.at_ (p.w0 + 2 ^ 59),
                    host := if home = 6 then clear s.host else s.host,
                    blockKeys := if home = 6 then s.blockKeys else fillKeys s.blockKeys p.frame p.frames (s.keyOf p.key),
                    frameTags := (List.range p.frames).foldl (fun m i => SMap.put m (f + i) (p.ct + 1)) s.frameTags,
                    frameOwner := s.frameOwner.filter fun e => !(f ≤ e.1 && e.1 < f + p.frames),
                    mappers := (List.range p.frames).foldl (fun m i => SMap.put m (f + i) [(ctx, p.tag * 4096 + i * 65536)]) s.mappers,
                    poison := if home = 6 then s.poison else s.poison.filter fun e => !(p.frame * 8192 ≤ e.1 && e.1 < (p.frame + p.frames) * 8192) }
  let s := (s.modContext ctx fun c => { c with used := c.used + p.frames, charged := c.charged ++ [(p.at_, p.sz, p.tag)] }).notePage ctx p.sz p.tag
  s.post 0x2C0 ctx 0 (p.sz * 2 ^ 36 + p.frame)

/-- A held request walks again. -/
def State.releaseHeld (s : State) (o : Nat) : State :=
  let e := s.opAt o
  if e.part.st == .held then (s.setOp o { e with part := { e.part with st := .unbegun } }).at s.now prioNet (.pageWalk o 0) else s

/-- Every request held on a page is released. -/
def State.releasePage (s : State) (ctx : Nat) (p : Page) (va : Nat) : State :=
  let l := (s.ops.filter fun x => x.2.ctx == ctx && x.2.part.st == .held && pageVpn p.sz x.2.fva.toNat == pageVpn p.sz va).map (·.1)
  l.foldl (fun s o => s.releaseHeld o) s

/-- The die where the part being served is: that of its translation point or of its home. -/
def State.servingDie (s : State) (e : EngOp) : Nat :=
  if e.logical then feStack e.place
  else match homeTarget s e.ctx e.partVa with
    | 0 => s.dieOfOp e
    | t => min 4 (dieOf t)

/-- A request ends with a cause at its translation point or its home: what its trap will report (R377). Its reply goes behind what the die has sent
before (R112). -/
def State.failOp (s : State) (o cause : Nat) (va kind : Nat) : State :=
  let e := s.opAt o
  (s.setOp o { e with cause := some cause, part := { e.part with st := .unbegun, num := none, segs := [], gen := none, found := none }, fva := BitVec.ofNat 64 va, fkind := kind,
                      foff := if e.kind == .cpyz then e.emitted else e.part.off }).message (s.servingDie e) (s.dieOfOp e) prioNet
    (.engineOperationComplete o)

/-- The first quota failure of a context after LIMIT was last written is noticed (R363). -/
def State.noticeQuota (s : State) (x : Nat) : State :=
  let c := s.contextAt x
  if c.noticed then s else (s.setContext x { c with noticed := true }).post 0x2C5 x 0 c.used

/-- The quota does not cover a fill (R362, R363). -/
def State.quotaFail (s : State) (r : FaultRec) (frames : Nat) : State := (s.noticeQuota r.ctx).failOp r.op 0x240 r.va frames

/-- What the record reports still waits: the request, held on that address, or the sequencer's read of an image (R297). -/
def FaultRec.waits (s : State) (r : FaultRec) : Bool :=
  match r.grp with
  | some g => (s.groupAt g).st == .pending
  | none => (SMap.find s.ops r.op).any fun e => e.part.st == .held && e.st == .running && e.fva.toNat == r.va

/-- The page of a record as a demand page that is to be filled. -/
def FaultRec.page (s : State) (r : FaultRec) : Option Page :=
  match walkTable s r.ctx r.va with
  | .ok p => if p.invalid || !p.dem || p.chg then none else some p
  | .error _ => none

/-- The hub's fault service takes one record (R374). -/
def State.serviceFault (s : State) (r : FaultRec) : State :=
  if !r.waits s then s
  else
    match r.page s with
    | none => if r.grp.isSome then s else s.releaseHeld r.op
    | some p =>
      let c := s.contextAt r.ctx
      if c.limit < c.used + p.frames then
        match r.grp with
        | some g => (s.noticeQuota r.ctx).modGroup g fun gr => { gr with fault := some 0x240 }
        | none => s.quotaFail r p.frames
      else (s.fillPage r.ctx (homeTarget s r.ctx r.va) p).releasePage r.ctx p r.va

/-- CHG is not set while the bucket's lock is held (R372, R374). -/
def FaultRec.locked (s : State) (r : FaultRec) : Bool := r.waits s && (r.page s).any s.bucketLocked

/-- FAULT_SERVICE. -/
def execFaultService (s : State) : Out :=
  match s.hub.faults with
  | [] => .next { s with hub := { s.hub with servicing := false } }
  | r :: rest =>
    if r.locked s then .next (s.later 1 .faultService)
    else
    let (more, held) := match s.hub.heldFaults with
      | [] => ([], [])
      | x :: l => ([x], l)
    let s := { s with hub := { s.hub with faults := rest ++ more, heldFaults := held } }
    let s := s.serviceFault r
    .next (if s.hub.faults.isEmpty then { s with hub := { s.hub with servicing := false } } else s.later 1 .faultService)

end Sys2Proof.Machine
end

