-- ==== Sys2Proof/Machine/Serve.lean ====
section
/-! DEFINITION. The service of engine operations at memory cores, homes, receiving NIs and the host agent: the events MEMORY_CORE_REQUEST,
PAGE_WALK, HOME_PERFORM, COPY_PUSH, REMOTE_REQUEST_RECEIVE, STALE_REISSUE, WSIG_SIGNAL and HOST_PORT_COMPLETION (R119, R127 to R129,
R251 to R263, R317, R377). -/

namespace Sys2Proof.Machine

/-! CPYZ (R254). -/

/-- Payload length of the block whose header has been read. -/
def blockPayload (buf : List Byte) : Nat := leNat ((buf.drop 4).take 2)

/-- Source bytes that are still to be read before a block can be decoded. -/
def blockNeed (buf : List Byte) : Nat := if buf.length < 8 then 8 - buf.length else 8 + upTo8 (blockPayload buf) - buf.length

/-- Byte runs: pairs of a count less one and a value. -/
def expandRuns : List Byte → Option (List Byte)
  | [] => some []
  | [_] => none
  | n :: v :: rest => (expandRuns rest).map fun l => List.replicate (n.toNat + 1) v ++ l

/-- Zero elision: the mask bits of the output bytes, and the bytes that are not zero. -/
def expandMask (mask : List Byte) : Nat → Nat → List Byte → Option (List Byte)
  | 0, _, [] => some []
  | 0, _, _ => none
  | n + 1, i, bs =>
    if (mask.getD (i / 8) 0).getLsbD (i % 8) then
      match bs with
      | [] => none
      | b :: rest => (expandMask mask n (i + 1) rest).map (b :: ·)
    else (expandMask mask n (i + 1) bs).map (0 :: ·)

/-- The bytes that a whole block gives; none for a header or length fault. -/
def decodeBlock (buf : List Byte) : Option (List Byte) :=
  let h := leNat (buf.take 8)
  let cl := h / 2 ^ 32 % 2 ^ 16
  let dl := h / 2 ^ 16 % 2 ^ 16
  let pay := (buf.drop 8).take cl
  if h / 2 ^ 48 != 0 || h / 2 ^ 8 % 2 ^ 8 != 0 || dl = 0 then none
  else
    match h % 256 with
    | 0 => if cl = dl then some pay else none
    | 1 => (expandRuns pay).bind fun l => if l.length = dl then some l else none
    | 2 =>
      let n := (dl + 7) / 8
      if cl < n then none else expandMask (pay.take n) dl 0 (pay.drop n)
    | _ => none

/-! Parts. -/

/-- Bytes left on the remote side. -/
def EngOp.left (e : EngOp) : Nat := if e.paid then 8 else if e.kind == .cpyz then blockNeed e.buf else e.len - e.part.off

/-- The next part begins: it ends with the operation, or with its 2 KiB stripe (R377). -/
def State.beginPart (s : State) (o : Nat) : State :=
  let e := s.opAt o
  let a := if e.logical then e.partAddr else e.partVa
  let n := match e.kind with | .atom _ | .pgen => 8 | _ => min e.left (2048 - a % 2048)
  let s := s.setOp o { e with part := { off := e.part.off, len := n } }
  if e.logical then s.at s.now prioNet (.remoteRequestReceive o 0) else s.at s.now prioNet (.pageWalk o 0)

/-- The die that answers for the part being served: what leaves the package goes through the hub's. -/
def EngOp.homeDie (e : EngOp) : Nat := min 4 e.part.die

/-- Every access of the operation has been performed; its completion, which acknowledges it, is on its way. An armed detector makes the digests
of a copy differ (R255, R402). -/
def State.performedOp (s : State) (o : Nat) : State :=
  let e := s.opAt o
  let crc := match e.kind with | .cpyLd | .cpySt | .cpyiLd | .cpyiSt | .cpyz => e.m / 2 % 2 == 1 | _ => false
  let done (cause : Option Nat) (mark : Nat) (s : State) : State :=
    let s := s.setOp o { e with performed := true, cause := cause, part := { e.part with num := none }, fva := e.fva ||| BitVec.ofNat 64 mark }
    if e.kind.loads then s.later 1 (.engineOperationComplete o)
    else s.message e.homeDie (s.dieOfOp e) prioNet (.engineOperationComplete o)
  match (if crc then s.takeInj e.core 13 else none) with
  | some (s, mark) => done (some 0x151) mark s
  | none => done e.cause 0 s

/-- The part has been performed and pushed: the next one begins, or the operation is done. -/
def State.finishPart (s : State) (o : Nat) : State :=
  let e := s.opAt o
  let e := { e with part := { e.part with off := e.part.off + (if e.paid then 0 else e.part.len), st := .unbegun, num := none, segs := [], got := [] } }
  let s := s.setOp o e
  if e.paid then s.performedOp o
  else
    let ended := if e.kind == .cpyz then decide (e.count ≤ e.emitted) else decide (e.len ≤ e.part.off)
    if !ended then s.beginPart o
    else if e.kind == .wsig then s.at s.now prioNet (.wsigSignal o)
    else s.performedOp o

/-- The operation is suspended while its group stands still (R358); it goes on when the group resumes. -/
def State.opRests (s : State) (e : EngOp) : Bool :=
  let st := (s.groupAt e.grp).st
  st == .stopped || st == .saved || st == .rollingBack

def State.suspend (s : State) (o : Nat) : State :=
  s.modOp o fun e => { e with suspended := true, part := { e.part with gen := none, found := none } }

/-- Try again on the next cycle. -/
def State.retry (s : State) (ev : Instr) : State := s.at (s.now + 1) prioNet ev

/-! Host memory and peers (R116, R262, R384). -/

/-- The package that an address lies in: none for this one. -/
def packageOf (tgt pa : Nat) : Option Nat := if tgt = 6 ∧ 2 ≤ hostSelect pa then some (hostSelect pa) else none

/-- A WSIG's two addresses are judged before any byte is written, also where the length is 0 (R261). -/
inductive Judged where
  | ok (s : State)
  | fail (cause va kind : Nat) (s : State)
  | demand (va : Nat) (s : State)
  | wait (s : State)

def judgeWsig (s : State) (e : EngOp) : Judged :=
  let place (s : State) (r : Word) (kind : Nat) (k : State → Option Nat → Bool → Judged) : Judged :=
    if !r.getLsbD 63 then k s none false
    else
      match translate s e.ctx (r.toNat % 2 ^ 56) kind with
      | .page pa tgt _ s => k s (packageOf tgt pa) (tgt == 6)
      | .fail n => .fail n (r.toNat % 2 ^ 56) kind s
      | .demand => .demand (r.toNat % 2 ^ 56) s
      | .swap _ | .wait => .wait s
  let sigKind := if e.m = 1 then 2 else 1
  place s e.bv 1 fun s p _ =>
    place s e.ev sigKind fun s q host =>
      if e.ev.toNat % 8 != 0 || p != q then .fail 0x150 (e.ev.toNat % 2 ^ 56) sigKind s
      else if e.m = 1 && host && q.isNone then .fail 0x185 (e.ev.toNat % 2 ^ 56) sigKind s
      else .ok s

/-- A request is held on a demand page. -/
def State.holdOp (s : State) (o va : Nat) : State :=
  let s := s.modOp o fun e => { e with part := { e.part with st := .held, gen := none, found := none }, fva := BitVec.ofNat 64 va }
  s.holdFault { op := o, ctx := (s.opAt o).ctx, va := va }

/-- The first part of an operation begins; a WSIG is judged first. -/
def State.beginOp (s : State) (o : Nat) (again : Instr) : State :=
  let e := s.opAt o
  let go (s : State) : State :=
    let s := s.modOp o fun e => { e with begun := true, judged := true }
    if e.kind == .wsig && e.len = 0 then s.at s.now prioNet (.wsigSignal o) else s.beginPart o
  if e.kind != .wsig || e.judged then go s
  else
    match judgeWsig s e with
    | .ok s => go s
    | .fail n va kind s => s.failOp o n va kind
    | .demand va s => (s.modOp o fun e => { e with begun := true }).holdOp o va
    | .wait s => s.retry again

/-! Programs of the memory cores (R127 to R129). -/

/-- The ring that a local range lies wholly inside (R130). -/
def ringOfRange (rings : List Word) (a n : Nat) : Option Nat :=
  (List.range rings.length).find? fun j =>
    let w := (rings.getD j 0).toNat
    let base := w / 2 ^ 24 % 2 ^ 16 * 256
    let rows := w / 2 ^ 20 % 16 * (w / 2 ^ 12 % 256)
    rows != 0 && decide (base ≤ a) && decide (a + n ≤ base + rows * 256)

/-- The program that serves a request, if one does: the ring, and whether it is the loader. -/
def requestProgram (s : State) (e : EngOp) : Option (Nat × Bool) :=
  let k := (s.groupAt e.grp).kernel
  let loader := match e.kind with | .cpyLd | .cpyiLd | .cpyz => true | _ => false
  let storer := match e.kind with | .cpySt | .cpyiSt => true | _ => false
  if e.parent.isSome || !(loader && k.loaderW != 0 || storer && k.storerW != 0) then none
  else (ringOfRange k.rings e.la (e.localBytes (peekPage s e.ctx e.vaddr))).map fun r => (r, loader)

/-- The registers with which a request thread starts (R129). -/
def requestRegs (s : State) (e : EngOp) (ring : Nat) : SMap Word :=
  let kind := match e.kind with | .cpyiLd | .cpyiSt => 1 | .cpyz => 2 | _ => 0
  let f := if kind = 1 then e.bv.toNat / 2 ^ 56 % 64 else 0
  let fills := ((s.coreAt e.core).stage ring).fills
  [(0, BitVec.ofNat 64 e.vaddr), (1, BitVec.ofNat 64 (e.la + ring * 2 ^ 24)), (2, BitVec.ofNat 64 e.count),
   (3, BitVec.ofNat 64 (e.m + kind * 4 + f * 16)), (4, fills.setWidth 64)].foldl (fun m x => SMap.set 0 m x.1 x.2) []

/-- The memory core that serves an operation. -/
def State.memCoreOf (s : State) (e : EngOp) : Nat := pointOf (max 1 (homeTarget s e.ctx e.vaddr)) e.vaddr

/-- Requests that a memory core has begun. A copy that a program of a request thread makes is served in that thread's place, and is none of them
(DESIGN CHOICE, log entry 62). -/
def State.memCoreLoad (s : State) (m : Nat) : Nat :=
  (s.ops.filter fun x =>
    x.2.begun && x.2.st == .running && !x.2.logical && x.2.kind.accesses && x.2.parent.isNone && s.memCoreOf x.2 == m).length

/-- A request that reached the same memory core earlier has not started. -/
def olderRequest (s : State) (o n m : Nat) : Bool :=
  s.ops.any fun x =>
    x.1 != o && !x.2.begun && x.2.st == .running && !x.2.suspended && x.2.parent.isNone && x.2.arrived.any (fun k => decide (k < n)) && s.memCoreOf x.2 == m

/-- MEMORY_CORE_REQUEST: a memory core holds up to 32 requests and starts them in arrival order (R127). A request to far memory that is absent
starts nothing (R1). -/
def execMemoryCoreRequest (o : Nat) (s : State) : Out :=
  match SMap.find s.ops o with
  | none => .next s
  | some e =>
    if e.begun || e.st != .running then .next s
    else if s.opRests e then .next (s.suspend o)
    else if homeTarget s e.ctx e.vaddr = 5 && !Config.farPresent then .next (s.failOp o 0x14C e.vaddr e.access)
    else
      let (n, s) := match e.arrived with | some n => (n, s) | none => s.take
      let e := { e with arrived := some n }
      let s := s.setOp o e
      if e.parent.isNone && (decide (32 ≤ s.memCoreLoad (s.memCoreOf e)) || olderRequest s o n (s.memCoreOf e)) then .next (s.retry (.memoryCoreRequest o))
      else
      match requestProgram s e with
      | none =>
        if e.kind == .cpyz && e.vaddr % 8 != 0 then .next (s.failOp o 0x150 e.vaddr 0)
        else .next (s.beginOp o (.memoryCoreRequest o))
      | some (ring, loader) =>
        let (id, s) := s.take
        let th : Thread := { stat := .run, n := requestRegs s e ring, notBefore := s.now + 1 }
        let s := s.setReq id { op := o, memCore := s.memCoreOf e, ring := ring, loader := loader, thread := th }
        .next (s.setOp o { e with begun := true, thread := some id })

/-! Translation of a part. -/

/-- What a part is after its translation (R252, R253): a cause, or the operation with its part. Only a copy steps over a page's scale words (DESIGN
CHOICE, log entry 52). -/
def partOf (e : EngOp) (pa tgt : Nat) (p : Page) : Except Nat EngOp :=
  let copy := match e.kind with | .cpyLd | .cpySt | .cpyiLd | .cpyiSt => true | _ => false
  let inter := match e.kind with | .cpyiLd | .cpyiSt => true | _ => false
  let bg := if copy then p.bg else 0
  let first := e.part.off = 0
  let w := max 1 (fmtWidth p.ef)
  let size := 2 ^ pageLog p.sz
  let old : Part := { e.part with gen := none, found := none, absent := false }
  let part : Part := { old with st := .sent, pa := pa, home := tgt, die := dieOf tgt, ct := p.ct, ef := p.ef, bg := bg, pt := p.pt, geo := p.bg, key := p.key }
  if inter && bg != 0 then .error 0x0C5
  else if inter && first && e.count % w != 0 then .error 0x150
  else if bg != 0 && first then
    match blockSpan e bg size with
    | none => .error 0x0C5
    | some n => .ok { e with len := n, part := { part with len := min n (2048 - e.vaddr % 2048) } }
  else if copy && !first && bg != e.fmt then .error 0x0C5
  else if e.kind == .pgen then .ok { e with part := { part with pa := pa / size * size, len := size } }
  else .ok { e with width := if inter && first then w else e.width, part := part }

/-- An armed detector finds the TLB entry of an access damaged: it is discarded, and the address is walked again (R373, R402). -/
def State.parityCheck (s : State) (e : EngOp) : State :=
  if e.peer.isSome || !s.cached e.ctx e.partVa then s
  else
    match s.takeInj e.core 12 with
    | some (s, _) => s.uncache e.ctx e.partVa
    | none => s

/-- The translation of a part (R370 to R373): a cached one, or a walk that has run its course; then the swap that sets A or D. -/
inductive Walk where
  | got (x : Xlate)
  /-- the walk, or the swap, takes its time -/
  | going (s : State)

/-- The walk of the part begins, or begins again: it records the generation of its translation point (R373). -/
def State.startWalk (s : State) (o : Nat) : State :=
  (s.modOp o fun e => { e with part := { e.part with gen := some s.gen, found := none } }).later 0 (.pageWalk o 0)

/-- The swap of A or D on the entry that the walk has read: a failed one restarts the walk, and after eight the bucket's lock is taken (R372). -/
def swapStep (s : State) (o : Nat) (e : EngOp) (p : Page) : Walk :=
  if s.bucketLocked p then .going (s.retry (.pageWalk o 0))
  else if 8 ≤ e.swaps then .got (rewalk (s.setLocked p e.access) e.ctx e.partVa e.access)
  else
    match s.setUsed p e.access with
    | some s => .got (rewalk s e.ctx e.partVa e.access)
    | none => .going (((s.uncache e.ctx e.partVa).modOp o fun e => { e with swaps := e.swaps + 1 }).startWalk o)

/-- One event of a part's translation. -/
def walkStep (s : State) (o : Nat) (e : EngOp) : Walk :=
  match e.part.found with
  | some (a, w0, w1) => swapStep s o e { at_ := a, w0 := w0, w1 := w1 }
  | none =>
    if !s.cached e.ctx e.partVa && e.part.gen.isNone then .going (s.startWalk o)
    else .got (lookup s e.ctx e.partVa e.access)

/-- A walk that began under an older generation is dropped, and begins again (R373). -/
def EngOp.stale (s : State) (e : EngOp) : Bool := e.part.gen.any fun g => decide (g < s.gen)

/-- PAGE_WALK (R370 to R374). The access leaves once no earlier access of its agent and no fence holds it (R98, R105), and only then takes its
stamp (R113). -/
def execPageWalk (o _part : Nat) (s : State) : Out :=
  match SMap.find s.ops o with
  | none => .next s
  | some e =>
    if e.st != .running || e.cause.isSome || e.part.st != .unbegun then .next s
    else if s.opRests e then .next (s.suspend o)
    else if e.kind == .wsig && !e.judged then .next (s.beginOp o (.pageWalk o 0))
    else if e.stale s then .next ((s.modOp o fun e => { e with part := { e.part with gen := none, found := none } }).retry (.pageWalk o 0))
    else if s.invalidating e.ctx e.partVa then .next (s.retry (.pageWalk o 0))
    else
      let s := s.parityCheck e
      match walkStep s o e with
      | .going s => .next s
      | .got (.fail n) => .next (s.failOp o n e.partVa e.access)
      | .got .demand => .next (s.holdOp o e.partVa)
      | .got .wait => .next (s.retry (.pageWalk o 0))
      | .got (.swap p) =>
        .next ((s.modOp o fun e => { e with part := { e.part with found := some (p.at_, p.w0, p.w1) } }).later 0 (.pageWalk o 0))
      | .got (.page pa tgt p s) =>
        match partOf e pa tgt p with
        | .error n => .next (s.failOp o n e.partVa e.access)
        | .ok e' =>
          if orderHolds s o e' then .next (s.retry (.pageWalk o 0))
          else
            let s := (s.setOp o { e' with swaps := 0, fmt := if e.part.off = 0 && e.kind.accesses && !e.kind.isAtom then e'.part.bg else e'.fmt,
                                          sc := e.sc || e'.part.ct == 0 }).stampPart o
            .next (s.message (s.dieOfOp e) e'.homeDie prioNet (.homePerform o 0))

/-! At the home. -/

/-- The new value of an atomic (R262): kinds 0 add, 1 min, 2 max, 3 and, 4 or, 5 xor, 6 swap, 7 compare and swap. -/
def atomValue (op fmt : Nat) (old c cmp : Nat) : Nat :=
  let bits := 8 * fmtWidth fmt
  let bits := if fmt = 0 then 64 else bits
  let m := 2 ^ bits
  let c := c % m
  let key (x : Nat) : Nat := if fmt = 6 || fmt = 7 then (x + m / 2) % m else x
  match op with
  | 0 => (old + c) % m
  | 1 => if key c < key old then c else old
  | 2 => if key old < key c then c else old
  | 3 => old &&& c
  | 4 => old ||| c
  | 5 => old ^^^ c
  | 6 => c
  | _ => if old = cmp % m then c else old

/-- Bytes of an atomic's location. -/
def atomWidth (fmt : Nat) : Nat := if fmt = 6 ∨ fmt = 10 then 4 else 8

/-- The value with which an atomic lands: the old contents, sign-extended for I32. -/
def atomOld (fmt old : Nat) : Word := if fmt = 6 then signExtend 32 old else BitVec.ofNat 64 old

/-- The eight bytes of a signal's new value (R261). -/
def signalValue (e : EngOp) (old : Nat) : Nat :=
  let v := e.cv.toNat / 2 ^ 32
  if e.m = 1 then (BitVec.ofNat 64 old + signExtend 32 v).toNat else v

/-- A row's push, of operation `o`, is due (R87, R88). -/
def EngOp.pushPrio (e : EngOp) : Nat := prioBank + (if e.kind.loads then 13 else 12)

/-- A load's bytes are sent from their home: they are decoded for CPYZ, and pushed (R251, R254). -/
def State.deliver (s : State) (o : Nat) (bs : List Byte) (poisoned : Bool) : State :=
  let e := s.opAt o
  let e := if poisoned then { e with poisoned := true, stat := 9 } else e
  let push (e : EngOp) (segs : List (Nat × List Byte)) : State :=
    (s.setOp o { e with part := { e.part with st := .pushing, segs := segs } }).message e.homeDie (s.dieOfOp e) e.pushPrio (.copyPush o 0)
  if e.peer.isSome then (s.setOp o { e with buf := e.buf ++ bs }).finishPart o
  else if e.kind != .cpyz then push e (loadSegs e bs)
  else
    let buf := e.buf ++ bs
    if blockNeed buf != 0 then push { e with buf := buf } []
    else
      match decodeBlock buf with
      | none => (s.setOp o { e with buf := [] }).failOp o 0x0C3 e.partVa 0
      | some out =>
        let out := out.take (e.count - e.emitted)
        push { e with buf := [], emitted := e.emitted + out.length } (rowSegs (e.la + e.emitted) out (out.length / 256 + 2))

/-- The part reads granules of a WOS page that are unwritten (R101). -/
def readsUnwritten (s : State) (e : EngOp) : Bool := e.part.ct == 2 && s.unwritten e.grp (frameKey e.part.home e.part.pa) e.part.len

/-- A read of unwritten granules is held at the home, or, with .nw, ends with status absent (R101, R260). -/
def performAbsent (o : Nat) (e : EngOp) (s : State) : State :=
  if e.kind == .rget && e.m = 1 then ((s.setOp o { e with stat := 5 }).mergeClocks o).performedOp o
  else (s.setOp o { e with part := { e.part with absent := true } }).retry (.homePerform o 0)

/-- The bytes of a read of global memory are poisoned and may not be delivered: the group consumes the error, and a peer is told (R379, R400). -/
def State.escalate (s : State) (o : Nat) (e : EngOp) : State :=
  if e.peer.isSome then s.failOp o 0x281 e.partVa e.access else s.consume e.grp 0x281 (2 ^ 36 + e.part.pa / 65536 % 2 ^ 36)

/-- A read of a page of stacked DRAM or far memory is performed. -/
def performLoad (o : Nat) (e : EngOp) (s : State) : State :=
  let bs := s.physRead e.grp e.part.pa e.part.len
  if readsUnwritten s e then performAbsent o e s
  else
    match readPoison s e e.part.pa bs with
    | none => s.escalate o e
    | some (bs, bad) => (s.mergeClocks o).deliver o bs bad

/-- An atomic is performed (R106, R262). A write that another group holds is performed first: the old value is read after it (R329). -/
def performAtom (o op : Nat) (e : EngOp) (s : State) : State :=
  let w := atomWidth e.fmt
  if e.partVa % w != 0 then s.failOp o 0x150 e.partVa 2
  else if e.part.ct = 2 then s.failOp o 0x146 e.partVa 2
  else
    let s := s.forceCommit e.grp e.part.pa w
    match readPoison s e e.part.pa (s.physRead e.grp e.part.pa w) with
    | none => s.escalate o e
    | some (bs, bad) =>
      let old := leNat bs
      let s := s.physWrite e.grp e.part.home e.part.pa (leBytes w (atomValue op e.fmt old e.cv.toNat e.ev.toNat))
      ((s.modOp o fun e => { e with old := atomOld e.fmt old, poisoned := e.poisoned || bad, stat := if bad then 9 else e.stat }).mergeClocks o).performedOp o

/-- A signal is applied (R119, R261). -/
def performSignal (o : Nat) (e : EngOp) (s : State) : State :=
  if e.m = 1 && e.part.ct = 2 then s.failOp o 0x146 e.partVa 2
  else
    let s := if e.m = 1 then s.forceCommit e.grp e.part.pa 8 else s
    let bytes := s.physRead e.grp e.part.pa 8
    match (if e.m = 1 then readPoison s e e.part.pa bytes else some (bytes, false)) with
    | none => s.escalate o e
    | some (bs, bad) =>
      match s.typedWrite e.grp e.part.home e.part.ct e.part.pa (leBytes 8 (signalValue e (leNat bs))) with
      | .error n => s.failOp o n e.partVa e.access
      | .ok s => ((s.modOp o fun e => if bad then { e with poisoned := true, stat := 9 } else e).mergeClocks o).finishPart o

/-- A page generation: every granule of the page is unwritten (R263). -/
def performPgen (o : Nat) (e : EngOp) (s : State) : State :=
  if e.part.ct != 2 then s.failOp o 0x149 e.partVa 1
  else
    let lo := frameKey e.part.home e.part.pa / 64
    let n := e.part.len / 64
    (s.unmark fun x => decide (lo ≤ x) && decide (x < lo + n)).performedOp o

/-- A part is performed at its home in this package. -/
def performHome (o : Nat) (e : EngOp) (s : State) : State :=
  match e.kind with
  | .atom op => performAtom o op e s
  | .pgen => performPgen o e s
  | k =>
    if e.paid then performSignal o e s
    else if k.loads then performLoad o e s
    else
      match s.typedRuns e.grp e.part.home e.part.ct e.part.pa (storeRuns s e) with
      | .error n => s.failOp o n e.partVa e.access
      | .ok s => ((s.useSource e).mergeClocks o).finishPart o

/-- A request through a host port (R116, R118): writes are posted, reads and the acknowledgement of writes come with a completion. -/
def performPort (o port : Nat) (e : EngOp) (s : State) : State :=
  match e.kind with
  | .atom _ => s.failOp o 0x185 e.partVa 2
  | .pgen => performPgen o e s
  | k =>
    let (ag, n) := s.root o e
    let x : PortWrite := { port := port, op := if k.loads then o else n, agent := ag, sc := e.sc }
    let wait (s : State) : State :=
      { s with hub := { s.hub with portWrites := s.hub.portWrites ++ [x] } }.later 1 (.hostPortCompletion port true)
    if k.loads then (if readsUnwritten s e then performAbsent o e s else wait s)
    else
      match s.typedRuns e.grp 6 e.part.ct e.part.pa (if e.paid then [(0, leBytes 8 (signalValue e 0))] else storeRuns s e) with
      | .error n => s.failOp o n e.partVa e.access
      | .ok s => (wait (s.useSource e)).finishPart o

/-- `n` free bytes. -/
def State.freeBytes (s : State) : Nat → List Byte × State
  | 0 => ([], s)
  | n + 1 =>
    let (f, s) := s.free
    let (l, s) := s.freeBytes n
    (f.setWidth 8 :: l, s)

/-- The causes with which a request may end at a peer's hub or home; a code that no rule assigns is never raised (R352). -/
def peerCauses : List Nat :=
  [0x140, 0x141, 0x142, 0x143, 0x144, 0x145, 0x146, 0x147, 0x148, 0x149, 0x14A, 0x14B, 0x14C, 0x150, 0x185, 0x187, 0x240, 0x281, 0x284]

/-- What the peer answers: one of those causes, or 0 where it succeeds. -/
def State.peerAnswer (s : State) : Nat := let c := Config.peerCause s.fresh; if peerCauses.contains c then c else 0

/-- A request to a peer package: what the peer answers is open (log entry 8). It is held while the peer's link set changes (R382). -/
def performPeer (o peer : Nat) (e : EngOp) (s : State) : State :=
  match s.peerLink peer e.part.pa with
  | none => s.failOp o 0x186 e.partVa e.access
  | some link =>
    if s.hub.linkHold.contains peer then s.retry (.homePerform o 0)
    else
    let n := match e.kind with | .atom _ => 16 | k => if k.loads then 8 else 8 + e.part.len
    let s := (if e.kind.loads then s else s.useSource e).sendPeer link 1 peer e.part.pa none (flitsFor n)
    let cause := s.peerAnswer
    let (f, s) := s.free
    if cause != 0 then s.failOp o cause e.partVa e.access
    else
      match e.kind with
      | .atom _ => (s.modOp o fun x => { x with old := if e.fmt = 6 then signExtend 32 (f.toNat % 2 ^ 32) else if e.fmt = 10 then BitVec.ofNat 64 (f.toNat % 2 ^ 32) else f }).performedOp o
      | .pgen => s.performedOp o
      | k =>
        if k.loads then
          let (bs, s) := s.freeBytes e.part.len
          let absent := k == .rget && e.m == 1 && f.getLsbD 0
          if absent then (s.modOp o fun e => { e with stat := 5 }).performedOp o else s.deliver o bs false
        else s.finishPart o

/-- HOME_PERFORM (R93, R98, R114). A part that has left is performed although its group has stopped meanwhile: what a stop suspends is the next
push (R358). -/
def execHomePerform (o _part : Nat) (s : State) : Out :=
  match SMap.find s.ops o with
  | none => .next s
  | some e =>
    if e.st != .running || e.cause.isSome || e.part.st != .sent then .next s
    else
      let s := s.arrive e
      if (e.kind.writes && !localReady s o e) || !clocksAllow s o e then .next (s.retry (.homePerform o 0))
      else
        match s.admitAt e with
        | .error n => .next (s.failOp o n e.partVa e.access)
        | .ok s =>
          if e.part.home != 6 then .next (performHome o e (s.rekey (s.keyOf e.part.key) e.part.pa (if e.kind == .pgen then 0 else e.part.len)))
          else
            let x := hostSelect e.part.pa
            if x < 2 then .next (performPort o x e s)
            else if x = 0xFFF || x = s.hub.fnum.toNat then .next (s.failOp o 0x142 e.partVa e.access)
            else .next (performPeer o x e s)

/-- HOST_PORT_COMPLETION: the oldest request of the port that waits is answered (R118). -/
def execHostPortCompletion (port : Nat) (ok : Bool) (s : State) : Out :=
  match s.hub.portWrites.find? fun x => x.port == port with
  | none => .next s
  | some w =>
    let l := s.hub.portWrites
    let s := { s with hub := { s.hub with portWrites := l.takeWhile (fun x => x.port != port) ++ (l.dropWhile fun x => x.port != port).drop 1 } }
    let o := w.op
    match SMap.find s.ops o with
    | none => .next s
    | some e =>
      if !e.kind.loads || e.part.st != .sent || e.st != .running then .next s
      else if !ok then .next (s.failOp o 0x186 e.partVa 0)
      else .next (s.deliver o (memRead s.host e.part.pa e.part.len) false)

/-! Pushes (R87, R251, R265, R326). -/

/-- A push credits the fill whose stage holds the rows that it writes (R131, R326). -/
def Sbs.credit (b : Sbs) (a n : Nat) : Sbs :=
  let size := b.rows * 256
  if b.s = 0 || a < b.base * 256 || b.base * 256 + b.s * size ≤ a then b
  else
    let i := ((a - b.base * 256) / size + b.s - b.stage % b.s) % b.s
    let c := b.counts ++ List.replicate (i + 1 - b.counts.length) 0
    { b with counts := c.set i (min size (c.getD i 0 + n)) }

/-- The store at the other side of a push: the requesting core as requester 13, or a target core as requester 12. -/
def EngOp.pushTo (e : EngOp) : Nat × Nat := if e.kind.loads then (e.core, 13) else (e.tgt, 12)

/-- A push of one row's bytes, which the bank has granted, is written at the end of this cycle and is read from the next one (R90). -/
def State.pushRow (s : State) (e : EngOp) (a : Nat) (bs : List Byte) : State :=
  let (c, who) := e.pushTo
  let s := (s.write c who a bs s.now (s.now + 1)).2
  if who = 12 then s
  else
    let s := s.modCore c fun k => { k with sbs := k.sbs.map fun x => (x.1, x.2.credit a bs.length) }
    if !isLocal a then s
    else
      let s := s.modCore c fun k => k.setTag (a / 256) e.tag s.now
      if (s.coreAt c).watches (a / 256) then s.at s.now prioNet (.burinTrigger c (a / 256)) else s

/-- The stage that holds an address may not be filled yet (R130): it is the one of the fill that no wait has declared consumed, or it is full. -/
def Sbs.shut (b : Sbs) (a : Nat) : Bool :=
  let size := b.rows * 256
  if b.s = 0 || a < b.base * 256 || b.base * 256 + b.s * size ≤ a then false
  else
    let i := ((a - b.base * 256) / size + b.s - b.stage % b.s) % b.s
    i + 1 == b.s || decide (size ≤ b.counts.getD i 0)

/-- A copy that a loader serves (R129). -/
def ReqKind.loader : ReqKind → Bool
  | .cpyLd | .cpyiLd | .cpyz => true
  | _ => false

/-- The NI holds the push: the burin unit has no room for its trigger, its stage may not be filled yet, or an earlier access of the thread to its
granules goes first (R98, R123, R130, R132). -/
def pushHeld (s : State) (o : Nat) (e : EngOp) (a n : Nat) : Bool :=
  let k := s.coreAt e.core
  e.kind.loads && (k.triggersFull (a / 256) || (e.kind.loader && k.sbs.any fun x => x.2.shut a) || !pushOrdered s o e a n)

/-- An operation no longer waits at the banks of a core. -/
def State.leaveBanks (s : State) (c o : Nat) : State :=
  [Place.core c, Place.cluster (clusterOf c)].foldl (fun s p =>
    if (s.accOf p).any fun x => x.key == o then s.setAcc p ((s.accOf p).filter fun x => x.key != o) else s) s

/-- A push of a request thread counts among those of its request (R129). -/
def State.countPush (s : State) (e : EngOp) (a n : Nat) : State :=
  match e.agent with
  | .req id => s.modOp (s.reqAt id).op fun r => { r with pushed := r.pushed ++ [(a, n)] }
  | _ => s

/-- The push has been made before the request failed, and is not made again (R129, R377). -/
def madeBefore (s : State) (e : EngOp) (a n : Nat) : Bool :=
  match e.agent with
  | .req id => (s.opAt (s.reqAt id).op).skip.contains (a, n)
  | _ => false

/-- One row's bytes go into the memory of a core, once its bank grants the access (R87, R88). -/
def pushBank (o a : Nat) (bs : List Byte) (rest : List (Nat × List Byte)) (e : EngOp) (s : State) : State :=
  let (c, who) := e.pushTo
  let again (s : State) : State := s.at (s.now + 1) e.pushPrio (.copyPush o 0)
  let next (s : State) : State := again (s.modOp o fun e => { e with part := { e.part with segs := rest } })
  if madeBefore s e a bs.length then
    match e.agent with
    | .req id => next ((s.countPush e a bs.length).modOp (s.reqAt id).op fun r => { r with skip := r.skip.erase (a, bs.length) })
    | _ => s
  else if pushHeld s o e a bs.length then again s
  else
    match s.askBank c a who o with
    | .inr s => again s
    | .inl s =>
      if (s.coreAt c).personality a bs.length then s.failOp o 0x0D0 e.partVa e.access
      else next ((s.pushRow e a bs).countPush e a bs.length)

/-- COPY_PUSH: one row's bytes of a part, on one cycle; a request thread's scratch takes them at once. One that a stop suspends keeps its number
(R114, R358; DEDUCED, log entry 34). -/
def execCopyPush (o _part : Nat) (s : State) : Out :=
  match SMap.find s.ops o with
  | none => .next s
  | some e =>
    if e.st != .running || e.cause.isSome || e.part.st != .pushing then .next s
    else if s.opRests e then .next ((s.leaveBanks e.pushTo.1 o).suspend o)
    else
      match e.part.segs with
      | [] => .next (s.finishPart o)
      | (a, bs) :: rest =>
        match e.agent with
        | .req id =>
          if 2 ^ 24 ≤ a then
            let r := s.reqAt id
            let s := s.setOp o { e with part := { e.part with segs := rest } }
            .next ((s.setReq id { r with scratch := memWrite r.scratch (a - 2 ^ 24) bs }).at s.now prioNet (.copyPush o 0))
          else .next (pushBank o a bs rest e s)
        | _ => .next (pushBank o a bs rest e s)

/-! Logical requests (R95, R260, R317). -/

/-- The receiving NI's current map differs from the request's stamp: it is refused, counted, and sent again (R317). -/
def State.refuseStale (s : State) (o : Nat) : State :=
  let s := (s.leaveBanks (s.opAt o).place o).modOp o fun e => { e with part := { e.part with st := .unbegun, num := none } }
  let s := { s with hub := { s.hub with stale := s.hub.stale + 1 } }
  let e := s.opAt o
  s.message (feStack e.place) (s.dieOfOp e) prioNet (.staleReissue o 0)

/-- A logical address range that does not exist in the target. -/
def reservedRange (a n : Nat) : Bool :=
  !((isLocal a && decide (a + n ≤ localEnd)) || (isShared a && decide (a + n ≤ sharedEnd)))

/-- The event of a request at the banks of its target, where it is requester 12 (R87, R88). -/
def State.atTarget (s : State) (o due : Nat) : State := s.at due (prioBank + 12) (.remoteRequestReceive o 0)

/-- An atomic, or a signal, in a core's memory (R261, R262); the old bytes are used where the new ones depend on them (R400). -/
def logicalUpdate (o : Nat) (e : EngOp) (s : State) : State :=
  let a := e.partAddr
  let w := match e.kind with | .atom _ => atomWidth e.fmt | _ => 8
  let old := leNat (s.committed e.place a w)
  match e.kind with
  | .atom op =>
    let s := (s.useBytes e.place a w).poke e.place a (leBytes w (atomValue op e.fmt old e.cv.toNat e.ev.toNat))
    ((s.modOp o fun e => { e with old := atomOld e.fmt old }).mergeClocks o).performedOp o
  | _ =>
    let s := if e.m = 1 then s.useBytes e.place a w else s
    ((s.poke e.place a (leBytes 8 (signalValue e old))).mergeClocks o).finishPart o

/-- The next row of a get is read, a source of the core that asked (R400); with the last one the bytes go to it. -/
def logicalRead (o : Nat) (e : EngOp) (s : State) : State :=
  let a := e.partAddr + e.part.got.length
  let n := min (256 - a % 256) (e.part.len - e.part.got.length)
  let got := e.part.got ++ s.committed e.place a n
  let s := (s.useBytes e.place a n).setOp o { e with part := { e.part with got := got } }
  if got.length < e.part.len then s.atTarget o (s.now + 1) else (s.mergeClocks o).deliver o got false

/-- The rows of a put are written one by one (R88). -/
def logicalWrite (o : Nat) (e : EngOp) (s : State) : State :=
  let bs := match storeRuns s e with | (_, bs) :: _ => bs | [] => []
  (((s.useSource e).mergeClocks o).modOp o fun e => { e with part := { e.part with st := .pushing, segs := rowSegs e.partAddr bs (bs.length / 256 + 2) } }).at
    s.now (prioBank + 12) (.copyPush o 0)

/-- Where the row lies that a logical part asks a bank for, and the bytes of the part. -/
def EngOp.askAddr (e : EngOp) : Nat := e.partAddr + e.part.got.length
def EngOp.askLen (e : EngOp) : Nat := match e.kind with | .atom _ => atomWidth e.fmt | _ => e.part.len

/-- A logical part at its target, one row a cycle: 0x150 for an atomic that is not aligned, 0x185 for an atomic or a signal in a personality
bank, 0x0D0 for a get or a put (R260 to R262, R283, R296). -/
def logicalPerform (o : Nat) (e : EngOp) (s : State) : State :=
  let c := e.place
  let a := e.askAddr
  let one := e.kind.isAtom || e.paid
  if e.kind.isAtom && a % e.askLen != 0 then s.failOp o 0x150 a 2
  else if !one && !e.kind.loads then
    let x := s.accessOf c a 12 o
    if (s.coreAt c).holdsAccess a x.arrive then (s.await (placeOf c a) x).atTarget o (s.now + 1)
    else if (s.coreAt c).personality e.partAddr e.askLen then (s.leaveBanks c o).failOp o 0x0D0 e.partAddr e.access
    else logicalWrite o e (s.await (placeOf c a) x)
  else
    match s.askBank c a 12 o with
    | .inr s => s.atTarget o (s.now + 1)
    | .inl s =>
      if (s.coreAt c).personality e.partAddr e.askLen then s.failOp o (if one then 0x185 else 0x0D0) e.partAddr e.access
      else if one then logicalUpdate o e s
      else logicalRead o e s

/-- A logical part leaves for its target: its stamp is taken (R113). -/
def State.sendLogical (s : State) (o : Nat) (e : EngOp) (ev : Instr) : State :=
  let s := (s.setOp o { e with part := { e.part with st := .sent, ct := 1, home := 0, die := feStack e.place } }).stampPart o
  s.message (s.dieOfOp e) (feStack e.place) (prioBank + 12) ev

/-- REMOTE_REQUEST_RECEIVE (R95, R317): the sending NI lets the part go once its order allows; the receiving NI checks its stamps and takes it to
the bank. Requests that reach a member's NI while its group stands still are held there with their numbers (R114, R358; DEDUCED, log entry 34). -/
def execRemoteRequestReceive (o _part : Nat) (s : State) : Out :=
  match SMap.find s.ops o with
  | none => .next s
  | some e =>
    let s := if e.part.st == .sent then s.arrive e else s
    if e.st != .running || e.cause.isSome || e.part.st == .pushing then .next s
    else if s.opRests e then .next ((s.leaveBanks e.place o).suspend o)
    else if !e.begun then .next (s.beginOp o (.remoteRequestReceive o 0))
    else if e.mapv != (s.groupAt e.grp).mapv then .next (s.refuseStale o)
    else if reservedRange e.partAddr e.askLen then .next (s.failOp o 0x183 e.partAddr e.access)
    else if e.part.st != .sent then
      if orderHolds s o e || (e.kind.writes && !localReady s o e) then .next (s.retry (.remoteRequestReceive o 0))
      else .next (s.sendLogical o e (.remoteRequestReceive o 0))
    else
      if !clocksAllow s o e then .next (s.atTarget o (s.now + 1)) else .next (logicalPerform o e s)

/-- The event that a logical request waits for after its reissue. -/
def reissueEvent (o : Nat) (k : ReqKind) : Instr :=
  match k with
  | .mcmd => .mcmdArrival o
  | .amsg | .tkpost => .amsgArrival o
  | _ => .remoteRequestReceive o 0

/-- STALE_REISSUE: the sending NI translates the request under its current map and sends it again (R317). -/
def execStaleReissue (o _part : Nat) (s : State) : Out :=
  match SMap.find s.ops o with
  | none => .next s
  | some e =>
    let fe (r : Word) (old : Nat) : Nat := match logicalTarget s e.core r with | some t => t.fe | none => old
    let r := if e.kind == .mcmd || e.message then e.av else e.bv
    let s := s.setOp o { e with tgt := fe r e.tgt, sigTgt := if e.kind == .wsig then fe e.ev e.sigTgt else e.sigTgt,
                                mapv := (s.groupAt e.grp).mapv, part := { e.part with st := .unbegun, num := none, got := [] },
                                reissued := true, atNi := false }
    .next (s.later 1 (reissueEvent o e.kind))

/-- The payload of a peer's WSIG has ended with error status here: its signal is never applied (R119). -/
def State.payloadFailed (s : State) (e : EngOp) : Option Nat :=
  e.peer.bind fun p => (s.hub.failedPayloads.find? fun x => x.1 == p && x.2.1 == e.tag).map (·.2.2)

/-- WSIG_SIGNAL: once the payload and every earlier write of the thread have been performed, the signal goes out as the last part of the
operation (R119). -/
def execWsigSignal (o : Nat) (s : State) : Out :=
  match SMap.find s.ops o with
  | none => .next s
  | some e =>
    if e.st != .running || e.cause.isSome || e.paid then .next s
    else if s.opRests e then .next (s.suspend o)
    else if (s.earlier o e).any fun x => x.2.writes then .next (s.retry (.wsigSignal o))
    else match s.payloadFailed e with
      | some n =>
        let l := s.hub.failedPayloads.filter fun x => !(e.peer == some x.1 && x.2.1 == e.tag)
        .next (({ s with hub := { s.hub with failedPayloads := l } }).failOp o n e.vaddr 1)
      | none => .next ((s.setOp o { e with paid := true }).beginPart o)

/-! Resuming (R358, R377, R378). -/

/-- The event with which a suspended or failed operation goes on. -/
def resumeEvent (o : Nat) (e : EngOp) : Instr :=
  if e.message then reissueEvent o e.kind
  else if !e.begun then (match e.kind with
    | .mcmd | .amsg | .tkpost => reissueEvent o e.kind
    | _ => if e.logical then .remoteRequestReceive o 0 else .memoryCoreRequest o)
  else if e.kind == .wsig && e.judged && !e.paid && e.len ≤ e.part.off then .wsigSignal o
  else
    match e.part.st with
    | .pushing => .copyPush o 0
    | .sent => if e.logical then .remoteRequestReceive o 0 else .homePerform o 0
    | _ => if e.logical then .remoteRequestReceive o 0 else .pageWalk o 0

/-- The causes of failed operations that a plain return from a trap resumes (R378). -/
def resumable (cause : Nat) : Bool := [0x140, 0x141, 0x142, 0x143, 0x144, 0x148, 0x14A, 0x14B, 0x240].contains cause

/-- Every failed operation of the thread whose cause admits it goes on from its offset (R378). One that a program served is served by it anew,
and the pushes that it has made are not made again (R129, R377; DESIGN CHOICE, log entry 50). -/
def State.resumeFailed (s : State) (ag : Agent) : State :=
  let ops := (s.threadOf ag).allOps
  ops.foldl (fun s o =>
    match s.opFailed o with
    | some n =>
      if resumable n then
        let s := s.modOp o fun e =>
          let e := { e with st := .running, cause := none, performed := false }
          if e.thread.isSome then { e with thread := none, begun := false, skip := e.pushed, pushed := [] } else e
        s.later 1 (resumeEvent o (s.opAt o))
      else s
    | none => s) s

end Sys2Proof.Machine
end

