-- ==== Sys2Proof/Machine/Copy.lean ====
section
/-! DEFINITION. Classes 0x8 and part of 0x9 to 0xB: CPY, CPYI, CPYZ, RGET, RPUT, WSIG, PGEN, ATOM and FENCE at issue (R103, R105, R251 to
R263, R272). -/

namespace Sys2Proof.Machine

/-- The local side of a copy: an address, and whether a register form breaks R251. A request thread names its scratch, here from 2^24
on, or the requesting core (R128). -/
def copyLocal (cx : Cx) (th : Thread) (o : Operand) : Nat × Bool :=
  let v := (th.value o false).toNat
  match cx.ag, o.kind with
  | .req _, _ => if v / 2 ^ 63 = 1 then (v % 2 ^ 24, v / 2 ^ 24 % 2 ^ 39 != 0) else (2 ^ 24 + v % 2 ^ 24, v / 2 ^ 24 != 0)
  | _, .nreg | _, .qage => (v % 2 ^ 24, v / 2 ^ 24 != 0)
  | _, _ => (th.base o false, false)

/-- The length of a copy and its tag, and whether a register form is out of its range (R128, R251). -/
def copyLength (cx : Cx) (th : Thread) (o : Operand) (most : Nat) : Nat × Nat × Bool :=
  let v := (th.src o).toNat
  match cx.ag, o.kind with
  | .req _, .nreg | .req _, .qage => (v % 2 ^ 24, v / 2 ^ 32 % 2 ^ 16, v % 2 ^ 24 = 0 || decide (most < v % 2 ^ 24))
  | _, .imm => (v, 0, false)
  | _, _ => (v, 0, v = 0 || decide (most < v))

/-- The checks on a local range that an engine operation reads or writes (R174, R251): guard and personality; a request thread may touch
its scratch and the ring of its request alone (R129). -/
def rangeTrap (s : State) (cx : Cx) (a n : Nat) (rd wr : Bool) : Option TrapInfo :=
  match cx.ag with
  | .req id =>
    let r := s.reqAt id
    let e := s.opAt r.op
    let ok := if 2 ^ 24 ≤ a then decide (a + n ≤ 2 ^ 24 + 0x1000)
      else ringOfRange (s.groupAt e.grp).kernel.rings a n == some r.ring
    if ok then none else some { cause := 0x0D4, record := guardRecord a rd wr n }
  | _ => firstTrap [guardTrap s cx a n rd wr, causeIf ((s.coreAt cx.c).personality a n) 0x0D0]

/-- The local range lies in a bank that is changing, or among rows under replay. -/
def rangeHeld (s : State) (cx : Cx) (a n : Nat) (wr : Bool) : Bool :=
  (s.coreAt cx.c).changingIn a n || (wr && cx.t == 0 && (s.coreAt cx.c).kept a n)

/-- An operation goes to the memory core of its home, in order among what goes from die to die (R112), or to the sending NI where a register names a
core's memory (R94). -/
def State.dispatch (s : State) (q : Nat) : State :=
  let e := s.opAt q
  if e.logical then s.later 1 (.remoteRequestReceive q 0) else s.message (s.dieOfOp e) (s.servingDie e) prioNet (.memoryCoreRequest q)

/-- Start an operation that memory cores or NIs serve. -/
def startRemote (cx : Cx) (e : EngOp) (s : State) : Verdict := startOpBy cx e (fun q s => s.dispatch q) s

/-- Start a copy; one of the burin unit enters no set (R256). -/
def startCopy (cx : Cx) (e : EngOp) (s : State) : Verdict :=
  if cx.t = 12 then
    let (q, s) := s.newOp cx e
    .done (s.dispatch q)
  else startRemote cx e s

/-- CPY, CPYI and CPYZ (R251 to R256). -/
def copyBody (load store : ReqKind) (cx : Cx) (w : Fields) (s : State) : Verdict :=
  let th := s.self cx
  let st := w.m.getLsbD 0 && load != .cpyz
  let b := th.src w.b
  let hi := b.toNat / 2 ^ 56
  let (la, badA) := copyLocal cx th w.a
  let (n, tag, badC) := copyLength cx th w.c 4194304
  let badB := if load == .cpyiLd then decide (64 ≤ hi) || hi == 0 else hi != 0
  let e : EngOp := { kind := if st then store else load, m := w.m.toNat, bv := b, cv := BitVec.ofNat 64 n, la := la, len := n, tag := tag }
  let bytes := e.localBytes (peekPage s (s.ctxOf cx.ag) e.vaddr)
  unlessFull cx s <| checked (firstTrap [causeIf (badA || badB || badC) 0x150, rangeTrap s cx la bytes st (!st)])
    (if rangeHeld s cx la bytes (!st) then .hold else startCopy cx e (s.advanceNow cx w.a))

def execCpy (w : Fields) (s : State) : Out := issue (.cpy w) (copyBody .cpyLd .cpySt) s
def execCpyi (w : Fields) (s : State) : Out := issue (.cpyi w) (copyBody .cpyiLd .cpyiSt) s
def execCpyz (w : Fields) (s : State) : Out := issue (.cpyz w) (copyBody .cpyz .cpyz) s

/-- The front end that a logical register names. -/
def targetFe (s : State) (c : Nat) (r : Word) : Nat := match logicalTarget s c r with | some t => t.fe | none => c

/-- RGET (R260). -/
def execRget (w : Fields) (s : State) : Out :=
  issue (.rget w) (fun cx w s =>
    let th := s.self cx
    let b := th.src w.b
    let (la, badA) := copyLocal cx th w.a
    let (n, _, badC) := copyLength cx th w.c 1048576
    let addr := b.toNat % 256
    let badNw := w.m.getLsbD 0 && decide (256 < addr + n)
    let e : EngOp := { kind := .rget, m := w.m.toNat, bv := b, cv := BitVec.ofNat 64 n, la := la, len := n, tgt := targetFe s cx.c b }
    unlessFull cx s <| checked
      (firstTrap [causeIf (remoteBad s cx.c b) 0x182, causeIf (badA || badC || badNw) 0x150, rangeTrap s cx la n false true])
      (if rangeHeld s cx la n true then .hold else startRemote cx e (s.advanceNow cx w.a))) s

/-- RPUT (R260). -/
def execRput (w : Fields) (s : State) : Out :=
  issue (.rput w) (fun cx w s =>
    let th := s.self cx
    let a := th.src w.a
    let (la, badB) := copyLocal cx th w.b
    let (n, _, badC) := copyLength cx th w.c 1048576
    let e : EngOp := { kind := .rput, bv := a, cv := BitVec.ofNat 64 n, la := la, len := n, tgt := targetFe s cx.c a }
    unlessFull cx s <| checked
      (firstTrap [causeIf (remoteBad s cx.c a) 0x182, causeIf (badB || badC) 0x150, rangeTrap s cx la n true false])
      (if rangeHeld s cx la n false then .hold else startRemote cx e (s.advanceNow cx w.b))) s

/-- WSIG (R261): an immediate C gives the length with the value 1. -/
def execWsig (w : Fields) (s : State) : Out :=
  issue (.wsig w) (fun cx w s =>
    let th := s.self cx
    let p := th.readN w.a.num
    let q := th.readN (w.a.num + 1)
    let c := th.src w.c
    let n := c.toNat % 2 ^ 24
    let v := if w.c.kind == .imm then 1 else c.toNat / 2 ^ 32
    let la := th.base w.b false
    let e : EngOp := { kind := .wsig, m := w.m.toNat, bv := p, ev := q, cv := BitVec.ofNat 64 (v * 2 ^ 32 + n), la := la, len := n,
                       tgt := targetFe s cx.c p, sigTgt := targetFe s cx.c q }
    unlessFull cx s <| checked
      (firstTrap [causeIf (remoteBad s cx.c p || remoteBad s cx.c q) 0x182, if n = 0 then none else rangeTrap s cx la n true false])
      (if n != 0 && rangeHeld s cx la n false then .hold else startRemote cx e (s.advanceNow cx w.b))) s

/-- PGEN (R263). -/
def execPgen (w : Fields) (s : State) : Out :=
  issue (.pgen w) (fun cx w s =>
    let a := (s.self cx).src w.a
    unlessFull cx s <| if a.toNat / 2 ^ 56 != 0 then .cause 0x150 else startRemote cx { kind := .pgen, bv := a, len := 1 } s) s

/-! ATOM (R106, R262). -/

/-- Forget the ended operations of a kind that the thread has waited for. -/
def State.dropWaited (s : State) (ag : Agent) (p : ReqKind → Bool) : State :=
  { s with ops := s.ops.filter fun x => !(x.2.agent == ag && p x.2.kind && x.2.st != .running) }

/-- The waiting word looks at the operation that it waits for: its value, its trap, or a further wait. -/
def awaitOp (cx : Cx) (s : State) (k : EngOp → State → Verdict) : Verdict :=
  match (s.self cx).waitOn with
  | none => .done s
  | some o =>
    match SMap.find s.ops o with
    | none => .done s
    | some e =>
      match e.st with
      | .running => .wait s
      | .done => k e { (s.modThread cx.ag fun th => { th with waitOn := none }) with ops := SMap.erase s.ops o }
      | .failed n => .trap { cause := n, record := failRecord e 0, op := some o }

/-- Operations of the thread that have not been acknowledged: they go on, or writes to host memory of them, or of the programs that served them, wait
for a completion (R118). -/
def openOps (s : State) (ag : Agent) : List Nat :=
  (s.ops.filter fun x => x.2.agent == ag && x.2.accesses && x.2.st == .running).map (·.1) ++
    (s.hub.portWrites.filter fun x => x.agent == ag).map (·.op)

/-- A fence of the thread is in force from now on; those whose earlier accesses are all over are forgotten. -/
def State.addFence (s : State) (ag : Agent) (f : FenceRec) : State :=
  let l := openOps s ag
  s.modThread ag fun th =>
    { th with fences := (th.fences.filter fun x => x.before.any l.contains || localOwed s ag x) ++ [{ f with issued := s.now }] }

/-- The smallest scope whose observers include the home of an operation (R262). -/
def smallestScope (s : State) (e : EngOp) : Nat :=
  let r := e.reaches s
  if r.all fun q => inScope 1 e.core q.fe q.die then 1
  else if r.all fun q => inScope 2 e.core q.fe q.die then 2
  else if r.all fun q => inScope 3 e.core q.fe q.die then 3
  else 4

/-- An ATOM on an RC page orders the accesses after it as a fence of its order does, with itself among the earlier ones (R106, R262; the page
as the table has it at issue: DEDUCED, log entry 49). -/
def State.atomFence (s : State) (ag : Agent) (o : Nat) : State :=
  let e := s.opAt o
  if (e.reaches s).all fun r => r.ct == 1 then
    s.addFence ag { seq := o, scope := smallestScope s e, order := e.m, before := openOps s ag }
  else s

/-- ATOM with operation `op` (R262): the thread issues no further word until the old value has landed. -/
def atomBody (op : Nat) (cx : Cx) (w : Fields) (s : State) : Verdict :=
  if cx.again then awaitOp cx s fun e s => result cx (.n w.a.num) e.old 1 s
  else
    let th := s.self cx
    let b := th.src w.b
    if remoteBad s cx.c b then .cause 0x182
    else
      let s := s.dropWaited cx.ag ReqKind.isAtom
      let (q, s) := s.newOp cx { kind := .atom op, m := w.m.toNat, bv := b, cv := th.src w.c, ev := th.readN w.a.num, fmt := w.a.fmt,
                                 len := 8, tgt := targetFe s cx.c b }
      .wait (((s.atomFence cx.ag q).modThread cx.ag fun th => { th with waitOn := some q }).dispatch q)

def execAtomAdd (w : Fields) (s : State) : Out := issue (.atomAdd w) (atomBody 0) s
def execAtomMin (w : Fields) (s : State) : Out := issue (.atomMin w) (atomBody 1) s
def execAtomMax (w : Fields) (s : State) : Out := issue (.atomMax w) (atomBody 2) s
def execAtomAnd (w : Fields) (s : State) : Out := issue (.atomAnd w) (atomBody 3) s
def execAtomOr (w : Fields) (s : State) : Out := issue (.atomOr w) (atomBody 4) s
def execAtomXor (w : Fields) (s : State) : Out := issue (.atomXor w) (atomBody 5) s
def execAtomSwap (w : Fields) (s : State) : Out := issue (.atomSwap w) (atomBody 6) s
def execAtomCas (w : Fields) (s : State) : Out := issue (.atomCas w) (atomBody 7) s

/-! FENCE (R103 to R105). -/

/-- Personality operations of a thread that have not been performed: its requests, and the rows that a VHISTO of it has not read; what other
agents ask of the core's banks is no concern of its (R91, R92). -/
def Core.opsLeft (k : Core) (t : Nat) : Bool :=
  (k.reqs.any fun x => x.2.thr == t && x.2.remote.isNone && !x.2.performed) ||
    k.vecs.any fun x => x.2.code == .vhisto && x.2.thr == t && decide (x.2.step < x.2.ns)

/-- The conditions of R92: every earlier local write of the thread has been committed, every earlier personality operation performed. -/
def coreFenceMet (s : State) (cx : Cx) : Bool := !writesLeft s cx.c cx.t && !(s.coreAt cx.c).opsLeft cx.t

/-- FENCE: an untimed one holds its thread until R92 is met; the NI orders the thread's remote accesses (R105). With a release of package or system
scope its die sends a clock notice at once (R113). -/
def execFence (w : Fields) (s : State) : Out :=
  issue (.fence w) (fun cx w s =>
    let scope := w.a.immInt.toNat
    let order := w.m.toNat
    let s :=
      if cx.again then s
      else
        let (q, s) := s.take
        let s := s.addFence cx.ag { seq := q, scope := scope, order := order, before := openOps s cx.ag }
        if 3 ≤ scope ∧ order ≠ 0 then s.sendNotice (feStack cx.c) else s
    if cx.timed || coreFenceMet s cx then .done s else .wait s) s

end Sys2Proof.Machine
end

