-- ==== Sys2Proof/Machine/Queues.lean ====
section
/-! DEFINITION. The hub's queues: the acceptance of launch records (R276, R310, R312, R338), and the dependence map of each context (R274, R342). -/

namespace Sys2Proof.Machine

/-! A launch record (R276). -/

/-- Bits of a word of a record. -/
def recordBits (r : List Word) (w lo n : Nat) : Nat := (r.getD w 0).toNat / 2 ^ lo % 2 ^ n

def Group.recBits (g : Group) (w lo n : Nat) : Nat := recordBits g.record w lo n
def Group.kimg (g : Group) : Nat := g.recBits 0 0 56
def Group.prio (g : Group) : Nat := g.recBits 1 53 3
/-- Gang width 1, 2 or 4. -/
def Group.width (g : Group) : Nat := 2 ^ g.recBits 1 51 2
def Group.cpc (g : Group) : Nat := g.recBits 1 46 5 + 1
def Group.cls (g : Group) : Nat := g.recBits 1 40 6 + 1
def Group.size (g : Group) : Nat := g.recBits 1 0 32
def Group.wcnt (g : Group) : Nat := g.recBits 2 32 16
def Group.wkey (g : Group) : Nat := g.recBits 2 0 32
def Group.dkey (g : Group) : Nat := g.recBits 3 0 32
def Group.argVa (g : Group) : Nat := g.recBits 4 0 56

/-- Logical clusters in a stack (R312). -/
def clustersPerStack (width : Nat) : Nat := if width = 4 then 8 else 16

/-- A record that is invalid in itself (R276, R312). -/
def recordBad (r : List Word) : Bool :=
  let f := recordBits r
  let g : Group := { record := r }
  f 0 56 8 != 0 || f 1 57 7 != 0 || f 1 32 8 != 0 || f 2 48 16 != 0 || f 3 32 32 != 0 || f 4 56 8 != 0 ||
    (r.drop 5).any (· != 0) || f 1 51 2 == 3 || (g.wcnt != 0 && g.wkey == 0) ||
    decide (4 * clustersPerStack g.width < g.cls) || decide ((if g.width = 1 then 16 else 8) < g.cpc)

/-- The group has ended (R310). -/
def GState.ended : GState → Bool
  | .retired | .killed | .rejected => true
  | _ => false

/-- A group number is free: no group holds it, and its block has been released from the group table (R310, R355). -/
def numberFree (s : State) (x n : Nat) : Bool :=
  match SMap.find s.groups (groupKey x n) with
  | none => true
  | some g => g.st.ended && get64 s.phys ((s.contextAt x).area + 0x800 + 8 * n) == 0

/-- The first free number after the one assigned last, in cyclic order (R310). -/
def nextNumber (s : State) (x : Nat) : Option Nat :=
  let l := (s.contextAt x).lastGrp
  ((List.range 256).map fun i => (l + 1 + i) % 256).find? (numberFree s x)

def Context.queue (c : Context) (q : Nat) : LQueue := SMap.get {} c.queues q
def State.setQueue (s : State) (x q : Nat) (v : LQueue) : State :=
  s.modContext x fun c => { c with queues := SMap.put c.queues q v }

/-- The sequencer looks at its queues, unless it is about to (R339). -/
def State.wakeSequencer (s : State) : State := if s.pending .launchDecision then s else s.later 1 .launchDecision

/-! The dependence map of a context (R274, R342). -/

/-- The one launch waiting on the key is Queued from now on (R297, R339). -/
def State.releaseKey (s : State) (x key : Nat) : State :=
  match (s.groupsOf x).find? fun g => (s.groupAt g).waiting && (s.groupAt g).wkey == key && (s.groupAt g).st == .pending with
  | some g => (s.modGroup g fun gr => { gr with waiting := false, queuedAt := s.now }).wakeSequencer
  | none => s

/-- A signal or a publication at the hub map: its status (R274, R342). A removed key lets the held DKEY signals be retried. -/
def State.hubPost (s : State) (x key : Nat) (delta : Int) : Nat × State :=
  let m := (s.contextAt x).hubMap
  let old := SMap.find m key
  let v := BitVec.ofInt 32 ((old.getD 0).toInt + delta)
  if v = 0 then
    let s := s.modContext x fun c => { c with hubMap := SMap.erase m key }
    let s := if (s.contextAt x).dkeys.isEmpty || old.isNone then s else s.at s.now prioNet (.dkeyRetry x)
    (7, s.releaseKey x key)
  else if old.isNone && decide (512 ≤ m.length) then (1, s)
  else (if old.isNone then 3 else 0, s.modContext x fun c => { c with hubMap := SMap.put m key v })

/-- The place in the order of R338 of what reaches the hub in an event: the port of a host's, after both ports the core of a device's. -/
def hubRank (s : State) : Instr → Option Nat
  | .hostLaunchDmwr p _ _ => some (min p 1)
  | .hubMapSignal w _ => some (min (w / 256) 1)
  | .amsgArrival o =>
    match SMap.find s.ops o with
    | some e => if e.toHub && e.st == .running && !e.performed then some (2 + (s.coreAt e.core).coords) else none
    | none => none
  | _ => none

/-- Something of a lower place reaches the hub on this cycle too: it goes first (R338, R342). -/
def hubFirst (s : State) (n : Nat) : Bool := s.agenda.any fun x => decide (x.due ≤ s.now) && (hubRank s x.ev).any fun m => decide (m < n)

/-! Acceptance. -/

/-- A launch record reaches a launch queue: status 0 accepted, 1 full or 8 invalid, and on acceptance the handle (R276, R310, R338). -/
def State.postRecord (s : State) (x q : Nat) (r : List Word) : Nat × Nat × State :=
  let c := s.contextAt x
  let g : Group := { ctx := x, record := r, queue := q, queuedAt := s.now }
  let key := g.wkey
  let taken := (s.groupsOf x).any fun i => (s.groupAt i).st == .pending && (s.groupAt i).waiting && (s.groupAt i).wkey == key
  if c.st = 0 || c.st = 5 || decide (8 ≤ q) || recordBad r || (key != 0 && taken) then (8, 0, s)
  else if 32 ≤ (c.queue q).recs.length || (key != 0 && g.wcnt != 0 && (SMap.find c.hubMap key).isNone && decide (512 ≤ c.hubMap.length)) then (1, 0, s)
  else
    match nextNumber s x with
    | none => (1, 0, s)
    | some n =>
      let h := groupKey x n
      let v := c.queue q
      let (i, s) := s.take
      let s := s.setGroup h { g with num := n, waiting := key != 0, order := i }
      let s := s.setQueue x q { v with recs := v.recs ++ [h], acc := (v.acc + 1) % 65536, handle := h }
      let s := s.modContext x fun c => { c with lastGrp := n }
      let s := if key = 0 then s.wakeSequencer else (s.hubPost x key g.wcnt).2
      (0, h, s)

end Sys2Proof.Machine
end

