-- ==== Sys2Proof/Machine/Reliability.lean ====
section
/-! DEFINITION. Containment of an error to one superstep of one group, die resets, and the reports of armed detectors on reads and flits
(R398 to R402). -/

namespace Sys2Proof.Machine

/-- A group is killed, and a notice carries the cause (R361). -/
def State.killWith (s : State) (g code detail : Nat) : State := (s.killGroup g).post code (g / 256) (g % 256) detail

/-- A stop cycle lies at least 128 cycles after its request reaches the sequencer (R282). -/
def stopDelay : Nat := 128

/-- A rollback is on its way: every member stops as for PREEMPT, and then restores its image (R331). -/
def State.callRollback (s : State) (g : Nat) : State :=
  if s.pending (.rollback g) then s else s.later stopDelay (.rollback g)

/-! Die resets (R401). -/

/-- The die at which an operation is homed. -/
def State.homeDie (s : State) (e : EngOp) : Nat := if e.logical then feStack e.tgt else dieOf (homeTarget s e.ctx e.partVa)

/-- The request has its home on the die and has not been performed: one that has been taken there, or waits at the die's memory cores. -/
def State.homedOn (s : State) (d : Nat) (e : EngOp) : Bool :=
  e.st == .running && (e.begun || !e.logical) && !e.performed && e.cause.isNone && e.kind.accesses && s.homeDie e == d

/-- A request ends with error status 0x284; one that a program serves ends so whatever the program says (R401). -/
def State.resetOp (s : State) (o : Nat) : State :=
  let e := s.opAt o
  match e.thread with
  | none => s.failOp o 0x284 e.partVa e.access
  | some id =>
    let ops := (s.reqAt id).thread.allOps
    let s := { s with ops := s.ops.filter fun x => !ops.contains x.1, reqThreads := SMap.erase s.reqThreads id }
    (s.modOp o fun e => { e with thread := none }).failOp o 0x284 e.vaddr e.access

/-- Die `d` is reset: its groups are killed, the requests homed on it fail, and its clock comes back from the other dies; its own entry has changed,
which a clock notice tells the others (R113, R401). -/
def State.resetDie (s : State) (d : Nat) (mark : Nat := 0) : State :=
  let gs := (s.groups.filter fun g => g.2.st.holds && g.2.members.any fun c => feStack c == d).map (·.1)
  let s := gs.foldl (fun s g => s.killGroup g) s
  let ops := (s.ops.filter fun x => s.homedOn d x.2).map (·.1)
  let s := ops.foldl (fun (s : State) o => if (SMap.find s.ops o).isSome then s.resetOp o else s) s
  let held := (List.range 5).foldl (fun v k => vecMax v (s.dieAt k).vc) (s.dieAt d).vc
  let s := (s.setDie d { s.dieAt d with vc := held.set d (held.getD d 0 + 1) }).noticeClock d
  s.post 0x2C3 0 0 (d + mark)

/-! Armed detectors (R402). -/

/-- A flit of the core passes its network interface: each failed check is a retry, and after 8 failed retries the die is reset (R398,
R401). -/
def State.flitCheck (s : State) (c : Nat) : State :=
  let n := SMap.get 0 (s.coreAt c).inj 11
  if n = 0 then s
  else
    let s := s.modCore c fun k => { k with inj := SMap.set 0 k.inj 11 (n - 9) }
    if n < 9 then s else s.resetDie (feStack c) injMark

end Sys2Proof.Machine
end

