-- ==== Sys2Proof/Machine/Exchange.lean ====
section
/-! DEFINITION. Sends, messages and deposits (R84 to R86, R107, R108, R110, R264 to R268), barrier domains, counted exchange and the
taking of a proof (R109, R269 to R271, R321 to R330). -/

namespace Sys2Proof.Machine

/-! Timed sends. -/

/-- The latency of a send, by its logical distance (R107). -/
def sendLatency (a b : Core) : Nat := if a.stk != b.stk then 64 else if a.clus != b.clus then 28 else 16

/-- The target address that a form of SEND admits (R264). -/
def sendAddrOk (form a : Nat) : Bool := if form = 0 then a % 256 == 0 else if form = 1 then a % 8 == 0 else decide (a < 8)

/-- The row that SEND .row reads, and the checks on it: on its read cycle it is a row access of its thread (R71, R174, R265). -/
def sendSource (s : State) (cx : Cx) (a : Nat) : Option TrapInfo :=
  afterTag s cx a <| firstTrap
    [guardTrap s cx a 256 true false,
     causeIf (a % 256 != 0) 0x0D2,
     causeIf ((s.coreAt cx.c).personality a 256) 0x0D0]

/-- The row of a send is read on cycle `cyc`, in the first group of R88: a use of a shared bank among those of R110. What a conflict or an armed
tag may take back is kept (R265). -/
def State.noteSend (s : State) (cx : Cx) (a cyc key : Nat) : State :=
  let p := placeOf cx.c a
  let armed := isLocal a && (s.coreAt cx.c).armed.any fun e => e.1 == a / 256
  s.setAcc p (s.accOf p ++ [{ bank := bankIn a, arrive := cyc, who := requester cx.t, core := cx.c, first := true, addr := a, key := key,
                              undo := if armed || isShared a then some (s.undoOf cx) else none }])

/-- SEND (R264). -/
def execSend (w : Fields) (s : State) : Out :=
  issue (.send w) (fun cx w s =>
    let th := s.self cx
    let r := th.src w.a
    let form := w.m.toNat
    match (if r.getLsbD 63 || !sendAddrOk form (r.toNat % 2 ^ 24) then none else logicalTarget s cx.c r) with
    | none => .cause 0x182
    | some t =>
      let lands := s.now + sendLatency (s.coreAt cx.c) (s.coreAt t.fe)
      let e : Send := { src := cx.c, dst := t.fe, addr := t.addr, form := form, tag := w.c.immInt.toNat, lands := lands,
                        grp := s.groupOfCore cx.c }
      let go (e : Send) (s : State) : State :=
        let (q, s) := s.take
        let s := ({ s with sends := SMap.put s.sends q e }).at lands prioSend (.sendLanding q)
        if form = 0 then s.noteSend cx e.readRow e.readC q else s
      if form = 0 then
        let a := th.base w.b false
        checked (sendSource s cx a)
          (.done ((go { e with readC := s.now + 1, readRow := a } s).advanceNow cx w.b))
      else .done (go { e with data := leBytes 8 (th.src w.b).toNat } s)) s

/-- The cycle from which a deposit that reaches the NI now is applied: one a cycle, in order of arrival (R84, R85). -/
def depositCycle (s : State) (c : Nat) : Nat :=
  s.agenda.foldl (fun t e => match e.ev with | .depositArrival d _ _ => if d = c then max t (e.due + 1) else t | _ => t) (s.now + 1)

/-- A deposit reaches its core: it is applied at the end of this cycle (R85). -/
def State.deposit (s : State) (c j : Nat) (v : Word) : State := s.at (depositCycle s c) prioDeposit (.depositArrival c j v)

/-- The mask of enabled deposit registers on a cycle (R86, R268). -/
def Core.enAt (k : Core) (t : Nat) : BitVec 8 := k.enNext.foldl (fun m e => if e.1 ≤ t then e.2 else m) k.en

/-- The row or word of a send is written at the end of this cycle and read from the next one (R107); a row of local memory takes its tag
(R265). -/
def State.landSend (s : State) (e : Send) : State :=
  let s := (s.write e.dst 12 e.addr e.data s.now (s.now + 1)).2
  let s := if isLocal e.addr then s.modCore e.dst fun k => k.setTag (e.addr / 256) e.tag s.now else s
  s.serve (placeOf e.dst e.addr) (bankIn e.addr)

/-- A send whose flits have passed their checks is at its target; one that a conflict has delayed comes again (R107, R110, R264). -/
def sendArrives (q : Nat) (s : State) : Out :=
  match SMap.find s.sends q with
  | none => .next s
  | some e =>
    if e.lands != s.now || (e.form != 2 && !(s.groupAt e.grp).st.meets) then .next s
    else
      let gone : State := { s with sends := SMap.erase s.sends q }
      if e.form = 2 then
        .next (if ((s.coreAt e.dst).enAt s.now).getLsbD e.addr then gone.deposit e.dst e.addr (BitVec.ofNat 64 (leNat e.data))
               else gone.owe e.dst { cyc := s.now, cause := 0x184 })
      else if reservedRange e.addr e.data.length || (s.coreAt e.dst).personality e.addr e.data.length then .next (gone.owe e.dst { cyc := s.now, cause := 0x183 })
      else .next (gone.landSend e)

/-- SEND_LANDING. -/
def execSendLanding (q : Nat) (s : State) : Out :=
  match SMap.find s.sends q with
  | none => .next s
  | some e => sendArrives q (if e.lands = s.now then s.flitCheck e.src else s)

/-- DEPOSIT_ARRIVAL: the deposit is applied at the end of the cycle before this one (R84 to R86). The deposit of a core that is saved or
stopped is held at the NI (R85). -/
def execDepositArrival (c j : Nat) (v : Word) (s : State) : Out :=
  let st := (s.groupAt (s.groupOfCore c)).st
  if st == .saved || st == .stopped || (s.coreAt c).grp.isNone then
    .next (s.modCluster (clusterOf c) fun k => { k with heldDeps := k.heldDeps ++ [(c, j, v)] })
  else
    let k := s.coreAt c
    let r := 24 + j
    let old := (k.thread 0).readN r
    let hit := match SMap.find k.depLand r with | some x => if x.1 + 1 = s.now then some x.2 else none | none => none
    let s := s.modCore c fun k =>
      { k.modThread 0 (fun th => th.writeN r v) with arv := k.arv ||| ((1 : BitVec 8) <<< j), dcol := k.dcol || hit.isSome }
    match hit with
    | some word => .next (if k.wchk then s.owe c { cyc := s.now, cause := 0x042, record := [BitVec.ofNat 64 r, BitVec.ofNat 64 word, old, v] } else s)
    | none => .next s

/-- DEPCFG: in force from the end of issue + 1 (R268). -/
def execDepcfg (w : Fields) (s : State) : Out :=
  issue (.depcfg w) (fun cx w s =>
    .done (s.modCore cx.c fun k =>
      { k with en := k.enAt s.now, enNext := (k.enNext.filter fun e => s.now < e.1) ++ [(s.now + 2, BitVec.ofInt 8 w.a.immInt)] })) s

/-- STAG (R265): a row at a reserved address is reported as a read of the row that fails at its first byte (DESIGN CHOICE, log entry 59). -/
def execStag (w : Fields) (s : State) : Out :=
  issue (.stag w) (fun cx w s =>
    let th := s.self cx
    let k := s.coreAt cx.c
    let a := th.base w.a false
    let row := a / 256
    let tag := (th.src w.b).toNat % 65536
    checked
      (firstTrap
        [causeIf (isShared a) 0x0D6,
         if isLocal a then none else some { cause := 0x0D4, record := guardRecord a true false 256 },
         causeIf (a % 256 != 0) 0x0D2,
         causeIf (decide (32 ≤ k.armed.length) && !k.armed.any fun e => e.1 == row) 0x082])
      (.done ((s.modCore cx.c fun k => { k with armed := (k.armed.filter fun e => e.1 != row) ++ [(row, tag)] }).advanceNow cx w.a))) s

/-! Messages (R266, R267). -/

/-- The oldest held message is sent again, to the core that its register names now; with none held, an operation completes at once with status 2 (R267). -/
def retryMessage (cx : Cx) (s : State) : Verdict :=
  match (s.self cx).msgs with
  | [] =>
    if opsFull (s.self cx) then .full cx 0x049
    else
      let (q, s) := s.newOp cx { kind := .amsg, stat := 2, performed := true }
      .done ((s.modThread cx.ag fun th => { th with unsealed := th.unsealed ++ [q] }).at s.now prioNet (.engineOperationComplete q))
  | o :: rest =>
    let e := s.opAt o
    let s' := (s.modThread cx.ag fun th => { th with msgs := rest })
    let fe := match logicalTarget s cx.c e.av with | some t => t.fe | none => e.tgt
    startOp cx { e with st := .running, stat := 0, performed := false, begun := false, atNi := false, part := {}, tgt := fe } (fun q => .amsgArrival q)
      { s' with ops := SMap.erase s'.ops o }

/-- AMSG (R266): a datum in a register is taken at issue, and a message in memory is read once the thread's earlier local writes have
been committed (R123). -/
def execAmsg (w : Fields) (s : State) : Out :=
  issue (.amsg w) (fun cx w s =>
    let th := s.self cx
    if w.a.kind == .imm then retryMessage cx s
    else if cx.timed && (opsFull th || decide (4 ≤ th.msgs.length)) then .cause 0x049
    else
      let r := th.src w.a
      match (if r.getLsbD 63 then none else logicalTarget s cx.c r) with
      | none => .cause 0x182
      | some t =>
        let n := if w.c.zero then 8 else (th.src w.c).toNat
        let e : EngOp := { kind := .amsg, m := w.m.toNat, av := r, len := n, tgt := t.fe }
        let go (e : EngOp) (s : State) : Verdict :=
          if 4 ≤ th.msgs.length then .full cx 0x049 else startOp cx e (fun q => .amsgArrival q) s
        if w.b.kind == .nreg || w.b.kind == .qage then go { e with words := [th.src w.b] } s
        else
          let (la, _) := copyLocal cx th w.b
          let k := min n 2048
          checked (rangeTrap s cx la k true false)
            (if rangeHeld s cx la k false then .hold else go { e with la := la } (s.advanceNow cx w.b))) s

/-- The words of a message, as its source holds them now. -/
def messageWords (s : State) (e : EngOp) : List Word :=
  if !e.words.isEmpty then e.words
  else
    let bs := match e.agent with
      | .req id => if 2 ^ 24 ≤ e.la then memRead (s.reqAt id).scratch (e.la - 2 ^ 24) e.len else s.committed e.core e.la e.len
      | _ => s.committed e.core e.la e.len
    (List.range (e.len / 8)).map fun i => BitVec.ofNat 64 (leNat ((bs.drop (8 * i)).take 8))

/-- A request at the target's bank, as requester 12 (R87, R266). -/
def State.remoteRequest (s : State) (c o bank : Nat) (op : BankOp) : State :=
  let (q, s) := s.take
  let r : BankReq := { bank := bank, who := 12, op := op, remote := some o, issued := s.now }
  (s.modCore c fun k => k.setReq q r).at s.now (prioBank + 12) (.personalityOperation c q)

/-- The message writes a datum into shared memory (R266). -/
def EngOp.sharedWord (e : EngOp) : Bool :=
  let a := e.av.toNat % 2 ^ 24
  e.kind == .amsg && isShared a && e.m == 0 && e.len == 8 && !reservedRange a 8

/-- A message or a dependence-map update at its target (R266, R274). -/
def receiveMessage (o : Nat) (e : EngOp) (s : State) : State :=
  let a := e.av.toNat % 2 ^ 24
  let fail (n : Nat) : State := s.replyOp o 0 (some n)
  if e.kind == .tkpost then
    if isShared a then fail 0x185
    else if !isLocal a then fail 0x183
    else s.remoteRequest e.tgt o (bankOf a) (.tkpost e.bv (if e.m = 1 then (e.cv.toNat : Int) else -1))
  else
    let ws := messageWords s e
    let sized := e.len % 8 == 0 && e.len != 0 && decide (e.len ≤ 2048) && ws.length * 8 == e.len
    if e.m = 1 then
      if 8 ≤ a || e.len != 8 then fail 0x185
      else if !((s.coreAt e.tgt).enAt s.now).getLsbD a then fail 0x184
      else (s.deposit e.tgt a (ws.getD 0 0)).replyOp o 0 none
    else if reservedRange a (if isLocal a && (s.coreAt e.tgt).persAt a != 0 then 1 else 8) then fail 0x183
    else if !sized then fail 0x185
    else if isShared a then
      if e.sharedWord then (s.write e.tgt 12 a (leBytes 8 (ws.getD 0 0).toNat) s.now (s.now + 1)).2.replyOp o 0 none
      else fail 0x185
    else s.remoteRequest e.tgt o (bankOf a) (.amsg o e.m ws)

/-- A message is taken from its source as it leaves: bytes in local memory are read, a damaged word with them (R123, R400). -/
def State.takeMessage (s : State) (o : Nat) (e : EngOp) : State :=
  let s := if e.kind == .amsg && e.words.isEmpty && e.la < 2 ^ 24 then s.useBytes e.core e.la e.len else s
  s.sendLogical o { e with words := if e.kind == .amsg then messageWords s e else e.words } (.amsgArrival o)

/-- A message whose flits have passed their checks: the sending NI lets it go once its order allows; the receiving NI checks its map and its stamp,
and hands it to the bank, where a datum for shared memory waits as any access does (R98, R111, R266, R317). -/
def messageArrives (o : Nat) (s : State) : Out :=
  match SMap.find s.ops o with
  | none => .next s
  | some e =>
    let s := if e.part.st == .sent then s.arrive e else s
    let again (s : State) : Out := .next (s.at (s.now + 1) (prioBank + 12) (.amsgArrival o))
    if e.st != .running || e.performed || e.begun then .next s
    else if s.opRests e then .next ((s.leaveBanks e.tgt o).suspend o)
    else if e.toHub then
      if hubFirst s (2 + (s.coreAt e.core).coords) then .next (s.at s.now prioNet (.amsgArrival o))
      else
        let (n, s) := s.hubPost e.ctx (e.bv.toNat % 2 ^ 32) (-1)
        .next (s.replyOp o n none)
    else if e.mapv != (s.groupAt e.grp).mapv then .next (s.refuseStale o)
    else if e.part.st != .sent then
      if !localReady s o e || orderHolds s o e then .next (s.retry (.amsgArrival o))
      else .next (s.takeMessage o e)
    else if !clocksAllow s o e then again s
    else
      let take (s : State) : Out := .next (receiveMessage o e ((s.modOp o fun e => { e with begun := true }).mergeClocks o))
      if !e.sharedWord then take s
      else
        match s.askBank e.tgt (e.av.toNat % 2 ^ 24) 12 o with
        | .inr s => again s
        | .inl s => take s

/-- AMSG_ARRIVAL. -/
def execAmsgArrival (o : Nat) (s : State) : Out :=
  match SMap.find s.ops o with
  | none => .next s
  | some e =>
    messageArrives o (if e.begun || e.atNi || e.kind == .tkpost || e.part.st != .sent then s
                      else (s.modOp o fun e => { e with atNi := true }).flitCheck e.core)

/-! Barrier domains. -/

/-- The launch record asked for rollback protection (R276). -/
def Group.prot (g : Group) : Bool := g.recBits 1 56 1 == 1

def Group.domain (g : Group) (j : Nat) : Domain := SMap.get {} g.domains j
def State.setDomain (s : State) (g j : Nat) (d : Domain) : State :=
  s.modGroup g fun gr => { gr with domains := SMap.put gr.domains j d }

/-- Nothing is gathered, summed, delivered or held. -/
def Domain.idle (d : Domain) : Domain := { d with arrivals := [], phase := 0, deliveries := [], fail := none, record := [] }

/-- The domain holds a core (R269). -/
def Domain.has (d : Domain) (k : Core) : Bool :=
  d.configured && d.clusters.getLsbD (16 * k.stk + k.clus) && d.cores.getLsbD k.core

/-- The members of a domain, by rank. -/
def State.domainMembers (s : State) (g : Nat) (d : Domain) : List Nat := (s.groupAt g).members.filter fun c => d.has (s.coreAt c)

/-- The domain holds every member of the group (R327). -/
def State.wholeGroup (s : State) (g : Nat) (d : Domain) : Bool := (s.groupAt g).members.all fun c => d.has (s.coreAt c)

/-- BARCFG is refused (R269). -/
def barcfgBad (s : State) (g j : Nat) (clusters : Word) (cores : BitVec 16) : Bool :=
  let gr := s.groupAt g
  let at_ (c : Nat) : Nat := 16 * (s.coreAt c).stk + (s.coreAt c).clus
  cores == 0 || !(gr.members.any fun c => clusters.getLsbD (at_ c)) || !(gr.members.any fun c => cores.getLsbD (s.coreAt c).core) ||
    (List.range 64).any (fun i => clusters.getLsbD i && !gr.members.any fun c => at_ c == i) || !(gr.domain j).arrivals.isEmpty

/-- BARCFG (R269). -/
def execBarcfg (w : Fields) (s : State) : Out :=
  issue (.barcfg w) (fun cx w s =>
    let th := s.self cx
    let g := s.groupOfCore cx.c
    let j := w.a.immInt.toNat
    let b := th.src w.b
    let c := th.src w.c
    if c.toNat / 65536 != 0 || barcfgBad s g j b (c.setWidth 16) then .cause 0x1C4
    else .done (s.setDomain g j { ((s.groupAt g).domain j) with configured := true, clusters := b, cores := c.setWidth 16 })) s

/-- The release of a domain falls due on cycle `t`, and on no other. -/
def State.releaseAt (s : State) (g j t : Nat) : State :=
  ((s.setDomain g j { (s.groupAt g).domain j with due := t }).cancel fun e => e == .barrierRelease g j).at t prioRelease (.barrierRelease g j)

/-- An arrival on a domain (R270, R271, R322, R323, R327): cause 0x1C5 outside the domain, `twice` where the core has arrived in this
phase, 0x1C7 for a proof that no group of this kind takes. -/
def arriveAt (cx : Cx) (j : Nat) (a : Arrival) (twice : Nat) (s : State) : Except Nat State :=
  let g := s.groupOfCore cx.c
  let gr := s.groupAt g
  let d := gr.domain j
  if !d.has (s.coreAt cx.c) then .error 0x1C5
  else if d.arrivals.any fun x => x.core == cx.c then .error twice
  else if a.proof && (!gr.prot || !s.wholeGroup g d) then .error 0x1C7
  else
    let s := s.modCore cx.c fun k => { k with rels := SMap.erase k.rels j }
    let l := d.arrivals ++ [a]
    if (s.domainMembers g d).all fun c => l.any fun x => x.core == c then
      let s := (s.setDomain g j { d with arrivals := l, phase := 1 }).releaseAt g j (s.now + 40)
      .ok (if j = 0 && !gr.moves.isEmpty then s.at s.now prioRelease (.mapChangeBegin g) else s)
    else .ok (s.setDomain g j { d with arrivals := l })

/-- A release that has failed is consumed by the wait that reports it: executed again, the wait raises 0x1C5 (R325). -/
def failedWait : Release := { fail := some 0x1C5 }

/-- The wait for the release of the domain's current phase (R270, R322, R323). `total`: the word lands the counted-exchange total. A word
that has waited ends on the release cycle, and the next word may issue on that cycle, which is cycle 0. -/
def awaitRelease (cx : Cx) (j : Nat) (total : Bool) (s : State) : Verdict :=
  let g := s.groupOfCore cx.c
  let d := (s.groupAt g).domain j
  match SMap.find (s.coreAt cx.c).rels j with
  | some r =>
    (match r.fail with
     | some n => .report n r.record
     | none =>
       let s := s.modCore cx.c fun k => { k with rels := SMap.erase k.rels j }
       let s := if total then s.land cx.ag cx.pc .none (BitVec.ofNat 64 r.total) true (if cx.again then 0 else 1) else s
       match anchorAt cx (if cx.again then s.now else s.now + 1) j (some (r.maxSz, r.maxTotal)) s with
       | .done s => .done (if cx.again then { s with todo := .thr cx.c cx.t :: s.todo } else s)
       | v => v)
  | none => if d.has (s.coreAt cx.c) && d.arrivals.any (fun x => x.core == cx.c) then .wait s else .cause 0x1C5

/-- What a wait leaves of its failed release, once it has trapped with its cause. -/
def afterWait (cx : Cx) (j : Nat) : Out → Out
  | .next t =>
    let took : Option Nat :=
      match (t.self cx).trap with
      | some r => if (t.self cx).stat == .trapped && r.cyc == t.now && decide (0x1C0 ≤ r.cause) then some r.cause else none
      | none => none
    .next (if took.isNone then t else t.modCore cx.c fun k =>
      match SMap.find k.rels j with
      | some r => if r.fail != took then k
                  else if r.fail == some 0x1C5 then { k with rels := SMap.erase k.rels j }
                  else { k with rels := SMap.put k.rels j failedWait }
      | none => k)
  | r => r

/-- BARA (R270). -/
def execBara (w : Fields) (s : State) : Out :=
  issue (.bara w) (fun cx w s =>
    match arriveAt cx w.a.immInt.toNat { core := cx.c, proof := w.m.getLsbD 0, cyc := s.now } 0x1C5 s with
    | .ok s => .done s
    | .error n => .cause n) s

/-- BARW (R270). -/
def execBarw (w : Fields) (s : State) : Out :=
  let cx := s.cx
  afterWait cx w.a.immInt.toNat (issue (.barw w) (fun cx w s => awaitRelease cx w.a.immInt.toNat true s) s)

/-- BAR arrives and waits, and pushes nothing (R270). -/
def execBar (w : Fields) (s : State) : Out :=
  let cx := s.cx
  afterWait cx w.a.immInt.toNat (issue (.bar w) (fun cx w s =>
    let j := w.a.immInt.toNat
    if cx.again then awaitRelease cx j false s
    else if (SMap.find (s.coreAt cx.c).rels j).any fun r => r.fail == some 0x1C5 then .cause 0x1C5
    else
      match arriveAt cx j { core := cx.c, proof := w.m.getLsbD 0, cyc := s.now } 0x1C5 s with
      | .ok s => .wait s
      | .error n => .cause n) s)

/-! Counted exchange (R109, R271, R325). -/

/-- XPUT (R271). -/
def execXput (w : Fields) (s : State) : Out :=
  issue (.xput w) (fun cx w s =>
    let th := s.self cx
    let r := th.src w.a
    match (if r.getLsbD 63 || r.toNat % 2 ^ 24 != 0 then none else logicalTarget s cx.c r) with
    | none => .cause 0x182
    | some t =>
      let a := th.base w.b false
      let n := (th.src w.c).toNat
      checked
        (firstTrap
          [guardTrap s cx a n true false,
           causeIf ((s.coreAt cx.c).personality a n) 0x0D0,
           causeIf (decide (256 ≤ (s.coreAt cx.c).xputs.length)) 0x1C2])
        (.done ((s.modCore cx.c fun k => { k with xputs := k.xputs ++ [{ target := t.fe, src := a, len := n, mark := s.fresh, issued := s.now }] }).advanceNow cx w.b))) s

/-- XEND (R271). -/
def execXend (w : Fields) (s : State) : Out :=
  issue (.xend w) (fun cx w s =>
    let th := s.self cx
    let a := th.base w.a false
    let n := (th.src w.b).toNat
    let j := w.c.immInt.toNat
    checked
      (firstTrap
        [causeIf (a % 256 != 0) 0x0D2,
         causeIf (decide (4194304 < n)) 0x1C2,
         guardTrap s cx a n false true,
         causeIf ((s.coreAt cx.c).personality a n) 0x0D0])
      (match arriveAt cx j { core := cx.c, xend := true, cap := n, area := a, packets := (s.coreAt cx.c).xputs, cyc := s.now } 0x1C2 s with
       | .ok s => .done ((s.modCore cx.c fun k => { k with xputs := [] }).advanceNow cx w.a)
       | .error e => .cause e)) s

/-- Bytes that a phase brings to a core. -/
def Domain.totalOf (d : Domain) (c : Nat) : Nat :=
  d.arrivals.foldl (fun t a => a.packets.foldl (fun t p => if p.target = c then t + p.len else t) t) 0

def Domain.capOf (d : Domain) (c : Nat) : Nat :=
  match d.arrivals.find? fun a => a.core == c with | some a => a.cap | none => 0

/-- The first receiver, in ascending coordinates, whose total exceeds its capacity (R109, R325). -/
def State.failingReceiver (s : State) (g : Nat) (d : Domain) : Option Nat :=
  (s.byCoords (s.groupAt g).members).find? fun c => d.capOf c < d.totalOf c

/-- Place the packets: each receiver's area in ascending order of the senders, and in the order of their XPUTs (R109). -/
def Domain.place (d : Domain) (senders : List Nat) : List Delivery :=
  let all := senders.flatMap fun c =>
    match d.arrivals.find? fun a => a.core == c with | some a => a.packets.map fun p => (c, p) | none => []
  (all.foldl (fun (acc : List Delivery × SMap Nat) x =>
    let at_ := SMap.get 0 acc.2 x.2.target
    let base := match d.arrivals.find? fun a => a.core == x.2.target with | some a => a.area | none => 0
    (acc.1 ++ [{ src := x.1, saddr := x.2.src, dst := x.2.target, daddr := base + at_, len := x.2.len, mark := x.2.mark, issued := x.2.issued }],
      SMap.put acc.2 x.2.target (at_ + x.2.len))) ([], [])).1

/-- A phase in which a member arrived by XEND (R321). -/
def Domain.transfer (d : Domain) : Bool := d.arrivals.any (·.xend)

/-- What the pass gives each member (R305, R322). -/
def State.releaseFor (s : State) (g : Nat) (d : Domain) (fail : Option Nat) (record : List Word) (c : Nat) : Release :=
  let ms := s.domainMembers g d
  { cyc := s.now, total := if d.transfer then d.totalOf c else 0, fail := fail, record := record,
    maxSz := ms.foldl (fun m x => max m (s.coreAt x).sz.toNat) 0, maxTotal := ms.foldl (fun m x => max m (d.totalOf x)) 0 }

/-- The domain is idle again, and each member's release is pending (R321, R323). -/
def State.deliverRelease (s : State) (g j : Nat) (d : Domain) (fail : Option Nat) (record : List Word) : State :=
  let rel := (s.domainMembers g d).map fun c => (c, s.releaseFor g d fail record c)
  let s := rel.foldl (fun s x => s.modCore x.1 fun k =>
    { k with rels := SMap.put k.rels j x.2, xtotal := if d.transfer && fail.isNone then x.2.total else k.xtotal }) s
  let s := if j == (s.groupAt g).copyDom && (s.groupAt g).st == .changingMap then s.modGroup g fun gr => { gr with st := .running } else s
  s.setDomain g j d.idle

/-- The phase takes a proof (R327). -/
def proofDue (s : State) (g j : Nat) (d : Domain) : Bool :=
  let gr := s.groupAt g
  gr.prot && s.wholeGroup g d && (d.arrivals.all (·.proof) || (j == 0 && !gr.snaps.isEmpty))

/-- Some arrivals carry .proof and some do not (R270). -/
def proofDisagrees (s : State) (g j : Nat) (d : Domain) : Bool :=
  !proofDue s g j d && d.arrivals.any (·.proof)

/-- The images of every member and of its cluster's shared memory, as they stand (R328). -/
def State.images (s : State) (g : Nat) : List Image × List SharedImage :=
  let ms := (s.groupAt g).members
  let cl := ms.foldl (fun l c => if l.contains (clusterOf c) then l else l ++ [clusterOf c]) []
  (ms.map fun c => { at_ := c, core := s.coreAt c }, cl.map fun k =>
    let v := s.clusterAt k
    { at_ := k, mem := v.mem, pend := v.pend.filter fun w => ms.contains w.core, acc := v.acc.filter fun x => ms.contains x.core })

/-- The proof is taken on the release: held writes are committed before it is delivered (R328, R329), and SNAPs join (R282). -/
def State.takeProof (s : State) (g j : Nat) (d : Domain) : State :=
  let s := s.commitHold g
  let (im, sh) := s.images g
  let gr := s.groupAt g
  let rels := (s.domainMembers g d).map fun c => (c, s.releaseFor g d none [] c)
  let ops := s.ops.filter fun x => x.2.grp == g && x.2.st == .running
  let p : Proof := { cyc := s.now, dom := j, rels := rels, images := im, shared := sh, ops := ops, domains := gr.domains,
                     reqThreads := s.reqThreads.filter fun x => ops.any fun o => o.1 == x.2.op, ready := true }
  let s := s.setGroup g { gr with proof := some p, taking := gr.taking.filter (·.dom != j), snaps := if j = 0 then [] else gr.snaps }
  let s := gr.members.foldl (fun s c => (s.modCore c fun k => { k with logged := [] }).modCluster (clusterOf c) fun k => { k with logged := [] }) s
  (if j = 0 then gr.snaps else []).foldl (fun s o => s.at s.now prioNet (.engineOperationComplete o)) s

/-- A map change holds the release of a domain: the copy goes on, or the 40 cycles after it do (R316, R322). -/
def State.mapHolds (s : State) (g j : Nat) : Bool :=
  let gr := s.groupAt g
  gr.st == .changingMap && j == gr.copyDom

/-- The release is delivered, unless a proof or a map change holds it (R322). A pass that has failed takes no proof. -/
def State.tryRelease (s : State) (g j : Nat) (d : Domain) : State :=
  let d := if d.fail.isNone && proofDisagrees s g j d then { d with fail := some 0x1C6 } else d
  if d.fail.isNone && proofDue s g j d then
    let s := (s.setDomain g j { d with phase := 3 }).modGroup g fun gr => { gr with taking := gr.taking ++ [{ cyc := s.now, dom := j }] }
    s.later 0 (.proofReady g)
  else if s.mapHolds g j then
    let s := s.setDomain g j { d with phase := 3 }
    if (s.groupAt g).copying then s else s.releaseAt g j (s.now + 40)
  else s.deliverRelease g j d d.fail d.record

/-- A packet reaches its receiver's banks after a duration of the part's. -/
def State.laterBank (s : State) (ev : Instr) : State :=
  let (d, s) := s.delay
  s.at (s.now + d) (prioBank + 12) ev

/-- The pass ends on Lc + 40 (R322, R325). -/
def State.endPass (s : State) (g j : Nat) (d : Domain) : State :=
  match s.failingReceiver g d with
  | some c =>
    s.tryRelease g j { d with fail := some 0x1C1,
                              record := [BitVec.ofNat 64 (s.coreAt c).coords, BitVec.ofNat 64 (d.capOf c), BitVec.ofNat 64 (d.totalOf c)] }
  | none =>
    let l := d.place (s.byCoords (d.arrivals.map (·.core)))
    if l.any fun x => x.len != 0 then
      let s := s.setDomain g j { d with phase := 2, deliveries := l.map fun x => { x with landed := x.len == 0 } }
      (List.range l.length).foldl (fun (s : State) i => if (l.getD i {}).len = 0 then s else s.laterBank (.exchangePacketLand g j i)) s
    else s.tryRelease g j d

/-- The proof or the map change that holds a release is not at its end: the proof is still being written, or the copy goes on (R322). -/
def State.heldUp (s : State) (g j : Nat) : Bool :=
  let gr := s.groupAt g
  gr.taking.any (fun t => t.dom == j && !t.ready) || (gr.copying && j == gr.copyDom)

/-- BARRIER_RELEASE: the end of the pass, of the delivery, or of the hold (R322). -/
def execBarrierRelease (g j : Nat) (s : State) : Out :=
  let gr := s.groupAt g
  let d := gr.domain j
  if !gr.st.meets || d.arrivals.isEmpty || decide (s.now < d.due) || (SMap.find gr.coupled j).isSome then .next s
  else
    match d.phase with
    | 1 => .next (s.endPass g j d)
    | 2 => .next (s.tryRelease g j d)
    | 3 =>
      if s.heldUp g j then .next s
      else
        let s := if gr.taking.any fun t => t.dom == j then s.takeProof g j d else s
        .next (s.deliverRelease g j d d.fail d.record)
    | _ => .next s

/-- EXCHANGE_PACKET_LAND: once the sender's earlier local writes have been committed (R123), a packet is written row by row, each on a cycle of its bank, as requester 12; 40 cycles after the last one the
release falls due (R87, R88, R109, R322). -/
def execExchangePacketLand (g j i : Nat) (s : State) : Out :=
  let gr := s.groupAt g
  let d := gr.domain j
  match d.deliveries[i]? with
  | none => .next s
  | some x =>
    let again (s : State) : State := s.at (s.now + 1) (prioBank + 12) (.exchangePacketLand g j i)
    let a := x.daddr + x.done
    let n := min (256 - a % 256) (x.len - x.done)
    if x.landed || d.phase != 2 || !gr.st.meets then .next s
    else if !writesDone s x.src 0 x.mark x.issued then .next (again s)
    else
      match s.askBank x.dst a 12 (packetKey j i) with
      | .inr s => .next (again s)
      | .inl s =>
        let bs := s.committed x.src (x.saddr + x.done) n
        let s := ((s.useBytes x.src (x.saddr + x.done) n).write x.dst 12 a bs s.now (s.now + 1)).2
        let x := { x with done := x.done + n, landed := decide (x.len ≤ x.done + n) }
        let l := d.deliveries.set i x
        let s := s.setDomain g j { d with deliveries := l }
        .next (if !x.landed then again s else if l.all (·.landed) then s.releaseAt g j (s.now + 40) else s)
where
  /-- a number under which a packet waits at a bank, apart from those of operations -/
  packetKey (j i : Nat) : Nat := 2 ^ 60 + 65536 * j + i

/-- A release that nothing holds any longer falls due 40 cycles on, and not before the group goes on (R322, R324). -/
def State.endHold (s : State) (g j : Nat) : State :=
  let gr := s.groupAt g
  if (gr.domain j).phase != 3 || s.heldUp g j || !gr.st.meets then s else s.releaseAt g j (s.now + 40)

/-- The first proof that is not ready becomes ready. -/
def firstReady : List Proof → List Proof
  | [] => []
  | t :: rest => if t.ready then t :: firstReady rest else { t with ready := true } :: rest

/-- PROOF_READY (R328): a proof is ready, those of two domains in the order in which they were begun. -/
def execProofReady (g : Nat) (s : State) : Out :=
  match (s.groupAt g).taking.find? fun t => !t.ready with
  | none => .next s
  | some t => .next ((s.modGroup g fun gr => { gr with taking := firstReady gr.taking }).endHold g t.dom)

end Sys2Proof.Machine
end

