-- ==== Sys2Proof/Machine/System.lean ====
section
/-! DEFINITION. Helpers (R77 to R81, R273), tasks and launches (R274 to R276), the size (R277), traps and their return (R279, R280, R350,
R351, R354), and the special registers (R63, R86, R131, R152, R348). -/

namespace Sys2Proof.Machine

/-! Helpers. -/

def helperNumbers : List Nat := (List.range 10).map (· + 1)

/-- A helper is live from its HSTART until its HEXIT has issued (R77). -/
def Core.live (k : Core) (h : Nat) : Bool := (k.thread h).stat != .free

/-- HSTART (R77, R273). -/
def execHstart (w : Fields) (s : State) : Out :=
  issue (.hstart w) (fun cx w s =>
    let k := s.coreAt cx.c
    let target := relTarget cx w.b
    if s.codeWords cx.ag ≤ target.toNat then .report 0x010 [target, 5]
    else
      match helperNumbers.find? fun h => !k.live h with
      | none => result cx (.n w.a.num) 0 1 s
      | some h =>
        let th : Thread := { stat := .run, pc := target.toNat, vl := (k.thread 0).vl, notBefore := s.now + 2 }
        result cx (.n w.a.num) (BitVec.ofNat 64 h) 1 (s.modCore cx.c fun k => k.setThread h th)) s

/-- The helper's context becomes free, and its flags join those of the control context (R53, R77). -/
def State.endHelper (s : State) (cx : Cx) : State :=
  let th := s.self cx
  let gone := th.allOps
  let s := s.modCore cx.c fun k => (k.setThread cx.t {}).modThread 0 fun c => c.raise th.fflg
  { s with ops := s.ops.filter fun x => !gone.contains x.1 }

/-- HEXIT seals, with the limit that SEAL has, waits as WAITB 0 does, and ends the helper (R124, R273). -/
def execHexit (w : Fields) (s : State) : Out :=
  issue (.hexit w) (fun cx _ s =>
    if !cx.again && decide (15 ≤ unfinished s (s.self cx).batches) then .full cx 0x049
    else
      let s := if cx.again then s else s.sealBatch cx.ag
      waitBatches cx 0 s fun s => .done (s.endHelper cx)) s

/-- HJOIN waits until the helper is not live and its local writes have been committed (R28, R273). -/
def execHjoin (w : Fields) (s : State) : Out :=
  issue (.hjoin w) (fun cx w s =>
    let h := ((s.self cx).src w.a).toNat
    if 10 < h then .cause 0x1D0
    else if h != 0 && ((s.coreAt cx.c).live h || writesLeft s cx.c h) then .wait s
    else .done s) s

/-- HSTAT (R273). -/
def execHstat (w : Fields) (s : State) : Out :=
  issue (.hstat w) (fun cx w s =>
    let k := s.coreAt cx.c
    let live := helperNumbers.foldl (fun n h => if k.live h then n + 2 ^ h else n) 0
    result cx (.n w.a.num) (BitVec.ofNat 64 (k.grant * 2 ^ 11 + live)) 1 s) s

/-- HELPER_GRANT: the open slot is offered to the helpers in cyclic order after the pointer, until one of them issues (R79). -/
def execHelperGrant (c : Nat) (s : State) : Out :=
  if !slotFree s c then .next s
  else
    let k := s.coreAt c
    let order := (List.range 10).map fun i => (k.grant + i) % 10 + 1
    match (List.range 10).find? fun i => k.tried ≤ i && ready k (order.getD i 0) with
    | none => .next s
    | some i =>
      let h := order.getD i 0
      let s := s.modCore c fun k => { k with tried := i + 1 }
      .next { s with todo := .thr c h :: .grant c :: s.todo }
where
  /-- the helper runs, and its next word has not issued -/
  ready (k : Core) (h : Nat) : Bool := (k.thread h).stat == .run && !(k.thread h).waiting
  /-- No thread of the front end has issued on this cycle, and the control context leaves it free (R28, R76, R78). -/
  slotFree (s : State) (c : Nat) : Bool :=
    let k := s.coreAt c
    k.issuedAt != s.now + 1 && (!s.controlTimed c || decide (s.now ≤ (k.thread 0).openTo))

/-! Tasks. -/

/-- The slots of the cycle on which a wait has ended: the thread's next word may issue on it. -/
def State.sameCycle (s : State) (cx : Cx) : State := if cx.t = 0 || cx.t = 11 then { s with todo := .thr cx.c cx.t :: s.todo } else s

/-- A TKPOST of the own bank waits until its status has landed (R274), and only then advances its pointer: one that traps does not (R249). -/
def awaitPost (cx : Cx) (o : Operand) (q : Nat) (r : BankReq) (s : State) : Verdict :=
  match r.fail with
  | some n => .cause n
  | none =>
    if !r.performed || (s.self cx).flight.any (fun f => r.flight == some f.seq) then .wait s
    else
      let s := (s.modCore cx.c fun k => k.dropReq q).modThread cx.ag fun th => { th with waitOn := none }
      .done ((s.advanceNow cx o).sameCycle cx)

/-- The checks on the own bank of a TKPOST (R174, R274). -/
def postBankTrap (s : State) (cx : Cx) (a : Nat) : Option TrapInfo :=
  firstTrap
    [guardTrap s cx (if isLocal a then persCheckAddr (s.coreAt cx.c) a else a) 8 true true,
     causeIf (!isLocal a) 0x185]

/-- Bank requests of the thread that have failed and have been reported. -/
def Core.dropFailed (k : Core) (t : Nat) : Core := { k with reqs := k.reqs.filter fun x => !(x.2.thr == t && x.2.fail.isSome) }

/-- TKPOST (R274): the own bank at a memory operand, the bank that a logical register names, or the hub map. -/
def execTkpost (w : Fields) (s : State) : Out :=
  issue (.tkpost w) (fun cx w s =>
    if cx.again then
      match (s.self cx).waitOn.bind fun q => (SMap.find (s.coreAt cx.c).reqs q).map fun r => (q, r) with
      | some (q, r) => awaitPost cx w.a q r s
      | none => awaitOp cx s fun e s => result cx .none (BitVec.ofNat 64 e.stat) 1 s
    else
      let th := s.self cx
      let pub := w.m.getLsbD 0
      let key := th.src w.b
      let count := BitVec.ofNat 64 ((th.src w.c).toNat % 2 ^ 32)
      let remote (e : EngOp) : Verdict :=
        let s := s.dropWaited cx.ag (· == .tkpost)
        let (q, s) := s.newOp cx { e with kind := .tkpost, m := w.m.toNat, bv := key, cv := count }
        .wait ((s.modThread cx.ag fun th => { th with waitOn := some q }).later 6 (.amsgArrival q))
      match w.a.kind with
      | .imm => if pub || key.toNat % 2 ^ 32 = 0 then .cause 0x1D1 else remote { fmt := 1 }
      | .nreg | .qage =>
        let r := th.src w.a
        (match (if r.getLsbD 63 then none else logicalTarget s cx.c r) with
         | none => .cause 0x182
         | some t => remote { av := r, tgt := t.fe })
      | _ =>
        let a := th.base w.a false
        checked (postBankTrap s cx a)
          (if (s.coreAt cx.c).changing (bankOf a) then .hold
           else
             let s := s.modCore cx.c fun k => k.dropFailed cx.t
             let (f, s) := s.landUnknown cx.ag cx.pc .none true
             let (q, s) := s.request cx (bankOf a) (.tkpost key (if pub then ((count.setWidth 32).toInt) else -1)) (some f) none
             .wait (s.modThread cx.ag fun th => { th with waitOn := some q }))) s

/-- A result and its status that come from the hub, both on one cycle, 6 cycles after issue at least (R27, R275, R276). -/
def hubResult (cx : Cx) (dest : Dest) (value status : Word) (s : State) : Verdict :=
  let (d, s) := s.delay
  let at_ := 6 + d
  .done ((s.landAs cx.ag cx.pc dest value false at_ 0).landAs cx.ag cx.pc .none status true at_ 0)

/-- TKTAKE (R275). -/
def execTktake (w : Fields) (s : State) : Out :=
  issue (.tktake w) (fun cx w s =>
    if w.b.kind == .imm then
      match s.takeNotice with
      | some (n, s) => hubResult cx (.n w.a.num) n 0 s
      | none => hubResult cx (.n w.a.num) 0 2 s
    else
      let k := s.coreAt cx.c
      let a := (s.self cx).base w.b false
      checked
        (firstTrap
          [guardTrap s cx (if isLocal a then persCheckAddr k a else a) 8 true true,
           causeIf (!isLocal a || k.persAt a != 1) 0x0D3])
        (if k.changing (bankOf a) then .hold
         else
           let x : Access := { addr := { base := a, ea := a, pers := 1 }, width := 8 }
           .done ((persAccess cx x (.ldl 0 0) (.n w.a.num) s).advanceNow cx w.b))) s

/-- LAUNCH (R276): the record is read at issue. -/
def execLaunch (w : Fields) (s : State) : Out :=
  issue (.launch w) (fun cx w s =>
    let th := s.self cx
    let k := s.coreAt cx.c
    let a := th.base w.b false
    unlessHeld (rowsHeld s cx (rangeRows a 64) []) <| checked
      (firstTrap
        [causeIf (a % 64 != 0) 0x0D2,
         guardTrap s cx a 64 true false,
         if !isLocal a || k.personality a 64 then some { cause := 0x0D4, record := guardRecord a true false 64 } else none])
      (if k.changingIn a 64 then .hold
       else
         let bs := s.reads cx s.now a 64
         let r := (List.range 8).map fun i => BitVec.ofNat 64 (leNat ((bs.drop (8 * i)).take 8))
         let (st, h, s) := (s.advanceNow cx w.b).postRecord (s.ctxOf cx.ag) (th.src w.c).toNat r
         let (d, s) := s.delay
         .done (s.landAs cx.ag cx.pc (.n w.a.num) (BitVec.ofNat 64 (h * 2 ^ 16 + st)) true (6 + d) 0))) s

/-- SETSZ lands the new SZ (R250, R277). -/
def execSetsz (w : Fields) (s : State) : Out :=
  issue (.setsz w) (fun cx w s =>
    let v : BitVec 32 := ((s.self cx).src w.a).setWidth 32
    .done (s.modCore cx.c fun k => { k with sz := v })) s

/-- TRAP: the word has issued, and EPCW is the word after it (R279). -/
def execTrap (w : Fields) (s : State) : Out :=
  issue (.trap w) (fun cx w s =>
    .done (s.takeTrap cx.ag cx.pc { cause := 0x300 + w.a.immInt.toNat, after := true })) s

/-! Special registers. -/

/-- BINS (R348). -/
def State.binsWord (s : State) (c : Nat) : Nat :=
  let hs := s.halfSlots c (s.coreAt c).gang
  (List.range hs.length).foldl (fun n i =>
    match hs.getD i none with
    | some h => n + SMap.get 0 s.bins h % 4 * 4 ^ i + 2 ^ (16 + i)
    | none => n) 0

/-- A further trap is pending in the core (R351). -/
def Core.pendingTrap (k : Core) : Option Nat := (List.range 11).find? fun t => (k.thread t).stat == .trapped && k.inTrap != some t

/-- CTL (R348). -/
def ctlWord (s : State) (cx : Cx) : Nat :=
  let x := s.ctxOf cx.ag
  let k := s.coreAt cx.c
  let bit (b : Bool) (n : Nat) : Nat := if b then 2 ^ n else 0
  (s.contextAt x).allow * 2 ^ 32 + x * 2 ^ 24 + cx.t % 16 * 2 ^ 12 + bit k.pendingTrap.isSome 3 + bit k.inTrap.isSome 2 +
    bit (s.privileged cx.ag) 1 + bit (s.contextAt x).wchk 0

/-- INJM (R348). -/
def injmWord (k : Core) : Nat := (List.range 64).foldl (fun n d => if SMap.get 0 k.inj d = 0 then n else n + 2 ^ d) 0

/-- DEPST (R86). -/
def depstWord (k : Core) (now : Nat) : Nat := (if k.dcol then 2 ^ 16 else 0) + k.arv.toNat * 256 + (k.enAt now).toNat

/-- SBSj (R131). -/
def Sbs.word (b : Sbs) : Nat := b.s * 2 ^ 52 + b.rows * 2 ^ 44 + b.fills.toNat * 2 ^ 28 + b.counts.headD 0 % 2 ^ 17

/-- The value that SRR reads (R152). -/
def specialValue (s : State) (cx : Cx) (r : Nat) : Nat :=
  let k := s.coreAt cx.c
  let th := s.self cx
  let x := s.contextAt (s.ctxOf cx.ag)
  if 0x010 ≤ r ∧ r ≤ 0x017 then (k.stage (r - 0x010)).word
  else
    match r with
    | 0x000 => th.vl.toNat
    | 0x001 => s.now
    | 0x002 => th.anchor
    | 0x003 => k.core
    | 0x004 => k.clus
    | 0x005 => k.stk
    | 0x006 => k.stg
    | 0x007 => k.sz.toNat
    | 0x008 => k.budg
    | 0x009 => th.fflg.toNat
    | 0x00A => depstWord k s.now
    | 0x100 => ctlWord s cx
    | 0x101 => k.cause.toNat
    | 0x102 => k.epcw.toNat
    | 0x103 => (s.groupAt (s.groupOfCore cx.c)).mapv.toNat
    | 0x104 => x.used * 2 ^ 32 + x.limit
    | 0x105 => s.binsWord cx.c
    | 0x106 => injmWord k
    | 0x107 => k.tvec.toNat
    | 0x108 => x.area
    | _ => 0

/-- SRR (R281); a request thread reads CYC alone (R128). -/
def execSrr (w : Fields) (s : State) : Out :=
  issue (.srr w) (fun cx w s =>
    match cx.ag, w.b.num with
    | .req _, 0x001 => result cx (.n w.a.num) (BitVec.ofNat 64 s.now) 2 s
    | .req _, _ => .cause 0x002
    | _, r => result cx (.n w.a.num) (BitVec.ofNat 64 (specialValue s cx r)) 2 s) s

/-- The cores that run a context. -/
def State.coresOf (s : State) (x : Nat) : List Nat := (s.cores.filter fun e => e.2.grp.any fun g => g / 256 == x).map (·.1)

/-- A written allowance is 65,536 at most (R348). -/
def clampAllow (n : Nat) : Nat := min n 65536

/-- The quota of a context is written (R348, R363). -/
def State.setLimit (s : State) (x limit : Nat) : State := s.modContext x fun c => { c with limit := limit % 2 ^ 32, noticed := false }

/-- SRW of the registers of a context acts on its header's copy and on every core that runs it (R347, R348). -/
def State.setCtl (s : State) (x : Nat) (v : Word) : State :=
  let allow := clampAllow (v.toNat / 2 ^ 32 % 2 ^ 17)
  let wchk := v.getLsbD 0
  let s := s.modContext x fun c => { c with allow := allow, wchk := wchk }
  (s.coresOf x).foldl (fun s c => s.modCore c fun k => { k with allow := allow, wchk := wchk }) s

/-- SRW of a register (R63, R86, R348). -/
def writeSpecial (s : State) (cx : Cx) (r : Nat) (v : Word) : State :=
  let x := s.ctxOf cx.ag
  match r with
  | 0x000 => s.modThread cx.ag fun th => { th with vl := v.setWidth 16 }
  | 0x009 => s.modThread cx.ag fun th => { th with fflg := th.fflg &&& ~~~(v.setWidth 8) }
  | 0x00A => s.modCore cx.c fun k =>
      { k with dcol := k.dcol && !v.getLsbD 16, arv := k.arv &&& ~~~(v.extractLsb' 8 8) }
  | 0x100 => s.setCtl x v
  | 0x102 => s.modCore cx.c fun k => { k with epcw := v.setWidth 13 }
  | 0x104 => s.setLimit x v.toNat
  | 0x106 => s.modCore cx.c fun k => { k with inj := k.inj.filter fun e => !v.getLsbD e.1 }
  | 0x107 => s.modCore cx.c fun k => { k with tvec := v.setWidth 11 }
  | 0x108 => s.modContext x fun c => { c with area := v.toNat % 2 ^ 52 / 4096 * 4096 }
  | _ => s

/-- SRW: in force from the next cycle (R250, R281). -/
def execSrw (w : Fields) (s : State) : Out :=
  issue (.srw w) (fun cx w s => .done (writeSpecial s cx w.a.num ((s.self cx).src w.b))) s

/-! The trap context (R350). -/

/-- TRAP_CONTEXT_START: the trap context starts at TVEC, with CAUSE, EPCW and the cause record in n0 to n7. -/
def execTrapContextStart (c : Nat) (s : State) : Out :=
  let k := s.coreAt c
  match k.inTrap with
  | none => .next s
  | some t =>
    if !(s.groupAt (s.groupOfCore c)).st.runs then .next s
    else
      let tr := (k.thread t).trap.getD {}
      let th := k.thread 11
      let n := ([k.cause, k.epcw.setWidth 64] ++ (List.range 6).map fun i => tr.record.getD i 0)
      let th := (List.range 8).foldl (fun th i => th.writeN i (n.getD i 0)) th
      .next (s.setCore c (k.setThread 11 { th with stat := .run, pc := k.tvec.toNat, waiting := false, notBefore := s.now }))

/-! RFT (R280, R354). -/

/-- The first refill after a cycle (R136). -/
def refillAfter (c : Nat) : Nat := (c / 1024 + 1) * 1024

/-- Start cycles and lend windows that are counted from the control context's anchor move with it (R308, R354, R359). -/
def State.shiftStarts (s : State) (c by_ : Nat) : State :=
  let k := s.coreAt c
  let waits (e : Eng) : Bool := e.timed && e.lent.isNone && !e.started
  let s := s.modCore c fun k =>
    { k with engs := mapVals (fun e => if waits e then { e with start := e.start + by_ } else e) k.engs,
             lend := k.lend.map fun l => if l.seg.isSome then { l with lo := l.lo + by_, hi := l.hi + by_ } else l }
  k.engs.foldl (fun s x => if waits x.2 then s.at (x.2.start + by_) prioEngine (.engineStart c x.1) else s) s

/-- The merge tree goes on from where it stood, its fill as far as it had come (R241, R247). -/
def State.resumeMerge (s : State) (c since at_ : Nat) : State :=
  let g := (s.coreAt c).merge
  if g.st != 1 then s
  else
    (s.modCore c fun k =>
      { k with merge := { g with next := at_, ready := if since < g.ready then g.ready + (at_ - since) else g.ready } }).at at_ prioBank (.mergeDecision c)

/-- The thread goes on at a word on the cycle after this one; in a timed segment its anchor moves by the cycles it stood still (R354). A segment whose
first word has trapped and is passed over has begun (R144), and a word that is not executed again has no replay (R393). -/
def State.resumeAt (s : State) (c t pc since : Nat) : State :=
  let ag : Agent := .core c t
  let at_ := s.now + 1
  let seg := s.segOf ag pc
  let timed := seg.isSome
  let s := s.modThread ag fun th =>
    let from_ := (s.segOf ag (th.trap.getD {}).epcw).map (·.first)
    let begun := th.fresh && seg.any fun g => pc != g.first && from_ == some g.first
    { th with stat := .run, pc := pc, trap := none, waiting := false, notBefore := at_,
              seg := if begun then seg.map (·.first) else th.seg, fresh := th.fresh && !begun,
              dueAt := if timed then some at_ else none, anchor := if timed then th.anchor + (at_ - since) else th.anchor }
  let s := s.modCore c fun k => if k.replays.isEmpty then k else { k with replays := k.replays.filter fun x => !(x.timed && x.thr == t) }
  let s := if t = 0 then (s.resumeTiles c since at_).resumeMerge c since at_ else s
  let s := if t = 0 && timed then s.shiftStarts c (at_ - since) else s
  s.resumeFlights ag since

/-- A quantisation that writes its rows is cancelled: the rows and the tile's unread mark are what they were before it (R235). -/
def State.cancelStage (s : State) (c q : Nat) (v : VecOp) : State :=
  let s := (v.writes.zip v.olds.reverse).foldl (fun s x =>
    let p := placeOf c x.2.1
    if (s.pendOf p).any (·.id == x.1) then s.setPend p ((s.pendOf p).filter (·.id != x.1)) else s.poke c x.2.1 x.2.2) s
  let mine := v.incs.map (·.1)
  let s := s.modThread (.core c 0) fun th => { th with flight := th.flight.filter fun f => !mine.contains f.seq }
  let s := s.modCluster (clusterOf c) fun k => { k with acc := k.acc.filter (·.key != q) }
  s.modCore c fun k =>
    { k.modTile v.tile (fun t => { t with unread := v.unread }) with vecs := SMap.erase k.vecs q, acc := k.acc.filter (·.key != q) }

/-- The products and quantisations that were issued from a cycle on and have not landed are cancelled, and the flight list is empty
(R74, R235). -/
def State.cancelEngs (s : State) (c since : Nat) : State :=
  let k := s.coreAt c
  let cancelled (e : Eng) : Bool :=
    match e.kind with
    | .product => e.lent.isNone && !e.landed && decide (since ≤ e.issue)
    | .quant => decide (since ≤ e.issue)
    | .merge => false
    | .held => true
  let s := ((k.engs.filter fun e => cancelled e.2).map (·.1)).foldl (fun s q => s.dropEng c q) s
  let s := (k.vecs.filter fun x => x.2.code == .qstage && decide (since ≤ x.2.issue)).foldl (fun s x => s.cancelStage c x.1 x.2) s
  s.modCore c fun k => { k with held := [] }

/-- The thread's restart image goes back, and its word is due on cycle `at_`, by which the anchor moves (R74, R308). -/
def State.restartAt (s : State) (c t at_ : Nat) : State :=
  let ag : Agent := .core c t
  let th := s.threadOf ag
  let since := (th.trap.getD {}).cyc
  match th.restart with
  | none =>
    let s := if t = 0 then (s.cancelEngs c (s.now + 1)).resumeMerge c since at_ else s
    s.modThread ag fun th => { th.restore with stat := .run, trap := none, notBefore := at_ }
  | some r =>
    let s := if t = 0 then ((s.cancelEngs c r.cyc).resumeMerge c since at_).shiftStarts c (at_ - r.cyc) else s
    s.modThread ag fun th =>
      { th.restore with stat := .run, trap := none, waiting := false, notBefore := at_, dueAt := if r.first then none else some at_,
                        anchor := th.anchor + (at_ - r.cyc), restart := some { r with cyc := at_ } }

/-- The release of a coupled restart falls due (R308, R408). -/
def State.coupledDue (s : State) (g : Nat) (q : Coupled) : State :=
  let due := s.now + 40
  s.at (match q.energy with | some c => max due (refillAfter c) | none => due) prioRelease (.coupledRerelease g q.dom)

/-- A core of a coupled restart has executed RFT.rst; when every trapping core has and every member has stopped, the domain is released again
40 cycles on, after an energy trap no earlier than the first refill after it (R308, R408). -/
def State.coupledReturn (s : State) (c : Nat) : State :=
  let g := s.groupOfCore c
  match SMap.find (s.groupAt g).coupled ((s.coreAt c).thread 0).anchorDom with
  | none => s
  | some q =>
    let q := { q with rst := if q.rst.contains c then q.rst else q.rst ++ [c], last := s.now }
    let s := s.modGroup g fun gr => { gr with coupled := SMap.put gr.coupled q.dom q }
    if q.stopped && q.traps.all q.rst.contains then s.coupledDue g q else s

/-- The marker of a failed wait is of use to the very next word alone (R325). -/
def Core.dropFailedWaits (k : Core) : Core := { k with rels := k.rels.filter fun x => x.2.fail != some 0x1C5 }

/-- The trap context gives its core back, and the next pending trap starts on the second cycle (R351). -/
def State.leaveTrap (s : State) (c : Nat) : State :=
  let s := s.modCore c fun k => { k.modThread 11 (fun th => { th with stat := .free, waiting := false }) with inTrap := none }
  match (s.coreAt c).pendingTrap with
  | some t => s.startTrap c t
  | none => s

/-- The return of the thread that trapped, by the form of RFT (R125, R280, R308, R354, R378). -/
def returnFrom (s : State) (c t m : Nat) : State :=
  let ag : Agent := .core c t
  let k := s.coreAt c
  let tr := (k.thread t).trap.getD {}
  match m with
  | 0 => (if tr.op.isSome then s.resumeFailed ag else s).resumeAt c t k.epcw.toNat tr.cyc
  | 1 =>
    if tr.coupled then
      (s.modThread ag fun th => { th.restore with stat := .stopped, trap := none }).coupledReturn c
    else s.restartAt c t (if tr.cause = 0x043 then max (s.now + 1) (refillAfter tr.cyc) else s.now + 1)
  | _ =>
    let s := match tr.op with
      | some o => if (SMap.find s.ops o).isSome then s.modOp o fun e => { e with passed := true } else s
      | none => s
    (s.modCore c Core.dropFailedWaits).resumeAt c t (k.epcw.toNat + 1) tr.cyc

/-- RFT (R280): cause 0x020 with no trap being handled, 0x022 for a return other than .rst in a coupled segment (R354). -/
def execRft (w : Fields) (s : State) : Out :=
  issue (.rft w) (fun cx w s =>
    let k := s.coreAt cx.c
    match k.inTrap with
    | none => .cause 0x020
    | some t =>
      if w.m != 1 && ((k.thread t).trap.getD {}).coupled then .cause 0x022
      else .done ((returnFrom s cx.c t w.m.toNat).leaveTrap cx.c)) s

end Sys2Proof.Machine
end

