-- ==== Sys2Proof/Machine/Events.lean ====
section
/-! DEFINITION. What happens to a core's results, writes and routines from cycle to cycle: the landing of results (R25, R64, R399), the
counterproof and its replays (R72, R391 to R395, R402), the end of a routine (R172, R334), the refill of a budget (R136). -/

namespace Sys2Proof.Machine

/-! The verdicts of the counterproof. A check fails because a detector reports, and for no other reason: one that INJ has armed, or one that an error
of the part makes report (R402; log entry 58). -/

/-- What a check decides: it passes, it is the first mismatch of a result, or the replay of one mismatches too; with the mark of the report. -/
inductive Check where
  | pass (s : State)
  | mismatch (s : State) (mark : Nat)
  | again (s : State) (mark : Nat)

/-- Which result of its word a flight is, and which a row. -/
def Flight.slot (f : Flight) : Nat := f.dest.packed.getD 0xFFF
def PendWrite.slot (w : PendWrite) : Nat := 0x1000 + w.addr

/-- The check of a result by detector 0 for a scalar one and 1 for a vector row; detector 4 lets the replay fail as well. A replay is the same result
again, or, in a timed segment, the same result of the word that the restart executes again (R393, R395, R402). -/
def checkResult (s : State) (c : Nat) (r : Replay) (detector : Nat) : Check :=
  let mine (x : Replay) : Bool := !x.product && x.thr == r.thr &&
    (if r.timed then x.timed && x.word == r.word && x.slot == r.slot else !x.timed && x.id == r.id)
  let note (s : State) (fails : Bool) (mark : Nat) : State :=
    s.modCore c fun k => { k with replays := k.replays ++ [{ r with fails := fails, injected := mark != 0 }] }
  match (s.coreAt c).replays.find? mine with
  | some x =>
    let s := s.modCore c fun k => { k with replays := k.replays.filter fun x => !mine x }
    if x.fails then .again s (if x.injected then injMark else 0)
    else
      match s.takeInj c detector with
      | some (s, mark) => .again s mark
      | none => .pass s
  | none =>
    match s.takeInj c 4 with
    | some (s, mark) => .mismatch (note s true mark) mark
    | none =>
      match s.takeInj c detector with
      | some (s, mark) => .mismatch (note s false mark) mark
      | none => .pass s

/-- A replay mismatches again (R395): the half that has the lanes is named in the notice of a kill, which in a gang is one of the front end's own
slab (R12, R17); a trap context takes a double trap (R351). -/
def secondMismatch (s : State) (c t half word mark : Nat) : State :=
  if t = 11 then s.takeTrap (.core c 11) word { cause := 0x280, mark := mark }
  else
    let h := ((s.halfSlots c (s.coreAt c).gang).getD half none).getD (c * 2 + half)
    (s.marginal h mark).consume (s.groupOfCore c) 0x280 (slabWord (h / 2) (h % 2) + mark)

/-- A store or a row whose replay issues on cycle `t`: its word's latency counts anew. -/
def PendWrite.replayAt (w : PendWrite) (t : Nat) : PendWrite :=
  if w.scalar then
    let e := t + (if isShared w.addr then 3 else 1)
    { w with endC := e, commitC := e + 3 }
  else { w with endC := t + w.lat, commitC := t + w.lat + 6 }

/-- COUNTERPROOF_MISMATCH (R393): what thread `t`'s word has failed with is replayed from the cycle after the verdict with the word's
latency, or, in a timed segment, is discarded and taken as a timing trap. From outside, with lane 8 + d, it is an error of the part's own, which
detector d reports on the core's next check (log entry 58). -/
def execCounterproofMismatch (c t word lane : Nat) (s : State) : Out :=
  if 8 ≤ lane then .next (s.modCore c fun k => { k with real := SMap.set 0 k.real (lane - 8) (SMap.get 0 k.real (lane - 8) + 1) })
  else
  let ag : Agent := .core c t
  let k := s.coreAt c
  let mine := k.replays.filter fun x => x.thr == t && x.word == word && !x.product
  let ids := mine.map (·.id)
  let mark := if mine.any (·.injected) then injMark else 0
  let flight (f : Flight) : Bool := ids.contains f.seq && f.word == word && decide (f.land ≤ s.now)
  let write (w : PendWrite) : Bool := ids.contains w.id && w.core == c && w.word == word && decide (w.commitC ≤ s.now)
  if (s.segOf ag word).isSome then
    let s := s.modCore c fun k =>
      { k.modThread t (fun th => { th with flight := th.flight.filter fun f => !flight f }) with pend := k.pend.filter fun w => !write w }
    let s := s.modCluster (clusterOf c) fun v => { v with pend := v.pend.filter fun w => !write w }
    .next (s.timingTrap c 0x04F [BitVec.ofNat 64 (word + mark), BitVec.ofNat 64 lane])
  else
    let s := ((k.thread t).flight.filter flight).foldl (fun s f => s.at (s.now + 1 + f.lat) prioLanding (.resultLanding ag)) s
    let s := s.modThread ag fun th =>
      { th with flight := th.flight.map fun f => if flight f then { f with land := s.now + 1 + f.lat } else f }
    .next ([Place.core c, Place.cluster (clusterOf c)].foldl (fun s p =>
      let moved := (s.pendOf p).filter write
      let s := s.mapPend p fun w => if write w then w.replayAt (s.now + 1) else w
      moved.foldl (fun s w => s.at (w.replayAt (s.now + 1)).commitC (prioCommit + w.who) (.counterproofCommit p w.id)) s) s)

/-! Landings. -/

/-- A result lands: it is pushed and written (R64). -/
def Thread.takeResult (th : Thread) (f : Flight) : Thread :=
  let th := match f.dest with
    | .none => th
    | .n r => th.writeN r f.value
    | .a r => th.writeA r (Ptr.ofImage f.value)
    | .p r => th.writeP r (f.value != 0)
  let th := if f.push then th.pushQ f.value else th
  { th with flight := th.flight.filter fun g => g.seq != f.seq }

/-- A result that a correction has delayed ends a timed segment in a timing trap (R399). -/
def State.landLate (s : State) (c : Nat) (f : Flight) : State :=
  match f.late with
  | some mark => if (s.segOf (.core c 0) f.word).isSome then s.timingTrap c 0x04E [BitVec.ofNat 64 mark] else s
  | none => s

/-- One result of a thread lands. A landing in n24 to n31 of the control context is remembered for a deposit (R85); a result that a
correction has delayed ends a timed segment in a timing trap (R399). -/
def State.landResult (s : State) (ag : Agent) (f : Flight) : State :=
  let s := s.modThread ag fun th => th.takeResult f
  match ag, f.dest with
  | .core c 0, .n r =>
    let s := if 24 ≤ r then s.modCore c fun k => { k with depLand := SMap.put k.depLand r (s.now, f.word) } else s
    s.landLate c f
  | .core c 0, _ => s.landLate c f
  | _, _ => s

/-- A result that is due is checked and lands (R391). -/
def State.retireResult (s : State) (ag : Agent) (f : Flight) : State :=
  match ag with
  | .core c t =>
    if f.lat = 0 || t = 12 then s.landResult ag f
    else
      match checkResult s c { thr := t, id := f.seq, word := f.word, slot := f.slot, timed := (s.segOf ag f.word).isSome } 0 with
      | .pass s => s.landResult ag f
      | .mismatch s _ => s.at s.now prioLanding (.counterproofMismatch c t f.word 0)
      | .again s mark => secondMismatch (s.dropFlight ag f.seq) c t 0 f.word mark
  | .req _ => s.landResult ag f

/-- Results land in threads that have not trapped, in groups that go on (R73, R358). -/
def landsNow (s : State) (ag : Agent) : Bool :=
  let th := s.threadOf ag
  th.stat != .trapped && th.stat != .stopped &&
    (match ag with
     | .core c _ => (match (s.coreAt c).grp with | some g => (s.groupAt g).st.runs && (s.groupAt g).st != .rollingBack | none => false)
     | .req _ => true)

/-- RESULT_LANDING: the results of a thread that are due land, in the order of their words (R25, R64). -/
def execResultLanding (ag : Agent) (s : State) : Out :=
  .next ((s.threadOf ag).flight.foldl (fun s f =>
    if f.known && f.sample.isNone && decide (f.land ≤ s.now) && landsNow s ag then s.retireResult ag f else s) s)

/-! Commits (R72). -/

/-- A write becomes part of the bytes that every agent reads. -/
def State.commitWrite (s : State) (p : Place) (w : PendWrite) : State :=
  let s := s.setMem p (memWrite (s.memOf p) w.addr w.data)
  ((s.setPend p (((s.pendOf p).filter fun x => x.id != w.id).map fun x => x.yield w)).heal p w.addr w.data.length).logRows p
    (s.groupOfCore w.core) (rowSpan w.addr w.data.length)

/-- COUNTERPROOF_COMMIT: a write whose check passes is committed; a row of TSTORE waits for its product's verdict as well (R72, R226, R391). -/
def execCounterproofCommit (p : Place) (id : Nat) (s : State) : Out :=
  match (s.pendOf p).find? fun w => w.id == id with
  | none => .next s
  | some w =>
    if s.now < w.commitC || !w.after.isEmpty then .next s
    else if !w.scalar && w.lane.isNone then .next (s.commitWrite p w)
    else
      let t := threadNo w.who
      let lane := w.lane.getD 0
      let r : Replay := { thr := t, id := w.id, word := w.word, slot := w.slot, timed := (s.segOf (.core w.core t) w.word).isSome }
      match checkResult s w.core r (if w.scalar then 0 else 1) with
      | .pass s => .next (s.commitWrite p w)
      | .mismatch s _ => .next (s.at s.now prioLanding (.counterproofMismatch w.core t w.word lane))
      | .again s mark => .next (secondMismatch (s.setPend p ((s.pendOf p).filter fun x => x.id != id)) w.core t (lane / 2) w.word mark)

/-! Routines and budgets. -/

/-- The routine of the control context is complete (R172). -/
def routineComplete (s : State) (c : Nat) : Bool :=
  let k := s.coreAt c
  (k.thread 0).flight.isEmpty && !writesLeft s c 0 && !k.opsLeft 0 && !(helperNumbers.any k.live)

/-- ROUTINE_DISPATCH: once the routine is complete, one removal on bank 15 reaches the bank on the next cycle (R172, R334). -/
def execRoutineDispatch (c : Nat) (s : State) : Out :=
  if ((s.coreAt c).thread 0).stat != .ending || !(s.groupAt (s.groupOfCore c)).st.meets then .next s
  else if !routineComplete s c then .next (s.at (s.now + 1) prioEngine (.routineDispatch c))
  else
    let (q, s) := s.take
    let r : BankReq := { bank := 15, who := 0, op := .routine, thr := 0, issued := s.now }
    .next ((s.modCore c fun k => { k with reqs := SMap.put k.reqs q r }).at (s.now + 1) prioBank (.personalityOperation c q))

/-- BUDGET_REFILL (R136). -/
def execBudgetRefill (c : Nat) (s : State) : Out := .next (s.modCore c fun k => { k with budg := k.allow, spent := [] })

end Sys2Proof.Machine
end

