-- ==== Sys2Proof/Machine/Groups.lean ====
section
/-! DEFINITION. How a group stands still and goes on: stop cycles and resume cycles (R358, R359), coupled restarts (R308, R408), rollbacks
(R331), and the move of cores and clusters under a new map (R316 to R319). -/

namespace Sys2Proof.Machine

/-! Standing still. -/

/-- Every cycle that a thread counts from its anchor moves, and so do its results in flight (R357, R359). -/
def Thread.moved (th : Thread) (by_ : Nat) : Thread :=
  { th with
           notBefore := th.notBefore + by_, anchor := th.anchor + by_, prev := th.prev + by_, dueAt := th.dueAt.map (· + by_),
           openTo := th.openTo + by_, restart := th.restart.map fun r => { r with cyc := r.cyc + by_ },
           flight := th.flight.map fun f => { f with land := f.land + by_ } }

/-- Results whose landing is not known yet land as much later (R359). -/
def Thread.late (th : Thread) (by_ : Nat) : Thread :=
  { th with flight := th.flight.map fun f => if f.known then f else { f with shift := f.shift + by_ } }

/-- The threads of a core stop at a word's boundary; a waiting word waits again on resumption (R358). The lend window closes (R238). -/
def Core.stop (k : Core) : Core :=
  { k with lend := none, threads := mapVals (fun th => if th.stat == .run then { th with stat := .stopped } else th) k.threads }

/-- The control context stands still in a coupled restart (R308). -/
def State.heldByRestart (s : State) (c : Nat) : Bool :=
  let gr := s.groupAt (s.groupOfCore c)
  gr.coupled.any fun q => q.2.stopped && (gr.domain q.1).has (s.coreAt c)

/-- A group stops now, and so does its context once no other group of it runs (R358). -/
def State.stopGroup (s : State) (g : Nat) (st : GState) : State :=
  let gr := s.groupAt g
  let s := gr.members.foldl (fun s c => s.modCore c Core.stop) s
  (s.modGroup g fun gr => { gr with st := st, stopC := some s.now }).settleContext gr.ctx

/-- Every operation in flight of a member has completed: it can be saved (R235, R357, R409). -/
def coreSettled (s : State) (c : Nat) : Bool :=
  let k := s.coreAt c
  k.vecs.isEmpty && k.pend.isEmpty && !(k.reqs.any fun x => !x.2.performed && x.2.op != .routine) &&
    !(k.banks.any fun b => !b.2.changing.isEmpty) &&
    !(k.engs.any fun x => x.2.started || (!x.2.timed || x.2.lent.isSome)) &&
    !((s.clusterAt (clusterOf c)).pend.any fun w => w.core == c) &&
    k.threads.all fun x => x.2.flight.all fun f => f.known && f.sample.isNone

/-- Every member is settled, deposits on their way have come, and the rows of sends have been read. -/
def groupSettled (s : State) (g : Nat) : Bool :=
  (s.groupAt g).members.all (coreSettled s) &&
    !(s.sends.any fun x => x.2.grp == g && (x.2.form == 2 || (x.2.form == 0 && decide (s.now ≤ x.2.readC)))) &&
    !(s.agenda.any fun e => match e.ev with
      | .depositArrival c _ _ | .burinTrigger c _ => (s.groupAt g).members.contains c
      | _ => false)

/-- STOP_AT_CYCLE (R282, R358): a group that is being placed, moved or rolled back stops once that is over. A PREEMPT is joined when every
operation in flight has completed, so that the group can be saved. -/
def execStopAtCycle (g : Nat) (s : State) : Out :=
  let gr := s.groupAt g
  let again : Out := .next (s.at (s.now + 1) prioEngine (.stopAtCycle g))
  let joins (s : State) : State :=
    gr.preempts.foldl (fun s o => s.later 0 (.engineOperationComplete o)) (s.modGroup g fun gr => { gr with preempts := [] })
  match gr.st with
  | .running => .next ((s.stopGroup g .stopped).at (s.now + 1) prioEngine (.stopAtCycle g))
  | .placed | .changingMap | .rollingBack => again
  | .stopped => if gr.preempts.isEmpty then .next s else if groupSettled s g then .next (joins s) else again
  | _ => .next (joins s)

/-! Going on. -/

/-- Results in flight and ended routines of a core are on the agenda again. -/
def State.wakeCore (s : State) (c : Nat) : State :=
  let k := s.coreAt c
  let s := k.threads.foldl (fun s x =>
    if x.2.stat == .trapped then s
    else x.2.flight.foldl (fun s f => if f.known then s.at (max f.land s.now) prioLanding (.resultLanding (.core c x.1)) else s) s) s
  if (k.thread 0).stat == .ending then s.at s.now prioEngine (.routineDispatch c) else s

/-- The deposits that the NI holds for a core are applied from the next cycle on, one a cycle (R85). -/
def State.releaseDeposits (s : State) (c : Nat) : State :=
  let k := clusterOf c
  let l := (s.clusterAt k).heldDeps.filter fun x => x.1 == c
  let s := s.modCluster k fun v => { v with heldDeps := v.heldDeps.filter fun x => x.1 != c }
  l.foldl (fun s x => s.deposit c x.2.1 x.2.2) s

/-- A trap whose context had not started goes on. -/
def State.wakeTrap (s : State) (c stopC : Nat) : State :=
  let k := s.coreAt c
  match k.inTrap with
  | some t =>
    if (k.thread 11).stat == .free then
      s.at (s.now + (((k.thread t).trap.getD {}).cyc + 2 - stopC)) prioEngine (.trapContextStart c)
    else s
  | none => s

/-- A removal of a routine entry that had not been made reaches the bank again. -/
def State.wakeRoutine (s : State) (c : Nat) : State :=
  (s.coreAt c).reqs.foldl (fun s x =>
    if x.2.op == .routine && !x.2.performed then s.at s.now prioBank (.personalityOperation c x.1) else s) s

/-- A member goes on: each thread issues the word that was due or waiting at the stop (R359). -/
def State.resumeCore (s : State) (c stopC : Nat) : State :=
  let by_ := s.now - stopC
  let wait := s.heldByRestart c
  let st0 := ((s.coreAt c).thread 0).stat
  let s := s.modCore c fun k =>
    { k with threads := k.threads.map fun x =>
        (x.1, match x.2.stat with
          | .stopped => if x.1 = 0 && wait then x.2 else { (x.2.moved by_).late by_ with stat := .run }
          | .ending => (x.2.moved by_).late by_
          | _ => x.2) }
  let s := if st0 == .trapped || (st0 == .stopped && wait) then s else (s.resumeTiles c stopC s.now).resumeMerge c stopC s.now
  ((((s.shiftStarts c by_).wakeCore c).wakeRoutine c).releaseDeposits c).wakeTrap c stopC

/-- The barriers of a group go on: a release whose cycle had not come is delivered 40 cycles on, and packets land (R324). -/
def State.resumeBarriers (s : State) (g : Nat) : State :=
  (s.groupAt g).domains.foldl (fun (s : State) x =>
    match x.2.phase with
    | 1 => s.releaseAt g x.1 (s.now + 40)
    | 2 =>
      let left := (List.range x.2.deliveries.length).filter fun i => !(x.2.deliveries.getD i {}).landed
      if left.isEmpty then s.releaseAt g x.1 (s.now + 40)
      else left.foldl (fun s i => s.laterBank (.exchangePacketLand g x.1 i)) s
    | 3 => s.endHold g x.1
    | _ => s) s

/-- Suspended operations go on from their offsets (R358, R359). -/
def State.resumeOps (s : State) (g : Nat) : State :=
  (s.ops.filter fun x => x.2.grp == g && x.2.suspended).foldl (fun s x =>
    (s.modOp x.1 fun e => { e with suspended := false }).later 0 (resumeEvent x.1 x.2)) s

/-- The coupled restarts of a group go on. -/
def State.resumeCoupled (s : State) (g stopC : Nat) : State :=
  (s.groupAt g).coupled.foldl (fun s x =>
    let q := x.2
    if !q.stopped then s.at (s.now + (q.stopC - stopC)) prioEngine (.coupledStop g q.dom)
    else if q.traps.all q.rst.contains then s.coupledDue g q
    else s) s

/-- Timed sends that had not landed land at their cycles from the moved anchors. -/
def State.resumeSends (s : State) (g by_ : Nat) : State :=
  let l := s.sends.filter fun x => x.2.grp == g && x.2.form != 2
  l.foldl (fun s x =>
    let t := x.2.lands + by_
    { s with sends := SMap.put s.sends x.1 { x.2 with lands := t } }.at t prioSend (.sendLanding x.1)) s

/-- What a group was told while it stood still: a rollback that it is to make, and that it may retire (R310, R331). -/
def State.recall (s : State) (g : Nat) : State :=
  let gr := s.groupAt g
  let s := if gr.rolls.isEmpty && gr.ue.isNone then s else s.callRollback g
  s.at s.now prioNet (.groupRetire g)

/-- A group that stood still goes on now. -/
def State.resumeGroup (s : State) (g : Nat) : State :=
  let gr := s.groupAt g
  let stopC := gr.stopC.getD s.now
  let s := s.modGroup g fun gr => { gr with st := .running, stopC := none, resumeAt := none }
  let s := gr.members.foldl (fun s c => s.resumeCore c stopC) s
  let s := (((s.resumeSends g (s.now - stopC)).resumeOps g).resumeBarriers g).resumeCoupled g stopC
  (s.recall g).settleContext gr.ctx

/-- RESUME_CYCLE: the groups of the context that are due go on (R359). -/
def execResumeCycle (x : Nat) (s : State) : Out :=
  .next ((s.groupsOf x).foldl (fun s g =>
    if (s.groupAt g).st == .stopped && (s.groupAt g).resumeAt == some s.now then s.resumeGroup g else s) s)

/-! Coupled restarts (R308, R408). -/

/-- A member of the domain stops: what its segment has begun is undone, and its first word's image is back. A member that has trapped goes
back with its RFT.rst. An entry that a read has freed is armed as the segment found it. -/
def State.coupledStopMember (s : State) (c : Nat) : State :=
  let s := s.modThread (.core c 0) fun th =>
    match s.segOf (.core c 0) th.pc with
    | some g => if th.stat == .run && th.seg != some g.first then th.takePoint g s.now else th
    | none => th
  let th := (s.coreAt c).thread 0
  let since := match th.restart with | some r => r.cyc | none => s.now
  let s := s.cancelEngs c since
  let s := s.modCore c fun k =>
    { k with armed := k.freed.foldl (fun l e => l.filter (fun x => x.1 != e.1) ++ [e]) k.armed, freed := [],
             lend := if k.lend.any fun l => l.seg.isSome then none else k.lend }
  if th.stat == .run then s.modThread (.core c 0) fun th => { th.restore with stat := .stopped, waiting := false } else s

/-- The arrivals that members have made since their segment began are taken back, whatever the phase of the domain has come to (R308): its release
and its packets do not come, and packets that were counted before the segment wait again for their XEND. -/
def State.takeBack (s : State) (g : Nat) (ms : List Nat) (j : Nat) : State :=
  let d := (s.groupAt g).domain j
  let since (c : Nat) : Nat := match ((s.coreAt c).thread 0).restart with | some r => r.cyc | none => s.now
  let gone (a : Arrival) : Bool := ms.contains a.core && decide (since a.core ≤ a.cyc)
  if !d.arrivals.any gone then s
  else
    let s := s.cancel fun e => match e with
      | .barrierRelease h i | .exchangePacketLand h i _ => h == g && i == j
      | _ => false
    let s := (d.arrivals.filter gone).foldl (fun s a =>
      s.modCore a.core fun k => { k with xputs := (a.packets ++ k.xputs).filter fun p => p.issued < since a.core }) s
    s.setDomain g j { d.idle with arrivals := d.arrivals.filter fun a => !gone a }

/-- COUPLED_STOP: every member of the domain stops, sends that would land later are discarded, and arrivals at the closing barrier are taken
back. -/
def execCoupledStop (g dom : Nat) (s : State) : Out :=
  let gr := s.groupAt g
  match SMap.find gr.coupled dom with
  | none => .next s
  | some q =>
    if q.stopped || !gr.st.meets then .next s
    else
      let d := gr.domain dom
      let ms := s.domainMembers g d
      let s := { s with sends := s.sends.filter fun x => !(ms.contains x.2.src && decide (s.now < x.2.lands)) }
      let s := gr.domains.foldl (fun s x => s.takeBack g ms x.1) s
      let s := ms.foldl (fun s c => s.coupledStopMember c) s
      let q := { q with stopped := true }
      let s := s.modGroup g fun gr => { gr with coupled := SMap.put gr.coupled dom q }
      .next (if q.traps.all q.rst.contains then s.coupledDue g q else s)

/-- COUPLED_RERELEASE: every member issues the segment's first word again, on one new cycle 0. -/
def execCoupledRerelease (g dom : Nat) (s : State) : Out :=
  let gr := s.groupAt g
  match SMap.find gr.coupled dom with
  | none => .next s
  | some q =>
    if !q.stopped || !gr.st.meets then .next s
    else
      let s := s.modGroup g fun gr => { gr with coupled := SMap.erase gr.coupled dom }
      let ms := s.domainMembers g (gr.domain dom)
      let s := ms.foldl (fun s c => s.resumeMerge c (if q.traps.contains c then q.last else q.stopC) s.now) s
      .next (ms.foldl (fun s c =>
        s.modThread (.core c 0) fun th =>
          if th.stat == .stopped then
            { th with stat := .run, anchor := s.now, notBefore := s.now, fresh := true, seg := none, dueAt := none, openTo := s.now - 1, prev := s.now }
          else th) s)

/-! Rollbacks (R331). -/

/-- A waiting scalar access moves. -/
def Acc.moved (x : Acc) (by_ : Nat) : Acc :=
  { x with arrive := x.arrive + by_, seen := x.seen + by_, undo := x.undo.map fun u => { u with thread := u.thread.moved by_ } }

/-- Everything in flight in a core's image moves to new cycles. -/
def Core.moved (k : Core) (by_ : Nat) : Core :=
  let vec (v : VecOp) : VecOp :=
    { v with next := v.next + by_, out := v.out.map fun e => (e.1 + by_, e.2), lands := v.lands.map (· + by_), least := v.least + by_ }
  { k with
    threads := mapVals (fun th => if th.stat == .trapped then { th with trap := th.trap.map fun r => { r with cyc := r.cyc + by_ } } else th.moved by_)
      k.threads,
    pend := k.pend.map fun w => { w with endC := w.endC + by_, commitC := w.commitC + by_ },
    vecs := mapVals vec k.vecs,
    engs := mapVals (fun e => { e with start := e.start + by_, issue := e.issue + by_, until_ := e.until_ + by_ }) k.engs,
    enNext := k.enNext.map fun e => (e.1 + by_, e.2),
    lend := k.lend.map fun l => { l with lo := l.lo + by_, hi := l.hi + by_ },
    merge := { k.merge with ready := k.merge.ready + by_, next := k.merge.next + by_ },
    acc := (k.acc.filter (·.scalar)).map (·.moved by_), served := [], rels := [], logged := [], replays := [] }

/-- Those of a core in the shared memory of its cluster. -/
def Cluster.moved (v : Cluster) (c by_ : Nat) : Cluster :=
  { v with pend := v.pend.map (fun w => if w.core = c then { w with endC := w.endC + by_, commitC := w.commitC + by_ } else w),
           acc := v.acc.map fun x => if x.core = c then x.moved by_ else x }

/-- The event that an engine operation of the matrix chapter waits for. -/
def engEvent (c q : Nat) (k : Core) (e : Eng) : Option (Nat × Instr) :=
  let busy := (k.tile e.tile).busy.contains q
  if e.kind == .held then some (if busy then (e.start, .productLanding c q) else (e.until_, .checksumVerdict c q))
  else if !e.started then some (e.start, if e.lent.isSome then .mcmdStart c q else .engineStart c q)
  else if e.phase < 3 then none
  else if busy then (if e.kept.isEmpty || e.replay then some (e.landC, .productLanding c q) else some (e.until_, .productReplay c q))
  else some (e.landC + 8, .checksumVerdict c q)

/-- The events of everything in flight in a core are on the agenda again. -/
def State.reschedule (s : State) (c : Nat) : State :=
  let k := s.coreAt c
  let up (t : Nat) : Nat := max t s.now
  let s := k.pend.foldl (fun s w => s.at (up w.commitC) (prioCommit + w.who) (.counterproofCommit (.core c) w.id)) s
  let s := ((s.clusterAt (clusterOf c)).pend.filter fun w => w.core == c).foldl (fun s w =>
    s.at (up w.commitC) (prioCommit + w.who) (.counterproofCommit (.cluster (clusterOf c)) w.id)) s
  let s := k.vecs.foldl (fun s x => s.at s.now x.2.prio (.vectorRowStep c x.1)) s
  let s := k.engs.foldl (fun s x => match engEvent c x.1 k x.2 with | some (t, ev) => s.at (up t) prioEngine ev | none => s) s
  let s := k.reqs.foldl (fun (s : State) x =>
    match x.2.op with
    | .pers _ _ _ | .span _ =>
      if x.2.performed && x.2.fail.isNone then s.at (s.now + 1) prioEngine (.bankChangeEnd c x.1)
      else s.at (s.now + 1) (prioBank + x.2.who) (.bankChangePerform c x.1)
    | _ => if x.2.performed then s else s.at (s.now + 1) (prioBank + x.2.who) (.personalityOperation c x.1)) s
  let s := s.wakeCore c
  let s := if k.merge.st = 1 then s.at s.now prioBank (.mergeDecision c) else s
  s.wakeTrap c s.now

/-- The latest proof is restored: held writes and what the group has in flight are discarded, and every member, its cluster's shared
memory and its engine operations are as they stood on the proof's release (R331). -/
def State.restoreProof (s : State) (g : Nat) (p : Proof) : State :=
  let gr := s.groupAt g
  let ops := (s.ops.filter fun x => x.2.grp == g).map (·.1)
  let s := s.cancel fun e =>
    ((eventOp e).any fun o => ops.contains o) || ((eventCore e).any fun c => gr.members.contains c) ||
      (eventGroup e == some g && !(match e with | .rollback _ | .rollbackRelease _ | .stopAtCycle _ => true | _ => false))
  let reqs := s.reqThreads.filter fun x => !ops.contains x.2.op
  let s : State := { s with
    sends := s.sends.filter fun x => x.2.grp != g,
    reqThreads := p.reqThreads.foldl (fun (m : SMap ReqThread) x => SMap.put m x.1 x.2) reqs,
    ops := p.ops.foldl (fun (m : SMap EngOp) x => SMap.put m x.1 { x.2 with suspended := true }) (s.ops.filter fun x => x.2.grp != g),
    clusters := mapVals (fun k =>
      { k.drop gr.members with pend := k.pend.filter (fun w => !gr.members.contains w.core), acc := k.acc.filter fun x => !gr.members.contains x.core })
      s.clusters }
  let s : State := p.images.foldl (fun (s : State) i => s.modCore i.at_ fun k => { i.core with inj := k.inj, rot := k.rot, tvec := k.tvec, logged := [] }) s
  let s : State := p.shared.foldl (fun (s : State) i => s.modCluster i.at_ fun k =>
    { k with mem := i.mem, pend := k.pend ++ i.pend, acc := k.acc ++ i.acc.filter (·.scalar), claims := [], logged := [] }) s
  s.modGroup g fun gr => { gr with hold := [], granules := [], taking := [], coupled := [],
                                   domains := p.domains.map fun x =>
                                     (x.1, if x.1 = p.dom then x.2.idle else if x.2.phase = 3 then { x.2 with phase := 2 } else x.2) }

/-- ROLLBACK_RELEASE: the repeated superstep begins with a new release on one cycle for every member. -/
def execRollbackRelease (g : Nat) (s : State) : Out :=
  let gr := s.groupAt g
  match gr.st, gr.proof with
  | .rollingBack, some p =>
    let by_ := s.now - p.cyc
    let s := s.modGroup g fun gr => { gr with st := .running, stopC := none, rolls := [], ue := none }
    let s := gr.members.foldl (fun s c =>
      (s.modCore c fun k =>
        let k := k.moved by_
        match SMap.find p.rels c with
        | some r => { k with rels := SMap.put k.rels p.dom { r with cyc := s.now } }
        | none => k).modCluster (clusterOf c) (·.moved c by_)) s
    let s := gr.members.foldl (fun s c => s.reschedule c) s
    let s := (s.resumeOps g).resumeBarriers g
    let s := gr.rolls.foldl (fun s o => s.at s.now prioNet (.engineOperationComplete o)) s
    .next (s.settleContext gr.ctx)
  | _, _ => .next s

/-! New maps (R316 to R319). -/

/-- An event of a core that has moved. -/
def moveEvent (f : Nat → Nat) (fk : Nat → Nat) : Instr → Instr
  | .resultLanding (.core c t) => .resultLanding (.core (f c) t)
  | .counterproofCommit (.core c) q => .counterproofCommit (.core (f c)) q
  | .counterproofCommit (.cluster k) q => .counterproofCommit (.cluster (fk k)) q
  | .counterproofMismatch c t w l => .counterproofMismatch (f c) t w l
  | .vectorRowStep c q => .vectorRowStep (f c) q
  | .engineStart c q => .engineStart (f c) q
  | .productLanding c q => .productLanding (f c) q
  | .checksumVerdict c q => .checksumVerdict (f c) q
  | .productReplay c q => .productReplay (f c) q
  | .personalityOperation c q => .personalityOperation (f c) q
  | .bankChangePerform c q => .bankChangePerform (f c) q
  | .bankChangeEnd c q => .bankChangeEnd (f c) q
  | .trapContextStart c => .trapContextStart (f c)
  | .helperGrant c => .helperGrant (f c)
  | .routineDispatch c => .routineDispatch (f c)
  | .budgetRefill c => .budgetRefill (f c)
  | .depositArrival c j v => .depositArrival (f c) j v
  | .burinTrigger c row => .burinTrigger (f c) row
  | .mergeDecision c => .mergeDecision (f c)
  | .mcmdStart c q => .mcmdStart (f c) q
  | e => e

def moveAgent (f : Nat → Nat) : Agent → Agent
  | .core c t => .core (f c) t
  | a => a

def moveTurn (f : Nat → Nat) : Turn → Turn
  | .thr c t => .thr (f c) t
  | .grant c => .grant (f c)
  | t => t

/-- Front ends that a core's own state names. -/
def Core.renamed (k : Core) (f : Nat → Nat) : Core :=
  { k with pend := k.pend.map (fun w => { w with core := f w.core }), acc := k.acc.map (fun x => { x with core := f x.core }), xputs := k.xputs.map fun p => { p with target := f p.target } }

def Domain.renamed (d : Domain) (f : Nat → Nat) : Domain :=
  { d with
    arrivals := d.arrivals.map (fun a => { a with core := f a.core, packets := a.packets.map fun p => { p with target := f p.target } }),
    deliveries := d.deliveries.map fun x => { x with src := f x.src, dst := f x.dst } }

def Image.renamed (i : Image) (f : Nat → Nat) : Image := { i with at_ := f i.at_, core := i.core.renamed f }
def SharedImage.renamed (i : SharedImage) (f fk : Nat → Nat) : SharedImage :=
  { i with at_ := fk i.at_, pend := i.pend.map (fun w => { w with core := f w.core }), acc := i.acc.map fun x => { x with core := f x.core } }

def renameOps (f : Nat → Nat) (g : Nat) (m : SMap EngOp) : SMap EngOp :=
  m.map fun x => if x.2.grp == g then (x.1, { x.2 with agent := moveAgent f x.2.agent, core := f x.2.core, tgt := f x.2.tgt, sigTgt := f x.2.sigTgt }) else x

def Proof.renamed (p : Proof) (f fk : Nat → Nat) (g : Nat) : Proof :=
  { p with
    rels := p.rels.foldl (fun m x => SMap.put m (f x.1) x.2) [], images := p.images.map (·.renamed f), shared := p.shared.map (·.renamed f fk),
    ops := renameOps f g p.ops, domains := mapVals (fun d => d.renamed f) p.domains }

def Group.renamed (gr : Group) (f fk : Nat → Nat) (g : Nat) : Group :=
  { gr with
    map := gr.map.map fk, members := gr.members.map f, domains := mapVals (fun d => d.renamed f) gr.domains,
    proof := gr.proof.map fun p => p.renamed f fk g,
    saved := gr.saved.map (·.renamed f), savedShared := gr.savedShared.map (·.renamed f fk),
    coupled := mapVals (fun q => { q with traps := q.traps.map f, rst := q.rst.map f }) gr.coupled }

/-- A group's own record, its operations and its sends name the new front ends and clusters. -/
def State.renameData (s : State) (g : Nat) (f fk : Nat → Nat) : State :=
  let s := s.modGroup g fun gr => gr.renamed f fk g
  { s with ops := renameOps f g s.ops,
           sends := s.sends.map fun x => if x.2.grp == g then (x.1, { x.2 with src := f x.2.src, dst := f x.2.dst }) else x }

/-- Everything of a group that names its front ends and clusters names the new ones. -/
def State.renameGroup (s : State) (g : Nat) (f fk : Nat → Nat) : State :=
  let ms := (s.groupAt g).members
  let s := s.renameData g f fk
  let ev (e : Entry) : Entry :=
    let mine := (eventCore e.ev).any ms.contains || (match e.ev with | .counterproofCommit (.cluster _) _ | .mcmdStart _ _ => true | _ => false)
    if mine then { e with ev := moveEvent f fk e.ev } else e
  { s with agenda := s.agenda.map ev, todo := s.todo.map (moveTurn f), cur := moveAgent f s.cur }

/-- Cores move to other front ends, each with the contents that a CTXSAVE would save, and whole shared memories to other clusters (R316). What
belongs to a front end stays. -/
def State.moveCores (s : State) (g : Nat) (f fk : Nat → Nat) : State :=
  let gr := s.groupAt g
  let olds := gr.members.map fun c => (c, s.coreAt c)
  let ks := gr.map.map fun k => (k, s.clusterAt k)
  let s := olds.foldl (fun s x => if f x.1 = x.1 then s else s.modCore x.1 Core.cleared) s
  let s := olds.foldl (fun s x =>
    if f x.1 = x.1 then s.modCore x.1 fun k => k.renamed f
    else s.modCore (f x.1) fun fe => { x.2.renamed f with inj := fe.inj, rot := fe.rot, tvec := fe.tvec }) s
  let s := ks.foldl (fun s x => if fk x.1 = x.1 then s else s.setCluster x.1 {}) s
  let s := ks.foldl (fun s x => if fk x.1 = x.1 then s else s.setCluster (fk x.1) { x.2 with
    pend := x.2.pend.map (fun w => { w with core := f w.core }), acc := x.2.acc.map (fun y => { y with core := f y.core }), heldDeps := x.2.heldDeps.map fun d => (f d.1, d.2) }) s
  s.renameGroup g f fk

/-- The places of a group's clusters under its pending moves: logical cluster `l` is at `map[l]`. -/
def Group.newMap (gr : Group) : List Nat := gr.moves.foldl (fun m x => m.set x.1 x.2) gr.map

/-- Where a core of a cluster that moves goes: the placement unit of the same rank in the new column. -/
def unitMove (old new : List (List Nat)) (c : Nat) : Nat :=
  match (old.zip new).findSome? fun p => (p.1.zip p.2).find? fun q => q.1 == c with
  | some q => q.2
  | none => c

/-- The front end is a spare: its halves serve no core (R15). Those of row 16 are the spares after reset. -/
def State.spare (s : State) (fe : Nat) : Bool :=
  match SMap.find s.bindings fe with
  | some b => b.parked
  | none => feY fe == 16

/-- The gangs that stand, from the placement of their group on: front end, width and group (R16, R310). -/
def State.gangs (s : State) : List (Nat × Nat × Nat) :=
  s.groups.flatMap fun x => if x.2.st.holds && x.2.width != 1 then x.2.members.map fun c => (c, x.2.width, x.1) else []

/-- The front end lies above a position that a gang absorbs, in a column that holds cores of ganged width (R16, R313). -/
def State.absorbed (s : State) (fe : Nat) : Bool :=
  s.gangs.any fun u => u.1 != fe && ((gangSlabs u.1 u.2.1).contains fe ||
    (feStack fe == feStack u.1 && ((feX fe == feX u.1 && feY fe % 2 == 1) || (feX fe == feX u.1 && feY fe == 16) ||
      (u.2.1 == 4 && feX fe == feX u.1 + 1))))

/-- The front end is parked: it holds no context (R15, R16). -/
def State.parked (s : State) (fe : Nat) : Bool := s.spare fe || s.absorbed fe

/-- The front ends in whose neighbourhood a slab lies (R13). -/
def reachedFrom (slab : Nat) : List Nat :=
  let st := feStack slab
  let x := feX slab
  let y := feY slab
  [(0, 0), (1, 0), (0, 1), (1, 1)].filterMap fun d => if d.1 ≤ x && d.2 ≤ y then some (feKey st (x - d.1) (y - d.2)) else none

/-- The front end that a half is bound to: a standing gang, or a front end that has it and is no spare (R14, R16). -/
def State.boundTo (s : State) (h : Nat) : Option Nat :=
  match s.gangs.find? fun u => (gangSlabs u.1 u.2.1).contains (h / 2) with
  | some u => some u.1
  | none => (reachedFrom (h / 2)).find? fun fe => !s.spare fe && (s.halvesOf fe 1).contains h

/-- The group whose core a front end holds, from the group's placement on. -/
def State.groupOn (s : State) (fe : Nat) : Option Nat :=
  match (s.coreAt fe).grp with
  | some g => some g
  | none => (s.groups.find? fun x => x.2.st.holds && x.2.members.contains fe).map (·.1)

/-- The front end is active and has a good west half and a good east half (R15). -/
def State.ready (s : State) (fe : Nat) : Bool :=
  !s.parked fe && (s.halfSlots fe 1).all fun h => match h with | some h => SMap.get 0 s.bins h != 3 | none => false

/-- Both halves of a slab are good. -/
def State.slabGood (s : State) (fe : Nat) : Bool := SMap.get 0 s.bins (fe * 2) != 3 && SMap.get 0 s.bins (fe * 2 + 1) != 3

/-- A gang may take a slab: both halves are good, and no front end outside the gang's columns has one of them (R14, R16). -/
def State.slabFree (s : State) (columns : List Nat) (fe : Nat) : Bool :=
  s.slabGood fe && [fe * 2, fe * 2 + 1].all fun h =>
    match s.boundTo h with
    | none => true
    | some f => columns.contains (clusterOf f)

/-- The placement units of a physical cluster, as front ends, in ascending y (R313, R314). -/
def State.unitsOf (s : State) (k width : Nat) : List Nat :=
  let st := k / 16
  let p := k % 16
  if width = 1 then ((List.range 17).map (feKey st p ·)).filter s.ready
  else if width = 4 && p % 2 = 1 then []
  else ((List.range 8).map fun i => feKey st p (2 * i)).filter fun fe => (gangSlabs fe width).all (s.slabFree (if width = 4 then [k, k + 1] else [k]))

/-- A physical cluster that no group holds, or that `but` says is vacated, and that no pending move takes; a group of width 4 holds two
columns for each of its clusters (R311, R313). -/
def State.clusterFree (s : State) (k : Nat) (but : List Nat) : Bool :=
  let on (x : Group) (k : Nat) : Bool := (x.map.contains k && !but.contains k) || (x.moves ++ x.deferred).any fun m => m.2 == k
  !(s.groups.any fun x => x.2.st.holds && (on x.2 k || (x.2.width == 4 && k % 2 == 1 && on x.2 (k - 1))))

/-- A logical cluster of `n` cores fits there (R314). -/
def State.clusterFits (s : State) (k n width : Nat) (but : List Nat) : Bool :=
  s.clusterFree k but && (width != 4 || s.clusterFree (k + 1) but) && decide (n ≤ (s.unitsOf k width).length)

/-- The front ends of a group's cores, cluster by cluster. -/
def Group.tables (gr : Group) : List (List Nat) :=
  (List.range gr.map.length).map fun i => (gr.members.drop (i * gr.cpc)).take gr.cpc

/-- The core tables after the pending moves: a cluster that moves takes the placement units of its new column in ascending y (R313). -/
def newTables (s : State) (gr : Group) : List (List Nat) :=
  (List.range gr.map.length).map fun i =>
    let k := gr.newMap.getD i 0
    if k = gr.map.getD i 0 then gr.tables.getD i [] else (s.unitsOf k gr.width).take gr.cpc

/-- Of pending moves, those after which no logical stack is split over two physical ones, each to a cluster that is free or that another of them
vacates; `n` bounds the moves (R314, R316). -/
def movesTogether (s : State) (gr : Group) : Nat → List (Nat × Nat) → List (Nat × Nat)
  | 0, _ => []
  | n + 1, l =>
    let q := clustersPerStack gr.width
    let new := { gr with moves := l }.newMap
    let gone := l.map fun m => gr.map.getD m.1 0
    let good := l.filter fun m =>
      s.clusterFits m.2 gr.cpc gr.width gone && ((List.range gr.cls).all fun i => i / q != m.1 / q || new.getD i 0 / 16 == m.2 / 16)
    if good.length = l.length then l else movesTogether s gr n good

/-- The pending moves of a group that its next map change makes. One that would split a logical stack, or whose cluster is not free, stays pending
(DESIGN CHOICE, log entry 64). -/
def State.movesDue (s : State) (g : Nat) : List (Nat × Nat) :=
  let gr := s.groupAt g
  movesTogether (s.setGroup g { gr with moves := [], deferred := [] }) gr (gr.moves.length + 1) gr.moves

/-- MAP_CHANGE_BEGIN: every NI of the group takes the next version, and the copy starts (R316). -/
def execMapChangeBegin (g : Nat) (s : State) : Out :=
  let gr := s.groupAt g
  let now := s.movesDue g
  if gr.st != .running || now.isEmpty then .next s
  else
    .next ((s.setGroup g { gr with st := .changingMap, mapv := gr.mapv + 1, copying := true, copyDom := 0, moves := now,
                                   deferred := gr.moves.filter fun m => !now.contains m }).later 0 (.mapCopyComplete g))

/-- A request of the group that carries an older map version is still under way (R317). -/
def staleRequests (s : State) (g : Nat) : Bool :=
  let v := (s.groupAt g).mapv
  s.ops.any fun x =>
    x.2.grp == g && x.2.st == .running && !x.2.performed && x.2.cause.isNone && x.2.mapv != v &&
      (x.2.logical || (match x.2.kind with | .amsg | .mcmd => true | .tkpost => !x.2.toHub | _ => false))

/-- MAP_COPY_COMPLETE: once every stale request is settled, the moved clusters stand at their new places, and a release that waits for them falls
due 40 cycles on (R316, R317, R322). -/
def execMapCopyComplete (g : Nat) (s : State) : Out :=
  let gr := s.groupAt g
  if !gr.copying then .next s
  else if staleRequests s g then .next (s.at (s.now + 1) prioEngine (.mapCopyComplete g))
  else
    let place (k : Nat) : Nat := match (gr.map.zip gr.newMap).find? fun x => x.1 == k with | some x => x.2 | none => k
    let s := s.moveCores g (unitMove gr.tables (newTables s gr)) place
    let s := s.modGroup g fun gr => { gr with copying := false, moves := gr.deferred, deferred := [] }
    let s := s.endHold g gr.copyDom
    .next (s.at s.now prioNet .heldPlacementRetry)

end Sys2Proof.Machine
end

