-- ==== Sys2Proof/Machine/Launch.lean ====
section
/-! DEFINITION. The launch sequencer: which record it takes (R339, R340), the reading and the check of a kernel image (R297 to R304),
placement and the start of a group (R312 to R315, R365), its retirement (R337, R342), and the host's launch window (R341, R385). -/

namespace Sys2Proof.Machine

/-! Service of the launch queues (R338 to R340). -/

/-- A record's effective priority on cycle `now` (R339). -/
def Group.eff (g : Group) (now : Nat) : Nat := min 7 (g.prio + (now - g.queuedAt) / 4096)

/-- A saved group whose context is being loaded, or a checked launch, that waits for clusters (R340, R359). -/
def Group.held (g : Group) : Bool := g.heldPlace && (g.st == .pending || g.st == .saved)

/-- The sequencer is at work on a record that it has dequeued. -/
def sequencerBusy (s : State) : Bool := s.groups.any fun x => x.2.st == .pending && x.2.dequeued && !x.2.heldPlace

/-- A context's records are served unless it is Free, Saved or Killed (R346). -/
def Context.served (c : Context) : Bool := c.st == 1 || c.st == 2 || c.st == 3

/-- The group waits for placement, and its context is served (R340, R346). -/
def State.holdsPlace (s : State) (g : Group) : Bool := g.held && (s.contextAt g.ctx).served

/-- A held record that has aged to the end is reserved (R340). -/
def State.reserved (s : State) (g : Group) : Bool := s.holdsPlace g && g.eff s.now == 7

/-- The head of a launch queue: its oldest Queued record, unless a held record of the queue is before it (R339, R340). -/
def queueHead (s : State) (x q : Nat) : Option Nat :=
  match (((s.contextAt x).queue q).recs).find? fun g => !(s.groupAt g).waiting with
  | none => none
  | some g =>
    if s.groups.any fun y => y.2.ctx == x && y.2.queue == q && y.2.st == .pending && y.2.held && decide (y.2.order < (s.groupAt g).order) then none
    else some g

/-- The heads of all launch queues that are served, by context and queue. -/
def queueHeads (s : State) : List Nat :=
  s.contexts.flatMap fun x => if x.2.served then (List.range 8).filterMap (queueHead s x.1 ·) else []

/-- Of two candidates, the one to take first: greater eff, earlier queued, lower context, lower queue. -/
def takenFirst (now : Nat) (x y : Group) : Bool :=
  let a := x.eff now
  let b := y.eff now
  decide (b < a) || (a == b && (decide (x.queuedAt < y.queuedAt) ||
    (x.queuedAt == y.queuedAt && (decide (x.ctx < y.ctx) || (x.ctx == y.ctx && decide (x.queue < y.queue))))))

/-- The candidate that the sequencer takes. -/
def bestOf (s : State) : List Nat → Option Nat
  | [] => none
  | g :: rest =>
    match bestOf s rest with
    | none => some g
    | some h => if takenFirst s.now (s.groupAt h) (s.groupAt g) then some h else some g

/-- The groups that wait for placement. -/
def heldGroups (s : State) : List Nat := (s.groups.filter fun x => s.holdsPlace x.2).map (·.1)

/-! Placement (R312 to R315). -/

/-- Physical clusters of a stack on which a logical cluster of the record fits, in ascending number. -/
def fitting (s : State) (gr : Group) (stack : Nat) : List Nat :=
  ((List.range 16).map (stack * 16 + ·)).filter fun k => s.clusterFits k gr.cpc gr.width []

/-- Each logical stack takes the lowest physical stack that is left and holds its clusters, and the lowest clusters of it: `need` is how
many each logical stack needs. -/
def placeStacks (s : State) (gr : Group) : List Nat → List Nat → Option (List Nat)
  | [], _ => some []
  | n :: need, left =>
    match left.find? fun st => decide (n ≤ (fitting s gr st).length) with
    | none => none
    | some st => (placeStacks s gr need (left.filter (· != st))).map fun l => (fitting s gr st).take n ++ l

/-- Clusters of each logical stack (R312). -/
def Group.stacks (gr : Group) : List Nat :=
  let q := clustersPerStack gr.width
  (List.range ((gr.cls + q - 1) / q)).map fun i => min q (gr.cls - i * q)

/-- The physical cluster of each logical cluster, where the group can be placed now (R314). -/
def placementOf (s : State) (gr : Group) : Option (List Nat) := placeStacks s gr gr.stacks [0, 1, 2, 3]

/-- The front ends of the group's cores, by rank, on these clusters (R313, R315). -/
def membersOn (s : State) (gr : Group) (map : List Nat) : List Nat := map.flatMap fun k => (s.unitsOf k gr.width).take gr.cpc

/-- Another record is reserved: no other is placed (R340). -/
def reservedOther (s : State) (g : Nat) : Bool := s.groups.any fun x => x.1 != g && s.reserved x.2

/-- LAUNCH_DECISION (R339, R340): a reserved record goes first; else the best of the queue heads and of the held records that fit. -/
def execLaunchDecision (s : State) : Out :=
  if s.hub.ckGo || sequencerBusy s then .next s
  else
    let held := heldGroups s
    let reserved := held.filter fun g => s.reserved (s.groupAt g)
    let fits := held.filter fun g => (placementOf s (s.groupAt g)).isSome
    let oldest := reserved.foldl (fun r g => match r with
      | none => some g
      | some h => if (s.groupAt g).queuedAt < (s.groupAt h).queuedAt then some g else r) none
    match oldest with
    | some g => .next (if fits.contains g then s.at s.now prioNet (.placement g) else s)
    | none =>
      match bestOf s (queueHeads s ++ fits) with
      | none => .next s
      | some g =>
        let gr := s.groupAt g
        if s.holdsPlace gr then .next (s.at s.now prioNet (.placement g))
        else
          let v := (s.contextAt gr.ctx).queue gr.queue
          let s := s.setQueue gr.ctx gr.queue { v with recs := v.recs.filter (· != g) }
          .next ((s.setGroup g { gr with dequeued := true }).later 1 (.kernelCheck g))

/-! Reading an image (R297). -/

/-- What a read of Checking gives. -/
inductive Fetched where
  | ok (bs : List Byte) (s : State)
  | fail (cause : Nat) (s : State)
  | wait (s : State)

/-- The bytes at a place that a translation has found. -/
def fetchAt (s : State) (x g va pa tgt n : Nat) (p : Page) : Fetched :=
  let peer := hostSelect pa
  if tgt = 6 && decide (2 ≤ peer) then
      let cause := s.peerAnswer
      let (bs, s) := s.freeBytes n
      if peer = 0xFFF || peer = s.hub.fnum.toNat then .fail 0x142 s
      else if (s.peerLink peer pa).isNone then .fail 0x186 s
      else if cause != 0 then .fail cause s
      else .ok bs s
  else
    match s.tagFrame tgt pa p.ct with
    | none => .fail 0x144 s
    | some s =>
      let s := s.mapFrame tgt pa x va
      match (if p.ct = 3 then s.ownFrame tgt pa x else some s) with
      | none => .fail 0x147 s
      | some s =>
        if p.ct = 2 && s.unwritten g (frameKey tgt pa) n then .wait s
        else if tgt = 6 then .ok (memRead s.host pa n) s
        else if s.poison.any fun e => decide (pa / 8 ≤ e.1) && decide (e.1 * 8 < pa + n) then .fail 0x281 s
        else
          let s := s.rekey (s.keyOf p.key) pa n
          .ok (memRead s.phys pa n) s

/-- The read of an image has met a demand page that is not filled: a record goes to the fault buffer, once, and the read waits; or the fault
service has ended it with a cause (R297, R374). -/
def fetchFault (s : State) (x g va : Nat) : Fetched :=
  match (s.groupAt g).fault with
  | some n => .fail n (s.modGroup g fun gr => { gr with fault := none })
  | none =>
    if (s.hub.faults ++ s.hub.heldFaults).any fun r => r.grp == some g then .wait s
    else .wait (s.holdFault { grp := some g, ctx := x, va := va })

/-- One piece of a read, within one channel stripe. -/
def fetchPiece (s : State) (x g va n kind : Nat) : Fetched :=
  match translate s x va kind with
  | .page pa tgt p s => fetchAt s x g va pa tgt n p
  | .fail c => .fail c s
  | .demand => fetchFault s x g va
  | .swap _ | .wait => .wait s

/-- Read `n` bytes of a context's virtual memory for the image of a group, stripe by stripe; `fuel` bounds the stripes. -/
def fetchVa (x g kind : Nat) : Nat → Nat → Nat → State → Fetched
  | 0, _, _, s => .ok [] s
  | fuel + 1, va, n, s =>
    if n = 0 then .ok [] s
    else
      let k := min n (2048 - va % 2048)
      match fetchPiece s x g (va % 2 ^ 56) k kind with
      | .ok bs s =>
        (match fetchVa x g kind fuel (va + k) (n - k) s with
         | .ok more s => .ok (bs ++ more) s
         | r => r)
      | r => r

/-- Read a range. -/
def State.fetchRange (s : State) (x g kind va n : Nat) : Fetched := fetchVa x g kind (n / 2048 + 2) va n s

/-! The image (R298 to R303). -/

/-- Eight-byte word `i` of a table. -/
def tableWord (bs : List Byte) (i : Nat) : Nat := leNat ((bs.drop (8 * i)).take 8)
/-- Bits of a word of a table. -/
def tableBits (bs : List Byte) (i lo n : Nat) : Nat := tableWord bs i / 2 ^ lo % 2 ^ n

/-- The header of an image (R298). -/
structure Header where
  nst : Nat
  codeW : Nat
  plOff : Nat
  codeOff : Nat
  ldrOff : Nat
  ldrW : Nat
  strOff : Nat
  strW : Nat
  ringOff : Nat
  segOff : Nat
  segN : Nat
  deriving DecidableEq, Repr

def headerOf (bs : List Byte) : Header :=
  let f := tableBits bs
  { nst := f 0 36 4 + 1, codeW := f 0 0 32, plOff := f 1 32 32, codeOff := f 1 0 32, ldrOff := f 2 32 32, ldrW := f 2 16 16,
    strOff := f 3 32 32, strW := f 3 16 16, ringOff := f 4 32 32, segOff := f 4 0 32, segN := f 5 0 16 }

/-- A field of the header is out of range, or a reserved field is not zero. -/
def headerBad (bs : List Byte) : Bool :=
  let f := tableBits bs
  let h := headerOf bs
  f 0 48 16 != 0x4B49 || f 0 40 8 != 1 || f 0 32 4 != 0 || h.codeW == 0 || decide (8192 < h.codeW) || h.plOff % 64 != 0 ||
    h.codeOff % 64 != 0 || decide (1024 < h.ldrW) || f 2 0 16 != 0 || decide (1024 < h.strW) || f 3 0 16 != 0 || f 5 16 48 != 0 ||
    decide (4096 < h.segN) || tableWord bs 6 != 0 || tableWord bs 7 != 0

/-- Words of the loader and of the storer program: offset 0 names none (R298). -/
def Header.loaderWords (h : Header) : Nat := if h.ldrOff = 0 then 0 else h.ldrW
def Header.storerWords (h : Header) : Nat := if h.strOff = 0 then 0 else h.strW

/-- The image that a header describes as far as its counts are in range: what is read before any field is judged (R300). -/
def Header.readable (h : Header) : Header := { h with codeW := min h.codeW 8192, ldrW := min h.ldrW 1024, strW := min h.strW 1024, segN := min h.segN 4096 }

/-- The tables that the header places: offset and bytes. -/
def Header.tables (h : Header) : List (Nat × Nat) :=
  [(h.codeOff, 12 * h.codeW), (h.plOff, 64 * h.nst), (h.ldrOff, 12 * h.loaderWords), (h.strOff, 12 * h.storerWords),
   (h.ringOff, if h.ringOff = 0 then 0 else 64), (h.segOff, 8 * h.segN)]

/-- The state table's entry `i`: SWN, SWOFF, SLN, SLOFF and the rest (R301). -/
structure StateEntry where
  cap : Nat
  resv : Nat
  entry : Nat
  swN : Nat
  swOff : Nat
  slN : Nat
  slOff : Nat
  deriving DecidableEq, Repr

def stateEntry (bs : List Byte) : StateEntry :=
  let f := tableBits bs
  { cap := f 0 0 32, resv := f 1 32 32, entry := f 1 0 32, swN := f 2 32 16, swOff := f 2 0 32, slN := f 3 32 16, slOff := f 3 0 32 }

def stateEntryBad (bs : List Byte) : Bool :=
  let f := tableBits bs
  f 0 32 32 != 0 || f 2 48 16 != 0 || f 3 48 16 != 0 || decide (4096 < f 2 32 16) || (bs.drop 32).any (· != 0)

/-- The tables of a state. -/
def StateEntry.tables (e : StateEntry) : List (Nat × Nat) := [(e.swOff, 16 * e.swN), (e.slOff, 8 * e.slN)]

/-- Entries of `size` bytes of a table. -/
def entriesOf (bs : List Byte) (size n : Nat) : List (List Byte) := (List.range n).map fun i => (bs.drop (size * i)).take size

def switchOf (bs : List Byte) : Switch :=
  let f := tableBits bs
  { anw := f 0 32 32, k := f 0 16 16, src := f 0 0 2, cont := f 1 0 32 }
def switchBad (bs : List Byte) : Bool := let f := tableBits bs; f 0 16 16 == 0 || f 0 2 14 != 0 || f 1 32 32 != 0

def slotOf (bs : List Byte) : Slot :=
  let f := tableBits bs
  { k := f 0 48 16, cyc := f 0 32 16, snd := f 0 22 10, tgt := f 0 12 10 }
def slotBad (bs : List Byte) : Bool := tableBits bs 0 0 12 != 0

def segOfEntry (bs : List Byte) : Seg :=
  let f := tableBits bs
  { first := f 0 32 32, nw := f 0 8 24, coup := f 0 0 1 == 1 }
def segBad (bs : List Byte) : Bool := let f := tableBits bs; f 0 8 24 == 0 || f 0 1 7 != 0

/-- Two byte ranges share a byte. -/
def rangesMeet (x y : Nat × Nat) : Bool := x.2 != 0 && y.2 != 0 && decide (x.1 < y.1 + y.2) && decide (y.1 < x.1 + x.2)

/-- Two of the ranges meet. -/
def someMeet : List (Nat × Nat) → Bool
  | [] => false
  | x :: rest => rest.any (rangesMeet x ·) || someMeet rest

/-- Check 2: a table lies in the header or overlaps another. -/
def tablesBad (l : List (Nat × Nat)) : Bool := someMeet ((0, 64) :: l)

/-- Bytes of a range as sparse memory. -/
def memOfBytes : Nat → List Byte → Memory
  | _, [] => []
  | a, b :: rest => if b = unwritten then memOfBytes (a + 1) rest else (a, b) :: memOfBytes (a + 1) rest

/-! The checks on what has been read (R300). -/

/-- The numbers rise strictly. -/
def strictlyRising : List Nat → Bool
  | x :: y :: rest => decide (x < y) && strictlyRising (y :: rest)
  | _ => true

/-- No number stands twice. -/
def allDistinct : List Nat → Bool
  | [] => true
  | x :: rest => !rest.contains x && allDistinct rest

/-- The states list the same anchor numbers, each with one SRC (check 4). -/
def anchorsAgree (l : List PlateState) : Bool :=
  let keys (p : PlateState) : List (Nat × Nat) := p.switches.map fun e => (e.k, e.src)
  match l with
  | [] => true
  | p :: rest => rest.all fun q => (keys p).all (keys q).contains && (keys q).all (keys p).contains

/-- Rows of a ring: the first, and how many. -/
def ringRows (w : Word) : Nat × Nat := ((w.toNat / 2 ^ 24) % 2 ^ 16, (w.toNat / 2 ^ 20 % 16) * (w.toNat / 2 ^ 12 % 256))

/-- A reserved field of a ring-table entry is not zero (check 1). -/
def ringReserved (w : Word) : Bool := w.toNat / 2 ^ 40 != 0 || w.toNat % 4096 != 0

/-- A ring-table entry that breaks R130 or R299, or lies outside rows 0 to 0x0FFE of own local memory (check 6). -/
def ringBad (w : Word) : Bool :=
  let n := w.toNat
  let st := n / 2 ^ 20 % 16
  if st = 0 then n / 2 ^ 12 % 2 ^ 28 != 0
  else
    let (base, rows) := ringRows w
    st == 1 || decide (8 < st) || n / 2 ^ 12 % 256 == 0 || decide (0x0FFF < base + rows)

/-- The segments rise and do not overlap (check 8). -/
def segmentsRise : List Seg → Bool
  | x :: y :: rest => decide (x.first + x.nw ≤ y.first) && segmentsRise (y :: rest)
  | _ => true

/-- The first of checks 3 to 9 that a kernel fails. -/
def kernelFault (k : Kernel) (allow size : Nat) : Option Nat :=
  let out (w : Nat) : Bool := decide (k.codeW ≤ w)
  if !strictlyRising (k.states.map (·.cap)) then some 3
  else if !anchorsAgree k.states then some 4
  else if k.states.any (fun p => out p.entry || p.switches.any fun e => out e.anw || out e.cont) ||
      k.segs.any (fun g => decide (k.codeW < g.first + g.nw)) then some 5
  else if k.rings.any ringBad || someMeet (k.rings.map ringRows) then some 6
  else if k.states.any fun p => decide (allow < p.resv) then some 7
  else if k.states.any (fun p => !allDistinct (p.switches.map (·.anw)) || !allDistinct (p.switches.map (·.k))) || !segmentsRise k.segs then some 8
  else if (leastState k.states size).isNone then some 9
  else none

/-- The verdict of Checking: a kernel, or the number of the check that failed with the cause of a failed read. -/
inductive Checked where
  | pass (k : Kernel) (s : State)
  | fail (check cause : Nat) (s : State)
  | wait (s : State)

/-- Go on with the bytes that a read gave; a read that ends with error status fails check 0. -/
def afterRead (r : Fetched) (k : List Byte → State → Checked) : Checked :=
  match r with
  | .ok bs s => k bs s
  | .fail c s => .fail 0 c s
  | .wait s => .wait s

/-- Read the switch and slot tables of the states, one state after another. -/
def readStates (read : Nat → Nat → State → Fetched) : List StateEntry → State → (List (PlateState × Bool) → State → Checked) → Checked
  | [], s, k => k [] s
  | e :: rest, s, k =>
    afterRead (read e.swOff (16 * e.swN) s) fun sw s =>
      afterRead (read e.slOff (8 * e.slN) s) fun sl s =>
        let sws := entriesOf sw 16 e.swN
        let sls := entriesOf sl 8 e.slN
        let p : PlateState := { cap := e.cap, resv := e.resv, entry := e.entry, switches := sws.map switchOf, slots := sls.map slotOf }
        readStates read rest s fun l s => k ((p, sws.any switchBad || sls.any slotBad) :: l) s

/-- Read an image and check it, and the ARG bytes (R276, R297, R300): the whole image is read before a field is judged. -/
def checkImage (g : Nat) (s : State) : Checked :=
  let gr := s.groupAt g
  let x := gr.ctx
  let read (off n : Nat) (s : State) : Fetched := s.fetchRange x g 3 (gr.kimg + off) n
  let allow := (s.contextAt x).allow
  afterRead (read 0 64 s) fun hb s =>
    afterRead (if gr.argVa = 0 then .ok [] s else s.fetchRange x g 0 gr.argVa 256) fun arg s =>
      let h := (headerOf hb).readable
      afterRead (read h.plOff (64 * h.nst) s) fun pl s =>
        let es := entriesOf pl 64 h.nst
        afterRead (read h.codeOff (12 * h.codeW) s) fun code s =>
          afterRead (read h.segOff (8 * h.segN) s) fun sg s =>
            afterRead (if h.ringOff = 0 then .ok [] s else read h.ringOff 64 s) fun rg s =>
              afterRead (read h.ldrOff (12 * h.loaderWords) s) fun ld s =>
                afterRead (read h.strOff (12 * h.storerWords) s) fun st s =>
                  readStates read (es.map fun e => { stateEntry e with swN := min 4096 (stateEntry e).swN }) s fun ps s =>
                    let k : Kernel :=
                      { codeW := h.codeW, code := memOfBytes 0 code, segs := (entriesOf sg 8 h.segN).map segOfEntry,
                        states := ps.map (·.1), rings := (List.range 8).map fun i => BitVec.ofNat 64 (tableWord rg i),
                        loader := memOfBytes 0 ld, loaderW := h.loaderWords, storer := memOfBytes 0 st, storerW := h.storerWords,
                        arg := arg }
                    if gr.kimg % 64 != 0 || headerBad hb || es.any stateEntryBad || ps.any (·.2) ||
                        (entriesOf sg 8 h.segN).any segBad || k.rings.any ringReserved then .fail 1 0 s
                    else if tablesBad (h.tables ++ (es.map stateEntry).flatMap StateEntry.tables) then .fail 2 0 s
                    else
                      match kernelFault k allow gr.size with
                      | some n => .fail n 0 s
                      | none => .pass k s

/-- KERNEL_CHECK (R297, R300): the instance is rejected with a notice, or goes on to placement. -/
def execKernelCheck (g : Nat) (s : State) : Out :=
  let gr := s.groupAt g
  if gr.st != .pending || !gr.dequeued || gr.heldPlace then .next s
  else
    match checkImage g s with
    | .wait s => .next (s.at (s.now + 1) prioNet (.kernelCheck g))
    | .fail check cause s =>
      let s := (s.modGroup g fun gr => { gr with st := .rejected }).post 0x1D6 gr.ctx gr.num (check + cause * 2 ^ 10)
      .next (s.settleContext gr.ctx).wakeSequencer
    | .pass k s => .next ((s.modGroup g fun gr => { gr with kernel := k }).later 1 (.placement g))

/-! Placement and start. -/

/-- Domain 0 is the whole group (R269). -/
def Group.wholeDomain (gr : Group) : Domain :=
  let q := clustersPerStack gr.width
  let mask := (List.range gr.cls).foldl (fun m i => m + 2 ^ (16 * (i / q) + i % q)) 0
  { configured := true, clusters := BitVec.ofNat 64 mask, cores := BitVec.ofNat 16 (2 ^ gr.cpc - 1) }

/-- Copy the listed bytes of a range of one store to another. -/
def copyRange (src : Memory) (lo n : Nat) (dst : Memory) (at_ : Nat) : Memory :=
  (src.filter fun e => lo ≤ e.1 && e.1 < lo + n).foldl (fun (m : Memory) e => memSet m (at_ + (e.1 - lo)) e.2) (clearPhys dst at_ n)

/-- Size of a member record, at gang width 1, 2 or 4 (R355). -/
def recordSize (width : Nat) : Nat := if width = 1 then 0x140000 else if width = 2 then 0x160000 else 0x1A0000

/-- Where a group's block lies: 0 none (R355). -/
def State.blockOf (s : State) (g : Nat) : Nat := get64 s.phys ((s.contextAt (g / 256)).area + 0x800 + 8 * (g % 256)) % 2 ^ 52 / 4096 * 4096

/-- A member record of a block, by rank, and a cluster record, by logical cluster (R355). -/
def memberRecord (block rank width : Nat) : Nat := block + 4096 + rank * recordSize width
def clusterRecord (block l members width : Nat) : Nat := block + 4096 + members * recordSize width + l * 0x400000

/-- A result's destination, by kind and number (R357). -/
def destOf (kind num : Nat) : Dest := if kind = 0 then .n num else if kind = 1 then .a num else if kind = 2 then .p num else .none

/-- What the flight lists of a record say of the results and the tiles that its core had in flight, each at its place among the entries of its
thread (R357, R359). -/
def Core.readFlights (k : Core) (m : Memory) (at_ stopC : Nat) : Core :=
  let tiles (t : Nat) : List (TileHold × Nat) := if t = 0 then k.held.zipIdx else []
  let word (t i : Nat) : Nat := get64 m (at_ + 0x106008 + 512 * t + 16 * i)
  let result (t since : Nat) (l : List (Flight × Nat)) (x : Flight × Nat) : Flight :=
    let f := x.1
    let i := (l.filter fun y => decide (y.1.seq < f.seq) || (y.1.seq == f.seq && decide (y.2 < x.2))).length +
      ((tiles t).filter fun y => decide (y.1.op < f.seq)).length
    let w := word t i
    if 32 ≤ i then f
    else { f with value := BitVec.ofNat 64 (get64 m (at_ + 0x106000 + 512 * t + 16 * i)), land := since + w / 2 ^ 48, push := w.testBit 12,
                  dest := destOf (w / 2 ^ 8 % 16) (w % 32) }
  let tile (x : TileHold × Nat) : TileHold :=
    let h := x.1
    let i := ((k.thread 0).flight.filter fun f => decide (f.seq ≤ h.op)).length +
      ((tiles 0).filter fun y => decide (y.1.op < h.op) || (y.1.op == h.op && decide (y.2 < x.2))).length
    let w := word 0 i
    if 32 ≤ i then h else { h with busy := w / 2 ^ 48, verdict := w / 2 ^ 32 % 2 ^ 16, tile := w % 32 }
  { k with
    threads := k.threads.map fun x =>
      let since := if x.2.stat == .trapped then (match x.2.trap with | some i => i.cyc | none => stopC) else stopC
      (x.1, { x.2 with flight := x.2.flight.zipIdx.map (result x.1 since x.2.flight.zipIdx) }),
    held := k.held.zipIdx.map tile }

/-- A saved group comes back on these clusters (R359, R365): memories and flight lists from its block, where it has one, everything
else as it was saved (log entry 36). Its map version moves if a cluster or a core does (R316, R319), and pending moves to clusters that are no longer theirs are dropped (log entry 64).
It goes on at the resume cycle. -/
def State.restoreGroup (s : State) (g : Nat) (map : List Nat) (resume : Nat) : State :=
  let gr := s.groupAt g
  let members := membersOn s gr map
  let f (c : Nat) : Nat := unitMove [gr.members] [members] c
  let fk (k : Nat) : Nat := match (gr.map.zip map).find? fun x => x.1 == k with | some x => x.2 | none => k
  let moved := gr.map != map || gr.members != members
  let s := s.renameData g f fk
  let gr := s.groupAt g
  let block := s.blockOf g
  let allow := (s.contextAt gr.ctx).allow
  let wchk := (s.contextAt gr.ctx).wchk
  let s := gr.saved.foldl (fun s i =>
    let rank := match members.findIdx? (· == i.at_) with | some r => r | none => 0
    let record := memberRecord block rank gr.width
    let mem := if block = 0 then i.core.mem else copyRange s.phys record 0x100000 [] 0
    let core := if block = 0 then i.core else i.core.readFlights s.phys record (gr.stopC.getD s.now)
    let s := s.modCore i.at_ fun k => { core with mem := mem, acc := [], served := [], spent := [], inj := k.inj, rot := k.rot, tvec := k.tvec, allow := allow, budg := allow, wchk := wchk }
    s.modCluster (clusterOf i.at_) fun k => { k with heldDeps := k.heldDeps ++ i.deps.map fun d => (i.at_, d.1, d.2) }) s
  let s := (List.range map.length).foldl (fun s l =>
    let k := map.getD l 0
    let saved := match gr.savedShared.find? fun x => x.at_ == k with | some x => x.mem | none => []
    let mem := if block = 0 then saved
      else copyRange s.phys (clusterRecord block l members.length gr.width) 0x400000 [] sharedStart
    s.modCluster k fun v => { v with mem := mem, claims := [], served := [], acc := [] }) s
  (s.modGroup g fun gr =>
    { gr with st := .stopped, heldPlace := false, map := map, members := members, saved := [], savedShared := [], resumeAt := some resume,
              moves := s.movesDue g, mapv := if moved then gr.mapv + 1 else gr.mapv }).at resume prioRelease (.resumeCycle gr.ctx)

/-- PLACEMENT (R314, R340): the group takes its clusters, or it is held. -/
def execPlacement (g : Nat) (s : State) : Out :=
  let gr := s.groupAt g
  if !(gr.st == .pending && gr.dequeued) && !(gr.st == .saved && gr.heldPlace) then .next s
  else if !(s.contextAt gr.ctx).served then .next (s.setGroup g { gr with heldPlace := true })
  else
    match (if reservedOther s g && !s.reserved gr then none else placementOf s gr) with
    | none => .next (s.setGroup g { gr with heldPlace := true }).wakeSequencer
    | some map =>
      if gr.st == .saved then
        let (d, s) := s.delay
        .next (((s.restoreGroup g map (s.now + d + 40)).settleContext gr.ctx).wakeSequencer)
      else
        let s := s.setGroup g { gr with st := .placed, heldPlace := false, map := map, members := membersOn s gr map, mapv := 0,
                                        domains := [(0, gr.wholeDomain)] }
        .next ((s.settleContext gr.ctx).later 1 (.startBroadcast g)).wakeSequencer

/-- The tiles of a core at group start (R62, R219). -/
def startTiles (width : Nat) : SMap Tile :=
  if width = 1 then [] else (List.range 8).map fun t => (t, { rows := 128, cols := if width = 4 then 128 else 64 })

/-- The stage barriers of a core at group start (R299). -/
def startBarriers (rings : List Word) : SMap Sbs :=
  (List.range 8).filterMap fun j =>
    let n := (rings.getD j 0).toNat
    if n / 2 ^ 20 % 16 = 0 then none
    else some (j, { s := n / 2 ^ 20 % 16, rows := n / 2 ^ 12 % 256, base := n / 2 ^ 24 % 2 ^ 16 })

/-- A member at group start: the core of rank `r` (R62, R63, R276, R285, R304, R315, R349, R365). -/
def startCore (s : State) (g r : Nat) (k : Core) : Core :=
  let gr := s.groupAt g
  let c := s.contextAt gr.ctx
  let l := r / gr.cpc
  let q := clustersPerStack gr.width
  let i := (leastState gr.kernel.states gr.size).getD 0
  let th : Thread := { stat := .run, pc := (gr.kernel.states.getD i {}).entry, anchor := s.now, notBefore := s.now, fresh := true }
  { k.cleared with
      grp := some g, core := r % gr.cpc, clus := l % q, stk := l / q, stg := r / ((gr.cls * gr.cpc + 15) / 16), gang := gr.width,
      threads := [(0, th)], mem := memOfBytes 0x0FFF00 gr.kernel.arg, tiles := startTiles gr.width, sz := BitVec.ofNat 32 gr.size,
      allow := c.allow, budg := c.allow, wchk := c.wchk, guard := c.guard, sbs := startBarriers gr.kernel.rings, state := i }

/-- START_BROADCAST (R68, R297): every member starts on this cycle. -/
def execStartBroadcast (g : Nat) (s : State) : Out :=
  let gr := s.groupAt g
  if gr.st != .placed then .next s
  else
    let s := (List.range gr.members.length).foldl (fun s r => s.modCore (gr.members.getD r 0) fun k => startCore s g r k) s
    .next ((s.modGroup g fun gr => { gr with st := .running }).settleContext gr.ctx)

/-! Retirement (R337, R342). -/

/-- A DKEY signal reaches the hub map, or is held by the sequencer. -/
def State.signalDone (s : State) (x key : Nat) : State :=
  if key = 0 then s
  else
    let (st, s) := s.hubPost x key (-1)
    if st = 1 then s.modContext x fun c => { c with dkeys := c.dkeys ++ [key] } else s

/-- Every member's work is finished: its routines are done and every engine operation of its threads has completed. -/
def groupDone (s : State) (g : Nat) : Bool :=
  (s.groupAt g).members.all (fun c => (s.coreAt c).finished) && (s.opsOf g).isEmpty

/-- GROUP_RETIRE (R310, R337): a group that changes its map retires after the release. The signal of its DKEY comes after what else reaches the hub map
on the cycle (DESIGN CHOICE, log entry 63). -/
def execGroupRetire (g : Nat) (s : State) : Out :=
  let gr := s.groupAt g
  if !groupDone s g || !gr.st.meets then .next s
  else if gr.st == .changingMap then .next (s.retry (.groupRetire g))
  else if gr.dkey != 0 && hubFirst s 1026 then .next (s.at s.now prioNet (.groupRetire g))
  else .next (((s.commitHold g).endGroup g .retired).signalDone gr.ctx gr.dkey)

/-- DKEY_RETRY: the held signals of a context, in order (R342). -/
def execDkeyRetry (x : Nat) (s : State) : Out :=
  let l := (s.contextAt x).dkeys
  .next (l.foldl (fun s k => s.signalDone x k) (s.modContext x fun c => { c with dkeys := [] }))

/-! The host's launch window (R341, R385). -/

/-- A completion of a deferrable host operation: 0 success, 1 retry, 2 completer abort, 3 unsupported request. -/
def State.complete (s : State) (n : Nat) : State := { s with hub := { s.hub with completions := n :: s.hub.completions } }

/-- The status word of a launch queue (R341). -/
def queueWord (q : LQueue) : Word := BitVec.ofNat 64 (q.handle * 2 ^ 48 + q.recs.length * 2 ^ 32 + q.disc * 2 ^ 16 + q.acc)

/-- What the host's 8-byte read of the launch window gives: the status word at queue offset 0x1F8, and no other place is described (R341). -/
def State.launchWord (s : State) (offset : Nat) : Option Word :=
  let x := offset / 0x1000
  if s.hub.failed = 0 && x ≤ 255 && offset % 0x200 = 0x1F8 then some (queueWord ((s.contextAt x).queue (offset % 0x1000 / 0x200))) else none

/-- HOST_LAUNCH_DMWR: 64 bytes at a 64-byte-aligned offset from 0 to 0x1C0 of a queue's range post a launch record; any other DMWr is
an unsupported request. Before context 0 is loaded a DMWr is to be retried (R423). What the other port posts on this cycle may go first (R338). -/
def execHostLaunchDmwr (port offset : Nat) (data : List Word) (s : State) : Out :=
  let x := offset / 0x1000
  let o := offset % 0x200
  if s.hub.failed != 0 then .next s
  else if hubFirst s (min port 1) then .next (s.at s.now prioNet (.hostLaunchDmwr port offset data))
  else if !s.hub.ctx0Ld then .next (s.complete 1)
  else if 255 < x || o % 64 != 0 || 0x1C0 < o || data.length != 8 then .next (s.complete 3)
  else
    let (st, _, s) := s.postRecord x (offset % 0x1000 / 0x200) data
    .next (s.complete (if st = 0 then 0 else if st = 1 then 1 else 2))

/-- LAUNCH_WINDOW_WRITE: a plain write is discarded and counted. -/
def execLaunchWindowWrite (_port offset : Nat) (s : State) : Out :=
  let x := offset / 0x1000
  let q := offset % 0x1000 / 0x200
  if 255 < x || s.hub.failed != 0 then .next s
  else
    let v := (s.contextAt x).queue q
    .next (s.setQueue x q { v with disc := min 65535 (v.disc + 1) })

/-- HUB_MAP_SIGNAL: a DMWr of 8 bytes signals a key as TKPOST.sig does (R342, R385). It comes over port `w / 256` to context `w % 256`. -/
def execHubMapSignal (w : Nat) (key : BitVec 32) (s : State) : Out :=
  let x := w % 256
  let st := (s.contextAt x).st
  if s.hub.failed != 0 then .next s
  else if hubFirst s (min (w / 256) 1) then .next (s.at s.now prioNet (.hubMapSignal w key))
  else if !s.hub.ctx0Ld then .next (s.complete 1)
  else if key = 0 || st = 0 || st = 5 then .next (s.complete 2)
  else
    let (r, s) := s.hubPost x key.toNat (-1)
    .next (s.complete (if r = 1 then 1 else 0))

end Sys2Proof.Machine
end

