-- ==== Sys2Proof/Machine/Registration.lean ====
section
/-! DEFINITION. Halves, bins and bindings (R13 to R16, R396, R397), the repair that moves a core (R319), pending cluster moves (R316), and
the arming of detectors (R402): BINSET, REGBIND, MAPSET, INJ. -/

namespace Sys2Proof.Machine

/-! Which front end a half is bound to. -/

/-- The slabs of a front end's neighbourhood, clipped at the field's edges (R13). -/
def neighbourhood (fe : Nat) : List Nat :=
  let st := feStack fe
  let x := feX fe
  let y := feY fe
  [(x, y), (x + 1, y), (x, y + 1), (x + 1, y + 1)].filterMap fun p => if p.1 < 16 && p.2 < 17 then some (feKey st p.1 p.2) else none

/-- The group stands at a proof barrier, where a release is held while the proof is written, or is rolling back to one (R14, R282, R322). -/
def Group.atProof (g : Group) : Bool := (g.st.meets && !g.taking.isEmpty) || g.st == .rollingBack

/-- The binding of a front end may change: no group is on it, or its group stands at a proof barrier (R14, R319). -/
def State.mayRebind (s : State) (fe : Nat) : Bool :=
  match s.groupOn fe with
  | none => true
  | some g => (s.groupAt g).atProof && (s.groupAt g).width == 1

/-- The halves that a front end has, by side: 0 west, 1 east. -/
def State.bindingOf (s : State) (fe : Nat) : Binding :=
  match SMap.find s.bindings fe with
  | some b => b
  | none => { west := some fe, east := some fe, parked := feY fe == 16 }

def State.setBinding (s : State) (fe : Nat) (b : Binding) : State := { s with bindings := SMap.put s.bindings fe b }

/-- One side of a front end's binding is set: to a slab, or to none. -/
def State.bindSide (s : State) (fe side : Nat) (slab : Option Nat) : State :=
  let b := s.bindingOf fe
  s.setBinding fe (if side = 0 then { b with west := slab } else { b with east := slab })

def State.binOf (s : State) (h : Nat) : Nat := SMap.get 0 s.bins h

/-! Repair (R319, R397). -/

/-- A chain that gives front end `fe` a half of one side and ends at a spare (R13 to R15): the front ends with the slabs that they take. The
first answer lists the halves that have been tried. Of several chains it is the first that a search in the order of the neighbourhood finds,
each path to its end (DESIGN CHOICE, log entry 53). -/
def findChain (s : State) (side : Nat) : Nat → List Nat → Nat → List Nat × Option (List (Nat × Nat))
  | 0, seen, _ => (seen, none)
  | fuel + 1, seen, fe =>
    (neighbourhood fe).foldl (fun (acc : List Nat × Option (List (Nat × Nat))) slab =>
      let h := slab * 2 + side
      match acc.2 with
      | some _ => acc
      | none =>
        if acc.1.contains h || s.binOf h == 3 then acc
        else
          let seen := acc.1 ++ [h]
          match s.boundTo h with
          | none => (seen, some [(fe, slab)])
          | some f =>
            if f = fe || !s.mayRebind f then (seen, none)
            else
              match findChain s side fuel seen f with
              | (seen, some l) => (seen, some ((fe, slab) :: l))
              | (seen, none) => (seen, none)) (seen, none)

/-- The chain takes effect. -/
def State.bindChain (s : State) (side : Nat) (l : List (Nat × Nat)) : State := l.foldl (fun s x => s.bindSide x.1 side (some x.2)) s

/-- A front end gets a half of each side that it lacks, if chains exist. -/
def State.completeHalves (s : State) (fe : Nat) : Option State :=
  [0, 1].foldl (fun (r : Option State) side =>
    r.bind fun s =>
      let b := s.bindingOf fe
      if (if side = 0 then b.west else b.east).isSome then some s
      else (findChain s side 1088 [] fe).2.map (s.bindChain side ·)) (some s)

/-- A core moves to another front end of its column: the map version moves, and the barrier at which the group stands waits for the copy
(R316, R319). -/
def State.moveCore (s : State) (g old new : Nat) : State :=
  let s := s.moveCores g (fun c => if c = old then new else c) id
  let gr := s.groupAt g
  if gr.st == .rollingBack then s.setGroup g { gr with mapv := gr.mapv + 1 }
  else (s.setGroup g { gr with st := .changingMap, mapv := gr.mapv + 1, copying := true, copyDom := ((gr.taking.head?).map (·.dom)).getD 0 }).later
    0 (.mapCopyComplete g)

/-- A parked front end of the same column that can be given two halves: the state with it active, and its number; the lowest of several (DESIGN
CHOICE, log entry 53). -/
def State.parkedSpare (s : State) (fe : Nat) : Option (Nat × State) :=
  ((List.range 17).map fun y => feKey (feStack fe) (feX fe) y).findSome? fun p =>
    if !s.parked p || p == fe || (s.groupOn p).isSome then none
    else ((s.setBinding p { parked := true }).completeHalves p).map fun s => (p, s.setBinding p { s.bindingOf p with parked := false })

/-- A half has been taken from an active front end: a chain mends it, or its core moves to a parked front end, or its group is killed with
notice 0x282 (R397). -/
def State.mendFrontEnd (s : State) (fe h : Nat) : State :=
  match (if (s.coreAt fe).gang = 1 then s.completeHalves fe else none) with
  | some s => s
  | none =>
    match s.groupOn fe with
    | none => s
    | some g =>
      match (if (s.coreAt fe).gang = 1 then s.parkedSpare fe else none) with
      | some (p, s) => (s.moveCore g fe p).setBinding fe { s.bindingOf fe with parked := true }
      | none => (s.killGroup g).post 0x282 (g / 256) (g % 256) (slabWord (h / 2) (h % 2))

/-- A retest of a half in bin D begins: it ends after 2^24 cycles of test patterns, and what it finds is free (R397). -/
def State.retest (s : State) (h start : Nat) : State :=
  let (f, s) := s.free
  s.at (start + 2 ^ 24) prioNet (.binDRetest h (f.getLsbD 0))

/-- A half enters bin D: it is unbound, its front end is mended, and its retest begins (R396, R397). -/
def State.enterD (s : State) (h : Nat) : State :=
  let fe := s.boundTo h
  let s := { s with bins := SMap.put s.bins h 3, passed := s.passed.filter (· != h) }
  let s := (s.cancel fun e => match e with | .binDRetest x _ => x == h | _ => false).retest h s.now
  match fe with
  | none => s
  | some f => (if (s.coreAt f).gang = 1 || (s.groupOn f).isNone then s.bindSide f (h % 2) none else s).mendFrontEnd f h

/-! BINSET (R282, R396, R397). -/

/-- The slab and the halves that a slab word names; none for a value outside its range. -/
def slabHalves (w : Word) : Option (List Nat) :=
  let n := w.toNat
  let y := n / 64 % 32
  let half := n % 4
  if 8192 ≤ n || 17 ≤ y || half == 3 then none
  else
    let slab := feKey (n / 2048 % 4) (n / 4 % 16) y
    some (if half = 2 then [slab * 2, slab * 2 + 1] else [slab * 2 + half])

/-- A half may be moved to a bin: up, or from bin D to bin C after a pass. -/
def State.binMoves (s : State) (h bin : Nat) : Bool :=
  let b := s.binOf h
  if b = 3 then bin == 3 || (bin == 2 && s.passed.contains h) else decide (b ≤ bin)

/-- The move of a half. -/
def State.moveBin (s : State) (h bin : Nat) : State :=
  if s.binOf h = bin then s
  else if bin = 3 then s.enterD h
  else { s with bins := SMap.put s.bins h bin, passed := s.passed.filter (· != h) }

/-- A half that is to enter bin D is bound to a front end whose group neither is saved nor stands at a proof barrier. -/
def State.binHeld (s : State) (h bin : Nat) : Bool :=
  bin == 3 && s.binOf h != 3 &&
    (match s.boundTo h with
     | none => false
     | some f => (match s.groupOn f with | none => false | some g => !(s.groupAt g).atProof))

/-- Moves that are due take effect, of the halves that a test admits (R396). -/
def State.applyBins (s : State) (p : State → Nat → Bool) : State :=
  s.binDue.foldl (fun s x => if p s x.1 then { s with binDue := s.binDue.filter (·.1 != x.1) }.moveBin x.1 x.2 else s) s

/-- A group is bound to the half. -/
def State.halfInUse (s : State) (h : Nat) : Bool := (s.boundTo h).any fun f => (s.groupOn f).isSome

/-- Due moves of halves to which no group is bound take effect at once. -/
def State.freeBins (s : State) : State := if s.binDue.isEmpty then s else s.applyBins fun s h => !s.halfInUse h

/-- BINSET's move of a half to which a running group is bound takes effect at the group's rollback, or when the half falls free (R396). -/
def State.setBin (s : State) (h bin : Nat) : State :=
  let waits := match (s.boundTo h).bind s.groupOn with
    | some g => !(s.groupAt g).atProof
    | none => false
  if waits then s.dueBin h bin else { s with binDue := s.binDue.filter (·.1 != h) }.moveBin h bin

/-- BINSET (R282). -/
def execBinset (w : Fields) (s : State) : Out :=
  issue (.binset w) (fun cx w s =>
    let bin := w.b.immInt.toNat
    match slabHalves ((s.self cx).src w.a) with
    | none => .cause 0x200
    | some hs =>
      if hs.any (s.binHeld · bin) then .cause 0x201
      else if !hs.all (s.binMoves · bin) then result cx .none 1 1 s
      else .done (hs.foldl (fun s h => s.setBin h bin) (s.land cx.ag cx.pc .none 0 true 1))) s

/-! Errors, rollbacks and halves that fall free (R331, R340, R395, R396, R400). -/

/-- UE_CONSUMED (R330, R400): the group is rolled back while a proof is in force, else it is killed with a notice. -/
def execUeConsumed (g code detail : Nat) (s : State) : Out :=
  let gr := s.groupAt g
  if !gr.st.holds then .next s
  else if gr.proof.isSome then
    .next (if gr.st == .rollingBack then s else (s.setGroup g { gr with ue := some (code, detail) }).callRollback g)
  else .next (s.killWith g code detail).freeBins

/-- ROLLBACK: with a proof in force its state comes back, and the repeated superstep is released 40 cycles after the last restore. With
none, because a full log has committed it early, a ROLL fails and a consumed error kills the group (R330). -/
def execRollback (g : Nat) (s : State) : Out :=
  let gr := s.groupAt g
  match gr.st, gr.proof with
  | .placed, _ | .changingMap, _ => .next (s.at (s.now + 1) prioEngine (.rollback g))
  | .running, some p | .stopped, some p =>
    let s := (s.stopGroup g .rollingBack).restoreProof g p
    let s := s.applyBins fun s h => (s.boundTo h).any (s.groupAt g).members.contains
    let (d, s) := s.delay
    .next (s.at (s.now + d + 40) prioRelease (.rollbackRelease g))
  | .running, none | .stopped, none =>
    let s := gr.rolls.foldl (fun s o => (s.modOp o fun e => { e with cause := some 0x1C8 }).at s.now prioNet (.engineOperationComplete o)) s
    let s := s.modGroup g fun gr => { gr with rolls := [], ue := none }
    (match gr.ue with
     | some (code, detail) => .next (s.killWith g code detail).freeBins
     | none => .next s)
  | _, _ => .next s

/-- HELD_PLACEMENT_RETRY (R340): clusters have fallen free, and the sequencer looks again; halves that have fallen free change their bins (R396). -/
def execHeldPlacementRetry (s : State) : Out := .next s.freeBins.wakeSequencer

/-! REGBIND (R13, R14, R282, R319). -/

/-- The front end that a front-end word names. -/
def frontEndOf (w : Word) : Option Nat :=
  let n := w.toNat
  if 8192 ≤ n || n % 4 != 0 || 17 ≤ n / 64 % 32 then none else some (feKey (n / 2048 % 4) (n / 4 % 16) (n / 64 % 32))

/-- The slabs of the west and the east half that a binding word names, in a stack. -/
def bindingWord (stack : Nat) (w : Word) : Option (Nat × Nat) :=
  let n := w.toNat
  let wy := n / 2 ^ 13 % 32
  let ey := n / 16 % 32
  if 2 ^ 18 ≤ n || 17 ≤ wy || 17 ≤ ey then none
  else some (feKey stack (n / 2 ^ 9 % 16) wy, feKey stack (n % 16) ey)

/-- A half may be bound to the front end: it lies in its neighbourhood, it is not in bin D, and no other front end has it. -/
def State.mayBind (s : State) (fe h : Nat) : Bool :=
  (neighbourhood fe).contains (h / 2) && s.binOf h != 3 && (match s.boundTo h with | none => true | some f => f == fe)

/-- A core of the column whose front end has no datapath: it lacks a half, and its group stands at a proof barrier. -/
def State.strandedCore (s : State) (fe : Nat) : Option Nat :=
  (s.cores.map (·.1)).find? fun c =>
    c != fe && feStack c == feStack fe && feX c == feX fe && (s.groupOn c).any (fun g => (s.groupAt g).atProof) && (s.coreAt c).gang == 1 &&
      (s.halfSlots c 1).any (·.isNone)

/-- The halves of a front end are bound; a parked front end becomes active, and takes over a core of its column that has no datapath
(R319). Local memory keeps its contents when its halves change (DESIGN CHOICE, log entry 54). -/
def State.regBind (s : State) (fe west east : Nat) : State :=
  let wasParked := s.parked fe
  let s := s.setBinding fe { west := some west, east := some east }
  match (if wasParked then s.strandedCore fe else none) with
  | some c =>
    let s' := s.setBinding c { s.bindingOf c with parked := true }
    (match s.groupOn c with | some g => s'.moveCore g c fe | none => s)
  | none => s

/-- REGBIND (R282). -/
def execRegbind (w : Fields) (s : State) : Out :=
  issue (.regbind w) (fun cx w s =>
    let th := s.self cx
    match frontEndOf (th.src w.a) with
    | none => .cause 0x200
    | some fe =>
      match bindingWord (feStack fe) (th.src w.b) with
      | none => .cause 0x200
      | some (west, east) =>
        if (s.groupOn fe).any fun g => !(s.groupAt g).atProof then .cause 0x201
        else if s.absorbed fe || !s.mayBind fe (west * 2) || !s.mayBind fe (east * 2 + 1) || (s.groupOn fe).any (fun g => (s.groupAt g).width != 1) then
          result cx .none 1 1 s
        else .done ((s.land cx.ag cx.pc .none 0 true 1).regBind fe west east)) s

/-! MAPSET (R282, R316). -/

/-- The live group that a handle names; none where it does not exist or has ended (R282, R310). -/
def State.handle (s : State) (w : Word) : Option Nat :=
  if 65536 ≤ w.toNat then none
  else match SMap.find s.groups w.toNat with
    | some g => if g.st.ended then none else some w.toNat
    | none => none

/-- The change is accepted: the physical cluster is free, or vacated at the same barrier, and the logical stack of the cluster meets R314
there, with the moves of it that are pending. -/
def moveAccepted (s : State) (g l k : Nat) : Bool :=
  let gr := s.groupAt g
  let moves := gr.moves.filter fun m => m.1 != l
  let s := s.setGroup g { gr with moves := moves }
  let gone := moves.map fun m => gr.map.getD m.1 0
  let q := clustersPerStack gr.width
  let old := gr.map.getD l 0
  let mine := (List.range gr.cls).filter fun i => i / q == l / q
  let others := (List.range gr.cls).filter fun i => i / q != l / q
  let now (i : Nat) : Nat := match moves.find? fun m => m.1 == i with | some m => m.2 | none => gr.map.getD i 0
  gr.st == .running && s.clusterFits k gr.cpc gr.width gone &&
    (moves.all fun m => m.1 / q != l / q || m.2 / 16 == k / 16) &&
    (old / 16 == k / 16 ||
      (others.all (fun i => now i / 16 != k / 16) &&
        decide (mine.length ≤ (((List.range 16).map (k / 16 * 16 + ·)).filter fun j =>
          s.clusterFits j gr.cpc gr.width gone || moves.any fun m => mine.contains m.1 && m.2 == j).length)))

/-- MAPSET (R282). -/
def execMapset (w : Fields) (s : State) : Out :=
  issue (.mapset w) (fun cx w s =>
    let th := s.self cx
    match s.handle (th.src w.a) with
    | none => .cause 0x200
    | some g =>
      let l := (th.src w.b).toNat
      let k := (th.src w.c).toNat
      let gr := s.groupAt g
      if gr.cls ≤ l || 64 ≤ k then .cause 0x200
      else if !moveAccepted s g l k then result cx .none 1 1 s
      else result cx .none 0 1 (s.setGroup g { gr with moves := (gr.moves.filter fun m => m.1 != l) ++ [(l, k)] })) s

/-! INJ (R282, R402). -/

/-- INJ: the issuing core's detector reports an error on its next checks; a count of 0 clears it. -/
def execInj (w : Fields) (s : State) : Out :=
  issue (.inj w) (fun cx w s =>
    let d := w.a.immInt.toNat
    let n := ((s.self cx).src w.b).toNat
    if 15 < d || 65535 < n then .cause 0x200
    else .done (s.modCore cx.c fun k => { k with inj := SMap.set 0 k.inj d n })) s

end Sys2Proof.Machine
end

