-- ==== Sys2Proof/Machine/Contexts.lean ====
section
/-! DEFINITION. Contexts and the privileged operations on them (R282, R346, R355 to R365): SNAP, ROLL, PREEMPT, CTXSAVE, CTXLOAD, QUOTA,
TLBINV (R120, R373), and the completion of every engine operation (R123, R337). -/

namespace Sys2Proof.Machine

/-! What the words check. A register value outside its range is cause 0x200, a wrong state 0x201 (R282, R346, R360). -/

/-- A context number in a register. -/
def contextNumber (w : Word) : Option Nat := if 255 < w.toNat then none else some w.toNat

/-- A privileged engine operation starts (R282). -/
def startPriv (cx : Cx) (e : EngOp) (s : State) : Verdict := startOp cx e (fun q => .engineOperationComplete q) s

/-- SNAP. -/
def execSnap (w : Fields) (s : State) : Out :=
  issue (.snap w) (fun cx w s =>
    let v := (s.self cx).src w.a
    match s.handle v with
    | none => .cause 0x200
    | some _ => startPriv cx { kind := .snap, av := v } s) s

/-- ROLL: whether there is a proof to repeat a superstep from is judged when the operation reaches the sequencer. -/
def execRoll (w : Fields) (s : State) : Out :=
  issue (.roll w) (fun cx w s =>
    let v := (s.self cx).src w.a
    match s.handle v with
    | none => .cause 0x200
    | some _ => startPriv cx { kind := .roll, av := v } s) s

/-- PREEMPT: only a group that runs is stopped, and none of context 0 (R346). -/
def execPreempt (w : Fields) (s : State) : Out :=
  issue (.preempt w) (fun cx w s =>
    let v := (s.self cx).src w.a
    match s.handle v with
    | none => .cause 0x200
    | some g => if g < 256 || !(s.groupAt g).st.runs then .cause 0x201 else startPriv cx { kind := .preempt, av := v } s) s

/-- The context is Stopped or Saved, and it is not context 0 (R346, R360). -/
def savable (s : State) (x : Nat) : Bool := x != 0 && ((s.contextAt x).st == 3 || (s.contextAt x).st == 4)

/-- CTXSAVE and CTXSAVE.kill: form 0 saves, form 1 kills. -/
def saveBody (m : Nat) (cx : Cx) (w : Fields) (s : State) : Verdict :=
  let v := (s.self cx).src w.a
  match contextNumber v with
  | none => .cause 0x200
  | some x => if !savable s x then .cause 0x201 else startPriv cx { kind := .ctxsave, m := m, av := v } s

def execCtxsave (w : Fields) (s : State) : Out := issue (.ctxsave w) (saveBody 0) s

/-- CTXSAVE.kill (R361). -/
def execCtxsaveKill (w : Fields) (s : State) : Out := issue (.ctxsaveKill w) (saveBody 1) s

/-- A group is stopped or saved. -/
def Group.rests (g : Group) : Bool := (g.st == .stopped && g.resumeAt.isNone) || g.st == .saved

/-- CTXSAVE.gkill (R361). -/
def execCtxsaveGkill (w : Fields) (s : State) : Out :=
  issue (.ctxsaveGkill w) (fun cx w s =>
    let v := (s.self cx).src w.a
    match s.handle v with
    | none => .cause 0x200
    | some g => if g < 256 || !(s.groupAt g).rests then .cause 0x201 else startPriv cx { kind := .ctxsave, m := 2, av := v } s) s

/-- The area of a Free context holds a header for it, with state code 0 (R355, R360). -/
def headerFits (m : Memory) (area x : Nat) : Bool :=
  let w := get64 m area
  w / 2 ^ 48 == 0x4358 && w / 2 ^ 40 % 256 == x && w / 2 ^ 32 % 256 == 0

/-- CTXLOAD. -/
def execCtxload (w : Fields) (s : State) : Out :=
  issue (.ctxload w) (fun cx w s =>
    let th := s.self cx
    let v := th.src w.a
    match contextNumber v with
    | none => .cause 0x200
    | some x =>
      let st := (s.contextAt x).st
      let e : EngOp := { kind := .ctxload, m := w.b.immInt.toNat, av := v }
      if x = 0 then .cause 0x201
      else if w.c.zero then (if st != 4 then .cause 0x201 else startPriv cx e s)
      else
        let c := (th.src w.c).toNat
        if 2 ^ 52 ≤ c || c % 4096 != 0 then .cause 0x200
        else if st != 0 || !headerFits s.phys c x then .cause 0x201
        else startPriv cx { e with cv := BitVec.ofNat 64 c, fmt := 1 } s) s

/-- QUOTA: in force for fills performed after it; frames already held are kept (R362). -/
def execQuota (w : Fields) (s : State) : Out :=
  issue (.quota w) (fun cx w s =>
    let th := s.self cx
    match contextNumber (th.src w.a) with
    | none => .cause 0x200
    | some x => .done (s.setLimit x (th.src w.b).toNat)) s

/-- TLBINV. -/
def execTlbinv (w : Fields) (s : State) : Out :=
  issue (.tlbinv w) (fun cx w s =>
    let th := s.self cx
    let a := (th.src w.a).toNat
    let v := th.src w.b
    match contextNumber v with
    | none => .cause 0x200
    | some _ =>
      if a % 65536 != 0 || 2 ^ 56 ≤ a then .cause 0x200
      else startPriv cx { kind := .tlbinv, m := w.c.immInt.toNat, va := a, bv := v } s) s

/-! The context header (R355). -/

/-- The key list of an area (R364): 16 slots, 0xFFFF empty. -/
def keysOf (m : Memory) (area : Nat) : List Nat :=
  ((List.range 16).map fun i => leNat (memRead m (area + 0x20 + 2 * i) 2)).filterMap fun k => if k = 0xFFFF then none else some (k % 4096)

/-- What the hub takes from a header (R348, R355). -/
def State.readHeader (s : State) (x area : Nat) : State :=
  let word (o : Nat) : Nat := get64 s.phys (area + o)
  let words (o n : Nat) : List Word := (List.range n).map fun i => BitVec.ofNat 64 (word (o + 8 * i))
  s.modContext x fun c =>
    { c with area := area, root := BitVec.ofNat 64 (word 8), used := word 0x10 / 2 ^ 32, limit := word 0x10 % 2 ^ 32, noticed := false,
             allow := clampAllow (word 0x18 % 2 ^ 17), wchk := word 0 % 2 == 1, keys := keysOf s.phys area, home := words 0x40 16,
             guard := words 0xC0 8 }

/-- What the hub keeps of a header is written back into it: quota, allowance and check mode (R347, R355). -/
def State.writeHeader (s : State) (x : Nat) : State :=
  let c := s.contextAt x
  let w0 := get64 s.phys c.area
  let m := put64 s.phys c.area (w0 - w0 % 2 + (if c.wchk then 1 else 0))
  let m := put64 m (c.area + 0x10) (c.used * 2 ^ 32 + c.limit)
  { s with phys := put64 m (c.area + 0x18) c.allow }

/-- The entry at a physical address. -/
def pageEntry (s : State) (a : Nat) : Page := { at_ := a, w0 := get64 s.phys a, w1 := get64 s.phys (a + 8) }

/-- The entries of the table of a context that hold something (R367). -/
def tableEntries (s : State) (x : Nat) : List Page :=
  let r := (s.contextAt x).root.toNat
  let lo := r % 2 ^ 52
  let hi := lo + 128 * 2 ^ (r / 2 ^ 56)
  (((s.phys.filter fun e => decide (lo ≤ e.1) && decide (e.1 < hi)).map fun e => e.1 / 16 * 16).eraseDups).map (pageEntry s)

/-- The pages of the table that are charged to the context, as its header's USED counts them (R362, R374). -/
def State.noteCharged (s : State) (x : Nat) : State :=
  let l := ((tableEntries s x).filter fun p => p.v && p.dem && p.chg).map fun p => (p.at_, p.sz, p.tag)
  s.modContext x fun c => { c with charged := l }

/-- A Free context is installed: its CTXP is the area, and it is Loaded (R360). -/
def State.installContext (s : State) (x area : Nat) : State :=
  let q := (s.contextAt x).queues
  (((s.setContext x { queues := q }).readHeader x area).noteCharged x).setCtxState x 1

/-! CTXSAVE (R355 to R357, R360). -/

/-- Bytes of a flight-list entry of a result, its cycles left counted from `since` (R357). -/
def flightBytes (f : Flight) (since : Nat) : List Byte :=
  let (kind, num) := match f.dest with | .none => (4, 0) | .n r => (0, r) | .a r => (1, r) | .p r => (2, r)
  let w1 := (f.land - since) % 65536 * 2 ^ 48 + (if f.push then 2 ^ 12 else 0) + kind * 2 ^ 8 + num
  leBytes 8 f.value.toNat ++ leBytes 8 w1

/-- Bytes of that of a tile (R235, R357). -/
def tileBytes (h : TileHold) : List Byte :=
  leBytes 8 0 ++ leBytes 8 (h.busy % 65536 * 2 ^ 48 + h.verdict % 65536 * 2 ^ 32 + 3 * 2 ^ 8 + h.tile)

/-- The entries of a thread in issue order, those of tiles among the control context's: a trapped thread counts from its trap. -/
def flightEntries (k : Core) (t stopC : Nat) : List (Nat × List Byte) :=
  let th := k.thread t
  let since := if th.stat == .trapped then (match th.trap with | some i => i.cyc | none => stopC) else stopC
  let tiles := if t = 0 then k.held.map fun h => (h.op, tileBytes h) else []
  ((th.flight.map fun f => (f.seq, flightBytes f since)) ++ tiles).mergeSort fun x y => decide (x.1 ≤ y.1)

/-- The twelve flight lists of a member, the trap context's last. -/
def flightLists (k : Core) (stopC : Nat) : List Byte :=
  (List.range 12).flatMap fun t =>
    let bs := ((flightEntries k t stopC).take 32).flatMap (·.2)
    bs ++ List.replicate (512 - bs.length) 0

/-- What a member record holds at the offsets that R356 gives: local memory and the flight lists. -/
def writeRecord (m : Memory) (at_ : Nat) (k : Core) (stopC : Nat) : Memory :=
  let m := copyRange k.mem 0 0x100000 m at_
  memWrite (clearPhys m (at_ + 0x106000) 0x1800) (at_ + 0x106000) (flightLists k stopC)

/-- Bytes whose layout no rule gives: they are free (log entry 36). -/
def State.writeOpen (s : State) (a n : Nat) : State :=
  let (bs, s) := s.freeBytes n
  { s with phys := memWrite s.phys a bs }

/-- The rest of a member record (R356): thread blocks, trap frame, CTL to grant pointer, merge tree, burin unit and tiles, whose inner layout no
rule gives, and the reserved bytes, which are zero. -/
def State.writeOthers (s : State) (at_ width : Nat) : State :=
  let s := (s.writeOpen (at_ + 0x100000) 0x6000).writeOpen (at_ + 0x107800) 0x3800
  let s := s.writeOpen (at_ + 0x120000) (recordSize width - 0x120000)
  { s with phys := clearPhys s.phys (at_ + 0x10B000) 0x15000 }

/-- A store that is on its way when its group is saved takes along the bytes that it writes. -/
def State.takeAlong (s : State) (g : Nat) : State :=
  { s with ops := mapVals (fun e =>
      let store := match e.kind with | .cpySt | .cpyiSt | .rput | .wsig => true | _ => false
      if e.grp == g && e.st == .running && e.cause.isNone && e.part.st == .sent && store && !e.paid && e.part.segs.isEmpty then
        { e with part := { e.part with segs := storeRuns s e } }
      else e) s.ops }

/-- A stopped group is written to its block (R355, R356), and its clusters fall free. -/
def State.saveGroup (s : State) (g : Nat) : State :=
  let s := s.takeAlong g
  let gr := s.groupAt g
  let stopC := gr.stopC.getD s.now
  let block := s.blockOf g
  let n := gr.members.length
  let images := gr.members.map fun c =>
    let deps := ((s.clusterAt (clusterOf c)).heldDeps.filter fun d => d.1 == c).map fun d => (d.2.1, d.2.2)
    ({ at_ := c, core := s.coreAt c, deps := deps } : Image)
  let shared := gr.map.map fun k => ({ at_ := k, mem := (s.clusterAt k).mem } : SharedImage)
  let phys := if block = 0 then s.phys
    else
      let m := (List.range n).foldl (fun m r =>
        writeRecord m (memberRecord block r gr.width) (s.coreAt (gr.members.getD r 0)) stopC) s.phys
      (List.range gr.map.length).foldl (fun m l =>
        copyRange (s.clusterAt (gr.map.getD l 0)).mem sharedStart 0x400000 m (clusterRecord block l n gr.width)) m
  let s := { s with phys := phys }
  let s := if block = 0 then s
    else (List.range n).foldl (fun s r => s.writeOthers (memberRecord block r gr.width) gr.width) (s.writeOpen block 4096)
  let s := s.cancel fun e => (eventCore e).any gr.members.contains
  let s := gr.members.foldl (fun s c => s.modCore c Core.cleared) s
  let s := gr.map.foldl (fun s k => s.modCluster k fun v =>
    { v with heldDeps := v.heldDeps.filter fun d => !gr.members.contains d.1 }) s
  s.setGroup g { gr with st := .saved, saved := images, savedShared := shared }

/-- The groups of a context that stand stopped. -/
def stoppedGroups (s : State) (x : Nat) : List Nat := (s.groupsOf x).filter fun g => (s.groupAt g).st == .stopped && (s.groupAt g).resumeAt.isNone

/-- Every stopped group of a context is saved; one that a load with run had left held waits for the next such load (R346, R359). -/
def State.saveContext (s : State) (x : Nat) : State :=
  let s := (stoppedGroups s x).foldl (fun s g => s.saveGroup g) s
  let s := (s.groupsOf x).foldl (fun s g => if (s.groupAt g).st == .saved then s.modGroup g fun gr => { gr with heldPlace := false } else s) s
  ((s.writeHeader x).setCtxState x 4).at s.now prioNet .heldPlacementRetry

/-- A context is killed: its groups, its launch queues and its hub map (R361). -/
def State.killContext (s : State) (x : Nat) : State :=
  let s := ((s.groupsOf x).filter fun g => !(s.groupAt g).st.ended).foldl (fun s g => s.killGroup g) s
  (s.modContext x fun c =>
    { c with queues := mapVals (fun q => { q with recs := [] }) c.queues, hubMap := [], dkeys := [] }).setCtxState x 5

/-! CTXLOAD with run (R359). -/

/-- Where a saved group comes back: it is restored on the resume cycle's group, or held for placement as a launch record is. -/
def State.loadGroup (s : State) (resume g : Nat) : State :=
  let s := s.modGroup g fun gr => { gr with queuedAt := s.now, heldPlace := false }
  let gr := s.groupAt g
  match (if reservedOther s g then none else placementOf s gr) with
  | some map => s.restoreGroup g map resume
  | none => s.modGroup g fun gr => { gr with heldPlace := true }

/-- The saved groups of a context come back with one resume cycle, 40 cycles after the last member is restored. -/
def State.runContext (s : State) (x : Nat) : Nat × State :=
  let (d, s) := s.delay
  let resume := s.now + d + 40
  (resume, ((s.groupsOf x).filter fun g => (s.groupAt g).st == .saved).foldl (fun s g => s.loadGroup resume g) s)

/-! TLBINV (R120, R121, R362, R364, R373). -/

/-- An entry of a TLB that a TLBINV removes. -/
def invalidates (x a m : Nat) (t : TlbEntry) : Bool := t.ctx == x && (m == 1 || pageVpn t.sz a == t.vpn)

/-- A part that has been translated and not performed, and which of the two addresses of a signal it is at. -/
def partKey (e : EngOp) : Nat := 2 * e.part.off + (if e.paid then 1 else 0)

/-- The sizes of the pages that a context has had at an address. -/
def State.sizesAt (s : State) (x a : Nat) : List Nat := (s.pages.filter fun p => p.1 == x && p.2.2 == pageVpn p.2.1 a).map (·.2.1)

/-- Accesses translated under the old entry. -/
def oldAccesses (s : State) (x a m sz : Nat) : List (Nat × Nat) :=
  (s.ops.filter fun o =>
    o.2.ctx == x && o.2.st == .running && o.2.cause.isNone && o.2.part.st == .sent && !o.2.logical && o.2.kind.accesses &&
      (m == 1 || pageVpn sz o.2.partVa == pageVpn sz a)).map fun o => (o.1, partKey o.2)

/-- The access is neither performed nor ended. -/
def stillOld (s : State) (d : Nat × Nat) : Bool :=
  match SMap.find s.ops d.1 with
  | some e => e.st == .running && e.cause.isNone && e.part.st == .sent && partKey e == d.2
  | none => false

/-- A read that its home holds on an unwritten granule ends (R121). -/
def State.endOldReads (s : State) (l : List (Nat × Nat)) : State :=
  l.foldl (fun s d =>
    let e := s.opAt d.1
    if stillOld s d && e.part.absent then s.failOp d.1 0x148 e.partVa e.access else s) s

/-- A walk that began under a generation below `g` goes on (R373). -/
def olderWalk (s : State) (g : Nat) : Bool :=
  s.ops.any fun x => x.2.kind != .tlbinv && x.2.st == .running && x.2.cause.isNone && !x.2.suspended && x.2.part.gen.any fun n => decide (n < g)

/-- The granules of a frame become unwritten. -/
def State.unmarkFrame (s : State) (f : Nat) : State := s.unmark fun x => decide (f * 1024 ≤ x) && decide (x < (f + 1) * 1024)

/-- The frame is free: it keeps no tag, no owner and no written granule (R101, R102, R122). -/
def State.freeFrame (s : State) (f : Nat) : State :=
  { s.unmarkFrame f with
    frameTags := SMap.erase s.frameTags f, frameOwner := SMap.erase s.frameOwner f, mappers := SMap.erase s.mappers f }

/-- The frame in which the table of a context puts an address, as tags name it. -/
def frameOf (s : State) (x va : Nat) : Option Nat :=
  match peekPage s x va with
  | some p => if p.dem && !p.chg then none else some (p.frameKey (homeTarget s x va) + va % 2 ^ pageLog p.sz / 65536)
  | none => none

/-- Mappings that end are forgotten: frame and address; a frame that no page maps any more is free. -/
def State.unmap (s : State) (x : Nat) (ends : Nat → Nat → Bool) : State :=
  s.mappers.foldl (fun s e =>
    let l := e.2.filter fun u => !(u.1 == x && ends e.1 u.2)
    if l.length = e.2.length then s else if l.isEmpty then s.freeFrame e.1 else { s with mappers := SMap.put s.mappers e.1 l }) s

/-- A context that falls free maps no frame any more (R122, R361). -/
def State.forget (s : State) (x : Nat) : State := { s.unmap x fun _ _ => true with pages := s.pages.filter (·.1 != x) }

/-- The frames of a page take its type; a retype to WOS leaves every granule unwritten (R120, R121). -/
def State.retag (s : State) (x : Nat) (p : Page) : State :=
  if !p.v || p.invalid || (p.dem && !p.chg) then s
  else
    let va := p.tag * 4096
    let home := homeTarget s x va
    (List.range p.frames).foldl (fun s i =>
      let f := p.frameKey home + i
      let s := (s.mapFrame home ((p.frame + i) * 65536) x (va + i * 65536)).notePage x p.sz p.tag
      if SMap.get 0 s.frameTags f = p.ct + 1 then s
      else
        { (if p.ct = 2 then s.unmarkFrame f else s) with
          frameTags := SMap.put s.frameTags f (p.ct + 1), frameOwner := SMap.erase s.frameOwner f }) s

/-- A charged demand page of which the table holds no charged entry any more is no longer counted (R362). -/
def State.uncharge (s : State) (x a m : Nat) : State :=
  let c := s.contextAt x
  let stands (y : Nat × Nat × Nat) (p : Page) : Bool := p.v && p.dem && p.chg && p.sz == y.2.1 && p.tag == y.2.2
  let gone (y : Nat × Nat × Nat) : Bool :=
    (m == 1 || pageVpn y.2.1 a == y.2.2) && !(stands y (pageEntry s y.1) || (tableEntries s x).any (stands y))
  let frames := ((c.charged.filter gone).map fun y => 2 ^ (pageLog y.2.1 - 16)).sum
  s.setContext x { c with used := c.used - frames, charged := c.charged.filter fun y => !gone y }

/-- The shoot-down begins: the generation moves, TLB entries go, and the drain begins, over the largest page that the context has had there. -/
def State.beginInvalidate (s : State) (o : Nat) (e : EngOp) : State :=
  let x := e.bv.toNat
  let gone := s.tlb.filter (invalidates x e.va e.m)
  let s := { s with gen := s.gen + 1, tlb := s.tlb.filter fun t => !invalidates x e.va e.m t }
  let sz := (s.sizesAt x e.va).foldl max 0
  let l := oldAccesses s x e.va e.m sz
  ((s.setOp o { e with begun := true, drain := l, pages := gone.map (·.at_), width := sz, part := { e.part with gen := some s.gen } }).endOldReads l).at (s.now + 1) prioNet
    (.engineOperationComplete o)

/-- The pages that a TLBINV names, as the table stands: all of the context, or those at its address. -/
def invalidated (s : State) (e : EngOp) : List Page :=
  let x := e.bv.toNat
  if e.m = 1 then tableEntries s x
  else (e.pages.map (pageEntry s)).filter (fun p => p.v && pageVpn p.sz e.va == p.tag) ++ (peekPage s x e.va).toList

/-- The drain is over: mappings that have gone are forgotten, frames take their types, quotas and key lists are brought up to date. -/
def State.endInvalidate (s : State) (e : EngOp) : State :=
  let x := e.bv.toNat
  let pages := invalidated s e
  let sz := pages.foldl (fun n p => max n p.sz) e.width
  let here (va : Nat) : Bool := e.m == 1 || pageVpn sz va == pageVpn sz e.va
  let s := s.unmap x fun f va => here va && frameOf s x va != some f
  let s := { s with pages := s.pages.filter fun p =>
    !(p.1 == x && here (p.2.2 * 4096)) || (match walkTable s x (p.2.2 * 4096) with | .ok q => q.sz == p.2.1 | .error _ => false) }
  let s := pages.foldl (fun s p => s.retag x p) s
  let s := s.uncharge x e.va e.m
  if e.m = 1 then s.modContext x fun c => { c with keys := keysOf s.phys c.area } else s

/-! Completion. -/

/-- A reply of `n` bytes leaves for a peer, with the status of its request: a cause, or 0 (R381, R383). -/
def State.replyPeer (s : State) (src pa n status : Nat) : State :=
  match s.peerLink src pa with
  | some link => s.sendPeer link 2 src pa (some status) (flitsFor n)
  | none => s

/-- The payload of a peer's WSIG has failed: its signal will not be applied (R119). -/
def State.failPayload (s : State) (src tag cause : Nat) : State :=
  if tag = 0 then s else { s with hub := { s.hub with failedPayloads := s.hub.failedPayloads ++ [(src, tag, cause)] } }

/-- An operation ends; a peer's request is answered. One that fails after its member's work was finished raises no trap: the hub posts a notice (R337); and the group may
now retire. -/
def State.finishOp (s : State) (o : Nat) (e : EngOp) (cause : Option Nat) : State :=
  match e.peer with
  | some src =>
    let n := match e.kind with | .atom _ => 8 | _ => if e.kind.writes then 0 else e.len
    let s := { s with ops := SMap.erase s.ops o }
    (match cause with
     | some c => (if e.kind == .rput then s.failPayload src e.tag c else s).replyPeer src e.vaddr 0 c
     | none => s.replyPeer src e.vaddr n e.stat)
  | none =>
  let s := s.endOp o e cause
  if !(s.coreAt e.core).finished then s
  else
    let s := match cause with
      | some n => s.post n e.ctx (e.grp % 256) (e.fva.toNat % 2 ^ 37 + (if e.fva.getLsbD 37 then 2 ^ 37 else 0))
      | none => s
    s.at s.now prioNet (.groupRetire e.grp)

/-- The operation has reached the sequencer. -/
def State.mark (s : State) (o : Nat) : State := s.modOp o fun e => { e with begun := true }

/-- SNAP, ROLL and PREEMPT: the group is told, and the operation waits to be joined; a group that has ended meanwhile is 0x200. A Saved group
with a proof is rolled back once it is placed again (R331; DEDUCED, log entry 34). -/
def State.groupOp (s : State) (o : Nat) (e : EngOp) : State :=
  let g := e.av.toNat
  let gr := s.groupAt g
  if gr.st.ended then s.finishOp o e (some 0x200)
  else if e.begun then s.finishOp o e none
  else
    match e.kind with
    | .snap =>
      if !gr.prot || ((gr.domain 0).configured && !s.wholeGroup g (gr.domain 0)) then s.finishOp o e (some 0x1C7)
      else (s.mark o).modGroup g fun gr => { gr with snaps := gr.snaps ++ [o] }
    | .roll =>
      if gr.proof.isNone then s.finishOp o e (some 0x1C8)
      else
        let s := (s.mark o).modGroup g fun gr => { gr with rolls := gr.rolls ++ [o] }
        if gr.st.holds then s.callRollback g else s
    | _ =>
      if !gr.st.runs then s.finishOp o e (some 0x201)
      else ((s.mark o).modGroup g fun gr => { gr with preempts := gr.preempts ++ [o] }).later stopDelay (.stopAtCycle g)

/-- CTXSAVE in its three forms. -/
def State.saveOp (s : State) (o : Nat) (e : EngOp) : State :=
  let x := e.av.toNat
  if e.m = 2 then
    if (s.groupAt x).rests then (s.killGroup x).finishOp o e none else s.finishOp o e (some 0x201)
  else if e.begun then ((s.forget x).setCtxState x 0).finishOp o e none
  else if !savable s x then s.finishOp o e (some 0x201)
  else if e.m = 1 then ((s.killContext x).mark o).later 1 (.engineOperationComplete o)
  else if (stoppedGroups s x).all (groupSettled s) then (s.saveContext x).finishOp o e none
  else s.at (s.now + 1) prioNet (.engineOperationComplete o)

/-- CTXLOAD. -/
def State.loadOp (s : State) (o : Nat) (e : EngOp) : State :=
  let x := e.av.toNat
  let c := s.contextAt x
  if e.begun then (s.settleContext x).finishOp o e none
  else if e.fmt = 1 then
    if c.st != 0 || !headerFits s.phys e.cv.toNat x then s.finishOp o e (some 0x201)
    else ((s.installContext x e.cv.toNat).finishOp o e none).wakeSequencer
  else if c.st != 4 then s.finishOp o e (some 0x201)
  else
    let s := ((s.readHeader x c.area).setCtxState x 1).wakeSequencer
    if e.m = 0 then s.finishOp o e none
    else
      let (resume, s) := s.runContext x
      let s := s.settleContext x
      if (s.groupsOf x).any fun g => (s.groupAt g).resumeAt == some resume then (s.mark o).at resume prioNet (.engineOperationComplete o)
      else s.finishOp o e none

/-- TLBINV: it is over once the accesses under the old entry are, and no walk that began under an older generation goes on (R373). -/
def State.invalidateOp (s : State) (o : Nat) (e : EngOp) : State :=
  if !e.begun then s.beginInvalidate o e
  else if e.drain.any (stillOld s) || olderWalk s (e.part.gen.getD 0) then (s.endOldReads e.drain).at (s.now + 1) prioNet (.engineOperationComplete o)
  else (s.endInvalidate e).finishOp o e none

/-- What a request that a program served reports at its end: the address of the copy whose cause it bears, and the pushes made so far as its resume
offset (R129, R377). -/
def State.programEnd (s : State) (ops : List Nat) (e : EngOp) (cause : Option Nat) : EngOp :=
  let e := { e with poisoned := e.poisoned || ops.any fun q => (s.opAt q).poisoned }
  match cause with
  | none => e
  | some _ =>
    let e := { e with foff := (e.pushed.map (·.2)).sum }
    match ops.find? fun q => (s.opFailed q).isSome && s.opFailed q == cause with
    | some q => { e with fva := (s.opAt q).fva, fkind := (s.opAt q).fkind }
    | none => e

/-- ENGINE_OPERATION_COMPLETE (R123, R129): an operation ends with its cause; one that a program serves ends as the program says; and a
privileged one does what it is for. -/
def execEngineOperationComplete (o : Nat) (s : State) : Out :=
  match SMap.find s.ops o with
  | none => .next s
  | some e =>
    if e.st != .running then .next s
    else
      match e.thread with
      | some id =>
        (match s.requestEnd id with
         | none => .next s
         | some cause =>
           let ops := (s.reqAt id).thread.allOps
           let e := s.programEnd ops e cause
           let s := { s with ops := s.ops.filter fun x => !ops.contains x.1, reqThreads := SMap.erase s.reqThreads id }
           .next (s.finishOp o e cause))
      | none =>
        if e.cause.isSome then .next (s.finishOp o e e.cause)
        else
          match e.kind with
          | .snap | .roll | .preempt => .next (s.groupOp o e)
          | .ctxsave => .next (s.saveOp o e)
          | .ctxload => .next (s.loadOp o e)
          | .tlbinv => .next (s.invalidateOp o e)
          | _ => .next (s.finishOp o e none)

end Sys2Proof.Machine
end

