-- ==== Sys2Proof/Machine/Hub.lean ====
section
/-! DEFINITION. The hub: the management window (R376, R385 to R387), checkpoints (R388), the security processor (R389, R390), requests of
peers (R383), clock steps and telemetry (R424, R425), retests (R397), die resets (R401) and device reset (R423). -/

namespace Sys2Proof.Machine

/-! The management window as the host reads it (R385). -/

def bit (b : Bool) (n : Nat) : Nat := if b then 2 ^ n else 0

/-- HSTS (R376). -/
def Hub.hsts (h : Hub) : Nat :=
  bit h.ovf 63 + h.faults.length % 2 ^ 13 * 2 ^ 50 + h.heldFaults.length % 65536 * 2 ^ 34 + min 1023 h.heldCount * 2 ^ 24 +
    h.ecom.toNat * 2 ^ 16 + h.stale.toNat

/-- CKPT (R388). -/
def Hub.ckpt (h : Hub) : Nat := h.ckDone.toNat * 2 ^ 32 + bit h.ckRef 3 + bit h.ckErr 2 + bit h.ckDir 1 + bit h.ckGo 0

/-- PWR (R425). -/
def Hub.pwr (h : Hub) : Nat :=
  h.pkgw.toNat * 2 ^ 48 + h.tmax.toNat * 2 ^ 40 + h.binc.toNat * 2 ^ 24 + h.bind.toNat * 2 ^ 16 + h.clkShown % 4

/-- CTX0P (R387). -/
def Hub.ctx0p (h : Hub) : Nat := bit h.ctx0Ld 63 + bit h.ctx0Err 62 + h.ctx0Base.toNat * 4096

/-- The link word of a link (R385). -/
def Link.word (l : Link) : Nat := l.replays % 2 ^ 32 * 2 ^ 32 + l.lanes % 16 * 16 + l.st % 8

/-- An aligned 8-byte word of the management window; a place that holds nothing reads as zero. -/
def State.managementWord (s : State) (o : Nat) : Word :=
  let h := s.hub
  if o = 0 then BitVec.ofNat 64 h.hsts
  else if o = 8 then BitVec.ofNat 64 h.ckpt
  else if o = 0x10 then h.ckBase
  else if o = 0x18 then BitVec.ofNat 64 h.pwr
  else if o = 0x20 then h.fnum.setWidth 64
  else if o = 0x28 then BitVec.ofNat 64 h.ctx0p
  else if 0x100 ≤ o ∧ o < 0x160 then BitVec.ofNat 64 (s.linkAt ((o - 0x100) / 8)).word
  else if 0x2000 ≤ o ∧ o < 0x4000 then SMap.get 0 h.exports ((o - 0x2000) / 8)
  else if 0x4000 ≤ o ∧ o < 0x6000 then
    BitVec.ofNat 64 ((List.range 4).foldl (fun n j => n + (SMap.get 0 h.linkSets ((o - 0x4000) / 2 + j)).toNat * 2 ^ (16 * j)) 0)
  else if 0x8000 ≤ o ∧ o < 0x9000 then
    let i := (o - 0x8000) / 8
    ((h.mailbox.getD (i / 8) 0).extractLsb' (64 * (i % 8)) 64)
  else 0

/-! Writes of the host. A device held in reset answers none. -/

def State.answers (s : State) : Bool := s.hub.failed == 0

/-- A write of FABNO is ignored while a link is up or degraded (R386). -/
def State.writeFabno (s : State) (v : Word) : State :=
  if (List.range 12).any fun l => (s.linkAt l).usable then s else { s with hub := { s.hub with fnum := v.setWidth 12 } }

/-- A write of BASE loads context 0 from the area, or is refused with ERR; it is ignored once LD is set (R387, R423). -/
def State.writeCtx0p (s : State) (v : Word) : State :=
  if s.hub.ctx0Ld then s
  else
    let base := v.toNat % 2 ^ 52 / 4096
    let ok := headerFits s.phys (base * 4096) 0
    let s := { s with hub := { s.hub with ctx0Base := BitVec.ofNat 40 base, ctx0Ld := ok, ctx0Err := !ok } }
    if ok then s.installContext 0 (base * 4096) else s

/-- A write of CKPT: flags are cleared by writing one, DIR is taken while no checkpoint goes on, and GO starts one (R388). -/
def State.writeCkpt (s : State) (v : Word) : State :=
  let h := s.hub
  let s := { s with hub := { h with ckRef := h.ckRef && !v.getLsbD 3, ckErr := h.ckErr && !v.getLsbD 2,
                                    ckDir := if h.ckGo then h.ckDir else v.getLsbD 1 } }
  if v.getLsbD 0 && !h.ckGo then s.at s.now prioNet (if v.getLsbD 1 then .checkpointRestore else .checkpointSave) else s

/-- A write of four link-set masks; those of 0x000, 0x001 and 0xFFF stay zero (R385). New requests to the peers of masks that change are held
until what has been sent to them is acknowledged (R382). -/
def State.writeLinkSets (s : State) (f : Nat) (v : Word) : State :=
  let sets := (List.range 4).foldl (fun m j =>
    let i := f + j
    if i < 2 || i = 0xFFF then m else SMap.set 0 m i (v.extractLsb' (16 * j) 16)) s.hub.linkSets
  let ps := ((List.range 4).map (f + ·)).filter fun p => SMap.get 0 sets p != SMap.get 0 s.hub.linkSets p
  State.holdPeers { s with hub := { s.hub with linkSets := sets } } ps

/-- MGMT_REGISTER_WRITE (R376, R383, R385): what is read-only, reserved or empty keeps its value. -/
def execMgmtRegisterWrite (o : Nat) (v : Word) (s : State) : Out :=
  if !s.answers then .next s
  else if o = 0 then .next { s with hub := { s.hub with ovf := s.hub.ovf && !v.getLsbD 63 } }
  else if o = 8 then .next (s.writeCkpt v)
  else if o = 0x10 then .next { s with hub := { s.hub with ckBase := BitVec.ofNat 64 (v.toNat % 2 ^ 52 / 65536 * 65536) } }
  else if o = 0x20 then .next (s.writeFabno v)
  else if o = 0x28 then .next (s.writeCtx0p v)
  else if 0x2000 ≤ o ∧ o < 0x4000 ∧ o % 8 = 0 then
    .next { s with hub := { s.hub with exports := SMap.set 0 s.hub.exports ((o - 0x2000) / 8) (BitVec.ofNat 64 (v.toNat / 65536 * 65536)) } }
  else if 0x4000 ≤ o ∧ o < 0x6000 ∧ o % 8 = 0 then .next (s.writeLinkSets ((o - 0x4000) / 2) v)
  else .next s

/-- FABNO_WRITE (R386). -/
def execFabnoWrite (v : Word) (s : State) : Out := .next (if s.answers then s.writeFabno v else s)

/-- CTX0P_WRITE (R387). -/
def execCtx0pWrite (v : Word) (s : State) : Out := .next (if s.answers then (s.writeCtx0p v).wakeSequencer else s)

/-! Checkpoints (R388). -/

/-- Frames of stacked DRAM and of far memory (R2). -/
def stackedFrames : Nat := 3145728
def farFrames : Nat := if Config.farPresent then 8388608 else 0

/-- A frame lies in stacked DRAM, or in far memory. -/
def isStacked (f : Nat) : Bool := let h := frameHome (f * 65536); decide (1 ≤ h) && decide (h ≤ 4)
def isFar (f : Nat) : Bool := frameHome (f * 65536) == 5 && Config.farPresent

/-- How many of the frames below `n` a test admits. -/
def countFrames (p : Nat → Bool) : Nat → Nat
  | 0 => 0
  | n + 1 => countFrames p n + (if p n then 1 else 0)

/-- The place of a frame in the image: stacked DRAM first, then far memory, each in ascending address. -/
def imagePlace (f : Nat) : Option Nat :=
  if isStacked f then some (countFrames isStacked f) else if isFar f then some (stackedFrames + countFrames isFar f) else none

/-- The frame at a place of the image, sought from frame `f` on. -/
def imageFrame (place : Nat) : Nat → Nat → Option Nat
  | 0, _ => none
  | fuel + 1, f => if imagePlace f == some place then some f else imageFrame place fuel (f + 1)

/-- The address of byte `x` of the image in the safe tier: stripes of 2 KiB go to the two ports in turn, the port of CKBASE first (R116, R388; DESIGN
CHOICE, log entry 65). -/
def imageAddr (base x : Nat) : Nat := (base / 2 ^ 40 + x / 2048) % 2 * 2 ^ 40 + (base + x) % 2 ^ 40

/-- The byte of an image of `n` frames that an address holds. -/
def imageOffset (base n a : Nat) : Option Nat :=
  let x := (a + 2 ^ 40 - base % 2 ^ 40) % 2 ^ 40
  if x < n * 65536 ∧ imageAddr base x = a then some x else none

/-- The first `n` frames of the image are written to the safe tier. -/
def saveImage (phys host : Memory) (base n : Nat) : Memory :=
  phys.foldl (fun (m : Memory) e =>
    match imagePlace (e.1 / 65536) with
    | some i => if i < n then memSet m (imageAddr base (i * 65536 + e.1 % 65536)) e.2 else m
    | none => m) (host.filter fun e => (imageOffset base n e.1).isNone)

/-- The first `n` frames of the image are written back. -/
def restoreImage (phys host : Memory) (base n : Nat) : Memory :=
  let kept := phys.filter fun e => match imagePlace (e.1 / 65536) with | some i => n ≤ i | none => true
  host.foldl (fun (m : Memory) e =>
    match imageOffset base n e.1 with
    | none => m
    | some x =>
      match imageFrame (x / 65536) (2 ^ 36) 0 with
      | some f => memSet m (f * 65536 + x % 65536) e.2
      | none => m) kept

/-- Every context but 0 is Saved or Free, and context 0 has no group running. -/
def checkpointAllowed (s : State) : Bool :=
  s.contexts.all fun x => if x.1 = 0 then x.2.st != 2 else x.2.st == 0 || x.2.st == 4

/-- A checkpoint begins, or it is refused. -/
def State.startCheckpoint (s : State) (dir : Bool) : State :=
  if s.hub.ckGo then s
  else if !checkpointAllowed s then { s with hub := { s.hub with ckRef := true } }
  else
    let s := { s with hub := { s.hub with ckGo := true, ckDir := dir, ckDone := 0 } }
    s.later 1 (.checkpointComplete true)

/-- CHECKPOINT_SAVE. -/
def execCheckpointSave (s : State) : Out := .next (if s.answers then s.startCheckpoint false else s)

/-- CHECKPOINT_RESTORE. -/
def execCheckpointRestore (s : State) : Out := .next (if s.answers then s.startCheckpoint true else s)

/-- CHECKPOINT_COMPLETE: the image has been written whole, or, where a host-port request failed, up to a frame that is left open. -/
def execCheckpointComplete (ok : Bool) (s : State) : Out :=
  if !s.hub.ckGo then .next s
  else
    let total := stackedFrames + farFrames
    let (k, s) := s.free
    let n := if ok then total else k.toNat % total
    let base := s.hub.ckBase.toNat
    let s := if s.hub.ckDir then { s with phys := s.held (restoreImage s.stored s.host base n) }
      else { s with host := saveImage s.stored s.host base n }
    let s := { s with hub := { s.hub with ckGo := false, ckDone := BitVec.ofNat 32 n, ckErr := s.hub.ckErr || !ok } }
    .next s.wakeSequencer

/-! The security processor (R390). -/

/-- A reply goes to the mailbox. -/
def State.mail (s : State) (v : BitVec 512) : State := { s with hub := { s.hub with mailbox := v :: s.hub.mailbox } }

/-- KEY_GENERATE: the key of a 12-bit identifier. -/
def execKeyGenerate (id : Nat) (s : State) : Out :=
  if 4096 ≤ id then .next s
  else
    let h := s.hub
    .next { s with hub := { h with keys := SMap.put h.keys id (Config.keyValue id h.keyGens), keyGens := h.keyGens + 1 } }

/-- KEY_ERASE. -/
def execKeyErase (id : Nat) (s : State) : Out := .next { s with hub := { s.hub with keys := SMap.erase s.hub.keys id } }

/-- IDENTITY_KEY_READ. -/
def execIdentityKeyRead (s : State) : Out := .next (s.mail Config.identityKey)

/-- The report over a nonce: the nonce, the serial number, the four digests, the bins of every slab's halves, and the count of live key
identifiers. -/
def attestation (s : State) (nonce : BitVec 256) : List Nat :=
  [nonce.toNat, Config.serial.toNat] ++ (List.range 4).map (fun i => (Config.firmwareDigest i).toNat) ++
    (List.range 2176).map (fun h => s.binOf h) ++ [s.hub.keys.length]

/-- ATTESTATION_REPORT: the report, and its signature in the mailbox. -/
def execAttestationReport (nonce : BitVec 256) (s : State) : Out :=
  let r := attestation s nonce
  .next (State.mail { s with hub := { s.hub with reports := r :: s.hub.reports } } (Config.attestSignature r))

/-! Requests of peers (R117, R383). -/

/-- The window that an export entry opens to a peer, if it admits the request: context and virtual address. -/
def exported (s : State) (src offset : Nat) (write : Bool) : Option (Nat × Nat) :=
  let e := (SMap.get 0 s.hub.exports (offset / 2 ^ 30 % 1024)).toNat
  let imp := e / 2 ^ 50 % 4096
  if !e.testBit 63 || (imp != 0xFFF && imp != src) || (write && !e.testBit 62) then none
  else some (e / 2 ^ 42 % 256, e / 2 ^ 16 % 2 ^ 26 * 2 ^ 30 + offset % 2 ^ 30)

/-- The operation that a peer's request of a form is (R116, R119, R260, R263, R383): 0 a read, 1 a write, 2 and 3 the flag and the counter signal of a
WSIG, 4 + k atomic k on a signed location, 12 + k on an unsigned one, 20 a read that does not wait, 21 a page generation, 22 the payload of a WSIG.
An atomic brings C and then the compare value, eight bytes each, and its `len` is its width; the `len` of a payload and of its signal is a number
that names their WSIG, 0 for a signal without payload. -/
def peerOp (form : Nat) (data : List Byte) (len : Nat) : EngOp :=
  let v := leNat (data.take 8)
  match form with
  | 0 => { kind := .rget, len := len }
  | 1 => { kind := .rput, len := data.length, buf := data }
  | 2 | 3 => { kind := .wsig, m := form - 2, cv := BitVec.ofNat 64 (v % 2 ^ 32 * 2 ^ 32), tag := len }
  | 20 => { kind := .rget, m := 1, len := len }
  | 21 => { kind := .pgen, len := 1 }
  | 22 => { kind := .rput, len := data.length, buf := data, tag := len }
  | _ =>
    let k := form - 4
    let fmt := if k < 8 then (if len = 4 then 6 else 7) else if len = 4 then 10 else 0
    { kind := .atom (k % 8), fmt := fmt, len := 8, cv := BitVec.ofNat 64 v, ev := BitVec.ofNat 64 (leNat ((data.drop 8).take 8)) }

/-- PEER_REQUEST: a request that the export table admits goes on as if it had been issued on die 4; any other is answered with error
status 0x187. A signal waits for every earlier write of the peer (R119). -/
def execPeerRequest (src offset form : Nat) (data : List Byte) (len : Nat) (s : State) : Out :=
  let e := peerOp form data len
  match exported s src offset (form != 0 && form != 20) with
  | none => .next ((if e.kind == .rput then s.failPayload src e.tag 0x187 else s).replyPeer src offset 0 0x187)
  | some (x, va) =>
    if e.kind != .wsig && e.len = 0 then .next (s.replyPeer src offset 0 0)
    else
      let (q, s) := s.take
      let r := BitVec.ofNat 64 (2 ^ 63 + va)
      let e : EngOp := { e with agent := .req (2 ^ 40 + src), ctx := x, grp := 65536, bv := r, ev := if e.kind == .wsig then r else e.ev,
                                begun := true, judged := true, issued := s.now, peer := some src }
      let s := s.setOp q e
      .next (if e.kind == .wsig then s.at s.now prioNet (.wsigSignal q) else s.beginPart q)

/-! Clock steps and telemetry (R424, R425). -/

/-- A condition that a sensor reports, power or temperature, holds on this cycle (R424): the step is taken now, or, where the last one lies less than
2^20 cycles back, on the first cycle that admits it if the condition still holds then, which is free (log entry 66). -/
def State.sensed (s : State) (clk : Nat) (ev : Instr) : State :=
  if s.now < stepFrom s.hub then
    let (f, s) := s.free
    let s := { s with hub := { s.hub with conditionAt := s.now } }
    if f.getLsbD 0 then s.at (stepFrom s.hub) prioNet ev else s
  else s.setClock clk true

/-- CLOCK_STEP_DOWN: package power has been above its limit for 2^20 cycles. -/
def execClockStepDown (s : State) : Out := .next (s.sensed (min 2 (s.hub.clk + 1)) .clockStepDown)

/-- THERMAL_STEP: a die is at 105 °C or above. -/
def execThermalStep (s : State) : Out := .next (s.sensed 2 .thermalStep)

/-- CLOCK_STEP_UP: once no condition has held for 2^30 cycles. -/
def execClockStepUp (s : State) : Out :=
  if s.now < stepFrom s.hub || s.now < s.hub.conditionAt + 2 ^ 30 || stackCrowded s then .next s else .next (s.setClock (s.hub.clk - 1) false)

/-- PWR_REFRESH. -/
def execPwrRefresh (pkgw tmax : Nat) (s : State) : Out := .next (s.refreshPwr pkgw tmax)

/-! Retests and resets (R397, R401, R423). -/

/-- BIN_D_RETEST: a half of bin D that passes its retest is announced, once; one that does not is tested again 2^32 cycles after this test began (R397).
The number is that of a half: slab × 2, plus 1 for an east half. -/
def execBinDRetest (half : Nat) (pass : Bool) (s : State) : Out :=
  if s.binOf half != 3 || s.passed.contains half then .next s
  else if !pass then .next (s.retest half (s.now + 2 ^ 32 - 2 ^ 24))
  else .next (State.post { s with passed := s.passed ++ [half] } 0x2C4 0 0 (slabWord (half / 2) (half % 2)))

/-- The device comes out of reset: what DRAM and host memory hold stays, and everything else is as State.reset gives it. -/
def State.afterReset (s : State) : State :=
  { State.reset with phys := s.phys, blockKeys := s.blockKeys, poison := s.poison, host := s.host, handler := s.handler, fresh := s.fresh }

/-- Bring-up steps 3 and 4 (R423): every half takes the first of bins A, B and C that it passes, or bin D, which is free for each; and registration
binds around the halves in bin D. -/
def State.register (s : State) : State :=
  let halves := List.range 2176
  let t := halves.foldl (fun (s : State) h =>
    let (f, s) := s.free
    { s with bins := SMap.set 0 s.bins h (f.toNat % 4) }) s
  let t := halves.foldl (fun (s : State) h => if s.binOf h = 3 then s.enterD h else s) t
  { s with bins := t.bins, bindings := t.bindings, agenda := t.agenda, fresh := t.fresh }

/-- Every stack has 256 cores at gang width 1 (R15). -/
def enoughCores (s : State) : Bool :=
  (List.range 4).all fun st =>
    decide (256 ≤ (((List.range 16).flatMap fun x => (List.range 17).map fun y => feKey st x y).filter s.ready).length)

/-- The step of bring-up that fails, and the image: `fails` names a step that the outside fails, 1 with the number of an image less 1 above it or 2;
step 4 fails where a stack is short of cores. -/
def failingStep (fails : Nat) (s : State) : Option (Nat × Nat) :=
  if fails % 8 = 1 then some (1, fails / 8 % 4 + 1) else if fails % 8 = 2 then some (2, 0) else if enoughCores s then none else some (4, 0)

/-- DEVICE_RESET: a step that fails holds the device in reset, and its number is in the mailbox, that of an image above it (R389, R423; DESIGN
CHOICE, log entry 67). -/
def execDeviceReset (fails : Nat) (s : State) : Out :=
  let s := s.afterReset.register
  match failingStep fails s with
  | none => .next s
  | some (n, image) => .next (State.mail { s with hub := { s.hub with failed := n } } (BitVec.ofNat 512 (n + image * 256)))

/-- DIE_RESET: a stack's die; a fault of the hub die resets the device. -/
def execDieReset (die : Nat) (s : State) : Out := if die < 4 then .next (s.resetDie die) else execDeviceReset 0 s

end Sys2Proof.Machine
end

