-- ==== Sys2Proof/Machine/Integer.lean ====
section
/-! DEFINITION. Class 0x0: scalar integer, moves, comparisons and predicate logic (R158 to R164). -/

namespace Sys2Proof.Machine

/-! What the operations compute. -/

/-- A shift amount: y bits 5..0 (R160). -/
def shiftAmount (y : Word) : Nat := y.toNat % 64

def alMulhs (x y : Word) : Word := BitVec.ofInt 64 (x.toInt * y.toInt / (2 ^ 64 : Int))
def alMulhu (x y : Word) : Word := BitVec.ofNat 64 (x.toNat * y.toNat / 2 ^ 64)

/-- R161: truncation toward zero; division by 0 gives −1; −2^63 by −1 gives −2^63 by the wrap. -/
def alDivs (x y : Word) : Word := if y = 0 then BitVec.ofInt 64 (-1) else BitVec.ofInt 64 (x.toInt.tdiv y.toInt)
def alDivu (x y : Word) : Word := if y = 0 then BitVec.ofInt 64 (-1) else BitVec.ofNat 64 (x.toNat / y.toNat)
def alRems (x y : Word) : Word := if y = 0 then x else BitVec.ofInt 64 (x.toInt.tmod y.toInt)
def alRemu (x y : Word) : Word := if y = 0 then x else BitVec.ofNat 64 (x.toNat % y.toNat)

def alShl (x y : Word) : Word := x <<< shiftAmount y
def alShrl (x y : Word) : Word := x >>> shiftAmount y
def alShra (x y : Word) : Word := x.sshiftRight (shiftAmount y)
def alRotl (x y : Word) : Word := x.rotateLeft (shiftAmount y)

def alMins (x y : Word) : Word := if x.toInt < y.toInt then x else y
def alMaxs (x y : Word) : Word := if x.toInt < y.toInt then y else x
def alMinu (x y : Word) : Word := if x.toNat < y.toNat then x else y
def alMaxu (x y : Word) : Word := if x.toNat < y.toNat then y else x

/-- R162: leading zero bits, 64 for 0. -/
def alClz (x : Word) : Word := if x = 0 then 64 else BitVec.ofNat 64 (63 - Nat.log2 x.toNat)
def alPopc (x : Word) : Word := BitVec.ofNat 64 (((List.range 64).filter fun k => x.getLsbD k).length)
def alAbs (x : Word) : Word := if x.toInt < 0 then 0 - x else x
/-- Bits 63..w copied from bit w − 1, for w from 1 to 64. -/
def alSext (x : Word) (w : Nat) : Word := signExtend w (x.toNat % 2 ^ w)
def alZext (x : Word) (w : Nat) : Word := BitVec.ofNat 64 (x.toNat % 2 ^ w)

/-- Position and width of a field control (R162). -/
def fieldPos (c : Word) : Nat := c.toNat % 64
def fieldWid (c : Word) : Nat := c.toNat / 64 % 64 + 1
def alBfx (x c : Word) : Word := BitVec.ofNat 64 (x.toNat / 2 ^ fieldPos c % 2 ^ fieldWid c)
/-- The destination's bits from pos on, min(wid, 64 − pos) of them, come from x. -/
def alBfi (d x c : Word) : Word :=
  let pos := fieldPos c
  let f := min (fieldWid c) (64 - pos)
  let mask : Word := BitVec.ofNat 64 ((2 ^ f - 1) * 2 ^ pos)
  (d &&& ~~~mask) ||| ((x <<< pos) &&& mask)

/-- R163: immediate bits 23..0 into bits 63..40. -/
def alLih (d : Word) (imm : BitVec 40) : Word := (imm.extractLsb' 0 24 ++ d.extractLsb' 0 40 : BitVec 64)

/-! The bodies. -/

/-- Two sources, one result in A. -/
def aluBody (f : Word → Word → Word) (lat : Nat) (cx : Cx) (w : Fields) (s : State) : Verdict :=
  let th := s.self cx
  result cx (.n w.a.num) (f (th.src w.b) (th.src w.c)) lat s

/-- One source. -/
def unaryBody (f : Word → Word) (cx : Cx) (w : Fields) (s : State) : Verdict :=
  result cx (.n w.a.num) (f ((s.self cx).src w.b)) 1 s

/-- A comparison writes its predicate and pushes 0 or 1 (R159, R164). -/
def cmpBody (f : Word → Word → Bool) (cx : Cx) (w : Fields) (s : State) : Verdict :=
  let th := s.self cx
  result cx (.p w.a.num) (if f (th.src w.b) (th.src w.c) then 1 else 0) 1 s

def predBody (f : Bool → Bool → Bool) (cx : Cx) (w : Fields) (s : State) : Verdict :=
  let th := s.self cx
  result cx (.p w.a.num) (if f (th.readP w.b.num) (th.readP w.c.num) then 1 else 0) 1 s

def execAdd (w : Fields) (s : State) : Out := issue (.add w) (aluBody (· + ·) 1) s
def execSub (w : Fields) (s : State) : Out := issue (.sub w) (aluBody (· - ·) 1) s
def execMul (w : Fields) (s : State) : Out := issue (.mul w) (aluBody (· * ·) 3) s
def execMulhs (w : Fields) (s : State) : Out := issue (.mulhs w) (aluBody alMulhs 3) s
def execMulhu (w : Fields) (s : State) : Out := issue (.mulhu w) (aluBody alMulhu 3) s
def execDivs (w : Fields) (s : State) : Out := issue (.divs w) (aluBody alDivs 18) s
def execDivu (w : Fields) (s : State) : Out := issue (.divu w) (aluBody alDivu 18) s
def execRems (w : Fields) (s : State) : Out := issue (.rems w) (aluBody alRems 18) s
def execRemu (w : Fields) (s : State) : Out := issue (.remu w) (aluBody alRemu 18) s
def execAnd (w : Fields) (s : State) : Out := issue (.and w) (aluBody (· &&& ·) 1) s
def execOr (w : Fields) (s : State) : Out := issue (.or w) (aluBody (· ||| ·) 1) s
def execXor (w : Fields) (s : State) : Out := issue (.xor w) (aluBody (· ^^^ ·) 1) s
def execAndn (w : Fields) (s : State) : Out := issue (.andn w) (aluBody (fun x y => x &&& ~~~y) 1) s
def execShl (w : Fields) (s : State) : Out := issue (.shl w) (aluBody alShl 1) s
def execShrl (w : Fields) (s : State) : Out := issue (.shrl w) (aluBody alShrl 1) s
def execShra (w : Fields) (s : State) : Out := issue (.shra w) (aluBody alShra 1) s
def execRotl (w : Fields) (s : State) : Out := issue (.rotl w) (aluBody alRotl 1) s
def execClz (w : Fields) (s : State) : Out := issue (.clz w) (unaryBody alClz) s
def execPopc (w : Fields) (s : State) : Out := issue (.popc w) (unaryBody alPopc) s
def execMins (w : Fields) (s : State) : Out := issue (.mins w) (aluBody alMins 1) s
def execMaxs (w : Fields) (s : State) : Out := issue (.maxs w) (aluBody alMaxs 1) s
def execMinu (w : Fields) (s : State) : Out := issue (.minu w) (aluBody alMinu 1) s
def execMaxu (w : Fields) (s : State) : Out := issue (.maxu w) (aluBody alMaxu 1) s
def execAbs (w : Fields) (s : State) : Out := issue (.abs w) (unaryBody alAbs) s
def execSext (w : Fields) (s : State) : Out := issue (.sext w) (aluBody (fun x c => alSext x c.toNat) 1) s
def execZext (w : Fields) (s : State) : Out := issue (.zext w) (aluBody (fun x c => alZext x c.toNat) 1) s
def execBfx (w : Fields) (s : State) : Out := issue (.bfx w) (aluBody alBfx 1) s

/-- BFI reads A and writes it (R162). -/
def execBfi (w : Fields) (s : State) : Out :=
  issue (.bfi w) (fun cx w s =>
    let th := s.self cx
    result cx (.n w.a.num) (alBfi (th.readN w.a.num) (th.src w.b) (th.src w.c)) 1 s) s

/-- LI: the 40-bit immediate, sign-extended (R163). -/
def execLi (w : Fields) (s : State) : Out :=
  issue (.li w) (fun cx w s => result cx (.n w.a.num) (w.wideImm.signExtend 64) 1 s) s

/-- LIH keeps bits 39..0 of A (R163). -/
def execLih (w : Fields) (s : State) : Out :=
  issue (.lih w) (fun cx w s => result cx (.n w.a.num) (alLih ((s.self cx).readN w.a.num) w.wideImm) 1 s) s

/-- MOV: a pointer source gives the pointer image (R163). -/
def execMov (w : Fields) (s : State) : Out := issue (.mov w) (unaryBody id) s

/-- SEL writes C, or A's own value back, and pushes what it writes (R163). -/
def execSel (w : Fields) (s : State) : Out :=
  issue (.sel w) (fun cx w s =>
    let th := s.self cx
    result cx (.n w.a.num) (if th.readP w.b.num then th.src w.c else th.readN w.a.num) 1 s) s

def execCmpEq (w : Fields) (s : State) : Out := issue (.cmpEq w) (cmpBody fun x y => x == y) s
def execCmpNe (w : Fields) (s : State) : Out := issue (.cmpNe w) (cmpBody fun x y => x != y) s
def execCmpLt (w : Fields) (s : State) : Out := issue (.cmpLt w) (cmpBody fun x y => decide (x.toInt < y.toInt)) s
def execCmpGe (w : Fields) (s : State) : Out := issue (.cmpGe w) (cmpBody fun x y => decide (y.toInt ≤ x.toInt)) s
def execCmpLtu (w : Fields) (s : State) : Out := issue (.cmpLtu w) (cmpBody fun x y => decide (x.toNat < y.toNat)) s
def execCmpGeu (w : Fields) (s : State) : Out := issue (.cmpGeu w) (cmpBody fun x y => decide (y.toNat ≤ x.toNat)) s
def execPand (w : Fields) (s : State) : Out := issue (.pand w) (predBody fun x y => x && y) s
def execPor (w : Fields) (s : State) : Out := issue (.por w) (predBody fun x y => x || y) s
def execPxor (w : Fields) (s : State) : Out := issue (.pxor w) (predBody fun x y => x != y) s
def execPnot (w : Fields) (s : State) : Out := issue (.pnot w) (predBody fun x _ => !x) s

end Sys2Proof.Machine
end

