-- ==== Sys2Proof/Machine/ScalarFloat.lean ====
section
/-! DEFINITION. Class 0x1: scalar floating point (R165 to R167). -/

namespace Sys2Proof.Machine

/-- The low bits of a register that hold a value of format `f`; the upper bits are ignored (R165, R167). -/
def elemBits (f : Nat) (v : Word) : Nat := v.toNat % 2 ^ fmtBits f

/-- A floating operand. -/
def floatSrc (th : Thread) (o : Operand) (f : Nat) : Num := decodeFloat f (elemBits f (th.value o true))

/-- A floating result occupies the low bits, the upper bits zero, and raises its flags (R53, R165). -/
def floatResult (cx : Cx) (a : Nat) (r : Nat × Flags) (lat : Nat) (s : State) : Verdict :=
  result cx (.n a) (BitVec.ofNat 64 r.1) lat (s.raise cx r.2)

def floatBody (f : Nat → Nat → Num → Num → Num → Nat × Flags) (cx : Cx) (w : Fields) (s : State) : Verdict :=
  let th := s.self cx
  let fm := w.a.fmt
  floatResult cx w.a.num (f fm w.m.toNat (floatSrc th w.b fm) (floatSrc th w.c fm) (decodeFloat fm (elemBits fm (th.readN w.a.num)))) 4 s

/-- FCMP.cc writes its predicate and pushes 0 or 1 (R166). -/
def fcmpBody (cc : Nat) (cx : Cx) (w : Fields) (s : State) : Verdict :=
  let th := s.self cx
  let r := cmpNum cc (floatSrc th w.b w.b.fmt) (floatSrc th w.c w.b.fmt)
  result cx (.p w.a.num) (if r.1 then 1 else 0) 2 (s.raise cx r.2)

/-- An integer result is sign-extended for I formats and zero-extended for N formats (R167, R201). -/
def widen (f bits : Nat) : Word := if fmtSigned f then signExtend (fmtBits f) bits else BitVec.ofNat 64 bits

/-- FCVT (R167). -/
def fcvtBody (cx : Cx) (w : Fields) (s : State) : Verdict :=
  let th := s.self cx
  let r := convert w.a.fmt w.b.fmt w.m.toNat (elemBits w.b.fmt (th.value w.b true))
  result cx (.n w.a.num) (widen w.a.fmt r.1) 3 (s.raise cx r.2)

def execFadd (w : Fields) (s : State) : Out := issue (.fadd w) (floatBody fun f m x y _ => addNum f m x y) s
def execFmul (w : Fields) (s : State) : Out := issue (.fmul w) (floatBody fun f m x y _ => mulNum f m x y) s
def execFfma (w : Fields) (s : State) : Out := issue (.ffma w) (floatBody fmaNum) s
def execFcmpEq (w : Fields) (s : State) : Out := issue (.fcmpEq w) (fcmpBody 0) s
def execFcmpNe (w : Fields) (s : State) : Out := issue (.fcmpNe w) (fcmpBody 1) s
def execFcmpLt (w : Fields) (s : State) : Out := issue (.fcmpLt w) (fcmpBody 2) s
def execFcmpLe (w : Fields) (s : State) : Out := issue (.fcmpLe w) (fcmpBody 3) s
def execFcmpUn (w : Fields) (s : State) : Out := issue (.fcmpUn w) (fcmpBody 6) s
def execFcvt (w : Fields) (s : State) : Out := issue (.fcvt w) fcvtBody s

end Sys2Proof.Machine
end

