-- ==== Sys2Proof/Machine/Dispatch.lean ====
section
/-! DEFINITION. The one match over the operations of the opcode table: each is given its meaning. -/

namespace Sys2Proof.Machine

def exec (i : Instr) (s : State) : Host.Outcome State Fault Refusal :=
  match i with
  | .add w => Sys2Proof.Machine.execAdd w s
  | .sub w => Sys2Proof.Machine.execSub w s
  | .mul w => Sys2Proof.Machine.execMul w s
  | .mulhs w => Sys2Proof.Machine.execMulhs w s
  | .mulhu w => Sys2Proof.Machine.execMulhu w s
  | .divs w => Sys2Proof.Machine.execDivs w s
  | .divu w => Sys2Proof.Machine.execDivu w s
  | .rems w => Sys2Proof.Machine.execRems w s
  | .remu w => Sys2Proof.Machine.execRemu w s
  | .and w => Sys2Proof.Machine.execAnd w s
  | .or w => Sys2Proof.Machine.execOr w s
  | .xor w => Sys2Proof.Machine.execXor w s
  | .andn w => Sys2Proof.Machine.execAndn w s
  | .shl w => Sys2Proof.Machine.execShl w s
  | .shrl w => Sys2Proof.Machine.execShrl w s
  | .shra w => Sys2Proof.Machine.execShra w s
  | .rotl w => Sys2Proof.Machine.execRotl w s
  | .clz w => Sys2Proof.Machine.execClz w s
  | .popc w => Sys2Proof.Machine.execPopc w s
  | .mins w => Sys2Proof.Machine.execMins w s
  | .maxs w => Sys2Proof.Machine.execMaxs w s
  | .minu w => Sys2Proof.Machine.execMinu w s
  | .maxu w => Sys2Proof.Machine.execMaxu w s
  | .abs w => Sys2Proof.Machine.execAbs w s
  | .sext w => Sys2Proof.Machine.execSext w s
  | .zext w => Sys2Proof.Machine.execZext w s
  | .bfx w => Sys2Proof.Machine.execBfx w s
  | .bfi w => Sys2Proof.Machine.execBfi w s
  | .li w => Sys2Proof.Machine.execLi w s
  | .lih w => Sys2Proof.Machine.execLih w s
  | .mov w => Sys2Proof.Machine.execMov w s
  | .sel w => Sys2Proof.Machine.execSel w s
  | .cmpEq w => Sys2Proof.Machine.execCmpEq w s
  | .cmpNe w => Sys2Proof.Machine.execCmpNe w s
  | .cmpLt w => Sys2Proof.Machine.execCmpLt w s
  | .cmpGe w => Sys2Proof.Machine.execCmpGe w s
  | .cmpLtu w => Sys2Proof.Machine.execCmpLtu w s
  | .cmpGeu w => Sys2Proof.Machine.execCmpGeu w s
  | .pand w => Sys2Proof.Machine.execPand w s
  | .por w => Sys2Proof.Machine.execPor w s
  | .pxor w => Sys2Proof.Machine.execPxor w s
  | .pnot w => Sys2Proof.Machine.execPnot w s
  | .fadd w => Sys2Proof.Machine.execFadd w s
  | .fmul w => Sys2Proof.Machine.execFmul w s
  | .ffma w => Sys2Proof.Machine.execFfma w s
  | .fcmpEq w => Sys2Proof.Machine.execFcmpEq w s
  | .fcmpNe w => Sys2Proof.Machine.execFcmpNe w s
  | .fcmpLt w => Sys2Proof.Machine.execFcmpLt w s
  | .fcmpLe w => Sys2Proof.Machine.execFcmpLe w s
  | .fcmpUn w => Sys2Proof.Machine.execFcmpUn w s
  | .fcvt w => Sys2Proof.Machine.execFcvt w s
  | .br w => Sys2Proof.Machine.execBr w s
  | .bri w => Sys2Proof.Machine.execBri w s
  | .call w => Sys2Proof.Machine.execCall w s
  | .ret w => Sys2Proof.Machine.execRet w s
  | .loop w => Sys2Proof.Machine.execLoop w s
  | .nop w => Sys2Proof.Machine.execNop w s
  | .rtend w => Sys2Proof.Machine.execRtend w s
  | .ldlB w => Sys2Proof.Machine.execLdlB w s
  | .ldlH w => Sys2Proof.Machine.execLdlH w s
  | .ldlW w => Sys2Proof.Machine.execLdlW w s
  | .ldlD w => Sys2Proof.Machine.execLdlD w s
  | .stlB w => Sys2Proof.Machine.execStlB w s
  | .stlH w => Sys2Proof.Machine.execStlH w s
  | .stlW w => Sys2Proof.Machine.execStlW w s
  | .stlD w => Sys2Proof.Machine.execStlD w s
  | .setp w => Sys2Proof.Machine.execSetp w s
  | .ldp w => Sys2Proof.Machine.execLdp w s
  | .bpers w => Sys2Proof.Machine.execBpers w s
  | .bspan w => Sys2Proof.Machine.execBspan w s
  | .bstat w => Sys2Proof.Machine.execBstat w s
  | .bsnap w => Sys2Proof.Machine.execBsnap w s
  | .vadd w => Sys2Proof.Machine.execVadd w s
  | .vsub w => Sys2Proof.Machine.execVsub w s
  | .vmul w => Sys2Proof.Machine.execVmul w s
  | .vfma w => Sys2Proof.Machine.execVfma w s
  | .vmin w => Sys2Proof.Machine.execVmin w s
  | .vmax w => Sys2Proof.Machine.execVmax w s
  | .vabs w => Sys2Proof.Machine.execVabs w s
  | .vneg w => Sys2Proof.Machine.execVneg w s
  | .vand w => Sys2Proof.Machine.execVand w s
  | .vor w => Sys2Proof.Machine.execVor w s
  | .vxor w => Sys2Proof.Machine.execVxor w s
  | .vshl w => Sys2Proof.Machine.execVshl w s
  | .vshr w => Sys2Proof.Machine.execVshr w s
  | .vcmpEq w => Sys2Proof.Machine.execVcmpEq w s
  | .vcmpNe w => Sys2Proof.Machine.execVcmpNe w s
  | .vcmpLt w => Sys2Proof.Machine.execVcmpLt w s
  | .vcmpLe w => Sys2Proof.Machine.execVcmpLe w s
  | .vcmpGt w => Sys2Proof.Machine.execVcmpGt w s
  | .vcmpGe w => Sys2Proof.Machine.execVcmpGe w s
  | .vsel w => Sys2Proof.Machine.execVsel w s
  | .vcvt w => Sys2Proof.Machine.execVcvt w s
  | .vmov w => Sys2Proof.Machine.execVmov w s
  | .vbcast w => Sys2Proof.Machine.execVbcast w s
  | .viota w => Sys2Proof.Machine.execViota w s
  | .vsum w => Sys2Proof.Machine.execVsum w s
  | .vrmax w => Sys2Proof.Machine.execVrmax w s
  | .vrmin w => Sys2Proof.Machine.execVrmin w s
  | .vscan w => Sys2Proof.Machine.execVscan w s
  | .vexp w => Sys2Proof.Machine.execVexp w s
  | .vrcp w => Sys2Proof.Machine.execVrcp w s
  | .vrsq w => Sys2Proof.Machine.execVrsq w s
  | .vtanh w => Sys2Proof.Machine.execVtanh w s
  | .vperm w => Sys2Proof.Machine.execVperm w s
  | .vcomp w => Sys2Proof.Machine.execVcomp w s
  | .vexpn w => Sys2Proof.Machine.execVexpn w s
  | .vpack w => Sys2Proof.Machine.execVpack w s
  | .vunpk w => Sys2Proof.Machine.execVunpk w s
  | .vord w => Sys2Proof.Machine.execVord w s
  | .vdigit w => Sys2Proof.Machine.execVdigit w s
  | .vhisto w => Sys2Proof.Machine.execVhisto w s
  | .vcount w => Sys2Proof.Machine.execVcount w s
  | .tcfg w => Sys2Proof.Machine.execTcfg w s
  | .tzero w => Sys2Proof.Machine.execTzero w s
  | .tload w => Sys2Proof.Machine.execTload w s
  | .tstore w => Sys2Proof.Machine.execTstore w s
  | .mma w => Sys2Proof.Machine.execMma w s
  | .mmas w => Sys2Proof.Machine.execMmas w s
  | .mmag w => Sys2Proof.Machine.execMmag w s
  | .qstage w => Sys2Proof.Machine.execQstage w s
  | .tchk w => Sys2Proof.Machine.execTchk w s
  | .mcmd w => Sys2Proof.Machine.execMcmd w s
  | .capmint w => Sys2Proof.Machine.execCapmint w s
  | .lend w => Sys2Proof.Machine.execLend w s
  | .mbind w => Sys2Proof.Machine.execMbind w s
  | .mmerge w => Sys2Proof.Machine.execMmerge w s
  | .mdrain w => Sys2Proof.Machine.execMdrain w s
  | .mstat w => Sys2Proof.Machine.execMstat w s
  | .bkld w => Sys2Proof.Machine.execBkld w s
  | .bkarm w => Sys2Proof.Machine.execBkarm w s
  | .bkoff w => Sys2Proof.Machine.execBkoff w s
  | .bkstat w => Sys2Proof.Machine.execBkstat w s
  | .cpy w => Sys2Proof.Machine.execCpy w s
  | .cpyi w => Sys2Proof.Machine.execCpyi w s
  | .cpyz w => Sys2Proof.Machine.execCpyz w s
  | .sealBatch w => Sys2Proof.Machine.execSealBatch w s
  | .waitb w => Sys2Proof.Machine.execWaitb w s
  | .cpq w => Sys2Proof.Machine.execCpq w s
  | .rget w => Sys2Proof.Machine.execRget w s
  | .rput w => Sys2Proof.Machine.execRput w s
  | .wsig w => Sys2Proof.Machine.execWsig w s
  | .send w => Sys2Proof.Machine.execSend w s
  | .xput w => Sys2Proof.Machine.execXput w s
  | .xend w => Sys2Proof.Machine.execXend w s
  | .amsg w => Sys2Proof.Machine.execAmsg w s
  | .depcfg w => Sys2Proof.Machine.execDepcfg w s
  | .bar w => Sys2Proof.Machine.execBar w s
  | .bara w => Sys2Proof.Machine.execBara w s
  | .barw w => Sys2Proof.Machine.execBarw w s
  | .barcfg w => Sys2Proof.Machine.execBarcfg w s
  | .fence w => Sys2Proof.Machine.execFence w s
  | .atomAdd w => Sys2Proof.Machine.execAtomAdd w s
  | .atomMin w => Sys2Proof.Machine.execAtomMin w s
  | .atomMax w => Sys2Proof.Machine.execAtomMax w s
  | .atomAnd w => Sys2Proof.Machine.execAtomAnd w s
  | .atomOr w => Sys2Proof.Machine.execAtomOr w s
  | .atomXor w => Sys2Proof.Machine.execAtomXor w s
  | .atomSwap w => Sys2Proof.Machine.execAtomSwap w s
  | .atomCas w => Sys2Proof.Machine.execAtomCas w s
  | .stag w => Sys2Proof.Machine.execStag w s
  | .hstart w => Sys2Proof.Machine.execHstart w s
  | .hexit w => Sys2Proof.Machine.execHexit w s
  | .hjoin w => Sys2Proof.Machine.execHjoin w s
  | .hstat w => Sys2Proof.Machine.execHstat w s
  | .tkpost w => Sys2Proof.Machine.execTkpost w s
  | .tktake w => Sys2Proof.Machine.execTktake w s
  | .launch w => Sys2Proof.Machine.execLaunch w s
  | .setsz w => Sys2Proof.Machine.execSetsz w s
  | .anch w => Sys2Proof.Machine.execAnch w s
  | .trap w => Sys2Proof.Machine.execTrap w s
  | .srr w => Sys2Proof.Machine.execSrr w s
  | .srw w => Sys2Proof.Machine.execSrw w s
  | .pgen w => Sys2Proof.Machine.execPgen w s
  | .rft w => Sys2Proof.Machine.execRft w s
  | .snap w => Sys2Proof.Machine.execSnap w s
  | .roll w => Sys2Proof.Machine.execRoll w s
  | .inj w => Sys2Proof.Machine.execInj w s
  | .binset w => Sys2Proof.Machine.execBinset w s
  | .regbind w => Sys2Proof.Machine.execRegbind w s
  | .mapset w => Sys2Proof.Machine.execMapset w s
  | .tlbinv w => Sys2Proof.Machine.execTlbinv w s
  | .ctxsave w => Sys2Proof.Machine.execCtxsave w s
  | .ctxsaveKill w => Sys2Proof.Machine.execCtxsaveKill w s
  | .ctxsaveGkill w => Sys2Proof.Machine.execCtxsaveGkill w s
  | .ctxload w => Sys2Proof.Machine.execCtxload w s
  | .quota w => Sys2Proof.Machine.execQuota w s
  | .preempt w => Sys2Proof.Machine.execPreempt w s
  | .resultLanding ag => Sys2Proof.Machine.execResultLanding ag s
  | .counterproofCommit pl id => Sys2Proof.Machine.execCounterproofCommit pl id s
  | .counterproofMismatch c t word lane => Sys2Proof.Machine.execCounterproofMismatch c t word lane s
  | .vectorRowStep c op => Sys2Proof.Machine.execVectorRowStep c op s
  | .engineStart c op => Sys2Proof.Machine.execEngineStart c op s
  | .productLanding c op => Sys2Proof.Machine.execProductLanding c op s
  | .checksumVerdict c op => Sys2Proof.Machine.execChecksumVerdict c op s
  | .productReplay c op => Sys2Proof.Machine.execProductReplay c op s
  | .personalityOperation c req => Sys2Proof.Machine.execPersonalityOperation c req s
  | .bankChangePerform c req => Sys2Proof.Machine.execBankChangePerform c req s
  | .bankChangeEnd c req => Sys2Proof.Machine.execBankChangeEnd c req s
  | .trapContextStart c => Sys2Proof.Machine.execTrapContextStart c s
  | .helperGrant c => Sys2Proof.Machine.execHelperGrant c s
  | .routineDispatch c => Sys2Proof.Machine.execRoutineDispatch c s
  | .budgetRefill c => Sys2Proof.Machine.execBudgetRefill c s
  | .depositArrival c j v => Sys2Proof.Machine.execDepositArrival c j v s
  | .sendLanding id => Sys2Proof.Machine.execSendLanding id s
  | .remoteRequestReceive op part => Sys2Proof.Machine.execRemoteRequestReceive op part s
  | .staleReissue op part => Sys2Proof.Machine.execStaleReissue op part s
  | .memoryCoreRequest op => Sys2Proof.Machine.execMemoryCoreRequest op s
  | .pageWalk op part => Sys2Proof.Machine.execPageWalk op part s
  | .copyPush op part => Sys2Proof.Machine.execCopyPush op part s
  | .homePerform op part => Sys2Proof.Machine.execHomePerform op part s
  | .clockNoticeSend die => Sys2Proof.Machine.execClockNoticeSend die s
  | .clockNoticeReceive die src num => Sys2Proof.Machine.execClockNoticeReceive die src num s
  | .rcReplyReceive die clk => Sys2Proof.Machine.execRcReplyReceive die clk s
  | .wsigSignal op => Sys2Proof.Machine.execWsigSignal op s
  | .engineOperationComplete op => Sys2Proof.Machine.execEngineOperationComplete op s
  | .faultService => Sys2Proof.Machine.execFaultService s
  | .burinTrigger c row => Sys2Proof.Machine.execBurinTrigger c row s
  | .mergeDecision c => Sys2Proof.Machine.execMergeDecision c s
  | .mcmdArrival op => Sys2Proof.Machine.execMcmdArrival op s
  | .mcmdStart c op => Sys2Proof.Machine.execMcmdStart c op s
  | .amsgArrival op => Sys2Proof.Machine.execAmsgArrival op s
  | .exchangePacketLand grp dom idx => Sys2Proof.Machine.execExchangePacketLand grp dom idx s
  | .barrierRelease grp dom => Sys2Proof.Machine.execBarrierRelease grp dom s
  | .proofReady grp => Sys2Proof.Machine.execProofReady grp s
  | .mapChangeBegin grp => Sys2Proof.Machine.execMapChangeBegin grp s
  | .mapCopyComplete grp => Sys2Proof.Machine.execMapCopyComplete grp s
  | .coupledStop grp dom => Sys2Proof.Machine.execCoupledStop grp dom s
  | .coupledRerelease grp dom => Sys2Proof.Machine.execCoupledRerelease grp dom s
  | .stopAtCycle grp => Sys2Proof.Machine.execStopAtCycle grp s
  | .resumeCycle ctx => Sys2Proof.Machine.execResumeCycle ctx s
  | .rollback grp => Sys2Proof.Machine.execRollback grp s
  | .rollbackRelease grp => Sys2Proof.Machine.execRollbackRelease grp s
  | .ueConsumed grp code detail => Sys2Proof.Machine.execUeConsumed grp code detail s
  | .launchDecision => Sys2Proof.Machine.execLaunchDecision s
  | .kernelCheck grp => Sys2Proof.Machine.execKernelCheck grp s
  | .placement grp => Sys2Proof.Machine.execPlacement grp s
  | .startBroadcast grp => Sys2Proof.Machine.execStartBroadcast grp s
  | .groupRetire grp => Sys2Proof.Machine.execGroupRetire grp s
  | .dkeyRetry ctx => Sys2Proof.Machine.execDkeyRetry ctx s
  | .checkpointSave => Sys2Proof.Machine.execCheckpointSave s
  | .checkpointRestore => Sys2Proof.Machine.execCheckpointRestore s
  | .checkpointComplete ok => Sys2Proof.Machine.execCheckpointComplete ok s
  | .hostPortCompletion port ok => Sys2Proof.Machine.execHostPortCompletion port ok s
  | .hostLaunchDmwr port offset data => Sys2Proof.Machine.execHostLaunchDmwr port offset data s
  | .launchWindowWrite port offset => Sys2Proof.Machine.execLaunchWindowWrite port offset s
  | .hubMapSignal ctx key => Sys2Proof.Machine.execHubMapSignal ctx key s
  | .dieReset die => Sys2Proof.Machine.execDieReset die s
  | .binDRetest slab pass => Sys2Proof.Machine.execBinDRetest slab pass s
  | .ctx0pWrite v => Sys2Proof.Machine.execCtx0pWrite v s
  | .fabnoWrite v => Sys2Proof.Machine.execFabnoWrite v s
  | .mgmtRegisterWrite offset v => Sys2Proof.Machine.execMgmtRegisterWrite offset v s
  | .keyGenerate id => Sys2Proof.Machine.execKeyGenerate id s
  | .keyErase id => Sys2Proof.Machine.execKeyErase id s
  | .identityKeyRead => Sys2Proof.Machine.execIdentityKeyRead s
  | .attestationReport nonce => Sys2Proof.Machine.execAttestationReport nonce s
  | .linkEnable link => Sys2Proof.Machine.execLinkEnable link s
  | .linkDisable link => Sys2Proof.Machine.execLinkDisable link s
  | .linkTrainingDone link good => Sys2Proof.Machine.execLinkTrainingDone link good s
  | .linkRetrainTrigger link lost => Sys2Proof.Machine.execLinkRetrainTrigger link lost s
  | .flitReceive link flit => Sys2Proof.Machine.execFlitReceive link flit s
  | .linkSetChange link joins => Sys2Proof.Machine.execLinkSetChange link joins s
  | .peerRequest src offset form data len => Sys2Proof.Machine.execPeerRequest src offset form data len s
  | .deviceReset fails => Sys2Proof.Machine.execDeviceReset fails s
  | .clockStepDown => Sys2Proof.Machine.execClockStepDown s
  | .thermalStep => Sys2Proof.Machine.execThermalStep s
  | .clockStepUp => Sys2Proof.Machine.execClockStepUp s
  | .pwrRefresh pkgw tmax => Sys2Proof.Machine.execPwrRefresh pkgw tmax s
  | .heldPlacementRetry => Sys2Proof.Machine.execHeldPlacementRetry s

end Sys2Proof.Machine
end

