-- ==== Sys2Proof/Machine/Run.lean ====
section
/-! DEFINITION. How a step goes: events, issue slots, the clock; and where an instruction is placed so that it is fetched next. -/

namespace Sys2Proof.Machine

/-- The word of the current agent is fetched, decoded and executed (R139, R156). -/
def runWord (s : State) : Out :=
  let bs := s.fetch s.cur
  match decode bs with
  | .ok (i, _) => exec i s
  | .error _ => .next (illegalWord s (wordOfBytes bs).toNat)

/-- The next issue slot of this cycle is offered (R76 to R79, R350). -/
def nextTurn (s : State) : Turn → Out
  | .thr c t => if offered s c t then runWord { s with cur := .core c t } else .next s
  | .grant c => exec (.helperGrant c) s
  | .req id => runWord { s with cur := .req id }

/-- An event of priority `prio` may come now: first what lands and is committed at the start of the cycle (R72, R90), then, once what reads has
read, all but the sends and the accesses to banks, which come after the issue slots (R88). -/
def eventDue (s : State) (prio : Nat) : Bool :=
  if !s.read then decide (prio < prioRelease)
  else if !s.opened || !s.todo.isEmpty then decide (prio < prioSend)
  else true

/-- One step: an event that is due; else what reads on this cycle, or the issue slots are laid out, or the next slot; else the scalar accesses of
the cycle are served, and the clock goes on. A device held in reset goes no further (R423). -/
def runStep (s : State) : Out :=
  match s.agenda with
  | e :: rest => if e.due ≤ s.now && eventDue s e.prio then exec e.ev { s with agenda := rest } else turn s
  | [] => turn s
where
  /-- no event is due -/
  turn (s : State) : Out :=
    if !s.read then .next (readAll s)
    else if !s.opened then .next (layOut s)
    else
      match s.todo with
      | t :: rest => nextTurn { s with todo := rest } t
      | [] =>
        if !s.closed then .next (serveAll s)
        else if s.hub.failed = 0 then .next (tick s)
        else .fault (.heldInReset s.hub.failed)

/-- A core of a running group, with nothing in flight, whose control context is about to fetch the word at word 0. -/
def fetchThread : Thread := { stat := .run }

/-- The instruction's twelve bytes are the first word of the code of group 0 of context 0, which runs on front end 0, and the next
slot is its control context's (log entry 11). -/
def State.placeWord (s : State) (nbits w : Nat) : State :=
  let code := memWrite [] 0 (bytesOfWord (BitVec.ofNat 96 (w % 2 ^ nbits)))
  let g : Group := { st := .running, kernel := { codeW := 1, code := code, states := [{}] }, members := [0], map := [0] }
  let k : Core := { grp := some 0, budg := 65536, threads := [(0, fetchThread)] }
  { s with cores := SMap.put s.cores 0 k, groups := SMap.put s.groups 0 g, agenda := [], todo := [.thr 0 0], read := true, opened := true, closed := false }

end Sys2Proof.Machine
end

