-- ==== Sys2Proof/Safety.lean ====
section
/-! DEFINITION. The terms in which the statements speak: a run that meets no fault and no refusal, the condition under which a word issues,
and what an effect leaves alone. -/

namespace Sys2Proof.Machine

/-- A run of `n` steps goes through: no step of it faults or is refused. -/
def safeRun (n : Nat) (s : State) : Prop := ∃ t, Sys2Proof.core.run n s = .next t

/-- The thread whose word is being executed. -/
def State.mine (s : State) : Thread := s.threadOf s.cur

/-- The word of `i` passes: no wait of the thread goes on, the guard reads true and every check of R353 before the word's own lets it
through, the thread owes no trap (R264, R353), and it has room for the word's results (R357). -/
def passes (i : Instr) (s : State) : Bool :=
  !s.mine.waiting && decide (s.inFlight s.cur ≤ 28) && (owedTrap s s.cx).isNone &&
    (match i.word with | some x => gate x s == .go | none => false)

/-- No result of the word lands with an earlier write of its register: the checks of R70 have passed for a word of one latency, and for another
no write of a register that it writes is in flight. Only under WCHK in a timed segment does it matter. -/
def landsAlone (i : Instr) (s : State) : Bool :=
  !(s.cx.timed && s.wchk s.cx.c) || i.word.all fun x => x.form.lat != 0 || (x.form.writes x.w).all fun r => (s.mine.outstanding r).isNone

/-- The word of `i` issues and acts: it passes, and its results land alone. -/
def issues (i : Instr) (s : State) : Bool := passes i s && landsAlone i s

/-- The thread's next word may issue: it runs, waits for nothing, owes no trap, and its word, of this hint, is due. -/
def wordDue (s : State) (h : Hint) : Bool :=
  !s.mine.waiting && s.mine.stat == .run && (owedTrap s s.cx).isNone && decide (s.mine.due (s.segOf s.cur s.mine.pc) h ≤ s.now)

/-- No event is to come now (R72, R88, R90). -/
def noEvent (s : State) : Prop := ∀ e, s.agenda.head? = some e → s.now < e.due ∨ eventDue s e.prio = false

/-- The cycle has come to its issue slots, or past them. -/
def slotsOffered (s : State) : Prop := noEvent s ∧ s.read = true ∧ s.opened = true

/-- A helper beside timed code (R82, R137), and the energy that it must leave (R137). -/
def besideTimed (s : State) : Bool := decide (1 ≤ s.cx.t) && decide (s.cx.t ≤ 10) && s.controlInTimed s.cx.c
def reserveHere (s : State) : Nat :=
  if besideTimed s then ((s.kernelAt s.cx.c).states.getD (s.coreAt s.cx.c).state {}).resv else 0

/-- The thread's word lies in no timed segment. -/
def untimedHere (s : State) : Bool := (s.segOf s.cur s.mine.pc).isNone

/-- The energy units that the word debits (R136). -/
def debit (s : State) (x : WordOf) : Nat := if budgeted s.cur then wordUnits s s.cx x else 0

/-- The step of R156 that refuses the word. -/
def encodingCause (s : State) (x : WordOf) : Option Nat := x.form.cause x.w (s.privileged s.cur) (agentProfile s.cur) s.cx.timed

/-- No write of a register that the word reads, writes or is guarded by is in flight (R67, R69). -/
def registersSettled (s : State) (x : WordOf) : Bool :=
  !scoreboard s.mine x && !(x.w.guardReg.any fun r => (s.mine.outstanding r).isSome)

/-! What is left alone. -/

/-- Every named register, queue entry, pointer and predicate of a thread, and its VL, stand (R62). -/
def registersKept (a b : Thread) : Prop := b.n = a.n ∧ b.q = a.q ∧ b.a = a.a ∧ b.p = a.p ∧ b.vl = a.vl

/-- Every byte of every store reads as before: committed bytes, global and host memory, and local and shared memory as any requester sees
them on any cycle. -/
def bytesKept (s t : State) : Prop :=
  (∀ a, memByte t.phys a = memByte s.phys a) ∧ (∀ a, memByte t.host a = memByte s.host a) ∧
    (∀ p a, memByte (t.memOf p) a = memByte (s.memOf p) a) ∧ ∀ c who cyc a n, t.view c who cyc a n = s.view c who cyc a n

/-- What the agenda held it still holds. -/
def agendaKept (s t : State) : Prop := ∀ e ∈ s.agenda, e ∈ t.agenda

/-- An event is due. -/
def State.dueAt (s : State) (cyc prio : Nat) (ev : Instr) : Prop := ({ due := cyc, prio := prio, ev := ev } : Entry) ∈ s.agenda

/-- The core is as it was, but for its threads and what the issue of a word itself changes: the budget, the issue slot, the lend window
of another segment and the helpers' grant pointer (R76, R79, R136, R239). -/
def coreKept (a b : Core) : Prop :=
  b = { a with threads := b.threads, budg := b.budg, spent := b.spent, issuedAt := b.issuedAt, lend := b.lend, grant := b.grant }

/-- Nothing changes but the executing thread, the issue itself and the agenda, to which events may come. -/
def onlyMine (s t : State) : Prop :=
  t = { s with cores := t.cores, reqThreads := t.reqThreads, agenda := t.agenda, fresh := t.fresh } ∧
    (∀ ag, ag ≠ s.cur → t.threadOf ag = s.threadOf ag) ∧ (∀ c, coreKept (s.coreAt c) (t.coreAt c)) ∧
    (∀ c, (∀ u, s.cur ≠ .core c u) → t.coreAt c = s.coreAt c) ∧
    (∀ id, t.reqAt id = { s.reqAt id with thread := (t.reqAt id).thread }) ∧ agendaKept s t

/-- The thread's results in flight are those of before and one more, which lands on its cycle (R25, R64). -/
def lands (s t : State) (dest : Dest) (v : Word) (push : Bool) (lat : Nat) : Prop :=
  ∃ f : Flight, t.mine.flight = s.mine.flight ++ [f] ∧ f.dest = dest ∧ f.value = v ∧ f.push = push ∧ f.land = s.now + lat ∧ f.known = true ∧
    f.sample = none ∧ t.dueAt (s.now + lat) prioLanding (.resultLanding s.cur)

/-! What the scalar words compute, said beside the model's own definitions of it. -/

/-- The amount of a shift or rotate: y bits 5..0 (R160). -/
def amount (y : Word) : Nat := (y &&& 63).toNat

/-- The ones of a field of `wid` bits (R162). -/
def ones (wid : Nat) : Word := BitVec.allOnes 64 >>> (64 - wid)

/-- Position and width of a field control (R162): bits 5..0, and bits 11..6 plus 1. -/
def ctlPos (c : Word) : Nat := (c.extractLsb' 0 6).toNat
def ctlWid (c : Word) : Nat := (c.extractLsb' 6 6).toNat + 1

/-- Destination, value and latency of an integer word, a move, a comparison or a word of predicate logic (R159 to R164). -/
def integerResult (i : Instr) (th : Thread) : Option (Dest × Word × Nat) :=
  let two (w : Fields) (f : Word → Word → Word) (lat : Nat) : Option (Dest × Word × Nat) := some (.n w.a.num, f (th.src w.b) (th.src w.c), lat)
  let test (w : Fields) (f : Word → Word → Bool) : Option (Dest × Word × Nat) :=
    some (.p w.a.num, if f (th.src w.b) (th.src w.c) then 1 else 0, 1)
  let logic (w : Fields) (f : Bool → Bool → Bool) : Option (Dest × Word × Nat) :=
    some (.p w.a.num, if f (th.readP w.b.num) (th.readP w.c.num) then 1 else 0, 1)
  match i with
  | .add w => two w (fun x y => x + y) 1
  | .sub w => two w (fun x y => x - y) 1
  | .mul w => two w (fun x y => x * y) 3
  | .mulhs w => two w (fun x y => (x.signExtend 128 * y.signExtend 128).extractLsb' 64 64) 3
  | .mulhu w => two w (fun x y => (x.setWidth 128 * y.setWidth 128).extractLsb' 64 64) 3
  | .divs w => two w (fun x y => if y = 0 then BitVec.allOnes 64 else x.sdiv y) 18
  | .divu w => two w (fun x y => if y = 0 then BitVec.allOnes 64 else x / y) 18
  | .rems w => two w (fun x y => if y = 0 then x else x.srem y) 18
  | .remu w => two w (fun x y => if y = 0 then x else x % y) 18
  | .and w => two w (fun x y => x &&& y) 1
  | .or w => two w (fun x y => x ||| y) 1
  | .xor w => two w (fun x y => x ^^^ y) 1
  | .andn w => two w (fun x y => x &&& ~~~y) 1
  | .shl w => two w (fun x y => x <<< amount y) 1
  | .shrl w => two w (fun x y => x >>> amount y) 1
  | .shra w => two w (fun x y => x.sshiftRight (amount y)) 1
  | .rotl w => two w (fun x y => (x <<< amount y) ||| (x >>> (64 - amount y))) 1
  | .clz w => some (.n w.a.num, (th.src w.b).clz, 1)
  | .popc w => some (.n w.a.num, BitVec.ofNat 64 ((List.range 64).countP fun k => (th.src w.b).getLsbD k), 1)
  | .mins w => two w (fun x y => if x.slt y then x else y) 1
  | .maxs w => two w (fun x y => if x.slt y then y else x) 1
  | .minu w => two w (fun x y => if x.ult y then x else y) 1
  | .maxu w => two w (fun x y => if x.ult y then y else x) 1
  | .abs w => some (.n w.a.num, if (th.src w.b).msb then 0 - th.src w.b else th.src w.b, 1)
  | .sext w => some (.n w.a.num, ((th.src w.b) <<< (64 - (th.src w.c).toNat)).sshiftRight (64 - (th.src w.c).toNat), 1)
  | .zext w => some (.n w.a.num, th.src w.b &&& ones (th.src w.c).toNat, 1)
  | .bfx w => two w (fun x c => (x >>> ctlPos c) &&& ones (ctlWid c)) 1
  | .bfi w =>
    let c := th.src w.c
    let mask := ones (ctlWid c) <<< ctlPos c
    some (.n w.a.num, (th.readN w.a.num &&& ~~~mask) ||| ((th.src w.b <<< ctlPos c) &&& mask), 1)
  | .li w => some (.n w.a.num, w.wideImm.signExtend 64, 1)
  | .lih w => some (.n w.a.num, (th.readN w.a.num &&& ones 40) ||| ((w.wideImm.setWidth 64) <<< (40 : Nat)), 1)
  | .mov w => some (.n w.a.num, th.src w.b, 1)
  | .sel w => some (.n w.a.num, if th.readP w.b.num then th.src w.c else th.readN w.a.num, 1)
  | .cmpEq w => test w (fun x y => decide (x = y))
  | .cmpNe w => test w (fun x y => decide (x ≠ y))
  | .cmpLt w => test w (fun x y => x.slt y)
  | .cmpGe w => test w (fun x y => y.sle x)
  | .cmpLtu w => test w (fun x y => x.ult y)
  | .cmpGeu w => test w (fun x y => y.ule x)
  | .pand w => logic w (fun x y => x && y)
  | .por w => logic w (fun x y => x || y)
  | .pxor w => logic w (fun x y => x != y)
  | .pnot w => some (.p w.a.num, if th.readP w.b.num then 0 else 1, 1)
  | _ => none

/-- Destination, value, flags and latency of a scalar floating word, by the arithmetic of the number chapter (R165 to R167). -/
def floatingResult (i : Instr) (th : Thread) : Option (Dest × Word × Flags × Nat) :=
  let num (w : Fields) (o : Operand) : Num := decodeFloat w.a.fmt ((th.value o true).toNat % 2 ^ fmtBits w.a.fmt)
  let arith (w : Fields) (r : Nat × Flags) : Option (Dest × Word × Flags × Nat) := some (.n w.a.num, BitVec.ofNat 64 r.1, r.2, 4)
  let test (w : Fields) (cc : Nat) : Option (Dest × Word × Flags × Nat) :=
    let f := w.b.fmt
    let r := cmpNum cc (decodeFloat f ((th.value w.b true).toNat % 2 ^ fmtBits f)) (decodeFloat f ((th.value w.c true).toNat % 2 ^ fmtBits f))
    some (.p w.a.num, if r.1 then 1 else 0, r.2, 2)
  match i with
  | .fadd w => arith w (addNum w.a.fmt w.m.toNat (num w w.b) (num w w.c))
  | .fmul w => arith w (mulNum w.a.fmt w.m.toNat (num w w.b) (num w w.c))
  | .ffma w => arith w (fmaNum w.a.fmt w.m.toNat (num w w.b) (num w w.c) (decodeFloat w.a.fmt ((th.readN w.a.num).toNat % 2 ^ fmtBits w.a.fmt)))
  | .fcmpEq w => test w 0
  | .fcmpNe w => test w 1
  | .fcmpLt w => test w 2
  | .fcmpLe w => test w 3
  | .fcmpUn w => test w 6
  | .fcvt w =>
    let r := convert w.a.fmt w.b.fmt w.m.toNat ((th.value w.b true).toNat % 2 ^ fmtBits w.b.fmt)
    some (.n w.a.num, if fmtSigned w.a.fmt then (BitVec.ofNat (fmtBits w.a.fmt) r.1).signExtend 64 else BitVec.ofNat 64 r.1, r.2, 3)
  | _ => none

/-- Where a control word goes when it branches (R168). -/
def branchTarget (i : Instr) (s : State) : Option Word :=
  let here (o : Operand) : Word := BitVec.ofInt 64 ((s.mine.pc : Int) + o.immInt)
  match i with
  | .br w => some (here w.a)
  | .bri w => some (s.mine.src w.a + BitVec.ofInt 64 w.b.immInt)
  | .call w => some (here w.b)
  | .ret w => some (s.mine.src w.a)
  | .loop w => if s.mine.readN w.a.num - 1 = 0 then none else some (here w.b)
  | _ => none

/-- What a control word writes when it branches: CALL its link, LOOP its count (R168). -/
def branchResult (i : Instr) (s : State) : Option (Dest × Word) :=
  match i with
  | .call w => some (.n w.a.num, BitVec.ofNat 64 (s.mine.pc + 1))
  | .loop w => some (.n w.a.num, s.mine.readN w.a.num - 1)
  | _ => none

/-- A branch target that the thread may go to: in the timed segment, where it is in one (R169), and in its code region (R168). -/
def targetInside (s : State) (target : Word) : Bool :=
  (s.segOf s.cur s.mine.pc).all (fun g => decide (g.first ≤ target.toNat) && decide (target.toNat < g.first + g.nw)) &&
    decide (target.toNat < s.codeWords s.cur)

/-! Loads and stores. -/

/-- The state as the effect of a word finds it: the word has issued (R66, R76, R136). -/
def found (i : Instr) (s : State) : State :=
  match i.word with
  | some x => s.issued x
  | none => s

/-- Registers, flags, place and state of every thread but the executing one stand. -/
def othersKept (s t : State) : Prop :=
  ∀ ag, ag ≠ s.cur → registersKept (s.threadOf ag) (t.threadOf ag) ∧ (t.threadOf ag).fflg = (s.threadOf ag).fflg ∧
    (t.threadOf ag).pc = (s.threadOf ag).pc ∧ (t.threadOf ag).stat = (s.threadOf ag).stat

/-- Of a core, only these stand open: its threads, what the issue changes, and what `free` lets change. -/
def coreBut (free : Core → Core → Core) (a b : Core) : Prop :=
  b = free b { a with threads := b.threads, budg := b.budg, spent := b.spent, issuedAt := b.issuedAt, lend := b.lend, grant := b.grant }

/-- Nothing changes but the executing core: its threads, and what `free` lets change, with the claims and held writes of clusters. No
register of another thread changes, and no memory. -/
def onlyCore (free : Core → Core → Core) (s t : State) : Prop :=
  t = { s with cores := t.cores, clusters := t.clusters, agenda := t.agenda, fresh := t.fresh } ∧
    (∀ c, (∀ u, s.cur ≠ .core c u) → t.coreAt c = s.coreAt c) ∧ (∀ c, coreBut free (s.coreAt c) (t.coreAt c)) ∧ othersKept s t ∧
    ∀ p a, memByte (t.memOf p) a = memByte (s.memOf p) a

/-- What scalar accesses change in a core beside its threads: held writes, accesses at banks, armed tags, requests to banks. -/
def accessState (b a : Core) : Core := { a with pend := b.pend, acc := b.acc, armed := b.armed, freed := b.freed, reqs := b.reqs }

/-- A scalar load: width in bytes and fields (R173). -/
def loadOf : Instr → Option (Nat × Fields)
  | .ldlB w => some (1, w)
  | .ldlH w => some (2, w)
  | .ldlW w => some (4, w)
  | .ldlD w => some (8, w)
  | _ => none

/-- A scalar store: width in bytes and fields (R173). -/
def storeOf : Instr → Option (Nat × Fields)
  | .stlB w => some (1, w)
  | .stlH w => some (2, w)
  | .stlW w => some (4, w)
  | .stlD w => some (8, w)
  | _ => none

/-- The access of a load, and of a store, at its address (R173). -/
def loadAccess (n : Nat) (w : Fields) (u : State) : Access :=
  { addr := scalarAddr u u.cx w.b w.c, width := n, signed := w.m.getLsbD 0, m := w.m.toNat }
def storeAccess (n : Nat) (w : Fields) (u : State) : Access :=
  { addr := scalarAddr u u.cx w.a w.c, width := n, store := true, m := w.m.toNat }

/-- No row, bank or check stops the access (R174, R177, R181, R410). -/
def accessGoes (s u : State) (x : Access) (cGiven : Bool) : Bool :=
  !accessHeld u s.cx x && (accessTrap u s.cx x cGiven (accessCycle u x.addr.ea)).isNone

/-- A post-incremented pointer lands its base plus its stride on the next cycle, and nothing is pushed (R65, R173). -/
def advances (s t : State) (o : Operand) : Prop :=
  o.inc = true → ∃ f ∈ t.mine.flight, f.dest = .a o.num ∧ f.push = false ∧ f.land = s.now + 1 ∧
    f.value = ({ s.mine.readA o.num with base := (s.mine.readA o.num).base + BitVec.ofInt 24 (s.mine.readA o.num).stride.toInt } : Ptr).image

/-- A scalar access of the executing thread waits for its bank from cycle `arrive` on (R88). -/
def atBank (s t : State) (c u a key arrive : Nat) : Prop :=
  ∃ x ∈ t.accOf (placeOf c a), x.bank = bankIn a ∧ x.arrive = arrive ∧ x.who = requester u ∧ x.core = c ∧ x.first = s.cx.timed ∧
    x.scalar = true ∧ x.addr = a ∧ x.key = key

/-- No other timed use of a shared bank of the cluster is on this cycle (R110). -/
def sharedQuiet (s : State) (c : Nat) : Prop :=
  s.cx.timed = true → ∀ b, ∀ x ∈ sharedUses s (clusterOf c) b, x.core = c ∧ x.send = none

/-- What identifies a write that is held until it commits: number, address, bytes, requester, core. -/
def PendWrite.what (w : PendWrite) : Nat × Nat × List Byte × Nat × Nat := (w.id, w.addr, w.data, w.who, w.core)

/-! Banks. -/

/-- No detector of the core is to report, and no word that its reads may meet is poisoned (R398 to R402). -/
def noDetector (s : State) (c : Nat) : Prop :=
  (s.coreAt c).inj = [] ∧ (s.coreAt c).real = [] ∧ (s.coreAt c).poison = [] ∧ (s.clusterAt (clusterOf c)).poison = []

/-- A request of the executing thread has been sent to a bank; it reaches it 4 cycles on (R91). -/
def requests (s t : State) (c u bank : Nat) (op : BankOp) (flight dest : Option Nat) : Prop :=
  ∃ q, SMap.find (t.coreAt c).reqs q =
      some { bank := bank, who := requester u, op := op, flight := flight, dest := dest, thr := u, issued := s.now, word := s.mine.pc } ∧
    t.dueAt (s.now + 4) (prioBank + requester u) (.personalityOperation c q)

/-- A result in flight whose value and cycle the bank will give. -/
def awaits (t : State) (q : Nat) (dest : Dest) (push : Bool) : Prop :=
  ∃ f ∈ t.mine.flight, f.seq = q ∧ f.dest = dest ∧ f.push = push ∧ f.known = false

/-- The cycles by which returns from traps have moved the result of number `q` (R73). -/
def lateBy (q : Option Nat) (fl : List Flight) : Nat := ((fl.find? fun f => some f.seq == q).map (·.shift)).getD 0

/-- The list of results in flight, once the one of number `q` has its value and its cycle. -/
def given (q : Option Nat) (v : Word) (land : Nat) (fl : List Flight) : List Flight :=
  fl.map fun f => if some f.seq = q then { f with value := v, land := land + lateBy q fl, known := true } else f

/-- The bank grants request `q` on this cycle, and no earlier operation of its thread on the bank is still to come (R88, R91). -/
def bankFree (s : State) (c q : Nat) (r : BankReq) : Bool :=
  bankGrants s (.core c) (s.accessOf c (r.bank * 65536) r.who q) && !requestWaits (s.coreAt c) q r && decide (r.bank < 16)

/-- The bank of a row grants it to requester `who` on this cycle, and no change of the bank holds it (R88, R295). -/
def rowGranted (s : State) (c a who key : Nat) : Bool :=
  !(s.coreAt c).holdsAccess a (s.accessOf c a who key).arrive && bankGrants s (placeOf c a) (s.accessOf c a who key)

/-- A change of a bank has begun: it is requested, the banks are changing, and the word waits (R181). -/
def changeBegun (s t : State) (c u bank : Nat) (banks : List Nat) (op : BankOp) : Prop :=
  ∃ q, SMap.find (t.coreAt c).reqs q = some { bank := bank, who := requester u, op := op, thr := u, issued := s.now } ∧
    (∀ b ∈ banks, q ∈ ((t.coreAt c).bank b).changing) ∧ t.mine.waiting = true ∧ t.mine.waitOn = some q ∧ t.mine.pc = s.mine.pc ∧
    t.dueAt (s.now + 4) (prioBank + requester u) (.bankChangePerform c q)

/-- A byte of the banks of a span. -/
def Span.holds (sp : Span) (a : Nat) : Bool := decide (sp.first * 65536 ≤ a) && decide (a < (sp.first + sp.count) * 65536)

/-- A personality's empty structure (R287, R288, R293): MAGIC, PERS, LIMIT and COUNT 0; word 1 as the personality has it; zeros. -/
def emptyStructure (sp : Span) (m : Memory) (pers : Nat) (b : Word) : Prop :=
  get64 m sp.base = 0x5B4B * 2 ^ 48 + pers * 2 ^ 45 +
      (if b.toNat % 2 ^ 20 = 0 then bankCapacity pers * sp.count else b.toNat % 2 ^ 20) * 2 ^ 20 ∧
    get64 m (sp.base + 8) = (match pers with | 1 => 0x1FFFF | 3 => b.toNat / 2 ^ 20 % 32 | _ => 0) ∧
    ∀ a, sp.holds a = true → sp.base + 16 ≤ a → memByte m a = 0

/-! Vector instructions. -/

/-- What row accesses change in a core beside its threads. -/
def rowState (b a : Core) : Core := { a with acc := b.acc, vecs := b.vecs, rot := b.rot }

/-- A streaming instruction (R188 to R204, R211, R212): its code and its fields. -/
def streamOf : Instr → Option (VCode × Fields)
  | .vadd w => some (.vadd, w)
  | .vsub w => some (.vsub, w)
  | .vmul w => some (.vmul, w)
  | .vfma w => some (.vfma, w)
  | .vmin w => some (.vmin, w)
  | .vmax w => some (.vmax, w)
  | .vabs w => some (.vabs, w)
  | .vneg w => some (.vneg, w)
  | .vand w => some (.vand, w)
  | .vor w => some (.vor, w)
  | .vxor w => some (.vxor, w)
  | .vshl w => some (.vshl, w)
  | .vshr w => some (.vshr, w)
  | .vcmpEq w => some (.vcmp 0, w)
  | .vcmpNe w => some (.vcmp 1, w)
  | .vcmpLt w => some (.vcmp 2, w)
  | .vcmpLe w => some (.vcmp 3, w)
  | .vcmpGt w => some (.vcmp 4, w)
  | .vcmpGe w => some (.vcmp 5, w)
  | .vsel w => some (.vsel, w)
  | .vcvt w => some (.vcvt, w)
  | .vmov w => some (.vmov, w)
  | .vbcast w => some (.vbcast, w)
  | .viota w => some (.viota, w)
  | .vscan w => some (.vscan, w)
  | .vexp w => some (.vexp, w)
  | .vrcp w => some (.vrcp, w)
  | .vrsq w => some (.vrsq, w)
  | .vtanh w => some (.vtanh, w)
  | .vord w => some (.vord, w)
  | .vdigit w => some (.vdigit, w)
  | _ => none

/-- A reduction (R201, R214), and a word that arranges elements (R206), with whether it pushes a count. -/
def reduceOf : Instr → Option (VCode × Fields)
  | .vsum w => some (.vsum, w)
  | .vrmax w => some (.vrmax, w)
  | .vrmin w => some (.vrmin, w)
  | .vcount w => some (.vcount, w)
  | _ => none
def arrangeOf : Instr → Option (VCode × Bool × Fields)
  | .vperm w => some (.vperm, false, w)
  | .vcomp w => some (.vcomp, true, w)
  | .vexpn w => some (.vexpn, true, w)
  | _ => none

/-- What a reduction of no element leaves, A and B of format `f` (R201, R214). -/
def emptyReduction (code : VCode) (f : Nat) : Word :=
  match code with
  | .vrmax => if fmtF f then BitVec.ofNat 64 (infBits f true) else BitVec.ofInt 64 (intMin f)
  | .vrmin => if fmtF f then BitVec.ofNat 64 (infBits f false) else BitVec.ofInt 64 (intMax f)
  | _ => 0

/-- The operand in a position that holds rows: it spans the rows of VL elements of its format (R186, R187). -/
def rowsAt (th : Thread) (o : Operand) : Option VMem := vecMem th o true th.vl.toNat

/-- The memory operands of a streaming instruction: VBCAST and VIOTA have a destination alone (R197, R198). -/
def streamOperands (code : VCode) (th : Thread) (w : Fields) : Option VMem × Option VMem × Option VMem :=
  if code = .vbcast ∨ code = .viota then (rowsAt th w.a, none, none) else (rowsAt th w.a, rowsAt th w.b, rowsAt th w.c)

/-- The uses of three operands. -/
def usesOf (code : VCode) (x : Option VMem × Option VMem × Option VMem) : List VUse :=
  useOf x.1 code.readsA true ++ useOf x.2.1 true false ++ useOf x.2.2 true false

/-- The rows that the longest operand spans. -/
def mostRows (us : List VUse) : Nat := us.foldl (fun n u => max n u.rows) 0

/-- No row stops the word, and no check of R189 that all vector words share. -/
def rowsGo (s u : State) (us : List VUse) : Bool := !usesHeld u s.cx us && (vecTrap u s.cx us none us []).isNone

/-- The turn of a row access of thread `k` on its cycle: a timed one comes before the issue slots (R88, R191). -/
def rowTurn (s : State) (k : Nat) : Nat := if s.cx.timed then prioEngine else prioBank + requester k

/-- A vector instruction has started: nothing of it has been read or written, and its first row is due on this cycle (R190). -/
def started (s t : State) (c k : Nat) (code : VCode) (x : Option VMem × Option VMem × Option VMem) (fmt rows : Nat) : Prop :=
  ∃ q v, SMap.find (t.coreAt c).vecs q = some v ∧ v.code = code ∧ v.thr = k ∧ v.vl = s.mine.vl.toNat ∧ v.a = x.1 ∧ v.b = x.2.1 ∧ v.c = x.2.2 ∧
    v.fmtA = fmt ∧ v.ns = rows ∧ v.step = 0 ∧ v.sub = 0 ∧ v.phase = 0 ∧ v.next = s.now ∧ v.word = s.mine.pc ∧ v.out = [] ∧ v.writes = [] ∧
    v.bufA = [] ∧ v.bufB = [] ∧ v.bufC = [] ∧ t.dueAt s.now (rowTurn s k) (.vectorRowStep c q)

/-- A vector word of no row has issued: no instruction has been started, and what every vector word leaves is left (R186). -/
def noRowStarted (s t : State) (c : Nat) : Prop := (t.coreAt c).vecs = (s.coreAt c).vecs ∧ bytesKept s t

/-- What every vector word that issues leaves: the next word is next, no register and no byte has changed. -/
def rowWordKept (s t : State) : Prop :=
  t.mine.pc = s.mine.pc + 1 ∧ registersKept s.mine t.mine ∧ onlyCore rowState s t ∧ ∀ p, t.pendOf p = s.pendOf p

/-- What an integer element operation that wraps computes (R51, R194). -/
def wrapElem (code : VCode) (bits b c : Nat) : Option Nat :=
  match code with
  | .vadd => some (BitVec.ofNat bits b + BitVec.ofNat bits c).toNat
  | .vsub => some (BitVec.ofNat bits b - BitVec.ofNat bits c).toNat
  | .vmul => some (BitVec.ofNat bits b * BitVec.ofNat bits c).toNat
  | .vand => some (BitVec.ofNat bits b &&& BitVec.ofNat bits c).toNat
  | .vor => some (BitVec.ofNat bits b ||| BitVec.ofNat bits c).toNat
  | .vxor => some (BitVec.ofNat bits b ^^^ BitVec.ofNat bits c).toNat
  | _ => none

/-! Tiles, engines, lending and merging. -/

/-- What the words of the matrix chapter change in a core beside its threads. -/
def tileState (b a : Core) : Core := { a with tiles := b.tiles }
def engineState (b a : Core) : Core := { a with tiles := b.tiles, engs := b.engs }
def tileRowState (b a : Core) : Core := { a with tiles := b.tiles, vecs := b.vecs, acc := b.acc }

/-- TCFG's descriptor (R222): an immediate gives bits 16..0. -/
def descriptor (th : Thread) (o : Operand) : Word := if o.kind = .imm then o.payload.setWidth 64 else th.src o

/-- What a product's word names (R227, R228, R230, R231): a pair of pointers from `j` on, or three for a gather, K from VL, the format of B,
the tile's shape; it starts on the second cycle in untimed code and on its anchor's cycle C in timed code (R221). -/
def productOf (sparse gather : Bool) (w : Fields) (s : State) (t : Tile) : Eng :=
  let p (i : Nat) : Ptr := s.mine.readA (w.b.num + i)
  let stride (i : Nat) : Nat := ((p i).stride.toInt % (2 ^ 24 : Int)).toNat
  let a := if gather then 1 else 0
  { kind := .product, tile := w.a.num, fmt := w.b.fmt, k := s.mine.vl.toNat, zero := w.m.getLsbD 1, ck := w.m.getLsbD 0, sparse := sparse,
    gather := gather, aBase := (p a).base.toNat, aStride := stride a, bBase := (p (a + 1)).base.toNat, bStride := stride (a + 1),
    iBase := (p 0).base.toNat, issue := s.now, timed := s.cx.timed, word := s.mine.pc,
    start := if s.cx.timed then s.mine.anchor + w.c.immInt.toNat else s.now + 2,
    tm := t.rows, tn := t.cols, ty := t.ty, bl := t.bl, sp := t.sp }

/-- A word that starts a product. -/
def productWord : Instr → Option (Bool × Bool × Fields)
  | .mma w => some (false, false, w)
  | .mmas w => some (true, false, w)
  | .mmag w => some (false, true, w)
  | _ => none

/-- The table rows of a gather that its indices select as they stand at the issue (R231, R410). -/
def tableRows (u : State) (c : Nat) (e : Eng) : List Nat :=
  let ir := spanRows (2 * e.tm) 1
  if e.gather then ({ e with idx := (Eng.dense e.iBase ir).flatMap fun a => u.view c 0 u.now a 256 } : Eng).gatherRows.drop ir else []

/-- The start cycle of a timed word lies 2 to 4,095 cycles ahead (R221). -/
def startInRange (s : State) (c : Nat) : Bool :=
  !s.cx.timed || (decide (s.now + 2 ≤ s.mine.anchor + c) && decide (s.mine.anchor + c ≤ s.now + 4095))

/-- Every row may be read, or written, and lies in array banks (R174, R91). -/
def rowsAllowed (u : State) (cx : Cx) (rows : List Nat) (rd wr : Bool) : Bool :=
  (rows.all fun a => (guardTrap u cx a 256 rd wr).isNone) && !(rows.any fun a => (u.coreAt cx.c).personality a 256)

/-- An I8 element of a plane as the array reads it. -/
def elemI8 (plane : List Byte) (n : Nat) : Int := (plane.getD n 0).toInt

/-- The tree as it has read the rows that its cursors have reached (R134), on its cycle. -/
def mergeRead (s : State) (c : Nat) : State :=
  (s.modCore c fun k => { k with merge := { k.merge with next := s.now + 1 } }).loadMerge c

/-- The tree runs on this cycle, and its heads have been read into `g`: no output row is full (R134, R241, R247). -/
def mergeReady (s : State) (c : Nat) (g : Merge) : Prop :=
  (s.coreAt c).merge.st = 1 ∧ (s.coreAt c).merge.next ≤ s.now ∧ s.stands c = false ∧ noDetector s c ∧ g = ((mergeRead s c).coreAt c).merge ∧ g.loaded = true ∧
    g.ready ≤ s.now ∧ g.fin = 0 ∧ g.drain = false ∧ g.rowFull = false

/-- What lending, merging and the burin words change in a core beside its threads. -/
def capState (b a : Core) : Core := { a with caps := b.caps }
def mergeState (b a : Core) : Core := { a with merge := b.merge }
def burinState (b a : Core) : Core := { a with burin := b.burin, vecs := b.vecs, acc := b.acc }

/-- Nothing changes but the executing thread, the operations, the agenda, and the cycle on which a die's latest message to another one arrives
(R112). -/
def onlySent (s t : State) : Prop :=
  onlyMine s { t with ops := s.ops, dies := s.dies } ∧ ∀ d, t.dieAt d = { s.dieAt d with last := (t.dieAt d).last }

/-- Of a state, the executing thread, the operations and the agenda alone may differ; operations of other numbers than `q` stand. -/
def onlyOp (s t : State) (q : Nat) : Prop :=
  onlySent s t ∧ ∀ o, o ≠ q → SMap.find t.ops o = SMap.find s.ops o

/-- The word has started an engine operation of its thread, group and core; it is in the unsealed set, and its first event is due after a
duration of the part's (R123, R124, R426). -/
def opBegun (s t : State) (q : Nat) (e : EngOp) (ev : Instr) : Prop :=
  SMap.find t.ops q = some e ∧ e.agent = s.cur ∧ e.core = s.cx.c ∧ e.grp = s.groupOfCore s.cx.c ∧ e.ctx = s.ctxOf s.cur ∧ e.issued = s.now ∧
    e.st = .running ∧ e.performed = false ∧ t.mine.unsealed = s.mine.unsealed ++ [q] ∧ (∃ d, s.now < d ∧ t.dueAt d 60 ev) ∧
    t.mine.flight = s.mine.flight ∧ t.mine.pc = s.mine.pc + 1 ∧ onlyOp s t q

/-- The same, and no register has changed. -/
def opStarted (s t : State) (q : Nat) (e : EngOp) (ev : Instr) : Prop := opBegun s t q e ev ∧ registersKept s.mine t.mine

/-- A post-incremented pointer has its stride added at the issue itself (R123, R151). -/
def moved (o : Operand) (a b : Thread) : Prop :=
  b.n = a.n ∧ b.q = a.q ∧ b.p = a.p ∧ b.vl = a.vl ∧ ∀ r, b.readA r =
    if o.inc = true ∧ r = o.num then { a.readA r with base := (a.readA r).base + BitVec.ofInt 24 (a.readA r).stride.toInt } else a.readA r

/-- The room that the unsealed set has (R124). -/
def opRoom (s : State) : Bool := decide (s.mine.unsealed.length < 64)

/-- A copy's operation for a load and for a store, and the word's fields (R251). -/
def copyOf : Instr → Option (ReqKind × ReqKind × Fields)
  | .cpy w => some (.cpyLd, .cpySt, w)
  | .cpyi w => some (.cpyiLd, .cpyiSt, w)
  | .cpyz w => some (.cpyz, .cpyz, w)
  | _ => none

/-- Bits 63 to 56 of the global operand: a width of 1 to 63 bits for CPYI, zero for the others (R251, R253). -/
def copyTop (load : ReqKind) (v : Word) : Bool :=
  if load == .cpyiLd then decide (0 < v.toNat / 2 ^ 56) && decide (v.toNat / 2 ^ 56 < 64) else v.toNat / 2 ^ 56 == 0

/-- The copy stores to global memory. -/
def copyStores (load : ReqKind) (w : Fields) : Bool := w.m.getLsbD 0 && load != .cpyz

/-- The copy that a word asks for. -/
def copyAsked (load store : ReqKind) (cx : Cx) (th : Thread) (w : Fields) : EngOp :=
  { kind := if copyStores load w then store else load, m := w.m.toNat, bv := th.src w.b,
    cv := BitVec.ofNat 64 (copyLength cx th w.c 4194304).1, la := (copyLocal cx th w.a).1,
    len := (copyLength cx th w.c 4194304).1, tag := (copyLength cx th w.c 4194304).2.1 }

/-- Neither a check nor a changing bank stops an access of `n` bytes at `a`. -/
def rangeGoes (u : State) (cx : Cx) (a n : Nat) (rd wr : Bool) : Bool :=
  (rangeTrap u cx a n rd wr).isNone && !rangeHeld u cx a n wr

/-- The first event of an operation on a remote operand: a memory core's for a global one, the target NI's for a logical one (R94). -/
def firstEvent (v : Word) (q : Nat) : Instr := if v.getLsbD 63 = true then .memoryCoreRequest q else .remoteRequestReceive q 0

/-- The read-modify-write words (R262): the operation's number and the fields. -/
def atomOf : Instr → Option (Nat × Fields)
  | .atomAdd w => some (0, w)
  | .atomMin w => some (1, w)
  | .atomMax w => some (2, w)
  | .atomAnd w => some (3, w)
  | .atomOr w => some (4, w)
  | .atomXor w => some (5, w)
  | .atomSwap w => some (6, w)
  | .atomCas w => some (7, w)
  | _ => none

/-- What SRR reads in a core's thread of an unprivileged register, but for the counters that take fields together (R63, R152, R348). -/
def specialRead (s : State) (r : Nat) : Option Nat :=
  let k := s.coreAt s.cx.c
  match r with
  | 0x000 => some s.mine.vl.toNat
  | 0x001 => some s.now
  | 0x002 => some s.mine.anchor
  | 0x003 => some k.core
  | 0x004 => some k.clus
  | 0x005 => some k.stk
  | 0x006 => some k.stg
  | 0x007 => some k.sz.toNat
  | 0x009 => some s.mine.fflg.toNat
  | 0x101 => some k.cause.toNat
  | 0x102 => some k.epcw.toNat
  | 0x103 => some (s.groupAt (s.groupOfCore s.cx.c)).mapv.toNat
  | 0x104 => some ((s.contextAt (s.ctxOf s.cur)).used * 2 ^ 32 + (s.contextAt (s.ctxOf s.cur)).limit)
  | 0x107 => some k.tvec.toNat
  | 0x108 => some (s.contextAt (s.ctxOf s.cur)).area
  | _ => none

/-- A stage barrier's word (R131): S, ROWS, FILLS, and the bytes of the fill that is waited for. -/
def stageWord (b : Sbs) (v : Word) : Prop :=
  v.extractLsb' 52 12 = BitVec.ofNat 12 b.s ∧ v.extractLsb' 44 8 = BitVec.ofNat 8 b.rows ∧ v.extractLsb' 28 16 = b.fills ∧
    v.extractLsb' 0 17 = BitVec.ofNat 17 (b.counts.headD 0)

/-- The privileged words that start an engine operation (R282): its kind, form and fields. -/
def privOp : Instr → Option (ReqKind × Nat × Fields)
  | .snap w => some (.snap, 0, w)
  | .roll w => some (.roll, 0, w)
  | .preempt w => some (.preempt, 0, w)
  | .ctxsave w => some (.ctxsave, 0, w)
  | .ctxsaveKill w => some (.ctxsave, 1, w)
  | .ctxsaveGkill w => some (.ctxsave, 2, w)
  | _ => none

/-- The state that a privileged word of a kind and form asks of the group or context that it names (R282, R346, R360, R361). -/
def privFits (s : State) (kind : ReqKind) (m : Nat) (v : Word) : Bool :=
  if kind == .ctxsave && m != 2 then decide (v.toNat ≤ 255) && savable s v.toNat
  else
    (s.handle v).any fun g =>
      if kind == .snap then true
      else if kind == .roll then true
      else if kind == .preempt then decide (256 ≤ g) && (s.groupAt g).st.runs
      else decide (256 ≤ g) && (s.groupAt g).rests

/-- The register of a privileged word names a context, or a live group (R282, R310). -/
def privNumber (s : State) (kind : ReqKind) (m : Nat) (v : Word) : Bool :=
  if kind == .ctxsave && m != 2 then decide (v.toNat ≤ 255) else (s.handle v).isSome

/-- Every operation but that of number `o` stands. -/
def opsKept (s t : State) (o : Nat) : Prop := ∀ x, x ≠ o → SMap.find t.ops x = SMap.find s.ops x

/-- A copy, get or put of global memory whose requests the built-in paths serve (R127, R129). -/
def plainRequest (e : EngOp) : Prop :=
  e.paid = false ∧ e.logical = false ∧
    (e.kind = .cpyLd ∨ e.kind = .cpySt ∨ e.kind = .cpyiLd ∨ e.kind = .cpyiSt ∨ e.kind = .rget ∨ e.kind = .rput)

/-- A request to far memory that is absent (R1). -/
def farAbsent (s : State) (e : EngOp) : Bool := homeTarget s e.ctx e.vaddr == 5 && !Config.farPresent

/-- The place of a request among those of its memory core, and whether it is its turn (R127): a copy of a program waits for none (log entry 62). -/
def turnOf (s : State) (e : EngOp) : Nat := e.arrived.getD s.fresh
def nextInLine (s : State) (o : Nat) (e : EngOp) : Bool :=
  !farAbsent s e &&
    (e.parent.isSome || (decide (s.memCoreLoad (s.memCoreOf e) < 32) && !olderRequest s o (turnOf s e) (s.memCoreOf e)))

/-- Bits 3 to 0 and 9 to 4 of n3 of a request thread: the request's M, its kind and F − 1 (R129). -/
def requestForm (e : EngOp) : Nat :=
  if e.kind = .cpyz then e.m + 8 else if e.kind = .cpyiLd ∨ e.kind = .cpyiSt then e.m + 4 + e.bv.toNat / 2 ^ 56 % 64 * 16 else e.m

/-- The operation goes on: it runs, no cause has ended it, and its group does not stand still. -/
def opGoes (s : State) (o : Nat) (e : EngOp) : Prop :=
  SMap.find s.ops o = some e ∧ e.st = .running ∧ e.cause = none ∧ s.opRests e = false

/-- A message on its way (R266): at the sender's NI, and at the target's, where its flits and its stamp have passed. -/
def messageGoes (s : State) (o : Nat) (e : EngOp) : Prop :=
  SMap.find s.ops o = some e ∧ e.kind = .amsg ∧ e.st = .running ∧ e.performed = false ∧ e.begun = false ∧ s.opRests e = false ∧
    e.mapv = (s.groupAt e.grp).mapv
def messageAtSender (s : State) (o : Nat) (e : EngOp) : Prop := messageGoes s o e ∧ e.part.st ≠ .sent
def messageAtTarget (s : State) (o : Nat) (e : EngOp) : Prop :=
  messageGoes s o e ∧ e.part.st = .sent ∧ noDetector s e.core ∧ clocksAllow (s.arrive e) o e = true

/-- The new value of an atomic on a location of `w` bits, signed or not: old contents, C, compare value (R262). -/
def atomResult {w : Nat} (op : Nat) (signed : Bool) (x y z : BitVec w) : BitVec w :=
  let less (a b : BitVec w) : Bool := if signed then a.slt b else a.ult b
  match op with
  | 0 => x + y
  | 1 => if less y x then y else x
  | 2 => if less x y then y else x
  | 3 => x &&& y
  | 4 => x ||| y
  | 5 => x ^^^ y
  | 6 => y
  | _ => if x = z then y else x

/-- A part that has left may be performed: no clock and no local write holds it (R114, R123). -/
def sentPart (s : State) (o : Nat) (e : EngOp) : Prop :=
  SMap.find s.ops o = some e ∧ e.st = .running ∧ e.cause = none ∧ e.part.st = .sent ∧ clocksAllow (s.arrive e) o e = true ∧
    (e.kind.writes = true → localReady (s.arrive e) o e = true)

/-- It has come to the target of a logical operand, whose group goes on (R95, R358). -/
def arrived (s : State) (o : Nat) (e : EngOp) : Prop := sentPart s o e ∧ s.opRests e = false

/-- It has come to a home in this package, of a page that admits the access (R102, R122): `u` is the state with the frame's tag and owner, and
with the bytes of the part as the page's key reads them (R364). -/
def atHome (s u : State) (o : Nat) (e : EngOp) : Prop :=
  sentPart s o e ∧ e.part.home ≠ 6 ∧
    ∃ v, (s.arrive e).admitAt e = .ok v ∧ u = v.rekey (v.keyOf e.part.key) e.part.pa (if e.kind = .pgen then 0 else e.part.len)

/-- The part is to be translated, and no TLBINV of its page, no older generation of the point and no armed detector stands against it (R366,
R373, R402). -/
def toTranslate (s : State) (o : Nat) (e : EngOp) : Prop :=
  opGoes s o e ∧ e.part.st = .unbegun ∧ (e.kind = .wsig → e.judged = true) ∧ e.stale s = false ∧ s.invalidating e.ctx e.partVa = false ∧
    s.parityCheck e = s

/-- A logical part that has begun stands at its sender's NI: its stamp is that of the current map, and its range exists (R95, R317). -/
def atSender (s : State) (o : Nat) (e : EngOp) : Prop :=
  opGoes s o e ∧ e.begun = true ∧ e.mapv = (s.groupAt e.grp).mapv ∧ reservedRange e.partAddr e.askLen = false ∧ e.part.st ≠ .sent ∧
    e.part.st ≠ .pushing

/-- No write waits for a proof (R329). -/
def nothingHeld (s : State) (g : Nat) : Prop := (s.groupAt g).proof = none ∧ ∀ x ∈ s.groups, x.2.hold = []

/-- The operation has been performed, and its completion is on its way (R123). -/
def completes (s t : State) (o : Nat) : Prop :=
  (t.opAt o).performed = true ∧ ∃ d, s.now < d ∧ t.dueAt d prioNet (.engineOperationComplete o)

/-- An operation of a core's thread, whose member's work is not finished: no one else waits for it to end (R123, R337). -/
def ownOp (s : State) (o : Nat) (e : EngOp) : Prop :=
  SMap.find s.ops o = some e ∧ e.st = .running ∧ e.thread = none ∧ e.peer = none ∧ (∃ c k, e.agent = .core c k ∧ k ≠ 12) ∧
    (s.coreAt e.core).finished = false

/-- A privileged operation that has come to the sequencer. -/
def asked (s : State) (o : Nat) (e : EngOp) (kind : ReqKind) : Prop := ownOp s o e ∧ e.cause = none ∧ e.kind = kind

/-- A notice can be posted at once (R345). -/
def roomForNotice (s : State) : Prop := s.hub.heldNotices = [] ∧ s.hub.privQ.length < 1024

/-- The thread as it stands when its group does not go on: what it holds stays (R358). -/
def stoppedAs (a b : Thread) : Prop := b = { a with stat := if a.stat = .run then .stopped else a.stat }

end Sys2Proof.Machine
end

