-- ==== Sys2Proof/Certificates/Slice0/Obligations.lean ====
section
/-! DEFINITION. The statements for the provers. -/

open Sys2Proof Sys2Proof.Machine

/-! The scalar words. -/

/-- R25, R53, R64, R159 to R167: integer words, moves, comparisons, predicate logic and scalar floating words. -/
def Obligations.ScalarWordLandsItsResult : Prop :=
  (∀ (i : Instr) (s : State) (d : Dest) (v : Word) (lat : Nat), integerResult i s.mine = some (d, v, lat) → issues i s = true →
    ∃ t, exec i s = .next t ∧ lands s t d v true lat ∧ registersKept s.mine t.mine ∧ t.mine.fflg = s.mine.fflg ∧
      t.mine.pc = s.mine.pc + 1 ∧ onlyMine s t ∧ bytesKept s t) ∧
  (∀ (i : Instr) (s : State) (d : Dest) (v : Word) (fl : Flags) (lat : Nat),
    floatingResult i s.mine = some (d, v, fl, lat) → issues i s = true → (∀ id, s.cur ≠ .req id) →
    ∃ t, exec i s = .next t ∧ lands s t d v true lat ∧ registersKept s.mine t.mine ∧ t.mine.fflg = s.mine.fflg ||| fl ∧
      t.mine.pc = s.mine.pc + 1 ∧ onlyMine s t ∧ bytesKept s t)

/-- R168 to R171, R428: branches inside and outside their region, the end of a LOOP, and NOP. -/
def Obligations.ControlWordsBranchOrTrap : Prop :=
  (∀ (i : Instr) (s : State) (target : Word), branchTarget i s = some target → issues i s = true → targetInside s target = true →
    ∃ t, exec i s = .next t ∧ t.mine.pc = target.toNat ∧
      (match branchResult i s with
       | some (d, v) => lands s t d v true 1
       | none => t.mine.flight = s.mine.flight) ∧
      ((s.segOf s.cur s.mine.pc).isNone → t.mine.notBefore = s.now + 2) ∧
      registersKept s.mine t.mine ∧ t.mine.fflg = s.mine.fflg ∧ onlyMine s t ∧ bytesKept s t) ∧
  (∀ (i : Instr) (s : State) (target : Word), branchTarget i s = some target → issues i s = true → targetInside s target = false →
    ∃ cause record, exec i s = .next (s.takeTrap s.cur s.mine.pc { cause := cause, record := record }) ∧
      ((s.segOf s.cur s.mine.pc).isNone → cause = 0x010 ∧ record.head? = some target) ∧
      ((s.segOf s.cur s.mine.pc).any (fun g => !(decide (g.first ≤ target.toNat) && decide (target.toNat < g.first + g.nw))) → cause = 0x04A)) ∧
  ((∀ (w : Fields) (s : State), issues (.loop w) s = true → s.mine.readN w.a.num = 1 →
    ∃ t, exec (.loop w) s = .next t ∧ t.mine.pc = s.mine.pc + 1 ∧ lands s t (.n w.a.num) 0 true 1 ∧ registersKept s.mine t.mine ∧
      t.mine.fflg = s.mine.fflg ∧ onlyMine s t ∧ bytesKept s t) ∧
  ∀ (w : Fields) (s : State), issues (.nop w) s = true →
    ∃ t, exec (.nop w) s = .next t ∧ t.mine.pc = s.mine.pc + 1 ∧ t.mine.flight = s.mine.flight ∧ registersKept s.mine t.mine ∧
      t.mine.fflg = s.mine.fflg ∧ t.agenda = s.agenda ∧ onlyMine s t ∧ bytesKept s t)

/-! Loads, stores and pointers. -/

/-- R71, R173 to R176. -/
def Obligations.LoadSamplesItsAddress : Prop :=
  ∀ (i : Instr) (s : State) (n : Nat) (w : Fields) (c u : Nat), loadOf i = some (n, w) → s.cur = .core c u → passes i s = true →
    (loadAccess n w (found i s)).addr.pers = 0 → accessGoes s (found i s) (loadAccess n w (found i s)) (!w.c.zero) = true →
    landCollide (found i s) s.cx (.n w.a.num) (accessCycle s (loadAccess n w (found i s)).addr.ea +
      (if isShared (loadAccess n w (found i s)).addr.ea then 5 else 3)) = none → incCollide (found i s) s.cx w.b 1 = none →
    ∃ t, exec i s = .next t ∧
      (∃ f ∈ t.mine.flight, ∃ sm, f.dest = .n w.a.num ∧ f.push = true ∧ f.sample = some sm ∧
        sm.addr = (loadAccess n w (found i s)).addr.ea ∧ sm.width = n ∧ sm.signed = w.m.getLsbD 0 ∧ sm.ptr = false ∧
        f.land = sm.cyc + (if isShared sm.addr then 5 else 3) ∧ sm.cyc = s.now + (if isShared sm.addr then 3 else 1) ∧
        atBank s t c u sm.addr f.seq sm.cyc) ∧
      advances s t w.b ∧ t.mine.pc = s.mine.pc + 1 ∧ registersKept s.mine t.mine ∧ t.mine.fflg = s.mine.fflg ∧
      (∀ p, (t.pendOf p).map PendWrite.what = (s.pendOf p).map PendWrite.what) ∧ onlyCore accessState s t

/-- R71, R72, R173 to R176. -/
def Obligations.StoreIsHeldUntilItsCommit : Prop :=
  ∀ (i : Instr) (s : State) (n : Nat) (w : Fields) (c u : Nat), storeOf i = some (n, w) → s.cur = .core c u → passes i s = true →
    (storeAccess n w (found i s)).addr.pers = 0 → accessGoes s (found i s) (storeAccess n w (found i s)) (!w.c.zero) = true →
    incCollide (found i s) s.cx w.a 1 = none →
    ∃ t, exec i s = .next t ∧
      (∀ p, (t.pendOf p).map PendWrite.what = (s.pendOf p).map PendWrite.what ++
        (if p = placeOf c (storeAccess n w (found i s)).addr.ea then
           [(s.fresh, (storeAccess n w (found i s)).addr.ea, leBytes n (s.mine.src w.b).toNat, requester u, c)] else [])) ∧
      (∃ v ∈ t.pendOf (placeOf c (storeAccess n w (found i s)).addr.ea), v.id = s.fresh ∧ v.commitC = v.endC + 3 ∧
        v.endC = s.now + (if isShared v.addr then 3 else 1) ∧ atBank s t c u v.addr v.id v.endC) ∧
      (∀ a, (storeAccess n w (found i s)).addr.ea = a → ∀ d who cyc b k,
        (placeOf d b ≠ placeOf c a ∨ b + k ≤ a ∨ a + n ≤ b) → t.view d who cyc b k = s.view d who cyc b k) ∧
      advances s t w.a ∧ t.mine.pc = s.mine.pc + 1 ∧ registersKept s.mine t.mine ∧ t.mine.fflg = s.mine.fflg ∧
      onlyCore accessState s t

/-- R128: the loads and stores of a request thread act on its scratch alone. -/
def Obligations.RequestThreadUsesItsScratch : Prop :=
  (∀ (i : Instr) (s : State) (n : Nat) (w : Fields) (id : Nat), loadOf i = some (n, w) → s.cur = .req id → issues i s = true →
    (loadAccess n w (found i s)).addr.ea + n ≤ 0x1000 → (loadAccess n w (found i s)).addr.ea % n = 0 → w.m.toNat < 2 →
    ∃ t, exec i s = .next t ∧
      lands s t (.n w.a.num)
        (if w.m.getLsbD 0 then (BitVec.ofNat (8 * n) (leNat (memRead (s.reqAt id).scratch (loadAccess n w (found i s)).addr.ea n))).signExtend 64
         else BitVec.ofNat 64 (leNat (memRead (s.reqAt id).scratch (loadAccess n w (found i s)).addr.ea n))) true 4 ∧
      registersKept s.mine t.mine ∧ t.mine.pc = s.mine.pc + 1 ∧ onlyMine s t ∧ bytesKept s t) ∧
  ∀ (i : Instr) (s : State) (n : Nat) (w : Fields) (id : Nat), storeOf i = some (n, w) → s.cur = .req id → issues i s = true →
    (storeAccess n w (found i s)).addr.ea + n ≤ 0x1000 → (storeAccess n w (found i s)).addr.ea % n = 0 → w.m = 0 →
    ∃ t, exec i s = .next t ∧ t.mine.pc = s.mine.pc + 1 ∧ t.mine.flight = s.mine.flight ∧ registersKept s.mine t.mine ∧
      (t.reqAt id).scratch = memWrite (s.reqAt id).scratch (storeAccess n w (found i s)).addr.ea (leBytes n (s.mine.src w.b).toNat) ∧
      (∀ r, r ≠ id → t.reqAt r = s.reqAt r) ∧ t = { s with reqThreads := t.reqThreads } ∧ bytesKept s t

/-- R177. -/
def Obligations.PointerWordsLandPointers : Prop :=
  (∀ (w : Fields) (s : State), issues (.setp w) s = true →
    ∃ t, exec (.setp w) s = .next t ∧
      lands s t (.a w.a.num) (((s.mine.src w.c).setWidth 16 ++ BitVec.ofNat 24 (s.mine.base w.b false) : BitVec 40).setWidth 64) false 1 ∧
      registersKept s.mine t.mine ∧ t.mine.fflg = s.mine.fflg ∧ t.mine.pc = s.mine.pc + 1 ∧ onlyMine s t ∧ bytesKept s t) ∧
  ∀ (w : Fields) (s : State) (c u : Nat) (x : Access), s.cur = .core c u → passes (.ldp w) s = true →
    x = { addr := { scalarAddr (found (.ldp w) s) s.cx w.b w.c with pers := 0 }, width := 8 } →
    (scalarAddr (found (.ldp w) s) s.cx w.b w.c).pers = 0 → accessGoes s (found (.ldp w) s) x false = true →
    landCollide (found (.ldp w) s) s.cx (.a w.a.num) (accessCycle s x.addr.ea + (if isShared x.addr.ea then 5 else 3)) = none →
    ∃ t, exec (.ldp w) s = .next t ∧
      (∃ f ∈ t.mine.flight, ∃ sm, f.dest = .a w.a.num ∧ f.push = false ∧ f.sample = some sm ∧ sm.addr = x.addr.ea ∧ sm.width = 8 ∧
        sm.ptr = true ∧ f.land = sm.cyc + (if isShared sm.addr then 5 else 3) ∧ sm.cyc = s.now + (if isShared sm.addr then 3 else 1) ∧
        atBank s t c u sm.addr f.seq sm.cyc) ∧
      t.mine.pc = s.mine.pc + 1 ∧ registersKept s.mine t.mine ∧ t.mine.fflg = s.mine.fflg ∧
      (∀ p, (t.pendOf p).map PendWrite.what = (s.pendOf p).map PendWrite.what) ∧ onlyCore accessState s t

/-! Banks and their personalities. -/

/-- R91, R178, R27: a load or store at a personality bank is a request to the bank. -/
def Obligations.PersonalityAccessIsARequest : Prop :=
  (∀ (w : Fields) (s : State) (c u : Nat) (x : Access), s.cur = .core c u → passes (.ldlD w) s = true → x = loadAccess 8 w (found (.ldlD w) s) →
    x.addr.pers ≠ 0 → accessGoes s (found (.ldlD w) s) x (!w.c.zero) = true → incCollide (found (.ldlD w) s) s.cx w.b 1 = none →
    ∃ t f d, exec (.ldlD w) s = .next t ∧ awaits t f .none true ∧ awaits t d (.n w.a.num) false ∧
      requests s t c u (bankOf x.addr.base) (.ldl w.m.toNat (s.mine.src w.c)) (some f) (some d) ∧ advances s t w.b ∧
      t.mine.pc = s.mine.pc + 1 ∧ registersKept s.mine t.mine ∧ onlyCore accessState s t ∧ ∀ p, t.pendOf p = s.pendOf p) ∧
  ∀ (w : Fields) (s : State) (c u : Nat) (x : Access), s.cur = .core c u → passes (.stlD w) s = true → x = storeAccess 8 w (found (.stlD w) s) →
    x.addr.pers ≠ 0 → accessGoes s (found (.stlD w) s) x (!w.c.zero) = true → incCollide (found (.stlD w) s) s.cx w.a 1 = none →
    ∃ t f, exec (.stlD w) s = .next t ∧ awaits t f .none true ∧
      requests s t c u (bankOf x.addr.base) (.stl w.m.toNat (s.mine.src w.b)) (some f) none ∧ advances s t w.a ∧
      t.mine.pc = s.mine.pc + 1 ∧ registersKept s.mine t.mine ∧ onlyCore accessState s t ∧ ∀ p, t.pendOf p = s.pendOf p

/-- R91: the bank performs an operation on a cycle that it grants, and its status, with a load's value, lands 2 cycles on. -/
def Obligations.BankPerformsItsOperation : Prop :=
  ∀ (s : State) (c q : Nat) (r : BankReq), SMap.find (s.coreAt c).reqs q = some r → r.performed = false → bankFree s c q r = true →
    r.who ≠ 12 → noDetector s c → (s.groupAt (s.groupOfCore c)).proof = none →
    (∀ m key, r.op = .ldl m key →
      ∃ t, exec (.personalityOperation c q) s = .next t ∧
        (t.coreAt c).mem = (((s.coreAt c).spanOf r.bank).load (s.coreAt c).mem m key.toNat).mem ∧
        (t.threadOf (.core c r.thr)).flight =
          given r.dest (BitVec.ofNat 64 (((s.coreAt c).spanOf r.bank).load (s.coreAt c).mem m key.toNat).value) (s.now + 2)
            (given r.flight (BitVec.ofNat 64 (((s.coreAt c).spanOf r.bank).load (s.coreAt c).mem m key.toNat).status) (s.now + 2)
              (s.threadOf (.core c r.thr)).flight) ∧
        (r.flight.isSome = true → t.dueAt (s.now + 2 + lateBy r.flight (s.threadOf (.core c r.thr)).flight) prioLanding
          (.resultLanding (.core c r.thr))) ∧
        (∀ d, d ≠ c → t.coreAt d = s.coreAt d) ∧ t.clusters = s.clusters ∧ t.phys = s.phys) ∧
    (∀ m v, r.op = .stl m v →
      ∃ t, exec (.personalityOperation c q) s = .next t ∧
        (t.coreAt c).mem = (((s.coreAt c).spanOf r.bank).store (s.coreAt c).mem m v).mem ∧
        (t.threadOf (.core c r.thr)).flight =
          given r.dest 0 (s.now + 2) (given r.flight (BitVec.ofNat 64 (((s.coreAt c).spanOf r.bank).store (s.coreAt c).mem m v).status)
            (s.now + 2) (s.threadOf (.core c r.thr)).flight) ∧
        (∀ d, d ≠ c → t.coreAt d = s.coreAt d) ∧ t.clusters = s.clusters ∧ t.phys = s.phys) ∧
    (r.op = .stat →
      ∃ t, exec (.personalityOperation c q) s = .next t ∧ (t.coreAt c).mem = (s.coreAt c).mem ∧
        (t.threadOf (.core c r.thr)).flight =
          given r.dest 0 (s.now + 2) (given r.flight (BitVec.ofNat 64 (((s.coreAt c).spanOf r.bank).statusWord (s.coreAt c).mem
            ((s.coreAt c).bank r.bank).span ((s.coreAt c).changing r.bank))) (s.now + 2) (s.threadOf (.core c r.thr)).flight) ∧
        (∀ d, d ≠ c → t.coreAt d = s.coreAt d) ∧ t.clusters = s.clusters ∧ t.phys = s.phys)

/-- R290, R291, R179: what a queue, a stack and a map give back. -/
def Obligations.QueueStackAndMapHoldWhatTheyTake : Prop :=
  ((∀ (sp : Span) (m : Memory) (v : Word), sp.pers = 2 → 0 < sp.count → sp.count ≤ 16 → sp.limit m ≤ 8160 * sp.count → sp.count_ m < sp.limit m →
    (sp.store m 0 v).status = 0 ∧ sp.count_ (sp.store m 0 v).mem = sp.count_ m + 1 ∧
      (sp.load (sp.store m 0 v).mem 0 0).status = 0 ∧ (sp.load (sp.store m 0 v).mem 0 0).value = v.toNat ∧
      sp.count_ (sp.load (sp.store m 0 v).mem 0 0).mem = sp.count_ m ∧ (sp.load (sp.store m 0 v).mem 1 0).mem = (sp.store m 0 v).mem) ∧
  (∀ (sp : Span) (m : Memory) (v : Word), sp.pers = 1 → 0 < sp.count → sp.count ≤ 16 → 0 < sp.limit m → sp.limit m ≤ 8160 * sp.count →
    sp.count_ m = 0 → sp.h1 m = 0x1FFFF →
    (sp.store m 0 v).status = 0 ∧ sp.count_ (sp.store m 0 v).mem = 1 ∧ (sp.load (sp.store m 0 v).mem 0 0).status = 0 ∧
      (sp.load (sp.store m 0 v).mem 0 0).value = v.toNat ∧ sp.count_ (sp.load (sp.store m 0 v).mem 0 0).mem = 0 ∧
      sp.h1 (sp.load (sp.store m 0 v).mem 0 0).mem = 0x1FFFF) ∧
  (∀ (sp : Span) (m : Memory) (v : Word), (sp.pers = 1 ∨ sp.pers = 2) → sp.limit m ≤ sp.count_ m →
    (sp.store m 0 v).status = 1 ∧ (sp.store m 0 v).mem = m) ∧
  ∀ (sp : Span) (m : Memory) (mode key : Nat), (sp.pers = 1 ∨ sp.pers = 2) → sp.count_ m = 0 →
    (sp.load m mode key).status = 2 ∧ (sp.load m mode key).value = 0 ∧ (sp.load m mode key).mem = m) ∧
  (∀ (sp : Span) (m : Memory) (d : Word), sp.pers = 3 → 0 < sp.count → sp.count ≤ 16 → sp.first + sp.count ≤ 16 → (sp.store m 2 d).status ≠ 1 →
    (sp.load (sp.store m 2 d).mem 3 (d.toNat / 2 ^ 32)).status = 0 ∧
    (sp.load (sp.store m 2 d).mem 3 (d.toNat / 2 ^ 32)).value = d.toNat ∧
    (sp.load (sp.store m 2 d).mem 3 (d.toNat / 2 ^ 32)).mem = (sp.store m 2 d).mem)

/-- R180 to R184, R293: BPERS, BSPAN, BSTAT and BSNAP, and the change of a bank. -/
def Obligations.BankInstructionsReachAndChangeTheirBank : Prop :=
  ((∀ (w : Fields) (s u : State) (c k a : Nat), s.cur = .core c k → issues (.bpers w) s = true → u = found (.bpers w) s → a = s.mine.base w.a false →
    bankTrap u s.cx a true true = none → burinWatches (s.coreAt c) ((s.coreAt c).spanBanks (bankOf a)) = false →
    (s.coreAt c).changing (bankOf a) = false →
    ∃ t, exec (.bpers w) s = .next t ∧
      changeBegun s t c k (bankOf a) ((s.coreAt c).spanBanks (bankOf a)) (.pers w.c.immInt.toNat w.m.toNat (s.mine.src w.b))) ∧
  (∀ (w : Fields) (s u : State) (c k a n : Nat), s.cur = .core c k → issues (.bspan w) s = true → u = found (.bspan w) s →
    a = s.mine.base w.a false → bankTrap u s.cx a true true = none → n = (s.mine.src w.b).toNat → n ∈ [2, 4, 8, 16] →
    bankOf a + n ≤ 16 → (∀ j, bankOf a ≤ j → j < bankOf a + n → (s.coreAt c).changing j = false) →
    ∃ t, exec (.bspan w) s = .next t ∧ changeBegun s t c k (bankOf a) ((List.range n).map (bankOf a + ·)) (.span n)) ∧
  (∀ (i : Instr) (w : Fields) (s : State) (c k q : Nat), (i = .bpers w ∨ i = .bspan w) → s.cur = .core c k → s.mine.waiting = true →
    s.mine.waitOn = some q → SMap.find (s.coreAt c).reqs q = none → s.inFlight s.cur ≤ 31 →
    ∃ t, exec i s = .next t ∧ t.mine.waiting = false ∧ t.mine.waitOn = none ∧ t.mine.pc = s.mine.pc + 1 ∧ advances s t w.a ∧
      registersKept s.mine t.mine ∧ onlyMine s t ∧ bytesKept s t) ∧
  (∀ (w : Fields) (s u : State) (c k a : Nat), s.cur = .core c k → issues (.bstat w) s = true → u = found (.bstat w) s → a = s.mine.base w.b false →
    bankTrap u s.cx a true false = none → (s.coreAt c).changing (bankOf a) = false →
    ∃ t f, exec (.bstat w) s = .next t ∧ awaits t f (.n w.a.num) true ∧ requests s t c k (bankOf a) .stat (some f) none ∧ advances s t w.b ∧
      t.mine.pc = s.mine.pc + 1 ∧ registersKept s.mine t.mine ∧ onlyCore accessState s t) ∧
  ∀ (w : Fields) (s u : State) (c k d h n : Nat) (sp : Span), s.cur = .core c k → issues (.bsnap w) s = true → u = found (.bsnap w) s →
    d = s.mine.base w.a false → h = s.mine.base w.b false → isLocal d = true → isLocal h = true →
    sp = (s.coreAt c).spanOf (bankOf h) → sp.pers = 5 → n = (sp.limit (s.coreAt c).mem * 4 + 255) / 256 * 256 →
    (s.segOf s.cur s.mine.pc).isNone = true → guardTrap u s.cx (persCheckAddr (s.coreAt c) h) 8 true true = none →
    guardTrap u s.cx d (max n 1) true true = none → d % 256 = 0 → (s.coreAt c).personality d (max n 1) = false →
    (s.coreAt c).changing (bankOf h) = false → rowWait u s.cx [] (rangeRows d n) = false →
    ∃ t f, exec (.bsnap w) s = .next t ∧ awaits t f .none true ∧ requests s t c k (bankOf h) (.snap d) (some f) none ∧ advances s t w.a ∧
      t.mine.pc = s.mine.pc + 1 ∧ registersKept s.mine t.mine ∧ onlyCore accessState s t) ∧
  ((∀ (s : State) (c q code : Nat) (b : Word) (r : BankReq) (sp : Span), SMap.find (s.coreAt c).reqs q = some r → r.performed = false →
    r.op = .pers code 0 b → bankTaken s (.core c) r.bank = false → changeReady s c q ((s.coreAt c).changingBanks q) = true →
    sp = (s.coreAt c).spanOf r.bank → 0 < code → code ≤ 5 → 0 < sp.count → sp.count ≤ 16 → b.toNat % 2 ^ 20 ≤ bankCapacity code * sp.count →
    ∃ t, exec (.bankChangePerform c q) s = .next t ∧ emptyStructure sp (t.coreAt c).mem code b ∧
      (∀ a, sp.holds a = false → memByte (t.coreAt c).mem a = memByte (s.coreAt c).mem a) ∧
      (∀ j ∈ (s.coreAt c).changingBanks q, ((t.coreAt c).bank j).pers = code) ∧ t.dueAt (s.now + 257) prioEngine (.bankChangeEnd c q) ∧
      (∀ d, d ≠ c → t.coreAt d = s.coreAt d)) ∧
  (∀ (s : State) (c q code mode : Nat) (b : Word) (r : BankReq) (sp : Span), SMap.find (s.coreAt c).reqs q = some r → r.performed = false →
    r.op = .pers code mode b → bankTaken s (.core c) r.bank = false → changeReady s c q ((s.coreAt c).changingBanks q) = true →
    sp = (s.coreAt c).spanOf r.bank → code ≠ 0 → bankCapacity code * sp.count < b.toNat % 2 ^ 20 →
    ∃ t, exec (.bankChangePerform c q) s = .next t ∧ (t.coreAt c).mem = (s.coreAt c).mem ∧
      (∀ j, ((t.coreAt c).bank j).pers = ((s.coreAt c).bank j).pers) ∧ ((SMap.find (t.coreAt c).reqs q).bind (·.fail)) = some 0x0D6) ∧
  (∀ (s : State) (c q : Nat), ∃ t, exec (.bankChangeEnd c q) s = .next t ∧ (∀ j, q ∉ ((t.coreAt c).bank j).changing) ∧
    (∀ j, ((t.coreAt c).bank j).pers = ((s.coreAt c).bank j).pers) ∧ (t.coreAt c).mem = (s.coreAt c).mem))

/-! Vector instructions. -/

/-- R186 to R190, R201, R206 to R209, R213, R214; the last five clauses are the words of VL = 0 that span no row. -/
def Obligations.VectorWordStarts : Prop :=
  (∀ (i : Instr) (s : State) (code : VCode) (w : Fields) (c k : Nat) (us : List VUse), streamOf i = some (code, w) → s.cur = .core c k →
    issues i s = true → us = usesOf code (streamOperands code s.mine w) → rowsGo s (found i s) us = true → 0 < mostRows us → sharedQuiet s c →
    (code = .vdigit → w.a.fmt = 8 → ¬((s.mine.src w.c).toNat / 32 % 8 = 7 ∧ (s.mine.src w.c).toNat / 256 % 2 = 1)) →
    ∃ t, exec i s = .next t ∧ started s t c k code (streamOperands code s.mine w) w.a.fmt (mostRows us) ∧ rowWordKept s t) ∧
  (∀ (i : Instr) (s : State) (code : VCode) (w : Fields) (c k : Nat) (us : List VUse), reduceOf i = some (code, w) → s.cur = .core c k →
    issues i s = true → us = useOf (rowsAt s.mine w.b) true false → rowsGo s (found i s) us = true → 0 < mostRows us → sharedQuiet s c →
    ∃ t f, exec i s = .next t ∧
      started s t c k code (none, rowsAt s.mine w.b, none) (if code = .vcount then w.b.fmt else w.a.fmt) (mostRows us) ∧
      awaits t f (.n w.a.num) true ∧ rowWordKept s t) ∧
  (∀ (i : Instr) (s : State) (code : VCode) (push : Bool) (w : Fields) (c k : Nat) (us : List VUse), arrangeOf i = some (code, push, w) →
    s.cur = .core c k → issues i s = true → us = usesOf code (rowsAt s.mine w.a, rowsAt s.mine w.b, rowsAt s.mine w.c) →
    rowsGo s (found i s) us = true → 0 < mostRows us → (∀ u ∈ us, u.rows ≤ 8) → sharedQuiet s c →
    ∃ t, exec i s = .next t ∧
      started s t c k code (rowsAt s.mine w.a, rowsAt s.mine w.b, rowsAt s.mine w.c) w.a.fmt (mostRows us) ∧
      (push = true → ∃ f, awaits t f .none true) ∧ rowWordKept s t) ∧
  (∀ (w : Fields) (s : State) (c k res : Nat) (a b : VMem), s.cur = .core c k → issues (.vpack w) s = true →
    res = (if (s.mine.readA w.a.num).stride = 0 then 65536 else (s.mine.readA w.a.num).stride.toNat) →
    a = { base := (s.mine.readA w.a.num).base.toNat, stride := 256, rows := spanRows res 1 } → rowsAt s.mine w.b = some b →
    usesHeld (found (.vpack w) s) s.cx [⟨a, false, true, a.rows, true⟩, ⟨b, true, false, b.rows, false⟩] = false →
    vecTrap (found (.vpack w) s) s.cx [⟨a, false, true, a.rows, true⟩, ⟨b, true, false, b.rows, false⟩] none
      [⟨a, false, true, a.rows, true⟩, ⟨b, true, false, b.rows, false⟩] [] = none →
    s.mine.vl ≠ 0 → (∀ i j, i < a.rows → j < b.rows → a.row i ≠ b.row j) → sharedQuiet s c →
    ∃ t f, exec (.vpack w) s = .next t ∧ started s t c k .vpack (some a, some b, none) w.b.fmt b.rows ∧ awaits t f .none true ∧ rowWordKept s t) ∧
  (∀ (w : Fields) (s : State) (c k : Nat) (a b : VMem), s.cur = .core c k → issues (.vunpk w) s = true → rowsAt s.mine w.a = some a →
    vecMem s.mine w.b false s.mine.vl.toNat = some b →
    usesHeld (found (.vunpk w) s) s.cx [⟨a, false, true, a.rows, false⟩, ⟨{ b with rows := 1 }, true, false, 1, false⟩] = false →
    rowsHeld (found (.vunpk w) s) s.cx
      (({ b with rows := 1 } : VMem).list (spanRows (maskBytes s.mine.vl.toNat + s.mine.vl.toNat * fmtWidth w.a.fmt) 1)) [] = false →
    vecTrap (found (.vunpk w) s) s.cx [⟨a, false, true, a.rows, false⟩, ⟨{ b with rows := 1 }, true, false, 0, false⟩] none
      [⟨a, false, true, a.rows, false⟩, ⟨{ b with rows := 1 }, true, false, 1, false⟩] [] = none → sharedQuiet s c →
    ∃ t f, exec (.vunpk w) s = .next t ∧ started s t c k .vunpk (some a, some { b with rows := 1 }, none) w.a.fmt 1 ∧ awaits t f .none true ∧
      rowWordKept s t) ∧
  (∀ (w : Fields) (s : State) (c k h : Nat) (b : VMem), s.cur = .core c k → issues (.vhisto w) s = true → h = s.mine.base w.a false →
    rowsAt s.mine w.b = some b → 0 < b.rows → isLocal h = true → ((s.coreAt c).bank (bankOf h)).pers = 5 → (s.segOf s.cur s.mine.pc).isNone = true →
    (s.coreAt c).changing (bankOf h) = false → usesHeld (found (.vhisto w) s) s.cx [⟨b, true, false, b.rows, false⟩] = false →
    guardTrap (found (.vhisto w) s) s.cx (persCheckAddr (s.coreAt c) h) 8 true true = none →
    vecTrap (found (.vhisto w) s) s.cx [⟨b, true, false, b.rows, false⟩] none [⟨b, true, false, b.rows, false⟩] [] = none →
    ∃ t f, exec (.vhisto w) s = .next t ∧ started s t c k .vhisto (some { base := h }, some b, none) b.fmt b.rows ∧ awaits t f .none true ∧
      rowWordKept s t) ∧
  (∀ (i : Instr) (s : State) (code : VCode) (w : Fields) (c k : Nat) (us : List VUse), streamOf i = some (code, w) → s.cur = .core c k →
    issues i s = true → us = usesOf code (streamOperands code s.mine w) → rowsGo s (found i s) us = true → mostRows us = 0 →
    (code = .vdigit → w.a.fmt = 8 → ¬((s.mine.src w.c).toNat / 32 % 8 = 7 ∧ (s.mine.src w.c).toNat / 256 % 2 = 1)) →
    ∃ t, exec i s = .next t ∧ t.mine.flight = s.mine.flight ∧ noRowStarted s t c ∧ rowWordKept s t) ∧
  (∀ (i : Instr) (s : State) (code : VCode) (w : Fields) (c k : Nat) (b : VMem), reduceOf i = some (code, w) → s.cur = .core c k →
    issues i s = true → s.mine.vl = 0 → rowsAt s.mine w.b = some b → rowsGo s (found i s) [⟨b, true, false, b.rows, false⟩] = true →
    (code = .vrmax ∨ code = .vrmin → w.a.fmt = w.b.fmt) →
    ∃ t, exec i s = .next t ∧ lands s t (.n w.a.num) (emptyReduction code w.b.fmt) true (if isShared b.base then 10 else 6) ∧
      noRowStarted s t c ∧ rowWordKept s t) ∧
  (∀ (i : Instr) (s : State) (code : VCode) (push : Bool) (w : Fields) (c k : Nat) (us : List VUse), arrangeOf i = some (code, push, w) →
    s.cur = .core c k → issues i s = true → us = usesOf code (rowsAt s.mine w.a, rowsAt s.mine w.b, rowsAt s.mine w.c) →
    rowsGo s (found i s) us = true → mostRows us = 0 →
    ∃ t, exec i s = .next t ∧ (if push then lands s t .none 0 true 6 else t.mine.flight = s.mine.flight) ∧ noRowStarted s t c ∧ rowWordKept s t) ∧
  ∀ (w : Fields) (s : State) (c k h : Nat) (b : VMem), s.cur = .core c k → issues (.vhisto w) s = true → h = s.mine.base w.a false →
    rowsAt s.mine w.b = some b → b.rows = 0 → isLocal h = true → ((s.coreAt c).bank (bankOf h)).pers = 5 → (s.segOf s.cur s.mine.pc).isNone = true →
    (s.coreAt c).changing (bankOf h) = false → usesHeld (found (.vhisto w) s) s.cx [⟨b, true, false, b.rows, false⟩] = false →
    guardTrap (found (.vhisto w) s) s.cx (persCheckAddr (s.coreAt c) h) 8 true true = none →
    vecTrap (found (.vhisto w) s) s.cx [⟨b, true, false, b.rows, false⟩] none [⟨b, true, false, b.rows, false⟩] [] = none →
    ∃ t, exec (.vhisto w) s = .next t ∧ lands s t .none 0 true 6 ∧ noRowStarted s t c ∧ rowWordKept s t

/-- R51, R190 to R192, R194, R196: a step of a vector instruction, and what its integer elements are. -/
def Obligations.VectorStepsReadComputeAndWrite : Prop :=
  ((∀ (s : State) (c q j : Nat) (v : VecOp), SMap.find (s.coreAt c).vecs q = some v → v.code.twoPhase = false → v.code ≠ .vhisto → v.phase = 0 →
    v.step < v.ns → v.sub = 0 → v.s = 1 → v.next = s.now → (∀ e ∈ v.out, s.now < e.1) → v.aRow v.step = some j → v.rows = [] → v.armed = false →
    (s.coreAt c).armed = [] → noDetector s c → (∀ a ∈ v.rowsOn s.now, rowBlocked s c q v a = false) →
    ∃ t v', exec (.vectorRowStep c q) s = .next t ∧ SMap.find (t.coreAt c).vecs q = some v' ∧ v'.step = v.step + 1 ∧ v'.next = s.now + 1 ∧
      v'.out = v.out ++ [(s.now + v.l0, j)] ∧
      v'.bufA = v.bufA ++ (v.readsNow.filter (·.1 == 0)).flatMap (fun e => s.view c (requester v.thr) s.now e.2 256) ∧
      v'.bufB = v.bufB ++ (v.readsNow.filter (·.1 == 1)).flatMap (fun e => s.view c (requester v.thr) s.now e.2 256) ∧
      (∀ p a, memByte (t.memOf p) a = memByte (s.memOf p) a) ∧ ∀ p, t.pendOf p = s.pendOf p) ∧
  (∀ (s : State) (c q j a : Nat) (v : VecOp), SMap.find (s.coreAt c).vecs q = some v → v.code.twoPhase = false → v.code ≠ .vhisto → v.phase = 0 →
    v.step = v.ns → v.out = [(s.now, j)] → v.outAddr j = some a → v.rows = [] → v.src = [] → (vecRow v j).1 ≠ [] → rowBlocked s c q v a = false →
    ∃ t, exec (.vectorRowStep c q) s = .next t ∧ SMap.find (t.coreAt c).vecs q = none ∧
      (∃ w, t.pendOf (placeOf c a) = s.pendOf (placeOf c a) ++ [w] ∧ w.addr = a ∧ w.data = (vecRow v j).1 ∧ w.who = requester v.thr ∧ w.core = c ∧
        w.word = v.word ∧ w.endC = s.now ∧ w.commitC = max (s.now + 6) v.least) ∧
      (∀ p, p ≠ placeOf c a → t.pendOf p = s.pendOf p) ∧ ∀ p b, memByte (t.memOf p) b = memByte (s.memOf p) b) ∧
  ∀ (s : State) (c q : Nat) (v : VecOp), SMap.find (s.coreAt c).vecs q = some v → v.phase = 0 → v.step < v.ns → v.next = s.now → v.armed = false →
    (s.coreAt c).armed = [] → noDetector s c → (∀ e ∈ v.out, s.now < e.1) → (∃ e ∈ v.readsNow, rowBlocked s c q v e.2 = true) →
    ∃ t v', exec (.vectorRowStep c q) s = .next t ∧ SMap.find (t.coreAt c).vecs q = some v' ∧ v'.next = s.now + 1 ∧ v'.step = v.step ∧
      v'.out = v.out.map (fun e => (e.1 + 1, e.2)) ∧ v'.got = v.got ++ (v.readsNow.filter fun e => !rowBlocked s c q v e.2).map (·.1) ∧
      v'.bufB = v.bufB ++ (v.readsNow.filter fun e => !rowBlocked s c q v e.2 && e.1 == 1).flatMap
        (fun e => s.view c (requester v.thr) s.now e.2 256) ∧ t.dueAt (s.now + 1) v.prio (.vectorRowStep c q) ∧
      (∀ p a, memByte (t.memOf p) a = memByte (s.memOf p) a) ∧ ∀ p, t.pendOf p = s.pendOf p) ∧
  (∀ (v : VecOp) (j f w : Nat) (mb mc : VMem), v.fmtA = f → (f = 4 ∨ f = 5 ∨ f = 6) → w = fmtWidth f → v.m = 0 → v.b = some mb → v.c = some mc →
    mb.fmt = f → mc.fmt = f →
    (v.code = .vadd ∨ v.code = .vsub ∨ v.code = .vmul ∨ v.code = .vand ∨ v.code = .vor ∨ v.code = .vxor) →
    (vecRow v j).1 = (List.range (rowElems v.vl w j).2).flatMap fun k =>
      leBytes w ((wrapElem v.code (8 * w) ((elemsFrom v.bufB w (rowElems v.vl w j).1 (rowElems v.vl w j).2).getD k 0)
        ((elemsFrom v.bufC w (rowElems v.vl w j).1 (rowElems v.vl w j).2).getD k 0)).getD 0))

/-! Tiles and the matrix array. -/

/-- R220, R222 to R226, R234. -/
def Obligations.TileWordsConfigureClearLoadAndStore : Prop :=
  (∀ (w : Fields) (s : State) (c k : Nat) (d : Word) (v : Tile), s.cur = .core c k → issues (.tcfg w) s = true → v = (s.coreAt c).tile w.a.num →
    v.busy = [] → d = descriptor s.mine w.b → tcfgBad (s.coreAt c).gang d = false → (w.m = 2 → v.unread = false) →
    ∃ t u, exec (.tcfg w) s = .next t ∧ (t.coreAt c).tile w.a.num = u ∧ u.rows = (d.extractLsb' 0 7).toNat + 1 ∧
      u.cols = (d.extractLsb' 7 7).toNat + 1 ∧ u.ty = (d.extractLsb' 14 3).toNat ∧ u.bl = (d.extractLsb' 18 2).toNat ∧
      u.sp = (d.extractLsb' 20 2).toNat ∧ u.unread = false ∧ u.last = v.last ∧ u.ind = v.ind ∧
      (∀ e, SMap.get 0 u.elems e = if w.m = 1 ∧ e < v.rows * v.cols ∧ e < u.rows * u.cols then SMap.get 0 v.elems e else 0) ∧
      (∀ n, n ≠ w.a.num → (t.coreAt c).tile n = (s.coreAt c).tile n) ∧ t.mine.pc = s.mine.pc + 1 ∧ t.mine.flight = s.mine.flight ∧
      registersKept s.mine t.mine ∧ onlyCore tileState s t) ∧
  (∀ (w : Fields) (s : State) (c k : Nat), s.cur = .core c k → issues (.tzero w) s = true → ((s.coreAt c).tile w.a.num).busy = [] →
    ∃ t, exec (.tzero w) s = .next t ∧
      (t.coreAt c).tile w.a.num = { (s.coreAt c).tile w.a.num with elems := [], unread := false, writer := none, poison := [] } ∧
      (∀ n, n ≠ w.a.num → (t.coreAt c).tile n = (s.coreAt c).tile n) ∧ t.mine.pc = s.mine.pc + 1 ∧ t.mine.flight = s.mine.flight ∧
      registersKept s.mine t.mine ∧ onlyCore tileState s t) ∧
  (∀ (w : Fields) (s u : State) (c k per : Nat) (m : VMem) (v : Tile), s.cur = .core c k → issues (.tload w) s = true → u = found (.tload w) s →
    v = (s.coreAt c).tile w.a.num → vecMem s.mine w.b true 0 = some m → per = spanRows v.cols (fmtWidth m.fmt) → v.busy = [] →
    rowWait u s.cx (tileRowList m v per) [] = false → tileTrap u s.cx m v per true (tloadOk m.fmt v.ty) = none →
    ∃ t q x, exec (.tload w) s = .next t ∧ SMap.find (t.coreAt c).vecs q = some x ∧ x.code = .tload ∧ x.tile = w.a.num ∧ x.b = some m ∧ x.fmtA = m.fmt ∧
      x.ns = v.rows * per ∧ x.per = per ∧ x.step = 0 ∧ x.next = s.now + 1 ∧ (t.coreAt c).tile w.a.num = { v with busy := [q] } ∧
      t.dueAt s.now (rowTurn s k) (.vectorRowStep c q) ∧ t.mine.pc = s.mine.pc + 1 ∧ registersKept s.mine t.mine ∧ onlyCore tileRowState s t) ∧
  (∀ (w : Fields) (s u : State) (c k per : Nat) (m : VMem) (v : Tile), s.cur = .core c k → issues (.tstore w) s = true → u = found (.tstore w) s →
    v = (s.coreAt c).tile w.b.num → vecMem s.mine w.a true 0 = some m → per = spanRows v.cols (fmtWidth m.fmt) → v.busy = [] →
    v.poison = [] → noDetector s c → rowWait u s.cx [] (tileRowList m v per) = false → tileTrap u s.cx m v per false (tstoreOk m.fmt v.ty) = none →
    ∃ t q x, exec (.tstore w) s = .next t ∧ SMap.find (t.coreAt c).vecs q = some x ∧ x.code = .tstore ∧ x.rows = (tileRows v m w.m.toNat per).1 ∧
      x.out = rowsFrom (s.now + 6) (tileRows v m w.m.toNat per).1.length ∧ x.src = v.awaits ∧
      (t.coreAt c).tile w.b.num = { v with unread := false } ∧ t.dueAt s.now (rowTurn s k) (.vectorRowStep c q) ∧
      t.mine.pc = s.mine.pc + 1 ∧ registersKept s.mine t.mine ∧ onlyCore tileRowState s t) ∧
  ∀ (w : Fields) (s : State) (c k : Nat) (v : Tile), s.cur = .core c k → issues (.tchk w) s = true → v = (s.coreAt c).tile w.b.num → v.verdicts = [] →
    ∃ t, exec (.tchk w) s = .next t ∧ lands s t (.n w.a.num) (BitVec.ofNat 64 (v.ind * 2 ^ 16 + v.last)) true 2 ∧
      (t.coreAt c).tile w.b.num = { v with last := 0, ind := 0 } ∧ t.mine.pc = s.mine.pc + 1 ∧ registersKept s.mine t.mine ∧ onlyCore tileState s t

/-- R221, R227, R230, R231, R233, R241. -/
def Obligations.EngineWordsQueueTheirOperation : Prop :=
  (∀ (i : Instr) (s : State) (sparse gather : Bool) (w : Fields) (c k : Nat) (v : Tile) (e : Eng), productWord i = some (sparse, gather, w) →
    s.cur = .core c k → issues i s = true → v = (s.coreAt c).tile w.a.num → e = productOf sparse gather w s v → productBad e = false →
    startInRange s w.c.immInt.toNat = true → rowWait (found i s) s.cx (e.knownRows ++ tableRows (found i s) c e) [] = false →
      rowsAllowed (found i s) s.cx e.knownRows true false = true →
    e.aBase % 256 = 0 → e.bBase % 256 = 0 → (gather = true → e.iBase % 256 = 0) →
    ∃ t q incs, exec i s = .next t ∧ SMap.find (t.coreAt c).engs q = some { e with incs := incs } ∧
      (t.coreAt c).tile w.a.num = { v with busy := v.busy ++ [q], verdicts := if e.ck then v.verdicts ++ [q] else v.verdicts } ∧
      t.dueAt e.start prioEngine (.engineStart c q) ∧ t.mine.pc = s.mine.pc + 1 ∧ registersKept s.mine t.mine ∧ onlyCore engineState s t ∧
      ∀ p, t.pendOf p = s.pendOf p) ∧
  (∀ (w : Fields) (s : State) (c k l sc : Nat) (pa pb : Ptr) (v : Tile) (rows : List Nat) (stride : Nat), s.cur = .core c k →
    issues (.qstage w) s = true → v = (s.coreAt c).tile w.b.num → v.ty ≠ 1 → l = 8 * 2 ^ w.m.toNat → v.cols % l = 0 →
    pa = s.mine.readA w.a.num → pb = s.mine.readA (w.a.num + 1) → stride = (pa.stride.toInt % (2 ^ 24 : Int)).toNat →
    pa.base.toNat % 256 = 0 → pb.base.toNat % 256 = 0 → stride % 256 = 0 → sc = spanRows ((v.rows * (v.cols / l) + 2) / 3) 8 →
    rows = Eng.valueRows pa.base.toNat stride v.rows 1 ++ Eng.dense pb.base.toNat sc → startInRange s w.c.immInt.toNat = true →
    rowWait (found (.qstage w) s) s.cx [] rows = false → rowsAllowed (found (.qstage w) s) s.cx rows false true = true →
    ∃ t q e, exec (.qstage w) s = .next t ∧ SMap.find (t.coreAt c).engs q = some e ∧ e.kind = .quant ∧ e.tile = w.b.num ∧ e.arg = l ∧
      e.aBase = pa.base.toNat ∧ e.aStride = stride ∧ e.bBase = pb.base.toNat ∧ e.started = false ∧
      e.start = (if s.cx.timed then s.mine.anchor + w.c.immInt.toNat else s.now + 2) ∧ t.dueAt e.start prioEngine (.engineStart c q) ∧
      t.mine.pc = s.mine.pc + 1 ∧ registersKept s.mine t.mine ∧ onlyCore engineState s t ∧ ∀ p, t.pendOf p = s.pendOf p) ∧
  ∀ (w : Fields) (s : State) (c k : Nat), s.cur = .core c k → issues (.mmerge w) s = true → startInRange s w.c.immInt.toNat = true →
    (w.a.immInt.toNat = 0 → (s.coreAt c).merge.st = 2 ∨ (s.coreAt c).merge.st = 3) →
    ∃ t q e, exec (.mmerge w) s = .next t ∧ SMap.find (t.coreAt c).engs q = some e ∧ e.kind = .merge ∧ e.arg = w.a.immInt.toNat ∧ e.mode = w.m.toNat ∧
      e.start = (if s.cx.timed then s.mine.anchor + w.c.immInt.toNat else s.now + 2) ∧ t.dueAt e.start prioEngine (.engineStart c q) ∧
      t.mine.pc = s.mine.pc + 1 ∧ t.mine.flight = s.mine.flight ∧ registersKept s.mine t.mine ∧ onlyCore engineState s t

/-- R55, R220, R221, R228, R229, R234, R241, R394: products and quantisations from start to verdict, and an integer product. That a product with .z does
not test its tile, and that a replay starts again from the kept accumulator, is the model's choice (log entry 23, DEDUCED). -/
def Obligations.EnginesStartLandJudgeAndSum : Prop :=
  ((∀ (s : State) (c q : Nat) (e : Eng), SMap.find (s.coreAt c).engs q = some e → e.kind = .product → e.timed = false → e.started = false →
    e.start ≤ s.now → e.gather = false → e.sparse = false → e.bl = 0 → e.lent = none → (e.zero = true ∨ earlierWrite (s.coreAt c) ((s.coreAt c).tile e.tile) q = false) →
    ((s.coreAt c).tile e.tile).poison = [] → noDetector s c → arrayFree s c q true = true → writesLanded s c q = true →
    ∃ t e', exec (.engineStart c q) s = .next t ∧ SMap.find (t.coreAt c).engs q = some e' ∧ e'.started = true ∧ e'.start = s.now ∧
      e'.acc = ((s.coreAt c).tile e.tile).elems ∧ (t.coreAt c).tiles = (s.coreAt c).tiles ∧ ∀ p a, memByte (t.memOf p) a = memByte (s.memOf p) a) ∧
  (∀ (s : State) (c q : Nat) (e : Eng), SMap.find (s.coreAt c).engs q = some e → e.timed = true → e.started = false → e.start ≤ s.now →
    (e.kind = .product ∨ e.kind = .quant) → e.zero = false → e.gather = false → earlierWrite (s.coreAt c) ((s.coreAt c).tile e.tile) q = true →
      ((s.coreAt c).thread 0).stat = .run →
    exec (.engineStart c q) s = .next ((s.dropEng c q).timingTrap c 0x046 [])) ∧
  (∀ (s : State) (c q : Nat) (e : Eng), SMap.find (s.coreAt c).engs q = some e → e.kind = .merge → e.timed = false → e.started = false →
    e.gather = false → e.start ≤ s.now → (s.coreAt c).merge.st ≠ 1 → writesLanded s c q = true →
    ∃ t, exec (.engineStart c q) s = .next t ∧ (t.coreAt c).merge.st = 1 ∧ SMap.find (t.coreAt c).engs q = none ∧
      (e.arg ≠ 0 → (t.coreAt c).merge.mask = e.arg ∧ (t.coreAt c).merge.out = 0) ∧ (t.coreAt c).merge.ready = s.now + 8 ∧
      t.dueAt s.now prioBank (.mergeDecision c)) ∧
  (∀ (s : State) (c q : Nat) (e : Eng), SMap.find (s.coreAt c).engs q = some e → e.kind = .product → e.started = true → 3 ≤ e.phase → e.lent = none →
    e.landed = false → e.kept = [] → e.landC ≤ s.now →
    ∃ t, exec (.productLanding c q) s = .next t ∧
      (t.coreAt c).tile e.tile = { (s.coreAt c).tile e.tile with
        elems := e.product.1, unread := true, busy := ((s.coreAt c).tile e.tile).busy.filter (· != q), writer := if e.ck then some q else none, poison := [] } ∧
      ((t.coreAt c).thread 0).fflg = ((s.coreAt c).thread 0).fflg ||| e.product.2 ∧
      (if e.ck then t.dueAt (s.now + 8) prioVerdict (.checksumVerdict c q) ∧
          SMap.find (t.coreAt c).engs q = some { e with landed := true, inf := e.indeterminate e.product.1 }
        else SMap.find (t.coreAt c).engs q = none) ∧
      ∀ p a, memByte (t.memOf p) a = memByte (s.memOf p) a) ∧
  (∀ (s : State) (c q : Nat) (e : Eng), SMap.find (s.coreAt c).engs q = some e → noDetector s c → e.kind = .product → e.landed = true →
    e.landC + 8 ≤ s.now → e.inf = false →
    ((s.coreAt c).replays = [] ∨ e.timed = false ∧ ∃ x, (s.coreAt c).replays = [x] ∧ x.product = true ∧ x.timed = false ∧ x.id = q ∧ x.fails = false) →
    ∃ t, exec (.checksumVerdict c q) s = .next t ∧ ((t.coreAt c).tile e.tile).last = (if (s.coreAt c).replays = [] then 1 else 3) ∧
      ((t.coreAt c).tile e.tile).ind = ((s.coreAt c).tile e.tile).ind ∧ q ∉ ((t.coreAt c).tile e.tile).verdicts ∧
      ((t.coreAt c).tile e.tile).elems = ((s.coreAt c).tile e.tile).elems ∧ SMap.find (t.coreAt c).engs q = none) ∧
  (∀ (s : State) (c q : Nat) (e : Eng), SMap.find (s.coreAt c).engs q = some e → noDetector s c → e.kind = .product → e.landed = true →
    e.landC + 8 ≤ s.now → e.inf = true →
    ∃ t, exec (.checksumVerdict c q) s = .next t ∧ ((t.coreAt c).tile e.tile).last = 2 ∧
      ((t.coreAt c).tile e.tile).ind = min 65535 (((s.coreAt c).tile e.tile).ind + 1) ∧
      ((t.coreAt c).thread 0).fflg = ((s.coreAt c).thread 0).fflg ||| fCKI) ∧
  ∀ (s : State) (c q : Nat) (e : Eng), SMap.find (s.coreAt c).engs q = some e → e.started = true → 3 ≤ e.phase → e.until_ ≤ s.now → e.gather = false →
    e.sparse = false → e.bl = 0 → arrayFree s c q e.lent.isNone = true →
    ∃ t e', exec (.productReplay c q) s = .next t ∧ SMap.find (t.coreAt c).engs q = some e' ∧ e'.replay = true ∧ e'.start = s.now ∧ e'.acc = e.acc ∧
      ∀ p a, memByte (t.memOf p) a = memByte (s.memOf p) a) ∧
  (∀ (e : Eng) (n : Nat), e.ty = 1 → e.fmt = 4 → e.sparse = false → e.bl = 0 → n < e.tm * e.tn →
    SMap.get 0 e.product.1 n =
      BitVec.ofInt 32 ((if e.zero then 0 else (SMap.get 0 e.acc n).toInt) +
        ((List.range e.k).map fun k =>
          elemI8 (e.vA.drop (256 * (n / e.tn) * e.aSpan)) k * elemI8 (e.vB.drop (256 * (n % e.tn) * e.bSpan)) k).sum))

/-! Lending the array, the merge tree and the burin unit. -/

/-- R236 to R239. -/
def Obligations.LendingWordsMintOpenAndSend : Prop :=
  (∀ (w : Fields) (s : State) (c k idx : Nat) (d l : Word), s.cur = .core c k → issues (.capmint w) s = true → d = s.mine.src w.b →
    l = s.mine.src w.c → idx = (d.extractLsb' 0 4).toNat → d.extractLsb' 60 4 = 0 → d.getLsbD 7 = false →
    (d.extractLsb' 16 16).toNat ≤ (d.extractLsb' 32 16).toNat → l ≠ 0 →
    ∃ t v e, exec (.capmint w) s = .next t ∧ lands s t (.n w.a.num) v true 2 ∧ (t.coreAt c).cap idx = e ∧ e.valid = true ∧
      e.rights = d.extractLsb' 4 4 ∧ e.tmask = d.extractLsb' 8 8 ∧ e.lo = (d.extractLsb' 16 16).toNat ∧ e.hi = (d.extractLsb' 32 16).toNat ∧
      e.kmax = (d.extractLsb' 48 12).toNat + 1 ∧ e.expiry = s.now + l.toNat * 1024 ∧ e.check ≠ 0 ∧ e.check ≠ ((s.coreAt c).cap idx).check ∧
      v.extractLsb' 60 4 = d.extractLsb' 0 4 ∧ v.extractLsb' 56 4 = e.rights ∧ v.extractLsb' 16 40 = BitVec.ofNat 40 (e.expiry / 1024) ∧
      v.extractLsb' 0 16 = e.check ∧ (∀ j, j ≠ idx → (t.coreAt c).cap j = (s.coreAt c).cap j) ∧ t.mine.pc = s.mine.pc + 1 ∧
      registersKept s.mine t.mine ∧ onlyCore capState s t) ∧
  (∀ (w : Fields) (s : State) (c k : Nat) (d : Word), s.cur = .core c k → issues (.capmint w) s = true → d = s.mine.src w.b →
    d.extractLsb' 60 4 = 0 → d.getLsbD 7 = false → (d.extractLsb' 16 16).toNat ≤ (d.extractLsb' 32 16).toNat → s.mine.src w.c = 0 →
    ∃ t, exec (.capmint w) s = .next t ∧ lands s t (.n w.a.num) 0 true 2 ∧ ((t.coreAt c).cap (d.extractLsb' 0 4).toNat).valid = false ∧
      t.mine.pc = s.mine.pc + 1 ∧ registersKept s.mine t.mine ∧ onlyCore capState s t) ∧
  (∀ (w : Fields) (s : State) (c k : Nat), s.cur = .core c k → issues (.lend w) s = true →
    (if s.cx.timed then s.now + 1 ≤ s.mine.anchor + w.a.immInt.toNat else w.a.immInt.toNat = 0) →
    ∃ t, exec (.lend w) s = .next t ∧
      ((t.coreAt c).lend.map fun l => (l.lo, l.hi)) =
        (if w.b.immInt.toNat = 0 then none
         else if s.cx.timed then some (s.mine.anchor + w.a.immInt.toNat, s.mine.anchor + w.a.immInt.toNat + w.b.immInt.toNat)
         else some (s.now + 1, s.now + 1 + w.b.immInt.toNat)) ∧
      t.mine.pc = s.mine.pc + 1 ∧ t.mine.flight = s.mine.flight ∧ registersKept s.mine t.mine ∧ onlyCore (fun _ a => a) s t) ∧
  ∀ (w : Fields) (s : State) (g : Target), issues (.mcmd w) s = true → opRoom s = true → (s.mine.src w.a).getLsbD 63 = false →
    (s.mine.src w.a).extractLsb' 0 24 = 0 → logicalTarget s s.cx.c (s.mine.src w.a) = some g → commandBad (s.mine.src w.c) = false →
    ∃ t q e, exec (.mcmd w) s = .next t ∧ opStarted s t q e (.mcmdArrival q) ∧ e.kind = .mcmd ∧ e.bv = s.mine.src w.b ∧ e.cv = s.mine.src w.c ∧
      e.tgt = g.fe

/-- R135, R221, R238, R239: the checks of a command in their order, and how it starts. -/
def Obligations.CommandIsJudgedArrivesAndStarts : Prop :=
  (∀ (k : Core) (now : Nat) (cap d : Word) (e : Cap), e = k.cap (cap.extractLsb' 60 4).toNat →
    ((∀ l, k.lend = some l → now < l.lo ∨ l.hi ≤ now) → commandStatus k now cap d = 1) ∧
    ∀ l, k.lend = some l → l.lo ≤ now → now < l.hi →
      (e.valid = false → commandStatus k now cap d = 2) ∧
      (e.valid = true → e.check ≠ cap.extractLsb' 0 16 → commandStatus k now cap d = 3) ∧
      (e.valid = true → e.check = cap.extractLsb' 0 16 → e.rights ≠ cap.extractLsb' 56 4 → commandStatus k now cap d = 3) ∧
      (e.valid = true → cap = capWord (cap.extractLsb' 60 4).toNat e → e.expiry ≤ now → commandStatus k now cap d = 4) ∧
      (e.valid = true → cap = capWord (cap.extractLsb' 60 4).toNat e → now < e.expiry → rightsBad k e (commandEng k d) = true →
        commandStatus k now cap d = 5) ∧
      (e.valid = true → cap = capWord (cap.extractLsb' 60 4).toNat e → now < e.expiry → rightsBad k e (commandEng k d) = false →
        commandStatus k now cap d = if l.hi ≤ max (now + 1) (arrayFreeAt k now) + k.occupied (commandEng k d) + 12 then 6 else 0)) ∧
  ((∀ (s : State) (o : Nat) (e : EngOp), SMap.find s.ops o = some e → e.st = .running → e.performed = false → e.mapv = (s.groupAt e.grp).mapv →
    s.coreRuns e.tgt = true → commandStatus (s.coreAt e.tgt) s.now e.bv e.cv ≠ 0 →
    ∃ t, exec (.mcmdArrival o) s = .next t ∧ (t.opAt o).stat = commandStatus (s.coreAt e.tgt) s.now e.bv e.cv ∧ (t.opAt o).performed = true ∧
      (t.opAt o).cause = none ∧ t.cores = s.cores ∧ t.clusters = s.clusters ∧ t.dueAt (s.now + 2) prioNet (.engineOperationComplete o)) ∧
  (∀ (s : State) (o : Nat) (e : EngOp) (p : Eng), SMap.find s.ops o = some e → e.st = .running → e.performed = false →
    e.mapv = (s.groupAt e.grp).mapv → s.coreRuns e.tgt = true → commandStatus (s.coreAt e.tgt) s.now e.bv e.cv = 0 →
    p = commandEng (s.coreAt e.tgt) e.cv →
    ∃ t q, exec (.mcmdArrival o) s = .next t ∧
      SMap.find (t.coreAt e.tgt).engs q = some { p with lent := some o, issue := s.now, start := s.now + 1 } ∧
      (t.coreAt e.tgt).tiles = (s.coreAt e.tgt).tiles ∧
      t.dueAt (s.now + 1) prioEngine (.mcmdStart e.tgt q) ∧ t.ops = s.ops) ∧
  ∀ (s : State) (c q : Nat) (e : Eng), SMap.find (s.coreAt c).engs q = some e → e.started = false → e.sparse = false → e.bl = 0 → e.gather = false →
    arrayFree s c q false = true → (∀ x ∈ (s.coreAt c).engs, x.1 < q → x.2.lent.isSome = true → x.2.started = true) →
    ∃ t e', exec (.mcmdStart c q) s = .next t ∧ SMap.find (t.coreAt c).engs q = some e' ∧ e'.started = true ∧ e'.start = s.now ∧
      e'.acc = ((s.coreAt c).tile e.tile).elems ∧ q ∈ ((t.coreAt c).tile e.tile).busy ∧ ∀ p a, memByte (t.memOf p) a = memByte (s.memOf p) a)

/-- R134, R240 to R242: the words of the merge tree, and its decision. -/
def Obligations.MergeTreeBindsMergesAndReports : Prop :=
  ((∀ (w : Fields) (s : State) (c k i b n : Nat), s.cur = .core c k → issues (.mbind w) s = true → i = w.a.immInt.toNat → b = s.mine.base w.b false →
    n = (s.mine.src w.c).toNat → n ≤ 65535 → b + 8 * n ≤ localEnd → isLocal b = true → b % 8 = 0 →
    guardTrap (found (.mbind w) s) s.cx b (8 * n) (i != 8) (i == 8) = none → (s.coreAt c).personality b (8 * n) = false →
    (s.coreAt c).merge.st ≠ 1 → (s.coreAt c).changingIn b (8 * n) = false →
    ∃ t, exec (.mbind w) s = .next t ∧ (t.coreAt c).merge.stream i = { base := b, count := n } ∧
      (∀ j, j ≠ i → (t.coreAt c).merge.stream j = (s.coreAt c).merge.stream j) ∧ advances s t w.b ∧ t.mine.pc = s.mine.pc + 1 ∧
      registersKept s.mine t.mine ∧ onlyCore mergeState s t) ∧
  (∀ (w : Fields) (s : State) (c k : Nat), s.cur = .core c k → issues (.mdrain w) s = true →
    ∃ t, exec (.mdrain w) s = .next t ∧ t.mine.pc = s.mine.pc + 1 ∧ registersKept s.mine t.mine ∧
      onlyCore mergeState s t ∧ (∀ p, t.pendOf p = s.pendOf p) ∧
      ((s.coreAt c).merge.st ≠ 1 → (t.coreAt c).merge = (s.coreAt c).merge) ∧
      ((s.coreAt c).merge.st = 1 → (t.coreAt c).merge = { (s.coreAt c).merge with drain := true, next := min (s.coreAt c).merge.next s.now } ∧
        t.dueAt s.now prioBank (.mergeDecision c))) ∧
  (∀ (w : Fields) (s : State) (c k : Nat), s.cur = .core c k → issues (.mstat w) s = true → (s.coreAt c).merge.st ≠ 5 →
    ∃ t, exec (.mstat w) s = .next t ∧ lands s t (.n w.a.num) (s.coreAt c).merge.word true 2 ∧ t.mine.pc = s.mine.pc + 1 ∧
      registersKept s.mine t.mine ∧ onlyMine s t ∧ bytesKept s t) ∧
  ∀ (w : Fields) (s : State) (c k : Nat), s.cur = .core c k → issues (.mstat w) s = true → (s.coreAt c).merge.st = 5 →
    exec (.mstat w) s = .next (s.takeTrap s.cur s.mine.pc
      { cause := 0x0C9, record := [BitVec.ofNat 64 ((s.coreAt c).merge.faultStream + (s.coreAt c).merge.faultMark), BitVec.ofNat 64 (s.coreAt c).merge.faultEntry] })) ∧
  ((∀ (s : State) (c i : Nat) (g : Merge), mergeReady s c g → g.least = some i → g.unsorted = none → g.mode = 0 →
    g.pos < (g.stream 8).count → i < 8 →
    ∃ t, exec (.mergeDecision c) s = .next t ∧ (t.coreAt c).merge.out = g.out + 1 ∧ (t.coreAt c).merge.pos = g.pos + 1 ∧
      ((t.coreAt c).merge.stream i).cursor = (g.stream i).cursor + 1 ∧
      (∀ j, j ≠ i → ((t.coreAt c).merge.stream j).cursor = (g.stream j).cursor) ∧ t.dueAt (s.now + 1) prioBank (.mergeDecision c)) ∧
  (∀ (s : State) (c : Nat) (g : Merge), mergeReady s c g → g.least = none → g.part = [] →
    ∃ t, exec (.mergeDecision c) s = .next t ∧ (t.coreAt c).merge.st = 4 ∧ ∀ p, t.pendOf p = s.pendOf p) ∧
  (∀ (s u : State) (c a : Nat) (g : Merge), mergeReady s c g → g.least = none → g.part ≠ [] → u = mergeRead s c →
    a = (g.stream 8).base + 8 * (g.pos - g.part.length) → bankGrants u (placeOf c a) (u.accessOf c a 0 g.key) = true →
    ∃ t v, exec (.mergeDecision c) s = .next t ∧ (t.coreAt c).merge.st = 4 ∧ t.pendOf (placeOf c a) = s.pendOf (placeOf c a) ++ [v] ∧
      v.addr = a ∧ v.data = g.part.flatMap (fun x => leBytes 8 x.toNat) ∧ v.endC = s.now ∧ v.commitC = s.now + 6) ∧
  (∀ (s : State) (c : Nat), (s.coreAt c).merge.st = 1 → (s.coreAt c).merge.next ≤ s.now → s.now < (s.coreAt c).merge.ready → s.stands c = false →
    noDetector s c → (s.coreAt c).merge.drain = true → (s.coreAt c).merge.part = [] → (s.coreAt c).merge.fin = 0 →
    ∃ t, exec (.mergeDecision c) s = .next t ∧ (t.coreAt c).merge.st = 3 ∧ ∀ p, t.pendOf p = s.pendOf p) ∧
  (∀ (s : State) (c : Nat), (s.coreAt c).merge.st = 1 → s.stands c = true →
    ∃ t, exec (.mergeDecision c) s = .next t ∧ (t.coreAt c).merge = (s.coreAt c).merge ∧ ∀ p, t.pendOf p = s.pendOf p) ∧
  ∀ (g : Merge) (i : Nat), g.least = some i →
    i ∈ g.inputs ∧ (g.stream i).exhausted = false ∧
      ∀ j ∈ g.inputs, (g.stream j).exhausted = false →
        (g.stream i).head / 2 ^ 32 ≤ (g.stream j).head / 2 ^ 32 ∧ (j < i → (g.stream i).head / 2 ^ 32 < (g.stream j).head / 2 ^ 32))

/-- R132, R243 to R246. -/
def Obligations.BurinUnitLoadsArmsAndRuns : Prop :=
  (∀ (w : Fields) (s u : State) (c k n : Nat) (m : VMem), s.cur = .core c k → issues (.bkld w) s = true → u = found (.bkld w) s →
    n = (s.mine.src w.c).toNat → 0 < n → w.a.immInt.toNat + n ≤ 256 →
    m = { base := s.mine.base w.b false, stride := 256, fmt := 5, rows := spanRows n 12, inc := if w.b.inc then some w.b.num else none } →
    rowWait u s.cx (m.list m.rows) [] = false → burinStop (s.coreAt c) s.cx = none → rowsGuard u s.cx m m.rows true false = none →
    m.base + 256 * m.rows ≤ localEnd → m.base % 256 = 0 → rowsPers u s.cx m m.rows = false → (s.coreAt c).burin.armed = false →
    (s.coreAt c).burin.running = false → (s.coreAt c).loading = false →
    ∃ t q v, exec (.bkld w) s = .next t ∧ SMap.find (t.coreAt c).vecs q = some v ∧ v.code = .bkld ∧ v.b = some m ∧ v.ns = spanRows n 12 ∧
      v.extent = 12 * n ∧ v.tile = w.a.immInt.toNat ∧ t.dueAt s.now (rowTurn s k) (.vectorRowStep c q) ∧ t.mine.pc = s.mine.pc + 1 ∧
      registersKept s.mine t.mine ∧ onlyCore burinState s t) ∧
  (∀ (w : Fields) (s u : State) (c k n b : Nat) (d : Word) (m : VMem), s.cur = .core c k → issues (.bkarm w) s = true → u = found (.bkarm w) s →
    d = s.mine.src w.c → n = (d.extractLsb' 0 8).toNat + 1 → b = s.mine.base w.b false → m = { base := b, stride := 256, fmt := 5, rows := n } →
    burinStop (s.coreAt c) s.cx = none → rowsGuard u s.cx m n true false = none → b + 256 * n ≤ localEnd → b % 256 = 0 →
    rowsPers u s.cx m n = false → d.extractLsb' 11 6 = 0 → rowsChanging u s.cx m n = false → (s.coreAt c).burin.running = false →
    (s.coreAt c).burin.pend = [] →
    ∃ t, exec (.bkarm w) s = .next t ∧ (t.coreAt c).burin.armed = true ∧ (t.coreAt c).burin.entry = w.a.immInt.toNat ∧
      (t.coreAt c).burin.rowBase = b / 256 ∧ (t.coreAt c).burin.rows = n ∧ (t.coreAt c).burin.sbs = (d.extractLsb' 8 3).toNat ∧
      advances s t w.b ∧ t.mine.pc = s.mine.pc + 1 ∧ registersKept s.mine t.mine ∧ onlyCore burinState s t) ∧
  (∀ (w : Fields) (s : State) (c k : Nat), s.cur = .core c k → issues (.bkoff w) s = true →
    ∃ t, exec (.bkoff w) s = .next t ∧ (t.coreAt c).burin = { (s.coreAt c).burin with armed := false } ∧ t.mine.pc = s.mine.pc + 1 ∧
      t.mine.flight = s.mine.flight ∧ registersKept s.mine t.mine ∧ onlyCore burinState s t) ∧
  (∀ (w : Fields) (s : State) (c k : Nat) (g : Burin), s.cur = .core c k → issues (.bkstat w) s = true → g = (s.coreAt c).burin →
    ∃ t v, exec (.bkstat w) s = .next t ∧ lands s t (.n w.a.num) v true 2 ∧ v.getLsbD 0 = g.armed ∧ v.getLsbD 1 = g.running ∧
      v.getLsbD 2 = (s.coreAt c).loading ∧ v.getLsbD 3 = g.fault.isSome ∧
      (g.pend.length < 32 → v.extractLsb' 17 5 = BitVec.ofNat 5 g.pend.length ∧
        (g.last < 1024 → v.extractLsb' 22 10 = BitVec.ofNat 10 g.last ∧ v.extractLsb' 32 16 = BitVec.ofNat 16 g.runs)) ∧
      t.mine.pc = s.mine.pc + 1 ∧ registersKept s.mine t.mine ∧ onlyMine s t ∧ bytesKept s t) ∧
  (∀ (s : State) (c row : Nat) (g : Burin), g = (s.coreAt c).burin → (s.coreAt c).watches row = true → g.running = false → g.fault = none → g.pend = [] →
    noDetector s c →
    ∃ t, exec (.burinTrigger c row) s = .next t ∧ (t.coreAt c).burin.running = true ∧ ((t.coreAt c).thread 12).stat = .run ∧
      ((t.coreAt c).thread 12).pc = g.entry ∧ ((t.coreAt c).thread 12).readN 0 = BitVec.ofNat 64 (row * 256) ∧
      ((t.coreAt c).thread 12).readN 1 = BitVec.ofNat 64 (row - g.rowBase) ∧
      (∀ r, 2 ≤ r → ((t.coreAt c).thread 12).readN r = ((s.coreAt c).thread 12).readN r)) ∧
  ∀ (s : State) (c row : Nat), (s.coreAt c).watches row = true → (s.coreAt c).burin.running = true → noDetector s c →
    ∃ t, exec (.burinTrigger c row) s = .next t ∧ (t.coreAt c).burin.pend = (s.coreAt c).burin.pend ++ [(row, row - (s.coreAt c).burin.rowBase)] ∧
      (t.coreAt c).thread 12 = (s.coreAt c).thread 12

/-! Encoding, and what a step is. -/

/-- R138, R139, R147: the decoder reads back every well-formed operation that the encoder has written, with every operand and every bit. -/
def Obligations.EncodingRoundTrips : Prop :=
  ∀ i : Instr, WellFormed i = true → ∃ bs, encode i = some bs ∧ bs.length = 12 ∧ ∀ rest, decode (bs ++ rest) = .ok (i, rest)

/-- R138, R154: an operation has one word, and a word that names none has V = 3 or an unassigned cell. -/
def Obligations.DecodingIsExact : Prop :=
  (∀ (x : IWord) (i : Instr), decodeWord x = .ok i → encodeWord i = some x ∧ x.extractLsb' 94 2 ≠ 3) ∧
  (∀ (x y : IWord) (i : Instr), decodeWord x = .ok i → decodeWord y = .ok i → x = y) ∧
  (∀ x : IWord, decodeWord x = .error .noVersion ↔ x.extractLsb' 94 2 = 3) ∧
  ∀ x : IWord, decodeWord x = .error .unassigned →
    ∀ i w, encodeWord i = some w → w.extractLsb' 94 2 ≠ 3 → w.extractLsb' 84 10 ≠ x.extractLsb' 84 10

/-- R138 to R154: words written out from the tables of the encoding. -/
def Obligations.WordsDecodeToTheirOperations : Prop :=
  decodeWord 0x00000C600000148000080004 =
    .ok (.add { v := 0, g := 0, h := 0x3180, a := ⟨.nreg, 5⟩, b := ⟨.qage, 0⟩, c := ⟨.qage, 1⟩, m := 0 }) ∧
  decodeWord 0x0C300080000011000180001F =
    .ok (.ldlD { v := 0, g := 0, h := 0x200, a := ⟨.nreg, 4⟩, b := ⟨.ptr, 6⟩, c := ⟨.nreg, 7⟩, m := 3 }) ∧
  decodeWord 0x100020921340093400134004 =
    .ok (.vadd { v := 0, g := 0, h := 0x8248, a := ⟨.ptr, 0xD002⟩, b := ⟨.ptr, 0xD000⟩, c := ⟨.ptr, 0xD001⟩, m := 0 }) ∧
  decodeWord 0x188020A030000958011800A1 =
    .ok (.mma { v := 0, g := 0, h := 0x8280, a := ⟨.tile, 2⟩, b := ⟨.ptr, 0x16004⟩, c := ⟨.imm, 40⟩, m := 1 }) ∧
  decodeWord 0x2482107E000029000018001C =
    .ok (.send { v := 0, g := 2, h := 0x41F8, a := ⟨.nreg, 10⟩, b := ⟨.ptr, 0⟩, c := ⟨.imm, 7⟩, m := 0 }) ∧
  decodeWord 0x2420008000003A01C0180100 =
    .ok (.wsig { v := 0, g := 0, h := 0x200, a := ⟨.nreg, 14⟩, b := ⟨.direct, 0x700⟩, c := ⟨.imm, 64⟩, m := 0 })

/-- R139, R156: a step offers the slot, fetches the word at the thread's pc, decodes it and executes it. -/
def Obligations.StepRunsTheDecodedWord : Prop :=
  (∀ (s u : State) (c t : Nat) (rest : List Turn) (i : Instr) (r : List Byte), slotsOffered s → s.todo = .thr c t :: rest →
    offered s c t = true → u = { s with todo := rest, cur := .core c t } → decode (u.fetch (.core c t)) = .ok (i, r) → step s = exec i u) ∧
  (∀ (s u : State) (id : Nat) (rest : List Turn) (i : Instr) (r : List Byte), slotsOffered s → s.todo = .req id :: rest →
    u = { s with todo := rest, cur := .req id } → decode (u.fetch (.req id)) = .ok (i, r) → step s = exec i u) ∧
  ∀ (s : State) (ag : Agent), s.fetch ag = (List.range 12).map fun k => memByte (s.codeOf ag) (12 * (s.threadOf ag).pc + k)

/-- The model's order of a cycle (log entry 12): what lands and is committed, what reads, the cycle's slots, sends and banks, the clock. -/
def Obligations.StepGoesThroughTheCycle : Prop :=
  (∀ (s : State) (e : Entry) (rest : List Entry), s.agenda = e :: rest → e.due ≤ s.now →
    (e.prio < prioRelease ∨ s.read = true ∧ e.prio < prioSend ∨ s.read = true ∧ s.opened = true ∧ s.todo = []) →
    step s = exec e.ev { s with agenda := rest }) ∧
  (∀ s : State, noEvent s → s.read = false → step s = .next (readAll s)) ∧
  (∀ s : State, noEvent s → s.read = true → s.opened = false →
    ∃ t, step s = .next t ∧ t.opened = true ∧ t.now = s.now ∧ t.agenda = s.agenda) ∧
  (∀ (s : State) (c t : Nat) (rest : List Turn), slotsOffered s → s.todo = .thr c t :: rest → offered s c t = false →
    step s = .next { s with todo := rest }) ∧
  (∀ s : State, slotsOffered s → s.todo = [] → s.closed = false → step s = .next (serveAll s)) ∧
  (∀ s : State, slotsOffered s → s.todo = [] → s.closed = true → s.hub.failed = 0 →
    ∃ t, step s = .next t ∧ t.now = s.now + 1 ∧ t.read = false ∧ t.opened = false ∧ t.closed = false) ∧
  ∀ s : State, slotsOffered s → s.todo = [] → s.closed = true → s.hub.failed ≠ 0 → step s = .fault (.heldInReset s.hub.failed)

/-- Every step answers a next state, but that of a device held in reset (R423). -/
def Obligations.StepNeverRefuses : Prop :=
  ∀ s : State, (∃ t, step s = .next t) ∨ (s.hub.failed ≠ 0 ∧ step s = .fault (.heldInReset s.hub.failed))

/-- R154 to R156, R350: a word of no operation, and the encoding checks of one that has an operation. -/
def Obligations.WordThatFailsItsEncodingTraps : Prop :=
  (∀ (s u : State) (c t : Nat) (rest : List Turn) (x : IWord), slotsOffered s →
    s.todo = .thr c t :: rest → offered s c t = true → u = { s with todo := rest, cur := .core c t } → t ≤ 12 → (s.coreAt c).owed = [] →
    u.mine.stat = .run → u.mine.dueAt = none → (u.segOf u.cur u.mine.pc).isNone = true → u.mine.notBefore ≤ s.now →
    u.fetch (.core c t) = bytesOfWord x →
    (x.extractLsb' 94 2 = 3 →
      step s = .next (u.takeTrap (.core c t) u.mine.pc { cause := 0x001, record := [x.extractLsb' 0 64, (x.extractLsb' 64 32).setWidth 64] })) ∧
    (decodeWord x = .error .unassigned → ∃ n ≤ 64,
      step s = .next ((u.modCore c fun k => { k with budg := k.budg - n }).takeTrap (.core c t) u.mine.pc
        { cause := 0x000, record := [x.extractLsb' 0 64, (x.extractLsb' 64 32).setWidth 64] }))) ∧
  ((∀ (i : Instr) (x : WordOf) (s : State) (n : Nat), i.word = some x → wordDue s x.w.hint = true → untimedHere s = true →
    (s.coreAt s.cx.c).owed = [] → encodingCause s x = some n →
    exec i s = .next ((if x.w.v = 3 then s else s.debitOnly s.cur (if budgeted s.cur then classUnits x.w.hint.ec else 0)).takeTrap s.cur s.mine.pc
      { cause := n, record := wordRecord (wordBits x) })) ∧
  (∀ (i : Instr) (x : WordOf) (s : State), i.word = some x → x.form.priv = true → x.w.v ≠ 3 → (∃ c, s.cur = .core c 0) → s.ctxOf s.cur ≠ 0 →
    encodingCause s x = some 0x003) ∧
  (∀ (i : Instr) (x : WordOf) (s : State), i.word = some x → x.w.v = 3 → encodingCause s x = some 0x001) ∧
  ∀ (i : Instr) (x : WordOf) (b : IWord), i.word = some x → encodeWord i = some b →
    wordRecord (wordBits x) = [b.extractLsb' 0 64, (b.extractLsb' 64 32).setWidth 64])

/-! The issue of a word. -/

/-- R66, R67, R68, R76, R136, R303: when an untimed and a timed word issue, and what one does whose guard reads false. -/
def Obligations.WordIssuesWhenItIsDue : Prop :=
  (∀ (i : Instr) (x : WordOf) (s : State), i.word = some x → wordDue s x.w.hint = true → untimedHere s = true → s.inFlight s.cur ≤ 28 →
    encodingCause s x = none → s.mine.guardTrue x.w = true → registersSettled s x = true → debit s x + reserveHere s ≤ (s.coreAt s.cx.c).budg →
    (besideTimed s = true → x.op / 64 ≠ 4 ∧ x.op / 64 ≠ 5) → x.op ≠ 0x248 → forbidden s.cx.t x = false → issues i s = true) ∧
  (∀ (i : Instr) (x : WordOf) (s : State) (c : Nat) (g : Seg), s.cur = .core c 0 → i.word = some x → wordDue s x.w.hint = true →
    s.segOf s.cur s.mine.pc = some g → s.inFlight s.cur ≤ 28 →
    (∀ r ∈ x.w.guardReg ++ x.form.reads x.w ++ x.form.writes x.w, s.mine.outstanding r = none) → encodingCause s x = none →
    s.mine.guardTrue x.w = true → debit s x ≤ (s.coreAt c).budg → x.op ≠ 0x248 → x.form.untimed = false → forbidden 0 x = false →
    (s.mine.seg = some g.first → x.w.hint.delta ≠ 0) → (s.mine.seg ≠ some g.first → s.mine.fresh = true) → issues i s = true) ∧
  (∀ (i : Instr) (x : WordOf) (s : State), i.word = some x → wordDue s x.w.hint = true → untimedHere s = true → encodingCause s x = none →
    (x.w.guardReg.any fun r => (s.mine.outstanding r).isSome) = false → s.mine.guardTrue x.w = false →
    debit s x + reserveHere s ≤ (s.coreAt s.cx.c).budg → ∃ t, exec i s = .next t ∧ t.mine.pc = s.mine.pc + 1 ∧ t.mine.flight = s.mine.flight ∧
      registersKept s.mine t.mine ∧
      t.mine.fflg = s.mine.fflg ∧ (∀ c u, s.cur = .core c u → (t.coreAt c).budg = (s.coreAt c).budg - debit s x) ∧ t.agenda = s.agenda ∧
      onlyMine s t ∧ bytesKept s t)

/-! Traps and the return from them. -/

/-- R279, R348, R350, R351, R361: a trap is taken, its context starts; TRAP; a double trap. -/
def Obligations.TrapIsTakenByTheTrapContext : Prop :=
  (∀ (s u : State) (c t pc : Nat) (n : TrapInfo), t ≤ 10 → (s.coreAt c).inTrap = none → n.timed = false → timingCause n.cause = false → n.cause < 1024 →
    (t = 0 → ((s.coreAt c).thread 0).seg = none) → u = s.takeTrap (.core c t) pc n →
    ((u.coreAt c).thread t).stat = .trapped ∧ registersKept ((s.coreAt c).thread t) ((u.coreAt c).thread t) ∧
      ((u.coreAt c).thread t).flight = ((s.coreAt c).thread t).flight ∧ ((u.coreAt c).thread t).trap.map (·.record) = some n.record ∧
      (u.coreAt c).inTrap = some t ∧ (u.coreAt c).cause = BitVec.ofNat 64 (t * 1024 + n.cause) ∧
      (u.coreAt c).epcw = BitVec.ofNat 13 (if n.after then pc + 1 else pc) ∧ u.dueAt (s.now + 2) prioEngine (.trapContextStart c) ∧
      (∀ k, k ≠ t → (u.coreAt c).thread k = (s.coreAt c).thread k) ∧ (∀ d, d ≠ c → u.coreAt d = s.coreAt d) ∧ bytesKept s u) ∧
  (∀ (s : State) (c t : Nat) (tr : TrapRec), (s.coreAt c).inTrap = some t → t ≤ 10 → ((s.coreAt c).thread t).trap = some tr →
    (s.groupAt (s.groupOfCore c)).st = .running →
    ∃ u, exec (.trapContextStart c) s = .next u ∧ ((u.coreAt c).thread 11).stat = .run ∧ ((u.coreAt c).thread 11).pc = (s.coreAt c).tvec.toNat ∧
      ((u.coreAt c).thread 11).readN 0 = (s.coreAt c).cause ∧ ((u.coreAt c).thread 11).readN 1 = (s.coreAt c).epcw.setWidth 64 ∧
      (∀ i < 6, ((u.coreAt c).thread 11).readN (2 + i) = tr.record.getD i 0) ∧
      (∀ r, 8 ≤ r → ((u.coreAt c).thread 11).readN r = ((s.coreAt c).thread 11).readN r) ∧
      (∀ k, k ≠ 11 → (u.coreAt c).thread k = (s.coreAt c).thread k) ∧ (∀ d, d ≠ c → u.coreAt d = s.coreAt d) ∧ bytesKept s u) ∧
  (∀ (w : Fields) (s : State) (c t : Nat), s.cur = .core c t → t ≤ 10 → issues (.trap w) s = true →
    exec (.trap w) s = .next ((found (.trap w) s).takeTrap s.cur s.mine.pc { cause := 0x300 + w.a.immInt.toNat, after := true })) ∧
  (∀ (s u : State) (c pc : Nat) (n : TrapInfo), u = s.takeTrap (.core c 11) pc n →
    (u.groupAt (s.groupOfCore c)).st = .killed ∧ (u.groupAt (s.groupOfCore c)).members = [] ∧
      (s.hub.heldNotices = [] → s.hub.privQ.length < 1024 →
        noticeWord 0x021 (s.groupOfCore c / 256) (s.groupOfCore c % 256) (n.cause % 1024 + pc % 8192 * 1024 + n.mark) ∈ u.hub.privQ) ∧
      ∀ g, g ≠ s.groupOfCore c → (u.groupAt g).st = (s.groupAt g).st)

/-- R280, R354, R74: the three returns, for a thread with no failed engine operation. -/
def Obligations.ReturnFromTrap : Prop :=
  (∀ (w : Fields) (s : State) (c t : Nat) (tr : TrapRec), s.cur = .core c 11 → issues (.rft w) s = true → (s.coreAt c).inTrap = some t → t ≤ 10 →
    ((s.coreAt c).thread t).trap = some tr → tr.coupled = false → ((s.coreAt c).thread t).allOps = [] →
    (∀ k, k ≤ 10 → k ≠ t → ((s.coreAt c).thread k).stat ≠ .trapped) → (s.segOf (.core c t) (s.coreAt c).epcw.toNat).isNone → w.m = 0 ∨ w.m = 2 →
    (s.segOf (.core c t) ((s.coreAt c).epcw.toNat + 1)).isNone → tr.op = none →
    ∃ u, exec (.rft w) s = .next u ∧ ((u.coreAt c).thread t).stat = .run ∧
      ((u.coreAt c).thread t).pc = (s.coreAt c).epcw.toNat + (if w.m = 2 then 1 else 0) ∧
      ((u.coreAt c).thread t).notBefore = s.now + 1 ∧ ((u.coreAt c).thread t).trap = none ∧
      registersKept ((s.coreAt c).thread t) ((u.coreAt c).thread t) ∧
      ((u.coreAt c).thread t).flight =
        ((s.coreAt c).thread t).flight.map (fun f =>
          { f with land := if f.known then f.land + (s.now + 1 - tr.cyc) else f.land,
                   shift := if f.known && f.sample.isNone then f.shift else f.shift + (s.now + 1 - tr.cyc) }) ∧
      (u.coreAt c).inTrap = none ∧ ((u.coreAt c).thread 11).stat = .free ∧ bytesKept s u) ∧
  (∀ (w : Fields) (s : State) (c t : Nat) (tr : TrapRec) (r : Restart), s.cur = .core c 11 → issues (.rft w) s = true → (s.coreAt c).inTrap = some t →
    t ≤ 10 → ((s.coreAt c).thread t).trap = some tr → tr.coupled = false → tr.cause ≠ 0x043 → ((s.coreAt c).thread t).restart = some r → w.m = 1 →
    (∀ k, k ≤ 10 → k ≠ t → ((s.coreAt c).thread k).stat ≠ .trapped) →
    ∃ u, exec (.rft w) s = .next u ∧ ((u.coreAt c).thread t).stat = .run ∧ ((u.coreAt c).thread t).pc = r.word ∧ ((u.coreAt c).thread t).q = r.q ∧
      ((u.coreAt c).thread t).a = r.a ∧ ((u.coreAt c).thread t).p = r.p ∧ ((u.coreAt c).thread t).fflg = r.fflg ∧
      ((u.coreAt c).thread t).n = ((s.coreAt c).thread t).n ∧ ((u.coreAt c).thread t).flight = [] ∧
      ((u.coreAt c).thread t).notBefore = s.now + 1 ∧
      ((u.coreAt c).thread t).dueAt = (if r.first then none else some (s.now + 1)) ∧ ((u.coreAt c).thread t).restarts = ((s.coreAt c).thread t).restarts + 1 ∧
      (u.coreAt c).inTrap = none) ∧
  (∀ (w : Fields) (s : State) (c : Nat), s.cur = .core c 0 → issues (.rft w) s = true → (s.coreAt c).inTrap = none →
    exec (.rft w) s = .next (s.takeTrap s.cur s.mine.pc { cause := 0x020 })) ∧
  ∀ (w : Fields) (s : State) (c t : Nat) (tr : TrapRec), s.cur = .core c 11 → issues (.rft w) s = true → (s.coreAt c).inTrap = some t → t ≤ 10 →
    ((s.coreAt c).thread t).trap = some tr → tr.coupled = true → w.m ≠ 1 →
    exec (.rft w) s = .next (s.takeTrap s.cur s.mine.pc { cause := 0x022 })

/-! Copies, remote accesses, atomics, fences. -/

/-- R251, R253, R123, R124, R128: CPY, CPYI and CPYZ start a copy; one of the burin unit enters no set (R256). -/
def Obligations.CopyWordsStartTheirCopy : Prop :=
  (∀ (i : Instr) (load store : ReqKind) (w : Fields) (s u : State) (e₀ : EngOp), copyOf i = some (load, store, w) → issues i s = true →
    u = found i s → (∀ c, s.cur ≠ .core c 12) → e₀ = copyAsked load store s.cx s.mine w → copyTop load e₀.bv = true →
    (copyLocal s.cx s.mine w.a).2 = false → (copyLength s.cx s.mine w.c 4194304).2.2 = false → opRoom s = true →
    rangeGoes u s.cx e₀.la (e₀.localBytes (peekPage u (s.ctxOf s.cur) e₀.vaddr)) (copyStores load w) (!copyStores load w) = true →
    ∃ t q e, exec i s = .next t ∧ opBegun s t q e (.memoryCoreRequest q) ∧ e.kind = e₀.kind ∧ e.m = e₀.m ∧ e.bv = e₀.bv ∧ e.la = e₀.la ∧
      e.len = e₀.len ∧ e.tag = e₀.tag ∧ moved w.a s.mine t.mine) ∧
  (∀ (i : Instr) (load store : ReqKind) (w : Fields) (s u : State) (e₀ : EngOp) (c : Nat), copyOf i = some (load, store, w) → issues i s = true →
    u = found i s → s.cur = .core c 12 → e₀ = copyAsked load store s.cx s.mine w → copyTop load e₀.bv = true →
    (copyLocal s.cx s.mine w.a).2 = false → (copyLength s.cx s.mine w.c 4194304).2.2 = false →
    rangeGoes u s.cx e₀.la (e₀.localBytes (peekPage u (s.ctxOf s.cur) e₀.vaddr)) (copyStores load w) (!copyStores load w) = true →
    ∃ t q e, exec i s = .next t ∧ SMap.find t.ops q = some e ∧ e.kind = e₀.kind ∧ e.agent = s.cur ∧ e.bv = e₀.bv ∧ e.la = e₀.la ∧ e.len = e₀.len ∧
      t.mine.unsealed = s.mine.unsealed ∧ (∃ d, s.now < d ∧ t.dueAt d 60 (.memoryCoreRequest q)) ∧ t.mine.pc = s.mine.pc + 1 ∧ onlyOp s t q ∧
      moved w.a s.mine t.mine) ∧
  ∀ (i : Instr) (load store : ReqKind) (w : Fields) (s : State) (c k : Nat), copyOf i = some (load, store, w) → issues i s = true →
    s.cur = .core c k → (copyTop load (s.mine.src w.b) = false ∨ (copyLocal s.cx s.mine w.a).2 = true ∨ (copyLength s.cx s.mine w.c 4194304).2.2 = true) →
    (s.cx.timed = false ∨ opRoom s = true) → exec i s = .next (s.takeTrap s.cur s.mine.pc { cause := 0x150 })

/-- R94, R260, R261, R263, R123, R124. -/
def Obligations.RemoteWordsStartTheirOperation : Prop :=
  (∀ (w : Fields) (s u : State) (v : Word) (a n : Nat), issues (.rget w) s = true → u = found (.rget w) s → v = s.mine.src w.b →
    a = (copyLocal s.cx s.mine w.a).1 → n = (copyLength s.cx s.mine w.c 1048576).1 → remoteBad s s.cx.c v = false →
    (copyLocal s.cx s.mine w.a).2 = false → (copyLength s.cx s.mine w.c 1048576).2.2 = false → (w.m.getLsbD 0 = true → v.toNat % 256 + n ≤ 256) →
    rangeGoes u s.cx a n false true = true → opRoom s = true →
    ∃ t q e, exec (.rget w) s = .next t ∧ opBegun s t q e (firstEvent v q) ∧ e.kind = .rget ∧ e.m = w.m.toNat ∧ e.bv = v ∧ e.la = a ∧ e.len = n ∧
      (∀ g, logicalTarget s s.cx.c v = some g → e.tgt = g.fe) ∧ moved w.a s.mine t.mine) ∧
  (∀ (w : Fields) (s u : State) (v : Word) (a n : Nat), issues (.rput w) s = true → u = found (.rput w) s → v = s.mine.src w.a →
    a = (copyLocal s.cx s.mine w.b).1 → n = (copyLength s.cx s.mine w.c 1048576).1 → remoteBad s s.cx.c v = false →
    (copyLocal s.cx s.mine w.b).2 = false → (copyLength s.cx s.mine w.c 1048576).2.2 = false → rangeGoes u s.cx a n true false = true →
    opRoom s = true →
    ∃ t q e, exec (.rput w) s = .next t ∧ opBegun s t q e (firstEvent v q) ∧ e.kind = .rput ∧ e.bv = v ∧ e.la = a ∧ e.len = n ∧
      (∀ g, logicalTarget s s.cx.c v = some g → e.tgt = g.fe) ∧ moved w.b s.mine t.mine) ∧
  (∀ (w : Fields) (s u : State) (p q : Word) (n : Nat), issues (.wsig w) s = true → u = found (.wsig w) s → p = s.mine.readN w.a.num →
    q = s.mine.readN (w.a.num + 1) → n = (s.mine.src w.c).toNat % 2 ^ 24 → remoteBad s s.cx.c p = false → remoteBad s s.cx.c q = false →
    (n = 0 ∨ rangeGoes u s.cx (s.mine.base w.b false) n true false = true) → opRoom s = true →
    ∃ t o e, exec (.wsig w) s = .next t ∧ opBegun s t o e (firstEvent p o) ∧ e.kind = .wsig ∧ e.m = w.m.toNat ∧ e.bv = p ∧ e.ev = q ∧
      e.la = s.mine.base w.b false ∧ e.len = n ∧
      e.cv = BitVec.ofNat 64 ((if w.c.kind = .imm then 1 else (s.mine.src w.c).toNat / 2 ^ 32) * 2 ^ 32 + n) ∧
      (∀ g, logicalTarget s s.cx.c p = some g → e.tgt = g.fe) ∧ (∀ g, logicalTarget s s.cx.c q = some g → e.sigTgt = g.fe) ∧ moved w.b s.mine t.mine) ∧
  (∀ (w : Fields) (s : State), issues (.pgen w) s = true → (s.mine.src w.a).toNat < 2 ^ 56 → opRoom s = true →
    ∃ t q e, exec (.pgen w) s = .next t ∧ opStarted s t q e (.memoryCoreRequest q) ∧ e.kind = .pgen ∧ e.bv = s.mine.src w.a) ∧
  ∀ (i : Instr) (w : Fields) (s : State), (i = .rget w ∧ remoteBad s s.cx.c (s.mine.src w.b) = true ∨
      i = .rput w ∧ remoteBad s s.cx.c (s.mine.src w.a) = true ∨
      i = .wsig w ∧ (remoteBad s s.cx.c (s.mine.readN w.a.num) = true ∨ remoteBad s s.cx.c (s.mine.readN (w.a.num + 1)) = true)) →
    issues i s = true → (s.cx.timed = false ∨ opRoom s = true) → exec i s = .next (s.takeTrap s.cur s.mine.pc { cause := 0x182 })

/-- R106, R262: ATOM sends its operation and waits; once it has been performed, the old value lands. -/
def Obligations.AtomWaitsForItsOldValue : Prop :=
  (∀ (i : Instr) (n : Nat) (w : Fields) (s : State), atomOf i = some (n, w) → issues i s = true → remoteBad s s.cx.c (s.mine.src w.b) = false →
    ∃ t q e, exec i s = .next t ∧ SMap.find t.ops q = some e ∧ e.kind = .atom n ∧ e.agent = s.cur ∧ e.bv = s.mine.src w.b ∧ e.cv = s.mine.src w.c ∧
      e.ev = s.mine.readN w.a.num ∧ e.fmt = w.a.fmt ∧ e.st = .running ∧ (∃ d, s.now < d ∧ t.dueAt d 60 (firstEvent (s.mine.src w.b) q)) ∧
      t.mine.waiting = true ∧ t.mine.waitOn = some q ∧ t.mine.pc = s.mine.pc ∧ t.mine.flight = s.mine.flight ∧ registersKept s.mine t.mine ∧
      onlySent s t ∧ bytesKept s t) ∧
  (∀ (i : Instr) (n : Nat) (w : Fields) (s : State) (q : Nat) (e : EngOp), atomOf i = some (n, w) → s.mine.waiting = true → s.mine.waitOn = some q →
    SMap.find s.ops q = some e → e.st = .done → s.inFlight s.cur ≤ 31 →
    ∃ t, exec i s = .next t ∧ lands s t (.n w.a.num) e.old true 1 ∧ t.mine.waiting = false ∧ t.mine.waitOn = none ∧ t.mine.pc = s.mine.pc + 1 ∧
      registersKept s.mine t.mine ∧ SMap.find t.ops q = none ∧ onlyOp s t q ∧ bytesKept s t) ∧
  (∀ (i : Instr) (n : Nat) (w : Fields) (s : State) (q : Nat) (e : EngOp), atomOf i = some (n, w) → s.mine.waiting = true → s.mine.waitOn = some q →
    SMap.find s.ops q = some e → e.st = .running →
    ∃ t, exec i s = .next t ∧ t.mine.waiting = true ∧ t.mine.waitOn = some q ∧ t.mine.pc = s.mine.pc ∧ t.mine.flight = s.mine.flight ∧
      registersKept s.mine t.mine ∧ t.ops = s.ops ∧ onlyMine s t) ∧
  ∀ (i : Instr) (n : Nat) (w : Fields) (s : State) (q m : Nat) (e : EngOp) (c k : Nat), atomOf i = some (n, w) → s.cur = .core c k → k ≤ 10 →
    s.mine.waiting = true → s.mine.waitOn = some q → SMap.find s.ops q = some e → e.st = .failed m → timingCause m = false →
    ∃ t, exec i s = .next t ∧ t.mine.stat = .trapped ∧ (t.mine.trap.map fun r => (r.cause, r.epcw)) = some (m, s.mine.pc) ∧
      registersKept s.mine t.mine

/-- R103, R105, R92: FENCE is noted at the NI, and in untimed code holds its thread until the earlier local writes have been committed. -/
def Obligations.FenceHoldsAndIsNoted : Prop :=
  (∀ (w : Fields) (s u : State), issues (.fence w) s = true → u = found (.fence w) s → (s.cx.timed = true ∨ coreFenceMet u s.cx = true) →
    ∃ t f, exec (.fence w) s = .next t ∧ f ∈ t.mine.fences ∧ f.scope = w.a.immInt.toNat ∧ f.order = w.m.toNat ∧ f.before = openOps s s.cur ∧
      t.mine.pc = s.mine.pc + 1 ∧ t.mine.waiting = false ∧ t.mine.flight = s.mine.flight ∧ registersKept s.mine t.mine ∧ bytesKept s t) ∧
  (∀ (w : Fields) (s u : State), issues (.fence w) s = true → u = found (.fence w) s → s.cx.timed = false → coreFenceMet u s.cx = false →
    ∃ t f, exec (.fence w) s = .next t ∧ f ∈ t.mine.fences ∧ f.before = openOps s s.cur ∧ t.mine.pc = s.mine.pc ∧ t.mine.waiting = true ∧
      registersKept s.mine t.mine ∧ bytesKept s t) ∧
  ∀ (w : Fields) (s : State), s.mine.waiting = true → coreFenceMet s s.cx = true → s.inFlight s.cur ≤ 32 →
    ∃ t, exec (.fence w) s = .next t ∧ t.mine.pc = s.mine.pc + 1 ∧ t.mine.waiting = false ∧ t.mine.fences = s.mine.fences ∧
      registersKept s.mine t.mine ∧ onlyMine s t ∧ bytesKept s t

/-! Batches and anchors. -/

/-- R124, R257, R259. -/
def Obligations.BatchesAreSealedAndReported : Prop :=
  (∀ (w : Fields) (s : State), issues (.sealBatch w) s = true → unfinished s s.mine.batches < 15 →
    ∃ t, exec (.sealBatch w) s = .next t ∧ lands s t (if w.a.zero then .none else .n w.a.num) (s.mine.nextBatch.setWidth 64) true 1 ∧
      t.mine.unsealed = [] ∧ t.mine.batches.take 64 = ({ num := s.mine.nextBatch, ops := s.mine.unsealed } :: s.mine.batches).take 64 ∧
      (∀ b ∈ s.mine.batches, (∃ o ∈ b.ops, (s.opFailed o).isSome) → b ∈ t.mine.batches) ∧ t.mine.nextBatch = s.mine.nextBatch + 1 ∧
        t.mine.pc = s.mine.pc + 1 ∧ registersKept s.mine t.mine ∧ onlyMine s { t with ops := s.ops } ∧
      bytesKept s t) ∧
  (∀ (w : Fields) (s : State), issues (.cpq w) s = true → (∀ b ∈ s.mine.batches.take 64, b.num.toNat ≠ (s.mine.src w.b).toNat) →
    ∃ t, exec (.cpq w) s = .next t ∧ lands s t (.n w.a.num) 3 true 2 ∧ t.mine.pc = s.mine.pc + 1 ∧ registersKept s.mine t.mine ∧
      onlyMine s { t with ops := s.ops } ∧ bytesKept s t) ∧
  ∀ (w : Fields) (s : State) (pre post : List Batch) (b : Batch), issues (.cpq w) s = true → s.mine.batches = pre ++ b :: post → pre.length < 64 →
    (∀ x ∈ pre, x.num ≠ b.num) → b.num.toNat = (s.mine.src w.b).toNat →
    ∃ t v, exec (.cpq w) s = .next t ∧ lands s t (.n w.a.num) v true 2 ∧ t.mine.pc = s.mine.pc + 1 ∧ registersKept s.mine t.mine ∧
      v.extractLsb' 16 8 = BitVec.ofNat 8 b.ops.length ∧
      (pre.length < unfinished s s.mine.batches → v.extractLsb' 0 2 = 0) ∧
      (unfinished s s.mine.batches ≤ pre.length →
        v.extractLsb' 0 2 = if b.ops.any (fun o => (SMap.find s.ops o).any fun e => match e.st with | .failed _ => true | _ => false) then 2 else 1) ∧
      onlyMine s { t with ops := s.ops }

/-- R68, R125, R126, R131, R258, R277, R278, R305: WAITB for batches and for a stage barrier, ANCH, and the selection of a state. -/
def Obligations.WaitsAnchorTheirThread : Prop :=
  ((∀ (w : Fields) (s u : State) (c k n : Nat), s.cur = .core c k → issues (.waitb w) s = true → u = found (.waitb w) s → w.a.kind = .imm →
    n = w.a.immInt.toNat → unfinished s s.mine.batches ≤ n → firstFailed s (s.mine.batches.drop n).reverse = none →
    (k = 0 → selectState u c s.mine.pc none = .stay) →
    ∃ t, exec (.waitb w) s = .next t ∧ t.mine.pc = s.mine.pc + 1 ∧ t.mine.waiting = false ∧ t.mine.flight = s.mine.flight ∧
      registersKept s.mine t.mine ∧ (k = 0 → t.mine.anchor = s.now + 1 ∧ t.mine.fresh = true ∧ t.mine.notBefore = s.now + 1) ∧ bytesKept s t) ∧
  (∀ (w : Fields) (s : State) (c k n : Nat), s.cur = .core c k → issues (.waitb w) s = true → w.a.kind = .imm → n = w.a.immInt.toNat →
    n < unfinished s s.mine.batches →
    ∃ t, exec (.waitb w) s = .next t ∧ t.mine.pc = s.mine.pc ∧ t.mine.waiting = true ∧ t.mine.flight = s.mine.flight ∧
      registersKept s.mine t.mine ∧ onlyMine s t ∧ bytesKept s t) ∧
  ∀ (w : Fields) (s : State) (c k n o m : Nat) (b : Batch), s.cur = .core c k → k ≤ 10 → issues (.waitb w) s = true → w.a.kind = .imm →
    n = w.a.immInt.toNat → unfinished s s.mine.batches ≤ n → firstFailed s (s.mine.batches.drop n).reverse = some (o, m, b) → m ≠ 0x0E0 →
    exec (.waitb w) s = .next (s.takeTrap s.cur s.mine.pc { cause := m, record := failRecord (s.opAt o) b.num.toNat, op := some o })) ∧
  ((∀ (w : Fields) (s u : State) (c k j : Nat) (b : Sbs), s.cur = .core c k → issues (.waitb w) s = true → u = found (.waitb w) s →
    w.a.kind = .special → w.a.num = 0x010 + j → b = (s.coreAt c).stage j → b.s ≠ 0 → b.rows * 256 ≤ b.counts.headD 0 →
    (s.coreAt c).burin.untaken = false → (k = 0 → selectState u c s.mine.pc none = .stay) →
    ∃ t, exec (.waitb w) s = .next t ∧ (t.coreAt c).stage j = { b with fills := b.fills + 1, stage := (b.stage + 1) % b.s, counts := b.counts.drop 1 } ∧
      t.mine.pc = s.mine.pc + 1 ∧ t.mine.waiting = false ∧ registersKept s.mine t.mine ∧
      (k = 0 → t.mine.anchor = s.now + 1 ∧ t.mine.fresh = true) ∧ bytesKept s t) ∧
  (∀ (w : Fields) (s : State) (c k j : Nat) (b : Sbs), s.cur = .core c k → k ≤ 10 → issues (.waitb w) s = true → w.a.kind = .special →
    w.a.num = 0x010 + j → b = (s.coreAt c).stage j → b.s = 0 → exec (.waitb w) s = .next (s.takeTrap s.cur s.mine.pc { cause := 0x0D1 })) ∧
  (∀ (w : Fields) (s u : State) (c : Nat), s.cur = .core c 0 → issues (.anch w) s = true → u = found (.anch w) s → s.mine.flight = [] →
    writesLeft s c 0 = false → selectState u c s.mine.pc none = .stay →
    ∃ t, exec (.anch w) s = .next t ∧ t.mine.pc = s.mine.pc + 1 ∧ t.mine.anchor = s.now + 1 ∧ t.mine.fresh = true ∧ t.mine.waiting = false ∧
      registersKept s.mine t.mine ∧ bytesKept s t) ∧
  (∀ (w : Fields) (s u : State) (c i k word : Nat), s.cur = .core c 0 → issues (.anch w) s = true → u = found (.anch w) s → s.mine.flight = [] →
    writesLeft s c 0 = false → selectState u c s.mine.pc none = .switch i k word →
    ∃ t, exec (.anch w) s = .next t ∧ t.mine.pc = word ∧ t.mine.anchor = s.now + 1 ∧ t.mine.anchorK = k ∧ (t.coreAt c).state = i) ∧
  ∀ (s : State) (c pc : Nat) (e : Switch), ((s.kernelAt c).states.getD (s.coreAt c).state {}).switches.find? (fun e => e.anw == pc) = some e →
    e.src = 0 → (∀ i, i < (s.kernelAt c).states.length → ((s.kernelAt c).states.getD i {}).cap < (s.coreAt c).sz.toNat) →
    selectState s c pc none = .refuse 0x1D3)

/-! Sends, deposits, messages. -/

/-- R107, R264, R71, R108: a timed send, and where and when it lands. -/
def Obligations.SendLandsOnItsCycle : Prop :=
  (∀ (w : Fields) (s u : State) (c a : Nat) (r : Word) (g : Target), s.cur = .core c 0 → issues (.send w) s = true → u = found (.send w) s →
    r = s.mine.src w.a → r.getLsbD 63 = false → logicalTarget s c r = some g → w.m = 0 → r.toNat % 256 = 0 → a = s.mine.base w.b false →
    sendSource u s.cx a = none →
    ∃ t q e, exec (.send w) s = .next t ∧ SMap.find t.sends q = some e ∧ e.src = c ∧ e.dst = g.fe ∧ e.addr = g.addr ∧ e.form = 0 ∧
      e.tag = w.c.immInt.toNat ∧ e.readC = s.now + 1 ∧ e.readRow = a ∧ e.lands = s.now + sendLatency (s.coreAt c) (s.coreAt g.fe) ∧
      t.dueAt e.lands prioSend (.sendLanding q) ∧ t.mine.pc = s.mine.pc + 1 ∧ moved w.b s.mine t.mine ∧
      ∀ p, t.pendOf p = s.pendOf p ∧ t.memOf p = s.memOf p) ∧
  (∀ (w : Fields) (s : State) (c : Nat) (r : Word) (g : Target), s.cur = .core c 0 → issues (.send w) s = true → r = s.mine.src w.a →
    r.getLsbD 63 = false → logicalTarget s c r = some g → (w.m = 1 ∧ r.toNat % 8 = 0 ∨ w.m = 2 ∧ r.toNat % 2 ^ 24 < 8) →
    ∃ t q e, exec (.send w) s = .next t ∧ SMap.find t.sends q = some e ∧ e.src = c ∧ e.dst = g.fe ∧ e.addr = g.addr ∧ e.form = w.m.toNat ∧
      e.data = leBytes 8 (s.mine.src w.b).toNat ∧ e.lands = s.now + sendLatency (s.coreAt c) (s.coreAt g.fe) ∧
      t.dueAt e.lands prioSend (.sendLanding q) ∧ t.mine.pc = s.mine.pc + 1 ∧ t.mine.flight = s.mine.flight ∧ registersKept s.mine t.mine ∧
      ∀ p, t.pendOf p = s.pendOf p ∧ t.memOf p = s.memOf p) ∧
  (∀ (s : State) (q : Nat) (e : Send), SMap.find s.sends q = some e → e.lands = s.now → (s.groupAt e.grp).st = .running →
    noDetector s e.src → e.form < 2 → isLocal e.addr = true → reservedRange e.addr e.data.length = false →
    (s.coreAt e.dst).personality e.addr e.data.length = false →
    ∃ t v, exec (.sendLanding q) s = .next t ∧ t.pendOf (.core e.dst) = s.pendOf (.core e.dst) ++ [v] ∧ v.addr = e.addr ∧ v.data = e.data ∧
      v.who = 12 ∧ v.endC = s.now ∧ v.commitC = s.now + 1 ∧ t.dueAt (s.now + 1) (prioCommit + 12) (.counterproofCommit (.core e.dst) v.id) ∧
      (t.coreAt e.dst).tagAt (e.addr / 256) (s.now + 1) = e.tag ∧ SMap.find t.sends q = none ∧ (∀ c, c ≠ e.dst → t.coreAt c = s.coreAt c)) ∧
  (∀ (s : State) (q : Nat) (e : Send), SMap.find s.sends q = some e → e.lands = s.now → noDetector s e.src → e.form = 2 →
    ∃ t, exec (.sendLanding q) s = .next t ∧ SMap.find t.sends q = none ∧
      (((s.coreAt e.dst).enAt s.now).getLsbD e.addr = true →
        ∃ d, s.now < d ∧ t.dueAt d prioDeposit (.depositArrival e.dst e.addr (BitVec.ofNat 64 (leNat e.data)))) ∧
      (((s.coreAt e.dst).enAt s.now).getLsbD e.addr = false → (s.coreAt e.dst).owed = [] →
        (t.coreAt e.dst).owed.map (fun o => (o.cyc, o.cause)) = [(s.now, 0x184)])) ∧
  ∀ a b : Core, sendLatency a b = if a.stk ≠ b.stk then 64 else if a.clus ≠ b.clus then 28 else 16

/-- R84 to R86, R268, R265: deposits, their masks, and armed rows. -/
def Obligations.DepositsAndTags : Prop :=
  (∀ (s : State) (c j : Nat) (v : Word), j < 8 → (s.groupAt (s.groupOfCore c)).st = .running → (s.coreAt c).grp ≠ none →
    ∃ t, exec (.depositArrival c j v) s = .next t ∧ ((t.coreAt c).thread 0).readN (24 + j) = v ∧
      (∀ r, r ≠ 24 + j → ((t.coreAt c).thread 0).readN r = ((s.coreAt c).thread 0).readN r) ∧
      (t.coreAt c).arv = (s.coreAt c).arv ||| (1 : BitVec 8) <<< j ∧ ((t.coreAt c).thread 0).q = ((s.coreAt c).thread 0).q ∧
      ((t.coreAt c).dcol = true ↔ (s.coreAt c).dcol = true ∨ ∃ k w, SMap.find (s.coreAt c).depLand (24 + j) = some (k, w) ∧ k + 1 = s.now) ∧
      (∀ d, d ≠ c → t.coreAt d = s.coreAt d) ∧ bytesKept s t) ∧
  (∀ (w : Fields) (s : State) (c k : Nat), s.cur = .core c k → issues (.depcfg w) s = true →
    ∃ t, exec (.depcfg w) s = .next t ∧ (t.coreAt c).enAt s.now = (s.coreAt c).enAt s.now ∧
      (∀ x, s.now + 2 ≤ x → (t.coreAt c).enAt x = BitVec.ofInt 8 w.a.immInt) ∧ t.mine.pc = s.mine.pc + 1 ∧ registersKept s.mine t.mine ∧
      t.mine.flight = s.mine.flight ∧ onlyCore (fun b a => { a with en := b.en, enNext := b.enNext }) s t) ∧
  ∀ (w : Fields) (s : State) (c k a : Nat), s.cur = .core c k → issues (.stag w) s = true → a = s.mine.base w.a false → isLocal a = true →
    isShared a = false → a % 256 = 0 → ((s.coreAt c).armed.length < 32 ∨ (s.coreAt c).armed.any (fun e => e.1 == a / 256) = true) →
    ∃ t, exec (.stag w) s = .next t ∧
      (t.coreAt c).armed = ((s.coreAt c).armed.filter fun e => e.1 != a / 256) ++ [(a / 256, (s.mine.src w.b).toNat % 65536)] ∧
      t.mine.pc = s.mine.pc + 1 ∧ moved w.a s.mine t.mine ∧ t.mine.flight = s.mine.flight ∧
      onlyCore (fun b a => { a with armed := b.armed }) s t

/-- R123, R124, R266, R267, R317: AMSG at its sender and at its bank. -/
def Obligations.MessagesAreSentHeldAndArrive : Prop :=
  ((∀ (w : Fields) (s : State) (r : Word) (g : Target), issues (.amsg w) s = true → w.a.kind ≠ .imm → (w.b.kind = .nreg ∨ w.b.kind = .qage) →
    r = s.mine.src w.a → r.getLsbD 63 = false → logicalTarget s s.cx.c r = some g → s.mine.msgs.length < 4 → opRoom s = true →
    ∃ t q e, exec (.amsg w) s = .next t ∧ opStarted s t q e (.amsgArrival q) ∧ e.kind = .amsg ∧ e.m = w.m.toNat ∧ e.av = r ∧ e.tgt = g.fe ∧
      e.words = [s.mine.src w.b] ∧ e.len = if w.c.zero = true then 8 else (s.mine.src w.c).toNat) ∧
  (∀ (w : Fields) (s u : State) (r : Word) (g : Target) (n a : Nat), issues (.amsg w) s = true → u = found (.amsg w) s → w.a.kind ≠ .imm →
    w.b.kind ≠ .nreg → w.b.kind ≠ .qage → r = s.mine.src w.a → r.getLsbD 63 = false → logicalTarget s s.cx.c r = some g →
    n = (if w.c.zero = true then 8 else (s.mine.src w.c).toNat) → a = (copyLocal s.cx s.mine w.b).1 →
    rangeGoes u s.cx a (min n 2048) true false = true → s.mine.msgs.length < 4 → opRoom s = true →
    ∃ t q e, exec (.amsg w) s = .next t ∧ opBegun s t q e (.amsgArrival q) ∧ e.kind = .amsg ∧ e.m = w.m.toNat ∧ e.av = r ∧ e.tgt = g.fe ∧
      e.la = a ∧ e.len = n ∧ e.words = [] ∧ moved w.b s.mine t.mine) ∧
  (∀ (w : Fields) (s : State), issues (.amsg w) s = true → w.a.kind = .imm → s.mine.msgs = [] → opRoom s = true →
    ∃ t q e, exec (.amsg w) s = .next t ∧ SMap.find t.ops q = some e ∧ e.kind = .amsg ∧ e.stat = 2 ∧ e.agent = s.cur ∧
      t.mine.unsealed = s.mine.unsealed ++ [q] ∧ t.dueAt s.now prioNet (.engineOperationComplete q) ∧ t.mine.pc = s.mine.pc + 1 ∧
      registersKept s.mine t.mine ∧ onlyOp s t q) ∧
  (∀ (w : Fields) (s : State) (o : Nat) (rest : List Nat), issues (.amsg w) s = true → w.a.kind = .imm → s.mine.msgs = o :: rest →
    opRoom s = true →
    ∃ t q e, exec (.amsg w) s = .next t ∧ SMap.find t.ops q = some e ∧ e.av = (s.opAt o).av ∧ e.words = (s.opAt o).words ∧ e.st = .running ∧
      e.stat = 0 ∧ t.mine.msgs = rest ∧ t.mine.unsealed = s.mine.unsealed ++ [q] ∧ (∃ d, s.now < d ∧ t.dueAt d 60 (.amsgArrival q)) ∧
      t.mine.pc = s.mine.pc + 1 ∧ registersKept s.mine t.mine) ∧
  ∀ (w : Fields) (s : State), issues (.amsg w) s = true → w.a.kind ≠ .imm → (s.mine.src w.a).getLsbD 63 = true →
    (s.cx.timed = false ∨ opRoom s = true ∧ s.mine.msgs.length < 4) → exec (.amsg w) s = .next (s.takeTrap s.cur s.mine.pc { cause := 0x182 })) ∧
  ((∀ (s : State) (o : Nat) (e : EngOp), messageAtSender s o e → localReady s o e = true → orderHolds s o e = false → noDetector s e.core →
    ∃ t d, exec (.amsgArrival o) s = .next t ∧ s.now < d ∧ t.dueAt d (prioBank + 12) (.amsgArrival o) ∧ (t.opAt o).part.st = .sent ∧
      (t.opAt o).words = messageWords s e ∧ (t.opAt o).performed = false ∧ t.cores = s.cores) ∧
  (∀ (s : State) (o : Nat) (e : EngOp), messageAtSender s o e → (localReady s o e = false ∨ orderHolds s o e = true) →
    exec (.amsgArrival o) s = .next (s.retry (.amsgArrival o))) ∧
  (∀ (s : State) (o a : Nat) (e : EngOp), messageAtTarget s o e → e.m = 1 → a = e.av.toNat % 2 ^ 24 → a < 8 → e.len = 8 →
    ((s.coreAt e.tgt).enAt s.now).getLsbD a = true → e.words ≠ [] →
    ∃ t d, exec (.amsgArrival o) s = .next t ∧ s.now < d ∧ t.dueAt d prioDeposit (.depositArrival e.tgt a (e.words.getD 0 0)) ∧
      (t.opAt o).performed = true ∧ (t.opAt o).cause = none ∧ t.cores = s.cores) ∧
  (∀ (s : State) (o a : Nat) (e : EngOp), messageAtTarget s o e → e.m ≠ 1 → a = e.av.toNat % 2 ^ 24 → isLocal a = true → isShared a = false →
    reservedRange a 8 = false → e.len = 8 → e.words.length = 1 →
    ∃ t q, exec (.amsgArrival o) s = .next t ∧
      SMap.find (t.coreAt e.tgt).reqs q = some { bank := bankOf a, who := 12, op := .amsg o e.m e.words, remote := some o, issued := s.now } ∧
      t.dueAt s.now (prioBank + 12) (.personalityOperation e.tgt q)) ∧
  ∀ (s : State) (o : Nat) (e : EngOp), SMap.find s.ops o = some e → e.kind = .amsg → e.st = .running → e.performed = false → e.begun = false →
    s.opRests e = false → e.mapv ≠ (s.groupAt e.grp).mapv →
    (e.part.st ≠ .sent → exec (.amsgArrival o) s = .next (s.refuseStale o)) ∧
      (e.part.st = .sent → e.atNi = true → exec (.amsgArrival o) s = .next ((s.arrive e).refuseStale o)))

/-! Barriers, counted exchange, proofs. -/

/-- R68, R269 to R271, R321 to R323, R325: BARCFG, BARA, XPUT, XEND, BAR and BARW. -/
def Obligations.BarrierWordsConfigureArriveAndWait : Prop :=
  ((∀ (w : Fields) (s : State) (c k g j : Nat), s.cur = .core c k → issues (.barcfg w) s = true → g = s.groupOfCore c → j = w.a.immInt.toNat →
    (s.mine.src w.c).toNat < 65536 → barcfgBad s g j (s.mine.src w.b) ((s.mine.src w.c).setWidth 16) = false →
    ∃ t, exec (.barcfg w) s = .next t ∧
      (t.groupAt g).domain j =
        { ((s.groupAt g).domain j) with configured := true, clusters := s.mine.src w.b, cores := (s.mine.src w.c).setWidth 16 } ∧
      (∀ i, i ≠ j → (t.groupAt g).domain i = (s.groupAt g).domain i) ∧ t.mine.pc = s.mine.pc + 1 ∧ t.mine.flight = s.mine.flight ∧
      registersKept s.mine t.mine ∧ onlyMine s { t with groups := s.groups } ∧ bytesKept s t) ∧
  (∀ (w : Fields) (s : State) (c k g j : Nat) (d : Domain), s.cur = .core c k →
    g = s.groupOfCore c → j = w.a.immInt.toNat → d = (s.groupAt g).domain j → d.has (s.coreAt c) = true → (∀ x ∈ d.arrivals, x.core ≠ c) →
    (w.m.getLsbD 0 = true → (s.groupAt g).prot = true ∧ s.wholeGroup g d = true) → SMap.find (s.coreAt c).rels j = none →
    (issues (.bara w) s = true → ∃ t, exec (.bara w) s = .next t ∧
      ((t.groupAt g).domain j).arrivals = d.arrivals ++ [{ core := c, proof := w.m.getLsbD 0, cyc := s.now }] ∧
      ((∀ x ∈ s.domainMembers g d, x = c ∨ ∃ y ∈ d.arrivals, y.core = x) → ((t.groupAt g).domain j).phase = 1 ∧
        t.dueAt (s.now + 40) prioRelease (.barrierRelease g j)) ∧
      t.mine.pc = s.mine.pc + 1 ∧ t.mine.flight = s.mine.flight ∧ registersKept s.mine t.mine ∧ bytesKept s t) ∧
    (issues (.bar w) s = true → ∃ t, exec (.bar w) s = .next t ∧
      ((t.groupAt g).domain j).arrivals = d.arrivals ++ [{ core := c, proof := w.m.getLsbD 0, cyc := s.now }] ∧ t.mine.waiting = true ∧
      t.mine.pc = s.mine.pc ∧ t.mine.flight = s.mine.flight ∧ registersKept s.mine t.mine ∧ bytesKept s t)) ∧
  (∀ (w : Fields) (s u : State) (c k a n : Nat) (r : Word) (g : Target), s.cur = .core c k → issues (.xput w) s = true → u = found (.xput w) s →
    r = s.mine.src w.a → r.getLsbD 63 = false → r.toNat % 2 ^ 24 = 0 → logicalTarget s c r = some g → a = s.mine.base w.b false →
    n = (s.mine.src w.c).toNat → guardTrap u s.cx a n true false = none → (s.coreAt c).personality a n = false → (s.coreAt c).xputs.length < 256 →
    ∃ t, exec (.xput w) s = .next t ∧ (t.coreAt c).xputs = (s.coreAt c).xputs ++ [{ target := g.fe, src := a, len := n, mark := s.fresh, issued := s.now }] ∧
      t.mine.pc = s.mine.pc + 1 ∧ t.mine.flight = s.mine.flight ∧ moved w.b s.mine t.mine ∧
      onlyCore (fun b a => { a with xputs := b.xputs }) s t) ∧
  ∀ (w : Fields) (s u : State) (c k a n g j : Nat) (d : Domain), s.cur = .core c k → issues (.xend w) s = true → u = found (.xend w) s →
    a = s.mine.base w.a false → n = (s.mine.src w.b).toNat → j = w.c.immInt.toNat → g = s.groupOfCore c → d = (s.groupAt g).domain j →
    a % 256 = 0 → n ≤ 4194304 → guardTrap u s.cx a n false true = none → (s.coreAt c).personality a n = false → d.has (s.coreAt c) = true →
    (∀ x ∈ d.arrivals, x.core ≠ c) →
    ∃ t, exec (.xend w) s = .next t ∧ (t.coreAt c).xputs = [] ∧
      ((t.groupAt g).domain j).arrivals =
        d.arrivals ++ [{ core := c, xend := true, cap := n, area := a, packets := (s.coreAt c).xputs, cyc := s.now }] ∧
      ((∀ x ∈ s.domainMembers g d, x = c ∨ ∃ y ∈ d.arrivals, y.core = x) → t.dueAt (s.now + 40) prioRelease (.barrierRelease g j)) ∧
      t.mine.pc = s.mine.pc + 1 ∧ t.mine.flight = s.mine.flight ∧ moved w.a s.mine t.mine ∧ bytesKept s t) ∧
  ((∀ (w : Fields) (s u : State) (c j : Nat) (r : Release), s.cur = .core c 0 → issues (.barw w) s = true → u = found (.barw w) s →
    j = w.a.immInt.toNat → SMap.find (s.coreAt c).rels j = some r → r.fail = none → selectState u c s.mine.pc (some (r.maxSz, r.maxTotal)) = .stay →
    ∃ t, exec (.barw w) s = .next t ∧ lands s t .none (BitVec.ofNat 64 r.total) true 1 ∧ t.mine.pc = s.mine.pc + 1 ∧
      t.mine.anchor = s.now + 1 ∧ t.mine.anchorDom = j ∧ t.mine.fresh = true ∧ SMap.find (t.coreAt c).rels j = none ∧
      registersKept s.mine t.mine ∧ bytesKept s t) ∧
  (∀ (i : Instr) (w : Fields) (s u : State) (c j : Nat) (r : Release), (i = .barw w ∨ i = .bar w) → s.cur = .core c 0 → s.mine.waiting = true →
    s.mine.stat = .run → s.inFlight s.cur ≤ 31 → u = s.again s.cx → j = w.a.immInt.toNat → SMap.find (s.coreAt c).rels j = some r → r.fail = none →
    selectState u c s.mine.pc (some (r.maxSz, r.maxTotal)) = .stay →
    ∃ t, exec i s = .next t ∧ t.mine.pc = s.mine.pc + 1 ∧ t.mine.waiting = false ∧ t.mine.anchor = s.now ∧ t.mine.anchorDom = j ∧
      t.mine.fresh = true ∧ SMap.find (t.coreAt c).rels j = none ∧ registersKept s.mine t.mine ∧ t.todo = .thr c 0 :: s.todo ∧
      (i = .bar w → t.mine.flight = s.mine.flight) ∧
      (i = .barw w → ∃ f, t.mine.flight = s.mine.flight ++ [f] ∧ f.dest = .none ∧ f.push = true ∧ f.land = s.now ∧ f.value = BitVec.ofNat 64 r.total) ∧
      bytesKept s t) ∧
  (∀ (w : Fields) (s : State) (c j : Nat), s.cur = .core c 0 → issues (.barw w) s = true → j = w.a.immInt.toNat →
    SMap.find (s.coreAt c).rels j = none → ((s.groupAt (s.groupOfCore c)).domain j).has (s.coreAt c) = true →
    (∃ x ∈ ((s.groupAt (s.groupOfCore c)).domain j).arrivals, x.core = c) →
    ∃ t, exec (.barw w) s = .next t ∧ t.mine.waiting = true ∧ t.mine.pc = s.mine.pc ∧ t.mine.flight = s.mine.flight ∧
      registersKept s.mine t.mine ∧ onlyMine s t ∧ bytesKept s t) ∧
  (∀ (w : Fields) (s : State) (c j : Nat), s.cur = .core c 0 → issues (.barw w) s = true → j = w.a.immInt.toNat →
    SMap.find (s.coreAt c).rels j = none →
    (((s.groupAt (s.groupOfCore c)).domain j).has (s.coreAt c) = false ∨ ∀ x ∈ ((s.groupAt (s.groupOfCore c)).domain j).arrivals, x.core ≠ c) →
    ∃ t, exec (.barw w) s = .next t ∧ t.mine.stat = .trapped ∧ (t.mine.trap.map fun x => (x.cause, x.epcw)) = some (0x1C5, s.mine.pc) ∧
      registersKept s.mine t.mine ∧ t.mine.flight = s.mine.flight) ∧
  ∀ (w : Fields) (s : State) (c j n : Nat) (r : Release), s.cur = .core c 0 → issues (.barw w) s = true → j = w.a.immInt.toNat →
    SMap.find (s.coreAt c).rels j = some r → r.fail = some n →
    ∃ t, exec (.barw w) s = .next t ∧ t.mine.stat = .trapped ∧ (timingCause n = false → t.mine.trap.map (·.cause) = some n) ∧
      t.mine.trap.map (·.record) = some r.record)

/-- R109, R305, R322, R325, R328: the end of the pass, the packets, the release, the proof. -/
def Obligations.BarrierIsReleased : Prop :=
  (∀ (s : State) (g j : Nat) (d : Domain), d = (s.groupAt g).domain j → (s.groupAt g).st = .running → d.arrivals ≠ [] →
    SMap.find (s.groupAt g).coupled j = none → d.phase = 1 → d.fail = none → s.failingReceiver g d = none → (∀ a ∈ d.arrivals, a.packets = []) →
    proofDisagrees s g j d = false → proofDue s g j d = false → d.due ≤ s.now → (s.domainMembers g d).Nodup →
    ∃ t, exec (.barrierRelease g j) s = .next t ∧ ((t.groupAt g).domain j).arrivals = [] ∧ ((t.groupAt g).domain j).phase = 0 ∧
      (∀ c ∈ s.domainMembers g d, ∃ r, SMap.find (t.coreAt c).rels j = some r ∧ r.cyc = s.now ∧ r.fail = none ∧ r.total = 0) ∧
      (∀ c, c ∉ s.domainMembers g d → t.coreAt c = s.coreAt c) ∧ ∀ p a, memByte (t.memOf p) a = memByte (s.memOf p) a) ∧
  (∀ (s : State) (g j c : Nat) (d : Domain), d = (s.groupAt g).domain j → (s.groupAt g).st = .running → d.arrivals ≠ [] →
    SMap.find (s.groupAt g).coupled j = none → d.phase = 1 → d.due ≤ s.now → s.failingReceiver g d = some c → (s.domainMembers g d).Nodup →
    ∃ t, exec (.barrierRelease g j) s = .next t ∧ ((t.groupAt g).domain j).arrivals = [] ∧
      (∀ k ∈ s.domainMembers g d, ∃ r, SMap.find (t.coreAt k).rels j = some r ∧ r.fail = some 0x1C1 ∧
        r.record = [BitVec.ofNat 64 (s.coreAt c).coords, BitVec.ofNat 64 (d.capOf c), BitVec.ofNat 64 (d.totalOf c)]) ∧
      ∀ p a, memByte (t.memOf p) a = memByte (s.memOf p) a) ∧
  (∀ (s : State) (g j i a n : Nat) (d : Domain) (x : Delivery), d = (s.groupAt g).domain j → d.deliveries[i]? = some x → x.landed = false →
    d.phase = 2 → (s.groupAt g).st = .running → writesDone s x.src 0 x.mark x.issued = true → noDetector s x.src → a = x.daddr + x.done →
    n = min (256 - a % 256) (x.len - x.done) → rowGranted s x.dst a 12 (execExchangePacketLand.packetKey j i) = true →
    ∃ t v, exec (.exchangePacketLand g j i) s = .next t ∧ t.pendOf (placeOf x.dst a) = s.pendOf (placeOf x.dst a) ++ [v] ∧ v.addr = a ∧
      v.who = 12 ∧ v.data = s.committed x.src (x.saddr + x.done) n ∧ v.endC = s.now ∧ v.commitC = s.now + 1 ∧
      (x.done + n < x.len → ((t.groupAt g).domain j).deliveries[i]? = some { x with done := x.done + n } ∧
        t.dueAt (s.now + 1) (prioBank + 12) (.exchangePacketLand g j i)) ∧
      (x.len ≤ x.done + n → ((t.groupAt g).domain j).deliveries[i]? = some { x with done := x.done + n, landed := true } ∧
        ((∀ k y, k ≠ i → d.deliveries[k]? = some y → y.landed = true) → t.dueAt (s.now + 40) prioRelease (.barrierRelease g j)))) ∧
  (∀ (s : State) (g : Nat) (q : Proof) (l r : List Proof), (s.groupAt g).taking = l ++ q :: r → (∀ x ∈ l, x.ready = true) → q.ready = false →
    ∃ t, exec (.proofReady g) s = .next t ∧ (t.groupAt g).taking = l ++ { q with ready := true } :: r ∧
      (((s.groupAt g).domain q.dom).phase = 3 → (∀ x ∈ r, x.dom = q.dom → x.ready = true) → (s.groupAt g).copying = false →
        (s.groupAt g).st = .running → t.dueAt (s.now + 40) prioRelease (.barrierRelease g q.dom) ∧ ((t.groupAt g).domain q.dom).due = s.now + 40) ∧
      t.cores = s.cores) ∧
  (∀ (s : State) (g j : Nat) (d : Domain), d = (s.groupAt g).domain j → (s.groupAt g).st = .running → d.arrivals ≠ [] →
    SMap.find (s.groupAt g).coupled j = none → d.phase = 3 → d.due ≤ s.now → (∃ q ∈ (s.groupAt g).taking, q.dom = j) →
    (∀ q ∈ (s.groupAt g).taking, q.dom = j → q.ready = true) → (s.groupAt g).copying = false →
    ∃ t p, exec (.barrierRelease g j) s = .next t ∧ (t.groupAt g).proof = some p ∧ p.cyc = s.now ∧ p.images.map (·.at_) = (s.groupAt g).members ∧
      (∀ q, q ∈ (t.groupAt g).taking ↔ q ∈ (s.groupAt g).taking ∧ q.dom ≠ j) ∧ ((t.groupAt g).domain j).arrivals = []) ∧
  ∀ (d : Domain) (x : Delivery) (l : List Nat), x ∈ d.place l →
    ∃ a ∈ d.arrivals, ∃ p ∈ a.packets, x.src = a.core ∧ x.saddr = p.src ∧ x.dst = p.target ∧ x.len = p.len

/-! Helpers, tasks, special registers. -/

/-- R77, R53, R28, R273. -/
def Obligations.HelperWordsStartEndAndJoin : Prop :=
  (∀ (w : Fields) (s : State) (c h : Nat) (target : Word), s.cur = .core c 0 → issues (.hstart w) s = true →
    target = BitVec.ofInt 64 ((s.mine.pc : Int) + w.b.immInt) → target.toNat < s.codeWords s.cur → 1 ≤ h → h ≤ 10 →
    ((s.coreAt c).thread h).stat = .free → (∀ j, 1 ≤ j → j < h → ((s.coreAt c).thread j).stat ≠ .free) →
    ∃ t, exec (.hstart w) s = .next t ∧ lands s t (.n w.a.num) (BitVec.ofNat 64 h) true 1 ∧
      (t.coreAt c).thread h = { stat := .run, pc := target.toNat, vl := s.mine.vl, notBefore := s.now + 2 } ∧
      (∀ j, j ≠ h → j ≠ 0 → (t.coreAt c).thread j = (s.coreAt c).thread j) ∧ t.mine.pc = s.mine.pc + 1 ∧ registersKept s.mine t.mine ∧
      bytesKept s t) ∧
  (∀ (w : Fields) (s : State) (c : Nat) (target : Word), s.cur = .core c 0 → issues (.hstart w) s = true →
    target = BitVec.ofInt 64 ((s.mine.pc : Int) + w.b.immInt) → target.toNat < s.codeWords s.cur →
    (∀ j, 1 ≤ j → j ≤ 10 → ((s.coreAt c).thread j).stat ≠ .free) →
    ∃ t, exec (.hstart w) s = .next t ∧ lands s t (.n w.a.num) 0 true 1 ∧ t.mine.pc = s.mine.pc + 1 ∧ registersKept s.mine t.mine ∧
      onlyMine s t ∧ bytesKept s t) ∧
  (∀ (w : Fields) (s u : State) (c h : Nat), s.cur = .core c h → 1 ≤ h → h ≤ 10 → issues (.hexit w) s = true →
    u = (found (.hexit w) s).sealBatch s.cur → unfinished u u.mine.batches = 0 → firstFailed u u.mine.batches.reverse = none →
    ∃ t, exec (.hexit w) s = .next t ∧ (t.coreAt c).thread h = {} ∧
      (∃ f : BitVec 8, (f = s.mine.fflg ∨ f = s.mine.fflg ||| fNAR) ∧ ((t.coreAt c).thread 0).fflg = ((s.coreAt c).thread 0).fflg ||| f) ∧
      registersKept ((s.coreAt c).thread 0) ((t.coreAt c).thread 0) ∧ ((t.coreAt c).thread 0).pc = ((s.coreAt c).thread 0).pc ∧
      (∀ j, j ≠ h → j ≠ 0 → (t.coreAt c).thread j = (s.coreAt c).thread j) ∧ bytesKept s t) ∧
  (∀ (w : Fields) (s : State) (c k h : Nat), s.cur = .core c k → issues (.hjoin w) s = true → h = (s.mine.src w.a).toNat → h ≤ 10 →
    (h = 0 ∨ ((s.coreAt c).thread h).stat = .free ∧ writesLeft s c h = false) →
    ∃ t, exec (.hjoin w) s = .next t ∧ t.mine.pc = s.mine.pc + 1 ∧ t.mine.flight = s.mine.flight ∧ registersKept s.mine t.mine ∧
      onlyMine s t ∧ bytesKept s t) ∧
  (∀ (w : Fields) (s : State) (c h : Nat), s.cur = .core c 0 → issues (.hjoin w) s = true → h = (s.mine.src w.a).toNat → 1 ≤ h → h ≤ 10 →
    ((s.coreAt c).thread h).stat ≠ .free →
    ∃ t, exec (.hjoin w) s = .next t ∧ t.mine.pc = s.mine.pc ∧ t.mine.waiting = true ∧ registersKept s.mine t.mine ∧ onlyMine s t) ∧
  (∀ (w : Fields) (s : State) (c : Nat), s.cur = .core c 0 → issues (.hstat w) s = true → (s.coreAt c).grant ≤ 10 →
    ∃ t v, exec (.hstat w) s = .next t ∧ lands s t (.n w.a.num) v true 1 ∧
      (∀ j, 1 ≤ j → j ≤ 10 → (v.getLsbD j = true ↔ ((s.coreAt c).thread j).stat ≠ .free)) ∧ v.getLsbD 0 = false ∧
      v.extractLsb' 11 4 = BitVec.ofNat 4 (s.coreAt c).grant ∧ v.extractLsb' 15 49 = 0 ∧ t.mine.pc = s.mine.pc + 1 ∧
      registersKept s.mine t.mine ∧ onlyMine s t ∧ bytesKept s t) ∧
  ∀ (s : State) (c h : Nat), (s.coreAt c).issuedAt ≠ s.now + 1 → (s.controlTimed c = false ∨ s.now ≤ ((s.coreAt c).thread 0).openTo) →
    (s.coreAt c).tried = 0 → 1 ≤ h → h ≤ 10 →
    (s.coreAt c).grant ≤ 10 → ((s.coreAt c).thread h).stat = .run → ((s.coreAt c).thread h).waiting = false →
    (∀ j, 1 ≤ j → j ≤ 10 → (j + 9 - (s.coreAt c).grant % 10) % 10 < (h + 9 - (s.coreAt c).grant % 10) % 10 →
      ((s.coreAt c).thread j).stat ≠ .run ∨ ((s.coreAt c).thread j).waiting = true) →
    ∃ t, exec (.helperGrant c) s = .next t ∧ t.todo = .thr c h :: .grant c :: s.todo ∧ (∀ j, (t.coreAt c).thread j = (s.coreAt c).thread j)

/-- R274 to R276, R178. -/
def Obligations.TaskWordsReachTheirQueue : Prop :=
  (∀ (w : Fields) (s u : State) (c k a : Nat), s.cur = .core c k → issues (.tkpost w) s = true → u = found (.tkpost w) s →
    (w.a.kind = .ptr ∨ w.a.kind = .direct) → a = s.mine.base w.a false → postBankTrap u s.cx a = none → (s.coreAt c).changing (bankOf a) = false →
    ∃ t f q r, exec (.tkpost w) s = .next t ∧ awaits t f .none true ∧ SMap.find (t.coreAt c).reqs q = some r ∧ r.bank = bankOf a ∧
      r.op = .tkpost (s.mine.src w.b) (if w.m.getLsbD 0 = true then (BitVec.ofNat 32 (s.mine.src w.c).toNat).toInt else -1) ∧
      r.who = requester k ∧ r.thr = k ∧ r.flight = some f ∧ r.performed = false ∧
      t.dueAt (s.now + 4) (prioBank + requester k) (.personalityOperation c q) ∧
      t.mine.waiting = true ∧ t.mine.waitOn = some q ∧ t.mine.pc = s.mine.pc ∧ registersKept s.mine t.mine ∧ ∀ p, t.pendOf p = s.pendOf p) ∧
  (∀ (w : Fields) (s : State) (q : Nat) (r : BankReq) (c k : Nat), s.cur = .core c k → s.mine.waiting = true → s.mine.waitOn = some q →
    SMap.find (s.coreAt c).reqs q = some r → r.fail = none → r.performed = true → (∀ f ∈ s.mine.flight, r.flight ≠ some f.seq) →
    s.inFlight s.cur ≤ 32 →
    ∃ t, exec (.tkpost w) s = .next t ∧ t.mine.pc = s.mine.pc + 1 ∧ t.mine.waiting = false ∧ t.mine.waitOn = none ∧
      SMap.find (t.coreAt c).reqs q = none ∧ t.mine.flight = s.mine.flight ∧ moved w.a s.mine t.mine ∧ bytesKept s t) ∧
  (∀ (w : Fields) (s : State) (r : Word) (g : Target), issues (.tkpost w) s = true → (w.a.kind = .nreg ∨ w.a.kind = .qage) → r = s.mine.src w.a →
    r.getLsbD 63 = false → logicalTarget s s.cx.c r = some g →
    ∃ t q e, exec (.tkpost w) s = .next t ∧ SMap.find t.ops q = some e ∧ e.kind = .tkpost ∧ e.av = r ∧ e.tgt = g.fe ∧ e.bv = s.mine.src w.b ∧
      e.cv = BitVec.ofNat 64 ((s.mine.src w.c).toNat % 2 ^ 32) ∧ t.mine.waiting = true ∧ t.mine.waitOn = some q ∧
      (∃ d, s.now + 6 ≤ d ∧ t.dueAt d 60 (.amsgArrival q)) ∧ t.mine.pc = s.mine.pc ∧ registersKept s.mine t.mine) ∧
  (∀ (w : Fields) (s : State), issues (.tkpost w) s = true → w.a.kind = .imm → w.m.getLsbD 0 = false → (s.mine.src w.b).toNat % 2 ^ 32 ≠ 0 →
    ∃ t q e, exec (.tkpost w) s = .next t ∧ SMap.find t.ops q = some e ∧ e.toHub = true ∧ e.bv = s.mine.src w.b ∧ t.mine.waiting = true ∧
      t.mine.waitOn = some q ∧ (∃ d, s.now + 6 ≤ d ∧ t.dueAt d 60 (.amsgArrival q)) ∧ registersKept s.mine t.mine) ∧
  (∀ (w : Fields) (s : State) (q : Nat) (e : EngOp) (c k : Nat), s.cur = .core c k → s.mine.waiting = true → s.mine.waitOn = some q →
    SMap.find (s.coreAt c).reqs q = none → SMap.find s.ops q = some e → e.st = .done → s.inFlight s.cur ≤ 31 →
    ∃ t, exec (.tkpost w) s = .next t ∧ lands s t .none (BitVec.ofNat 64 e.stat) true 1 ∧ t.mine.waiting = false ∧ t.mine.pc = s.mine.pc + 1 ∧
      registersKept s.mine t.mine) ∧
  (∀ (w : Fields) (s u : State) (c k a : Nat), s.cur = .core c k → issues (.tktake w) s = true → u = found (.tktake w) s → w.b.kind ≠ .imm →
    a = s.mine.base w.b false → isLocal a = true → (s.coreAt c).persAt a = 1 →
    guardTrap u s.cx (persCheckAddr (s.coreAt c) a) 8 true true = none → (s.coreAt c).changing (bankOf a) = false →
    ∃ t f d, exec (.tktake w) s = .next t ∧ awaits t f .none true ∧ awaits t d (.n w.a.num) false ∧
      requests s t c k (bankOf a) (.ldl 0 0) (some f) (some d) ∧ t.mine.pc = s.mine.pc + 1 ∧ moved w.b s.mine t.mine) ∧
  (∀ (w : Fields) (s : State), issues (.tktake w) s = true → w.b.kind = .imm → s.privileged s.cur = true →
    ∃ t v st d, exec (.tktake w) s = .next t ∧ 6 ≤ d ∧ (v, st) = (match s.hub.privQ with | n :: _ => (n, (0 : Word)) | [] => (0, 2)) ∧
      (s.hub.heldNotices = [] → t.hub.privQ = s.hub.privQ.drop 1) ∧
      (∃ f g, t.mine.flight = s.mine.flight ++ [f, g] ∧ f.dest = .n w.a.num ∧ f.value = v ∧ f.push = false ∧ f.land = s.now + d ∧
        g.dest = .none ∧ g.value = st ∧ g.push = true ∧ g.land = s.now + d) ∧
      t.mine.pc = s.mine.pc + 1 ∧ registersKept s.mine t.mine) ∧
  ∀ (w : Fields) (s u : State) (c k a st h : Nat) (r : List Word) (v : State), s.cur = .core c k → issues (.launch w) s = true → u = found (.launch w) s →
    a = s.mine.base w.b false → a % 64 = 0 → isLocal a = true → (s.coreAt c).personality a 64 = false → guardTrap u s.cx a 64 true false = none →
    rowsHeld u s.cx (rangeRows a 64) [] = false → (s.coreAt c).changingIn a 64 = false → w.b.inc = false →
    r = ((List.range 8).map fun i => BitVec.ofNat 64 (leNat (((u.reads s.cx s.now a 64).drop (8 * i)).take 8))) →
    u.postRecord (s.ctxOf s.cur) (s.mine.src w.c).toNat r = (st, h, v) →
    ∃ t d f, exec (.launch w) s = .next t ∧ t.contexts = v.contexts ∧ t.groups = v.groups ∧ 6 ≤ d ∧ t.mine.flight = s.mine.flight ++ [f] ∧
      f.dest = .n w.a.num ∧ f.push = true ∧ f.value = BitVec.ofNat 64 (h * 2 ^ 16 + st) ∧ f.land = s.now + d ∧ t.mine.pc = s.mine.pc + 1 ∧
      registersKept s.mine t.mine

/-- R276, R310, R338, R342: what becomes of a launch record, and the hub's dependence map. -/
def Obligations.LaunchRecordIsJudged : Prop :=
  (∀ (s : State) (x q : Nat) (r : List Word), (recordBad r = true ∨ 8 ≤ q ∨ (s.contextAt x).st = 0 ∨ (s.contextAt x).st = 5) →
    s.postRecord x q r = (8, 0, s)) ∧
  (∀ (s : State) (x q : Nat) (r : List Word), recordBad r = false → q < 8 → (s.contextAt x).st ≠ 0 → (s.contextAt x).st ≠ 5 →
    recordBits r 2 0 32 = 0 → 32 ≤ (((s.contextAt x).queue q).recs).length → s.postRecord x q r = (1, 0, s)) ∧
  (∀ (s : State) (x q n : Nat) (r : List Word), recordBad r = false → q < 8 → (s.contextAt x).st ≠ 0 → (s.contextAt x).st ≠ 5 →
    recordBits r 2 0 32 = 0 → (((s.contextAt x).queue q).recs).length < 32 → nextNumber s x = some n →
    (s.postRecord x q r).1 = 0 ∧ (s.postRecord x q r).2.1 = x * 256 + n ∧
      ((s.postRecord x q r).2.2.groupAt (x * 256 + n)).record = r ∧ ((s.postRecord x q r).2.2.groupAt (x * 256 + n)).st = .pending ∧
      (((s.postRecord x q r).2.2.contextAt x).queue q).recs = ((s.contextAt x).queue q).recs ++ [x * 256 + n] ∧
      ((s.postRecord x q r).2.2.contextAt x).lastGrp = n ∧ ((s.postRecord x q r).2.2).pending .launchDecision = true) ∧
  (∀ (s : State) (x key : Nat) (delta : Int) (v : BitVec 32), v = BitVec.ofInt 32 (((SMap.find (s.contextAt x).hubMap key).getD 0).toInt + delta) →
    (v = 0 → (s.hubPost x key delta).1 = 7) ∧
    (v ≠ 0 → SMap.find (s.contextAt x).hubMap key ≠ none → (s.hubPost x key delta).1 = 0 ∧
      SMap.find ((s.hubPost x key delta).2.contextAt x).hubMap key = some v) ∧
    (v ≠ 0 → SMap.find (s.contextAt x).hubMap key = none → (s.contextAt x).hubMap.length < 512 → (s.hubPost x key delta).1 = 3 ∧
      SMap.find ((s.hubPost x key delta).2.contextAt x).hubMap key = some v) ∧
    (v ≠ 0 → SMap.find (s.contextAt x).hubMap key = none → 512 ≤ (s.contextAt x).hubMap.length → s.hubPost x key delta = (1, s)))

/-- R63, R131, R152, R281, R277: the special registers. -/
def Obligations.SpecialRegistersAreReadAndWritten : Prop :=
  (∀ (w : Fields) (s : State) (c k n : Nat), s.cur = .core c k → issues (.srr w) s = true → specialRead s w.b.num = some n →
    ∃ t, exec (.srr w) s = .next t ∧ lands s t (.n w.a.num) (BitVec.ofNat 64 n) true 2 ∧ t.mine.pc = s.mine.pc + 1 ∧ registersKept s.mine t.mine ∧
      onlyMine s t ∧ bytesKept s t) ∧
  (∀ (w : Fields) (s : State) (c k : Nat), s.cur = .core c k → issues (.srr w) s = true →
    ∃ t v, exec (.srr w) s = .next t ∧ lands s t (.n w.a.num) v true 2 ∧
      (w.b.num = 0x008 → v = BitVec.ofNat 64 (t.coreAt c).budg) ∧
      (∀ j < 8, w.b.num = 0x010 + j → ((s.coreAt c).stage j).s < 2 ^ 12 → ((s.coreAt c).stage j).rows < 2 ^ 8 → stageWord ((s.coreAt c).stage j) v) ∧
      (w.b.num = 0x00A → v.getLsbD 16 = (s.coreAt c).dcol ∧ v.extractLsb' 8 8 = (s.coreAt c).arv ∧ v.extractLsb' 0 8 = (s.coreAt c).enAt s.now) ∧
      (w.b.num = 0x100 → v.getLsbD 1 = s.privileged s.cur ∧ v.getLsbD 0 = (s.contextAt (s.ctxOf s.cur)).wchk ∧
        v.getLsbD 2 = (s.coreAt c).inTrap.isSome) ∧
      t.mine.pc = s.mine.pc + 1 ∧ registersKept s.mine t.mine ∧ onlyMine s t ∧ bytesKept s t) ∧
  (∀ (w : Fields) (s : State) (id : Nat), s.cur = .req id → issues (.srr w) s = true → w.b.num = 0x001 →
    ∃ t, exec (.srr w) s = .next t ∧ lands s t (.n w.a.num) (BitVec.ofNat 64 s.now) true 2 ∧ registersKept s.mine t.mine ∧ onlyMine s t) ∧
  (∀ (w : Fields) (s : State) (c k : Nat) (v : Word), s.cur = .core c k → issues (.srw w) s = true → v = s.mine.src w.b →
    ∃ t, exec (.srw w) s = .next t ∧ t.mine.pc = s.mine.pc + 1 ∧ t.mine.flight = s.mine.flight ∧ t.mine.n = s.mine.n ∧ t.mine.q = s.mine.q ∧
      t.mine.a = s.mine.a ∧ t.mine.p = s.mine.p ∧ bytesKept s t ∧
      (w.a.num = 0x000 → t.mine.vl = v.setWidth 16 ∧ t.mine.fflg = s.mine.fflg) ∧
      (w.a.num ≠ 0x000 → t.mine.vl = s.mine.vl) ∧
      (w.a.num = 0x009 → t.mine.fflg = s.mine.fflg &&& ~~~(v.setWidth 8)) ∧
      (w.a.num = 0x00A → (t.coreAt c).dcol = ((s.coreAt c).dcol && !v.getLsbD 16) ∧ (t.coreAt c).arv = (s.coreAt c).arv &&& ~~~(v.extractLsb' 8 8)) ∧
      (w.a.num = 0x100 → (t.contextAt (s.ctxOf s.cur)).wchk = v.getLsbD 0 ∧
        (t.contextAt (s.ctxOf s.cur)).allow = min (v.toNat / 2 ^ 32 % 2 ^ 17) 65536) ∧
      (w.a.num = 0x102 → (t.coreAt c).epcw = v.setWidth 13) ∧
      (w.a.num = 0x104 → (t.contextAt (s.ctxOf s.cur)).limit = v.toNat % 2 ^ 32) ∧
      (w.a.num = 0x106 → ∀ d, SMap.find (t.coreAt c).inj d = if v.getLsbD d = true then none else SMap.find (s.coreAt c).inj d) ∧
      (w.a.num = 0x107 → (t.coreAt c).tvec = v.setWidth 11) ∧
      (w.a.num = 0x108 → (t.contextAt (s.ctxOf s.cur)).area = v.toNat % 2 ^ 52 / 4096 * 4096)) ∧
  ∀ (w : Fields) (s : State) (c k : Nat), s.cur = .core c k → issues (.setsz w) s = true →
    ∃ t, exec (.setsz w) s = .next t ∧ (t.coreAt c).sz = (s.mine.src w.a).setWidth 32 ∧ t.mine.pc = s.mine.pc + 1 ∧
      t.mine.flight = s.mine.flight ∧ registersKept s.mine t.mine ∧ onlyCore (fun b a => { a with sz := b.sz }) s t ∧ bytesKept s t

/-- R172, R129, R245: RTEND for each of the three engines that run it, and what ends a routine. -/
def Obligations.RtendEndsItsRun : Prop :=
  (∀ (w : Fields) (s : State) (c : Nat), s.cur = .core c 0 → issues (.rtend w) s = true →
    ∃ t, exec (.rtend w) s = .next t ∧ t.mine.stat = .ending ∧ t.dueAt s.now prioEngine (.routineDispatch c) ∧ t.mine.flight = s.mine.flight ∧
      t.mine.unsealed = s.mine.unsealed ∧ t.mine.batches = s.mine.batches ∧ registersKept s.mine t.mine ∧ onlyMine s t ∧ bytesKept s t) ∧
  (∀ (w : Fields) (s : State) (c : Nat), s.cur = .core c 12 → issues (.rtend w) s = true → (s.coreAt c).burin.pend = [] → (s.coreAt c).burin.next = none →
    ∃ t, exec (.rtend w) s = .next t ∧ t.mine.stat = .free ∧ (t.coreAt c).burin.running = false ∧
      (t.coreAt c).burin.runs = ((s.coreAt c).burin.runs + 1) % 65536 ∧ registersKept s.mine t.mine ∧ bytesKept s t) ∧
  (∀ (w : Fields) (s : State) (id : Nat), s.cur = .req id → issues (.rtend w) s = true →
    ∃ t, exec (.rtend w) s = .next t ∧ t.mine.stat = .done ∧ t.dueAt s.now prioNet (.engineOperationComplete (s.reqAt id).op) ∧
      registersKept s.mine t.mine ∧ onlyMine s t ∧ bytesKept s t) ∧
  (∀ (s : State) (c : Nat), ((s.coreAt c).thread 0).stat = .ending → (s.groupAt (s.groupOfCore c)).st = .running →
    ((s.coreAt c).thread 0).flight = [] → writesLeft s c 0 = false → (∀ x ∈ (s.coreAt c).reqs, x.2.thr = 0 → x.2.remote = none → x.2.performed = true) →
    (∀ x ∈ (s.coreAt c).vecs, x.2.code = .vhisto → x.2.thr = 0 → x.2.ns ≤ x.2.step) → (∀ h, 1 ≤ h → h ≤ 10 → ((s.coreAt c).thread h).stat = .free) →
    ∃ t q, exec (.routineDispatch c) s = .next t ∧
      SMap.find (t.coreAt c).reqs q = some { bank := 15, who := 0, op := .routine, thr := 0, issued := s.now } ∧
      t.dueAt (s.now + 1) prioBank (.personalityOperation c q) ∧ (∀ d, d ≠ c → t.coreAt d = s.coreAt d)) ∧
  ∀ (s : State) (c : Nat), ((s.coreAt c).thread 0).stat = .ending → (s.groupAt (s.groupOfCore c)).st = .running →
    (((s.coreAt c).thread 0).flight ≠ [] ∨ writesLeft s c 0 = true ∨ ∃ h, 1 ≤ h ∧ h ≤ 10 ∧ ((s.coreAt c).thread h).stat ≠ .free) →
    exec (.routineDispatch c) s = .next (s.at (s.now + 1) prioEngine (.routineDispatch c))

/-! The privileged words. -/

/-- R282, R346, R360 to R362, R120: the words that start an operation of the sequencer, what they refuse, and QUOTA. -/
def Obligations.PrivilegedWordsActOrTrap : Prop :=
  (∀ (i : Instr) (kind : ReqKind) (m : Nat) (w : Fields) (s : State), privOp i = some (kind, m, w) → issues i s = true →
    privFits s kind m (s.mine.src w.a) = true → opRoom s = true →
    ∃ t q e, exec i s = .next t ∧ opStarted s t q e (.engineOperationComplete q) ∧ e.kind = kind ∧ e.m = m ∧ e.av = s.mine.src w.a) ∧
  (∀ (i : Instr) (kind : ReqKind) (m : Nat) (w : Fields) (s : State), privOp i = some (kind, m, w) → issues i s = true →
    privNumber s kind m (s.mine.src w.a) = false → exec i s = .next (s.takeTrap s.cur s.mine.pc { cause := 0x200 })) ∧
  (∀ (i : Instr) (kind : ReqKind) (m : Nat) (w : Fields) (s : State), privOp i = some (kind, m, w) → issues i s = true →
    privNumber s kind m (s.mine.src w.a) = true → privFits s kind m (s.mine.src w.a) = false →
    exec i s = .next (s.takeTrap s.cur s.mine.pc { cause := 0x201 })) ∧
  (∀ (w : Fields) (s : State) (x : Nat), issues (.ctxload w) s = true → (s.mine.src w.a).toNat = x → x ≤ 255 → x ≠ 0 → w.c.zero = true →
    (s.contextAt x).st = 4 → opRoom s = true →
    ∃ t q e, exec (.ctxload w) s = .next t ∧ opStarted s t q e (.engineOperationComplete q) ∧ e.kind = .ctxload ∧ e.m = w.b.immInt.toNat ∧
      e.av = s.mine.src w.a ∧ e.fmt = 0) ∧
  (∀ (w : Fields) (s : State) (x c : Nat), issues (.ctxload w) s = true → (s.mine.src w.a).toNat = x → x ≤ 255 → x ≠ 0 → w.c.zero = false →
    (s.mine.src w.c).toNat = c → c < 2 ^ 52 → c % 4096 = 0 → (s.contextAt x).st = 0 → headerFits s.phys c x = true → opRoom s = true →
    ∃ t q e, exec (.ctxload w) s = .next t ∧ opStarted s t q e (.engineOperationComplete q) ∧ e.kind = .ctxload ∧ e.av = s.mine.src w.a ∧
      e.cv = s.mine.src w.c ∧ e.fmt = 1) ∧
  (∀ (w : Fields) (s : State), issues (.ctxload w) s = true → 255 < (s.mine.src w.a).toNat →
    exec (.ctxload w) s = .next (s.takeTrap s.cur s.mine.pc { cause := 0x200 })) ∧
  (∀ (w : Fields) (s : State), issues (.ctxload w) s = true → (s.mine.src w.a).toNat ≤ 255 →
    ((s.mine.src w.a).toNat = 0 ∨ w.c.zero = true ∧ (s.contextAt (s.mine.src w.a).toNat).st ≠ 4) →
    exec (.ctxload w) s = .next (s.takeTrap s.cur s.mine.pc { cause := 0x201 })) ∧
  (∀ (w : Fields) (s : State), issues (.tlbinv w) s = true → (s.mine.src w.a).toNat % 65536 = 0 → (s.mine.src w.a).toNat < 2 ^ 56 →
    (s.mine.src w.b).toNat ≤ 255 → opRoom s = true →
    ∃ t q e, exec (.tlbinv w) s = .next t ∧ opStarted s t q e (.engineOperationComplete q) ∧ e.kind = .tlbinv ∧ e.va = (s.mine.src w.a).toNat ∧
      e.bv = s.mine.src w.b ∧ e.m = w.c.immInt.toNat) ∧
  (∀ (w : Fields) (s : State), issues (.tlbinv w) s = true →
    ((s.mine.src w.a).toNat % 65536 ≠ 0 ∨ 2 ^ 56 ≤ (s.mine.src w.a).toNat ∨ 255 < (s.mine.src w.b).toNat) →
    exec (.tlbinv w) s = .next (s.takeTrap s.cur s.mine.pc { cause := 0x200 })) ∧
  (∀ (w : Fields) (s : State) (x : Nat), issues (.quota w) s = true → (s.mine.src w.a).toNat = x → x ≤ 255 →
    ∃ t, exec (.quota w) s = .next t ∧ t.contextAt x = { s.contextAt x with limit := (s.mine.src w.b).toNat % 2 ^ 32, noticed := false } ∧
      (∀ y, y ≠ x → t.contextAt y = s.contextAt y) ∧ t.mine.flight = s.mine.flight ∧ t.mine.pc = s.mine.pc + 1 ∧ registersKept s.mine t.mine ∧
      onlyMine s { t with contexts := s.contexts } ∧ bytesKept s t) ∧
  ∀ (w : Fields) (s : State), issues (.quota w) s = true → 255 < (s.mine.src w.a).toNat →
    exec (.quota w) s = .next (s.takeTrap s.cur s.mine.pc { cause := 0x200 })

/-- R13, R14, R282, R316, R396, R397, R402: BINSET, REGBIND, MAPSET and INJ. -/
def Obligations.RegistrationWordsBindMoveAndArm : Prop :=
  (∀ (st x y half : Nat), st < 4 → x < 16 → y < 17 → half < 3 →
    slabHalves (BitVec.ofNat 64 (slabWord (feKey st x y) half)) =
      some (if half = 2 then [feKey st x y * 2, feKey st x y * 2 + 1] else [feKey st x y * 2 + half])) ∧
  (∀ (w : Fields) (s u : State) (hs : List Nat) (bin : Nat), issues (.binset w) s = true → u = found (.binset w) s →
    slabHalves (s.mine.src w.a) = some hs → bin = w.b.immInt.toNat → hs.any (u.binHeld · bin) = false → hs.all (u.binMoves · bin) = true →
    (∀ ag, u.inFlight ag ≤ 32) →
    ∃ t, exec (.binset w) s = .next t ∧ (∀ h, h ∉ hs → t.binOf h = s.binOf h) ∧
      (bin = 3 → (∀ h ∈ hs, t.binOf h = 3 ∨ (h, 3) ∈ t.binDue) ∧ ∀ h, hs.head? = some h → t.binOf h = 3) ∧
      (bin ≠ 3 →
        (∀ h ∈ hs, ∀ f g, u.boundTo h = some f → u.groupOn f = some g → (u.groupAt g).atProof = false →
          t.binOf h = s.binOf h ∧ (h, bin) ∈ t.binDue) ∧
        (∀ h ∈ hs, (∀ f g, u.boundTo h = some f → u.groupOn f = some g → (u.groupAt g).atProof = true) → t.binOf h = bin) ∧
        lands s t .none 0 true 1 ∧ t.mine.pc = s.mine.pc + 1 ∧ registersKept s.mine t.mine ∧
        onlyMine s { t with bins := s.bins, passed := s.passed, binDue := s.binDue } ∧ bytesKept s t)) ∧
  (∀ (w : Fields) (s u : State) (hs : List Nat) (bin : Nat), issues (.binset w) s = true → u = found (.binset w) s →
    slabHalves (s.mine.src w.a) = some hs → bin = w.b.immInt.toNat → hs.any (u.binHeld · bin) = false → hs.all (u.binMoves · bin) = false →
    ∃ t, exec (.binset w) s = .next t ∧ lands s t .none 1 true 1 ∧ t.mine.pc = s.mine.pc + 1 ∧ registersKept s.mine t.mine ∧ onlyMine s t ∧
      bytesKept s t) ∧
  (∀ (w : Fields) (s : State), issues (.binset w) s = true → slabHalves (s.mine.src w.a) = none →
    exec (.binset w) s = .next (s.takeTrap s.cur s.mine.pc { cause := 0x200 })) ∧
  (∀ (w : Fields) (s u : State) (hs : List Nat), issues (.binset w) s = true → u = found (.binset w) s →
    slabHalves (s.mine.src w.a) = some hs → hs.any (u.binHeld · w.b.immInt.toNat) = true →
    exec (.binset w) s = .next (s.takeTrap s.cur s.mine.pc { cause := 0x201 })) ∧
  (∀ (w : Fields) (s u : State) (fe west east : Nat), issues (.regbind w) s = true → u = found (.regbind w) s →
    frontEndOf (s.mine.src w.a) = some fe → bindingWord (feStack fe) (s.mine.src w.b) = some (west, east) →
    (∀ g, u.groupOn fe = some g → (u.groupAt g).atProof = true ∧ (u.groupAt g).width = 1) → u.absorbed fe = false →
    u.mayBind fe (west * 2) = true → u.mayBind fe (east * 2 + 1) = true → (∀ ag, u.inFlight ag ≤ 32) →
    ∃ t, exec (.regbind w) s = .next t ∧ t.bindingOf fe = { west := some west, east := some east } ∧
      (s.parked fe = false → lands s t .none 0 true 1 ∧ t.mine.pc = s.mine.pc + 1 ∧ registersKept s.mine t.mine ∧
        (∀ f, f ≠ fe → t.bindingOf f = s.bindingOf f) ∧ onlyMine s { t with bindings := s.bindings } ∧ bytesKept s t)) ∧
  (∀ (w : Fields) (s u : State) (fe west east : Nat), issues (.regbind w) s = true → u = found (.regbind w) s →
    frontEndOf (s.mine.src w.a) = some fe → bindingWord (feStack fe) (s.mine.src w.b) = some (west, east) →
    (∀ g, u.groupOn fe = some g → (u.groupAt g).atProof = true) →
    (u.absorbed fe = true ∨ u.mayBind fe (west * 2) = false ∨ u.mayBind fe (east * 2 + 1) = false ∨
      ∃ g, u.groupOn fe = some g ∧ (u.groupAt g).width ≠ 1) →
    ∃ t, exec (.regbind w) s = .next t ∧ lands s t .none 1 true 1 ∧ t.mine.pc = s.mine.pc + 1 ∧ registersKept s.mine t.mine ∧ onlyMine s t ∧
      bytesKept s t) ∧
  (∀ (w : Fields) (s : State), issues (.regbind w) s = true →
    (frontEndOf (s.mine.src w.a) = none ∨ ∃ fe, frontEndOf (s.mine.src w.a) = some fe ∧ bindingWord (feStack fe) (s.mine.src w.b) = none) →
    exec (.regbind w) s = .next (s.takeTrap s.cur s.mine.pc { cause := 0x200 })) ∧
  (∀ (w : Fields) (s u : State) (g l k : Nat), issues (.mapset w) s = true → u = found (.mapset w) s → s.handle (s.mine.src w.a) = some g →
    l = (s.mine.src w.b).toNat → k = (s.mine.src w.c).toNat → l < (s.groupAt g).cls → k < 64 → moveAccepted u g l k = true →
    ∃ t, exec (.mapset w) s = .next t ∧ (t.groupAt g).moves = ((s.groupAt g).moves.filter fun m => m.1 != l) ++ [(l, k)] ∧
      (t.groupAt g).map = (s.groupAt g).map ∧ lands s t .none 0 true 1 ∧ t.mine.pc = s.mine.pc + 1 ∧ registersKept s.mine t.mine ∧ bytesKept s t) ∧
  (∀ (w : Fields) (s u : State) (g l k : Nat), issues (.mapset w) s = true → u = found (.mapset w) s → s.handle (s.mine.src w.a) = some g →
    l = (s.mine.src w.b).toNat → k = (s.mine.src w.c).toNat → l < (s.groupAt g).cls → k < 64 → moveAccepted u g l k = false →
    ∃ t, exec (.mapset w) s = .next t ∧ lands s t .none 1 true 1 ∧ t.mine.pc = s.mine.pc + 1 ∧ registersKept s.mine t.mine ∧ onlyMine s t ∧
      bytesKept s t) ∧
  (∀ (w : Fields) (s : State), issues (.mapset w) s = true →
    (s.handle (s.mine.src w.a) = none ∨ 64 ≤ (s.mine.src w.c).toNat ∨
      ∃ g, s.handle (s.mine.src w.a) = some g ∧ (s.groupAt g).cls ≤ (s.mine.src w.b).toNat) →
    exec (.mapset w) s = .next (s.takeTrap s.cur s.mine.pc { cause := 0x200 })) ∧
  (∀ (w : Fields) (s : State) (c k d n : Nat), s.cur = .core c k → issues (.inj w) s = true → d = w.a.immInt.toNat → n = (s.mine.src w.b).toNat →
    d ≤ 15 → n ≤ 65535 →
    ∃ t, exec (.inj w) s = .next t ∧ (∀ e, SMap.get 0 (t.coreAt c).inj e = if e = d then n else SMap.get 0 (s.coreAt c).inj e) ∧
      t.mine.flight = s.mine.flight ∧ t.mine.pc = s.mine.pc + 1 ∧ registersKept s.mine t.mine ∧ onlyCore (fun b a => { a with inj := b.inj }) s t ∧
      bytesKept s t) ∧
  ∀ (w : Fields) (s : State), issues (.inj w) s = true → (15 < w.a.immInt.toNat ∨ 65535 < (s.mine.src w.b).toNat) →
    exec (.inj w) s = .next (s.takeTrap s.cur s.mine.pc { cause := 0x200 })

/-! The service of operations. -/

/-- R127 to R129, R377, R370 to R374, R96, R98, R105: a memory core takes a request and starts its first part or its program; the part is
translated, and leaves for its home once no order holds it; the hub fills a demand page. That a walker's locked update takes one cycle is the
model's choice (log entry 61). -/
def Obligations.RequestsAreTakenAndTranslated : Prop :=
  (∀ (s : State) (o : Nat) (e : EngOp), opGoes s o e → e.begun = false → nextInLine s o e = true → requestProgram s e = none → plainRequest e →
    ∃ t, exec (.memoryCoreRequest o) s = .next t ∧ t = { s with ops := t.ops, agenda := t.agenda, fresh := t.fresh } ∧ opsKept s t o ∧
      SMap.find t.ops o = some { e with arrived := some (turnOf s e), begun := true, judged := true,
                                        part := { off := e.part.off, len := min (e.len - e.part.off) (2048 - e.partVa % 2048) } } ∧
      t.dueAt s.now prioNet (.pageWalk o 0)) ∧
  (∀ (s : State) (o : Nat) (e : EngOp), opGoes s o e → e.begun = false → farAbsent s e = false → nextInLine s o e = false →
    ∃ t, exec (.memoryCoreRequest o) s = .next t ∧ t.dueAt (s.now + 1) prioNet (.memoryCoreRequest o) ∧
      SMap.find t.ops o = some { e with arrived := some (turnOf s e) } ∧ opsKept s t o ∧
      t = { s with ops := t.ops, agenda := t.agenda, fresh := t.fresh }) ∧
  (∀ (s : State) (o : Nat) (e : EngOp), opGoes s o e → e.begun = false → farAbsent s e = true →
    ∃ t, exec (.memoryCoreRequest o) s = .next t ∧ (t.opAt o).cause = some 0x14C ∧ (t.opAt o).begun = false ∧ t.reqThreads = s.reqThreads ∧
      opsKept s t o ∧ t.cores = s.cores) ∧
  (∀ (s : State) (o ring : Nat) (loader : Bool) (e : EngOp), opGoes s o e → e.begun = false → nextInLine s o e = true →
    requestProgram s e = some (ring, loader) →
    ∃ t id r, exec (.memoryCoreRequest o) s = .next t ∧ SMap.find t.ops o = some { e with arrived := some (turnOf s e), begun := true, thread := some id } ∧
      SMap.find t.reqThreads id = some r ∧ r.op = o ∧ r.ring = ring ∧ r.loader = loader ∧ r.memCore = s.memCoreOf e ∧ r.scratch = [] ∧
      r.thread.stat = .run ∧ r.thread.pc = 0 ∧ r.thread.notBefore = s.now + 1 ∧ r.thread.readN 0 = BitVec.ofNat 64 e.vaddr ∧
      r.thread.readN 1 = BitVec.ofNat 64 (e.la + ring * 2 ^ 24) ∧ r.thread.readN 2 = BitVec.ofNat 64 e.count ∧
      r.thread.readN 3 = BitVec.ofNat 64 (requestForm e) ∧ r.thread.readN 4 = (((s.coreAt e.core).stage ring).fills).setWidth 64 ∧
      (∀ k, 4 < k → r.thread.readN k = 0)) ∧
  (∀ (s u : State) (o pa tgt : Nat) (e e' : EngOp) (p : Page), toTranslate s o e → walkStep s o e = .got (.page pa tgt p u) →
    partOf e pa tgt p = .ok e' → orderHolds u o e' = false →
    ∃ t, exec (.pageWalk o 0) s = .next t ∧ (t.opAt o).part.st = .sent ∧ (t.opAt o).part.pa = e'.part.pa ∧ (t.opAt o).part.home = tgt ∧
      (t.opAt o).part.len = e'.part.len ∧ (∃ d, s.now < d ∧ t.dueAt d prioNet (.homePerform o 0)) ∧ opsKept s t o ∧ t.phys = u.phys ∧
      t.tlb = u.tlb ∧ t.cores = s.cores) ∧
  (∀ (s u : State) (o pa tgt : Nat) (e e' : EngOp) (p : Page), toTranslate s o e → walkStep s o e = .got (.page pa tgt p u) →
    partOf e pa tgt p = .ok e' → orderHolds u o e' = true →
    exec (.pageWalk o 0) s = .next (u.at (u.now + 1) prioNet (.pageWalk o 0))) ∧
  (∀ (s : State) (o cause : Nat) (e : EngOp), toTranslate s o e → walkStep s o e = .got (.fail cause) →
    ∃ t, exec (.pageWalk o 0) s = .next t ∧ (t.opAt o).cause = some cause ∧ (t.opAt o).fva = BitVec.ofNat 64 e.partVa ∧
      (t.opAt o).fkind = e.access ∧ (e.kind ≠ .cpyz → (t.opAt o).foff = e.part.off) ∧
      (∃ d, s.now < d ∧ t.dueAt d prioNet (.engineOperationComplete o)) ∧ t.phys = s.phys ∧ t.cores = s.cores) ∧
  (∀ (s : State) (o : Nat) (e : EngOp), toTranslate s o e → walkStep s o e = .got .demand →
    s.hub.heldFaults = [] → s.hub.faults.length < 4096 →
    ∃ t, exec (.pageWalk o 0) s = .next t ∧ (t.opAt o).part.st = .held ∧
      t.hub.faults = s.hub.faults ++ [{ op := o, ctx := e.ctx, va := e.partVa }] ∧ t.phys = s.phys ∧ t.cores = s.cores) ∧
  (∀ (s : State) (o : Nat) (e : EngOp), opGoes s o e → e.part.st = .unbegun → (e.kind = .wsig → e.judged = true) →
    (e.stale s = true → ∃ t, exec (.pageWalk o 0) s = .next t ∧ (t.opAt o).part.gen = none ∧ (t.opAt o).part.found = none ∧
      t.dueAt (s.now + 1) prioNet (.pageWalk o 0)) ∧
    (e.stale s = false → s.invalidating e.ctx e.partVa = true → exec (.pageWalk o 0) s = .next (s.at (s.now + 1) prioNet (.pageWalk o 0)))) ∧
  (∀ (s : State) (o : Nat) (e : EngOp), e.part.found = none →
    ((s.cached e.ctx e.partVa = true ∨ e.part.gen ≠ none) → walkStep s o e = .got (lookup s e.ctx e.partVa e.access)) ∧
    (toTranslate s o e → s.cached e.ctx e.partVa = false → e.part.gen = none →
      ∃ t d, exec (.pageWalk o 0) s = .next t ∧ (t.opAt o).part.gen = some s.gen ∧ s.now ≤ d ∧ t.dueAt d prioNet (.pageWalk o 0) ∧
        opsKept s t o ∧ t.phys = s.phys) ∧
    (∀ p, toTranslate s o e → walkStep s o e = .got (.swap p) →
      ∃ t d, exec (.pageWalk o 0) s = .next t ∧ (t.opAt o).part.found = some (p.at_, p.w0, p.w1) ∧ s.now ≤ d ∧
        t.dueAt d prioNet (.pageWalk o 0) ∧ opsKept s t o ∧ t.phys = s.phys)) ∧
  (∀ (s : State) (o : Nat) (e : EngOp) (p : Page), e.part.found = some (p.at_, p.w0, p.w1) →
    (s.bucketLocked p = true → walkStep s o e = .going (s.at (s.now + 1) prioNet (.pageWalk o 0))) ∧
    (s.bucketLocked p = false → e.swaps < 8 → get64 s.phys (p.at_ + 8) = p.w1 →
      walkStep s o e = .got (rewalk { s with phys := put64 s.phys (p.at_ + 8) (p.usedBy e.access) } e.ctx e.partVa e.access)) ∧
    (SMap.find s.ops o = some e → s.bucketLocked p = false → e.swaps < 8 → get64 s.phys (p.at_ + 8) ≠ p.w1 →
      ∃ t d, walkStep s o e = .going t ∧ (t.opAt o).swaps = e.swaps + 1 ∧ (t.opAt o).part.found = none ∧ (t.opAt o).part.gen = some s.gen ∧
        s.now ≤ d ∧ t.dueAt d prioNet (.pageWalk o 0) ∧ t.phys = s.phys) ∧
    (s.bucketLocked p = false → 8 ≤ e.swaps → walkStep s o e = .got (rewalk (s.setLocked p e.access) e.ctx e.partVa e.access))) ∧
  (∀ (s : State) (x va : Nat) (p : Page), walkTable s x va = .ok p → p.v = true ∧ p.sz < 3 ∧ p.tag = pageVpn p.sz va ∧
    p.w0 = get64 s.phys p.at_ ∧ p.w1 = get64 s.phys (p.at_ + 8)) ∧
  (∀ (s : State) (x va kind tgt : Nat) (p : Page) (fill : Page → State → State),
    (p.invalid = true → checkPage s x va kind tgt p fill = .fail 0x14B) ∧
    (p.invalid = false → p.dem = true → p.chg = false → checkPage s x va kind tgt p fill = .demand) ∧
    (p.invalid = false → (p.dem = true → p.chg = true) → (s.contextAt x).keys.contains p.key = false →
      checkPage s x va kind tgt p fill = .fail 0x14A) ∧
    (p.invalid = false → (p.dem = true → p.chg = true) → (s.contextAt x).keys.contains p.key = true → p.permits kind = false →
      checkPage s x va kind tgt p fill = .fail 0x141) ∧
    (p.invalid = false → (p.dem = true → p.chg = true) → (s.contextAt x).keys.contains p.key = true → p.permits kind = true → tgt ≤ 5 →
      frameHome (p.frame * 65536 + va % 2 ^ pageLog p.sz) ≠ tgt → checkPage s x va kind tgt p fill = .fail 0x143)) ∧
  (∀ (s : State) (x va kind : Nat), homeTarget s x va = 0 → lookup s x va kind = .fail 0x142) ∧
  (∀ (s : State) (r : FaultRec) (rest : List FaultRec) (e : EngOp) (p : Page), s.hub.faults = r :: rest → s.hub.heldFaults = [] →
    s.hub.heldNotices = [] → s.hub.privQ.length < 1024 → r.grp = none → SMap.find s.ops r.op = some e → e.part.st = .held → e.st = .running →
    e.ctx = r.ctx → e.fva.toNat = r.va → homeTarget s r.ctx r.va ≠ 6 → walkTable s r.ctx r.va = .ok p → p.invalid = false → p.dem = true →
    p.chg = false → s.bucketLocked p = false → (s.contextAt r.ctx).used + p.frames ≤ (s.contextAt r.ctx).limit →
    ∃ t, exec .faultService s = .next t ∧ (t.contextAt r.ctx).used = (s.contextAt r.ctx).used + p.frames ∧
      get64 t.phys p.at_ = p.w0 + 2 ^ 59 ∧ (t.opAt r.op).part.st = .unbegun ∧ t.dueAt s.now prioNet (.pageWalk r.op 0) ∧
      (∀ a, p.frame * 65536 ≤ a → a < (p.frame + p.frames) * 65536 → (a < p.at_ ∨ p.at_ + 8 ≤ a) → memByte t.phys a = 0) ∧
      (∀ a, (a < p.frame * 65536 ∨ (p.frame + p.frames) * 65536 ≤ a) → (a < p.at_ ∨ p.at_ + 8 ≤ a) → memByte t.phys a = memByte s.phys a) ∧
      t.hub.privQ = s.hub.privQ ++ [noticeWord 0x2C0 r.ctx 0 (p.sz * 2 ^ 36 + p.frame)] ∧ t.hub.faults = rest) ∧
  (∀ (s : State) (r : FaultRec) (rest : List FaultRec) (p : Page), s.hub.faults = r :: rest → r.waits s = true → r.page s = some p →
    s.bucketLocked p = true → ∃ t d, exec .faultService s = .next t ∧ s.now < d ∧ t.dueAt d prioNet .faultService ∧
      t = { s with agenda := t.agenda, fresh := t.fresh }) ∧
  ∀ (s : State) (r : FaultRec) (rest : List FaultRec) (e : EngOp) (p : Page), s.hub.faults = r :: rest → s.hub.heldFaults = [] →
    r.grp = none → SMap.find s.ops r.op = some e → e.part.st = .held → e.st = .running → e.fva.toNat = r.va → walkTable s r.ctx r.va = .ok p →
    p.invalid = false → p.dem = true → p.chg = false → s.bucketLocked p = false →
    (s.contextAt r.ctx).limit < (s.contextAt r.ctx).used + p.frames →
    ∃ t, exec .faultService s = .next t ∧ (t.opAt r.op).cause = some 0x240 ∧ (t.opAt r.op).fkind = p.frames ∧
      (t.contextAt r.ctx).used = (s.contextAt r.ctx).used ∧ t.phys = s.phys

/-- R93, R101, R106, R118, R251, R260, R262, R263, R329: what a home does with an access. How a block is sealed is the model's choice (R364, log
entry 36). -/
def Obligations.HomesPerformTheirAccess : Prop :=
  (∀ (s u : State) (o : Nat) (e : EngOp), atHome s u o e → e.kind.loads = true → e.kind ≠ .cpyz → e.paid = false → e.peer = none →
    (e.part.ct = 2 → u.unwritten e.grp e.part.pa e.part.len = false) → u.poison = [] →
    ∃ t, exec (.homePerform o 0) s = .next t ∧ (t.opAt o).part.st = .pushing ∧
      (t.opAt o).part.segs = loadSegs e (u.physRead e.grp e.part.pa e.part.len) ∧
      (∃ d, s.now < d ∧ t.dueAt d (prioBank + 13) (.copyPush o 0)) ∧ opsKept s t o ∧ t.phys = u.phys ∧ t.cores = s.cores ∧ t.clusters = s.clusters) ∧
  (∀ (e : EngOp) (bs : List Byte), e.part.bg = 0 → e.kind ≠ .cpyiLd →
    (loadSegs e bs).flatMap (·.2) = bs ∧ ∀ x ∈ loadSegs e bs, e.la + e.part.off ≤ x.1 ∧ x.1 % 256 + x.2.length ≤ 256 ∧
      ∀ i < x.2.length, x.2[i]? = bs[x.1 + i - (e.la + e.part.off)]?) ∧
  (∀ (s u : State) (o : Nat) (e : EngOp), atHome s u o e → e.part.ct = 2 → u.unwritten e.grp e.part.pa e.part.len = true → e.kind.loads = true →
    e.paid = false → ¬(e.kind = .rget ∧ e.m = 1) →
    ∃ t, exec (.homePerform o 0) s = .next t ∧ t.dueAt (s.now + 1) prioNet (.homePerform o 0) ∧
      SMap.find t.ops o = some { e with part := { e.part with absent := true } } ∧ opsKept s t o ∧ t.phys = u.phys ∧ t.cores = s.cores) ∧
  (∀ (s u : State) (o : Nat) (e : EngOp), atHome s u o e → e.part.ct = 2 → u.unwritten e.grp e.part.pa e.part.len = true → e.kind = .rget → e.m = 1 →
    e.paid = false → ∃ t, exec (.homePerform o 0) s = .next t ∧ (t.opAt o).stat = 5 ∧ completes s t o ∧ t.phys = u.phys ∧ t.cores = s.cores) ∧
  (∀ (s u : State) (o c k : Nat) (e : EngOp), atHome s u o e → e.kind = .rput → e.paid = false → e.peer = none → e.part.bg = 0 → e.part.ct ≠ 2 →
    e.part.segs = [] → e.agent = .core c k → nothingHeld u e.grp → noDetector s e.core →
    ∃ t, exec (.homePerform o 0) s = .next t ∧
      t.phys = memWrite u.phys e.part.pa (s.view e.core 99 s.now (e.la + e.part.off) e.part.len) ∧ t.cores = s.cores ∧ opsKept s t o ∧
      (e.len ≤ e.part.off + e.part.len → completes s t o) ∧
      (e.part.off + e.part.len < e.len → (t.opAt o).part.st = .unbegun ∧ (t.opAt o).part.off = e.part.off + e.part.len)) ∧
  (∀ (s : State) (g home pa : Nat) (bs : List Byte), (s.groupAt g).proof ≠ none → (∀ x ∈ s.groups, x.1 ≠ g → x.2.hold = []) →
    (s.groups.map (·.1)).Pairwise (· < ·) → s.heldAt (pointOf home pa) + bs.length ≤ holdEntries →
    (s.physWrite g home pa bs).phys = s.phys ∧ (s.physWrite g home pa bs).physRead g pa bs.length = bs ∧
      ∀ h n a, h ≠ g → (s.physWrite g home pa bs).physRead h a n = s.physRead h a n) ∧
  (∀ (s u : State) (o op w old : Nat) (e : EngOp), atHome s u o e → e.kind = .atom op → w = atomWidth e.fmt → e.partVa % w = 0 → e.part.ct ≠ 2 →
    nothingHeld u e.grp → u.poison = [] → old = leNat (memRead u.phys e.part.pa w) →
    ∃ t, exec (.homePerform o 0) s = .next t ∧
      t.phys = memWrite u.phys e.part.pa (leBytes w (atomValue op e.fmt old e.cv.toNat e.ev.toNat)) ∧ (t.opAt o).old = atomOld e.fmt old ∧
      completes s t o ∧ opsKept s t o ∧ t.cores = s.cores) ∧
  (∀ (op : Nat) (x y z : BitVec 32), atomValue op 6 x.toNat y.toNat z.toNat = (atomResult op true x y z).toNat ∧
    atomValue op 10 x.toNat y.toNat z.toNat = (atomResult op false x y z).toNat) ∧
  (∀ (op : Nat) (x y z : BitVec 64), atomValue op 7 x.toNat y.toNat z.toNat = (atomResult op true x y z).toNat ∧
    atomValue op 0 x.toNat y.toNat z.toNat = (atomResult op false x y z).toNat) ∧
  (∀ (s u : State) (o : Nat) (e : EngOp) (n : Nat), atHome s u o e →
    ((∃ op, e.kind = .atom op ∧ (e.partVa % atomWidth e.fmt ≠ 0 ∧ n = 0x150 ∨ e.partVa % atomWidth e.fmt = 0 ∧ e.part.ct = 2 ∧ n = 0x146)) ∨
      e.kind = .pgen ∧ e.part.ct ≠ 2 ∧ n = 0x149) →
    ∃ t, exec (.homePerform o 0) s = .next t ∧ (t.opAt o).cause = some n ∧ t.phys = u.phys ∧ t.granules = s.granules ∧ t.cores = s.cores) ∧
  (∀ (s u : State) (o : Nat) (e : EngOp), atHome s u o e → e.kind = .pgen → e.part.ct = 2 →
    ∃ t, exec (.homePerform o 0) s = .next t ∧ completes s t o ∧ t.phys = u.phys ∧
      ∀ gr, SMap.get false t.granules gr =
        if e.part.pa / 64 ≤ gr ∧ gr < e.part.pa / 64 + e.part.len / 64 then false else SMap.get false s.granules gr) ∧
  (∀ (s : State) (g home pa : Nat) (bs : List Byte), bs ≠ [] → home ≠ 6 →
    ((∃ gr ∈ granulesOf pa bs.length, s.writtenFor g gr = true) → s.typedWrite g home 2 pa bs = .error 0x145) ∧
    ((∀ gr ∈ granulesOf pa bs.length, s.writtenFor g gr = false) → (∀ x ∈ s.groups, x.1 ≠ g → x.2.hold = []) →
      ∃ t, s.typedWrite g home 2 pa bs = .ok t ∧ ∀ gr ∈ granulesOf pa bs.length, t.writtenFor g gr = true ∧
        ((s.groupAt g).proof = none → SMap.get false t.granules gr = true))) ∧
  (∀ (s : State) (l r : List PortWrite) (x : PortWrite) (e : EngOp), s.hub.portWrites = l ++ x :: r → (∀ y ∈ l, y.port ≠ x.port) →
    opGoes s x.op e → e.part.st = .sent → e.kind.loads = true → e.kind ≠ .cpyz → e.peer = none →
    (∃ t, exec (.hostPortCompletion x.port true) s = .next t ∧ (t.opAt x.op).part.st = .pushing ∧
      (t.opAt x.op).part.segs = loadSegs e (memRead s.host e.part.pa e.part.len) ∧ t.hub.portWrites = l ++ r ∧ t.host = s.host ∧
      t.cores = s.cores) ∧
    ∃ t, exec (.hostPortCompletion x.port false) s = .next t ∧ (t.opAt x.op).cause = some 0x186 ∧ t.hub.portWrites = l ++ r ∧ t.host = s.host) ∧
  (∀ (s : State) (l r : List PortWrite) (x : PortWrite), s.hub.portWrites = l ++ x :: r → (∀ y ∈ l, y.port ≠ x.port) →
    (∀ e, SMap.find s.ops x.op = some e → e.kind.loads = false) →
    ∀ ok, exec (.hostPortCompletion x.port ok) s = .next { s with hub := { s.hub with portWrites := l ++ r } }) ∧
  (∀ (k : BitVec 512) (b : Nat) (v : BitVec 128), openBlock k b (sealBlock k b v) = v) ∧
  (∀ (s : State) (k : Key) (pa n : Nat), (∀ b, pa / 16 ≤ b → b < (pa + n + 15) / 16 → SMap.find s.blockKeys b = k) → s.rekey k pa n = s) ∧
  ∀ (s : State) (k : Key) (b : Nat), SMap.find (s.rekeyBlock k b).blockKeys b = k ∧
    blockIn (s.rekeyBlock k b).phys b = openUnder k b (sealUnder (SMap.find s.blockKeys b) b (blockIn s.phys b)) ∧
    (∀ a, a / 16 ≠ b → memByte (s.rekeyBlock k b).phys a = memByte s.phys a) ∧
    ∀ x, x ≠ b → SMap.find (s.rekeyBlock k b).blockKeys x = SMap.find s.blockKeys x

/-- R87, R90, R131, R251, R265, R326, R377: a row is pushed, and a part ends. -/
def Obligations.PushesLandAndAreCredited : Prop :=
  (∀ (s : State) (o c k a : Nat) (bs : List Byte) (rest : List (Nat × List Byte)) (e : EngOp), opGoes s o e → e.part.st = .pushing →
    e.part.segs = (a, bs) :: rest → e.agent = .core c k → e.kind.loads = true → pushHeld s o e a bs.length = false → rowGranted s e.core a 13 o = true →
    (s.coreAt e.core).personality a bs.length = false →
    ∃ t v, exec (.copyPush o 0) s = .next t ∧ t.pendOf (placeOf e.core a) = s.pendOf (placeOf e.core a) ++ [v] ∧ v.addr = a ∧ v.data = bs ∧
      v.who = 13 ∧ v.endC = s.now ∧ v.commitC = s.now + 1 ∧ (t.opAt o).part.segs = rest ∧ t.dueAt (s.now + 1) (prioBank + 13) (.copyPush o 0) ∧
      (∀ j b, SMap.find (s.coreAt e.core).sbs j = some b → SMap.find (t.coreAt e.core).sbs j = some (b.credit a bs.length)) ∧
      (isLocal a = true → ∃ prior, SMap.find (t.coreAt e.core).tags (a / 256) = some (e.tag, s.now, prior)) ∧
      ((s.coreAt e.core).watches (a / 256) = true → isLocal a = true → t.dueAt s.now prioNet (.burinTrigger e.core (a / 256))) ∧
      opsKept s t o ∧ t.phys = s.phys ∧ ∀ p x, memByte (t.memOf p) x = memByte (s.memOf p) x) ∧
  (∀ (s : State) (o c k a : Nat) (bs : List Byte) (rest : List (Nat × List Byte)) (e : EngOp), opGoes s o e → e.part.st = .pushing →
    e.part.segs = (a, bs) :: rest → e.agent = .core c k → pushHeld s o e a bs.length = true →
    exec (.copyPush o 0) s = .next (s.at (s.now + 1) (prioBank + 13) (.copyPush o 0))) ∧
  (∀ (s : State) (o c k a : Nat) (bs : List Byte) (rest : List (Nat × List Byte)) (e : EngOp), opGoes s o e → e.part.st = .pushing →
    e.part.segs = (a, bs) :: rest → e.agent = .core c k → pushHeld s o e a bs.length = false → rowGranted s e.pushTo.1 a e.pushTo.2 o = false →
    ∃ t, exec (.copyPush o 0) s = .next t ∧ t.dueAt (s.now + 1) e.pushPrio (.copyPush o 0) ∧
      (∃ x ∈ t.accOf (placeOf e.pushTo.1 a), x.key = o ∧ x.bank = bankIn a ∧ x.seen = s.now) ∧ t.ops = s.ops ∧
      ∀ p, t.pendOf p = s.pendOf p ∧ t.memOf p = s.memOf p) ∧
  (∀ (s : State) (o c k a : Nat) (bs : List Byte) (rest : List (Nat × List Byte)) (e : EngOp), opGoes s o e → e.part.st = .pushing →
    e.part.segs = (a, bs) :: rest → e.agent = .core c k → pushHeld s o e a bs.length = false → rowGranted s e.pushTo.1 a e.pushTo.2 o = true →
    (s.coreAt e.pushTo.1).personality a bs.length = true →
    ∃ t, exec (.copyPush o 0) s = .next t ∧ (t.opAt o).cause = some 0x0D0 ∧ ∀ p, t.pendOf p = s.pendOf p ∧ t.memOf p = s.memOf p) ∧
  (∀ (s : State) (o : Nat) (e : EngOp), opGoes s o e → e.part.st = .pushing → e.part.segs = [] → e.paid = false → e.kind = .rget →
    ∃ t, exec (.copyPush o 0) s = .next t ∧ opsKept s t o ∧ t.cores = s.cores ∧
      (e.len ≤ e.part.off + e.part.len → completes s t o) ∧
      (e.part.off + e.part.len < e.len → (t.opAt o).part.st = .unbegun ∧ (t.opAt o).part.off = e.part.off + e.part.len ∧
        t.dueAt s.now prioNet (if e.logical then .remoteRequestReceive o 0 else .pageWalk o 0))) ∧
  (∀ (b : Sbs) (a n i : Nat), b.s ≠ 0 → b.base * 256 ≤ a → a < b.base * 256 + b.s * (b.rows * 256) →
    i = ((a - b.base * 256) / (b.rows * 256) + b.s - b.stage % b.s) % b.s →
    (b.credit a n).counts.getD i 0 = min (b.rows * 256) (b.counts.getD i 0 + n) ∧
      (∀ j, j ≠ i → (b.credit a n).counts.getD j 0 = b.counts.getD j 0) ∧ (b.credit a n).fills = b.fills ∧ (b.credit a n).stage = b.stage ∧ i < b.s) ∧
  ∀ (b : Sbs) (a n : Nat), (b.s = 0 ∨ a < b.base * 256 ∨ b.base * 256 + b.s * (b.rows * 256) ≤ a) → b.credit a n = b

/-- R95, R119, R260, R261, R317: a logical request at its target, a stale one, and a signal. -/
def Obligations.LogicalRequestsAndSignals : Prop :=
  (∀ (s : State) (o : Nat) (e : EngOp), opGoes s o e → e.part.st ≠ .pushing → e.begun = true → e.mapv ≠ (s.groupAt e.grp).mapv →
    ∃ t, exec (.remoteRequestReceive o 0) s = .next t ∧ t.hub.stale = s.hub.stale + 1 ∧
      (∃ d, s.now < d ∧ t.dueAt d prioNet (.staleReissue o 0)) ∧
      (t.opAt o).part.st = .unbegun ∧ opsKept s t o ∧ ∀ p, t.pendOf p = s.pendOf p ∧ t.memOf p = s.memOf p) ∧
  (∀ (s : State) (o : Nat) (e : EngOp) (g : Target), SMap.find s.ops o = some e → (e.kind = .rget ∨ e.kind = .rput) →
    logicalTarget s e.core e.bv = some g →
    ∃ t, exec (.staleReissue o 0) s = .next t ∧ opsKept s t o ∧
      SMap.find t.ops o =
        some { e with tgt := g.fe, mapv := (s.groupAt e.grp).mapv, part := { e.part with st := .unbegun, num := none, got := [] },
                      reissued := true, atNi := false } ∧
      (∃ d, s.now < d ∧ t.dueAt d prioNet (.remoteRequestReceive o 0)) ∧ t.cores = s.cores) ∧
  (∀ (s : State) (o : Nat) (e : EngOp) (g h : Target), SMap.find s.ops o = some e → e.kind = .wsig → logicalTarget s e.core e.bv = some g →
    logicalTarget s e.core e.ev = some h →
    ∃ t, exec (.staleReissue o 0) s = .next t ∧ opsKept s t o ∧
      SMap.find t.ops o = some { e with tgt := g.fe, sigTgt := h.fe, mapv := (s.groupAt e.grp).mapv,
                                        part := { e.part with st := .unbegun, num := none, got := [] },
                                        reissued := true, atNi := false } ∧
      (∃ d, s.now < d ∧ t.dueAt d prioNet (.remoteRequestReceive o 0)) ∧ t.cores = s.cores) ∧
  (∀ (s : State) (o : Nat) (e : EngOp), atSender s o e → orderHolds s o e = false → (e.kind.writes = true → localReady s o e = true) →
    ∃ t d, exec (.remoteRequestReceive o 0) s = .next t ∧ (t.opAt o).part.st = .sent ∧ s.now < d ∧
      t.dueAt d (prioBank + 12) (.remoteRequestReceive o 0) ∧ opsKept s t o ∧ t.cores = s.cores) ∧
  (∀ (s : State) (o : Nat) (e : EngOp), atSender s o e → (orderHolds s o e = true ∨ e.kind.writes = true ∧ localReady s o e = false) →
    exec (.remoteRequestReceive o 0) s = .next (s.at (s.now + 1) prioNet (.remoteRequestReceive o 0))) ∧
  (∀ (s : State) (o : Nat) (e : EngOp), opGoes s o e → e.part.st ≠ .pushing → e.begun = false → (e.kind = .rget ∨ e.kind = .rput) →
    e.paid = false → e.logical = true →
    ∃ t, exec (.remoteRequestReceive o 0) s = .next t ∧ opsKept s t o ∧
      SMap.find t.ops o = some { e with begun := true, judged := true,
                                        part := { off := e.part.off, len := min (e.len - e.part.off) (2048 - e.partAddr % 2048) } } ∧
      t.dueAt s.now prioNet (.remoteRequestReceive o 0)) ∧
  (∀ (s : State) (o : Nat) (e : EngOp), arrived s o e → e.begun = true → e.mapv = (s.groupAt e.grp).mapv → (e.kind = .rget ∨ e.kind = .rput) →
    reservedRange e.partAddr e.part.len = true →
    ∃ t, exec (.remoteRequestReceive o 0) s = .next t ∧ (t.opAt o).cause = some 0x183 ∧ t.cores = s.cores ∧ t.clusters = s.clusters) ∧
  (∀ (s : State) (o n : Nat) (bs : List Byte) (e : EngOp), arrived s o e → e.begun = true → e.mapv = (s.groupAt e.grp).mapv → e.kind = .rget →
    e.paid = false → e.peer = none → e.part.bg = 0 → reservedRange e.partAddr e.part.len = false → rowGranted s e.tgt e.askAddr 12 o = true →
    (s.coreAt e.tgt).personality e.partAddr e.part.len = false → n = min (256 - e.askAddr % 256) (e.part.len - e.part.got.length) →
    bs = e.part.got ++ s.committed e.tgt e.askAddr n →
    ∃ t, exec (.remoteRequestReceive o 0) s = .next t ∧
      (bs.length < e.part.len → (t.opAt o).part.got = bs ∧ t.dueAt (s.now + 1) (prioBank + 12) (.remoteRequestReceive o 0)) ∧
      (e.part.len ≤ bs.length → (t.opAt o).part.st = .pushing ∧ (t.opAt o).part.segs.flatMap (·.2) = bs ∧
        ∃ d, s.now < d ∧ t.dueAt d (prioBank + 13) (.copyPush o 0)) ∧
      opsKept s t o ∧ ∀ p, t.pendOf p = s.pendOf p ∧ t.memOf p = s.memOf p) ∧
  (∀ (s : State) (o c k : Nat) (e : EngOp), arrived s o e → e.begun = true → e.mapv = (s.groupAt e.grp).mapv → e.kind = .rput → e.paid = false →
    e.peer = none → e.part.bg = 0 → e.part.segs = [] → e.agent = .core c k → reservedRange e.partAddr e.part.len = false →
    (s.coreAt e.tgt).holdsAccess e.askAddr (s.accessOf e.tgt e.askAddr 12 o).arrive = false →
    (s.coreAt e.tgt).personality e.partAddr e.part.len = false →
    ∃ t, exec (.remoteRequestReceive o 0) s = .next t ∧ (t.opAt o).part.st = .pushing ∧ (t.opAt o).pushTo = (e.tgt, 12) ∧
      (t.opAt o).part.segs.flatMap (·.2) = s.view e.core 99 s.now (e.la + e.part.off) e.part.len ∧
      t.dueAt s.now (prioBank + 12) (.copyPush o 0) ∧ ∀ p, t.pendOf p = s.pendOf p ∧ t.memOf p = s.memOf p) ∧
  (∀ (s : State) (o : Nat) (e : EngOp), opGoes s o e → e.paid = false → e.kind = .wsig → (∀ x ∈ s.earlier o e, x.2.writes = false) →
    s.payloadFailed e = none →
    ∃ t, exec (.wsigSignal o) s = .next t ∧ opsKept s t o ∧ (t.opAt o).paid = true ∧ (t.opAt o).part.st = .unbegun ∧
      t.dueAt s.now prioNet (if (t.opAt o).logical then .remoteRequestReceive o 0 else .pageWalk o 0) ∧ t.cores = s.cores) ∧
  (∀ (s : State) (o : Nat) (e : EngOp), opGoes s o e → e.paid = false → (∃ x ∈ s.earlier o e, x.2.writes = true) →
    exec (.wsigSignal o) s = .next (s.at (s.now + 1) prioNet (.wsigSignal o))) ∧
  (∀ (s : State) (o b : Nat) (e x : EngOp) (c k : Nat), e.agent = .core c k → x.agent = .core c k → SMap.find s.ops b = some x → b < o →
    x.accesses = true → x.st = .running → x.performed = false → (b, x) ∈ s.earlier o e) ∧
  (∀ (s : State) (o n p : Nat) (e : EngOp), opGoes s o e → e.paid = false → e.peer = some p → (∀ x ∈ s.earlier o e, x.2.writes = false) →
    (s.hub.failedPayloads.find? fun x => x.1 == p && x.2.1 == e.tag) = some (p, e.tag, n) →
    ∃ t, exec (.wsigSignal o) s = .next t ∧ (t.opAt o).cause = some n ∧ t.phys = s.phys ∧ t.cores = s.cores) ∧
  (∀ (s u : State) (o : Nat) (e : EngOp), atHome s u o e → e.kind = .wsig → e.paid = true → e.part.ct ≠ 2 → nothingHeld u e.grp →
    (e.m = 1 → u.poison = []) →
    ∃ t, exec (.homePerform o 0) s = .next t ∧ completes s t o ∧
      t.phys = memWrite u.phys e.part.pa (leBytes 8 (signalValue e (leNat (memRead u.phys e.part.pa 8)))) ∧ t.cores = s.cores) ∧
  ∀ (e : EngOp) (old : Nat), (e.m ≠ 1 → signalValue e old = e.cv.toNat / 2 ^ 32) ∧
    (e.m = 1 → signalValue e old = (BitVec.ofNat 64 old + (e.cv.extractLsb' 32 32).signExtend 64).toNat)

/-- R112 to R114: the clocks of the dies. -/
def Obligations.ClocksAreNoticedAndMerged : Prop :=
  (∀ (s : State) (d x : Nat), x < 5 → x ≠ d → (s.dieAt d).due = true → (s.dieAt d).noticed + 32 ≤ s.now →
    (s.dieAt d).vc.getD d 0 ≠ (s.dieAt d).sent →
    ∃ t due, exec (.clockNoticeSend d) s = .next t ∧ s.now < due ∧ t.dueAt due prioNet (.clockNoticeReceive x d ((s.dieAt d).vc.getD d 0)) ∧
      t.dieAt d = { s.dieAt d with noticed := s.now, sent := (s.dieAt d).vc.getD d 0, due := false, last := (t.dieAt d).last } ∧
      (∀ y, y ≠ d → t.dieAt y = s.dieAt y) ∧ t.ops = s.ops) ∧
  (∀ (s t : State) (src dst prio : Nat) (ev : Instr), t = s.message src dst prio ev →
    (∃ due, s.now < due ∧ t.dueAt due prio ev ∧
      (src ≠ dst → SMap.get 0 (s.dieAt src).last dst ≤ due ∧ SMap.get 0 (t.dieAt src).last dst = due)) ∧
      ∀ y, y ≠ src → t.dieAt y = s.dieAt y) ∧
  (∀ (s : State) (d src n : Nat), src < (s.dieAt d).know.length →
    ∃ t, exec (.clockNoticeReceive d src n) s = .next t ∧ (t.dieAt d).know.getD src 0 = max ((s.dieAt d).know.getD src 0) n ∧
      (∀ x, x ≠ src → (t.dieAt d).know.getD x 0 = (s.dieAt d).know.getD x 0) ∧ (t.dieAt d).vc = (s.dieAt d).vc ∧
      ∀ y, y ≠ d → t.dieAt y = s.dieAt y) ∧
  (∀ (s : State) (d : Nat) (clk : List Nat),
    ∃ t, exec (.rcReplyReceive d clk) s = .next t ∧ (∀ x < 5, (t.dieAt d).vc.getD x 0 = max ((s.dieAt d).vc.getD x 0) (clk.getD x 0)) ∧
      (t.dieAt d).know = (s.dieAt d).know ∧ ∀ y, y ≠ d → t.dieAt y = s.dieAt y) ∧
  (∀ (s : State) (o d : Nat) (e : EngOp), SMap.find s.ops o = some e → d = s.dieOfOp e → e.part.ct = 1 → e.part.die ≠ 5 → e.writes = true →
    d ≠ e.part.die → d < (s.dieAt d).vc.length →
    ((s.stampPart o).dieAt d).vc.getD d 0 = (s.dieAt d).vc.getD d 0 + 1 ∧
      ((s.stampPart o).opAt o).part.num = some ((s.dieAt d).vc.getD d 0 + 1) ∧
      ((s.stampPart o).opAt o).part.stamp = ((s.stampPart o).dieAt d).vc) ∧
  (∀ (s : State) (o d : Nat) (e : EngOp), SMap.find s.ops o = some e → d = s.dieOfOp e → e.part.ct = 1 → e.part.die ≠ 5 →
    (e.writes = false ∨ d = e.part.die) →
    (s.stampPart o).dies = s.dies ∧ ((s.stampPart o).opAt o).part.stamp = (s.dieAt d).vc ∧ ((s.stampPart o).opAt o).part.num = none) ∧
  ∀ (s : State) (o k : Nat) (e : EngOp), e.part.ct = 1 → e.part.die ≠ 5 → k < 5 → k ≠ e.part.die →
    (s.dieAt e.part.die).know.getD k 0 < e.part.stamp.getD k 0 → clocksAllow s o e = false

/-! The sequencer. -/

/-- R120, R123, R129, R282, R330, R337, R346, R355, R360, R361, R364: how operations end, and what the privileged ones do. -/
def Obligations.OperationsComplete : Prop :=
  (∀ (s : State) (o : Nat) (e : EngOp), ownOp s o e → (e.kind.accesses = true ∨ e.cause ≠ none) →
    ∃ t, exec (.engineOperationComplete o) s = .next t ∧
      SMap.find t.ops o = some { e with st := match e.cause with | some n => .failed n | none => .done, performed := true } ∧ opsKept s t o ∧
      t.cores = s.cores ∧ t.phys = s.phys) ∧
  (∀ (s : State) (o n c k : Nat) (e : EngOp), SMap.find s.ops o = some e → e.st = .running → e.thread = none → e.peer = none →
    e.agent = .core c k → k ≠ 12 → (s.coreAt e.core).finished = true → e.cause = some n → roomForNotice s →
    ∃ t detail, exec (.engineOperationComplete o) s = .next t ∧ t.hub.privQ = s.hub.privQ ++ [noticeWord n e.ctx (e.grp % 256) detail] ∧
      t.dueAt s.now prioNet (.groupRetire e.grp) ∧ t.cores = s.cores) ∧
  (∀ (s : State) (o id : Nat) (e : EngOp), SMap.find s.ops o = some e → e.st = .running → e.thread = some id → s.requestEnd id = none →
    exec (.engineOperationComplete o) s = .next s) ∧
  (∀ (s : State) (o id c k : Nat) (e : EngOp) (cause : Option Nat), SMap.find s.ops o = some e → e.st = .running → e.thread = some id →
    e.peer = none → e.agent = .core c k → k ≠ 12 → (s.coreAt e.core).finished = false → s.requestEnd id = some cause →
    ∃ t, exec (.engineOperationComplete o) s = .next t ∧ (t.opAt o).st = (match cause with | some n => .failed n | none => .done) ∧
      SMap.find t.reqThreads id = none ∧ t.cores = s.cores) ∧
  (∀ (s : State) (o g : Nat) (e : EngOp), asked s o e .snap → e.av.toNat = g → (s.groupAt g).st.ended = false → e.begun = false →
    (s.groupAt g).prot = true → (((s.groupAt g).domain 0).configured = true → s.wholeGroup g ((s.groupAt g).domain 0) = true) →
    ∃ t, exec (.engineOperationComplete o) s = .next t ∧ (t.groupAt g).snaps = (s.groupAt g).snaps ++ [o] ∧ (t.opAt o).st = .running ∧
      (t.opAt o).begun = true ∧ t.cores = s.cores) ∧
  (∀ (s : State) (o g : Nat) (e : EngOp), asked s o e .roll → e.av.toNat = g → (s.groupAt g).st.ended = false → e.begun = false →
    ((s.groupAt g).proof = none → ∃ t, exec (.engineOperationComplete o) s = .next t ∧ (t.opAt o).st = .failed 0x1C8 ∧ t.cores = s.cores) ∧
    ((s.groupAt g).proof ≠ none → ∃ t, exec (.engineOperationComplete o) s = .next t ∧ (t.groupAt g).rolls = (s.groupAt g).rolls ++ [o] ∧
      ((s.groupAt g).st.holds = true → s.pending (.rollback g) = false → ∃ d, s.now + 128 ≤ d ∧ t.dueAt d prioNet (.rollback g)) ∧
      t.cores = s.cores)) ∧
  (∀ (s : State) (o g : Nat) (e : EngOp), asked s o e .preempt → e.av.toNat = g → (s.groupAt g).st.runs = true → e.begun = false →
    ∃ t, exec (.engineOperationComplete o) s = .next t ∧ (t.groupAt g).preempts = (s.groupAt g).preempts ++ [o] ∧
      (∃ d, s.now + 128 ≤ d ∧ t.dueAt d prioNet (.stopAtCycle g)) ∧ (t.opAt o).st = .running ∧ t.cores = s.cores) ∧
  (∀ (s : State) (o : Nat) (e : EngOp) (kind : ReqKind), (kind = .snap ∨ kind = .roll ∨ kind = .preempt) → asked s o e kind →
    ((s.groupAt e.av.toNat).st.ended = true → ∃ t, exec (.engineOperationComplete o) s = .next t ∧ (t.opAt o).st = .failed 0x200) ∧
    ((s.groupAt e.av.toNat).st.ended = false → e.begun = true →
      ∃ t, exec (.engineOperationComplete o) s = .next t ∧ (t.opAt o).st = .done)) ∧
  (∀ (s : State) (o x g : Nat) (e : EngOp), asked s o e .ctxsave → e.av.toNat = x → e.m = 0 → e.begun = false → savable s x = true →
    stoppedGroups s x = [g] → groupSettled s g = true →
    ∃ t, exec (.engineOperationComplete o) s = .next t ∧ (t.contextAt x).st = 4 ∧ (t.groupAt g).st = .saved ∧
      (t.groupAt g).saved.map (fun i => (i.at_, i.core)) = (s.groupAt g).members.map (fun c => (c, s.coreAt c)) ∧
      (∀ c ∈ (s.groupAt g).members, (t.coreAt c).grp = none) ∧ (t.opAt o).st = .done) ∧
  (∀ (s : State) (o x : Nat) (e : EngOp), asked s o e .ctxsave → e.av.toNat = x → e.m = 0 → e.begun = false → savable s x = true →
    (stoppedGroups s x).all (groupSettled s) = false →
    exec (.engineOperationComplete o) s = .next (s.at (s.now + 1) prioNet (.engineOperationComplete o))) ∧
  (∀ (s : State) (o x : Nat) (e : EngOp), asked s o e .ctxsave → e.av.toNat = x → e.m = 1 → e.begun = false → savable s x = true →
    ∃ t, exec (.engineOperationComplete o) s = .next t ∧ (t.contextAt x).st = 5 ∧ (t.contextAt x).hubMap = [] ∧
      (∀ q, ((t.contextAt x).queue q).recs = []) ∧ (∀ g ∈ s.groupsOf x, (t.groupAt g).st.ended = true) ∧
      ∃ d, s.now < d ∧ t.dueAt d prioNet (.engineOperationComplete o)) ∧
  (∀ (s : State) (o x : Nat) (e : EngOp), asked s o e .ctxsave → e.av.toNat = x → e.m = 1 → e.begun = true →
    ∃ t, exec (.engineOperationComplete o) s = .next t ∧ (t.contextAt x).st = 0 ∧ (t.opAt o).st = .done) ∧
  (∀ (s : State) (o g : Nat) (e : EngOp), asked s o e .ctxsave → e.av.toNat = g → e.m = 2 → (s.groupAt g).rests = true →
    ∃ t, exec (.engineOperationComplete o) s = .next t ∧ (t.groupAt g).st = .killed ∧ (t.groupAt g).members = [] ∧ (t.groupAt g).hold = []) ∧
  (∀ (s : State) (o x a : Nat) (e : EngOp), asked s o e .ctxload → e.av.toNat = x → e.fmt = 1 → e.begun = false → e.cv.toNat = a →
    (s.contextAt x).st = 0 → headerFits s.phys a x = true →
    ∃ t, exec (.engineOperationComplete o) s = .next t ∧ (t.contextAt x).st = 1 ∧ (t.contextAt x).area = a ∧
      (t.contextAt x).root = BitVec.ofNat 64 (get64 s.phys (a + 8)) ∧ (t.contextAt x).limit = get64 s.phys (a + 0x10) % 2 ^ 32 ∧
      (t.contextAt x).allow = min (get64 s.phys (a + 0x18) % 2 ^ 17) 65536 ∧ (t.contextAt x).keys = keysOf s.phys a ∧
      (t.contextAt x).queues = (s.contextAt x).queues ∧ memByte t.phys (a + 4) = 1 ∧ (t.opAt o).st = .done) ∧
  (∀ (s : State) (o x : Nat) (e : EngOp), asked s o e .ctxload → e.av.toNat = x → e.fmt = 0 → e.begun = false → e.m = 0 →
    (s.contextAt x).st = 4 →
    ∃ t, exec (.engineOperationComplete o) s = .next t ∧ (t.contextAt x).st = 1 ∧ t.groups = s.groups ∧ (t.opAt o).st = .done) ∧
  (∀ (s : State) (o : Nat) (e : EngOp), asked s o e .tlbinv → e.begun = false →
    ∃ t, exec (.engineOperationComplete o) s = .next t ∧ t.gen = s.gen + 1 ∧
      (∀ x ∈ s.tlb, (x ∈ t.tlb ↔ invalidates e.bv.toNat e.va e.m x = false)) ∧ t.dueAt (s.now + 1) prioNet (.engineOperationComplete o) ∧
      t.phys = s.phys ∧ t.cores = s.cores) ∧
  (∀ (s : State) (o : Nat) (e : EngOp), asked s o e .tlbinv → e.begun = true →
    ((e.drain.any (stillOld s) = true ∨ olderWalk s (e.part.gen.getD 0) = true) →
      ∃ t, exec (.engineOperationComplete o) s = .next t ∧ t.dueAt (s.now + 1) prioNet (.engineOperationComplete o) ∧ (t.opAt o).st = .running ∧
        t.phys = s.phys ∧ t.cores = s.cores ∧ t.tlb = s.tlb ∧ t.contexts = s.contexts) ∧
    (e.drain.any (stillOld s) = false → olderWalk s (e.part.gen.getD 0) = false → ∃ t, exec (.engineOperationComplete o) s = .next t ∧
      (t.opAt o).st = .done ∧ t.phys = s.phys ∧
      (e.m = 1 → (t.contextAt e.bv.toNat).keys = keysOf s.phys (s.contextAt e.bv.toNat).area))) ∧
  (∀ (s : State) (g code detail : Nat), (s.groupAt g).st.holds = true → (s.groupAt g).proof = none → roomForNotice s →
    s.binDue = [] →
    ∃ t, exec (.ueConsumed g code detail) s = .next t ∧ (t.groupAt g).st = .killed ∧
      t.hub.privQ = s.hub.privQ ++ [noticeWord code (g / 256) (g % 256) detail]) ∧
  (∀ (s : State) (g code detail : Nat), (s.groupAt g).st.holds = true → (s.groupAt g).st ≠ .rollingBack → (s.groupAt g).proof ≠ none →
    s.pending (.rollback g) = false →
    ∃ t, exec (.ueConsumed g code detail) s = .next t ∧ (t.groupAt g).ue = some (code, detail) ∧
      (∃ d, s.now + 128 ≤ d ∧ t.dueAt d prioNet (.rollback g)) ∧ t.cores = s.cores) ∧
  ∀ (s : State) (g code detail : Nat), (s.groupAt g).st.holds = false → exec (.ueConsumed g code detail) s = .next s

/-- R308, R316, R317, R331, R354, R358, R359: a group stands still and goes on; a coupled restart; a rollback; a new map. Which pending moves a
map change makes together is the model's choice (log entry 64). -/
def Obligations.GroupsStopRestoreMoveAndGoOn : Prop :=
  (∀ (s : State) (g : Nat), (s.groupAt g).st = .running →
    ∃ t, exec (.stopAtCycle g) s = .next t ∧ (t.groupAt g).st = .stopped ∧ (t.groupAt g).stopC = some s.now ∧
      (∀ c ∈ (s.groupAt g).members, (∀ k, stoppedAs ((s.coreAt c).thread k) ((t.coreAt c).thread k)) ∧ (t.coreAt c).lend = none ∧
        (t.coreAt c).mem = (s.coreAt c).mem ∧ (t.coreAt c).pend = (s.coreAt c).pend) ∧
      (∀ c, c ∉ (s.groupAt g).members → t.coreAt c = s.coreAt c) ∧ t.clusters = s.clusters ∧ t.ops = s.ops) ∧
  (∀ (s : State) (g : Nat), ((s.groupAt g).st = .placed ∨ (s.groupAt g).st = .changingMap ∨ (s.groupAt g).st = .rollingBack) →
    exec (.stopAtCycle g) s = .next (s.at (s.now + 1) prioEngine (.stopAtCycle g))) ∧
  (∀ (s : State) (g o : Nat), (s.groupAt g).st = .stopped → o ∈ (s.groupAt g).preempts → groupSettled s g = true →
    ∃ t d, exec (.stopAtCycle g) s = .next t ∧ (t.groupAt g).preempts = [] ∧ (t.groupAt g).st = .stopped ∧ s.now ≤ d ∧
      t.dueAt d prioNet (.engineOperationComplete o) ∧ t.cores = s.cores) ∧
  (∀ (s : State) (x g by_ : Nat), s.groupsOf x = [g] → (s.groupAt g).st = .stopped → (s.groupAt g).resumeAt = some s.now →
    (s.groupAt g).coupled = [] → (∀ c ∈ (s.groupAt g).members, (s.coreAt c).grp = some g) → by_ = s.now - ((s.groupAt g).stopC.getD s.now) →
    ∃ t, exec (.resumeCycle x) s = .next t ∧ (t.groupAt g).st = .running ∧ (t.groupAt g).resumeAt = none ∧
      (∀ c ∈ (s.groupAt g).members, ∀ k, ((s.coreAt c).thread k).stat = .stopped →
        ((t.coreAt c).thread k).stat = .run ∧ ((t.coreAt c).thread k).pc = ((s.coreAt c).thread k).pc ∧
        ((t.coreAt c).thread k).anchor = ((s.coreAt c).thread k).anchor + by_ ∧ registersKept ((s.coreAt c).thread k) ((t.coreAt c).thread k) ∧
        ((t.coreAt c).thread k).flight =
          ((s.coreAt c).thread k).flight.map fun f => { f with land := f.land + by_, shift := if f.known then f.shift else f.shift + by_ }) ∧
      ∀ c, (t.coreAt c).mem = (s.coreAt c).mem) ∧
  (∀ (s : State) (g dom c : Nat) (q : Coupled) (r : Restart), SMap.find (s.groupAt g).coupled dom = some q → q.stopped = false → (s.groupAt g).st = .running →
    c ∈ s.domainMembers g ((s.groupAt g).domain dom) → ((s.coreAt c).thread 0).stat = .run → ((s.coreAt c).thread 0).restart = some r →
    (∀ v, s.segOf (.core c 0) ((s.coreAt c).thread 0).pc = some v → ((s.coreAt c).thread 0).seg = some v.first) →
    ∃ t th, exec (.coupledStop g dom) s = .next t ∧ th = (t.coreAt c).thread 0 ∧ th.stat = .stopped ∧ th.pc = r.word ∧ th.q = r.q ∧ th.a = r.a ∧
      th.p = r.p ∧ th.fflg = r.fflg ∧ th.n = ((s.coreAt c).thread 0).n ∧ th.flight = [] ∧
      SMap.find (t.groupAt g).coupled dom = some { q with stopped := true } ∧
      (∀ j, j ≠ dom → SMap.find (t.groupAt g).coupled j = SMap.find (s.groupAt g).coupled j) ∧
      ∀ k e, SMap.find t.sends k = some e → e.src ∈ s.domainMembers g ((s.groupAt g).domain dom) → e.lands ≤ s.now) ∧
  (∀ (s : State) (g dom c : Nat) (q : Coupled) (v : Seg), SMap.find (s.groupAt g).coupled dom = some q → q.stopped = false → (s.groupAt g).st = .running →
    c ∈ s.domainMembers g ((s.groupAt g).domain dom) → ((s.coreAt c).thread 0).stat = .run →
    s.segOf (.core c 0) ((s.coreAt c).thread 0).pc = some v → ((s.coreAt c).thread 0).seg ≠ some v.first →
    ∃ t th, exec (.coupledStop g dom) s = .next t ∧ th = (t.coreAt c).thread 0 ∧ th.stat = .stopped ∧ th.pc = ((s.coreAt c).thread 0).pc ∧
      registersKept ((s.coreAt c).thread 0) th ∧ th.flight = []) ∧
  (∀ (s : State) (g dom c : Nat) (q : Coupled), SMap.find (s.groupAt g).coupled dom = some q → q.stopped = true →
    (s.groupAt g).st = .running → c ∈ s.domainMembers g ((s.groupAt g).domain dom) → ((s.coreAt c).thread 0).stat = .stopped →
    ∃ t th, exec (.coupledRerelease g dom) s = .next t ∧ th = (t.coreAt c).thread 0 ∧ th.stat = .run ∧ th.anchor = s.now ∧
      th.notBefore = s.now ∧ th.fresh = true ∧ th.pc = ((s.coreAt c).thread 0).pc ∧ registersKept ((s.coreAt c).thread 0) th ∧
      SMap.find (t.groupAt g).coupled dom = none ∧
      ∀ j, j ≠ dom → SMap.find (t.groupAt g).coupled j = SMap.find (s.groupAt g).coupled j) ∧
  (∀ (s : State) (g : Nat) (p : Proof), ((s.groupAt g).st = .running ∨ (s.groupAt g).st = .stopped) → (s.groupAt g).proof = some p →
    (p.images.map (·.at_)).Nodup → s.binDue = [] →
    ∃ t d, exec (.rollback g) s = .next t ∧ (t.groupAt g).st = .rollingBack ∧ (t.groupAt g).hold = [] ∧ s.now + 40 ≤ d ∧
      t.dueAt d prioRelease (.rollbackRelease g) ∧
      (∀ i ∈ p.images, (t.coreAt i.at_).mem = i.core.mem ∧ (t.coreAt i.at_).threads = i.core.threads ∧ (t.coreAt i.at_).tiles = i.core.tiles ∧
        (t.coreAt i.at_).banks = i.core.banks ∧ (t.coreAt i.at_).inj = (s.coreAt i.at_).inj)) ∧
  (∀ (s : State) (g code detail : Nat), ((s.groupAt g).st = .running ∨ (s.groupAt g).st = .stopped) → (s.groupAt g).proof = none →
    (s.groupAt g).ue = some (code, detail) → roomForNotice s → s.binDue = [] →
    ∃ t, exec (.rollback g) s = .next t ∧ (t.groupAt g).st = .killed ∧
      t.hub.privQ = s.hub.privQ ++ [noticeWord code (g / 256) (g % 256) detail]) ∧
  (∀ (s : State) (g c : Nat) (p : Proof) (r : Release), (s.groupAt g).st = .rollingBack → (s.groupAt g).proof = some p →
    c ∈ (s.groupAt g).members → SMap.find p.rels c = some r →
    ∃ t, exec (.rollbackRelease g) s = .next t ∧ (t.groupAt g).st = .running ∧ (t.groupAt g).stopC = none ∧ (t.groupAt g).ue = none ∧
      SMap.find (t.coreAt c).rels p.dom = some { r with cyc := s.now } ∧ (t.coreAt c).mem = (s.coreAt c).mem) ∧
  (∀ (s : State) (g : Nat) (now : List (Nat × Nat)), (s.groupAt g).st = .running → s.movesDue g = now → now ≠ [] →
    ∃ t d, exec (.mapChangeBegin g) s = .next t ∧ (t.groupAt g).st = .changingMap ∧ (t.groupAt g).mapv = (s.groupAt g).mapv + 1 ∧
      (t.groupAt g).copying = true ∧ (t.groupAt g).moves = now ∧ (∀ m, m ∈ (t.groupAt g).deferred ↔ m ∈ (s.groupAt g).moves ∧ m ∉ now) ∧ s.now ≤ d ∧
        t.dueAt d prioNet (.mapCopyComplete g) ∧ t.cores = s.cores) ∧
  (∀ (s : State) (g : Nat), (s.groupAt g).copying = true → staleRequests s g = true →
    exec (.mapCopyComplete g) s = .next (s.at (s.now + 1) prioEngine (.mapCopyComplete g))) ∧
  ∀ (s : State) (g : Nat) (f : Nat → Nat), (s.groupAt g).copying = true → staleRequests s g = false →
    f = unitMove (s.groupAt g).tables (newTables s (s.groupAt g)) →
    (∀ c ∈ (s.groupAt g).members, ∀ d ∈ (s.groupAt g).members, f c = f d → c = d) →
    ∃ t, exec (.mapCopyComplete g) s = .next t ∧ (t.groupAt g).members = (s.groupAt g).members.map f ∧ (t.groupAt g).copying = false ∧
      (t.groupAt g).moves = (s.groupAt g).deferred ∧
      ∀ c ∈ (s.groupAt g).members, (t.coreAt (f c)).mem = (s.coreAt c).mem ∧ (t.coreAt (f c)).threads = (s.coreAt c).threads ∧
        (t.coreAt (f c)).grp = (s.coreAt c).grp

/-- R269, R276, R297, R300, R304, R310 to R315, R337 to R342, R365: from a launch queue to the start of a group, and its retirement. That the
signal of a retiring group comes last on its cycle is the model's choice (log entry 63). -/
def Obligations.LaunchIsServedPlacedStartedAndRetired : Prop :=
  (∀ (s : State) (l : List Nat) (g : Nat), bestOf s l = some g →
    g ∈ l ∧ ∀ h ∈ l, takenFirst s.now (s.groupAt h) (s.groupAt g) = false) ∧
  (∀ (s : State) (g : Nat), s.hub.ckGo = false → sequencerBusy s = false → heldGroups s = [] → bestOf s (queueHeads s) = some g →
    ∃ t d, exec .launchDecision s = .next t ∧ (t.groupAt g).dequeued = true ∧
      ((t.contextAt (s.groupAt g).ctx).queue (s.groupAt g).queue).recs =
        (((s.contextAt (s.groupAt g).ctx).queue (s.groupAt g).queue).recs).filter (· != g) ∧
      s.now < d ∧ t.dueAt d prioNet (.kernelCheck g) ∧ t.cores = s.cores) ∧
  (∀ (s : State), (s.hub.ckGo = true ∨ sequencerBusy s = true) → exec .launchDecision s = .next s) ∧
  (∀ (s u : State) (g : Nat) (k : Kernel), (s.groupAt g).st = .pending → (s.groupAt g).dequeued = true → (s.groupAt g).heldPlace = false →
    checkImage g s = .pass k u →
    ∃ t d, exec (.kernelCheck g) s = .next t ∧ (t.groupAt g).kernel = k ∧ u.now < d ∧ t.dueAt d prioNet (.placement g) ∧ t.cores = u.cores) ∧
  (∀ (s u : State) (g check cause : Nat), (s.groupAt g).st = .pending → (s.groupAt g).dequeued = true → (s.groupAt g).heldPlace = false →
    checkImage g s = .fail check cause u → roomForNotice u →
    ∃ t, exec (.kernelCheck g) s = .next t ∧ (t.groupAt g).st = .rejected ∧
      t.hub.privQ = u.hub.privQ ++ [noticeWord 0x1D6 (s.groupAt g).ctx (s.groupAt g).num (check + cause * 2 ^ 10)] ∧ t.cores = u.cores) ∧
  (∀ (k : Kernel) (allow size : Nat), kernelFault k allow size = none →
    (∀ g ∈ k.segs, g.first + g.nw ≤ k.codeW) ∧ (∀ p ∈ k.states, p.entry < k.codeW ∧ p.resv ≤ allow) ∧ (leastState k.states size).isSome = true) ∧
  (∀ (s : State) (gr : Group) (map : List Nat), placementOf s gr = some map →
    map.length = gr.cls ∧ ∀ k ∈ map, s.clusterFits k gr.cpc gr.width [] = true) ∧
  (∀ (s : State) (g : Nat) (map : List Nat), (s.groupAt g).st = .pending → (s.groupAt g).dequeued = true →
    (s.contextAt (s.groupAt g).ctx).served = true → reservedOther s g = false → placementOf s (s.groupAt g) = some map →
    ∃ t d, exec (.placement g) s = .next t ∧ (t.groupAt g).st = .placed ∧ (t.groupAt g).map = map ∧
      (t.groupAt g).members = membersOn s (s.groupAt g) map ∧ (t.groupAt g).mapv = 0 ∧ (t.groupAt g).heldPlace = false ∧
      s.now < d ∧ t.dueAt d prioNet (.startBroadcast g) ∧ t.cores = s.cores) ∧
  (∀ (s : State) (g : Nat), (s.groupAt g).st = .pending → (s.groupAt g).dequeued = true →
    (placementOf s (s.groupAt g) = none ∨ (s.contextAt (s.groupAt g).ctx).served = false) →
    ∃ t, exec (.placement g) s = .next t ∧ (t.groupAt g).heldPlace = true ∧ (t.groupAt g).st = .pending ∧ t.cores = s.cores) ∧
  (∀ (s : State) (g r i : Nat) (gr : Group), gr = s.groupAt g → gr.st = .placed → r < gr.members.length → gr.members.Nodup →
    leastState gr.kernel.states gr.size = some i →
    ∃ t k, exec (.startBroadcast g) s = .next t ∧ k = t.coreAt (gr.members.getD r 0) ∧ (t.groupAt g).st = .running ∧ k.grp = some g ∧
      k.core = r % gr.cpc ∧ k.clus = r / gr.cpc % clustersPerStack gr.width ∧ k.stk = r / gr.cpc / clustersPerStack gr.width ∧
      k.gang = gr.width ∧ k.sz = BitVec.ofNat 32 gr.size ∧ k.allow = (s.contextAt gr.ctx).allow ∧ k.budg = (s.contextAt gr.ctx).allow ∧
      k.guard = (s.contextAt gr.ctx).guard ∧ k.state = i ∧ k.banks = [] ∧ (k.thread 0).stat = .run ∧
      (k.thread 0).pc = (gr.kernel.states.getD i {}).entry ∧ (k.thread 0).anchor = s.now ∧ (k.thread 0).n = [] ∧ (k.thread 0).q = [] ∧
      (∀ h, 0 < h → (k.thread h).stat = .free) ∧ ∀ j < gr.kernel.arg.length, memByte k.mem (0x0FFF00 + j) = gr.kernel.arg.getD j 0) ∧
  (∀ (s : State) (g : Nat), (s.groupAt g).st = .running → groupDone s g = true →
    ((s.groupAt g).dkey = 0 ∨ hubFirst s 1026 = false) →
    ∃ t, exec (.groupRetire g) s = .next t ∧ (t.groupAt g).st = .retired ∧ (t.groupAt g).members = [] ∧ (t.groupAt g).hold = [] ∧
      ∀ v, (s.groupAt g).dkey ≠ 0 → SMap.find (s.contextAt (s.groupAt g).ctx).hubMap (s.groupAt g).dkey = some v → v ≠ 1 →
        SMap.find (t.contextAt (s.groupAt g).ctx).hubMap (s.groupAt g).dkey = some (v - 1)) ∧
  (∀ (s : State) (g : Nat), (s.groupAt g).st = .running → groupDone s g = false → exec (.groupRetire g) s = .next s) ∧
  (∀ (s : State) (g : Nat), groupDone s g = true →
    ((s.groupAt g).st = .changingMap → exec (.groupRetire g) s = .next (s.at (s.now + 1) prioNet (.groupRetire g))) ∧
    ((s.groupAt g).st = .running → (s.groupAt g).dkey ≠ 0 → hubFirst s 1026 = true →
      exec (.groupRetire g) s = .next (s.at s.now prioNet (.groupRetire g)))) ∧
  (∀ (s : State) (x key : Nat), (s.contextAt x).dkeys = [key] → key ≠ 0 → SMap.find (s.contextAt x).hubMap key = none →
    ((s.contextAt x).hubMap.length < 512 → ∃ t, exec (.dkeyRetry x) s = .next t ∧
      SMap.find (t.contextAt x).hubMap key = some 0xFFFFFFFF ∧ (t.contextAt x).dkeys = []) ∧
    (512 ≤ (s.contextAt x).hubMap.length → ∃ t, exec (.dkeyRetry x) s = .next t ∧ (t.contextAt x).hubMap = (s.contextAt x).hubMap ∧
      (t.contextAt x).dkeys = [key])) ∧
  ∀ (s : State), ∃ t, exec .heldPlacementRetry s = .next t ∧ t.pending .launchDecision = true ∧
    (s.binDue = [] → t.groups = s.groups ∧ t.contexts = s.contexts)

/-- R341, R342, R376, R382, R383, R385 to R388, R423: what the host's writes do. Where the status stands in a reply's flit is the model's choice
(log entry 25). -/
def Obligations.HostWindowsAnswer : Prop :=
  (∀ (s : State) (port off x q : Nat) (data : List Word) (r : Nat × Nat × State), s.hub.failed = 0 → s.hub.ctx0Ld = true →
    hubFirst s (min port 1) = false → x ≤ 255 → off / 0x1000 = x → off % 0x1000 / 0x200 = q → off % 0x200 % 64 = 0 → off % 0x200 ≤ 0x1C0 →
      data.length = 8 → r = s.postRecord x q data →
    ∃ t, exec (.hostLaunchDmwr port off data) s = .next t ∧ t.groups = r.2.2.groups ∧ t.contexts = r.2.2.contexts ∧
      t.hub.completions = (if r.1 = 0 then 0 else if r.1 = 1 then 1 else 2) :: r.2.2.hub.completions) ∧
  (∀ (s : State) (port off : Nat) (data : List Word), s.hub.failed = 0 → s.hub.ctx0Ld = true → hubFirst s (min port 1) = false →
    (255 < off / 0x1000 ∨ off % 0x200 % 64 ≠ 0 ∨ 0x1C0 < off % 0x200 ∨ data.length ≠ 8) →
    exec (.hostLaunchDmwr port off data) s = .next { s with hub := { s.hub with completions := 3 :: s.hub.completions } }) ∧
  (∀ (s : State) (port off : Nat) (data : List Word), s.hub.failed = 0 → hubFirst s (min port 1) = true →
    exec (.hostLaunchDmwr port off data) s = .next (s.at s.now prioNet (.hostLaunchDmwr port off data))) ∧
  (∀ (s : State) (x q : Nat) (v : LQueue), s.hub.failed = 0 → x ≤ 255 → q < 8 → v = (s.contextAt x).queue q → v.handle < 2 ^ 16 →
    v.recs.length < 2 ^ 16 → v.disc < 2 ^ 16 → v.acc < 2 ^ 16 →
    ∃ w, s.launchWord (x * 0x1000 + q * 0x200 + 0x1F8) = some w ∧ (w.extractLsb' 48 16).toNat = v.handle ∧
      (w.extractLsb' 32 16).toNat = v.recs.length ∧ (w.extractLsb' 16 16).toNat = v.disc ∧ (w.extractLsb' 0 16).toNat = v.acc) ∧
  (∀ (s : State) (port off : Nat) (data : List Word), s.hub.failed = 0 → s.hub.ctx0Ld = false → hubFirst s (min port 1) = false →
    exec (.hostLaunchDmwr port off data) s = .next { s with hub := { s.hub with completions := 1 :: s.hub.completions } }) ∧
  (∀ (s : State) (port off x q : Nat), s.hub.failed = 0 → off / 0x1000 = x → x ≤ 255 → off % 0x1000 / 0x200 = q →
    ∃ t, exec (.launchWindowWrite port off) s = .next t ∧
      ((t.contextAt x).queue q).disc = min 65535 (((s.contextAt x).queue q).disc + 1) ∧
      ((t.contextAt x).queue q).recs = ((s.contextAt x).queue q).recs ∧ t.groups = s.groups ∧ t.cores = s.cores) ∧
  (∀ (s : State) (port x : Nat) (key : BitVec 32) (r : Nat × State), s.hub.failed = 0 → s.hub.ctx0Ld = true → hubFirst s (min port 1) = false →
    x ≤ 255 → key ≠ 0 → (s.contextAt x).st ≠ 0 → (s.contextAt x).st ≠ 5 → r = s.hubPost x key.toNat (-1) →
    ∃ t, exec (.hubMapSignal (256 * port + x) key) s = .next t ∧ t.contexts = r.2.contexts ∧ t.groups = r.2.groups ∧
      t.hub.completions = (if r.1 = 1 then 1 else 0) :: r.2.hub.completions) ∧
  (∀ (s : State) (port x : Nat) (key : BitVec 32), s.hub.failed = 0 → s.hub.ctx0Ld = true → hubFirst s (min port 1) = false →
    x ≤ 255 → (key = 0 ∨ (s.contextAt x).st = 0 ∨ (s.contextAt x).st = 5) →
    exec (.hubMapSignal (256 * port + x) key) s = .next { s with hub := { s.hub with completions := 2 :: s.hub.completions } }) ∧
  (∀ (s : State) (v : Word), s.hub.failed = 0 →
    exec (.mgmtRegisterWrite 0 v) s = .next { s with hub := { s.hub with ovf := s.hub.ovf && !v.getLsbD 63 } } ∧
    (∃ t, exec (.mgmtRegisterWrite 0x10 v) s = .next t ∧ t.hub.ckBase.toNat = v.toNat % 2 ^ 52 / 65536 * 65536 ∧ t.cores = s.cores) ∧
    (∀ i < 1024, ∃ t, exec (.mgmtRegisterWrite (0x2000 + 8 * i) v) s = .next t ∧
      (SMap.get 0 t.hub.exports i).toNat = v.toNat / 65536 * 65536 ∧
      ∀ j, j ≠ i → SMap.get 0 t.hub.exports j = SMap.get 0 s.hub.exports j) ∧
    (∀ i < 1024, ∃ t, exec (.mgmtRegisterWrite (0x4000 + 8 * i) v) s = .next t ∧
      ∀ f, SMap.get 0 t.hub.linkSets f =
        if f / 4 = i ∧ 2 ≤ f ∧ f ≠ 0xFFF then v.extractLsb' (16 * (f % 4)) 16 else SMap.get 0 s.hub.linkSets f) ∧
    (∀ o, o ≠ 0 → o ≠ 8 → o ≠ 0x10 → o ≠ 0x20 → o ≠ 0x28 → (o < 0x2000 ∨ 0x6000 ≤ o) → exec (.mgmtRegisterWrite o v) s = .next s)) ∧
  (∀ (s : State) (v : Word), s.hub.failed = 0 → s.hub.ckGo = false →
    ∃ t, exec (.mgmtRegisterWrite 8 v) s = .next t ∧ t.hub.ckDir = v.getLsbD 1 ∧ t.hub.ckRef = (s.hub.ckRef && !v.getLsbD 3) ∧
      t.hub.ckErr = (s.hub.ckErr && !v.getLsbD 2) ∧ t.hub.ckGo = false ∧
      (v.getLsbD 0 = true → t.dueAt s.now prioNet (if v.getLsbD 1 then .checkpointRestore else .checkpointSave))) ∧
  (∀ (s : State) (v : Word), s.hub.failed = 0 →
    ((∃ l < 12, (s.linkAt l).usable = true) → exec (.fabnoWrite v) s = .next s) ∧
    ((∀ l < 12, (s.linkAt l).usable = false) → exec (.fabnoWrite v) s = .next { s with hub := { s.hub with fnum := v.setWidth 12 } }) ∧
    exec (.mgmtRegisterWrite 0x20 v) s = exec (.fabnoWrite v) s) ∧
  (∀ (s : State) (v : Word) (a : Nat), s.hub.failed = 0 → s.hub.ctx0Ld = false → a = v.toNat % 2 ^ 52 / 4096 * 4096 →
    (headerFits s.phys a 0 = true → (s.contextAt 0).st = 0 → ∃ t, exec (.ctx0pWrite v) s = .next t ∧ t.hub.ctx0Ld = true ∧ t.hub.ctx0Err = false ∧
      t.hub.ctx0Base.toNat * 4096 = a ∧ (t.contextAt 0).st = 1 ∧ (t.contextAt 0).area = a) ∧
    (headerFits s.phys a 0 = false → ∃ t, exec (.ctx0pWrite v) s = .next t ∧ t.hub.ctx0Ld = false ∧ t.hub.ctx0Err = true ∧
      t.hub.ctx0Base.toNat * 4096 = a ∧ t.contexts = s.contexts)) ∧
  (∀ (s : State) (v : Word), s.hub.failed = 0 → s.hub.ctx0Ld = true →
    ∃ t, exec (.ctx0pWrite v) s = .next t ∧ t.hub = s.hub ∧ t.contexts = s.contexts ∧ t.phys = s.phys) ∧
  ∀ (s : State) (src off form len e x va imp : Nat) (data : List Byte), e = (SMap.get 0 s.hub.exports (off / 2 ^ 30 % 1024)).toNat →
    x = e / 2 ^ 42 % 256 → va = e / 2 ^ 16 % 2 ^ 26 * 2 ^ 30 + off % 2 ^ 30 → imp = e / 2 ^ 50 % 4096 →
    ((e.testBit 63 = false ∨ (imp ≠ 0xFFF ∧ imp ≠ src) ∨ (form ≠ 0 ∧ form ≠ 20 ∧ e.testBit 62 = false)) →
      ∃ t, exec (.peerRequest src off form data len) s = .next t ∧ t.ops = s.ops ∧ t.phys = s.phys ∧
        ∀ l, s.peerLink src off = some l → (s.linkAt l).waiting = [] → (s.linkAt l).buffer.length < 4096 →
          ∃ k, (t.linkAt l).buffer = (s.linkAt l).buffer ++ [k] ∧ flitKind k.flit = 2 ∧ k.flit.extractLsb' 32 16 = 0x187) ∧
    (e.testBit 63 = true → (imp = 0xFFF ∨ imp = src) →
      (form = 0 → len ≠ 0 → ∃ t q o, exec (.peerRequest src off form data len) s = .next t ∧ SMap.find t.ops q = some o ∧ o.kind = .rget ∧
        o.ctx = x ∧ o.vaddr = va ∧ o.len = len ∧ o.peer = some src ∧ t.dueAt s.now prioNet (.pageWalk q 0)) ∧
      (form = 20 → len ≠ 0 → ∃ t q o, exec (.peerRequest src off form data len) s = .next t ∧ SMap.find t.ops q = some o ∧ o.kind = .rget ∧
        o.m = 1 ∧ o.ctx = x ∧ o.vaddr = va ∧ o.len = len ∧ o.peer = some src ∧ t.dueAt s.now prioNet (.pageWalk q 0)) ∧
      (form = 21 → e.testBit 62 = true → ∃ t q o, exec (.peerRequest src off form data len) s = .next t ∧ SMap.find t.ops q = some o ∧
        o.kind = .pgen ∧ o.ctx = x ∧ o.vaddr = va ∧ o.peer = some src ∧ t.dueAt s.now prioNet (.pageWalk q 0)) ∧
      (form = 22 → e.testBit 62 = true → data ≠ [] → ∃ t q o, exec (.peerRequest src off form data len) s = .next t ∧
        SMap.find t.ops q = some o ∧ o.kind = .rput ∧ o.buf = data ∧ o.tag = len ∧ o.ctx = x ∧ o.vaddr = va ∧ o.peer = some src ∧
        t.dueAt s.now prioNet (.pageWalk q 0)) ∧
      (form = 1 → e.testBit 62 = true → data ≠ [] →
        ∃ t q o, exec (.peerRequest src off form data len) s = .next t ∧ SMap.find t.ops q = some o ∧ o.kind = .rput ∧ o.buf = data ∧
          o.ctx = x ∧ o.vaddr = va ∧ o.len = data.length ∧ o.peer = some src ∧ t.dueAt s.now prioNet (.pageWalk q 0)) ∧
      ((form = 2 ∨ form = 3) → e.testBit 62 = true →
        ∃ t q o, exec (.peerRequest src off form data len) s = .next t ∧ SMap.find t.ops q = some o ∧ o.kind = .wsig ∧ o.m = form - 2 ∧
          o.ctx = x ∧ o.peer = some src ∧ t.dueAt s.now prioNet (.wsigSignal q)) ∧
      (4 ≤ form → form < 20 → e.testBit 62 = true →
        ∃ t q o, exec (.peerRequest src off form data len) s = .next t ∧ SMap.find t.ops q = some o ∧ o.kind = .atom ((form - 4) % 8) ∧
          o.ctx = x ∧ o.vaddr = va ∧ o.cv.toNat = leNat (data.take 8) ∧ o.peer = some src ∧ t.dueAt s.now prioNet (.pageWalk q 0)))

/-- R380 to R382: the states of a link, and its flits. That a repeated acknowledgement asks for a replay is the model's choice (log entry 25). -/
def Obligations.LinksTrainReplayAndFail : Prop :=
  (∀ (s : State) (l : Nat), (s.linkAt l).st = 0 →
    ∃ t, exec (.linkEnable l) s = .next t ∧ (t.linkAt l).st = 1 ∧ (t.linkAt l).lanes = 0 ∧ (∀ m, m ≠ l → t.linkAt m = s.linkAt m)) ∧
  (∀ (s : State) (l : Nat), (s.linkAt l).st ≠ 0 → exec (.linkEnable l) s = .next s) ∧
  (∀ (s : State) (l : Nat), ∃ t, exec (.linkDisable l) s = .next t ∧ (t.linkAt l).st = 0 ∧ (t.linkAt l).lanes = 0 ∧ (t.linkAt l).buffer = []) ∧
  (∀ (s : State) (l good : Nat), ((s.linkAt l).st = 1 ∨ (s.linkAt l).st = 4) → 2 ≤ good → roomForNotice s →
    ∃ t k, exec (.linkTrainingDone l good) s = .next t ∧ k = t.linkAt l ∧ k.st = (if 8 ≤ good then 2 else 3) ∧
      k.lanes = (if 8 ≤ good then 8 else if 4 ≤ good then 4 else 2) ∧
      k.tx = (if s.hub.assigned then (s.linkAt l).tx.filter (fun f => flitKind f == 3) ++ (s.linkAt l).buffer.map (·.flit) else []) ∧
      k.buffer.map (·.flit) = (s.linkAt l).buffer.map (·.flit) ∧
      t.hub.privQ = s.hub.privQ ++ [noticeWord 0x2C2 0 0 (l % 16 + k.lanes % 16 * 16 + k.st * 256)]) ∧
  (∀ (s : State) (l good : Nat), ((s.linkAt l).st = 1 ∨ (s.linkAt l).st = 4 ∧ 2 ≤ (s.linkAt l).attempts) → good < 2 → roomForNotice s →
    ∃ t, exec (.linkTrainingDone l good) s = .next t ∧ (t.linkAt l).st = 5 ∧ (t.linkAt l).lanes = 0 ∧ (t.linkAt l).buffer = [] ∧
      t.hub.privQ = s.hub.privQ ++ [noticeWord 0x2C2 0 0 (l % 16 + 5 * 256)]) ∧
  (∀ (s : State) (l good : Nat), (s.linkAt l).st = 4 → (s.linkAt l).attempts < 2 → good < 2 →
    ∃ t, exec (.linkTrainingDone l good) s = .next t ∧ t.linkAt l = { s.linkAt l with attempts := (s.linkAt l).attempts + 1 } ∧ t.hub = s.hub) ∧
  (∀ (s : State) (l lost : Nat), (s.linkAt l).usable = true →
    ∃ t, exec (.linkRetrainTrigger l lost) s = .next t ∧ (t.linkAt l).st = 4 ∧ (t.linkAt l).lanes = 0 ∧
      (t.linkAt l).buffer.map (·.flit) = (s.linkAt l).buffer.map (·.flit)) ∧
  (∀ (s : State) (l : Nat) (f : BitVec 256), (s.linkAt l).usable = false → exec (.flitReceive l f) s = .next s) ∧
  (∀ (s : State) (l : Nat) (f : BitVec 256), (s.linkAt l).usable = true → f.extractLsb' 0 32 ≠ flitCrc f →
    ∃ t, exec (.flitReceive l f) s = .next t ∧ (t.linkAt l).replays = (s.linkAt l).replays + 1 ∧ (t.linkAt l).rx = (s.linkAt l).rx ∧
      (t.linkAt l).buffer.map (·.flit) = (s.linkAt l).buffer.map (·.flit) ∧ (t.linkAt l).seqRx = (s.linkAt l).seqRx ∧
      (s.hub.assigned = false → (t.linkAt l).tx = (s.linkAt l).tx) ∧
      (s.hub.assigned = true → ∃ a, (t.linkAt l).tx = (s.linkAt l).tx ++ [a] ∧ flitKind a = 3 ∧
        flitSeq a = ((s.linkAt l).seqRx + 4095) % 4096) ∧
      (15 ≤ (s.linkAt l).window.length → (s.linkAt l).flits + 1 < (s.linkAt l).window.getD 14 0 + 65536 → (t.linkAt l).st = 4)) ∧
  (∀ (s : State) (l : Nat) (f : BitVec 256) (g : Kept) (pre post : List Kept), (s.linkAt l).usable = true → f.extractLsb' 0 32 = flitCrc f →
    flitKind f = 3 → (s.linkAt l).buffer = pre ++ g :: post → flitSeq g.flit = flitSeq f → (∀ x ∈ pre, flitSeq x.flit ≠ flitSeq f) →
    ∃ t, exec (.flitReceive l f) s = .next t ∧ (t.linkAt l).buffer.take post.length = post ∧ (t.linkAt l).rx = (s.linkAt l).rx ∧
      ((s.linkAt l).waiting = [] → (t.linkAt l).buffer = post)) ∧
  (∀ (s : State) (l : Nat) (f : BitVec 256), (s.linkAt l).usable = true → f.extractLsb' 0 32 = flitCrc f → flitKind f = 3 →
    (s.linkAt l).buffer ≠ [] → (∀ x ∈ (s.linkAt l).buffer, flitSeq x.flit ≠ flitSeq f) →
    ∃ t, exec (.flitReceive l f) s = .next t ∧ (t.linkAt l).replays = (s.linkAt l).replays + 1 ∧
      (t.linkAt l).tx = (s.linkAt l).tx.filter (fun f => flitKind f == 3) ++ (s.linkAt l).buffer.map (·.flit)) ∧
  (∀ (s : State) (l : Nat) (f : BitVec 256), (s.linkAt l).usable = true → f.extractLsb' 0 32 = flitCrc f → (flitKind f = 1 ∨ flitKind f = 2) →
    (flitSeq f = (s.linkAt l).seqRx → ∃ t, exec (.flitReceive l f) s = .next t ∧ (t.linkAt l).rx = (s.linkAt l).rx ++ [f] ∧
      (t.linkAt l).seqRx = ((s.linkAt l).seqRx + 1) % 4096 ∧ (s.hub.assigned = false → (t.linkAt l).tx = (s.linkAt l).tx) ∧
      (s.hub.assigned = true → ∃ a, (t.linkAt l).tx = (s.linkAt l).tx ++ [a] ∧ flitKind a = 3 ∧ flitSeq a = flitSeq f ∧
        a.extractLsb' 0 32 = flitCrc a)) ∧
    (flitSeq f ≠ (s.linkAt l).seqRx → ∃ t, exec (.flitReceive l f) s = .next t ∧ (t.linkAt l).rx = (s.linkAt l).rx ∧
      (t.linkAt l).seqRx = (s.linkAt l).seqRx ∧ (t.linkAt l).tx = (s.linkAt l).tx)) ∧
  (∀ (s : State) (l : Nat) (joins : Bool),
    (((s.linkAt l).usable = true ∨ (s.linkAt l).st = 4) → ∃ t, exec (.linkSetChange l joins) s = .next t ∧
      (∀ m, (t.linkAt m).buffer.map (·.flit) = (s.linkAt m).buffer.map (·.flit) ∧ (t.linkAt m).st = (s.linkAt m).st) ∧ t.cores = s.cores ∧
      ∀ p ∈ s.hub.peersOn l, (∃ m < 12, ∃ k ∈ (s.linkAt m).buffer, k.dst = p) → p ∈ t.hub.linkHold) ∧
    ((s.linkAt l).usable = false → (s.linkAt l).st ≠ 4 → ∃ t, exec (.linkSetChange l joins) s = .next t ∧ (t.linkAt l).buffer = [] ∧
      (t.linkAt l).st = (s.linkAt l).st ∧ t.cores = s.cores)) ∧
  (∀ (s : State) (l kind dst gran : Nat) (pay : BitVec 184), kind < 16 → dst < 4096 → (s.linkAt l).seqTx < 4096 →
    ((s.linkAt l).waiting = [] → (s.linkAt l).buffer.length < 4096 →
      ∃ f, ((s.sendFlit l kind dst gran pay).linkAt l).buffer = (s.linkAt l).buffer ++ [{ flit := f, granule := gran }] ∧
        ((s.sendFlit l kind dst gran pay).linkAt l).tx = (s.linkAt l).tx ++ [f] ∧ flitKind f = kind ∧ flitSeq f = (s.linkAt l).seqTx ∧
        f.extractLsb' 228 12 = BitVec.ofNat 12 dst ∧ f.extractLsb' 216 12 = s.hub.fnum ∧ f.extractLsb' 32 184 = pay ∧
        f.extractLsb' 0 32 = flitCrc f) ∧
    (4096 ≤ (s.linkAt l).buffer.length → ((s.sendFlit l kind dst gran pay).linkAt l).buffer = (s.linkAt l).buffer ∧
      ((s.sendFlit l kind dst gran pay).linkAt l).tx = (s.linkAt l).tx ∧
      ((s.sendFlit l kind dst gran pay).linkAt l).waiting = (s.linkAt l).waiting ++ [(kind, dst, gran, pay)])) ∧
  (∀ (s : State) (peer pa l : Nat), s.peerLink peer pa = some l → l ∈ s.peerLinks peer ∧ (s.linkAt l).usable = true ∧
    (SMap.get 0 s.hub.linkSets peer).getLsbD l = true ∧ s.peerLink peer (pa / 64 * 64) = some l) ∧
  ∀ (s : State) (peer pa : Nat), (s.hub.fnum = 0 ∨ s.hub.fnum = 1 ∨ s.hub.fnum = 0xFFF) → s.peerLink peer pa = none

/-! A core's results and writes from cycle to cycle. -/

/-- R25, R64, R71, R72, R88, R136, R391 to R395, R399, R402: a bank serves a load or a store, or makes it wait; results land; writes commit. That
an error of the part comes as a mismatch with lane 8 + d is the model's choice (log entry 58). -/
def Obligations.ResultsLandAndWritesCommit : Prop :=
  (∀ (s : State) (p : Place) (x : Acc) (f : Flight) (m : Sample), (s.threadOf (.core x.core (threadNo x.who))).flight = [f] → f.seq = x.key →
    f.sample = some m → (x.undo = none ∨ isLocal x.addr = false ∨ tagMismatch (s.coreAt x.core) (x.addr / 256) s.now = none) → noDetector s x.core →
    ((s.serveScalar p x).threadOf (.core x.core (threadNo x.who))).flight =
      [{ f with value := sampleValue m (s.view x.core (requester (threadNo x.who)) s.now m.addr m.width), sample := none, late := none,
                land := s.now + loadLatency m.addr + f.shift }] ∧
    (s.serveScalar p x).dueAt (s.now + loadLatency m.addr + f.shift) prioLanding (.resultLanding (.core x.core (threadNo x.who))) ∧
    (s.serveScalar p x).accOf p = (s.accOf p).filter (· != x) ∧ ∀ q, (s.serveScalar p x).memOf q = s.memOf q) ∧
  (∀ (s : State) (p : Place) (x : Acc) (w : PendWrite), (∀ f ∈ (s.threadOf (.core x.core (threadNo x.who))).flight, f.seq ≠ x.key) →
    (s.pendOf p).find? (fun w => w.id == x.key) = some w →
    (s.serveScalar p x).pendOf p = (s.pendOf p).map (fun w => if w.id = x.key then { w with endC := s.now, commitC := s.now + 3 } else w) ∧
    (s.serveScalar p x).dueAt (s.now + 3) (prioCommit + w.who) (.counterproofCommit p x.key) ∧ ∀ q, (s.serveScalar p x).memOf q = s.memOf q) ∧
  (∀ (s : State) (p : Place) (x : Acc) (f : Flight), (s.threadOf (.core x.core (threadNo x.who))).flight = [f] → f.seq = x.key →
    (∀ w ∈ s.pendOf p, w.id ≠ x.key) →
    ((s.delayScalar p x).threadOf (.core x.core (threadNo x.who))).flight =
      [{ f with land := f.land + 1, sample := f.sample.map fun m => { m with cyc := m.cyc + 1 } }] ∧ (s.delayScalar p x).accOf p = s.accOf p) ∧
  (∀ (s : State) (p : Place) (x : Acc), (s.accOf p).filter (fun y => y.scalar && decide (y.arrive ≤ s.now)) = [x] →
    s.servePlace p = if x.first = true ∨ bankGrants s p x = true then s.serveScalar p x else s.delayScalar p x) ∧
  (∀ (s : State) (c k g : Nat) (f : Flight), (s.coreAt c).grp = some g → (s.groupAt g).st = .running → ((s.coreAt c).thread k).stat = .run →
    ((s.coreAt c).thread k).flight = [f] → f.known = true → f.sample = none → f.land ≤ s.now → f.lat = 0 → f.late = none →
    ∃ t th, exec (.resultLanding (.core c k)) s = .next t ∧ th = (t.coreAt c).thread k ∧ th.flight = [] ∧
      th.q = (if f.push then (f.value :: ((s.coreAt c).thread k).q).take 16 else ((s.coreAt c).thread k).q) ∧
      (∀ r, th.readN r = if f.dest = .n r then f.value else ((s.coreAt c).thread k).readN r) ∧
      (∀ r, th.readA r = if f.dest = .a r then Ptr.ofImage f.value else ((s.coreAt c).thread k).readA r) ∧
      (∀ r, 0 < r → r < 8 → th.readP r = if f.dest = .p r then f.value != 0 else ((s.coreAt c).thread k).readP r) ∧ th.readP 0 = true ∧
      th.pc = ((s.coreAt c).thread k).pc ∧ ∀ p a, memByte (t.memOf p) a = memByte (s.memOf p) a) ∧
  (∀ (s : State) (c k g : Nat) (f : Flight), (s.coreAt c).grp = some g → (s.groupAt g).st = .running → ((s.coreAt c).thread k).stat = .run →
    ((s.coreAt c).thread k).flight = [f] → f.known = true → f.sample = none → f.land ≤ s.now → f.lat ≠ 0 → k ≠ 12 →
    (∀ x ∈ (s.coreAt c).replays, x.thr = k → x.product = true) → SMap.get 0 (s.coreAt c).inj 4 = 0 → SMap.get 0 (s.coreAt c).real 4 = 0 →
    SMap.get 0 (s.coreAt c).real 0 = 0 → SMap.get 0 (s.coreAt c).inj 0 ≠ 0 →
    ∃ t, exec (.resultLanding (.core c k)) s = .next t ∧ (t.coreAt c).thread k = (s.coreAt c).thread k ∧
      SMap.get 0 (t.coreAt c).inj 0 = SMap.get 0 (s.coreAt c).inj 0 - 1 ∧
      (t.coreAt c).replays = (s.coreAt c).replays ++
        [{ thr := k, id := f.seq, word := f.word, slot := f.slot, timed := (s.segOf (.core c k) f.word).isSome, injected := true }] ∧
      t.dueAt s.now prioLanding (.counterproofMismatch c k f.word 0)) ∧
  (∀ (s : State) (ag : Agent), ((s.threadOf ag).stat = .trapped ∨ (s.threadOf ag).stat = .stopped) → exec (.resultLanding ag) s = .next s) ∧
  (∀ (s : State) (c k word lane d : Nat), 8 ≤ lane → d = lane - 8 → ∃ t, exec (.counterproofMismatch c k word lane) s = .next t ∧
    t.coreAt c = { s.coreAt c with real := SMap.set 0 (s.coreAt c).real d (SMap.get 0 (s.coreAt c).real d + 1) }) ∧
  (∀ (s : State) (c k word lane : Nat) (f : Flight), lane < 8 → s.segOf (.core c k) word = none → ((s.coreAt c).thread k).flight = [f] →
    f.word = word → f.land ≤ s.now → (∃ x ∈ (s.coreAt c).replays, x.thr = k ∧ x.id = f.seq ∧ x.word = word ∧ x.product = false) →
    (∀ w ∈ s.pendOf (.core c), w.word ≠ word) → (∀ w ∈ s.pendOf (.cluster (clusterOf c)), w.word ≠ word) →
    ∃ t, exec (.counterproofMismatch c k word lane) s = .next t ∧ ((t.coreAt c).thread k).flight = [{ f with land := s.now + 1 + f.lat }] ∧
      t.dueAt (s.now + 1 + f.lat) prioLanding (.resultLanding (.core c k)) ∧ ((t.coreAt c).thread k).pc = ((s.coreAt c).thread k).pc ∧
      registersKept ((s.coreAt c).thread k) ((t.coreAt c).thread k)) ∧
  (∀ (s : State) (c word lane : Nat), lane < 8 → (s.segOf (.core c 0) word).isSome = true → ((s.coreAt c).thread 0).stat = .run →
    ((s.coreAt c).thread 0).restarts < 2 →
    ∃ t tr, exec (.counterproofMismatch c 0 word lane) s = .next t ∧ ((t.coreAt c).thread 0).stat = .trapped ∧
      ((t.coreAt c).thread 0).trap = some tr ∧ tr.cause = 0x04F ∧ tr.timed = true ∧
      (∀ m, (m = if (∃ x ∈ (s.coreAt c).replays, x.thr = 0 ∧ x.word = word ∧ x.product = false ∧ x.injected = true) then injMark else 0) →
        tr.record = [BitVec.ofNat 64 (word + m), BitVec.ofNat 64 lane])) ∧
  (∀ (s : State) (p : Place) (id : Nat) (w : PendWrite) (pre post : List PendWrite), s.pendOf p = pre ++ w :: post → (∀ x ∈ pre, x.id ≠ id) →
    (∀ x ∈ post, x.id ≠ id) → w.id = id → w.commitC ≤ s.now → w.after = [] → w.scalar = false → w.lane = none → (s.groupAt (s.groupOfCore w.core)).proof = none →
    ∃ t, exec (.counterproofCommit p id) s = .next t ∧ t.memOf p = memWrite (s.memOf p) w.addr w.data ∧
      (t.pendOf p).map (·.id) = (pre ++ post).map (·.id) ∧ ∀ q, q ≠ p → t.memOf q = s.memOf q ∧ t.pendOf q = s.pendOf q) ∧
  (∀ (s : State) (p : Place) (id : Nat) (w : PendWrite), (s.pendOf p).find? (fun x => x.id == id) = some w → (s.now < w.commitC ∨ w.after ≠ []) →
    exec (.counterproofCommit p id) s = .next s) ∧
  ∀ (s : State) (c : Nat), ∃ t, exec (.budgetRefill c) s = .next t ∧ t.coreAt c = { s.coreAt c with budg := (s.coreAt c).allow, spent := [] } ∧
    ∀ d, d ≠ c → t.coreAt d = s.coreAt d

/-! The hub. -/

/-- R388 to R390, R397, R401, R424, R425. The addresses of the image's stripes and the sensors' part are the model's choice (log entries 65 and
66). -/
def Obligations.HubKeepsKeysCheckpointsPowerAndDies : Prop :=
  (∀ (s : State), s.hub.failed = 0 → s.hub.ckGo = false →
    (checkpointAllowed s = true →
      (∃ t d, exec .checkpointSave s = .next t ∧ t.hub.ckGo = true ∧ t.hub.ckDir = false ∧ t.hub.ckDone = 0 ∧ s.now < d ∧
        t.dueAt d prioNet (.checkpointComplete true)) ∧
      ∃ t d, exec .checkpointRestore s = .next t ∧ t.hub.ckGo = true ∧ t.hub.ckDir = true ∧ s.now < d ∧
        t.dueAt d prioNet (.checkpointComplete true)) ∧
    (checkpointAllowed s = false → exec .checkpointSave s = .next { s with hub := { s.hub with ckRef := true } } ∧
      exec .checkpointRestore s = .next { s with hub := { s.hub with ckRef := true } })) ∧
  (∀ (s : State) (f i b : Nat), s.hub.ckGo = true → s.hub.ckDir = false → imagePlace f = some i → i < stackedFrames + farFrames → b < 65536 →
    (∀ g, imagePlace g = some i → g = f) → Memory.wf s.phys →
    ∃ t, exec (.checkpointComplete true) s = .next t ∧ t.hub.ckGo = false ∧ t.hub.ckDone = BitVec.ofNat 32 (stackedFrames + farFrames) ∧
      t.hub.ckErr = s.hub.ckErr ∧ t.phys = s.phys ∧
      memByte t.host (imageAddr s.hub.ckBase.toNat (i * 65536 + b)) = memByte s.stored (f * 65536 + b)) ∧
  (∀ (s : State), s.hub.ckGo = true → ∃ t, exec (.checkpointComplete false) s = .next t ∧ t.hub.ckGo = false ∧ t.hub.ckErr = true) ∧
  (∀ (s : State) (id : Nat), id < 4096 →
    (∃ t k, exec (.keyGenerate id) s = .next t ∧ SMap.find t.hub.keys id = some k ∧ t.hub.keyGens = s.hub.keyGens + 1 ∧
      t.hub.mailbox = s.hub.mailbox ∧ ∀ j, j ≠ id → SMap.find t.hub.keys j = SMap.find s.hub.keys j) ∧
    ∃ t, exec (.keyErase id) s = .next t ∧ SMap.find t.hub.keys id = none ∧ t.hub.mailbox = s.hub.mailbox ∧
      ∀ j, j ≠ id → SMap.find t.hub.keys j = SMap.find s.hub.keys j) ∧
  (∀ (s : State), ∃ t, exec .identityKeyRead s = .next t ∧ t.hub.mailbox = Config.identityKey :: s.hub.mailbox ∧ t.hub.keys = s.hub.keys) ∧
  (∀ (s : State) (nonce : BitVec 256), ∃ t r, exec (.attestationReport nonce) s = .next t ∧ t.hub.reports = r :: s.hub.reports ∧
    r.headD 0 = nonce.toNat ∧ r.getD 1 0 = Config.serial.toNat ∧ r.getLastD 0 = s.hub.keys.length ∧ r.length = 2183 ∧
    t.hub.mailbox = Config.attestSignature r :: s.hub.mailbox) ∧
  (∀ (s : State), stepFrom s.hub ≤ s.now →
    (∃ t, exec .clockStepDown s = .next t ∧ t.hub.clk = min 2 (s.hub.clk + 1) ∧ t.cores = s.cores ∧
      t.hub.conditionAt = s.now ∧ (s.hub.clk < 2 → t.hub.stepped = some s.now)) ∧
    (∃ t, exec .thermalStep s = .next t ∧ t.hub.clk = 2 ∧ t.hub.conditionAt = s.now ∧ t.cores = s.cores) ∧
    (stackCrowded s = true → s.hub.clk < 2 → s.stepClock.hub.clk = s.hub.clk + 1 ∧ s.stepClock.hub.stepped = some s.now) ∧
    (stackCrowded s = false → 0 < s.hub.clk → s.hub.conditionAt + 2 ^ 30 ≤ s.now → s.stepClock.hub.clk = s.hub.clk - 1) ∧
    (s.hub.conditionAt + 2 ^ 30 ≤ s.now → stackCrowded s = false →
      ∃ t, exec .clockStepUp s = .next t ∧ t.hub.clk = s.hub.clk - 1 ∧ t.cores = s.cores)) ∧
  (∀ (s : State), s.now < stepFrom s.hub →
    (∃ t, exec .clockStepDown s = .next t ∧ t.hub.clk = s.hub.clk ∧ t.hub.conditionAt = s.now ∧ t.cores = s.cores) ∧
    (∃ t, exec .thermalStep s = .next t ∧ t.hub.clk = s.hub.clk ∧ t.hub.conditionAt = s.now ∧ t.cores = s.cores) ∧
    exec .clockStepUp s = .next s) ∧
  (∀ (s : State) (p m : Nat), ∃ t, exec (.pwrRefresh p m) s = .next t ∧ t.hub.pkgw = BitVec.ofNat 16 p ∧ t.hub.tmax = BitVec.ofNat 8 m ∧
    t.hub.clkShown = s.hub.clk ∧ t.cores = s.cores) ∧
  (∀ (s : State) (h : Nat), s.binOf h = 3 → s.passed.contains h = false → roomForNotice s →
    ∃ t, exec (.binDRetest h true) s = .next t ∧ t.passed = s.passed ++ [h] ∧ t.binOf h = 3 ∧
      t.hub.privQ = s.hub.privQ ++ [noticeWord 0x2C4 0 0 (slabWord (h / 2) (h % 2))]) ∧
  (∀ (s : State) (h : Nat), s.binOf h = 3 → s.passed.contains h = false →
    ∃ t again, exec (.binDRetest h false) s = .next t ∧ t.bins = s.bins ∧ t.passed = s.passed ∧
      t.dueAt (s.now + 2 ^ 32) prioNet (.binDRetest h again)) ∧
  (∀ (s : State) (h : Nat) (pass : Bool), s.binOf h ≠ 3 → exec (.binDRetest h pass) s = .next s) ∧
  (∀ (s : State) (d : Nat), d < 4 → roomForNotice s →
    ∃ t, exec (.dieReset d) s = .next t ∧ t.hub.privQ = s.hub.privQ ++ [noticeWord 0x2C3 0 0 d] ∧
      (∀ g, (s.groupAt g).st.holds = true → (∃ c ∈ (s.groupAt g).members, feStack c = d) → (t.groupAt g).st = .killed) ∧
      ((∀ g ∈ s.groups, g.2.st.holds = true → ∀ c ∈ g.2.members, feStack c ≠ d) → (∀ x ∈ s.ops, x.2.thread = none) →
        ∀ o e, SMap.find s.ops o = some e → s.homedOn d e = true → (t.opAt o).cause = some 0x284)) ∧
  ∀ (s : State) (d : Nat), 4 ≤ d → exec (.dieReset d) s = exec (.deviceReset 0) s

/-- R2, R15, R63, R112, R376, R380, R386 to R388, R423, R425: what reset leaves. That DRAM and host memory keep their bytes, and how the mailbox
is laid out, is the model's choice (log entries 38 and 67). -/
def Obligations.ResetLeavesWhatTheRulesState : Prop :=
  (State.reset.now = 0 ∧ State.reset.groups = [] ∧ (∀ x, 1 ≤ x → x ≤ 255 → (State.reset.contextAt x).st = 0) ∧
    (∀ d k, (State.reset.dieAt d).vc.getD k 0 = 0 ∧ (State.reset.dieAt d).know.getD k 0 = 0) ∧ (∀ l, (State.reset.linkAt l).st = 0) ∧
    (∀ c b, ((State.reset.coreAt c).bank b).pers = 0) ∧ (∀ x y st, st < 4 → x < 16 → y < 17 → (State.reset.parked (feKey st x y) = (y == 16))) ∧
    State.reset.hub.fnum = 0xFFF ∧ State.reset.hub.hsts = 0 ∧ State.reset.hub.ckpt = 0 ∧ State.reset.hub.pwr = 0 ∧ State.reset.hub.ctx0p = 0 ∧
    Memory.wf State.reset.phys ∧ Memory.wf State.reset.host) ∧
  (∀ (s : State), ∃ t, exec (.deviceReset 0) s = .next t ∧ t.now = 0 ∧ t.groups = [] ∧ t.cores = [] ∧ t.contexts = [] ∧ t.links = [] ∧
    t.dies = [] ∧ t.phys = s.phys ∧ t.host = s.host ∧
    (t.hub = State.reset.hub ∨ t.hub = { State.reset.hub with failed := 4, mailbox := [BitVec.ofNat 512 4] })) ∧
  (∀ (s : State) (n image : Nat), n % 8 = 1 → image = n / 8 % 4 + 1 →
    ∃ t, exec (.deviceReset n) s = .next t ∧ t.hub.failed = 1 ∧ t.hub.mailbox = [BitVec.ofNat 512 (1 + 256 * image)]) ∧
  (∀ (s : State) (n : Nat), n % 8 = 2 → ∃ t, exec (.deviceReset n) s = .next t ∧ t.hub.failed = 2 ∧ t.hub.mailbox = [2]) ∧
  ∀ (s : State), slotsOffered s → s.todo = [] → s.closed = true → s.hub.failed ≠ 0 → step s = .fault (.heldInReset s.hub.failed)
end

