-- ==== Sys2Proof/Laws/Store.lean ====
section
/-! SUPPORT. The laws of the sparse stores: a read after a write, and the canonical form that every operation keeps. -/

namespace Sys2Proof

theorem SMap.find_put_same {α : Type} (m : SMap α) (k : Nat) (v : α) : SMap.find (SMap.put m k v) k = some v := by
  induction m with
  | nil => simp [SMap.put, SMap.find]
  | cons e rest ih =>
    obtain ⟨j, u⟩ := e
    simp only [SMap.put]
    split
    · simp [SMap.find]
    · split
      · simp [SMap.find]
      · next h => simp [SMap.find, h, ih]

theorem SMap.find_put_other {α : Type} (m : SMap α) (k i : Nat) (v : α) (h : i ≠ k) :
    SMap.find (SMap.put m k v) i = SMap.find m i := by
  induction m with
  | nil => simp [SMap.put, SMap.find, Ne.symm h]
  | cons e rest ih =>
    obtain ⟨j, u⟩ := e
    simp only [SMap.put]
    split
    · simp [SMap.find, Ne.symm h]
    · split
      · next hj => subst hj; simp [SMap.find, Ne.symm h]
      · simp only [SMap.find, ih]

@[simp] theorem SMap.get_put_same {α : Type} (d : α) (m : SMap α) (k : Nat) (v : α) : SMap.get d (SMap.put m k v) k = v := by
  simp [SMap.get, SMap.find_put_same]

theorem SMap.get_put_other {α : Type} (d : α) (m : SMap α) (k i : Nat) (v : α) (h : i ≠ k) :
    SMap.get d (SMap.put m k v) i = SMap.get d m i := by
  simp [SMap.get, SMap.find_put_other m k i v h]

theorem SMap.get_put {α : Type} (d : α) (m : SMap α) (k i : Nat) (v : α) :
    SMap.get d (SMap.put m k v) i = if i = k then v else SMap.get d m i := by
  split
  · next h => subst h; simp
  · next h => exact SMap.get_put_other d m k i v h

@[simp] theorem SMap.get_nil {α : Type} (d : α) (k : Nat) : SMap.get d [] k = d := rfl

theorem SMap.find_erase_other {α : Type} (m : SMap α) (k i : Nat) (h : i ≠ k) : SMap.find (SMap.erase m k) i = SMap.find m i := by
  induction m with
  | nil => rfl
  | cons e rest ih =>
    obtain ⟨j, u⟩ := e
    simp only [SMap.erase]
    split
    · next hj => subst hj; simp [SMap.find, Ne.symm h, ih]
    · simp only [SMap.find, ih]

/-! The canonical form. -/

/-- The lower bound of a canonical tail may be lowered. -/
theorem SMap.okFrom_weaken {α : Type} [DecidableEq α] {d : α} {m : SMap α} {lo : Nat} (h : SMap.okFrom d (some lo) m = true)
    (b : Option Nat) (hb : ∀ x, b = some x → x ≤ lo) : SMap.okFrom d b m = true := by
  cases m with
  | nil => rfl
  | cons e rest =>
    obtain ⟨j, u⟩ := e
    simp only [SMap.okFrom, Bool.and_eq_true, decide_eq_true_eq] at h ⊢
    refine ⟨⟨?_, h.1.2⟩, h.2⟩
    cases b with
    | none => rfl
    | some x => simpa using Nat.lt_of_le_of_lt (hb x rfl) h.1.1

theorem SMap.okFrom_ok {α : Type} [DecidableEq α] {d : α} {m : SMap α} {lo : Nat} (h : SMap.okFrom d (some lo) m = true) : SMap.ok d m = true :=
  SMap.okFrom_weaken h none (by simp)

/-- A key at or below the bound is not listed. -/
theorem SMap.find_below {α : Type} [DecidableEq α] {d : α} {m : SMap α} {lo k : Nat} (h : SMap.okFrom d (some lo) m = true) (hk : k ≤ lo) :
    SMap.find m k = none := by
  induction m generalizing lo with
  | nil => rfl
  | cons e rest ih =>
    obtain ⟨j, u⟩ := e
    simp only [SMap.okFrom, Bool.and_eq_true, decide_eq_true_eq] at h
    have hj : j ≠ k := by omega
    simp only [SMap.find, hj, if_false]
    exact ih h.2 (by omega)

theorem SMap.find_erase_same {α : Type} (m : SMap α) (k : Nat) : SMap.find (SMap.erase m k) k = none := by
  induction m with
  | nil => rfl
  | cons e rest ih =>
    obtain ⟨j, u⟩ := e
    simp only [SMap.erase]
    split
    · exact ih
    · next hj => simp only [SMap.find, hj, if_false]; exact ih

theorem SMap.okFrom_put {α : Type} [DecidableEq α] {d : α} {m : SMap α} {b : Option Nat} (k : Nat) (v : α) (h : SMap.okFrom d b m = true)
    (hv : v ≠ d) (hb : ∀ x, b = some x → x < k) : SMap.okFrom d b (SMap.put m k v) = true := by
  induction m generalizing b with
  | nil =>
    simp only [SMap.put, SMap.okFrom, Bool.and_eq_true, decide_eq_true_eq]
    refine ⟨⟨?_, hv⟩, trivial⟩
    cases b with
    | none => rfl
    | some x => simpa using hb x rfl
  | cons e rest ih =>
    obtain ⟨j, u⟩ := e
    simp only [SMap.okFrom, Bool.and_eq_true, decide_eq_true_eq] at h
    simp only [SMap.put]
    split
    · next hk =>
      simp only [SMap.okFrom, Bool.and_eq_true, decide_eq_true_eq]
      refine ⟨⟨?_, hv⟩, ⟨hk, h.1.2⟩, h.2⟩
      cases b with
      | none => rfl
      | some x => simpa using hb x rfl
    · split
      · next hj =>
        subst hj
        simp only [SMap.okFrom, Bool.and_eq_true, decide_eq_true_eq]
        exact ⟨⟨h.1.1, hv⟩, h.2⟩
      · next hk hj =>
        simp only [SMap.okFrom, Bool.and_eq_true, decide_eq_true_eq]
        refine ⟨h.1, ih h.2 ?_⟩
        intro x hx
        cases hx
        omega

theorem SMap.okFrom_erase {α : Type} [DecidableEq α] {d : α} {m : SMap α} {b : Option Nat} (k : Nat) (h : SMap.okFrom d b m = true) :
    SMap.okFrom d b (SMap.erase m k) = true := by
  induction m generalizing b with
  | nil => exact h
  | cons e rest ih =>
    obtain ⟨j, u⟩ := e
    simp only [SMap.okFrom, Bool.and_eq_true, decide_eq_true_eq] at h
    simp only [SMap.erase]
    split
    · refine SMap.okFrom_weaken (ih h.2) b ?_
      intro x hx
      subst hx
      have h1 : x < j := by simpa using h.1.1
      omega
    · simp only [SMap.okFrom, Bool.and_eq_true, decide_eq_true_eq]
      exact ⟨h.1, ih h.2⟩

theorem SMap.okFrom_filter {α : Type} [DecidableEq α] {d : α} {m : SMap α} {b : Option Nat} (p : Nat × α → Bool) (h : SMap.okFrom d b m = true) :
    SMap.okFrom d b (m.filter p) = true := by
  induction m generalizing b with
  | nil => exact h
  | cons e rest ih =>
    obtain ⟨j, u⟩ := e
    simp only [SMap.okFrom, Bool.and_eq_true, decide_eq_true_eq] at h
    simp only [List.filter]
    split
    · simp only [SMap.okFrom, Bool.and_eq_true, decide_eq_true_eq]
      exact ⟨h.1, ih h.2⟩
    · refine SMap.okFrom_weaken (ih h.2) b ?_
      intro x hx
      subst hx
      have h1 : x < j := by simpa using h.1.1
      omega

theorem SMap.ok_set {α : Type} [DecidableEq α] {d : α} {m : SMap α} (k : Nat) (v : α) (h : SMap.ok d m = true) : SMap.ok d (SMap.set d m k v) = true := by
  simp only [SMap.set]
  split
  · exact SMap.okFrom_erase k h
  · next hv => exact SMap.okFrom_put k v h hv (by simp)

theorem SMap.get_set_same {α : Type} [DecidableEq α] (d : α) (m : SMap α) (k : Nat) (v : α) :
    SMap.get d (SMap.set d m k v) k = v := by
  simp only [SMap.set]
  split
  · next hv => simp [SMap.get, SMap.find_erase_same m k, hv]
  · simp

theorem SMap.get_set_other {α : Type} [DecidableEq α] (d : α) (m : SMap α) (k i : Nat) (v : α) (h : i ≠ k) :
    SMap.get d (SMap.set d m k v) i = SMap.get d m i := by
  simp only [SMap.set]
  split
  · simp [SMap.get, SMap.find_erase_other m k i h]
  · exact SMap.get_put_other d m k i v h

/-! Bytes. -/

namespace Machine

theorem memSet_wf {m : Memory} (a : Nat) (b : Byte) (h : m.wf) : (memSet m a b).wf := SMap.ok_set a b h

theorem memByte_memSet_same (m : Memory) (a : Nat) (b : Byte) : memByte (memSet m a b) a = b := SMap.get_set_same unwritten m a b

theorem memByte_memSet_other (m : Memory) (a i : Nat) (b : Byte) (h : i ≠ a) : memByte (memSet m a b) i = memByte m i :=
  SMap.get_set_other unwritten m a i b h

theorem memWrite_wf {m : Memory} (a : Nat) (bs : List Byte) (h : m.wf) : (memWrite m a bs).wf := by
  induction bs generalizing m a with
  | nil => exact h
  | cons b rest ih => exact ih (a + 1) (memSet_wf a b h)

/-- A write leaves every byte outside it alone. -/
theorem memByte_memWrite_other (m : Memory) (a i : Nat) (bs : List Byte) (h : i < a ∨ a + bs.length ≤ i) :
    memByte (memWrite m a bs) i = memByte m i := by
  induction bs generalizing m a with
  | nil => rfl
  | cons b rest ih =>
    simp only [List.length_cons] at h
    simp only [memWrite]
    rw [ih _ (a + 1) (by omega)]
    exact memByte_memSet_other m a i b (by omega)

/-- A read after a write gives what was written. -/
theorem memByte_memWrite_same (m : Memory) (a k : Nat) (bs : List Byte) (h : k < bs.length) :
    memByte (memWrite m a bs) (a + k) = bs.getD k 0 := by
  induction bs generalizing m a k with
  | nil => simp at h
  | cons b rest ih =>
    simp only [memWrite]
    cases k with
    | zero =>
      show memByte (memWrite (memSet m a b) (a + 1) rest) a = _
      rw [memByte_memWrite_other _ (a + 1) a rest (by omega)]
      simpa using memByte_memSet_same m a b
    | succ k =>
      have hk : a + (k + 1) = (a + 1) + k := by omega
      rw [hk, ih _ (a + 1) k (by simpa using h)]
      simp

theorem memRead_memWrite (m : Memory) (a : Nat) (bs : List Byte) : memRead (memWrite m a bs) a bs.length = bs := by
  apply List.ext_getElem
  · simp [memRead]
  · intro k h1 h2
    simp only [memRead, List.getElem_map, List.getElem_range]
    rw [memByte_memWrite_same m a k bs h2]
    simp [List.getD_eq_getElem?_getD, h2]

theorem memFilter_wf {m : Memory} (p : Nat × Byte → Bool) (h : m.wf) : (Memory.wf (m.filter p)) := SMap.okFrom_filter p h

/-- Bytes that are set one by one keep the form. -/
theorem memFold_wf {β : Type} (f : Memory → β → Memory) (l : List β) (hf : ∀ m x, Memory.wf m → Memory.wf (f m x)) {m : Memory} (h : m.wf) :
    Memory.wf (l.foldl f m) := by
  induction l generalizing m with
  | nil => exact h
  | cons x rest ih => exact ih (hf m x h)

theorem memNil_wf : Memory.wf [] := rfl

end Machine

end Sys2Proof
end

