-- ==== Sys2Proof/Laws/State.lean ====
section
/-! SUPPORT. One lemma for each field under each update of the state, of a core and of a thread, and what an accessor reads after
an update. -/

namespace Sys2Proof.Machine

/-! Updates of one table of the state. -/

@[simp] theorem State.setCore_now (s : State) (c : Nat) (v : Core) : (s.setCore c v).now = s.now := rfl
@[simp] theorem State.setCore_agenda (s : State) (c : Nat) (v : Core) : (s.setCore c v).agenda = s.agenda := rfl
@[simp] theorem State.setCore_todo (s : State) (c : Nat) (v : Core) : (s.setCore c v).todo = s.todo := rfl
@[simp] theorem State.setCore_read (s : State) (c : Nat) (v : Core) : (s.setCore c v).read = s.read := rfl
@[simp] theorem State.setCore_opened (s : State) (c : Nat) (v : Core) : (s.setCore c v).opened = s.opened := rfl
@[simp] theorem State.setCore_closed (s : State) (c : Nat) (v : Core) : (s.setCore c v).closed = s.closed := rfl
@[simp] theorem State.setCore_mappers (s : State) (c : Nat) (v : Core) : (s.setCore c v).mappers = s.mappers := rfl
@[simp] theorem State.setCore_cur (s : State) (c : Nat) (v : Core) : (s.setCore c v).cur = s.cur := rfl
@[simp] theorem State.setCore_fresh (s : State) (c : Nat) (v : Core) : (s.setCore c v).fresh = s.fresh := rfl
@[simp] theorem State.setCore_clusters (s : State) (c : Nat) (v : Core) : (s.setCore c v).clusters = s.clusters := rfl
@[simp] theorem State.setCore_dies (s : State) (c : Nat) (v : Core) : (s.setCore c v).dies = s.dies := rfl
@[simp] theorem State.setCore_groups (s : State) (c : Nat) (v : Core) : (s.setCore c v).groups = s.groups := rfl
@[simp] theorem State.setCore_contexts (s : State) (c : Nat) (v : Core) : (s.setCore c v).contexts = s.contexts := rfl
@[simp] theorem State.setCore_phys (s : State) (c : Nat) (v : Core) : (s.setCore c v).phys = s.phys := rfl
@[simp] theorem State.setCore_host (s : State) (c : Nat) (v : Core) : (s.setCore c v).host = s.host := rfl
@[simp] theorem State.setCore_frameTags (s : State) (c : Nat) (v : Core) : (s.setCore c v).frameTags = s.frameTags := rfl
@[simp] theorem State.setCore_frameOwner (s : State) (c : Nat) (v : Core) : (s.setCore c v).frameOwner = s.frameOwner := rfl
@[simp] theorem State.setCore_granules (s : State) (c : Nat) (v : Core) : (s.setCore c v).granules = s.granules := rfl
@[simp] theorem State.setCore_poison (s : State) (c : Nat) (v : Core) : (s.setCore c v).poison = s.poison := rfl
@[simp] theorem State.setCore_handler (s : State) (c : Nat) (v : Core) : (s.setCore c v).handler = s.handler := rfl
@[simp] theorem State.setCore_ops (s : State) (c : Nat) (v : Core) : (s.setCore c v).ops = s.ops := rfl
@[simp] theorem State.setCore_reqThreads (s : State) (c : Nat) (v : Core) : (s.setCore c v).reqThreads = s.reqThreads := rfl
@[simp] theorem State.setCore_sends (s : State) (c : Nat) (v : Core) : (s.setCore c v).sends = s.sends := rfl
@[simp] theorem State.setCore_tlb (s : State) (c : Nat) (v : Core) : (s.setCore c v).tlb = s.tlb := rfl
@[simp] theorem State.setCore_gen (s : State) (c : Nat) (v : Core) : (s.setCore c v).gen = s.gen := rfl
@[simp] theorem State.setCore_hub (s : State) (c : Nat) (v : Core) : (s.setCore c v).hub = s.hub := rfl
@[simp] theorem State.setCore_links (s : State) (c : Nat) (v : Core) : (s.setCore c v).links = s.links := rfl
@[simp] theorem State.setCore_bins (s : State) (c : Nat) (v : Core) : (s.setCore c v).bins = s.bins := rfl
@[simp] theorem State.setCore_passed (s : State) (c : Nat) (v : Core) : (s.setCore c v).passed = s.passed := rfl
@[simp] theorem State.setCore_bindings (s : State) (c : Nat) (v : Core) : (s.setCore c v).bindings = s.bindings := rfl
@[simp] theorem State.setCore_blockKeys (s : State) (c : Nat) (v : Core) : (s.setCore c v).blockKeys = s.blockKeys := rfl
@[simp] theorem State.setCore_pages (s : State) (c : Nat) (v : Core) : (s.setCore c v).pages = s.pages := rfl
@[simp] theorem State.setCore_binDue (s : State) (c : Nat) (v : Core) : (s.setCore c v).binDue = s.binDue := rfl
@[simp] theorem State.setCore_clusterAt (s : State) (c : Nat) (v : Core) (i : Nat) : (s.setCore c v).clusterAt i = s.clusterAt i := rfl
@[simp] theorem State.setCore_groupAt (s : State) (c : Nat) (v : Core) (i : Nat) : (s.setCore c v).groupAt i = s.groupAt i := rfl
@[simp] theorem State.setCore_contextAt (s : State) (c : Nat) (v : Core) (i : Nat) : (s.setCore c v).contextAt i = s.contextAt i := rfl
@[simp] theorem State.setCore_dieAt (s : State) (c : Nat) (v : Core) (i : Nat) : (s.setCore c v).dieAt i = s.dieAt i := rfl
@[simp] theorem State.setCore_opAt (s : State) (c : Nat) (v : Core) (i : Nat) : (s.setCore c v).opAt i = s.opAt i := rfl
@[simp] theorem State.setCore_reqAt (s : State) (c : Nat) (v : Core) (i : Nat) : (s.setCore c v).reqAt i = s.reqAt i := rfl
@[simp] theorem State.setCore_linkAt (s : State) (c : Nat) (v : Core) (i : Nat) : (s.setCore c v).linkAt i = s.linkAt i := rfl
@[simp] theorem State.setCore_coreAt_same (s : State) (c : Nat) (v : Core) : (s.setCore c v).coreAt c = v := SMap.get_put_same _ _ _ _
theorem State.setCore_coreAt_other (s : State) (c : Nat) (v : Core) (i : Nat) (h : i ≠ c) : (s.setCore c v).coreAt i = s.coreAt i := SMap.get_put_other _ _ _ _ _ h

@[simp] theorem State.setCluster_now (s : State) (k : Nat) (v : Cluster) : (s.setCluster k v).now = s.now := rfl
@[simp] theorem State.setCluster_agenda (s : State) (k : Nat) (v : Cluster) : (s.setCluster k v).agenda = s.agenda := rfl
@[simp] theorem State.setCluster_todo (s : State) (k : Nat) (v : Cluster) : (s.setCluster k v).todo = s.todo := rfl
@[simp] theorem State.setCluster_read (s : State) (k : Nat) (v : Cluster) : (s.setCluster k v).read = s.read := rfl
@[simp] theorem State.setCluster_opened (s : State) (k : Nat) (v : Cluster) : (s.setCluster k v).opened = s.opened := rfl
@[simp] theorem State.setCluster_closed (s : State) (k : Nat) (v : Cluster) : (s.setCluster k v).closed = s.closed := rfl
@[simp] theorem State.setCluster_mappers (s : State) (k : Nat) (v : Cluster) : (s.setCluster k v).mappers = s.mappers := rfl
@[simp] theorem State.setCluster_cur (s : State) (k : Nat) (v : Cluster) : (s.setCluster k v).cur = s.cur := rfl
@[simp] theorem State.setCluster_fresh (s : State) (k : Nat) (v : Cluster) : (s.setCluster k v).fresh = s.fresh := rfl
@[simp] theorem State.setCluster_cores (s : State) (k : Nat) (v : Cluster) : (s.setCluster k v).cores = s.cores := rfl
@[simp] theorem State.setCluster_dies (s : State) (k : Nat) (v : Cluster) : (s.setCluster k v).dies = s.dies := rfl
@[simp] theorem State.setCluster_groups (s : State) (k : Nat) (v : Cluster) : (s.setCluster k v).groups = s.groups := rfl
@[simp] theorem State.setCluster_contexts (s : State) (k : Nat) (v : Cluster) : (s.setCluster k v).contexts = s.contexts := rfl
@[simp] theorem State.setCluster_phys (s : State) (k : Nat) (v : Cluster) : (s.setCluster k v).phys = s.phys := rfl
@[simp] theorem State.setCluster_host (s : State) (k : Nat) (v : Cluster) : (s.setCluster k v).host = s.host := rfl
@[simp] theorem State.setCluster_frameTags (s : State) (k : Nat) (v : Cluster) : (s.setCluster k v).frameTags = s.frameTags := rfl
@[simp] theorem State.setCluster_frameOwner (s : State) (k : Nat) (v : Cluster) : (s.setCluster k v).frameOwner = s.frameOwner := rfl
@[simp] theorem State.setCluster_granules (s : State) (k : Nat) (v : Cluster) : (s.setCluster k v).granules = s.granules := rfl
@[simp] theorem State.setCluster_poison (s : State) (k : Nat) (v : Cluster) : (s.setCluster k v).poison = s.poison := rfl
@[simp] theorem State.setCluster_handler (s : State) (k : Nat) (v : Cluster) : (s.setCluster k v).handler = s.handler := rfl
@[simp] theorem State.setCluster_ops (s : State) (k : Nat) (v : Cluster) : (s.setCluster k v).ops = s.ops := rfl
@[simp] theorem State.setCluster_reqThreads (s : State) (k : Nat) (v : Cluster) : (s.setCluster k v).reqThreads = s.reqThreads := rfl
@[simp] theorem State.setCluster_sends (s : State) (k : Nat) (v : Cluster) : (s.setCluster k v).sends = s.sends := rfl
@[simp] theorem State.setCluster_tlb (s : State) (k : Nat) (v : Cluster) : (s.setCluster k v).tlb = s.tlb := rfl
@[simp] theorem State.setCluster_gen (s : State) (k : Nat) (v : Cluster) : (s.setCluster k v).gen = s.gen := rfl
@[simp] theorem State.setCluster_hub (s : State) (k : Nat) (v : Cluster) : (s.setCluster k v).hub = s.hub := rfl
@[simp] theorem State.setCluster_links (s : State) (k : Nat) (v : Cluster) : (s.setCluster k v).links = s.links := rfl
@[simp] theorem State.setCluster_bins (s : State) (k : Nat) (v : Cluster) : (s.setCluster k v).bins = s.bins := rfl
@[simp] theorem State.setCluster_passed (s : State) (k : Nat) (v : Cluster) : (s.setCluster k v).passed = s.passed := rfl
@[simp] theorem State.setCluster_bindings (s : State) (k : Nat) (v : Cluster) : (s.setCluster k v).bindings = s.bindings := rfl
@[simp] theorem State.setCluster_blockKeys (s : State) (k : Nat) (v : Cluster) : (s.setCluster k v).blockKeys = s.blockKeys := rfl
@[simp] theorem State.setCluster_pages (s : State) (k : Nat) (v : Cluster) : (s.setCluster k v).pages = s.pages := rfl
@[simp] theorem State.setCluster_binDue (s : State) (k : Nat) (v : Cluster) : (s.setCluster k v).binDue = s.binDue := rfl
@[simp] theorem State.setCluster_coreAt (s : State) (k : Nat) (v : Cluster) (i : Nat) : (s.setCluster k v).coreAt i = s.coreAt i := rfl
@[simp] theorem State.setCluster_groupAt (s : State) (k : Nat) (v : Cluster) (i : Nat) : (s.setCluster k v).groupAt i = s.groupAt i := rfl
@[simp] theorem State.setCluster_contextAt (s : State) (k : Nat) (v : Cluster) (i : Nat) : (s.setCluster k v).contextAt i = s.contextAt i := rfl
@[simp] theorem State.setCluster_dieAt (s : State) (k : Nat) (v : Cluster) (i : Nat) : (s.setCluster k v).dieAt i = s.dieAt i := rfl
@[simp] theorem State.setCluster_opAt (s : State) (k : Nat) (v : Cluster) (i : Nat) : (s.setCluster k v).opAt i = s.opAt i := rfl
@[simp] theorem State.setCluster_reqAt (s : State) (k : Nat) (v : Cluster) (i : Nat) : (s.setCluster k v).reqAt i = s.reqAt i := rfl
@[simp] theorem State.setCluster_linkAt (s : State) (k : Nat) (v : Cluster) (i : Nat) : (s.setCluster k v).linkAt i = s.linkAt i := rfl
@[simp] theorem State.setCluster_clusterAt_same (s : State) (k : Nat) (v : Cluster) : (s.setCluster k v).clusterAt k = v := SMap.get_put_same _ _ _ _
theorem State.setCluster_clusterAt_other (s : State) (k : Nat) (v : Cluster) (i : Nat) (h : i ≠ k) : (s.setCluster k v).clusterAt i = s.clusterAt i := SMap.get_put_other _ _ _ _ _ h

@[simp] theorem State.setGroup_now (s : State) (g : Nat) (v : Group) : (s.setGroup g v).now = s.now := rfl
@[simp] theorem State.setGroup_agenda (s : State) (g : Nat) (v : Group) : (s.setGroup g v).agenda = s.agenda := rfl
@[simp] theorem State.setGroup_todo (s : State) (g : Nat) (v : Group) : (s.setGroup g v).todo = s.todo := rfl
@[simp] theorem State.setGroup_read (s : State) (g : Nat) (v : Group) : (s.setGroup g v).read = s.read := rfl
@[simp] theorem State.setGroup_opened (s : State) (g : Nat) (v : Group) : (s.setGroup g v).opened = s.opened := rfl
@[simp] theorem State.setGroup_closed (s : State) (g : Nat) (v : Group) : (s.setGroup g v).closed = s.closed := rfl
@[simp] theorem State.setGroup_mappers (s : State) (g : Nat) (v : Group) : (s.setGroup g v).mappers = s.mappers := rfl
@[simp] theorem State.setGroup_cur (s : State) (g : Nat) (v : Group) : (s.setGroup g v).cur = s.cur := rfl
@[simp] theorem State.setGroup_fresh (s : State) (g : Nat) (v : Group) : (s.setGroup g v).fresh = s.fresh := rfl
@[simp] theorem State.setGroup_cores (s : State) (g : Nat) (v : Group) : (s.setGroup g v).cores = s.cores := rfl
@[simp] theorem State.setGroup_clusters (s : State) (g : Nat) (v : Group) : (s.setGroup g v).clusters = s.clusters := rfl
@[simp] theorem State.setGroup_dies (s : State) (g : Nat) (v : Group) : (s.setGroup g v).dies = s.dies := rfl
@[simp] theorem State.setGroup_contexts (s : State) (g : Nat) (v : Group) : (s.setGroup g v).contexts = s.contexts := rfl
@[simp] theorem State.setGroup_phys (s : State) (g : Nat) (v : Group) : (s.setGroup g v).phys = s.phys := rfl
@[simp] theorem State.setGroup_host (s : State) (g : Nat) (v : Group) : (s.setGroup g v).host = s.host := rfl
@[simp] theorem State.setGroup_frameTags (s : State) (g : Nat) (v : Group) : (s.setGroup g v).frameTags = s.frameTags := rfl
@[simp] theorem State.setGroup_frameOwner (s : State) (g : Nat) (v : Group) : (s.setGroup g v).frameOwner = s.frameOwner := rfl
@[simp] theorem State.setGroup_granules (s : State) (g : Nat) (v : Group) : (s.setGroup g v).granules = s.granules := rfl
@[simp] theorem State.setGroup_poison (s : State) (g : Nat) (v : Group) : (s.setGroup g v).poison = s.poison := rfl
@[simp] theorem State.setGroup_handler (s : State) (g : Nat) (v : Group) : (s.setGroup g v).handler = s.handler := rfl
@[simp] theorem State.setGroup_ops (s : State) (g : Nat) (v : Group) : (s.setGroup g v).ops = s.ops := rfl
@[simp] theorem State.setGroup_reqThreads (s : State) (g : Nat) (v : Group) : (s.setGroup g v).reqThreads = s.reqThreads := rfl
@[simp] theorem State.setGroup_sends (s : State) (g : Nat) (v : Group) : (s.setGroup g v).sends = s.sends := rfl
@[simp] theorem State.setGroup_tlb (s : State) (g : Nat) (v : Group) : (s.setGroup g v).tlb = s.tlb := rfl
@[simp] theorem State.setGroup_gen (s : State) (g : Nat) (v : Group) : (s.setGroup g v).gen = s.gen := rfl
@[simp] theorem State.setGroup_hub (s : State) (g : Nat) (v : Group) : (s.setGroup g v).hub = s.hub := rfl
@[simp] theorem State.setGroup_links (s : State) (g : Nat) (v : Group) : (s.setGroup g v).links = s.links := rfl
@[simp] theorem State.setGroup_bins (s : State) (g : Nat) (v : Group) : (s.setGroup g v).bins = s.bins := rfl
@[simp] theorem State.setGroup_passed (s : State) (g : Nat) (v : Group) : (s.setGroup g v).passed = s.passed := rfl
@[simp] theorem State.setGroup_bindings (s : State) (g : Nat) (v : Group) : (s.setGroup g v).bindings = s.bindings := rfl
@[simp] theorem State.setGroup_blockKeys (s : State) (g : Nat) (v : Group) : (s.setGroup g v).blockKeys = s.blockKeys := rfl
@[simp] theorem State.setGroup_pages (s : State) (g : Nat) (v : Group) : (s.setGroup g v).pages = s.pages := rfl
@[simp] theorem State.setGroup_binDue (s : State) (g : Nat) (v : Group) : (s.setGroup g v).binDue = s.binDue := rfl
@[simp] theorem State.setGroup_coreAt (s : State) (g : Nat) (v : Group) (i : Nat) : (s.setGroup g v).coreAt i = s.coreAt i := rfl
@[simp] theorem State.setGroup_clusterAt (s : State) (g : Nat) (v : Group) (i : Nat) : (s.setGroup g v).clusterAt i = s.clusterAt i := rfl
@[simp] theorem State.setGroup_contextAt (s : State) (g : Nat) (v : Group) (i : Nat) : (s.setGroup g v).contextAt i = s.contextAt i := rfl
@[simp] theorem State.setGroup_dieAt (s : State) (g : Nat) (v : Group) (i : Nat) : (s.setGroup g v).dieAt i = s.dieAt i := rfl
@[simp] theorem State.setGroup_opAt (s : State) (g : Nat) (v : Group) (i : Nat) : (s.setGroup g v).opAt i = s.opAt i := rfl
@[simp] theorem State.setGroup_reqAt (s : State) (g : Nat) (v : Group) (i : Nat) : (s.setGroup g v).reqAt i = s.reqAt i := rfl
@[simp] theorem State.setGroup_linkAt (s : State) (g : Nat) (v : Group) (i : Nat) : (s.setGroup g v).linkAt i = s.linkAt i := rfl
@[simp] theorem State.setGroup_groupAt_same (s : State) (g : Nat) (v : Group) : (s.setGroup g v).groupAt g = v := SMap.get_put_same _ _ _ _
theorem State.setGroup_groupAt_other (s : State) (g : Nat) (v : Group) (i : Nat) (h : i ≠ g) : (s.setGroup g v).groupAt i = s.groupAt i := SMap.get_put_other _ _ _ _ _ h

@[simp] theorem State.setContext_now (s : State) (x : Nat) (v : Context) : (s.setContext x v).now = s.now := rfl
@[simp] theorem State.setContext_agenda (s : State) (x : Nat) (v : Context) : (s.setContext x v).agenda = s.agenda := rfl
@[simp] theorem State.setContext_todo (s : State) (x : Nat) (v : Context) : (s.setContext x v).todo = s.todo := rfl
@[simp] theorem State.setContext_read (s : State) (x : Nat) (v : Context) : (s.setContext x v).read = s.read := rfl
@[simp] theorem State.setContext_opened (s : State) (x : Nat) (v : Context) : (s.setContext x v).opened = s.opened := rfl
@[simp] theorem State.setContext_closed (s : State) (x : Nat) (v : Context) : (s.setContext x v).closed = s.closed := rfl
@[simp] theorem State.setContext_mappers (s : State) (x : Nat) (v : Context) : (s.setContext x v).mappers = s.mappers := rfl
@[simp] theorem State.setContext_cur (s : State) (x : Nat) (v : Context) : (s.setContext x v).cur = s.cur := rfl
@[simp] theorem State.setContext_fresh (s : State) (x : Nat) (v : Context) : (s.setContext x v).fresh = s.fresh := rfl
@[simp] theorem State.setContext_cores (s : State) (x : Nat) (v : Context) : (s.setContext x v).cores = s.cores := rfl
@[simp] theorem State.setContext_clusters (s : State) (x : Nat) (v : Context) : (s.setContext x v).clusters = s.clusters := rfl
@[simp] theorem State.setContext_dies (s : State) (x : Nat) (v : Context) : (s.setContext x v).dies = s.dies := rfl
@[simp] theorem State.setContext_groups (s : State) (x : Nat) (v : Context) : (s.setContext x v).groups = s.groups := rfl
@[simp] theorem State.setContext_phys (s : State) (x : Nat) (v : Context) : (s.setContext x v).phys = s.phys := rfl
@[simp] theorem State.setContext_host (s : State) (x : Nat) (v : Context) : (s.setContext x v).host = s.host := rfl
@[simp] theorem State.setContext_frameTags (s : State) (x : Nat) (v : Context) : (s.setContext x v).frameTags = s.frameTags := rfl
@[simp] theorem State.setContext_frameOwner (s : State) (x : Nat) (v : Context) : (s.setContext x v).frameOwner = s.frameOwner := rfl
@[simp] theorem State.setContext_granules (s : State) (x : Nat) (v : Context) : (s.setContext x v).granules = s.granules := rfl
@[simp] theorem State.setContext_poison (s : State) (x : Nat) (v : Context) : (s.setContext x v).poison = s.poison := rfl
@[simp] theorem State.setContext_handler (s : State) (x : Nat) (v : Context) : (s.setContext x v).handler = s.handler := rfl
@[simp] theorem State.setContext_ops (s : State) (x : Nat) (v : Context) : (s.setContext x v).ops = s.ops := rfl
@[simp] theorem State.setContext_reqThreads (s : State) (x : Nat) (v : Context) : (s.setContext x v).reqThreads = s.reqThreads := rfl
@[simp] theorem State.setContext_sends (s : State) (x : Nat) (v : Context) : (s.setContext x v).sends = s.sends := rfl
@[simp] theorem State.setContext_tlb (s : State) (x : Nat) (v : Context) : (s.setContext x v).tlb = s.tlb := rfl
@[simp] theorem State.setContext_gen (s : State) (x : Nat) (v : Context) : (s.setContext x v).gen = s.gen := rfl
@[simp] theorem State.setContext_hub (s : State) (x : Nat) (v : Context) : (s.setContext x v).hub = s.hub := rfl
@[simp] theorem State.setContext_links (s : State) (x : Nat) (v : Context) : (s.setContext x v).links = s.links := rfl
@[simp] theorem State.setContext_bins (s : State) (x : Nat) (v : Context) : (s.setContext x v).bins = s.bins := rfl
@[simp] theorem State.setContext_passed (s : State) (x : Nat) (v : Context) : (s.setContext x v).passed = s.passed := rfl
@[simp] theorem State.setContext_bindings (s : State) (x : Nat) (v : Context) : (s.setContext x v).bindings = s.bindings := rfl
@[simp] theorem State.setContext_blockKeys (s : State) (x : Nat) (v : Context) : (s.setContext x v).blockKeys = s.blockKeys := rfl
@[simp] theorem State.setContext_pages (s : State) (x : Nat) (v : Context) : (s.setContext x v).pages = s.pages := rfl
@[simp] theorem State.setContext_binDue (s : State) (x : Nat) (v : Context) : (s.setContext x v).binDue = s.binDue := rfl
@[simp] theorem State.setContext_coreAt (s : State) (x : Nat) (v : Context) (i : Nat) : (s.setContext x v).coreAt i = s.coreAt i := rfl
@[simp] theorem State.setContext_clusterAt (s : State) (x : Nat) (v : Context) (i : Nat) : (s.setContext x v).clusterAt i = s.clusterAt i := rfl
@[simp] theorem State.setContext_groupAt (s : State) (x : Nat) (v : Context) (i : Nat) : (s.setContext x v).groupAt i = s.groupAt i := rfl
@[simp] theorem State.setContext_dieAt (s : State) (x : Nat) (v : Context) (i : Nat) : (s.setContext x v).dieAt i = s.dieAt i := rfl
@[simp] theorem State.setContext_opAt (s : State) (x : Nat) (v : Context) (i : Nat) : (s.setContext x v).opAt i = s.opAt i := rfl
@[simp] theorem State.setContext_reqAt (s : State) (x : Nat) (v : Context) (i : Nat) : (s.setContext x v).reqAt i = s.reqAt i := rfl
@[simp] theorem State.setContext_linkAt (s : State) (x : Nat) (v : Context) (i : Nat) : (s.setContext x v).linkAt i = s.linkAt i := rfl
@[simp] theorem State.setContext_contextAt_same (s : State) (x : Nat) (v : Context) : (s.setContext x v).contextAt x = v := SMap.get_put_same _ _ _ _
theorem State.setContext_contextAt_other (s : State) (x : Nat) (v : Context) (i : Nat) (h : i ≠ x) : (s.setContext x v).contextAt i = s.contextAt i := SMap.get_put_other _ _ _ _ _ h

@[simp] theorem State.setDie_now (s : State) (d : Nat) (v : Die) : (s.setDie d v).now = s.now := rfl
@[simp] theorem State.setDie_agenda (s : State) (d : Nat) (v : Die) : (s.setDie d v).agenda = s.agenda := rfl
@[simp] theorem State.setDie_todo (s : State) (d : Nat) (v : Die) : (s.setDie d v).todo = s.todo := rfl
@[simp] theorem State.setDie_read (s : State) (d : Nat) (v : Die) : (s.setDie d v).read = s.read := rfl
@[simp] theorem State.setDie_opened (s : State) (d : Nat) (v : Die) : (s.setDie d v).opened = s.opened := rfl
@[simp] theorem State.setDie_closed (s : State) (d : Nat) (v : Die) : (s.setDie d v).closed = s.closed := rfl
@[simp] theorem State.setDie_mappers (s : State) (d : Nat) (v : Die) : (s.setDie d v).mappers = s.mappers := rfl
@[simp] theorem State.setDie_cur (s : State) (d : Nat) (v : Die) : (s.setDie d v).cur = s.cur := rfl
@[simp] theorem State.setDie_fresh (s : State) (d : Nat) (v : Die) : (s.setDie d v).fresh = s.fresh := rfl
@[simp] theorem State.setDie_cores (s : State) (d : Nat) (v : Die) : (s.setDie d v).cores = s.cores := rfl
@[simp] theorem State.setDie_clusters (s : State) (d : Nat) (v : Die) : (s.setDie d v).clusters = s.clusters := rfl
@[simp] theorem State.setDie_groups (s : State) (d : Nat) (v : Die) : (s.setDie d v).groups = s.groups := rfl
@[simp] theorem State.setDie_contexts (s : State) (d : Nat) (v : Die) : (s.setDie d v).contexts = s.contexts := rfl
@[simp] theorem State.setDie_phys (s : State) (d : Nat) (v : Die) : (s.setDie d v).phys = s.phys := rfl
@[simp] theorem State.setDie_host (s : State) (d : Nat) (v : Die) : (s.setDie d v).host = s.host := rfl
@[simp] theorem State.setDie_frameTags (s : State) (d : Nat) (v : Die) : (s.setDie d v).frameTags = s.frameTags := rfl
@[simp] theorem State.setDie_frameOwner (s : State) (d : Nat) (v : Die) : (s.setDie d v).frameOwner = s.frameOwner := rfl
@[simp] theorem State.setDie_granules (s : State) (d : Nat) (v : Die) : (s.setDie d v).granules = s.granules := rfl
@[simp] theorem State.setDie_poison (s : State) (d : Nat) (v : Die) : (s.setDie d v).poison = s.poison := rfl
@[simp] theorem State.setDie_handler (s : State) (d : Nat) (v : Die) : (s.setDie d v).handler = s.handler := rfl
@[simp] theorem State.setDie_ops (s : State) (d : Nat) (v : Die) : (s.setDie d v).ops = s.ops := rfl
@[simp] theorem State.setDie_reqThreads (s : State) (d : Nat) (v : Die) : (s.setDie d v).reqThreads = s.reqThreads := rfl
@[simp] theorem State.setDie_sends (s : State) (d : Nat) (v : Die) : (s.setDie d v).sends = s.sends := rfl
@[simp] theorem State.setDie_tlb (s : State) (d : Nat) (v : Die) : (s.setDie d v).tlb = s.tlb := rfl
@[simp] theorem State.setDie_gen (s : State) (d : Nat) (v : Die) : (s.setDie d v).gen = s.gen := rfl
@[simp] theorem State.setDie_hub (s : State) (d : Nat) (v : Die) : (s.setDie d v).hub = s.hub := rfl
@[simp] theorem State.setDie_links (s : State) (d : Nat) (v : Die) : (s.setDie d v).links = s.links := rfl
@[simp] theorem State.setDie_bins (s : State) (d : Nat) (v : Die) : (s.setDie d v).bins = s.bins := rfl
@[simp] theorem State.setDie_passed (s : State) (d : Nat) (v : Die) : (s.setDie d v).passed = s.passed := rfl
@[simp] theorem State.setDie_bindings (s : State) (d : Nat) (v : Die) : (s.setDie d v).bindings = s.bindings := rfl
@[simp] theorem State.setDie_blockKeys (s : State) (d : Nat) (v : Die) : (s.setDie d v).blockKeys = s.blockKeys := rfl
@[simp] theorem State.setDie_pages (s : State) (d : Nat) (v : Die) : (s.setDie d v).pages = s.pages := rfl
@[simp] theorem State.setDie_binDue (s : State) (d : Nat) (v : Die) : (s.setDie d v).binDue = s.binDue := rfl
@[simp] theorem State.setDie_coreAt (s : State) (d : Nat) (v : Die) (i : Nat) : (s.setDie d v).coreAt i = s.coreAt i := rfl
@[simp] theorem State.setDie_clusterAt (s : State) (d : Nat) (v : Die) (i : Nat) : (s.setDie d v).clusterAt i = s.clusterAt i := rfl
@[simp] theorem State.setDie_groupAt (s : State) (d : Nat) (v : Die) (i : Nat) : (s.setDie d v).groupAt i = s.groupAt i := rfl
@[simp] theorem State.setDie_contextAt (s : State) (d : Nat) (v : Die) (i : Nat) : (s.setDie d v).contextAt i = s.contextAt i := rfl
@[simp] theorem State.setDie_opAt (s : State) (d : Nat) (v : Die) (i : Nat) : (s.setDie d v).opAt i = s.opAt i := rfl
@[simp] theorem State.setDie_reqAt (s : State) (d : Nat) (v : Die) (i : Nat) : (s.setDie d v).reqAt i = s.reqAt i := rfl
@[simp] theorem State.setDie_linkAt (s : State) (d : Nat) (v : Die) (i : Nat) : (s.setDie d v).linkAt i = s.linkAt i := rfl
@[simp] theorem State.setDie_dieAt_same (s : State) (d : Nat) (v : Die) : (s.setDie d v).dieAt d = v := SMap.get_put_same _ _ _ _
theorem State.setDie_dieAt_other (s : State) (d : Nat) (v : Die) (i : Nat) (h : i ≠ d) : (s.setDie d v).dieAt i = s.dieAt i := SMap.get_put_other _ _ _ _ _ h

@[simp] theorem State.setOp_now (s : State) (o : Nat) (v : EngOp) : (s.setOp o v).now = s.now := rfl
@[simp] theorem State.setOp_agenda (s : State) (o : Nat) (v : EngOp) : (s.setOp o v).agenda = s.agenda := rfl
@[simp] theorem State.setOp_todo (s : State) (o : Nat) (v : EngOp) : (s.setOp o v).todo = s.todo := rfl
@[simp] theorem State.setOp_read (s : State) (o : Nat) (v : EngOp) : (s.setOp o v).read = s.read := rfl
@[simp] theorem State.setOp_opened (s : State) (o : Nat) (v : EngOp) : (s.setOp o v).opened = s.opened := rfl
@[simp] theorem State.setOp_closed (s : State) (o : Nat) (v : EngOp) : (s.setOp o v).closed = s.closed := rfl
@[simp] theorem State.setOp_mappers (s : State) (o : Nat) (v : EngOp) : (s.setOp o v).mappers = s.mappers := rfl
@[simp] theorem State.setOp_cur (s : State) (o : Nat) (v : EngOp) : (s.setOp o v).cur = s.cur := rfl
@[simp] theorem State.setOp_fresh (s : State) (o : Nat) (v : EngOp) : (s.setOp o v).fresh = s.fresh := rfl
@[simp] theorem State.setOp_cores (s : State) (o : Nat) (v : EngOp) : (s.setOp o v).cores = s.cores := rfl
@[simp] theorem State.setOp_clusters (s : State) (o : Nat) (v : EngOp) : (s.setOp o v).clusters = s.clusters := rfl
@[simp] theorem State.setOp_dies (s : State) (o : Nat) (v : EngOp) : (s.setOp o v).dies = s.dies := rfl
@[simp] theorem State.setOp_groups (s : State) (o : Nat) (v : EngOp) : (s.setOp o v).groups = s.groups := rfl
@[simp] theorem State.setOp_contexts (s : State) (o : Nat) (v : EngOp) : (s.setOp o v).contexts = s.contexts := rfl
@[simp] theorem State.setOp_phys (s : State) (o : Nat) (v : EngOp) : (s.setOp o v).phys = s.phys := rfl
@[simp] theorem State.setOp_host (s : State) (o : Nat) (v : EngOp) : (s.setOp o v).host = s.host := rfl
@[simp] theorem State.setOp_frameTags (s : State) (o : Nat) (v : EngOp) : (s.setOp o v).frameTags = s.frameTags := rfl
@[simp] theorem State.setOp_frameOwner (s : State) (o : Nat) (v : EngOp) : (s.setOp o v).frameOwner = s.frameOwner := rfl
@[simp] theorem State.setOp_granules (s : State) (o : Nat) (v : EngOp) : (s.setOp o v).granules = s.granules := rfl
@[simp] theorem State.setOp_poison (s : State) (o : Nat) (v : EngOp) : (s.setOp o v).poison = s.poison := rfl
@[simp] theorem State.setOp_handler (s : State) (o : Nat) (v : EngOp) : (s.setOp o v).handler = s.handler := rfl
@[simp] theorem State.setOp_reqThreads (s : State) (o : Nat) (v : EngOp) : (s.setOp o v).reqThreads = s.reqThreads := rfl
@[simp] theorem State.setOp_sends (s : State) (o : Nat) (v : EngOp) : (s.setOp o v).sends = s.sends := rfl
@[simp] theorem State.setOp_tlb (s : State) (o : Nat) (v : EngOp) : (s.setOp o v).tlb = s.tlb := rfl
@[simp] theorem State.setOp_gen (s : State) (o : Nat) (v : EngOp) : (s.setOp o v).gen = s.gen := rfl
@[simp] theorem State.setOp_hub (s : State) (o : Nat) (v : EngOp) : (s.setOp o v).hub = s.hub := rfl
@[simp] theorem State.setOp_links (s : State) (o : Nat) (v : EngOp) : (s.setOp o v).links = s.links := rfl
@[simp] theorem State.setOp_bins (s : State) (o : Nat) (v : EngOp) : (s.setOp o v).bins = s.bins := rfl
@[simp] theorem State.setOp_passed (s : State) (o : Nat) (v : EngOp) : (s.setOp o v).passed = s.passed := rfl
@[simp] theorem State.setOp_bindings (s : State) (o : Nat) (v : EngOp) : (s.setOp o v).bindings = s.bindings := rfl
@[simp] theorem State.setOp_blockKeys (s : State) (o : Nat) (v : EngOp) : (s.setOp o v).blockKeys = s.blockKeys := rfl
@[simp] theorem State.setOp_pages (s : State) (o : Nat) (v : EngOp) : (s.setOp o v).pages = s.pages := rfl
@[simp] theorem State.setOp_binDue (s : State) (o : Nat) (v : EngOp) : (s.setOp o v).binDue = s.binDue := rfl
@[simp] theorem State.setOp_coreAt (s : State) (o : Nat) (v : EngOp) (i : Nat) : (s.setOp o v).coreAt i = s.coreAt i := rfl
@[simp] theorem State.setOp_clusterAt (s : State) (o : Nat) (v : EngOp) (i : Nat) : (s.setOp o v).clusterAt i = s.clusterAt i := rfl
@[simp] theorem State.setOp_groupAt (s : State) (o : Nat) (v : EngOp) (i : Nat) : (s.setOp o v).groupAt i = s.groupAt i := rfl
@[simp] theorem State.setOp_contextAt (s : State) (o : Nat) (v : EngOp) (i : Nat) : (s.setOp o v).contextAt i = s.contextAt i := rfl
@[simp] theorem State.setOp_dieAt (s : State) (o : Nat) (v : EngOp) (i : Nat) : (s.setOp o v).dieAt i = s.dieAt i := rfl
@[simp] theorem State.setOp_reqAt (s : State) (o : Nat) (v : EngOp) (i : Nat) : (s.setOp o v).reqAt i = s.reqAt i := rfl
@[simp] theorem State.setOp_linkAt (s : State) (o : Nat) (v : EngOp) (i : Nat) : (s.setOp o v).linkAt i = s.linkAt i := rfl
@[simp] theorem State.setOp_opAt_same (s : State) (o : Nat) (v : EngOp) : (s.setOp o v).opAt o = v := SMap.get_put_same _ _ _ _
theorem State.setOp_opAt_other (s : State) (o : Nat) (v : EngOp) (i : Nat) (h : i ≠ o) : (s.setOp o v).opAt i = s.opAt i := SMap.get_put_other _ _ _ _ _ h

@[simp] theorem State.setReq_now (s : State) (r : Nat) (v : ReqThread) : (s.setReq r v).now = s.now := rfl
@[simp] theorem State.setReq_agenda (s : State) (r : Nat) (v : ReqThread) : (s.setReq r v).agenda = s.agenda := rfl
@[simp] theorem State.setReq_todo (s : State) (r : Nat) (v : ReqThread) : (s.setReq r v).todo = s.todo := rfl
@[simp] theorem State.setReq_read (s : State) (r : Nat) (v : ReqThread) : (s.setReq r v).read = s.read := rfl
@[simp] theorem State.setReq_opened (s : State) (r : Nat) (v : ReqThread) : (s.setReq r v).opened = s.opened := rfl
@[simp] theorem State.setReq_closed (s : State) (r : Nat) (v : ReqThread) : (s.setReq r v).closed = s.closed := rfl
@[simp] theorem State.setReq_mappers (s : State) (r : Nat) (v : ReqThread) : (s.setReq r v).mappers = s.mappers := rfl
@[simp] theorem State.setReq_cur (s : State) (r : Nat) (v : ReqThread) : (s.setReq r v).cur = s.cur := rfl
@[simp] theorem State.setReq_fresh (s : State) (r : Nat) (v : ReqThread) : (s.setReq r v).fresh = s.fresh := rfl
@[simp] theorem State.setReq_cores (s : State) (r : Nat) (v : ReqThread) : (s.setReq r v).cores = s.cores := rfl
@[simp] theorem State.setReq_clusters (s : State) (r : Nat) (v : ReqThread) : (s.setReq r v).clusters = s.clusters := rfl
@[simp] theorem State.setReq_dies (s : State) (r : Nat) (v : ReqThread) : (s.setReq r v).dies = s.dies := rfl
@[simp] theorem State.setReq_groups (s : State) (r : Nat) (v : ReqThread) : (s.setReq r v).groups = s.groups := rfl
@[simp] theorem State.setReq_contexts (s : State) (r : Nat) (v : ReqThread) : (s.setReq r v).contexts = s.contexts := rfl
@[simp] theorem State.setReq_phys (s : State) (r : Nat) (v : ReqThread) : (s.setReq r v).phys = s.phys := rfl
@[simp] theorem State.setReq_host (s : State) (r : Nat) (v : ReqThread) : (s.setReq r v).host = s.host := rfl
@[simp] theorem State.setReq_frameTags (s : State) (r : Nat) (v : ReqThread) : (s.setReq r v).frameTags = s.frameTags := rfl
@[simp] theorem State.setReq_frameOwner (s : State) (r : Nat) (v : ReqThread) : (s.setReq r v).frameOwner = s.frameOwner := rfl
@[simp] theorem State.setReq_granules (s : State) (r : Nat) (v : ReqThread) : (s.setReq r v).granules = s.granules := rfl
@[simp] theorem State.setReq_poison (s : State) (r : Nat) (v : ReqThread) : (s.setReq r v).poison = s.poison := rfl
@[simp] theorem State.setReq_handler (s : State) (r : Nat) (v : ReqThread) : (s.setReq r v).handler = s.handler := rfl
@[simp] theorem State.setReq_ops (s : State) (r : Nat) (v : ReqThread) : (s.setReq r v).ops = s.ops := rfl
@[simp] theorem State.setReq_sends (s : State) (r : Nat) (v : ReqThread) : (s.setReq r v).sends = s.sends := rfl
@[simp] theorem State.setReq_tlb (s : State) (r : Nat) (v : ReqThread) : (s.setReq r v).tlb = s.tlb := rfl
@[simp] theorem State.setReq_gen (s : State) (r : Nat) (v : ReqThread) : (s.setReq r v).gen = s.gen := rfl
@[simp] theorem State.setReq_hub (s : State) (r : Nat) (v : ReqThread) : (s.setReq r v).hub = s.hub := rfl
@[simp] theorem State.setReq_links (s : State) (r : Nat) (v : ReqThread) : (s.setReq r v).links = s.links := rfl
@[simp] theorem State.setReq_bins (s : State) (r : Nat) (v : ReqThread) : (s.setReq r v).bins = s.bins := rfl
@[simp] theorem State.setReq_passed (s : State) (r : Nat) (v : ReqThread) : (s.setReq r v).passed = s.passed := rfl
@[simp] theorem State.setReq_bindings (s : State) (r : Nat) (v : ReqThread) : (s.setReq r v).bindings = s.bindings := rfl
@[simp] theorem State.setReq_blockKeys (s : State) (r : Nat) (v : ReqThread) : (s.setReq r v).blockKeys = s.blockKeys := rfl
@[simp] theorem State.setReq_pages (s : State) (r : Nat) (v : ReqThread) : (s.setReq r v).pages = s.pages := rfl
@[simp] theorem State.setReq_binDue (s : State) (r : Nat) (v : ReqThread) : (s.setReq r v).binDue = s.binDue := rfl
@[simp] theorem State.setReq_coreAt (s : State) (r : Nat) (v : ReqThread) (i : Nat) : (s.setReq r v).coreAt i = s.coreAt i := rfl
@[simp] theorem State.setReq_clusterAt (s : State) (r : Nat) (v : ReqThread) (i : Nat) : (s.setReq r v).clusterAt i = s.clusterAt i := rfl
@[simp] theorem State.setReq_groupAt (s : State) (r : Nat) (v : ReqThread) (i : Nat) : (s.setReq r v).groupAt i = s.groupAt i := rfl
@[simp] theorem State.setReq_contextAt (s : State) (r : Nat) (v : ReqThread) (i : Nat) : (s.setReq r v).contextAt i = s.contextAt i := rfl
@[simp] theorem State.setReq_dieAt (s : State) (r : Nat) (v : ReqThread) (i : Nat) : (s.setReq r v).dieAt i = s.dieAt i := rfl
@[simp] theorem State.setReq_opAt (s : State) (r : Nat) (v : ReqThread) (i : Nat) : (s.setReq r v).opAt i = s.opAt i := rfl
@[simp] theorem State.setReq_linkAt (s : State) (r : Nat) (v : ReqThread) (i : Nat) : (s.setReq r v).linkAt i = s.linkAt i := rfl
@[simp] theorem State.setReq_reqAt_same (s : State) (r : Nat) (v : ReqThread) : (s.setReq r v).reqAt r = v := SMap.get_put_same _ _ _ _
theorem State.setReq_reqAt_other (s : State) (r : Nat) (v : ReqThread) (i : Nat) (h : i ≠ r) : (s.setReq r v).reqAt i = s.reqAt i := SMap.get_put_other _ _ _ _ _ h

@[simp] theorem State.setLink_now (s : State) (l : Nat) (v : Link) : (s.setLink l v).now = s.now := rfl
@[simp] theorem State.setLink_agenda (s : State) (l : Nat) (v : Link) : (s.setLink l v).agenda = s.agenda := rfl
@[simp] theorem State.setLink_todo (s : State) (l : Nat) (v : Link) : (s.setLink l v).todo = s.todo := rfl
@[simp] theorem State.setLink_read (s : State) (l : Nat) (v : Link) : (s.setLink l v).read = s.read := rfl
@[simp] theorem State.setLink_opened (s : State) (l : Nat) (v : Link) : (s.setLink l v).opened = s.opened := rfl
@[simp] theorem State.setLink_closed (s : State) (l : Nat) (v : Link) : (s.setLink l v).closed = s.closed := rfl
@[simp] theorem State.setLink_mappers (s : State) (l : Nat) (v : Link) : (s.setLink l v).mappers = s.mappers := rfl
@[simp] theorem State.setLink_cur (s : State) (l : Nat) (v : Link) : (s.setLink l v).cur = s.cur := rfl
@[simp] theorem State.setLink_fresh (s : State) (l : Nat) (v : Link) : (s.setLink l v).fresh = s.fresh := rfl
@[simp] theorem State.setLink_cores (s : State) (l : Nat) (v : Link) : (s.setLink l v).cores = s.cores := rfl
@[simp] theorem State.setLink_clusters (s : State) (l : Nat) (v : Link) : (s.setLink l v).clusters = s.clusters := rfl
@[simp] theorem State.setLink_dies (s : State) (l : Nat) (v : Link) : (s.setLink l v).dies = s.dies := rfl
@[simp] theorem State.setLink_groups (s : State) (l : Nat) (v : Link) : (s.setLink l v).groups = s.groups := rfl
@[simp] theorem State.setLink_contexts (s : State) (l : Nat) (v : Link) : (s.setLink l v).contexts = s.contexts := rfl
@[simp] theorem State.setLink_phys (s : State) (l : Nat) (v : Link) : (s.setLink l v).phys = s.phys := rfl
@[simp] theorem State.setLink_host (s : State) (l : Nat) (v : Link) : (s.setLink l v).host = s.host := rfl
@[simp] theorem State.setLink_frameTags (s : State) (l : Nat) (v : Link) : (s.setLink l v).frameTags = s.frameTags := rfl
@[simp] theorem State.setLink_frameOwner (s : State) (l : Nat) (v : Link) : (s.setLink l v).frameOwner = s.frameOwner := rfl
@[simp] theorem State.setLink_granules (s : State) (l : Nat) (v : Link) : (s.setLink l v).granules = s.granules := rfl
@[simp] theorem State.setLink_poison (s : State) (l : Nat) (v : Link) : (s.setLink l v).poison = s.poison := rfl
@[simp] theorem State.setLink_handler (s : State) (l : Nat) (v : Link) : (s.setLink l v).handler = s.handler := rfl
@[simp] theorem State.setLink_ops (s : State) (l : Nat) (v : Link) : (s.setLink l v).ops = s.ops := rfl
@[simp] theorem State.setLink_reqThreads (s : State) (l : Nat) (v : Link) : (s.setLink l v).reqThreads = s.reqThreads := rfl
@[simp] theorem State.setLink_sends (s : State) (l : Nat) (v : Link) : (s.setLink l v).sends = s.sends := rfl
@[simp] theorem State.setLink_tlb (s : State) (l : Nat) (v : Link) : (s.setLink l v).tlb = s.tlb := rfl
@[simp] theorem State.setLink_gen (s : State) (l : Nat) (v : Link) : (s.setLink l v).gen = s.gen := rfl
@[simp] theorem State.setLink_hub (s : State) (l : Nat) (v : Link) : (s.setLink l v).hub = s.hub := rfl
@[simp] theorem State.setLink_bins (s : State) (l : Nat) (v : Link) : (s.setLink l v).bins = s.bins := rfl
@[simp] theorem State.setLink_passed (s : State) (l : Nat) (v : Link) : (s.setLink l v).passed = s.passed := rfl
@[simp] theorem State.setLink_bindings (s : State) (l : Nat) (v : Link) : (s.setLink l v).bindings = s.bindings := rfl
@[simp] theorem State.setLink_blockKeys (s : State) (l : Nat) (v : Link) : (s.setLink l v).blockKeys = s.blockKeys := rfl
@[simp] theorem State.setLink_pages (s : State) (l : Nat) (v : Link) : (s.setLink l v).pages = s.pages := rfl
@[simp] theorem State.setLink_binDue (s : State) (l : Nat) (v : Link) : (s.setLink l v).binDue = s.binDue := rfl
@[simp] theorem State.setLink_coreAt (s : State) (l : Nat) (v : Link) (i : Nat) : (s.setLink l v).coreAt i = s.coreAt i := rfl
@[simp] theorem State.setLink_clusterAt (s : State) (l : Nat) (v : Link) (i : Nat) : (s.setLink l v).clusterAt i = s.clusterAt i := rfl
@[simp] theorem State.setLink_groupAt (s : State) (l : Nat) (v : Link) (i : Nat) : (s.setLink l v).groupAt i = s.groupAt i := rfl
@[simp] theorem State.setLink_contextAt (s : State) (l : Nat) (v : Link) (i : Nat) : (s.setLink l v).contextAt i = s.contextAt i := rfl
@[simp] theorem State.setLink_dieAt (s : State) (l : Nat) (v : Link) (i : Nat) : (s.setLink l v).dieAt i = s.dieAt i := rfl
@[simp] theorem State.setLink_opAt (s : State) (l : Nat) (v : Link) (i : Nat) : (s.setLink l v).opAt i = s.opAt i := rfl
@[simp] theorem State.setLink_reqAt (s : State) (l : Nat) (v : Link) (i : Nat) : (s.setLink l v).reqAt i = s.reqAt i := rfl
@[simp] theorem State.setLink_linkAt_same (s : State) (l : Nat) (v : Link) : (s.setLink l v).linkAt l = v := SMap.get_put_same _ _ _ _
theorem State.setLink_linkAt_other (s : State) (l : Nat) (v : Link) (i : Nat) (h : i ≠ l) : (s.setLink l v).linkAt i = s.linkAt i := SMap.get_put_other _ _ _ _ _ h

@[simp] theorem State.at_now (s : State) (due prio : Nat) (ev : Instr) : (s.at due prio ev).now = s.now := rfl
@[simp] theorem State.at_todo (s : State) (due prio : Nat) (ev : Instr) : (s.at due prio ev).todo = s.todo := rfl
@[simp] theorem State.at_read (s : State) (due prio : Nat) (ev : Instr) : (s.at due prio ev).read = s.read := rfl
@[simp] theorem State.at_opened (s : State) (due prio : Nat) (ev : Instr) : (s.at due prio ev).opened = s.opened := rfl
@[simp] theorem State.at_closed (s : State) (due prio : Nat) (ev : Instr) : (s.at due prio ev).closed = s.closed := rfl
@[simp] theorem State.at_mappers (s : State) (due prio : Nat) (ev : Instr) : (s.at due prio ev).mappers = s.mappers := rfl
@[simp] theorem State.at_cur (s : State) (due prio : Nat) (ev : Instr) : (s.at due prio ev).cur = s.cur := rfl
@[simp] theorem State.at_fresh (s : State) (due prio : Nat) (ev : Instr) : (s.at due prio ev).fresh = s.fresh := rfl
@[simp] theorem State.at_cores (s : State) (due prio : Nat) (ev : Instr) : (s.at due prio ev).cores = s.cores := rfl
@[simp] theorem State.at_clusters (s : State) (due prio : Nat) (ev : Instr) : (s.at due prio ev).clusters = s.clusters := rfl
@[simp] theorem State.at_dies (s : State) (due prio : Nat) (ev : Instr) : (s.at due prio ev).dies = s.dies := rfl
@[simp] theorem State.at_groups (s : State) (due prio : Nat) (ev : Instr) : (s.at due prio ev).groups = s.groups := rfl
@[simp] theorem State.at_contexts (s : State) (due prio : Nat) (ev : Instr) : (s.at due prio ev).contexts = s.contexts := rfl
@[simp] theorem State.at_phys (s : State) (due prio : Nat) (ev : Instr) : (s.at due prio ev).phys = s.phys := rfl
@[simp] theorem State.at_host (s : State) (due prio : Nat) (ev : Instr) : (s.at due prio ev).host = s.host := rfl
@[simp] theorem State.at_frameTags (s : State) (due prio : Nat) (ev : Instr) : (s.at due prio ev).frameTags = s.frameTags := rfl
@[simp] theorem State.at_frameOwner (s : State) (due prio : Nat) (ev : Instr) : (s.at due prio ev).frameOwner = s.frameOwner := rfl
@[simp] theorem State.at_granules (s : State) (due prio : Nat) (ev : Instr) : (s.at due prio ev).granules = s.granules := rfl
@[simp] theorem State.at_poison (s : State) (due prio : Nat) (ev : Instr) : (s.at due prio ev).poison = s.poison := rfl
@[simp] theorem State.at_handler (s : State) (due prio : Nat) (ev : Instr) : (s.at due prio ev).handler = s.handler := rfl
@[simp] theorem State.at_ops (s : State) (due prio : Nat) (ev : Instr) : (s.at due prio ev).ops = s.ops := rfl
@[simp] theorem State.at_reqThreads (s : State) (due prio : Nat) (ev : Instr) : (s.at due prio ev).reqThreads = s.reqThreads := rfl
@[simp] theorem State.at_sends (s : State) (due prio : Nat) (ev : Instr) : (s.at due prio ev).sends = s.sends := rfl
@[simp] theorem State.at_tlb (s : State) (due prio : Nat) (ev : Instr) : (s.at due prio ev).tlb = s.tlb := rfl
@[simp] theorem State.at_gen (s : State) (due prio : Nat) (ev : Instr) : (s.at due prio ev).gen = s.gen := rfl
@[simp] theorem State.at_hub (s : State) (due prio : Nat) (ev : Instr) : (s.at due prio ev).hub = s.hub := rfl
@[simp] theorem State.at_links (s : State) (due prio : Nat) (ev : Instr) : (s.at due prio ev).links = s.links := rfl
@[simp] theorem State.at_bins (s : State) (due prio : Nat) (ev : Instr) : (s.at due prio ev).bins = s.bins := rfl
@[simp] theorem State.at_passed (s : State) (due prio : Nat) (ev : Instr) : (s.at due prio ev).passed = s.passed := rfl
@[simp] theorem State.at_bindings (s : State) (due prio : Nat) (ev : Instr) : (s.at due prio ev).bindings = s.bindings := rfl
@[simp] theorem State.at_blockKeys (s : State) (due prio : Nat) (ev : Instr) : (s.at due prio ev).blockKeys = s.blockKeys := rfl
@[simp] theorem State.at_pages (s : State) (due prio : Nat) (ev : Instr) : (s.at due prio ev).pages = s.pages := rfl
@[simp] theorem State.at_binDue (s : State) (due prio : Nat) (ev : Instr) : (s.at due prio ev).binDue = s.binDue := rfl
@[simp] theorem State.at_coreAt (s : State) (due prio : Nat) (ev : Instr) (i : Nat) : (s.at due prio ev).coreAt i = s.coreAt i := rfl
@[simp] theorem State.at_clusterAt (s : State) (due prio : Nat) (ev : Instr) (i : Nat) : (s.at due prio ev).clusterAt i = s.clusterAt i := rfl
@[simp] theorem State.at_groupAt (s : State) (due prio : Nat) (ev : Instr) (i : Nat) : (s.at due prio ev).groupAt i = s.groupAt i := rfl
@[simp] theorem State.at_contextAt (s : State) (due prio : Nat) (ev : Instr) (i : Nat) : (s.at due prio ev).contextAt i = s.contextAt i := rfl
@[simp] theorem State.at_dieAt (s : State) (due prio : Nat) (ev : Instr) (i : Nat) : (s.at due prio ev).dieAt i = s.dieAt i := rfl
@[simp] theorem State.at_opAt (s : State) (due prio : Nat) (ev : Instr) (i : Nat) : (s.at due prio ev).opAt i = s.opAt i := rfl
@[simp] theorem State.at_reqAt (s : State) (due prio : Nat) (ev : Instr) (i : Nat) : (s.at due prio ev).reqAt i = s.reqAt i := rfl
@[simp] theorem State.at_linkAt (s : State) (due prio : Nat) (ev : Instr) (i : Nat) : (s.at due prio ev).linkAt i = s.linkAt i := rfl

@[simp] theorem State.cancel_now (s : State) (p : Instr → Bool) : (s.cancel p).now = s.now := rfl
@[simp] theorem State.cancel_todo (s : State) (p : Instr → Bool) : (s.cancel p).todo = s.todo := rfl
@[simp] theorem State.cancel_read (s : State) (p : Instr → Bool) : (s.cancel p).read = s.read := rfl
@[simp] theorem State.cancel_opened (s : State) (p : Instr → Bool) : (s.cancel p).opened = s.opened := rfl
@[simp] theorem State.cancel_closed (s : State) (p : Instr → Bool) : (s.cancel p).closed = s.closed := rfl
@[simp] theorem State.cancel_mappers (s : State) (p : Instr → Bool) : (s.cancel p).mappers = s.mappers := rfl
@[simp] theorem State.cancel_cur (s : State) (p : Instr → Bool) : (s.cancel p).cur = s.cur := rfl
@[simp] theorem State.cancel_fresh (s : State) (p : Instr → Bool) : (s.cancel p).fresh = s.fresh := rfl
@[simp] theorem State.cancel_cores (s : State) (p : Instr → Bool) : (s.cancel p).cores = s.cores := rfl
@[simp] theorem State.cancel_clusters (s : State) (p : Instr → Bool) : (s.cancel p).clusters = s.clusters := rfl
@[simp] theorem State.cancel_dies (s : State) (p : Instr → Bool) : (s.cancel p).dies = s.dies := rfl
@[simp] theorem State.cancel_groups (s : State) (p : Instr → Bool) : (s.cancel p).groups = s.groups := rfl
@[simp] theorem State.cancel_contexts (s : State) (p : Instr → Bool) : (s.cancel p).contexts = s.contexts := rfl
@[simp] theorem State.cancel_phys (s : State) (p : Instr → Bool) : (s.cancel p).phys = s.phys := rfl
@[simp] theorem State.cancel_host (s : State) (p : Instr → Bool) : (s.cancel p).host = s.host := rfl
@[simp] theorem State.cancel_frameTags (s : State) (p : Instr → Bool) : (s.cancel p).frameTags = s.frameTags := rfl
@[simp] theorem State.cancel_frameOwner (s : State) (p : Instr → Bool) : (s.cancel p).frameOwner = s.frameOwner := rfl
@[simp] theorem State.cancel_granules (s : State) (p : Instr → Bool) : (s.cancel p).granules = s.granules := rfl
@[simp] theorem State.cancel_poison (s : State) (p : Instr → Bool) : (s.cancel p).poison = s.poison := rfl
@[simp] theorem State.cancel_handler (s : State) (p : Instr → Bool) : (s.cancel p).handler = s.handler := rfl
@[simp] theorem State.cancel_ops (s : State) (p : Instr → Bool) : (s.cancel p).ops = s.ops := rfl
@[simp] theorem State.cancel_reqThreads (s : State) (p : Instr → Bool) : (s.cancel p).reqThreads = s.reqThreads := rfl
@[simp] theorem State.cancel_sends (s : State) (p : Instr → Bool) : (s.cancel p).sends = s.sends := rfl
@[simp] theorem State.cancel_tlb (s : State) (p : Instr → Bool) : (s.cancel p).tlb = s.tlb := rfl
@[simp] theorem State.cancel_gen (s : State) (p : Instr → Bool) : (s.cancel p).gen = s.gen := rfl
@[simp] theorem State.cancel_hub (s : State) (p : Instr → Bool) : (s.cancel p).hub = s.hub := rfl
@[simp] theorem State.cancel_links (s : State) (p : Instr → Bool) : (s.cancel p).links = s.links := rfl
@[simp] theorem State.cancel_bins (s : State) (p : Instr → Bool) : (s.cancel p).bins = s.bins := rfl
@[simp] theorem State.cancel_passed (s : State) (p : Instr → Bool) : (s.cancel p).passed = s.passed := rfl
@[simp] theorem State.cancel_bindings (s : State) (p : Instr → Bool) : (s.cancel p).bindings = s.bindings := rfl
@[simp] theorem State.cancel_blockKeys (s : State) (p : Instr → Bool) : (s.cancel p).blockKeys = s.blockKeys := rfl
@[simp] theorem State.cancel_pages (s : State) (p : Instr → Bool) : (s.cancel p).pages = s.pages := rfl
@[simp] theorem State.cancel_binDue (s : State) (p : Instr → Bool) : (s.cancel p).binDue = s.binDue := rfl
@[simp] theorem State.cancel_coreAt (s : State) (p : Instr → Bool) (i : Nat) : (s.cancel p).coreAt i = s.coreAt i := rfl
@[simp] theorem State.cancel_clusterAt (s : State) (p : Instr → Bool) (i : Nat) : (s.cancel p).clusterAt i = s.clusterAt i := rfl
@[simp] theorem State.cancel_groupAt (s : State) (p : Instr → Bool) (i : Nat) : (s.cancel p).groupAt i = s.groupAt i := rfl
@[simp] theorem State.cancel_contextAt (s : State) (p : Instr → Bool) (i : Nat) : (s.cancel p).contextAt i = s.contextAt i := rfl
@[simp] theorem State.cancel_dieAt (s : State) (p : Instr → Bool) (i : Nat) : (s.cancel p).dieAt i = s.dieAt i := rfl
@[simp] theorem State.cancel_opAt (s : State) (p : Instr → Bool) (i : Nat) : (s.cancel p).opAt i = s.opAt i := rfl
@[simp] theorem State.cancel_reqAt (s : State) (p : Instr → Bool) (i : Nat) : (s.cancel p).reqAt i = s.reqAt i := rfl
@[simp] theorem State.cancel_linkAt (s : State) (p : Instr → Bool) (i : Nat) : (s.cancel p).linkAt i = s.linkAt i := rfl

@[simp] theorem State.take_now (s : State) : s.take.2.now = s.now := rfl
@[simp] theorem State.take_agenda (s : State) : s.take.2.agenda = s.agenda := rfl
@[simp] theorem State.take_todo (s : State) : s.take.2.todo = s.todo := rfl
@[simp] theorem State.take_read (s : State) : s.take.2.read = s.read := rfl
@[simp] theorem State.take_opened (s : State) : s.take.2.opened = s.opened := rfl
@[simp] theorem State.take_closed (s : State) : s.take.2.closed = s.closed := rfl
@[simp] theorem State.take_mappers (s : State) : s.take.2.mappers = s.mappers := rfl
@[simp] theorem State.take_cur (s : State) : s.take.2.cur = s.cur := rfl
@[simp] theorem State.take_cores (s : State) : s.take.2.cores = s.cores := rfl
@[simp] theorem State.take_clusters (s : State) : s.take.2.clusters = s.clusters := rfl
@[simp] theorem State.take_dies (s : State) : s.take.2.dies = s.dies := rfl
@[simp] theorem State.take_groups (s : State) : s.take.2.groups = s.groups := rfl
@[simp] theorem State.take_contexts (s : State) : s.take.2.contexts = s.contexts := rfl
@[simp] theorem State.take_phys (s : State) : s.take.2.phys = s.phys := rfl
@[simp] theorem State.take_host (s : State) : s.take.2.host = s.host := rfl
@[simp] theorem State.take_frameTags (s : State) : s.take.2.frameTags = s.frameTags := rfl
@[simp] theorem State.take_frameOwner (s : State) : s.take.2.frameOwner = s.frameOwner := rfl
@[simp] theorem State.take_granules (s : State) : s.take.2.granules = s.granules := rfl
@[simp] theorem State.take_poison (s : State) : s.take.2.poison = s.poison := rfl
@[simp] theorem State.take_handler (s : State) : s.take.2.handler = s.handler := rfl
@[simp] theorem State.take_ops (s : State) : s.take.2.ops = s.ops := rfl
@[simp] theorem State.take_reqThreads (s : State) : s.take.2.reqThreads = s.reqThreads := rfl
@[simp] theorem State.take_sends (s : State) : s.take.2.sends = s.sends := rfl
@[simp] theorem State.take_tlb (s : State) : s.take.2.tlb = s.tlb := rfl
@[simp] theorem State.take_gen (s : State) : s.take.2.gen = s.gen := rfl
@[simp] theorem State.take_hub (s : State) : s.take.2.hub = s.hub := rfl
@[simp] theorem State.take_links (s : State) : s.take.2.links = s.links := rfl
@[simp] theorem State.take_bins (s : State) : s.take.2.bins = s.bins := rfl
@[simp] theorem State.take_passed (s : State) : s.take.2.passed = s.passed := rfl
@[simp] theorem State.take_bindings (s : State) : s.take.2.bindings = s.bindings := rfl
@[simp] theorem State.take_blockKeys (s : State) : s.take.2.blockKeys = s.blockKeys := rfl
@[simp] theorem State.take_pages (s : State) : s.take.2.pages = s.pages := rfl
@[simp] theorem State.take_binDue (s : State) : s.take.2.binDue = s.binDue := rfl
@[simp] theorem State.take_coreAt (s : State) (i : Nat) : s.take.2.coreAt i = s.coreAt i := rfl
@[simp] theorem State.take_clusterAt (s : State) (i : Nat) : s.take.2.clusterAt i = s.clusterAt i := rfl
@[simp] theorem State.take_groupAt (s : State) (i : Nat) : s.take.2.groupAt i = s.groupAt i := rfl
@[simp] theorem State.take_contextAt (s : State) (i : Nat) : s.take.2.contextAt i = s.contextAt i := rfl
@[simp] theorem State.take_dieAt (s : State) (i : Nat) : s.take.2.dieAt i = s.dieAt i := rfl
@[simp] theorem State.take_opAt (s : State) (i : Nat) : s.take.2.opAt i = s.opAt i := rfl
@[simp] theorem State.take_reqAt (s : State) (i : Nat) : s.take.2.reqAt i = s.reqAt i := rfl
@[simp] theorem State.take_linkAt (s : State) (i : Nat) : s.take.2.linkAt i = s.linkAt i := rfl
@[simp] theorem State.take_fresh (s : State) : s.take.2.fresh = s.fresh + 1 := rfl

@[simp] theorem State.delay_now (s : State) : s.delay.2.now = s.now := rfl
@[simp] theorem State.delay_agenda (s : State) : s.delay.2.agenda = s.agenda := rfl
@[simp] theorem State.delay_todo (s : State) : s.delay.2.todo = s.todo := rfl
@[simp] theorem State.delay_read (s : State) : s.delay.2.read = s.read := rfl
@[simp] theorem State.delay_opened (s : State) : s.delay.2.opened = s.opened := rfl
@[simp] theorem State.delay_closed (s : State) : s.delay.2.closed = s.closed := rfl
@[simp] theorem State.delay_mappers (s : State) : s.delay.2.mappers = s.mappers := rfl
@[simp] theorem State.delay_cur (s : State) : s.delay.2.cur = s.cur := rfl
@[simp] theorem State.delay_cores (s : State) : s.delay.2.cores = s.cores := rfl
@[simp] theorem State.delay_clusters (s : State) : s.delay.2.clusters = s.clusters := rfl
@[simp] theorem State.delay_dies (s : State) : s.delay.2.dies = s.dies := rfl
@[simp] theorem State.delay_groups (s : State) : s.delay.2.groups = s.groups := rfl
@[simp] theorem State.delay_contexts (s : State) : s.delay.2.contexts = s.contexts := rfl
@[simp] theorem State.delay_phys (s : State) : s.delay.2.phys = s.phys := rfl
@[simp] theorem State.delay_host (s : State) : s.delay.2.host = s.host := rfl
@[simp] theorem State.delay_frameTags (s : State) : s.delay.2.frameTags = s.frameTags := rfl
@[simp] theorem State.delay_frameOwner (s : State) : s.delay.2.frameOwner = s.frameOwner := rfl
@[simp] theorem State.delay_granules (s : State) : s.delay.2.granules = s.granules := rfl
@[simp] theorem State.delay_poison (s : State) : s.delay.2.poison = s.poison := rfl
@[simp] theorem State.delay_handler (s : State) : s.delay.2.handler = s.handler := rfl
@[simp] theorem State.delay_ops (s : State) : s.delay.2.ops = s.ops := rfl
@[simp] theorem State.delay_reqThreads (s : State) : s.delay.2.reqThreads = s.reqThreads := rfl
@[simp] theorem State.delay_sends (s : State) : s.delay.2.sends = s.sends := rfl
@[simp] theorem State.delay_tlb (s : State) : s.delay.2.tlb = s.tlb := rfl
@[simp] theorem State.delay_gen (s : State) : s.delay.2.gen = s.gen := rfl
@[simp] theorem State.delay_hub (s : State) : s.delay.2.hub = s.hub := rfl
@[simp] theorem State.delay_links (s : State) : s.delay.2.links = s.links := rfl
@[simp] theorem State.delay_bins (s : State) : s.delay.2.bins = s.bins := rfl
@[simp] theorem State.delay_passed (s : State) : s.delay.2.passed = s.passed := rfl
@[simp] theorem State.delay_bindings (s : State) : s.delay.2.bindings = s.bindings := rfl
@[simp] theorem State.delay_blockKeys (s : State) : s.delay.2.blockKeys = s.blockKeys := rfl
@[simp] theorem State.delay_pages (s : State) : s.delay.2.pages = s.pages := rfl
@[simp] theorem State.delay_binDue (s : State) : s.delay.2.binDue = s.binDue := rfl
@[simp] theorem State.delay_coreAt (s : State) (i : Nat) : s.delay.2.coreAt i = s.coreAt i := rfl
@[simp] theorem State.delay_clusterAt (s : State) (i : Nat) : s.delay.2.clusterAt i = s.clusterAt i := rfl
@[simp] theorem State.delay_groupAt (s : State) (i : Nat) : s.delay.2.groupAt i = s.groupAt i := rfl
@[simp] theorem State.delay_contextAt (s : State) (i : Nat) : s.delay.2.contextAt i = s.contextAt i := rfl
@[simp] theorem State.delay_dieAt (s : State) (i : Nat) : s.delay.2.dieAt i = s.dieAt i := rfl
@[simp] theorem State.delay_opAt (s : State) (i : Nat) : s.delay.2.opAt i = s.opAt i := rfl
@[simp] theorem State.delay_reqAt (s : State) (i : Nat) : s.delay.2.reqAt i = s.reqAt i := rfl
@[simp] theorem State.delay_linkAt (s : State) (i : Nat) : s.delay.2.linkAt i = s.linkAt i := rfl
@[simp] theorem State.delay_fresh (s : State) : s.delay.2.fresh = s.fresh + 1 := rfl

@[simp] theorem State.free_now (s : State) : s.free.2.now = s.now := rfl
@[simp] theorem State.free_agenda (s : State) : s.free.2.agenda = s.agenda := rfl
@[simp] theorem State.free_todo (s : State) : s.free.2.todo = s.todo := rfl
@[simp] theorem State.free_read (s : State) : s.free.2.read = s.read := rfl
@[simp] theorem State.free_opened (s : State) : s.free.2.opened = s.opened := rfl
@[simp] theorem State.free_closed (s : State) : s.free.2.closed = s.closed := rfl
@[simp] theorem State.free_mappers (s : State) : s.free.2.mappers = s.mappers := rfl
@[simp] theorem State.free_cur (s : State) : s.free.2.cur = s.cur := rfl
@[simp] theorem State.free_cores (s : State) : s.free.2.cores = s.cores := rfl
@[simp] theorem State.free_clusters (s : State) : s.free.2.clusters = s.clusters := rfl
@[simp] theorem State.free_dies (s : State) : s.free.2.dies = s.dies := rfl
@[simp] theorem State.free_groups (s : State) : s.free.2.groups = s.groups := rfl
@[simp] theorem State.free_contexts (s : State) : s.free.2.contexts = s.contexts := rfl
@[simp] theorem State.free_phys (s : State) : s.free.2.phys = s.phys := rfl
@[simp] theorem State.free_host (s : State) : s.free.2.host = s.host := rfl
@[simp] theorem State.free_frameTags (s : State) : s.free.2.frameTags = s.frameTags := rfl
@[simp] theorem State.free_frameOwner (s : State) : s.free.2.frameOwner = s.frameOwner := rfl
@[simp] theorem State.free_granules (s : State) : s.free.2.granules = s.granules := rfl
@[simp] theorem State.free_poison (s : State) : s.free.2.poison = s.poison := rfl
@[simp] theorem State.free_handler (s : State) : s.free.2.handler = s.handler := rfl
@[simp] theorem State.free_ops (s : State) : s.free.2.ops = s.ops := rfl
@[simp] theorem State.free_reqThreads (s : State) : s.free.2.reqThreads = s.reqThreads := rfl
@[simp] theorem State.free_sends (s : State) : s.free.2.sends = s.sends := rfl
@[simp] theorem State.free_tlb (s : State) : s.free.2.tlb = s.tlb := rfl
@[simp] theorem State.free_gen (s : State) : s.free.2.gen = s.gen := rfl
@[simp] theorem State.free_hub (s : State) : s.free.2.hub = s.hub := rfl
@[simp] theorem State.free_links (s : State) : s.free.2.links = s.links := rfl
@[simp] theorem State.free_bins (s : State) : s.free.2.bins = s.bins := rfl
@[simp] theorem State.free_passed (s : State) : s.free.2.passed = s.passed := rfl
@[simp] theorem State.free_bindings (s : State) : s.free.2.bindings = s.bindings := rfl
@[simp] theorem State.free_blockKeys (s : State) : s.free.2.blockKeys = s.blockKeys := rfl
@[simp] theorem State.free_pages (s : State) : s.free.2.pages = s.pages := rfl
@[simp] theorem State.free_binDue (s : State) : s.free.2.binDue = s.binDue := rfl
@[simp] theorem State.free_coreAt (s : State) (i : Nat) : s.free.2.coreAt i = s.coreAt i := rfl
@[simp] theorem State.free_clusterAt (s : State) (i : Nat) : s.free.2.clusterAt i = s.clusterAt i := rfl
@[simp] theorem State.free_groupAt (s : State) (i : Nat) : s.free.2.groupAt i = s.groupAt i := rfl
@[simp] theorem State.free_contextAt (s : State) (i : Nat) : s.free.2.contextAt i = s.contextAt i := rfl
@[simp] theorem State.free_dieAt (s : State) (i : Nat) : s.free.2.dieAt i = s.dieAt i := rfl
@[simp] theorem State.free_opAt (s : State) (i : Nat) : s.free.2.opAt i = s.opAt i := rfl
@[simp] theorem State.free_reqAt (s : State) (i : Nat) : s.free.2.reqAt i = s.reqAt i := rfl
@[simp] theorem State.free_linkAt (s : State) (i : Nat) : s.free.2.linkAt i = s.linkAt i := rfl
@[simp] theorem State.free_fresh (s : State) : s.free.2.fresh = s.fresh + 1 := rfl

@[simp] theorem State.take_fst (s : State) : s.take.1 = s.fresh := rfl

/-! One thread of a core. -/

@[simp] theorem Core.setThread_grp (k : Core) (t : Nat) (th : Thread) : (k.setThread t th).grp = k.grp := rfl
@[simp] theorem Core.setThread_core (k : Core) (t : Nat) (th : Thread) : (k.setThread t th).core = k.core := rfl
@[simp] theorem Core.setThread_clus (k : Core) (t : Nat) (th : Thread) : (k.setThread t th).clus = k.clus := rfl
@[simp] theorem Core.setThread_stk (k : Core) (t : Nat) (th : Thread) : (k.setThread t th).stk = k.stk := rfl
@[simp] theorem Core.setThread_stg (k : Core) (t : Nat) (th : Thread) : (k.setThread t th).stg = k.stg := rfl
@[simp] theorem Core.setThread_gang (k : Core) (t : Nat) (th : Thread) : (k.setThread t th).gang = k.gang := rfl
@[simp] theorem Core.setThread_mem (k : Core) (t : Nat) (th : Thread) : (k.setThread t th).mem = k.mem := rfl
@[simp] theorem Core.setThread_held (k : Core) (t : Nat) (th : Thread) : (k.setThread t th).held = k.held := rfl
@[simp] theorem Core.setThread_pend (k : Core) (t : Nat) (th : Thread) : (k.setThread t th).pend = k.pend := rfl
@[simp] theorem Core.setThread_banks (k : Core) (t : Nat) (th : Thread) : (k.setThread t th).banks = k.banks := rfl
@[simp] theorem Core.setThread_reqs (k : Core) (t : Nat) (th : Thread) : (k.setThread t th).reqs = k.reqs := rfl
@[simp] theorem Core.setThread_served (k : Core) (t : Nat) (th : Thread) : (k.setThread t th).served = k.served := rfl
@[simp] theorem Core.setThread_acc (k : Core) (t : Nat) (th : Thread) : (k.setThread t th).acc = k.acc := rfl
@[simp] theorem Core.setThread_tags (k : Core) (t : Nat) (th : Thread) : (k.setThread t th).tags = k.tags := rfl
@[simp] theorem Core.setThread_armed (k : Core) (t : Nat) (th : Thread) : (k.setThread t th).armed = k.armed := rfl
@[simp] theorem Core.setThread_freed (k : Core) (t : Nat) (th : Thread) : (k.setThread t th).freed = k.freed := rfl
@[simp] theorem Core.setThread_tiles (k : Core) (t : Nat) (th : Thread) : (k.setThread t th).tiles = k.tiles := rfl
@[simp] theorem Core.setThread_engs (k : Core) (t : Nat) (th : Thread) : (k.setThread t th).engs = k.engs := rfl
@[simp] theorem Core.setThread_vecs (k : Core) (t : Nat) (th : Thread) : (k.setThread t th).vecs = k.vecs := rfl
@[simp] theorem Core.setThread_dcol (k : Core) (t : Nat) (th : Thread) : (k.setThread t th).dcol = k.dcol := rfl
@[simp] theorem Core.setThread_arv (k : Core) (t : Nat) (th : Thread) : (k.setThread t th).arv = k.arv := rfl
@[simp] theorem Core.setThread_en (k : Core) (t : Nat) (th : Thread) : (k.setThread t th).en = k.en := rfl
@[simp] theorem Core.setThread_enNext (k : Core) (t : Nat) (th : Thread) : (k.setThread t th).enNext = k.enNext := rfl
@[simp] theorem Core.setThread_owed (k : Core) (t : Nat) (th : Thread) : (k.setThread t th).owed = k.owed := rfl
@[simp] theorem Core.setThread_depLand (k : Core) (t : Nat) (th : Thread) : (k.setThread t th).depLand = k.depLand := rfl
@[simp] theorem Core.setThread_sz (k : Core) (t : Nat) (th : Thread) : (k.setThread t th).sz = k.sz := rfl
@[simp] theorem Core.setThread_budg (k : Core) (t : Nat) (th : Thread) : (k.setThread t th).budg = k.budg := rfl
@[simp] theorem Core.setThread_allow (k : Core) (t : Nat) (th : Thread) : (k.setThread t th).allow = k.allow := rfl
@[simp] theorem Core.setThread_wchk (k : Core) (t : Nat) (th : Thread) : (k.setThread t th).wchk = k.wchk := rfl
@[simp] theorem Core.setThread_grant (k : Core) (t : Nat) (th : Thread) : (k.setThread t th).grant = k.grant := rfl
@[simp] theorem Core.setThread_issuedAt (k : Core) (t : Nat) (th : Thread) : (k.setThread t th).issuedAt = k.issuedAt := rfl
@[simp] theorem Core.setThread_tried (k : Core) (t : Nat) (th : Thread) : (k.setThread t th).tried = k.tried := rfl
@[simp] theorem Core.setThread_tvec (k : Core) (t : Nat) (th : Thread) : (k.setThread t th).tvec = k.tvec := rfl
@[simp] theorem Core.setThread_cause (k : Core) (t : Nat) (th : Thread) : (k.setThread t th).cause = k.cause := rfl
@[simp] theorem Core.setThread_epcw (k : Core) (t : Nat) (th : Thread) : (k.setThread t th).epcw = k.epcw := rfl
@[simp] theorem Core.setThread_inTrap (k : Core) (t : Nat) (th : Thread) : (k.setThread t th).inTrap = k.inTrap := rfl
@[simp] theorem Core.setThread_sbs (k : Core) (t : Nat) (th : Thread) : (k.setThread t th).sbs = k.sbs := rfl
@[simp] theorem Core.setThread_guard (k : Core) (t : Nat) (th : Thread) : (k.setThread t th).guard = k.guard := rfl
@[simp] theorem Core.setThread_caps (k : Core) (t : Nat) (th : Thread) : (k.setThread t th).caps = k.caps := rfl
@[simp] theorem Core.setThread_lend (k : Core) (t : Nat) (th : Thread) : (k.setThread t th).lend = k.lend := rfl
@[simp] theorem Core.setThread_merge (k : Core) (t : Nat) (th : Thread) : (k.setThread t th).merge = k.merge := rfl
@[simp] theorem Core.setThread_burin (k : Core) (t : Nat) (th : Thread) : (k.setThread t th).burin = k.burin := rfl
@[simp] theorem Core.setThread_inj (k : Core) (t : Nat) (th : Thread) : (k.setThread t th).inj = k.inj := rfl
@[simp] theorem Core.setThread_rot (k : Core) (t : Nat) (th : Thread) : (k.setThread t th).rot = k.rot := rfl
@[simp] theorem Core.setThread_state (k : Core) (t : Nat) (th : Thread) : (k.setThread t th).state = k.state := rfl
@[simp] theorem Core.setThread_xputs (k : Core) (t : Nat) (th : Thread) : (k.setThread t th).xputs = k.xputs := rfl
@[simp] theorem Core.setThread_rels (k : Core) (t : Nat) (th : Thread) : (k.setThread t th).rels = k.rels := rfl
@[simp] theorem Core.setThread_xtotal (k : Core) (t : Nat) (th : Thread) : (k.setThread t th).xtotal = k.xtotal := rfl
@[simp] theorem Core.setThread_logged (k : Core) (t : Nat) (th : Thread) : (k.setThread t th).logged = k.logged := rfl
@[simp] theorem Core.setThread_finished (k : Core) (t : Nat) (th : Thread) : (k.setThread t th).finished = k.finished := rfl
@[simp] theorem Core.setThread_replays (k : Core) (t : Nat) (th : Thread) : (k.setThread t th).replays = k.replays := rfl
@[simp] theorem Core.setThread_spent (k : Core) (t : Nat) (th : Thread) : (k.setThread t th).spent = k.spent := rfl
@[simp] theorem Core.setThread_real (k : Core) (t : Nat) (th : Thread) : (k.setThread t th).real = k.real := rfl
@[simp] theorem Core.setThread_poison (k : Core) (t : Nat) (th : Thread) : (k.setThread t th).poison = k.poison := rfl
@[simp] theorem Core.setThread_thread_same (k : Core) (t : Nat) (th : Thread) : (k.setThread t th).thread t = th := SMap.get_put_same _ _ _ _
theorem Core.setThread_thread_other (k : Core) (t i : Nat) (th : Thread) (h : i ≠ t) : (k.setThread t th).thread i = k.thread i :=
  SMap.get_put_other _ _ _ _ _ h

/-! Registers. -/

@[simp] theorem Thread.writeN_stat (th : Thread) (r : Nat) (v : Word) : (th.writeN r v).stat = th.stat := rfl
@[simp] theorem Thread.writeN_q (th : Thread) (r : Nat) (v : Word) : (th.writeN r v).q = th.q := rfl
@[simp] theorem Thread.writeN_a (th : Thread) (r : Nat) (v : Word) : (th.writeN r v).a = th.a := rfl
@[simp] theorem Thread.writeN_p (th : Thread) (r : Nat) (v : Word) : (th.writeN r v).p = th.p := rfl
@[simp] theorem Thread.writeN_fflg (th : Thread) (r : Nat) (v : Word) : (th.writeN r v).fflg = th.fflg := rfl
@[simp] theorem Thread.writeN_vl (th : Thread) (r : Nat) (v : Word) : (th.writeN r v).vl = th.vl := rfl
@[simp] theorem Thread.writeN_pc (th : Thread) (r : Nat) (v : Word) : (th.writeN r v).pc = th.pc := rfl
@[simp] theorem Thread.writeN_waiting (th : Thread) (r : Nat) (v : Word) : (th.writeN r v).waiting = th.waiting := rfl
@[simp] theorem Thread.writeN_waitOn (th : Thread) (r : Nat) (v : Word) : (th.writeN r v).waitOn = th.waitOn := rfl
@[simp] theorem Thread.writeN_notBefore (th : Thread) (r : Nat) (v : Word) : (th.writeN r v).notBefore = th.notBefore := rfl
@[simp] theorem Thread.writeN_anchor (th : Thread) (r : Nat) (v : Word) : (th.writeN r v).anchor = th.anchor := rfl
@[simp] theorem Thread.writeN_anchorK (th : Thread) (r : Nat) (v : Word) : (th.writeN r v).anchorK = th.anchorK := rfl
@[simp] theorem Thread.writeN_fresh (th : Thread) (r : Nat) (v : Word) : (th.writeN r v).fresh = th.fresh := rfl
@[simp] theorem Thread.writeN_seg (th : Thread) (r : Nat) (v : Word) : (th.writeN r v).seg = th.seg := rfl
@[simp] theorem Thread.writeN_anchorDom (th : Thread) (r : Nat) (v : Word) : (th.writeN r v).anchorDom = th.anchorDom := rfl
@[simp] theorem Thread.writeN_prev (th : Thread) (r : Nat) (v : Word) : (th.writeN r v).prev = th.prev := rfl
@[simp] theorem Thread.writeN_dueAt (th : Thread) (r : Nat) (v : Word) : (th.writeN r v).dueAt = th.dueAt := rfl
@[simp] theorem Thread.writeN_openTo (th : Thread) (r : Nat) (v : Word) : (th.writeN r v).openTo = th.openTo := rfl
@[simp] theorem Thread.writeN_flight (th : Thread) (r : Nat) (v : Word) : (th.writeN r v).flight = th.flight := rfl
@[simp] theorem Thread.writeN_unsealed (th : Thread) (r : Nat) (v : Word) : (th.writeN r v).unsealed = th.unsealed := rfl
@[simp] theorem Thread.writeN_batches (th : Thread) (r : Nat) (v : Word) : (th.writeN r v).batches = th.batches := rfl
@[simp] theorem Thread.writeN_nextBatch (th : Thread) (r : Nat) (v : Word) : (th.writeN r v).nextBatch = th.nextBatch := rfl
@[simp] theorem Thread.writeN_msgs (th : Thread) (r : Nat) (v : Word) : (th.writeN r v).msgs = th.msgs := rfl
@[simp] theorem Thread.writeN_fences (th : Thread) (r : Nat) (v : Word) : (th.writeN r v).fences = th.fences := rfl
@[simp] theorem Thread.writeN_restart (th : Thread) (r : Nat) (v : Word) : (th.writeN r v).restart = th.restart := rfl
@[simp] theorem Thread.writeN_restarts (th : Thread) (r : Nat) (v : Word) : (th.writeN r v).restarts = th.restarts := rfl
@[simp] theorem Thread.writeN_trap (th : Thread) (r : Nat) (v : Word) : (th.writeN r v).trap = th.trap := rfl

@[simp] theorem Thread.writeA_stat (th : Thread) (r : Nat) (v : Ptr) : (th.writeA r v).stat = th.stat := rfl
@[simp] theorem Thread.writeA_n (th : Thread) (r : Nat) (v : Ptr) : (th.writeA r v).n = th.n := rfl
@[simp] theorem Thread.writeA_q (th : Thread) (r : Nat) (v : Ptr) : (th.writeA r v).q = th.q := rfl
@[simp] theorem Thread.writeA_p (th : Thread) (r : Nat) (v : Ptr) : (th.writeA r v).p = th.p := rfl
@[simp] theorem Thread.writeA_fflg (th : Thread) (r : Nat) (v : Ptr) : (th.writeA r v).fflg = th.fflg := rfl
@[simp] theorem Thread.writeA_vl (th : Thread) (r : Nat) (v : Ptr) : (th.writeA r v).vl = th.vl := rfl
@[simp] theorem Thread.writeA_pc (th : Thread) (r : Nat) (v : Ptr) : (th.writeA r v).pc = th.pc := rfl
@[simp] theorem Thread.writeA_waiting (th : Thread) (r : Nat) (v : Ptr) : (th.writeA r v).waiting = th.waiting := rfl
@[simp] theorem Thread.writeA_waitOn (th : Thread) (r : Nat) (v : Ptr) : (th.writeA r v).waitOn = th.waitOn := rfl
@[simp] theorem Thread.writeA_notBefore (th : Thread) (r : Nat) (v : Ptr) : (th.writeA r v).notBefore = th.notBefore := rfl
@[simp] theorem Thread.writeA_anchor (th : Thread) (r : Nat) (v : Ptr) : (th.writeA r v).anchor = th.anchor := rfl
@[simp] theorem Thread.writeA_anchorK (th : Thread) (r : Nat) (v : Ptr) : (th.writeA r v).anchorK = th.anchorK := rfl
@[simp] theorem Thread.writeA_fresh (th : Thread) (r : Nat) (v : Ptr) : (th.writeA r v).fresh = th.fresh := rfl
@[simp] theorem Thread.writeA_seg (th : Thread) (r : Nat) (v : Ptr) : (th.writeA r v).seg = th.seg := rfl
@[simp] theorem Thread.writeA_anchorDom (th : Thread) (r : Nat) (v : Ptr) : (th.writeA r v).anchorDom = th.anchorDom := rfl
@[simp] theorem Thread.writeA_prev (th : Thread) (r : Nat) (v : Ptr) : (th.writeA r v).prev = th.prev := rfl
@[simp] theorem Thread.writeA_dueAt (th : Thread) (r : Nat) (v : Ptr) : (th.writeA r v).dueAt = th.dueAt := rfl
@[simp] theorem Thread.writeA_openTo (th : Thread) (r : Nat) (v : Ptr) : (th.writeA r v).openTo = th.openTo := rfl
@[simp] theorem Thread.writeA_flight (th : Thread) (r : Nat) (v : Ptr) : (th.writeA r v).flight = th.flight := rfl
@[simp] theorem Thread.writeA_unsealed (th : Thread) (r : Nat) (v : Ptr) : (th.writeA r v).unsealed = th.unsealed := rfl
@[simp] theorem Thread.writeA_batches (th : Thread) (r : Nat) (v : Ptr) : (th.writeA r v).batches = th.batches := rfl
@[simp] theorem Thread.writeA_nextBatch (th : Thread) (r : Nat) (v : Ptr) : (th.writeA r v).nextBatch = th.nextBatch := rfl
@[simp] theorem Thread.writeA_msgs (th : Thread) (r : Nat) (v : Ptr) : (th.writeA r v).msgs = th.msgs := rfl
@[simp] theorem Thread.writeA_fences (th : Thread) (r : Nat) (v : Ptr) : (th.writeA r v).fences = th.fences := rfl
@[simp] theorem Thread.writeA_restart (th : Thread) (r : Nat) (v : Ptr) : (th.writeA r v).restart = th.restart := rfl
@[simp] theorem Thread.writeA_restarts (th : Thread) (r : Nat) (v : Ptr) : (th.writeA r v).restarts = th.restarts := rfl
@[simp] theorem Thread.writeA_trap (th : Thread) (r : Nat) (v : Ptr) : (th.writeA r v).trap = th.trap := rfl

@[simp] theorem Thread.pushQ_stat (th : Thread) (v : Word) : (th.pushQ v).stat = th.stat := rfl
@[simp] theorem Thread.pushQ_n (th : Thread) (v : Word) : (th.pushQ v).n = th.n := rfl
@[simp] theorem Thread.pushQ_a (th : Thread) (v : Word) : (th.pushQ v).a = th.a := rfl
@[simp] theorem Thread.pushQ_p (th : Thread) (v : Word) : (th.pushQ v).p = th.p := rfl
@[simp] theorem Thread.pushQ_fflg (th : Thread) (v : Word) : (th.pushQ v).fflg = th.fflg := rfl
@[simp] theorem Thread.pushQ_vl (th : Thread) (v : Word) : (th.pushQ v).vl = th.vl := rfl
@[simp] theorem Thread.pushQ_pc (th : Thread) (v : Word) : (th.pushQ v).pc = th.pc := rfl
@[simp] theorem Thread.pushQ_waiting (th : Thread) (v : Word) : (th.pushQ v).waiting = th.waiting := rfl
@[simp] theorem Thread.pushQ_waitOn (th : Thread) (v : Word) : (th.pushQ v).waitOn = th.waitOn := rfl
@[simp] theorem Thread.pushQ_notBefore (th : Thread) (v : Word) : (th.pushQ v).notBefore = th.notBefore := rfl
@[simp] theorem Thread.pushQ_anchor (th : Thread) (v : Word) : (th.pushQ v).anchor = th.anchor := rfl
@[simp] theorem Thread.pushQ_anchorK (th : Thread) (v : Word) : (th.pushQ v).anchorK = th.anchorK := rfl
@[simp] theorem Thread.pushQ_fresh (th : Thread) (v : Word) : (th.pushQ v).fresh = th.fresh := rfl
@[simp] theorem Thread.pushQ_seg (th : Thread) (v : Word) : (th.pushQ v).seg = th.seg := rfl
@[simp] theorem Thread.pushQ_anchorDom (th : Thread) (v : Word) : (th.pushQ v).anchorDom = th.anchorDom := rfl
@[simp] theorem Thread.pushQ_prev (th : Thread) (v : Word) : (th.pushQ v).prev = th.prev := rfl
@[simp] theorem Thread.pushQ_dueAt (th : Thread) (v : Word) : (th.pushQ v).dueAt = th.dueAt := rfl
@[simp] theorem Thread.pushQ_openTo (th : Thread) (v : Word) : (th.pushQ v).openTo = th.openTo := rfl
@[simp] theorem Thread.pushQ_flight (th : Thread) (v : Word) : (th.pushQ v).flight = th.flight := rfl
@[simp] theorem Thread.pushQ_unsealed (th : Thread) (v : Word) : (th.pushQ v).unsealed = th.unsealed := rfl
@[simp] theorem Thread.pushQ_batches (th : Thread) (v : Word) : (th.pushQ v).batches = th.batches := rfl
@[simp] theorem Thread.pushQ_nextBatch (th : Thread) (v : Word) : (th.pushQ v).nextBatch = th.nextBatch := rfl
@[simp] theorem Thread.pushQ_msgs (th : Thread) (v : Word) : (th.pushQ v).msgs = th.msgs := rfl
@[simp] theorem Thread.pushQ_fences (th : Thread) (v : Word) : (th.pushQ v).fences = th.fences := rfl
@[simp] theorem Thread.pushQ_restart (th : Thread) (v : Word) : (th.pushQ v).restart = th.restart := rfl
@[simp] theorem Thread.pushQ_restarts (th : Thread) (v : Word) : (th.pushQ v).restarts = th.restarts := rfl
@[simp] theorem Thread.pushQ_trap (th : Thread) (v : Word) : (th.pushQ v).trap = th.trap := rfl

@[simp] theorem Thread.raise_stat (th : Thread) (v : BitVec 8) : (th.raise v).stat = th.stat := rfl
@[simp] theorem Thread.raise_n (th : Thread) (v : BitVec 8) : (th.raise v).n = th.n := rfl
@[simp] theorem Thread.raise_q (th : Thread) (v : BitVec 8) : (th.raise v).q = th.q := rfl
@[simp] theorem Thread.raise_a (th : Thread) (v : BitVec 8) : (th.raise v).a = th.a := rfl
@[simp] theorem Thread.raise_p (th : Thread) (v : BitVec 8) : (th.raise v).p = th.p := rfl
@[simp] theorem Thread.raise_vl (th : Thread) (v : BitVec 8) : (th.raise v).vl = th.vl := rfl
@[simp] theorem Thread.raise_pc (th : Thread) (v : BitVec 8) : (th.raise v).pc = th.pc := rfl
@[simp] theorem Thread.raise_waiting (th : Thread) (v : BitVec 8) : (th.raise v).waiting = th.waiting := rfl
@[simp] theorem Thread.raise_waitOn (th : Thread) (v : BitVec 8) : (th.raise v).waitOn = th.waitOn := rfl
@[simp] theorem Thread.raise_notBefore (th : Thread) (v : BitVec 8) : (th.raise v).notBefore = th.notBefore := rfl
@[simp] theorem Thread.raise_anchor (th : Thread) (v : BitVec 8) : (th.raise v).anchor = th.anchor := rfl
@[simp] theorem Thread.raise_anchorK (th : Thread) (v : BitVec 8) : (th.raise v).anchorK = th.anchorK := rfl
@[simp] theorem Thread.raise_fresh (th : Thread) (v : BitVec 8) : (th.raise v).fresh = th.fresh := rfl
@[simp] theorem Thread.raise_seg (th : Thread) (v : BitVec 8) : (th.raise v).seg = th.seg := rfl
@[simp] theorem Thread.raise_anchorDom (th : Thread) (v : BitVec 8) : (th.raise v).anchorDom = th.anchorDom := rfl
@[simp] theorem Thread.raise_prev (th : Thread) (v : BitVec 8) : (th.raise v).prev = th.prev := rfl
@[simp] theorem Thread.raise_dueAt (th : Thread) (v : BitVec 8) : (th.raise v).dueAt = th.dueAt := rfl
@[simp] theorem Thread.raise_openTo (th : Thread) (v : BitVec 8) : (th.raise v).openTo = th.openTo := rfl
@[simp] theorem Thread.raise_flight (th : Thread) (v : BitVec 8) : (th.raise v).flight = th.flight := rfl
@[simp] theorem Thread.raise_unsealed (th : Thread) (v : BitVec 8) : (th.raise v).unsealed = th.unsealed := rfl
@[simp] theorem Thread.raise_batches (th : Thread) (v : BitVec 8) : (th.raise v).batches = th.batches := rfl
@[simp] theorem Thread.raise_nextBatch (th : Thread) (v : BitVec 8) : (th.raise v).nextBatch = th.nextBatch := rfl
@[simp] theorem Thread.raise_msgs (th : Thread) (v : BitVec 8) : (th.raise v).msgs = th.msgs := rfl
@[simp] theorem Thread.raise_fences (th : Thread) (v : BitVec 8) : (th.raise v).fences = th.fences := rfl
@[simp] theorem Thread.raise_restart (th : Thread) (v : BitVec 8) : (th.raise v).restart = th.restart := rfl
@[simp] theorem Thread.raise_restarts (th : Thread) (v : BitVec 8) : (th.raise v).restarts = th.restarts := rfl
@[simp] theorem Thread.raise_trap (th : Thread) (v : BitVec 8) : (th.raise v).trap = th.trap := rfl

@[simp] theorem Thread.writeP_stat (th : Thread) (r : Nat) (v : Bool) : (th.writeP r v).stat = th.stat := by
  unfold Thread.writeP; split <;> rfl
@[simp] theorem Thread.writeP_n (th : Thread) (r : Nat) (v : Bool) : (th.writeP r v).n = th.n := by
  unfold Thread.writeP; split <;> rfl
@[simp] theorem Thread.writeP_q (th : Thread) (r : Nat) (v : Bool) : (th.writeP r v).q = th.q := by
  unfold Thread.writeP; split <;> rfl
@[simp] theorem Thread.writeP_a (th : Thread) (r : Nat) (v : Bool) : (th.writeP r v).a = th.a := by
  unfold Thread.writeP; split <;> rfl
@[simp] theorem Thread.writeP_fflg (th : Thread) (r : Nat) (v : Bool) : (th.writeP r v).fflg = th.fflg := by
  unfold Thread.writeP; split <;> rfl
@[simp] theorem Thread.writeP_vl (th : Thread) (r : Nat) (v : Bool) : (th.writeP r v).vl = th.vl := by
  unfold Thread.writeP; split <;> rfl
@[simp] theorem Thread.writeP_pc (th : Thread) (r : Nat) (v : Bool) : (th.writeP r v).pc = th.pc := by
  unfold Thread.writeP; split <;> rfl
@[simp] theorem Thread.writeP_waiting (th : Thread) (r : Nat) (v : Bool) : (th.writeP r v).waiting = th.waiting := by
  unfold Thread.writeP; split <;> rfl
@[simp] theorem Thread.writeP_waitOn (th : Thread) (r : Nat) (v : Bool) : (th.writeP r v).waitOn = th.waitOn := by
  unfold Thread.writeP; split <;> rfl
@[simp] theorem Thread.writeP_notBefore (th : Thread) (r : Nat) (v : Bool) : (th.writeP r v).notBefore = th.notBefore := by
  unfold Thread.writeP; split <;> rfl
@[simp] theorem Thread.writeP_anchor (th : Thread) (r : Nat) (v : Bool) : (th.writeP r v).anchor = th.anchor := by
  unfold Thread.writeP; split <;> rfl
@[simp] theorem Thread.writeP_anchorK (th : Thread) (r : Nat) (v : Bool) : (th.writeP r v).anchorK = th.anchorK := by
  unfold Thread.writeP; split <;> rfl
@[simp] theorem Thread.writeP_fresh (th : Thread) (r : Nat) (v : Bool) : (th.writeP r v).fresh = th.fresh := by
  unfold Thread.writeP; split <;> rfl
@[simp] theorem Thread.writeP_seg (th : Thread) (r : Nat) (v : Bool) : (th.writeP r v).seg = th.seg := by
  unfold Thread.writeP; split <;> rfl
@[simp] theorem Thread.writeP_anchorDom (th : Thread) (r : Nat) (v : Bool) : (th.writeP r v).anchorDom = th.anchorDom := by
  unfold Thread.writeP; split <;> rfl
@[simp] theorem Thread.writeP_prev (th : Thread) (r : Nat) (v : Bool) : (th.writeP r v).prev = th.prev := by
  unfold Thread.writeP; split <;> rfl
@[simp] theorem Thread.writeP_dueAt (th : Thread) (r : Nat) (v : Bool) : (th.writeP r v).dueAt = th.dueAt := by
  unfold Thread.writeP; split <;> rfl
@[simp] theorem Thread.writeP_openTo (th : Thread) (r : Nat) (v : Bool) : (th.writeP r v).openTo = th.openTo := by
  unfold Thread.writeP; split <;> rfl
@[simp] theorem Thread.writeP_flight (th : Thread) (r : Nat) (v : Bool) : (th.writeP r v).flight = th.flight := by
  unfold Thread.writeP; split <;> rfl
@[simp] theorem Thread.writeP_unsealed (th : Thread) (r : Nat) (v : Bool) : (th.writeP r v).unsealed = th.unsealed := by
  unfold Thread.writeP; split <;> rfl
@[simp] theorem Thread.writeP_batches (th : Thread) (r : Nat) (v : Bool) : (th.writeP r v).batches = th.batches := by
  unfold Thread.writeP; split <;> rfl
@[simp] theorem Thread.writeP_nextBatch (th : Thread) (r : Nat) (v : Bool) : (th.writeP r v).nextBatch = th.nextBatch := by
  unfold Thread.writeP; split <;> rfl
@[simp] theorem Thread.writeP_msgs (th : Thread) (r : Nat) (v : Bool) : (th.writeP r v).msgs = th.msgs := by
  unfold Thread.writeP; split <;> rfl
@[simp] theorem Thread.writeP_fences (th : Thread) (r : Nat) (v : Bool) : (th.writeP r v).fences = th.fences := by
  unfold Thread.writeP; split <;> rfl
@[simp] theorem Thread.writeP_restart (th : Thread) (r : Nat) (v : Bool) : (th.writeP r v).restart = th.restart := by
  unfold Thread.writeP; split <;> rfl
@[simp] theorem Thread.writeP_restarts (th : Thread) (r : Nat) (v : Bool) : (th.writeP r v).restarts = th.restarts := by
  unfold Thread.writeP; split <;> rfl
@[simp] theorem Thread.writeP_trap (th : Thread) (r : Nat) (v : Bool) : (th.writeP r v).trap = th.trap := by
  unfold Thread.writeP; split <;> rfl

/-- p0 reads true whatever is written (R62). -/
@[simp] theorem Thread.readP_zero (th : Thread) : th.readP 0 = true := rfl

theorem Thread.writeP_zero (th : Thread) (v : Bool) : th.writeP 0 v = th := rfl

/-! The thread of an agent. -/

@[simp] theorem State.setThread_threadOf_same (s : State) (ag : Agent) (th : Thread) : (s.setThread ag th).threadOf ag = th := by
  cases ag <;> simp [State.setThread, State.threadOf, State.modCore]

theorem State.setThread_threadOf_other (s : State) (ag b : Agent) (th : Thread) (h : b ≠ ag) : (s.setThread ag th).threadOf b = s.threadOf b := by
  cases ag with
  | core c t =>
    cases b with
    | core d u =>
      by_cases hd : d = c
      · subst hd
        have hu : u ≠ t := fun e => h (by rw [e])
        simp [State.setThread, State.threadOf, State.modCore, Core.setThread_thread_other _ _ _ _ hu]
      · simp [State.setThread, State.threadOf, State.modCore, State.setCore_coreAt_other _ _ _ _ hd]
    | req r => simp [State.setThread, State.threadOf, State.modCore]
  | req q =>
    cases b with
    | core d u => simp [State.setThread, State.threadOf]
    | req r =>
      have hr : r ≠ q := fun e => h (by rw [e])
      simp [State.setThread, State.threadOf, State.setReq_reqAt_other _ _ _ _ hr]

@[simp] theorem State.setThread_now (s : State) (ag : Agent) (th : Thread) : (s.setThread ag th).now = s.now := by
  cases ag <;> rfl
@[simp] theorem State.setThread_agenda (s : State) (ag : Agent) (th : Thread) : (s.setThread ag th).agenda = s.agenda := by
  cases ag <;> rfl
@[simp] theorem State.setThread_todo (s : State) (ag : Agent) (th : Thread) : (s.setThread ag th).todo = s.todo := by
  cases ag <;> rfl
@[simp] theorem State.setThread_read (s : State) (ag : Agent) (th : Thread) : (s.setThread ag th).read = s.read := by
  cases ag <;> rfl
@[simp] theorem State.setThread_opened (s : State) (ag : Agent) (th : Thread) : (s.setThread ag th).opened = s.opened := by
  cases ag <;> rfl
@[simp] theorem State.setThread_closed (s : State) (ag : Agent) (th : Thread) : (s.setThread ag th).closed = s.closed := by
  cases ag <;> rfl
@[simp] theorem State.setThread_mappers (s : State) (ag : Agent) (th : Thread) : (s.setThread ag th).mappers = s.mappers := by
  cases ag <;> rfl
@[simp] theorem State.setThread_cur (s : State) (ag : Agent) (th : Thread) : (s.setThread ag th).cur = s.cur := by
  cases ag <;> rfl
@[simp] theorem State.setThread_fresh (s : State) (ag : Agent) (th : Thread) : (s.setThread ag th).fresh = s.fresh := by
  cases ag <;> rfl
@[simp] theorem State.setThread_clusters (s : State) (ag : Agent) (th : Thread) : (s.setThread ag th).clusters = s.clusters := by
  cases ag <;> rfl
@[simp] theorem State.setThread_dies (s : State) (ag : Agent) (th : Thread) : (s.setThread ag th).dies = s.dies := by
  cases ag <;> rfl
@[simp] theorem State.setThread_groups (s : State) (ag : Agent) (th : Thread) : (s.setThread ag th).groups = s.groups := by
  cases ag <;> rfl
@[simp] theorem State.setThread_contexts (s : State) (ag : Agent) (th : Thread) : (s.setThread ag th).contexts = s.contexts := by
  cases ag <;> rfl
@[simp] theorem State.setThread_phys (s : State) (ag : Agent) (th : Thread) : (s.setThread ag th).phys = s.phys := by
  cases ag <;> rfl
@[simp] theorem State.setThread_host (s : State) (ag : Agent) (th : Thread) : (s.setThread ag th).host = s.host := by
  cases ag <;> rfl
@[simp] theorem State.setThread_frameTags (s : State) (ag : Agent) (th : Thread) : (s.setThread ag th).frameTags = s.frameTags := by
  cases ag <;> rfl
@[simp] theorem State.setThread_frameOwner (s : State) (ag : Agent) (th : Thread) : (s.setThread ag th).frameOwner = s.frameOwner := by
  cases ag <;> rfl
@[simp] theorem State.setThread_granules (s : State) (ag : Agent) (th : Thread) : (s.setThread ag th).granules = s.granules := by
  cases ag <;> rfl
@[simp] theorem State.setThread_poison (s : State) (ag : Agent) (th : Thread) : (s.setThread ag th).poison = s.poison := by
  cases ag <;> rfl
@[simp] theorem State.setThread_handler (s : State) (ag : Agent) (th : Thread) : (s.setThread ag th).handler = s.handler := by
  cases ag <;> rfl
@[simp] theorem State.setThread_ops (s : State) (ag : Agent) (th : Thread) : (s.setThread ag th).ops = s.ops := by
  cases ag <;> rfl
@[simp] theorem State.setThread_sends (s : State) (ag : Agent) (th : Thread) : (s.setThread ag th).sends = s.sends := by
  cases ag <;> rfl
@[simp] theorem State.setThread_tlb (s : State) (ag : Agent) (th : Thread) : (s.setThread ag th).tlb = s.tlb := by
  cases ag <;> rfl
@[simp] theorem State.setThread_gen (s : State) (ag : Agent) (th : Thread) : (s.setThread ag th).gen = s.gen := by
  cases ag <;> rfl
@[simp] theorem State.setThread_hub (s : State) (ag : Agent) (th : Thread) : (s.setThread ag th).hub = s.hub := by
  cases ag <;> rfl
@[simp] theorem State.setThread_links (s : State) (ag : Agent) (th : Thread) : (s.setThread ag th).links = s.links := by
  cases ag <;> rfl
@[simp] theorem State.setThread_bins (s : State) (ag : Agent) (th : Thread) : (s.setThread ag th).bins = s.bins := by
  cases ag <;> rfl
@[simp] theorem State.setThread_passed (s : State) (ag : Agent) (th : Thread) : (s.setThread ag th).passed = s.passed := by
  cases ag <;> rfl
@[simp] theorem State.setThread_bindings (s : State) (ag : Agent) (th : Thread) : (s.setThread ag th).bindings = s.bindings := by
  cases ag <;> rfl
@[simp] theorem State.setThread_blockKeys (s : State) (ag : Agent) (th : Thread) : (s.setThread ag th).blockKeys = s.blockKeys := by
  cases ag <;> rfl
@[simp] theorem State.setThread_pages (s : State) (ag : Agent) (th : Thread) : (s.setThread ag th).pages = s.pages := by
  cases ag <;> rfl
@[simp] theorem State.setThread_binDue (s : State) (ag : Agent) (th : Thread) : (s.setThread ag th).binDue = s.binDue := by
  cases ag <;> rfl
@[simp] theorem State.setThread_clusterAt (s : State) (ag : Agent) (th : Thread) (i : Nat) : (s.setThread ag th).clusterAt i = s.clusterAt i := by
  cases ag <;> rfl
@[simp] theorem State.setThread_groupAt (s : State) (ag : Agent) (th : Thread) (i : Nat) : (s.setThread ag th).groupAt i = s.groupAt i := by
  cases ag <;> rfl
@[simp] theorem State.setThread_contextAt (s : State) (ag : Agent) (th : Thread) (i : Nat) : (s.setThread ag th).contextAt i = s.contextAt i := by
  cases ag <;> rfl
@[simp] theorem State.setThread_dieAt (s : State) (ag : Agent) (th : Thread) (i : Nat) : (s.setThread ag th).dieAt i = s.dieAt i := by
  cases ag <;> rfl
@[simp] theorem State.setThread_opAt (s : State) (ag : Agent) (th : Thread) (i : Nat) : (s.setThread ag th).opAt i = s.opAt i := by
  cases ag <;> rfl
@[simp] theorem State.setThread_linkAt (s : State) (ag : Agent) (th : Thread) (i : Nat) : (s.setThread ag th).linkAt i = s.linkAt i := by
  cases ag <;> rfl

/-- A result in flight: the thread's list grows by one entry, and its landing is on the agenda. -/
theorem State.land_eq (s : State) (ag : Agent) (word : Nat) (dest : Dest) (v : Word) (push : Bool) (lat : Nat) :
    s.land ag word dest v push lat =
      ((s.take.2.setThread ag { s.threadOf ag with
          flight := (s.threadOf ag).flight ++ [{ dest := dest, value := v, push := push, land := s.now + lat, word := word, seq := s.fresh, lat := lat }] }).at
        (s.now + lat) prioLanding (.resultLanding ag)) := by
  cases ag <;> rfl

end Sys2Proof.Machine
end

