-- ==== Sys2Proof/Laws/Issue.lean ====
section
/-! SUPPORT. What the shared operations of every word can do: the issue of a word, its checks, its results. -/

namespace Sys2Proof.Machine

/-! The issue of a word. -/

/-- A word whose body is done, and which has room for its results, is over with the state that the body gives. -/
theorem finish_done {s t : State} {cx : Cx} (h : overfull t cx.ag = false) (hl : lateCollision s t cx = none) :
    finish s cx (.done t) = .next t := by
  simp [finish, h, hl]

/-- No result collides in an untimed segment, nor without WCHK (R70). -/
theorem lateCollision_none {s t : State} {cx : Cx} (h : (cx.timed && s.wchk cx.c) = false) : lateCollision s t cx = none := by
  unfold lateCollision
  split
  · simp_all
  · rfl

/-- Nor where every result in flight was in flight before. -/
theorem lateCollision_same {s t : State} {cx : Cx} (h : (t.threadOf cx.ag).flight = (s.threadOf cx.ag).flight) : lateCollision s t cx = none := by
  unfold lateCollision
  split
  · simp only [h, List.findSome?_eq_none_iff]
    intro f hf
    rw [if_pos]
    simpa using Or.inl ⟨f, hf, rfl⟩
  · rfl

/-- Nor where no earlier write of a register that the word's new results go to lands with them. -/
theorem lateCollision_free {s t : State} {cx : Cx}
    (h : ∀ f ∈ (t.threadOf cx.ag).flight, f ∈ (s.threadOf cx.ag).flight ∨
      ∀ r, f.dest.packed = some r → collideRecord (s.threadOf cx.ag) r f.land = none) : lateCollision s t cx = none := by
  unfold lateCollision
  split
  · simp only [List.findSome?_eq_none_iff]
    intro f hf
    split
    · rfl
    · rename_i ho
      rcases h f hf with hm | hr
      · exact absurd (by simpa using Or.inl ⟨f, hm, rfl⟩) ho
      · cases hd : f.dest.packed with
        | none => rfl
        | some r => exact hr r hd
  · rfl

theorem finish_next (s : State) (cx : Cx) (v : Verdict) : ∃ t, finish s cx v = .next t := by
  cases v with
  | done t =>
    simp only [finish]
    split
    · split <;> exact ⟨_, rfl⟩
    · split <;> exact ⟨_, rfl⟩
  | wait t => simp only [finish]; split <;> exact ⟨_, rfl⟩
  | hold => exact ⟨_, rfl⟩
  | trap i => exact ⟨_, rfl⟩

theorem settle_next (s : State) (cx : Cx) (v : Verdict) : ∃ t, settle s cx v = .next t := by
  unfold settle
  split
  · exact finish_next _ _ _
  · exact finish_next _ _ _
  · exact ⟨_, rfl⟩
  · exact ⟨_, rfl⟩

/-- A word answers a next state, whatever its body does. -/
theorem issue_next (i : Instr) (body : Cx → Fields → State → Verdict) (s : State) : ∃ t, issue i body s = .next t := by
  unfold issue
  split
  · exact ⟨_, rfl⟩
  · dsimp only
    split
    · exact finish_next _ _ _
    · split
      · exact ⟨_, rfl⟩
      · exact ⟨_, rfl⟩
      · exact ⟨_, rfl⟩
      · split
        · exact ⟨_, rfl⟩
        · exact ⟨_, rfl⟩
      · split
        · exact ⟨_, rfl⟩
        · exact settle_next _ _ _

/-- Where the flight list has room, the word's own verdict stands (R357). -/
theorem crowded_room {s : State} {cx : Cx} (hn : s.inFlight cx.ag < 32) (x : WordOf) (v : Verdict) : crowded s cx x v = v := by
  cases v with
  | trap i => simp only [crowded, show decide (32 ≤ s.inFlight cx.ag) = false by simpa using hn, Bool.and_false, Bool.false_and, Bool.false_eq_true, if_false]
  | _ => rfl

/-- The word that passes its checks, with no trap owed and room in the flight list: its body acts on the state after the issue. -/
theorem issue_go {i : Instr} {x : WordOf} {body : Cx → Fields → State → Verdict} {s : State} (hw : i.word = some x)
    (ha : (s.threadOf s.cur).waiting = false) (hg : gate x s = .go) (ho : owedTrap s s.cx = none) (hn : s.inFlight s.cur < 32) :
    issue i body s = finish s s.cx (body s.cx x.w (s.issued x)) := by
  have hc : s.cx.again = false := ha
  simp only [issue, hw, hc, Bool.false_eq_true, if_false]
  rw [hg, ho]
  simp [settle, ho, crowded_room (cx := s.cx) hn]

theorem issue_done {i : Instr} {x : WordOf} {body : Cx → Fields → State → Verdict} {s t : State} (hw : i.word = some x)
    (ha : (s.threadOf s.cur).waiting = false) (hg : gate x s = .go) (ho : owedTrap s s.cx = none)
    (hn : s.inFlight s.cur < 32) (hb : body s.cx x.w (s.issued x) = .done t) (hf : t.inFlight s.cur ≤ 32) (hl : lateCollision s t s.cx = none) : issue i body s = .next t := by
  rw [issue_go hw ha hg ho hn, hb]
  refine finish_done ?_ hl
  have hc : s.cx.ag = s.cur := rfl
  simp only [overfull, hc, decide_eq_false_iff_not]
  omega

theorem issue_wait {i : Instr} {x : WordOf} {body : Cx → Fields → State → Verdict} {s t : State} (hw : i.word = some x)
    (ha : (s.threadOf s.cur).waiting = false) (hg : gate x s = .go) (ho : owedTrap s s.cx = none)
    (hn : s.inFlight s.cur < 32) (hb : body s.cx x.w (s.issued x) = .wait t) (hf : overfull t s.cx.ag = false) :
    issue i body s = .next (t.markWaiting s.cx) := by
  rw [issue_go hw ha hg ho hn, hb]
  simp [finish, hf]

theorem issue_trap {i : Instr} {x : WordOf} {body : Cx → Fields → State → Verdict} {s : State} {n : TrapInfo} (hw : i.word = some x)
    (ha : (s.threadOf s.cur).waiting = false) (hg : gate x s = .go) (ho : owedTrap s s.cx = none)
    (hn : s.inFlight s.cur < 32) (hb : body s.cx x.w (s.issued x) = .trap n) : issue i body s = .next ((s.conflictTrap n).takeTrap s.cx.ag s.cx.pc n) := by
  rw [issue_go hw ha hg ho hn, hb]
  rfl

/-- A word that waits is executed again; its body acts on the thread as it stands after the issue. -/
theorem issue_again {i : Instr} {x : WordOf} {body : Cx → Fields → State → Verdict} {s : State} (hw : i.word = some x)
    (ha : (s.threadOf s.cur).waiting = true) : issue i body s = finish s s.cx (body s.cx x.w (s.again s.cx)) := by
  have hc : s.cx.again = true := ha
  simp [issue, hw, hc]

/-! What the issue itself changes. -/

@[simp] theorem State.issued_now (s : State) (x : WordOf) : (s.issued x).now = s.now := by
  unfold State.issued; simp only []; split <;> simp [State.modCore]

theorem State.issued_eq_core {s : State} {x : WordOf} {c t : Nat} (h : s.cur = .core c t) :
    s.issued x = (s.setThread s.cur ((s.threadOf s.cur).issued (s.segOf s.cur (s.threadOf s.cur).pc) x.w.hint s.now)).modCore c fun k =>
      { k with
               budg := k.budg - (if budgeted s.cur then wordUnits s s.cx x else 0),
               spent := SMap.set 0 k.spent t (SMap.get 0 k.spent t + (if budgeted s.cur then wordUnits s s.cx x else 0)), issuedAt := if t ≤ 11 then s.now + 1 else k.issuedAt,
               lend := if t = 0 && k.lend.any (fun l => l.seg != (s.segOf s.cur (s.threadOf s.cur).pc).map (·.first)) then none else k.lend,
               grant := if 1 ≤ t ∧ t ≤ 10 then t else k.grant } := by
  have hc : s.cx.ag = .core c t := h
  have hp : s.cx.pc = (s.threadOf (.core c t)).pc := by rw [← h]; rfl
  simp only [State.issued, hc, hp, h]
  rfl

theorem State.issued_eq_req {s : State} {x : WordOf} {id : Nat} (h : s.cur = .req id) :
    s.issued x = s.setThread s.cur ((s.threadOf s.cur).issued (s.segOf s.cur (s.threadOf s.cur).pc) x.w.hint s.now) := by
  have hc : s.cx.ag = .req id := h
  have hp : s.cx.pc = (s.threadOf (.req id)).pc := by rw [← h]; rfl
  simp only [State.issued, hc, hp, h]

/-- The issuing thread after the issue: its registers stand, its pc has moved on (R66, R74). -/
theorem State.issued_threadOf (s : State) (x : WordOf) :
    (s.issued x).threadOf s.cur = (s.threadOf s.cur).issued (s.segOf s.cur (s.threadOf s.cur).pc) x.w.hint s.now := by
  cases h : s.cur with
  | core c t =>
    rw [State.issued_eq_core h, h]
    simp only [State.modCore, State.threadOf, State.setCore_coreAt_same]
    exact State.setThread_threadOf_same s (.core c t) _
  | req id =>
    rw [State.issued_eq_req h, h]
    exact State.setThread_threadOf_same s (.req id) _

theorem State.modCore_threadOf {s : State} {c : Nat} {f : Core → Core} (hf : ∀ k u, (f k).thread u = k.thread u) (ag : Agent) :
    (s.modCore c f).threadOf ag = s.threadOf ag := by
  cases ag with
  | core d u =>
    by_cases hd : d = c
    · subst hd
      simp only [State.modCore, State.threadOf, State.setCore_coreAt_same, hf]
    · simp only [State.modCore, State.threadOf, State.setCore_coreAt_other _ _ _ _ hd]
  | req r => simp only [State.modCore, State.threadOf, State.setCore_reqAt]

theorem State.issued_threadOf_other (s : State) (x : WordOf) (ag : Agent) (h : ag ≠ s.cur) : (s.issued x).threadOf ag = s.threadOf ag := by
  cases hc : s.cur with
  | core c t =>
    rw [State.issued_eq_core hc]
    refine (State.modCore_threadOf ?_ ag).trans (State.setThread_threadOf_other s s.cur ag _ h)
    intro k u
    rfl
  | req id =>
    rw [State.issued_eq_req hc]
    exact State.setThread_threadOf_other s s.cur ag _ h

section
variable (th : Thread) (seg : Option Seg) (h : Hint) (now : Nat)
/-- What the issue leaves of the thread: its place, its latest issue and its restart point alone change. -/
theorem Thread.issued_eq : ∃ r n, th.issued seg h now =
    { th with pc := th.pc + 1, prev := now, seg := seg.map (·.first), fresh := false, dueAt := none, restart := r, restarts := n,
              openTo := (th.issued seg h now).openTo } := by
  cases seg with
  | none => exact ⟨th.restart, 0, rfl⟩
  | some g =>
    simp only [Thread.issued]
    split
    · exact ⟨_, _, rfl⟩
    · exact ⟨_, _, rfl⟩

@[simp] theorem Thread.issued_n : (th.issued seg h now).n = th.n := by
  obtain ⟨r, n, e⟩ := Thread.issued_eq th seg h now; rw [e]
@[simp] theorem Thread.issued_q : (th.issued seg h now).q = th.q := by
  obtain ⟨r, n, e⟩ := Thread.issued_eq th seg h now; rw [e]
@[simp] theorem Thread.issued_a : (th.issued seg h now).a = th.a := by
  obtain ⟨r, n, e⟩ := Thread.issued_eq th seg h now; rw [e]
@[simp] theorem Thread.issued_p : (th.issued seg h now).p = th.p := by
  obtain ⟨r, n, e⟩ := Thread.issued_eq th seg h now; rw [e]
@[simp] theorem Thread.issued_fflg : (th.issued seg h now).fflg = th.fflg := by
  obtain ⟨r, n, e⟩ := Thread.issued_eq th seg h now; rw [e]
@[simp] theorem Thread.issued_vl : (th.issued seg h now).vl = th.vl := by
  obtain ⟨r, n, e⟩ := Thread.issued_eq th seg h now; rw [e]
@[simp] theorem Thread.issued_flight : (th.issued seg h now).flight = th.flight := by
  obtain ⟨r, n, e⟩ := Thread.issued_eq th seg h now; rw [e]
@[simp] theorem Thread.issued_pc : (th.issued seg h now).pc = th.pc + 1 := by
  obtain ⟨r, n, e⟩ := Thread.issued_eq th seg h now; rw [e]
@[simp] theorem Thread.issued_stat : (th.issued seg h now).stat = th.stat := by
  obtain ⟨r, n, e⟩ := Thread.issued_eq th seg h now; rw [e]
@[simp] theorem Thread.issued_waiting : (th.issued seg h now).waiting = th.waiting := by
  obtain ⟨r, n, e⟩ := Thread.issued_eq th seg h now; rw [e]
@[simp] theorem Thread.issued_unsealed : (th.issued seg h now).unsealed = th.unsealed := by
  obtain ⟨r, n, e⟩ := Thread.issued_eq th seg h now; rw [e]
@[simp] theorem Thread.issued_batches : (th.issued seg h now).batches = th.batches := by
  obtain ⟨r, n, e⟩ := Thread.issued_eq th seg h now; rw [e]
@[simp] theorem Thread.issued_nextBatch : (th.issued seg h now).nextBatch = th.nextBatch := by
  obtain ⟨r, n, e⟩ := Thread.issued_eq th seg h now; rw [e]
@[simp] theorem Thread.issued_msgs : (th.issued seg h now).msgs = th.msgs := by
  obtain ⟨r, n, e⟩ := Thread.issued_eq th seg h now; rw [e]
@[simp] theorem Thread.issued_fences : (th.issued seg h now).fences = th.fences := by
  obtain ⟨r, n, e⟩ := Thread.issued_eq th seg h now; rw [e]
@[simp] theorem Thread.issued_anchor : (th.issued seg h now).anchor = th.anchor := by
  obtain ⟨r, n, e⟩ := Thread.issued_eq th seg h now; rw [e]
end

/-- An operand reads the same before and after the issue. -/
theorem Thread.value_of_eq {a b : Thread} (hn : a.n = b.n) (hq : a.q = b.q) (ha : a.a = b.a) (hp : a.p = b.p) (o : Operand) (ty : Bool) :
    a.value o ty = b.value o ty := by
  unfold Thread.value
  simp only [Thread.readN, Thread.readQ, Thread.readA, Thread.readP, hn, hq, ha, hp]
  cases o.kind <;> rfl

@[simp] theorem Thread.issued_value (th : Thread) (seg : Option Seg) (h : Hint) (now : Nat) (o : Operand) (ty : Bool) :
    (th.issued seg h now).value o ty = th.value o ty := Thread.value_of_eq (by simp) (by simp) (by simp) (by simp) o ty
@[simp] theorem Thread.issued_src (th : Thread) (seg : Option Seg) (h : Hint) (now : Nat) (o : Operand) : (th.issued seg h now).src o = th.src o := by
  simp [Thread.src]
@[simp] theorem Thread.issued_readN (th : Thread) (seg : Option Seg) (h : Hint) (now r : Nat) : (th.issued seg h now).readN r = th.readN r := by
  simp [Thread.readN]
@[simp] theorem Thread.issued_readP (th : Thread) (seg : Option Seg) (h : Hint) (now r : Nat) : (th.issued seg h now).readP r = th.readP r := by
  simp [Thread.readP]
@[simp] theorem Thread.issued_readA (th : Thread) (seg : Option Seg) (h : Hint) (now r : Nat) : (th.issued seg h now).readA r = th.readA r := by
  simp [Thread.readA]

/-! Checks. -/

theorem firstTrap_none {l : List (Option TrapInfo)} (h : ∀ x ∈ l, x = none) : firstTrap l = none := by
  induction l with
  | nil => rfl
  | cons x rest ih =>
    have hx : x = none := h x (by simp)
    subst hx
    exact ih fun y hy => h y (by simp [hy])

theorem firstTrap_some {l : List (Option TrapInfo)} {t : TrapInfo} (h : firstTrap l = some t) : some t ∈ l := by
  induction l with
  | nil => simp [firstTrap] at h
  | cons x rest ih =>
    cases x with
    | none => exact List.mem_cons_of_mem _ (ih h)
    | some u => simp [firstTrap] at h; simp [h]

end Sys2Proof.Machine
end

