-- ==== Sys2Proof/Laws/Frame.lean ====
section
/-! SUPPORT. What the issue of a word and a result in flight leave alone. -/

namespace Sys2Proof.Machine

theorem coreKept_refl (a : Core) : coreKept a a := rfl

theorem coreKept_trans {a b c : Core} (h : coreKept a b) (g : coreKept b c) : coreKept a c := by
  unfold coreKept at *
  rw [g, h]

theorem agendaKept_refl (s : State) : agendaKept s s := fun _ h => h

theorem agendaKept_trans {s t u : State} (h : agendaKept s t) (g : agendaKept t u) : agendaKept s u := fun e he => g e (h e he)

theorem mem_agendaInsert {e x : Entry} {l : List Entry} : x ∈ agendaInsert e l ↔ x = e ∨ x ∈ l := by
  induction l with
  | nil => simp [agendaInsert]
  | cons y rest ih =>
    simp only [agendaInsert]
    split
    · simp
    · simp only [List.mem_cons, ih]
      constructor
      · rintro (h | h | h) <;> simp [h]
      · rintro (h | h | h) <;> simp [h]

theorem State.at_dueAt (s : State) (d p : Nat) (ev : Instr) : (s.at d p ev).dueAt d p ev := by
  simp [State.dueAt, State.at, mem_agendaInsert]

theorem agendaKept_at (s : State) (d p : Nat) (ev : Instr) : agendaKept s (s.at d p ev) := by
  intro e he
  simp [State.at, mem_agendaInsert, he]

theorem onlyMine_refl (s : State) : onlyMine s s :=
  ⟨rfl, fun _ _ => rfl, fun _ => rfl, fun _ _ => rfl, fun _ => rfl, agendaKept_refl s⟩

theorem onlyMine_cur {s t : State} (h : onlyMine s t) : t.cur = s.cur := by rw [h.1]
theorem onlyMine_now {s t : State} (h : onlyMine s t) : t.now = s.now := by rw [h.1]

theorem onlyMine_trans {s t u : State} (h : onlyMine s t) (g : onlyMine t u) : onlyMine s u := by
  have hc := onlyMine_cur h
  obtain ⟨h1, h2, h3, h4, h5, h6⟩ := h
  obtain ⟨g1, g2, g3, g4, g5, g6⟩ := g
  rw [hc] at g2 g4
  refine ⟨?_, fun ag ha => (g2 ag ha).trans (h2 ag ha), fun c => coreKept_trans (h3 c) (g3 c),
    fun c hn => (g4 c hn).trans (h4 c hn), fun id => ?_, agendaKept_trans h6 g6⟩
  · rw [g1, h1]
  · rw [g5, h5]

/-- A change of the executing thread alone. -/
theorem onlyMine_setThread (s : State) (th : Thread) : onlyMine s (s.setThread s.cur th) := by
  cases hc : s.cur with
  | core c t =>
    refine ⟨rfl, fun ag ha => State.setThread_threadOf_other s (.core c t) ag th (by rwa [hc] at ha), fun d => ?_, fun d hd => ?_,
      fun id => rfl, agendaKept_refl s⟩
    · by_cases h : d = c
      · subst h
        simp only [State.setThread, State.modCore, State.setCore_coreAt_same]
        rfl
      · simp only [State.setThread, State.modCore, State.setCore_coreAt_other _ _ _ _ h]
        rfl
    · have h : d ≠ c := fun h => hd t (by rw [hc, h])
      simp only [State.setThread, State.modCore, State.setCore_coreAt_other _ _ _ _ h]
  | req id =>
    refine ⟨rfl, fun ag ha => State.setThread_threadOf_other s (.req id) ag th (by rwa [hc] at ha), fun d => rfl, fun d _ => rfl,
      fun r => ?_, agendaKept_refl s⟩
    by_cases h : r = id
    · subst h
      simp only [State.setThread, State.setReq_reqAt_same]
    · simp only [State.setThread, State.setReq_reqAt_other _ _ _ _ h]

theorem onlyMine_at (s : State) (d p : Nat) (ev : Instr) : onlyMine s (s.at d p ev) :=
  ⟨rfl, fun _ _ => rfl, fun _ => rfl, fun _ _ => rfl, fun _ => rfl, agendaKept_at s d p ev⟩

theorem onlyMine_take (s : State) : onlyMine s s.take.2 :=
  ⟨rfl, fun _ _ => rfl, fun _ => rfl, fun _ _ => rfl, fun _ => rfl, agendaKept_refl s⟩

theorem onlyMine_modThread (s : State) (f : Thread → Thread) : onlyMine s (s.modThread s.cur f) := onlyMine_setThread s _

theorem onlyMine_land (s : State) (word : Nat) (dest : Dest) (v : Word) (push : Bool) (lat : Nat) :
    onlyMine s (s.land s.cur word dest v push lat) := by
  unfold State.land State.landAs
  exact onlyMine_trans (onlyMine_take s) (onlyMine_trans (onlyMine_modThread s.take.2 _) (onlyMine_at _ _ _ _))

/-- A change of what the issue itself changes in the executing thread's core. -/
theorem onlyMine_modCore {s : State} {c u : Nat} {f : Core → Core} (hc : s.cur = .core c u) (hf : ∀ k, coreKept k (f k))
    (ht : ∀ k v, (f k).thread v = k.thread v) : onlyMine s (s.modCore c f) := by
  refine ⟨rfl, fun ag _ => State.modCore_threadOf ht ag, fun d => ?_, fun d hd => ?_, fun _ => rfl, agendaKept_refl s⟩
  · by_cases h : d = c
    · subst h
      simp only [State.modCore, State.setCore_coreAt_same]
      exact hf _
    · simp only [State.modCore, State.setCore_coreAt_other _ _ _ _ h]
      exact coreKept_refl _
  · have h : d ≠ c := fun h => hd u (by rw [hc, h])
    simp only [State.modCore, State.setCore_coreAt_other _ _ _ _ h]

theorem onlyMine_issued (s : State) (x : WordOf) : onlyMine s (s.issued x) := by
  cases hc : s.cur with
  | req id =>
    rw [State.issued_eq_req hc]
    exact onlyMine_setThread s _
  | core c t =>
    rw [State.issued_eq_core hc]
    refine onlyMine_trans (onlyMine_setThread s ((s.threadOf s.cur).issued (s.segOf s.cur (s.threadOf s.cur).pc) x.w.hint s.now)) ?_
    have hu := onlyMine_cur (onlyMine_setThread s ((s.threadOf s.cur).issued (s.segOf s.cur (s.threadOf s.cur).pc) x.w.hint s.now))
    refine onlyMine_modCore (hu.trans hc) ?_ ?_
    · intro k; rfl
    · intro k v; rfl

/-- Where only the executing thread changes, the entries of tiles in a flight list stand. -/
theorem onlyMine_inFlight {s t : State} (h : onlyMine s t) (ag : Agent) :
    t.inFlight ag = (t.threadOf ag).flight.length + s.tilesInFlight ag := by
  unfold State.inFlight
  cases ag with
  | core c u => cases u with
    | zero => simp only [State.tilesInFlight, Core.tileEntries]; rw [h.2.2.1 c]
    | succ n => rfl
  | req id => rfl

/-- Where only the executing thread changes, every byte reads as before. -/
theorem onlyMine_bytesKept {s t : State} (h : onlyMine s t) : bytesKept s t := by
  obtain ⟨h1, _, h3, _⟩ := h
  have hcl : t.clusters = s.clusters := by rw [h1]
  have hm : ∀ p, t.memOf p = s.memOf p := by
    intro p
    cases p with
    | core c => simp only [State.memOf]; rw [h3 c]
    | cluster k => simp only [State.memOf, State.clusterAt, hcl]
  have hp : ∀ p, t.pendOf p = s.pendOf p := by
    intro p
    cases p with
    | core c => simp only [State.pendOf]; rw [h3 c]
    | cluster k => simp only [State.pendOf, State.clusterAt, hcl]
  refine ⟨fun a => by rw [h1], fun a => by rw [h1], fun p a => by rw [hm p], fun c who cyc a n => ?_⟩
  simp only [State.view, hm, hp]

@[simp] theorem State.setThread_mine (s : State) (th : Thread) : (s.setThread s.cur th).mine = th := by
  have hc := onlyMine_cur (onlyMine_setThread s th)
  simp only [State.mine, hc]
  exact State.setThread_threadOf_same s s.cur th

/-- A result in flight is the last of its thread's list, and its landing is due (R25). -/
theorem State.land_mine (s : State) (word : Nat) (dest : Dest) (v : Word) (push : Bool) (lat : Nat) :
    (s.land s.cur word dest v push lat).mine =
      { s.mine with flight := s.mine.flight ++
          [{ dest := dest, value := v, push := push, land := s.now + lat, word := word, seq := s.fresh, lat := lat }] } := by
  have hc := onlyMine_cur (onlyMine_land s word dest v push lat)
  simp only [State.mine, hc]
  exact State.setThread_threadOf_same s.take.2 s.cur _

theorem State.land_dueAt (s : State) (ag : Agent) (word : Nat) (dest : Dest) (v : Word) (push : Bool) (lat : Nat) :
    (s.land ag word dest v push lat).dueAt (s.now + lat) prioLanding (.resultLanding ag) := by
  unfold State.land State.landAs
  exact State.at_dueAt _ _ _ _

theorem State.land_lands (s : State) (word : Nat) (dest : Dest) (v : Word) (push : Bool) (lat : Nat) :
    lands s (s.land s.cur word dest v push lat) dest v push lat :=
  ⟨_, congrArg Thread.flight (State.land_mine s word dest v push lat), rfl, rfl, rfl, rfl, rfl, rfl, State.land_dueAt s s.cur word dest v push lat⟩

@[simp] theorem State.issued_cur (s : State) (x : WordOf) : (s.issued x).cur = s.cur := onlyMine_cur (onlyMine_issued s x)

theorem State.issued_mine (s : State) (x : WordOf) :
    (s.issued x).mine = s.mine.issued (s.segOf s.cur s.mine.pc) x.w.hint s.now := by
  simp only [State.mine, State.issued_cur]
  exact State.issued_threadOf s x

/-- What `passes` says. -/
theorem passes_iff {i : Instr} {s : State} (h : passes i s = true) :
    s.mine.waiting = false ∧ s.inFlight s.cur ≤ 28 ∧ owedTrap s s.cx = none ∧ ∃ x, i.word = some x ∧ gate x s = .go := by
  unfold passes at h
  simp only [Bool.and_eq_true, Bool.not_eq_true', decide_eq_true_eq, Option.isNone_iff_eq_none] at h
  obtain ⟨⟨⟨h1, h2⟩, h3⟩, h4⟩ := h
  cases hw : i.word with
  | none => rw [hw] at h4; exact absurd h4 (by simp)
  | some x => rw [hw] at h4; exact ⟨h1, h2, h3, x, rfl, by simpa using h4⟩

/-- What `issues` says. -/
theorem issues_iff {i : Instr} {s : State} (h : issues i s = true) : passes i s = true ∧ landsAlone i s = true := by
  simpa [issues] using h

/-- The word that passes: its body acts on the state after the issue. -/
theorem issue_of_passes {i : Instr} {s : State} {body : Cx → Fields → State → Verdict} (h : passes i s = true) :
    ∃ x, i.word = some x ∧ issue i body s = finish s s.cx (body s.cx x.w (s.issued x)) := by
  obtain ⟨h1, h2, h3, x, hx, hg⟩ := passes_iff h
  exact ⟨x, hx, issue_go hx h1 hg h3 (by omega)⟩

/-- A word that goes has no write of one of its registers in flight that lands with its result (R70). -/
theorem gate_collide {x : WordOf} {s : State} {r : Nat} (hg : gate x s = .go) (hc : (s.cx.timed && s.wchk s.cx.c) = true) (hl : x.form.lat ≠ 0)
    (hr : r ∈ x.form.writes x.w) : collideRecord s.mine r (s.now + x.form.lat) = none := by
  have hif : (s.cx.timed && (s.coreAt s.cx.c).wchk && x.form.lat != 0) = true := by simpa [State.wchk, hl] using hc
  unfold gate at hg
  simp only [hif, if_true] at hg
  cases hn : (x.form.writes x.w).findSome? fun r => collideRecord (s.threadOf s.cx.ag) r (s.now + x.form.lat) with
  | none => exact List.findSome?_eq_none_iff.mp hn r hr
  | some e =>
    exfalso
    simp only [hn] at hg
    repeat (split at hg <;> try contradiction)

/-- A word whose result lands on its one latency lands alone (R70). -/
theorem result_alone {i : Instr} {x : WordOf} {s : State} {d : Dest} {lat : Nat} (h : issues i s = true) (hw : i.word = some x)
    (hd : ∀ r, d.packed = some r → r ∈ x.form.writes x.w) (hl : x.form.lat = lat) (hn : lat ≠ 0) :
    (s.cx.timed && s.wchk s.cx.c) = true → ∀ r, d.packed = some r → collideRecord s.mine r (s.now + lat) = none := by
  intro hc r hr
  obtain ⟨_, _, _, y, hy, hg⟩ := passes_iff (issues_iff h).1
  have : y = x := by rw [hw] at hy; exact (Option.some.inj hy).symm
  subst this
  rw [← hl]
  exact gate_collide hg hc (by omega) (hd r hr)

/-- A scalar word with one result: the issue and that result, and nothing else (R25, R64). -/
theorem issue_result {i : Instr} {s : State} {body : Cx → Fields → State → Verdict} {x : WordOf} {d : Dest} {v : Word} {lat : Nat}
    (h : passes i s = true) (hw : i.word = some x) (hb : body s.cx x.w (s.issued x) = result s.cx d v lat (s.issued x))
    (hl : (s.cx.timed && s.wchk s.cx.c) = true → ∀ r, d.packed = some r → collideRecord s.mine r (s.now + lat) = none) :
    ∃ t, issue i body s = .next t ∧ lands s t d v true lat ∧ registersKept s.mine t.mine ∧ t.mine.fflg = s.mine.fflg ∧
      t.mine.pc = s.mine.pc + 1 ∧ onlyMine s t := by
  obtain ⟨h1, h2, h3, y, hy, hg⟩ := passes_iff h
  have hxy : y = x := by rw [hw] at hy; exact (Option.some.inj hy).symm
  subst hxy
  have hcur : s.cx.ag = (s.issued y).cur := by simp [State.cx]
  have hm := State.land_mine (s.issued y) s.cx.pc d v true lat
  rw [State.issued_mine] at hm
  have hc2 : ((s.issued y).land (s.issued y).cur s.cx.pc d v true lat).cur = s.cur :=
    (onlyMine_cur (onlyMine_land _ _ _ _ _ _)).trans (State.issued_cur s y)
  refine ⟨(s.issued y).land (s.issued y).cur s.cx.pc d v true lat, ?_, ?_, ?_, ?_, ?_, ?_⟩
  · have hth : ((s.issued y).land (s.issued y).cur s.cx.pc d v true lat).threadOf s.cur
        = ((s.issued y).land (s.issued y).cur s.cx.pc d v true lat).mine := by simp only [State.mine, hc2]
    have hag : s.cx.ag = s.cur := rfl
    refine issue_done hw h1 hg h3 (by omega) (by rw [hb]; simp only [result, hcur]) ?_ ?_
    · rw [onlyMine_inFlight (onlyMine_trans (onlyMine_issued s y) (onlyMine_land _ _ _ _ _ _)), hth, hm]
      simp only [State.inFlight] at h2
      simp [State.mine] at h2 ⊢
      omega
    · by_cases hc : (s.cx.timed && s.wchk s.cx.c) = true
      · apply lateCollision_free
        rw [hag, hth, hm]
        intro f hf
        simp only [Thread.issued_flight, List.mem_append, List.mem_singleton] at hf
        rcases hf with hf | rfl
        · exact .inl hf
        · refine .inr fun r hr => ?_
          have := hl hc r hr
          simpa [State.mine] using this
      · exact lateCollision_none (by simpa using hc)
  · obtain ⟨f, hf, h⟩ := State.land_lands (s.issued y) s.cx.pc d v true lat
    rw [State.issued_mine] at hf
    exact ⟨f, by simpa using hf, by simpa using h⟩
  · rw [hm]; simp [registersKept]
  · rw [hm]; simp
  · rw [hm]; simp
  · exact onlyMine_trans (onlyMine_issued s y) (onlyMine_land _ _ _ _ _ _)

/-! Free bytes. -/

/-- `n` free bytes are `n` in number, and nothing but the counter of free values moves. -/
theorem State.freeBytes_spec (s : State) (n : Nat) :
    (s.freeBytes n).1.length = n ∧ (s.freeBytes n).2 = { s with fresh := s.fresh + n } := by
  induction n generalizing s with
  | zero => exact ⟨rfl, rfl⟩
  | succ n ih =>
    obtain ⟨h, e⟩ := ih s.free.2
    refine ⟨by simp [State.freeBytes, h], ?_⟩
    simp only [State.freeBytes, e]
    simp [State.free, Nat.add_assoc, Nat.add_comm 1 n]

end Sys2Proof.Machine
end

