-- ==== Sys2Proof/Tests/Slice0.lean ====
section
/-! SUPPORT. Tests: the words of the opcode map and of the encoding tables, a term that each encoding check refuses, a few results worked out by
hand from the rules, and for every statement that has hypotheses a state and operands that meet them. -/

open Sys2Proof Sys2Proof.Machine

namespace Sys2Proof.Tests

set_option Elab.async false


/-- Fields of a word of version 0, unguarded, of energy class 7. -/
def word (a b c : Operand) (m : BitVec 2 := 0) : Fields := { v := 0, g := 0, h := 0x380, a := a, b := b, c := c, m := m }
def nn (r : BitVec 17) : Operand := ⟨.nreg, r⟩
def aa (r : BitVec 17) : Operand := ⟨.ptr, r⟩
def im (v : BitVec 17) : Operand := ⟨.imm, v⟩
def o0 : Operand := ⟨.nreg, 0⟩

/-- Group 0 of context 0, whose code has 64 words and whose one state covers every size. -/
def aGroup : Group :=
  { st := .running, members := [0], map := [0], kernel := { codeW := 64, states := [{ cap := 100 }] } }

/-- A state on cycle 100 in which core 0 runs group 0; its windows let it at all of local and shared memory. -/
def withCore (k : Core) (g : Group := aGroup) : State :=
  { State.reset with now := 100, read := true, opened := true, fresh := 50, contexts := [(0, { st := 2 })], groups := [(0, g)],
                     cores := [(0, { k with grp := some 0, budg := 1000, guard := [0x30FFF0000, 0x37FFF4000] })] }

/-- Its control context is at word 4, with these registers. -/
def withThread (th : Thread) (k : Core := {}) (g : Group := aGroup) : State :=
  withCore { k with threads := [(0, { th with stat := .run, pc := 4 })] } g

def fp (f r : BitVec 17) : Operand := ⟨.ptr, f * 0x2000 + r⟩
/-- The next step runs this word. -/
def placed (x : IWord) : State := State.reset.withFetchWord 96 x.toNat
def addBits : IWord := 0x00000C600000148000080004
def addWord : Fields := { v := 0, g := 0, h := 0x3180, a := ⟨.nreg, 5⟩, b := ⟨.qage, 0⟩, c := ⟨.qage, 1⟩, m := 0 }
def sp (r : BitVec 17) : Operand := ⟨.special, r⟩

def gives {α ε : Type} [DecidableEq α] (x : Except ε α) (a : α) : Bool := match x with | .ok b => decide (b = a) | .error _ => false
def fails {α ε : Type} [DecidableEq ε] (x : Except ε α) (n : ε) : Bool := match x with | .ok _ => false | .error m => decide (m = n)
theorem eq_of_gives {α ε : Type} [DecidableEq α] {x : Except ε α} {a : α} (h : gives x a = true) : x = .ok a := by
  cases x <;> simp_all [gives]
theorem eq_of_fails {α ε : Type} [DecidableEq ε] {x : Except ε α} {n : ε} (h : fails x n = true) : x = .error n := by
  cases x <;> simp_all [fails]

/-! Decoding: every cell of the opcode map of R154, with the other bits zero, and whole words from the field tables of R138 to R154. -/

def blank : Fields := { v := 0, g := 0, h := 0, a := o0, b := o0, c := o0, m := 0 }
def allDecode (l : List (IWord × (Fields → Instr))) : Bool := l.all fun x => gives (decodeWord x.1) (x.2 blank)

theorem test_words_of_class_0 : allDecode [
    (0x000000000000000000000000, .add), (0x001000000000000000000000, .sub), (0x002000000000000000000000, .mul),
    (0x003000000000000000000000, .mulhs), (0x004000000000000000000000, .mulhu), (0x005000000000000000000000, .divs),
    (0x006000000000000000000000, .divu), (0x007000000000000000000000, .rems), (0x008000000000000000000000, .remu),
    (0x009000000000000000000000, .and), (0x00A000000000000000000000, .or), (0x00B000000000000000000000, .xor),
    (0x00C000000000000000000000, .andn), (0x00D000000000000000000000, .shl), (0x00E000000000000000000000, .shrl),
    (0x00F000000000000000000000, .shra), (0x010000000000000000000000, .rotl), (0x011000000000000000000000, .clz),
    (0x012000000000000000000000, .popc), (0x013000000000000000000000, .mins), (0x014000000000000000000000, .maxs),
    (0x015000000000000000000000, .minu), (0x016000000000000000000000, .maxu), (0x017000000000000000000000, .abs),
    (0x018000000000000000000000, .sext), (0x019000000000000000000000, .zext), (0x01A000000000000000000000, .bfx),
    (0x01B000000000000000000000, .bfi), (0x01C000000000000000000000, .li), (0x01D000000000000000000000, .lih),
    (0x01E000000000000000000000, .mov), (0x01F000000000000000000000, .sel), (0x020000000000000000000000, .cmpEq),
    (0x021000000000000000000000, .cmpNe), (0x022000000000000000000000, .cmpLt), (0x023000000000000000000000, .cmpGe),
    (0x024000000000000000000000, .cmpLtu), (0x025000000000000000000000, .cmpGeu), (0x028000000000000000000000, .pand),
    (0x029000000000000000000000, .por), (0x02A000000000000000000000, .pxor), (0x02B000000000000000000000, .pnot)] = true := by decide +kernel
theorem test_words_of_class_1 : allDecode [
    (0x040000000000000000000000, .fadd), (0x041000000000000000000000, .fmul), (0x042000000000000000000000, .ffma),
    (0x048000000000000000000000, .fcmpEq), (0x049000000000000000000000, .fcmpNe), (0x04A000000000000000000000, .fcmpLt),
    (0x04B000000000000000000000, .fcmpLe), (0x04C000000000000000000000, .fcmpUn), (0x050000000000000000000000, .fcvt)] = true := by decide +kernel
theorem test_words_of_class_2 : allDecode [
    (0x080000000000000000000000, .br), (0x081000000000000000000000, .bri), (0x082000000000000000000000, .call),
    (0x083000000000000000000000, .ret), (0x084000000000000000000000, .loop), (0x085000000000000000000000, .nop),
    (0x086000000000000000000000, .rtend)] = true := by decide +kernel
theorem test_words_of_class_3 : allDecode [
    (0x0C0000000000000000000000, .ldlB), (0x0C1000000000000000000000, .ldlH), (0x0C2000000000000000000000, .ldlW),
    (0x0C3000000000000000000000, .ldlD), (0x0C4000000000000000000000, .stlB), (0x0C5000000000000000000000, .stlH),
    (0x0C6000000000000000000000, .stlW), (0x0C7000000000000000000000, .stlD), (0x0C8000000000000000000000, .setp),
    (0x0C9000000000000000000000, .ldp), (0x0D0000000000000000000000, .bpers), (0x0D1000000000000000000000, .bspan),
    (0x0D2000000000000000000000, .bstat), (0x0D3000000000000000000000, .bsnap)] = true := by decide +kernel
theorem test_words_of_class_4 : allDecode [
    (0x100000000000000000000000, .vadd), (0x101000000000000000000000, .vsub), (0x102000000000000000000000, .vmul),
    (0x103000000000000000000000, .vfma), (0x104000000000000000000000, .vmin), (0x105000000000000000000000, .vmax),
    (0x106000000000000000000000, .vabs), (0x107000000000000000000000, .vneg), (0x108000000000000000000000, .vand),
    (0x109000000000000000000000, .vor), (0x10A000000000000000000000, .vxor), (0x10B000000000000000000000, .vshl),
    (0x10C000000000000000000000, .vshr), (0x110000000000000000000000, .vcmpEq), (0x111000000000000000000000, .vcmpNe),
    (0x112000000000000000000000, .vcmpLt), (0x113000000000000000000000, .vcmpLe), (0x114000000000000000000000, .vcmpGt),
    (0x115000000000000000000000, .vcmpGe), (0x118000000000000000000000, .vsel), (0x119000000000000000000000, .vcvt),
    (0x11A000000000000000000000, .vmov), (0x11B000000000000000000000, .vbcast), (0x11C000000000000000000000, .viota)] = true := by decide +kernel
theorem test_words_of_class_5 : allDecode [
    (0x140000000000000000000000, .vsum), (0x141000000000000000000000, .vrmax), (0x142000000000000000000000, .vrmin),
    (0x143000000000000000000000, .vscan), (0x148000000000000000000000, .vexp), (0x149000000000000000000000, .vrcp),
    (0x14A000000000000000000000, .vrsq), (0x14B000000000000000000000, .vtanh), (0x150000000000000000000000, .vperm),
    (0x151000000000000000000000, .vcomp), (0x152000000000000000000000, .vexpn), (0x158000000000000000000000, .vpack),
    (0x159000000000000000000000, .vunpk), (0x15A000000000000000000000, .vord), (0x15B000000000000000000000, .vdigit),
    (0x15C000000000000000000000, .vhisto), (0x15D000000000000000000000, .vcount)] = true := by decide +kernel
theorem test_words_of_class_6 : allDecode [
    (0x180000000000000000000000, .tcfg), (0x181000000000000000000000, .tzero), (0x182000000000000000000000, .tload),
    (0x183000000000000000000000, .tstore), (0x188000000000000000000000, .mma), (0x189000000000000000000000, .mmas),
    (0x18A000000000000000000000, .mmag), (0x190000000000000000000000, .qstage), (0x191000000000000000000000, .tchk)] = true := by decide +kernel
theorem test_words_of_class_7 : allDecode [
    (0x1C0000000000000000000000, .mcmd), (0x1C1000000000000000000000, .capmint), (0x1C2000000000000000000000, .lend),
    (0x1C8000000000000000000000, .mbind), (0x1C9000000000000000000000, .mmerge), (0x1CA000000000000000000000, .mdrain),
    (0x1CB000000000000000000000, .mstat), (0x1D0000000000000000000000, .bkld), (0x1D1000000000000000000000, .bkarm),
    (0x1D2000000000000000000000, .bkoff), (0x1D3000000000000000000000, .bkstat)] = true := by decide +kernel
theorem test_words_of_class_8 : allDecode [
    (0x200000000000000000000000, .cpy), (0x201000000000000000000000, .cpyi), (0x202000000000000000000000, .cpyz),
    (0x208000000000000000000000, .sealBatch), (0x209000000000000000000000, .waitb), (0x20A000000000000000000000, .cpq)] = true := by decide +kernel
theorem test_words_of_class_9 : allDecode [
    (0x240000000000000000000000, .rget), (0x241000000000000000000000, .rput), (0x242000000000000000000000, .wsig),
    (0x248000000000000000000000, .send), (0x249000000000000000000000, .xput), (0x24A000000000000000000000, .xend),
    (0x250000000000000000000000, .amsg), (0x251000000000000000000000, .depcfg)] = true := by decide +kernel
theorem test_words_of_class_A : allDecode [
    (0x280000000000000000000000, .bar), (0x281000000000000000000000, .bara), (0x282000000000000000000000, .barw),
    (0x283000000000000000000000, .barcfg), (0x288000000000000000000000, .fence), (0x290000000000000000000000, .atomAdd),
    (0x291000000000000000000000, .atomMin), (0x292000000000000000000000, .atomMax), (0x293000000000000000000000, .atomAnd),
    (0x294000000000000000000000, .atomOr), (0x295000000000000000000000, .atomXor), (0x296000000000000000000000, .atomSwap),
    (0x297000000000000000000000, .atomCas), (0x298000000000000000000000, .stag)] = true := by decide +kernel
theorem test_words_of_class_B : allDecode [
    (0x2C0000000000000000000000, .hstart), (0x2C1000000000000000000000, .hexit), (0x2C2000000000000000000000, .hjoin),
    (0x2C3000000000000000000000, .hstat), (0x2C8000000000000000000000, .tkpost), (0x2C9000000000000000000000, .tktake),
    (0x2CA000000000000000000000, .launch), (0x2D0000000000000000000000, .setsz), (0x2D1000000000000000000000, .anch)] = true := by decide +kernel
theorem test_words_of_class_C : allDecode [
    (0x300000000000000000000000, .trap), (0x301000000000000000000000, .srr), (0x302000000000000000000000, .srw),
    (0x303000000000000000000000, .pgen), (0x310000000000000000000000, .rft), (0x311000000000000000000000, .snap),
    (0x312000000000000000000000, .roll), (0x313000000000000000000000, .inj), (0x314000000000000000000000, .binset),
    (0x315000000000000000000000, .regbind), (0x316000000000000000000000, .mapset), (0x317000000000000000000000, .tlbinv),
    (0x318000000000000000000000, .ctxsave), (0x319000000000000000000000, .ctxload), (0x31A000000000000000000000, .quota),
    (0x31B000000000000000000000, .preempt)] = true := by decide +kernel
/-- Class 0xC, minor 0x18: M selects the form of CTXSAVE. -/
theorem test_words_of_ctxsave :
    (gives (decodeWord 0x318000000000000000000001) (.ctxsaveKill { blank with m := 1 }) &&
      gives (decodeWord 0x318000000000000000000002) (.ctxsaveGkill { blank with m := 2 })) = true := by decide +kernel
/-- Minors 0x26 and 0x27 of class 0x0 and all of classes 0xD to 0xF are unassigned; V = 3 is found first (R156). -/
theorem test_unassigned_words :
    (([0x026, 0x027, 0x02C, 0x340, 0x3FF].all fun (op : Nat) => fails (decodeWord (BitVec.ofNat 96 (op * 2 ^ 84))) .unassigned) &&
      fails (decodeWord 0xFFF000000000000000000000) .noVersion) = true := by decide +kernel
/-- VPACK.bf16 a2, a1; VADD.bf16 a8, a8, a12; VDIGIT.n16.n16 a2, a1, n4; STL.d.kv 0x0B00, n10. -/
theorem test_decode_vpack : gives (decodeWord 0x158000A01000091800400000) (.vpack { v := 0, g := 0, h := 0x280, a := ⟨.ptr, 0x2⟩, b := ⟨.ptr, 0x6001⟩, c := ⟨.nreg, 0x0⟩, m := 0 }) = true := by decide +kernel
theorem test_decode_vadd_bf16 : gives (decodeWord 0x100028801180211802118030) (.vadd { v := 0, g := 0, h := 0xA200, a := ⟨.ptr, 0x6008⟩, b := ⟨.ptr, 0x6008⟩, c := ⟨.ptr, 0x600C⟩, m := 0 }) = true := by decide +kernel
theorem test_decode_vdigit : gives (decodeWord 0x15B000801480094800400010) (.vdigit { v := 0, g := 0, h := 0x200, a := ⟨.ptr, 0x12002⟩, b := ⟨.ptr, 0x12001⟩, c := ⟨.nreg, 0x4⟩, m := 0 }) = true := by decide +kernel
theorem test_decode_stl : gives (decodeWord 0x0C700080202C000002800002) (.stlD { v := 0, g := 0, h := 0x200, a := ⟨.direct, 0xB00⟩, b := ⟨.nreg, 0xA⟩, c := ⟨.nreg, 0x0⟩, m := 2 }) = true := by decide +kernel
/-- The first bytes of the words of ADD n5, q1, q2 at the lowest address (R139). -/
theorem test_bytes : encode (.add addWord) = some [0x04, 0x00, 0x08, 0x00, 0x80, 0x14, 0x00, 0x00, 0x60, 0x0C, 0x00, 0x00] := by decide +kernel
theorem test_truncated : fails (decode (List.replicate 11 0)) .truncated = true := by decide +kernel
theorem test_table_word : decodeTableWord 96 0x00000C600000148000080004 = some (.add addWord) := by decide +kernel
/-! The encoding checks of R156: for each, a term that it refuses, with its cause. -/

def causeOf (i : Instr) (priv : Bool := true) (p : Profile := .front) : Option (Option Nat) := i.word.map fun x => x.form.cause x.w priv p false

theorem test_well_formed : WellFormed (.add addWord) = true := by decide +kernel
/-- Step 1: V = 3. -/
theorem test_check_version : WellFormed (.add { addWord with v := 3 }) = false ∧ causeOf (.add { addWord with v := 3 }) = some (some 0x001) := by decide +kernel
/-- Step 2: a vector word in a memory core, a scalar floating word in the burin unit (R155). -/
theorem test_check_profile :
    causeOf (.vadd (word (fp 4 5) (fp 4 6) (fp 4 7))) true .memCore = some (some 0x000) ∧
    causeOf (.vadd (word (fp 4 5) (fp 4 6) (fp 4 7))) true .burin = some (some 0x000) := by decide +kernel
/-- Step 3: a privileged opcode, and a privileged special register, in a user view. -/
theorem test_check_privilege :
    causeOf (.snap (word (nn 1) o0 o0)) false = some (some 0x003) ∧ causeOf (.srr (word (nn 1) (sp 0x101) o0)) false = some (some 0x003) ∧
    causeOf (.snap (word (nn 1) o0 o0)) = some none := by decide +kernel
/-- Step 4: an operand kind, an odd register of a pair, formats that differ, an unassigned special register, and a read-only one written. -/
theorem test_check_operand :
    WellFormed (.add { addWord with a := im 5 }) = false ∧ causeOf (.add { addWord with a := im 5 }) = some (some 0x002) ∧
    causeOf (.ffma (word (nn 0x2001) (nn 0x4002) (nn 0x2003))) = some (some 0x002) ∧ causeOf (.srr (word (nn 1) (sp 0x1FF) o0)) = some (some 0x002) ∧
    causeOf (.srw (word (sp 0x001) (nn 1) o0)) = some (some 0x002) := by decide +kernel
/-- Step 5: an undefined M, an unused operand that is not zero, LDX = 1 with DELTA = 0, a reserved bit of H, an energy class below the least. -/
theorem test_check_reserved :
    WellFormed (.add { addWord with m := 1 }) = false ∧ causeOf (.add { addWord with m := 1 }) = some (some 0x004) ∧
    causeOf (.nop { blank with a := nn 1 }) = some (some 0x004) ∧ causeOf (.nop { blank with h := 0x800 }) = some (some 0x004) ∧
    causeOf (.nop { blank with h := 1 }) = some (some 0x004) ∧ causeOf (.vadd { word (fp 4 5) (fp 4 6) (fp 4 7) with h := 0 }) = some (some 0x004) := by decide +kernel
/-- An event has no word. -/
theorem test_event_has_no_word : WellFormed (.helperGrant 0) = false := by decide +kernel

/-! A few results, worked out by hand from the rules. -/

/-- The value that the word's result carries. -/
def resultOf (o : Host.Outcome State Fault Refusal) : Option Word :=
  match o with
  | .next t => t.mine.flight.getLast?.map (·.value)
  | _ => none
def flagsOf (o : Host.Outcome State Fault Refusal) : Option (BitVec 8) :=
  match o with
  | .next t => some t.mine.fflg
  | _ => none
def two (x y : Word) : State := withThread { n := [(1, x), (2, y)] }
def abc : Fields := word (nn 5) (nn 1) (nn 2)

/-- The first step from reset runs the word placed where it fetches, with an empty queue. -/
theorem test_reset_runs_the_word : resultOf (step (placed addBits)) = some 0 := by decide +kernel
theorem test_add_wraps : resultOf (exec (.add abc) (two 0xFFFFFFFFFFFFFFFF 1)) = some 0 := by decide +kernel
/-- R161: y = 0, and x = −2^63 with y = −1. -/
theorem test_divs_corners :
    resultOf (exec (.divs abc) (two 7 0)) = some 0xFFFFFFFFFFFFFFFF ∧ resultOf (exec (.divs abc) (two 0x8000000000000000 0xFFFFFFFFFFFFFFFF)) = some 0x8000000000000000 := by decide +kernel
/-- −7 rem 2 = −1. -/
theorem test_rems_sign : resultOf (exec (.rems abc) (two 0xFFFFFFFFFFFFFFF9 2)) = some 0xFFFFFFFFFFFFFFFF := by decide +kernel
theorem test_mulhs : resultOf (exec (.mulhs abc) (two 0xFFFFFFFFFFFFFFFF 1)) = some 0xFFFFFFFFFFFFFFFF := by decide +kernel
/-- R162: 64 leading zeros. -/
theorem test_clz_zero : resultOf (exec (.clz (word (nn 5) (nn 1) o0)) (two 0 0)) = some 64 := by decide +kernel
theorem test_cmp_lt_is_signed :
    resultOf (exec (.cmpLt (word ⟨.pred, 1⟩ (nn 1) (nn 2))) (two 0x8000000000000000 0)) = some 1 ∧
    resultOf (exec (.cmpLtu (word ⟨.pred, 1⟩ (nn 1) (nn 2))) (two 0x8000000000000000 0)) = some 0 := by decide +kernel
/-- R50, R165: 1 + 2^−24 is a tie, and goes to the even significand. -/
theorem test_fadd_ties_to_even :
    resultOf (exec (.fadd (word (nn 0x2005) (nn 0x2001) (nn 0x2002))) (two 0x3F800000 0x33800000)) = some 0x3F800000 := by decide +kernel
theorem test_fmul_half : resultOf (exec (.fmul (word (nn 0x2005) (nn 0x2001) (nn 0x2002))) (two 0x40400000 0x3F000000)) = some 0x3FC00000 := by decide +kernel

/-! The hypotheses of every statement are met: each theorem applies a statement to states and operands, one for each of its clauses. -/

theorem witness_ScalarWordLandsItsResult (h : Obligations.ScalarWordLandsItsResult) :
    (∃ t, exec (.divs (word (nn 5) (nn 1) (nn 2))) (withThread { n := [(1, 0x8000000000000000), (2, 0xFFFFFFFFFFFFFFFF)] }) = .next t) ∧
    ∃ t, exec (.fadd (word (nn 0x2005) (nn 0x2001) (nn 0x2002))) (withThread { n := [(1, 0x3F800000), (2, 0x3F800000)] }) = .next t :=
  ⟨let ⟨t, e, _⟩ := h.1 _ _ _ _ _ rfl (by decide +kernel); ⟨t, e⟩,
   let ⟨t, e, _⟩ := h.2 _ _ _ _ _ _ rfl (by decide +kernel) (by intro id e; cases e); ⟨t, e⟩⟩

theorem witness_ControlWordsBranchOrTrap (h : Obligations.ControlWordsBranchOrTrap) :
    (∃ t, exec (.br (word (im 0x1FFFC) o0 o0)) (withThread {}) = .next t) ∧
    (∃ t, exec (.ret (word (nn 1) o0 o0)) (withThread { n := [(1, 64)] }) = .next t) ∧
    (∃ t, exec (.loop (word (nn 1) (im 2) o0)) (withThread { n := [(1, 1)] }) = .next t) ∧
    ∃ t, exec (.nop (word o0 o0 o0)) (withThread {}) = .next t :=
  ⟨let ⟨t, e, _⟩ := h.1 _ _ _ rfl (by decide +kernel) (by decide +kernel); ⟨t, e⟩,
   let ⟨_, _, e, _⟩ := h.2.1 _ _ _ rfl (by decide +kernel) (by decide +kernel); ⟨_, e⟩,
   let ⟨t, e, _⟩ := h.2.2.1 (word (nn 1) (im 2) o0) (withThread { n := [(1, 1)] }) (by decide +kernel) (by decide +kernel); ⟨t, e⟩,
   let ⟨t, e, _⟩ := h.2.2.2 (word o0 o0 o0) (withThread {}) (by decide +kernel); ⟨t, e⟩⟩

def wLoad : Fields := word (nn 4) (aa 6) o0
def wStore : Fields := word (aa 6) (nn 4) o0
/-- A pointer to the last eight bytes of local memory. -/
def atEnd : State := withThread { a := [(6, { base := 0x0FFEF8 })] }

theorem witness_LoadSamplesItsAddress (h : Obligations.LoadSamplesItsAddress) : ∃ t, exec (.ldlD wLoad) atEnd = .next t :=
  let ⟨t, e, _⟩ := h (.ldlD wLoad) atEnd _ _ _ _ rfl rfl (by decide +kernel) (by decide +kernel) (by decide +kernel) rfl rfl
  ⟨t, e⟩

theorem witness_StoreIsHeldUntilItsCommit (h : Obligations.StoreIsHeldUntilItsCommit) : ∃ t, exec (.stlD wStore) atEnd = .next t :=
  let ⟨t, e, _⟩ := h (.stlD wStore) atEnd _ _ _ _ rfl rfl (by decide +kernel) (by decide +kernel) (by decide +kernel) rfl
  ⟨t, e⟩

/-- Request thread 3 of a memory core. -/
def inRequest (th : Thread) : State :=
  { withCore {} with cur := .req 3, reqThreads := [(3, { thread := { th with stat := .run } })], ops := [(9, {})] }

theorem witness_RequestThreadUsesItsScratch (h : Obligations.RequestThreadUsesItsScratch) :
    (∃ t, exec (.ldlD (word (nn 4) ⟨.direct, 0⟩ (nn 1))) (inRequest { n := [(1, 0xFF8)] }) = .next t) ∧
    ∃ t, exec (.stlD (word ⟨.direct, 0⟩ (nn 4) (nn 1))) (inRequest { n := [(1, 0xFF8)] }) = .next t :=
  ⟨let ⟨t, e, _⟩ := h.1 _ _ _ _ _ rfl rfl (by decide +kernel) (by decide +kernel) (by decide +kernel) (by decide +kernel); ⟨t, e⟩,
   let ⟨t, e, _⟩ := h.2 _ _ _ _ _ rfl rfl (by decide +kernel) (by decide +kernel) (by decide +kernel) (by decide +kernel); ⟨t, e⟩⟩

theorem witness_PointerWordsLandPointers (h : Obligations.PointerWordsLandPointers) :
    (∃ t, exec (.setp (word (aa 1) (aa 6) (im 0x1FFFF))) atEnd = .next t) ∧ ∃ t, exec (.ldp (word (aa 1) (aa 6) o0)) atEnd = .next t :=
  ⟨let ⟨t, e, _⟩ := h.1 _ _ (by decide +kernel); ⟨t, e⟩,
   let ⟨t, e, _⟩ := h.2 _ _ 0 0 _ rfl (by decide +kernel) rfl (by decide +kernel) (by decide +kernel) rfl; ⟨t, e⟩⟩

/-- A queue in bank 5, its pointer in a3, and one of a histogram in bank 6, its pointer in a4. -/
def withBanks (th : Thread) (m : Memory := []) : State :=
  withThread { th with a := [(3, { base := 0x50000 }), (4, { base := 0x60000 }), (5, { base := 0x70000, stride := 256 }),
                             (6, { base := 0x78000, stride := 256 }), (7, { base := 0x7C000, stride := 256 })] }
    { mem := m, banks := [(5, { pers := 1, first := 5 }), (6, { pers := 5, first := 6 })] }

theorem witness_PersonalityAccessIsARequest (h : Obligations.PersonalityAccessIsARequest) :
    (∃ t, exec (.ldlD (word (nn 4) (aa 3) o0 1)) (withBanks {}) = .next t) ∧
    ∃ t, exec (.stlD (word (aa 3) (nn 4) o0)) (withBanks {}) = .next t :=
  ⟨let ⟨t, _, _, e, _⟩ := h.1 (word (nn 4) (aa 3) o0 1) (withBanks {}) 0 0 _ rfl (by decide +kernel) rfl (by decide +kernel) (by decide +kernel) rfl
   ⟨t, e⟩,
   let ⟨t, _, e, _⟩ := h.2 (word (aa 3) (nn 4) o0) (withBanks {}) 0 0 _ rfl (by decide +kernel) rfl (by decide +kernel) (by decide +kernel) rfl
   ⟨t, e⟩⟩

/-- Request 7 at a bank of core 0. -/
def withReq (r : BankReq) : State := withCore { reqs := [(7, r)], banks := [(5, { pers := 1, first := 5 })] }

theorem witness_BankPerformsItsOperation (h : Obligations.BankPerformsItsOperation) :
    (∃ t, exec (.personalityOperation 0 7) (withReq { bank := 5, op := .ldl 1 0, flight := some 3, dest := some 4 }) = .next t) ∧
    (∃ t, exec (.personalityOperation 0 7) (withReq { bank := 5, op := .stl 0 9, flight := some 3 }) = .next t) ∧
    ∃ t, exec (.personalityOperation 0 7) (withReq { bank := 5, op := .stat, flight := some 3 }) = .next t :=
  ⟨let ⟨t, e, _⟩ := (h (withReq { bank := 5, op := .ldl 1 0, flight := some 3, dest := some 4 }) 0 7 _ rfl rfl (by decide +kernel)
      (by decide +kernel) ⟨rfl, rfl, rfl, rfl⟩ rfl).1 _ _ rfl
   ⟨t, e⟩,
   let ⟨t, e, _⟩ := (h (withReq { bank := 5, op := .stl 0 9, flight := some 3 }) 0 7 _ rfl rfl (by decide +kernel) (by decide +kernel)
      ⟨rfl, rfl, rfl, rfl⟩ rfl).2.1 _ _ rfl
   ⟨t, e⟩,
   let ⟨t, e, _⟩ := (h (withReq { bank := 5, op := .stat, flight := some 3 }) 0 7 _ rfl rfl (by decide +kernel) (by decide +kernel)
      ⟨rfl, rfl, rfl, rfl⟩ rfl).2.2 rfl
   ⟨t, e⟩⟩

/-- A span of one bank with this personality, empty, with room for two. -/
def aSpan (p : Nat) : Span := { first := 5, count := 1, pers := p }
def anEmpty (p : Nat) : Memory := (aSpan p).format [] p 2

theorem witness_QueueStackAndMapHoldWhatTheyTake (h : Obligations.QueueStackAndMapHoldWhatTheyTake) :
    ((aSpan 2).store (anEmpty 2) 0 9).status = 0 ∧ ((aSpan 1).store (anEmpty 1) 0 9).status = 0 ∧
    ((aSpan 1).store [] 0 9).status = 1 ∧ ((aSpan 2).load (anEmpty 2) 1 0).status = 2 ∧
    ((aSpan 3).load ((aSpan 3).store (anEmpty 3) 2 0x700000009).mem 3 7).status = 0 :=
  ⟨(h.1.1 (aSpan 2) (anEmpty 2) 9 rfl (by decide) (by decide) (by decide +kernel) (by decide +kernel)).1,
   (h.1.2.1 (aSpan 1) (anEmpty 1) 9 rfl (by decide) (by decide) (by decide +kernel) (by decide +kernel) (by decide +kernel) (by decide +kernel)).1,
   (h.1.2.2.1 (aSpan 1) [] 9 (.inl rfl) (by decide +kernel)).1,
   (h.1.2.2.2 (aSpan 2) (anEmpty 2) 1 0 (.inr rfl) (by decide +kernel)).1,
   (h.2 (aSpan 3) (anEmpty 3) 0x700000009 rfl (by decide) (by decide) (by decide) (by decide +kernel)).1⟩

theorem witness_BankInstructionsReachAndChangeTheirBank (h : Obligations.BankInstructionsReachAndChangeTheirBank) :
    (∃ t, exec (.bpers (word (aa 5) o0 (im 1))) (withBanks {}) = .next t) ∧
    (∃ t, exec (.bspan (word (aa 5) (im 2) o0)) (withBanks {}) = .next t) ∧
    (∃ t, exec (.bspan (word (aa 5) (im 2) o0)) (withThread { waiting := true, waitOn := some 9 }) = .next t) ∧
    ∃ t, exec (.bstat (word (nn 1) (aa 5) o0)) (withBanks {}) = .next t :=
  ⟨let ⟨t, e, _⟩ := h.1.1 (word (aa 5) o0 (im 1)) (withBanks {}) _ 0 0 _ rfl (by decide +kernel) rfl rfl (by decide +kernel) (by decide +kernel)
      (by decide +kernel); ⟨t, e⟩,
   let ⟨t, e, _⟩ := h.1.2.1 (word (aa 5) (im 2) o0) (withBanks {}) _ 0 0 _ _ rfl (by decide +kernel) rfl rfl (by decide +kernel) rfl
      (by decide +kernel) (by decide +kernel)
      (by
        intro j h1 h2
        have e : j = 7 ∨ j = 8 := by
          change 7 ≤ j at h1
          change j < 9 at h2
          omega
        rcases e with rfl | rfl <;> decide +kernel)
   ⟨t, e⟩,
   let ⟨t, e, _⟩ := h.1.2.2.1 (.bspan (word (aa 5) (im 2) o0)) _ (withThread { waiting := true, waitOn := some 9 }) 0 0 9 (.inr rfl) rfl rfl rfl rfl
      (by decide +kernel); ⟨t, e⟩,
   let ⟨t, _, e, _⟩ := h.1.2.2.2.1 (word (nn 1) (aa 5) o0) (withBanks {}) _ 0 0 _ rfl (by decide +kernel) rfl rfl (by decide +kernel)
      (by decide +kernel); ⟨t, e⟩⟩

theorem witness_BankSnapshot (h : Obligations.BankInstructionsReachAndChangeTheirBank) :
    ∃ t, exec (.bsnap (word (aa 5) (aa 4) o0)) (withBanks {} (Span.format ⟨6, 1, 5⟩ [] 5 64)) = .next t :=
   have met := h.1.2.2.2.2 (word (aa 5) (aa 4) o0) (withBanks {} (Span.format ⟨6, 1, 5⟩ [] 5 64)) _ 0 0 0x70000 0x60000 256 { first := 6, count := 1, pers := 5 }
      rfl (by decide +kernel) rfl (by decide +kernel) (by decide +kernel) (by decide +kernel) (by decide +kernel)
   have free := met (by decide +kernel) (by decide +kernel) (by decide +kernel) (by decide +kernel) (by decide +kernel)
   let ⟨t, _, e, _⟩ := free (by decide +kernel) (by decide +kernel) (by decide +kernel) (by decide +kernel) (by decide +kernel)
   ⟨t, e⟩

/-- Request 7 of core 0 changes bank 5. -/
def withChange (b : Word) : State :=
  withCore { reqs := [(7, { bank := 5, op := .pers 2 0 b })], banks := [(5, { first := 5, changing := [7] })] }

theorem witness_BankChangePerforms (h : Obligations.BankInstructionsReachAndChangeTheirBank) :
    (∃ t, exec (.bankChangePerform 0 7) (withChange 8160) = .next t) ∧ (∃ t, exec (.bankChangePerform 0 7) (withChange 8161) = .next t) ∧
    ∃ t, exec (.bankChangeEnd 0 7) (withChange 8160) = .next t :=
  ⟨let ⟨t, e, _⟩ := h.2.1 (withChange 8160) 0 7 2 8160 _ _ rfl rfl rfl (by decide +kernel) (by decide +kernel) rfl (by decide) (by decide)
      (by decide +kernel) (by decide +kernel) (by decide +kernel); ⟨t, e⟩,
   let ⟨t, e, _⟩ := h.2.2.1 (withChange 8161) 0 7 2 0 8161 _ _ rfl rfl rfl (by decide +kernel) (by decide +kernel) rfl (by decide)
      (by decide +kernel); ⟨t, e⟩,
   let ⟨t, e, _⟩ := h.2.2.2 (withChange 8160) 0 7; ⟨t, e⟩⟩

/-- Outside timed code nothing is asked of the shared banks. -/
theorem quiet {s : State} {c : Nat} (h : s.cx.timed = false) : sharedQuiet s c := fun e => by rw [h] at e; cases e

/-- VL is 100, and a5 to a7 point at rows of banks 7. -/
def withRows : State := withBanks { vl := 100 }

theorem witness_VectorWordStarts (h : Obligations.VectorWordStarts) :
    (∃ t, exec (.vadd (word (fp 4 5) (fp 4 6) (fp 4 7))) withRows = .next t) ∧
    (∃ t, exec (.vsum (word (nn 0xC001) (fp 6 6) o0)) withRows = .next t) ∧
    (∃ t, exec (.vperm (word (fp 6 5) (fp 6 6) (fp 9 7))) withRows = .next t) ∧
    (∃ t, exec (.vpack (word (aa 5) (fp 6 6) o0)) withRows = .next t) ∧
    (∃ t, exec (.vunpk (word (fp 6 5) (aa 6) o0)) withRows = .next t) ∧
    ∃ t, exec (.vhisto (word (aa 4) (fp 10 6) o0)) withRows = .next t :=
  ⟨let ⟨t, e, _⟩ := h.1 (.vadd (word (fp 4 5) (fp 4 6) (fp 4 7))) withRows _ _ 0 0 _ rfl rfl (by decide +kernel) rfl (by decide +kernel)
      (by decide +kernel) (quiet rfl) nofun; ⟨t, e⟩,
   let ⟨t, _, e, _⟩ := h.2.1 (.vsum (word (nn 0xC001) (fp 6 6) o0)) withRows _ _ 0 0 _ rfl rfl (by decide +kernel) rfl (by decide +kernel)
      (by decide +kernel) (quiet rfl); ⟨t, e⟩,
   let ⟨t, e, _⟩ := h.2.2.1 (.vperm (word (fp 6 5) (fp 6 6) (fp 9 7))) withRows _ _ _ 0 0 _ rfl rfl (by decide +kernel) rfl (by decide +kernel)
      (by decide +kernel) (by decide +kernel) (quiet rfl); ⟨t, e⟩,
   let ⟨t, _, e, _⟩ := h.2.2.2.1 (word (aa 5) (fp 6 6) o0) withRows 0 0 256 ⟨0x70000, 256, 0, 1, none⟩ ⟨0x78000, 256, 6, 2, none⟩ rfl (by decide +kernel)
      (by decide +kernel) (by decide +kernel) (by decide +kernel) (by decide +kernel) (by decide +kernel) (by decide +kernel)
      (by intro i j h1 h2; change i < 1 at h1; change j < 2 at h2; obtain rfl : i = 0 := by omega
          obtain rfl | rfl : j = 0 ∨ j = 1 := by omega
          all_goals decide) (quiet rfl); ⟨t, e⟩,
   let ⟨t, _, e, _⟩ := h.2.2.2.2.1 (word (fp 6 5) (aa 6) o0) withRows 0 0 ⟨0x70000, 256, 6, 2, none⟩ ⟨0x78000, 256, 0, 0, none⟩ rfl (by decide +kernel)
      (by decide +kernel) (by decide +kernel) (by decide +kernel) (by decide +kernel) (by decide +kernel) (quiet rfl); ⟨t, e⟩,
   have read := h.2.2.2.2.2.1 (word (aa 4) (fp 10 6) o0) withRows 0 0 _ _ rfl (by decide +kernel) rfl rfl (by decide +kernel) (by decide +kernel)
   let ⟨t, _, e, _⟩ := read (by decide +kernel) (by decide +kernel) (by decide +kernel) (by decide +kernel) (by decide +kernel) (by decide +kernel); ⟨t, e⟩⟩

theorem witness_VectorWordOfNoRow (h : Obligations.VectorWordStarts) :
    (∃ t, exec (.vadd (word (fp 4 5) (fp 4 6) (fp 4 7))) (withBanks {}) = .next t) ∧
    (∃ t, exec (.vrmax (word (nn 0xC001) (fp 6 6) o0)) (withBanks {}) = .next t) ∧
    (∃ t, exec (.vcomp (word (fp 6 5) (fp 6 6) (fp 10 7))) (withBanks {}) = .next t) ∧
    ∃ t, exec (.vhisto (word (aa 4) (fp 10 6) o0)) (withBanks {}) = .next t :=
  have none := h.2.2.2.2.2.2
  ⟨let ⟨t, e, _⟩ := none.1 (.vadd (word (fp 4 5) (fp 4 6) (fp 4 7))) (withBanks {}) _ _ 0 0 _ rfl rfl (by decide +kernel) rfl (by decide +kernel)
      (by decide +kernel) nofun; ⟨t, e⟩,
   let ⟨t, e, _⟩ := none.2.1 (.vrmax (word (nn 0xC001) (fp 6 6) o0)) (withBanks {}) _ _ 0 0 _ rfl rfl (by decide +kernel) rfl rfl (by decide +kernel)
      (by decide +kernel); ⟨t, e⟩,
   let ⟨t, e, _⟩ := none.2.2.1 (.vcomp (word (fp 6 5) (fp 6 6) (fp 10 7))) (withBanks {}) _ _ _ 0 0 _ rfl rfl (by decide +kernel) rfl
      (by decide +kernel) (by decide +kernel); ⟨t, e⟩,
   have met := none.2.2.2 (word (aa 4) (fp 10 6) o0) (withBanks {}) 0 0 _ _ rfl (by decide +kernel) rfl rfl (by decide +kernel) (by decide +kernel)
   let ⟨t, e, _⟩ := met (by decide +kernel) (by decide +kernel) (by decide +kernel) (by decide +kernel) (by decide +kernel) (by decide +kernel); ⟨t, e⟩⟩

/-- A vector addition of 100 bytes in rows of bank 7, number 7 of core 0. -/
def aVec (v : VecOp) : VecOp :=
  { v with code := .vadd, vl := 100, fmtA := 4, ns := 1, next := 100, a := some { base := 0x70000, stride := 256, fmt := 4, rows := 1 },
           b := some { base := 0x78000, stride := 256, fmt := 4, rows := 1 }, c := some { base := 0x7C000, stride := 256, fmt := 4, rows := 1 } }
def withVec (v : VecOp) (acc : List Acc := []) : State := withCore { vecs := [(7, aVec v)], acc := acc }
def someBytes : List Byte := List.replicate 256 200

theorem witness_VectorStepsReadComputeAndWrite (h : Obligations.VectorStepsReadComputeAndWrite) :
    (∃ t, exec (.vectorRowStep 0 7) (withVec {}) = .next t) ∧
    (∃ t, exec (.vectorRowStep 0 7) (withVec { step := 1, out := [(100, 0)], bufB := someBytes, bufC := someBytes }) = .next t) ∧
    (∃ t, exec (.vectorRowStep 0 7) (withVec {} [{ bank := 7, arrive := 100, first := true }]) = .next t) ∧
    (vecRow (aVec { bufB := someBytes, bufC := someBytes }) 0).1 ≠ [] :=
  ⟨let ⟨t, _, e, _⟩ := h.1.1 (withVec {}) 0 7 0 (aVec {}) rfl rfl (by decide) rfl (by decide) rfl rfl rfl (by decide) (by decide +kernel) rfl rfl rfl
      ⟨rfl, rfl, rfl, rfl⟩ (by decide +kernel); ⟨t, e⟩,
   let ⟨t, e, _⟩ := h.1.2.1 (withVec { step := 1, out := [(100, 0)], bufB := someBytes, bufC := someBytes }) 0 7 0 0x70000 _ rfl rfl (by decide) rfl rfl
      rfl (by decide +kernel) rfl rfl (by decide +kernel) (by decide +kernel); ⟨t, e⟩,
   let ⟨t, _, e, _⟩ := h.1.2.2 (withVec {} [{ bank := 7, arrive := 100, first := true }]) 0 7 (aVec {}) rfl rfl (by decide) rfl rfl rfl
      ⟨rfl, rfl, rfl, rfl⟩ (by decide) ⟨_, .head _, by decide +kernel⟩; ⟨t, e⟩,
   by rw [h.2 (aVec { bufB := someBytes, bufC := someBytes }) 0 4 1 _ _ rfl (by decide) rfl rfl rfl rfl rfl rfl (by decide)]; decide +kernel⟩

def tt (r : BitVec 17) : Operand := ⟨.tile, r⟩
/-- Tile 2 is 4 by 8 of I32. -/
def aTile (v : Tile) : Tile := { v with rows := 4, cols := 8, ty := 1, elems := [(0, 5)] }
/-- Its state, with pointers a4 and a5 at rows of banks 6 and 7, stride 256, and VL 100. -/
def withTile (v : Tile) (n : SMap Word := []) : State :=
  withThread { n := n, vl := 100, a := [(4, { base := 0x60000, stride := 256 }), (5, { base := 0x70000, stride := 256 })] } { tiles := [(2, aTile v)] }

theorem witness_TileWordsConfigureClearLoadAndStore (h : Obligations.TileWordsConfigureClearLoadAndStore) :
    (∃ t, exec (.tcfg (word (tt 2) (im 0x1FBF) o0 1)) (withTile {}) = .next t) ∧
    (∃ t, exec (.tzero (word (tt 2) o0 o0)) (withTile {}) = .next t) ∧
    (∃ t, exec (.tload (word (tt 2) (fp 4 4) o0)) (withTile {}) = .next t) ∧
    (∃ t, exec (.tstore (word (fp 4 4) (tt 2) o0)) (withTile {}) = .next t) ∧
    ∃ t, exec (.tchk (word (nn 1) (tt 2) o0)) (withTile {}) = .next t :=
  ⟨let ⟨t, _, e, _⟩ := h.1 (word (tt 2) (im 0x1FBF) o0 1) (withTile {}) 0 0 _ _ rfl (by decide +kernel) rfl rfl rfl (by decide +kernel) nofun; ⟨t, e⟩,
   let ⟨t, e, _⟩ := h.2.1 (word (tt 2) o0 o0) (withTile {}) 0 0 rfl (by decide +kernel) rfl; ⟨t, e⟩,
   let ⟨t, _, _, e, _⟩ := h.2.2.1 (word (tt 2) (fp 4 4) o0) (withTile {}) _ 0 0 _ _ _ rfl (by decide +kernel) rfl rfl rfl rfl rfl (by decide +kernel)
      (by decide +kernel); ⟨t, e⟩,
   let ⟨t, _, _, e, _⟩ := h.2.2.2.1 (word (fp 4 4) (tt 2) o0) (withTile {}) _ 0 0 _ _ _ rfl (by decide +kernel) rfl rfl rfl rfl rfl rfl
      ⟨rfl, rfl, rfl, rfl⟩ (by decide +kernel) (by decide +kernel); ⟨t, e⟩,
   let ⟨t, e, _⟩ := h.2.2.2.2 (word (nn 1) (tt 2) o0) (withTile {}) 0 0 _ rfl (by decide +kernel) rfl rfl; ⟨t, e⟩⟩

theorem witness_EngineWordsQueueTheirOperation (h : Obligations.EngineWordsQueueTheirOperation) :
    (∃ t, exec (.mma (word (tt 2) (fp 4 4) (im 0) 1)) (withTile {}) = .next t) ∧
    (∃ t, exec (.qstage (word (aa 4) (tt 2) (im 0) 1)) (withThread { a := [(4, { base := 0x60000, stride := 256 }), (5, { base := 0x70000 })] }) = .next t) ∧
    ∃ t, exec (.mmerge (word (im 3) o0 (im 0) 1)) (withTile {}) = .next t :=
  ⟨let ⟨t, _, _, e, _⟩ := h.1 (.mma (word (tt 2) (fp 4 4) (im 0) 1)) (withTile {}) _ _ _ 0 0 _ _ rfl rfl (by decide +kernel) rfl rfl (by decide +kernel)
      (by decide +kernel) (by decide +kernel) (by decide +kernel) (by decide +kernel) (by decide +kernel) nofun; ⟨t, e⟩,
   let ⟨t, _, _, e, _⟩ := h.2.1 (word (aa 4) (tt 2) (im 0) 1) (withThread { a := [(4, { base := 0x60000, stride := 256 }), (5, { base := 0x70000 })] }) 0 0 _ _ _ _ _ _ _ rfl
      (by decide +kernel) rfl (by decide) rfl (by decide +kernel) rfl rfl rfl (by decide +kernel) (by decide +kernel) (by decide +kernel) rfl rfl
      (by decide +kernel) (by decide +kernel) (by decide +kernel); ⟨t, e⟩,
   let ⟨t, _, _, e, _⟩ := h.2.2 (word (im 3) o0 (im 0) 1) (withTile {}) 0 0 rfl (by decide +kernel) (by decide +kernel) (by decide +kernel); ⟨t, e⟩⟩

/-- Operation 7 of core 0, on tile 2. -/
def withEng (e : Eng) (v : Tile := {}) : State :=
  withCore { engs := [(7, e)], tiles := [(2, aTile v)], threads := [(0, { stat := .run })] }
def aProduct (e : Eng) : Eng :=
  { e with kind := .product, tile := 2, fmt := 4, k := 100, tm := 4, tn := 8, ty := 1, aBase := 0x60000, aStride := 256, bBase := 0x70000, bStride := 256 }

/-- A product of FP16 elements, of which one is an infinity. -/
def infinite : Eng := { kind := .product, tile := 2, fmt := 2, k := 4, tm := 4, tn := 8, ty := 0, started := true, phase := 3, ck := true, landed := true, inf := true, vA := [0x00, 0x7C] }

theorem witness_EnginesStartLandJudgeAndSum (h : Obligations.EnginesStartLandJudgeAndSum) :
    (∃ t, exec (.engineStart 0 7) (withEng (aProduct { start := 100 }) { busy := [7] }) = .next t) ∧
    (∃ t, exec (.engineStart 0 7) (withEng (aProduct { start := 100, timed := true }) { busy := [6, 7] }) = .next t) ∧
    (∃ t, exec (.engineStart 0 7) (withEng { kind := .merge, start := 100, arg := 3 }) = .next t) ∧
    (∃ t, exec (.productLanding 0 7) (withEng (aProduct { started := true, phase := 3, ck := true }) { busy := [7] }) = .next t) ∧
    (∃ t, exec (.checksumVerdict 0 7) (withEng (aProduct { started := true, phase := 3, ck := true, landed := true })) = .next t) ∧
    (∃ t, exec (.checksumVerdict 0 7) (withEng infinite) = .next t) ∧
    (∃ t, exec (.productReplay 0 7) (withEng (aProduct { started := true, phase := 3 })) = .next t) ∧
    (aProduct { vA := List.replicate 1024 3, vB := List.replicate 2048 5 }).product.1 ≠ [] :=
  ⟨let ⟨t, _, e, _⟩ := h.1.1 (withEng (aProduct { start := 100 }) { busy := [7] }) 0 7 _ rfl rfl rfl rfl (by decide) rfl rfl rfl rfl (.inr (by decide +kernel))
      rfl ⟨rfl, rfl, rfl, rfl⟩ (by decide +kernel) (by decide +kernel); ⟨t, e⟩,
   ⟨_, h.1.2.1 (withEng (aProduct { start := 100, timed := true }) { busy := [6, 7] }) 0 7 _ rfl rfl rfl (by decide) (by decide) rfl rfl (by decide +kernel) rfl⟩,
   let ⟨t, e, _⟩ := h.1.2.2.1 (withEng { kind := .merge, start := 100, arg := 3 }) 0 7 _ rfl rfl rfl rfl rfl (by decide) (by decide) (by decide +kernel)
   ⟨t, e⟩,
   let ⟨t, e, _⟩ := h.1.2.2.2.1 (withEng (aProduct { started := true, phase := 3, ck := true }) { busy := [7] }) 0 7 _ rfl rfl rfl (by decide) rfl rfl rfl (by decide +kernel); ⟨t, e⟩,
   let ⟨t, e, _⟩ := h.1.2.2.2.2.1 (withEng (aProduct { started := true, phase := 3, ck := true, landed := true })) 0 7 _ rfl
      ⟨rfl, rfl, rfl, rfl⟩ rfl rfl (by decide +kernel) rfl (.inl rfl); ⟨t, e⟩,
   let ⟨t, e, _⟩ := h.1.2.2.2.2.2.1 (withEng infinite) 0 7 _ rfl ⟨rfl, rfl, rfl, rfl⟩ rfl rfl (by decide +kernel) rfl; ⟨t, e⟩,
   let ⟨t, _, e, _⟩ := h.1.2.2.2.2.2.2 (withEng (aProduct { started := true, phase := 3 })) 0 7 _ rfl rfl (by decide) (by decide) rfl rfl rfl (by decide +kernel)
   ⟨t, e⟩,
   fun c => by
     have e := h.2 (aProduct { vA := List.replicate 1024 3, vB := List.replicate 2048 5 }) 0 rfl rfl rfl rfl (by decide)
     rw [c] at e
     revert e
     decide +kernel⟩

theorem witness_LendingWordsMintOpenAndSend (h : Obligations.LendingWordsMintOpenAndSend) :
    (∃ t, exec (.capmint (word (nn 1) (nn 2) (im 1))) (withTile {} [(2, 0x0FFFFFFF0000FF7F)]) = .next t) ∧
    (∃ t, exec (.capmint (word (nn 1) (nn 2) (im 0))) (withTile {} [(2, 0x0FFFFFFF0000FF7F)]) = .next t) ∧
    (∃ t, exec (.lend (word (im 0) (im 65535) o0)) (withTile {}) = .next t) ∧
    ∃ t, exec (.mcmd (word (nn 1) (nn 2) (nn 3))) (withTile {} [(1, 0), (3, 0x1000)]) = .next t :=
  ⟨let ⟨t, _, _, e, _⟩ := h.1 (word (nn 1) (nn 2) (im 1)) (withTile {} [(2, 0x0FFFFFFF0000FF7F)]) 0 0 _ _ _ rfl (by decide +kernel) rfl rfl rfl
      (by decide +kernel) (by decide +kernel) (by decide +kernel) (by decide +kernel); ⟨t, e⟩,
   let ⟨t, e, _⟩ := h.2.1 (word (nn 1) (nn 2) (im 0)) (withTile {} [(2, 0x0FFFFFFF0000FF7F)]) 0 0 _ rfl (by decide +kernel) rfl
      (by decide +kernel) (by decide +kernel) (by decide +kernel) (by decide +kernel); ⟨t, e⟩,
   let ⟨t, e, _⟩ := h.2.2.1 (word (im 0) (im 65535) o0) (withTile {}) 0 0 rfl (by decide +kernel) (by decide +kernel); ⟨t, e⟩,
   let ⟨t, _, _, e, _⟩ := h.2.2.2 (word (nn 1) (nn 2) (nn 3)) (withTile {} [(1, 0), (3, 0x1000)]) _ (by decide +kernel) (by decide +kernel)
      (by decide +kernel) (by decide +kernel) rfl (by decide +kernel); ⟨t, e⟩⟩

/-- Core 0 lends its array from cycle 90 on; entry 0 allows every product on every tile and row. -/
def aCap : Cap := { valid := true, rights := 7, tmask := 0xFF, lo := 0, hi := 0xFFFF, kmax := 4096, expiry := 101, check := 9 }
def aCommand : Word := 0x1C00180018D002
def withLend (c : Cap) (e : SMap Eng) : State :=
  { withCore { lend := some { lo := 90, hi := 5000 }, caps := [(0, c)], engs := e, tiles := [(2, aTile {})] } with
    ops := [(9, { kind := .mcmd, bv := capWord 0 aCap, cv := aCommand })] }

theorem witness_CommandIsJudgedArrivesAndStarts (h : Obligations.CommandIsJudgedArrivesAndStarts) :
    commandStatus { lend := some { lo := 90, hi := 100 } } 100 0 aCommand = 1 ∧
    commandStatus { lend := some { lo := 100, hi := 101 } } 100 0 aCommand = 2 ∧
    (∃ t, exec (.mcmdArrival 9) (withLend {} []) = .next t) ∧
    (∃ t, exec (.mcmdArrival 9) (withLend aCap []) = .next t) ∧
    ∃ t, exec (.mcmdStart 0 7) (withLend {} [(7, aProduct { lent := some 9 })]) = .next t :=
  ⟨(h.1 { lend := some { lo := 90, hi := 100 } } 100 0 aCommand _ rfl).1 (fun l e => .inr (by cases e; decide)),
   ((h.1 { lend := some { lo := 100, hi := 101 } } 100 0 aCommand _ rfl).2 _ rfl (by decide) (by decide)).1 rfl,
   let ⟨t, e, _⟩ := h.2.1 (withLend {} []) 9 _ rfl rfl rfl rfl (by decide +kernel) (by decide +kernel); ⟨t, e⟩,
   let ⟨t, _, e, _⟩ := h.2.2.1 (withLend aCap []) 9 _ _ rfl rfl rfl rfl (by decide +kernel) (by decide +kernel) rfl; ⟨t, e⟩,
   let ⟨t, _, e, _⟩ := h.2.2.2 (withLend {} [(7, aProduct { lent := some 9 })]) 0 7 _ rfl rfl rfl rfl rfl (by decide +kernel)
      (by decide +kernel); ⟨t, e⟩⟩

/-- The merge tree merges streams 0 and 1, of one entry each. -/
def aMerge (g : Merge) : Merge :=
  { g with streams := [(0, { base := 0x100, count := 1 }), (1, { base := 0x10200, count := 1 }), (8, { base := 0x20300, count := 2 })], mask := 3 }
def withMerge (g : Merge) : State := withThread { a := [(6, { base := 0x80008 })] } { merge := aMerge g }

/-- Every stream is used up, and one entry of the destination's last row has not been written. -/
def lastRow : State := withCore { merge := { st := 1, part := [5], pos := 1, streams := [(8, { base := 0x300, count := 2 })] } }

theorem witness_MergeTreeBindsMergesAndReports (h : Obligations.MergeTreeBindsMergesAndReports) :
    (∃ t, exec (.mbind (word (im 8) (aa 6) (im 65535))) (withMerge {}) = .next t) ∧
    (∃ t, exec (.mdrain (word o0 o0 o0)) (withMerge { st := 1 }) = .next t) ∧
    (∃ t, exec (.mstat (word (nn 1) o0 o0)) (withMerge { st := 4 }) = .next t) ∧
    (∃ t, exec (.mstat (word (nn 1) o0 o0)) (withMerge { st := 5 }) = .next t) ∧
    (∃ t, exec (.mergeDecision 0) (withMerge { st := 1 }) = .next t) ∧
    (∃ t, exec (.mergeDecision 0) (withCore { merge := { st := 1 } }) = .next t) ∧
    (∃ t, exec (.mergeDecision 0) lastRow = .next t) ∧
    (∃ t, exec (.mergeDecision 0) (withMerge { st := 1, ready := 200, drain := true }) = .next t) ∧
    (∃ t, exec (.mergeDecision 0) (withCore { threads := [(0, { stat := .trapped })], merge := { st := 1 } }) = .next t) ∧
    0 ∈ (((withMerge { st := 1 }).loadMerge 0).coreAt 0).merge.inputs :=
  ⟨let ⟨t, e, _⟩ := h.1.1 (word (im 8) (aa 6) (im 65535)) (withMerge {}) 0 0 _ _ _ rfl (by decide +kernel) rfl rfl rfl (by decide +kernel)
      (by decide +kernel) (by decide +kernel) (by decide +kernel) (by decide +kernel) (by decide +kernel) (by decide) (by decide +kernel); ⟨t, e⟩,
   let ⟨t, e, _⟩ := h.1.2.1 (word o0 o0 o0) (withMerge { st := 1 }) 0 0 rfl (by decide +kernel); ⟨t, e⟩,
   let ⟨t, e, _⟩ := h.1.2.2.1 (word (nn 1) o0 o0) (withMerge { st := 4 }) 0 0 rfl (by decide +kernel) (by decide); ⟨t, e⟩,
   ⟨_, h.1.2.2.2 (word (nn 1) o0 o0) (withMerge { st := 5 }) 0 0 rfl (by decide +kernel) rfl⟩,
   let ⟨t, e, _⟩ := h.2.1 (withMerge { st := 1 }) 0 0 _ ⟨rfl, (by decide +kernel), (by decide +kernel), ⟨rfl, rfl, rfl, rfl⟩, rfl, (by decide +kernel), (by decide +kernel), (by decide +kernel), (by decide +kernel), (by decide +kernel)⟩
      (by decide +kernel) (by decide +kernel) (by decide +kernel) (by decide +kernel) (by decide); ⟨t, e⟩,
   let ⟨t, e, _⟩ := h.2.2.1 (withCore { merge := { st := 1 } }) 0 _ ⟨rfl, (by decide +kernel), (by decide +kernel), ⟨rfl, rfl, rfl, rfl⟩, rfl, (by decide +kernel), (by decide +kernel), (by decide +kernel), (by decide +kernel), (by decide +kernel)⟩ (by decide +kernel)
      (by decide +kernel); ⟨t, e⟩,
   let ⟨t, _, e, _⟩ := h.2.2.2.1 lastRow _ 0 _ _ ⟨rfl, (by decide +kernel), (by decide +kernel), ⟨rfl, rfl, rfl, rfl⟩, rfl, (by decide +kernel), (by decide +kernel), (by decide +kernel), (by decide +kernel), (by decide +kernel)⟩ (by decide +kernel)
      (by decide +kernel) rfl rfl (by decide +kernel); ⟨t, e⟩,
   let ⟨t, e, _⟩ := h.2.2.2.2.1 (withMerge { st := 1, ready := 200, drain := true }) 0 rfl (by decide +kernel) (by decide +kernel) (by decide +kernel)
      ⟨rfl, rfl, rfl, rfl⟩ rfl rfl rfl; ⟨t, e⟩,
   let ⟨t, e, _⟩ := h.2.2.2.2.2.1 (withCore { threads := [(0, { stat := .trapped })], merge := { st := 1 } }) 0 rfl (by decide +kernel); ⟨t, e⟩,
   (h.2.2.2.2.2.2 _ 0 (by decide +kernel)).1⟩

/-- The burin unit of core 0, with two registers of its control context and a pointer at bank 6. -/
def withBurin (g : Burin) (n : SMap Word := []) : State := withThread { n := n, a := [(4, { base := 0x60000 })] } { burin := g }

theorem witness_BurinUnitLoadsArmsAndRuns (h : Obligations.BurinUnitLoadsArmsAndRuns) :
    (∃ t, exec (.bkld (word (im 0) (aa 4) (im 256))) (withBurin {}) = .next t) ∧
    (∃ t, exec (.bkarm (word (im 255) (aa 4) (nn 1))) (withBurin {} [(1, 0x7FF)]) = .next t) ∧
    (∃ t, exec (.bkoff (word o0 o0 o0)) (withBurin { armed := true }) = .next t) ∧
    (∃ t, exec (.bkstat (word (nn 1) o0 o0)) (withBurin { last := 0x0D4 }) = .next t) ∧
    (∃ t, exec (.burinTrigger 0 5) (withBurin { armed := true, rowBase := 5, rows := 1, entry := 3 }) = .next t) ∧
    ∃ t, exec (.burinTrigger 0 5) (withBurin { armed := true, rowBase := 4, rows := 2, running := true, pend := [(4, 0)] }) = .next t :=
  ⟨let ⟨t, _, _, e, _⟩ := h.1 (word (im 0) (aa 4) (im 256)) (withBurin {}) _ 0 0 _ _ rfl (by decide +kernel) rfl rfl (by decide +kernel) (by decide +kernel)
      rfl (by decide +kernel) (by decide +kernel) (by decide +kernel) (by decide +kernel) (by decide +kernel) (by decide +kernel) rfl rfl (by decide +kernel)
   ⟨t, e⟩,
   have met := h.2.1 (word (im 255) (aa 4) (nn 1)) (withBurin {} [(1, 0x7FF)]) _ 0 0 _ _ _ _ rfl (by decide +kernel) rfl rfl rfl rfl rfl
   have fits := met (by decide +kernel) (by decide +kernel) (by decide +kernel) (by decide +kernel)
   let ⟨t, e, _⟩ := fits (by decide +kernel) (by decide +kernel) (by decide +kernel) rfl rfl
   ⟨t, e⟩,
   let ⟨t, e, _⟩ := h.2.2.1 (word o0 o0 o0) (withBurin { armed := true }) 0 0 rfl (by decide +kernel); ⟨t, e⟩,
   let ⟨t, _, e, _⟩ := h.2.2.2.1 (word (nn 1) o0 o0) (withBurin { last := 0x0D4 }) 0 0 _ rfl (by decide +kernel) rfl; ⟨t, e⟩,
   let ⟨t, e, _⟩ := h.2.2.2.2.1 (withBurin { armed := true, rowBase := 5, rows := 1, entry := 3 }) 0 5 _ rfl (by decide +kernel) rfl rfl rfl
      ⟨rfl, rfl, rfl, rfl⟩; ⟨t, e⟩,
   let ⟨t, e, _⟩ := h.2.2.2.2.2 (withBurin { armed := true, rowBase := 4, rows := 2, running := true, pend := [(4, 0)] }) 0 5 (by decide +kernel) rfl
      ⟨rfl, rfl, rfl, rfl⟩
   ⟨t, e⟩⟩

theorem no_event {s : State} (h : s.agenda = []) : noEvent s := by
  intro e he
  rw [h, List.head?_nil] at he
  exact absurd he (by simp)
theorem slots {s : State} (h : s.agenda = []) (hr : s.read = true) (ho : s.opened = true) : slotsOffered s := ⟨no_event h, hr, ho⟩

theorem witness_EncodingRoundTrips (h : Obligations.EncodingRoundTrips) : ∃ bs, encode (.sub addWord) = some bs :=
  let ⟨bs, e, _⟩ := h (.sub addWord) (by decide +kernel); ⟨bs, e⟩

theorem witness_DecodingIsExact (h : Obligations.DecodingIsExact) :
    encodeWord (.add addWord) = some addBits ∧ decodeWord 0xC00000000000000000000000 = .error .noVersion ∧
    ∀ i w, encodeWord i = some w → w.extractLsb' 94 2 ≠ 3 → w.extractLsb' 84 10 ≠ (0x3FF000000000000000000000 : IWord).extractLsb' 84 10 :=
  ⟨by have e := h.1 addBits (.add addWord) (eq_of_gives (by decide +kernel)); exact e.1, (h.2.2.1 0xC00000000000000000000000).2 (by decide), h.2.2.2 0x3FF000000000000000000000 (eq_of_fails (by decide +kernel))⟩

theorem witness_StepRunsTheDecodedWord (h : Obligations.StepRunsTheDecodedWord) :
    step (placed addBits) = exec (.add addWord) { placed addBits with todo := [], cur := .core 0 0 } ∧
    ∃ i, step { inRequest {} with todo := [.req 3] } = exec i { inRequest {} with todo := [], cur := .req 3 } :=
  ⟨h.1 (placed addBits) _ 0 0 [] _ (List.replicate 0 0) (slots (by decide +kernel) rfl rfl) (by decide +kernel) (by decide +kernel) rfl
      (eq_of_gives (by decide +kernel)),
   _, h.2.1 { inRequest {} with todo := [.req 3] } _ 3 [] (.add { word o0 o0 o0 with h := 0 }) (List.replicate 0 0) (slots (by decide +kernel) rfl rfl) rfl rfl
      (eq_of_gives (by decide +kernel))⟩

theorem witness_StepGoesThroughTheCycle (h : Obligations.StepGoesThroughTheCycle) :
    (∃ t, step { withCore {} with read := false } = .next t) ∧ (∃ t, step { withCore {} with opened := false } = .next t) ∧
    (step { withCore {} with todo := [.thr 0 1] } = .next { withCore {} with todo := [] }) ∧ (∃ t, step (withCore {}) = .next t) ∧
    (∃ t, step { withCore {} with closed := true } = .next t) ∧
    step { withCore {} with closed := true, hub := { failed := 2 } } = .fault (.heldInReset 2) ∧
    step { withCore {} with agenda := [{ due := 99, ev := .helperGrant 0 }] } = exec (.helperGrant 0) (withCore {}) :=
  ⟨⟨_, h.2.1 { withCore {} with read := false } (no_event rfl) rfl⟩,
   let ⟨t, e, _⟩ := h.2.2.1 { withCore {} with opened := false } (no_event rfl) rfl rfl; ⟨t, e⟩,
   h.2.2.2.1 { withCore {} with todo := [.thr 0 1] } 0 1 [] (slots rfl rfl rfl) rfl (by decide +kernel),
   ⟨_, h.2.2.2.2.1 (withCore {}) (slots rfl rfl rfl) rfl rfl⟩,
   let ⟨t, e, _⟩ := h.2.2.2.2.2.1 { withCore {} with closed := true } (slots rfl rfl rfl) rfl rfl rfl; ⟨t, e⟩,
   h.2.2.2.2.2.2 { withCore {} with closed := true, hub := { failed := 2 } } (slots rfl rfl rfl) rfl rfl (by decide),
   h.1 { withCore {} with agenda := [{ due := 99, ev := .helperGrant 0 }] } _ [] rfl (by decide) (.inl (by decide))⟩

/-- Core 0 runs a group of context 1. -/
def inContext : State := { State.reset with groups := [(256, aGroup)], cores := [(0, { grp := some 256 })] }

theorem witness_WordThatFailsItsEncodingTraps (h : Obligations.WordThatFailsItsEncodingTraps) :
    (∃ t, step (placed 0xC00000000000000000000000) = .next t) ∧ (∃ t, step (placed 0x3FF000000000000000000000) = .next t) ∧
    (∃ t, exec (.add { addWord with m := 1 }) (withThread {}) = .next t) ∧
    (∃ x, (Instr.snap addWord).word = some x ∧ encodingCause inContext x = some 0x003) ∧
    ∃ x, (Instr.add { addWord with v := 3 }).word = some x ∧ encodingCause (withThread {}) x = some 0x001 :=
  ⟨⟨_, (h.1 (placed 0xC00000000000000000000000) _ 0 0 [] 0xC00000000000000000000000 (slots (by decide +kernel) rfl rfl) (by decide +kernel) (by decide +kernel) rfl
      (by decide) (by decide +kernel) (by decide +kernel) (by decide +kernel) (by decide +kernel) (by decide +kernel) (by decide +kernel)).1
      (by decide)⟩,
   let ⟨_, _, e⟩ := (h.1 (placed 0x3FF000000000000000000000) _ 0 0 [] 0x3FF000000000000000000000 (slots (by decide +kernel) rfl rfl) (by decide +kernel)
      (by decide +kernel) rfl (by decide) (by decide +kernel) (by decide +kernel) (by decide +kernel) (by decide +kernel) (by decide +kernel)
      (by decide +kernel)).2 (eq_of_fails (by decide +kernel))
   ⟨_, e⟩,
   ⟨_, h.2.1 (.add { addWord with m := 1 }) _ (withThread {}) 4 rfl (by decide +kernel) (by decide +kernel) rfl (by decide +kernel)⟩,
   ⟨_, rfl, h.2.2.1 (.snap addWord) _ inContext rfl rfl (by decide) ⟨0, rfl⟩ (by decide +kernel)⟩,
   ⟨_, rfl, h.2.2.2.1 (.add { addWord with v := 3 }) _ (withThread {}) rfl rfl⟩⟩

/-- Group 0 with a timed segment of words 2 to 9. -/
def timedGroup : Group := { aGroup with kernel := { aGroup.kernel with segs := [{ first := 2, nw := 8 }] } }
/-- The word is due on cycle 100 of the segment. -/
def inSegment : State := withThread { seg := some 2, prev := 99, restart := some { word := 2 } } {} timedGroup
def timedWord : Fields := { addWord with h := 0x1380 }

theorem witness_WordIssuesWhenItIsDue (h : Obligations.WordIssuesWhenItIsDue) :
    issues (.add addWord) (withThread {}) = true ∧ issues (.add timedWord) inSegment = true ∧
    ∃ t, exec (.add { addWord with g := 1 }) (withThread {}) = .next t :=
  ⟨h.1 (.add addWord) _ (withThread {}) rfl (by decide +kernel) (by decide +kernel) (by decide) (by decide +kernel) rfl (by decide +kernel)
      (by decide +kernel) nofun (by decide) (by decide +kernel),
   h.2.1 (.add timedWord) _ inSegment 0 _ rfl rfl (by decide +kernel) rfl (by decide +kernel) (by decide +kernel) (by decide +kernel) (by decide +kernel) (by decide +kernel) (by decide)
      (by decide +kernel) (by decide +kernel) (fun _ => by decide +kernel) (fun e => absurd rfl e),
   let ⟨t, e, _⟩ := h.2.2 (.add { addWord with g := 1 }) _ (withThread {}) rfl (by decide +kernel) (by decide +kernel) (by decide +kernel)
      (by decide +kernel) (by decide +kernel) (by decide +kernel); ⟨t, e⟩⟩

theorem witness_TrapIsTakenByTheTrapContext (h : Obligations.TrapIsTakenByTheTrapContext) :
    (((withThread {}).takeTrap (.core 0 0) 4 { cause := 1023, record := [7] }).coreAt 0).inTrap = some 0 ∧
    (∃ t, exec (.trapContextStart 0) (withCore { inTrap := some 10, threads := [(10, { stat := .trapped, trap := some {} })] }) = .next t) ∧
    (∃ t, exec (.trap (word (im 255) o0 o0)) (withThread {}) = .next t) ∧
    (((withThread {}).takeTrap (.core 0 11) 4 { cause := 0x010 }).groupAt 0).st = .killed :=
  ⟨(h.1 (withThread {}) _ 0 0 4 { cause := 1023, record := [7] } (by decide) rfl rfl (by decide +kernel) (by decide) (fun _ => rfl) rfl).2.2.2.2.1,
   let ⟨t, e, _⟩ := h.2.1 (withCore { inTrap := some 10, threads := [(10, { stat := .trapped, trap := some {} })] }) 0 10 _ rfl (by decide) rfl rfl
   ⟨t, e⟩,
   ⟨_, h.2.2.1 (word (im 255) o0 o0) (withThread {}) 0 0 rfl (by decide) (by decide +kernel)⟩,
   (h.2.2.2 (withThread {}) _ 0 4 { cause := 0x010 } rfl).1⟩

/-- The trap context of core 0 handles a trap of the control context. -/
def inHandler (th : Thread) (tr : TrapRec) (g : Group := aGroup) : State :=
  { withCore { inTrap := some 0, epcw := 4, threads := [(0, { th with stat := .trapped, trap := some tr }), (11, { stat := .run })] } g with cur := .core 0 11 }

theorem witness_ReturnFromTrap (h : Obligations.ReturnFromTrap) :
    (∃ t, exec (.rft (word o0 o0 o0 2)) (inHandler { flight := [{ dest := .n 3, land := 97 }] } { cyc := 90 }) = .next t) ∧
    (∃ t, exec (.rft (word o0 o0 o0 1)) (inHandler { restart := some { word := 2 } } {}) = .next t) ∧
    (∃ t, exec (.rft (word o0 o0 o0)) (withThread {}) = .next t) ∧
    ∃ t, exec (.rft (word o0 o0 o0)) (inHandler {} { coupled := true }) = .next t :=
  ⟨let ⟨t, e, _⟩ := h.1 (word o0 o0 o0 2) (inHandler { flight := [{ dest := .n 3, land := 97 }] } { cyc := 90 }) 0 0 _ rfl (by decide +kernel) rfl (by decide)
      rfl rfl (by decide +kernel) (by intro k hk hn; revert hk hn; revert k; decide +kernel) (by decide +kernel) (.inr rfl) (by decide +kernel) rfl
   ⟨t, e⟩,
   let ⟨t, e, _⟩ := h.2.1 (word o0 o0 o0 1) (inHandler { restart := some { word := 2 } } {}) 0 0 _ _ rfl (by decide +kernel) rfl (by decide) rfl rfl
      (by decide) rfl rfl (by intro k hk hn; revert hk hn; revert k; decide +kernel)
   ⟨t, e⟩,
   ⟨_, h.2.2.1 (word o0 o0 o0) (withThread {}) 0 rfl (by decide +kernel) rfl⟩,
   ⟨_, h.2.2.2 (word o0 o0 o0) (inHandler {} { coupled := true }) 0 0 _ rfl (by decide +kernel) rfl (by decide) rfl rfl (by decide)⟩⟩

/-- A pointer at bank 6, the address 0x10000 in n1, a second one in n2, a length in n3. -/
def withRemote (n1 : Word) : State :=
  withThread { n := [(1, n1), (2, 0x8000000000020000), (3, 2048)], a := [(4, { base := 0x60000, stride := 256 })] }
/-- The burin unit runs. -/
def inBurin : State := { withCore { threads := [(12, { stat := .run, n := [(1, 0x10000), (3, 64)] })] } with cur := .core 0 12 }

theorem witness_CopyWordsStartTheirCopy (h : Obligations.CopyWordsStartTheirCopy) :
    (∃ t, exec (.cpy (word (aa 4) (nn 1) (nn 3) 1)) (withRemote 0x10000) = .next t) ∧
    (∃ t, exec (.cpy (word ⟨.direct, 0x600⟩ (nn 1) (nn 3))) inBurin = .next t) ∧
    ∃ t, exec (.cpyi (word (aa 4) (nn 1) (nn 3))) (withRemote 0x10000) = .next t :=
  ⟨let ⟨t, _, _, e, _⟩ := h.1 (.cpy (word (aa 4) (nn 1) (nn 3) 1)) _ _ _ (withRemote 0x10000) _ _ rfl (by decide +kernel) rfl (by intro c e; cases e) rfl
      (by decide +kernel) (by decide +kernel) (by decide +kernel) (by decide +kernel) (by decide +kernel)
   ⟨t, e⟩,
   let ⟨t, _, _, e, _⟩ := h.2.1 (.cpy (word ⟨.direct, 0x600⟩ (nn 1) (nn 3))) _ _ _ inBurin _ _ 0 rfl (by decide +kernel) rfl rfl rfl
      (by decide +kernel) (by decide +kernel) (by decide +kernel) (by decide +kernel)
   ⟨t, e⟩,
   ⟨_, h.2.2 (.cpyi (word (aa 4) (nn 1) (nn 3))) _ _ _ (withRemote 0x10000) 0 0 rfl (by decide +kernel) rfl (.inl (by decide +kernel)) (.inl rfl)⟩⟩

theorem witness_RemoteWordsStartTheirOperation (h : Obligations.RemoteWordsStartTheirOperation) :
    (∃ t, exec (.rget (word (aa 4) (nn 2) (nn 3))) (withRemote 0) = .next t) ∧
    (∃ t, exec (.rput (word (nn 1) (aa 4) (nn 3))) (withRemote 0x100) = .next t) ∧
    (∃ t, exec (.wsig (word (nn 2) (aa 4) (im 64) 1)) (withRemote 0) = .next t) ∧
    (∃ t, exec (.pgen (word (nn 1) o0 o0)) (withRemote 0x10000) = .next t) ∧
    ∃ t, exec (.rput (word (nn 1) (aa 4) (nn 3))) (withRemote 0xC00000000) = .next t :=
  ⟨let ⟨t, _, _, e, _⟩ := h.1 (word (aa 4) (nn 2) (nn 3)) (withRemote 0) _ _ _ _ (by decide +kernel) rfl rfl rfl rfl (by decide +kernel) (by decide +kernel)
      (by decide +kernel) (by decide +kernel) (by decide +kernel) (by decide +kernel)
   ⟨t, e⟩,
   let ⟨t, _, _, e, _⟩ := h.2.1 (word (nn 1) (aa 4) (nn 3)) (withRemote 0x100) _ _ _ _ (by decide +kernel) rfl rfl rfl rfl (by decide +kernel) (by decide +kernel)
      (by decide +kernel) (by decide +kernel) (by decide +kernel)
   ⟨t, e⟩,
   let ⟨t, _, _, e, _⟩ := h.2.2.1 (word (nn 2) (aa 4) (im 64) 1) (withRemote 0) _ _ _ _ (by decide +kernel) rfl rfl rfl rfl
      (by decide +kernel) (by decide +kernel) (.inr (by decide +kernel)) (by decide +kernel)
   ⟨t, e⟩,
   let ⟨t, _, _, e, _⟩ := h.2.2.2.1 (word (nn 1) o0 o0) (withRemote 0x10000) (by decide +kernel) (by decide +kernel) (by decide +kernel); ⟨t, e⟩,
   ⟨_, h.2.2.2.2 (.rput (word (nn 1) (aa 4) (nn 3))) (word (nn 1) (aa 4) (nn 3)) (withRemote 0xC00000000) (.inr (.inl ⟨rfl, by decide +kernel⟩))
      (by decide +kernel) (.inl rfl)⟩⟩

def atomWord : Fields := word ⟨.nreg, 0xC001⟩ (nn 2) (nn 3)
/-- ATOM waits for operation 9. -/
def withAtom (st : OpSt) : State := { withThread { waiting := true, waitOn := some 9 } with ops := [(9, { kind := .atom 0, st := st, old := 5 })] }

theorem witness_AtomWaitsForItsOldValue (h : Obligations.AtomWaitsForItsOldValue) :
    (∃ t, exec (.atomCas atomWord) (withRemote 0) = .next t) ∧ (∃ t, exec (.atomAdd atomWord) (withAtom .done) = .next t) ∧
    (∃ t, exec (.atomAdd atomWord) (withAtom .running) = .next t) ∧ ∃ t, exec (.atomAdd atomWord) (withAtom (.failed 0x150)) = .next t :=
  ⟨let ⟨t, _, _, e, _⟩ := h.1 (.atomCas atomWord) _ _ (withRemote 0) rfl (by decide +kernel) (by decide +kernel); ⟨t, e⟩,
   let ⟨t, e, _⟩ := h.2.1 (.atomAdd atomWord) _ _ (withAtom .done) 9 _ rfl rfl rfl rfl rfl (by decide +kernel); ⟨t, e⟩,
   let ⟨t, e, _⟩ := h.2.2.1 (.atomAdd atomWord) _ _ (withAtom .running) 9 _ rfl rfl rfl rfl rfl; ⟨t, e⟩,
   let ⟨t, e, _⟩ := h.2.2.2 (.atomAdd atomWord) _ _ (withAtom (.failed 0x150)) 9 0x150 _ 0 0 rfl rfl (by decide) rfl rfl rfl rfl rfl
   ⟨t, e⟩⟩

/-- A store of the control context has not been committed. -/
def withPend (th : Thread) : State := withThread th { pend := [{ id := 3, seq := 3, addr := 0x100, data := [1], endC := 99, commitC := 102 }] }

theorem witness_FenceHoldsAndIsNoted (h : Obligations.FenceHoldsAndIsNoted) :
    (∃ t, exec (.fence (word (im 4) o0 o0 3)) (withThread {}) = .next t) ∧ (∃ t, exec (.fence (word (im 0) o0 o0 1)) (withPend {}) = .next t) ∧
    ∃ t, exec (.fence (word (im 0) o0 o0 1)) (withThread { waiting := true }) = .next t :=
  ⟨let ⟨t, _, e, _⟩ := h.1 (word (im 4) o0 o0 3) (withThread {}) _ (by decide +kernel) rfl (.inr (by decide +kernel)); ⟨t, e⟩,
   let ⟨t, _, e, _⟩ := h.2.1 (word (im 0) o0 o0 1) (withPend {}) _ (by decide +kernel) rfl (by decide +kernel) (by decide +kernel); ⟨t, e⟩,
   let ⟨t, e, _⟩ := h.2.2 (word (im 0) o0 o0 1) (withThread { waiting := true }) rfl (by decide +kernel) (by decide +kernel); ⟨t, e⟩⟩

/-- Batch 6 with a failed operation, after batch 5; one operation is not sealed. -/
def withBatches (st : OpSt) : State :=
  { withThread { unsealed := [12], batches := [{ num := 6, ops := [11] }, { num := 5 }], nextBatch := 7 } with ops := [(11, { st := st }), (12, {})] }

theorem witness_BatchesAreSealedAndReported (h : Obligations.BatchesAreSealedAndReported) :
    (∃ t, exec (.sealBatch (word o0 o0 o0)) (withBatches .running) = .next t) ∧ (∃ t, exec (.cpq (word (nn 1) (im 7) o0)) (withBatches .running) = .next t) ∧
    ∃ t, exec (.cpq (word (nn 1) (im 5) o0)) (withBatches (.failed 0x150)) = .next t :=
  ⟨let ⟨t, e, _⟩ := h.1 (word o0 o0 o0) (withBatches .running) (by decide +kernel) (by decide +kernel); ⟨t, e⟩,
   let ⟨t, e, _⟩ := h.2.1 (word (nn 1) (im 7) o0) (withBatches .running) (by decide +kernel) (by decide +kernel); ⟨t, e⟩,
   let ⟨t, _, e, _⟩ := h.2.2 (word (nn 1) (im 5) o0) (withBatches (.failed 0x150)) [{ num := 6, ops := [11] }] [] { num := 5 } (by decide +kernel) rfl
      (by decide) (by decide +kernel) rfl
   ⟨t, e⟩⟩

/-- Stage barrier 3 of two stages of one row, its first fill full. -/
def withStage : State := withThread {} { sbs := [(3, { s := 2, rows := 1, base := 16, counts := [256] })] }
def waitStageWord : Fields := word ⟨.special, 0x013⟩ o0 o0

/-- Word 4 is an anchoring word with a switch entry; the plate covers sizes to 100. -/
def atSwitch (sz : BitVec 32) : State :=
  withThread {} { sz := sz } { aGroup with kernel := { codeW := 64, states := [{ cap := 100, switches := [{ anw := 4, k := 7, cont := 12 }] }] } }

theorem witness_WaitsAnchorTheirThread (h : Obligations.WaitsAnchorTheirThread) :
    (∃ t, exec (.waitb (word (im 0) o0 o0)) (withBatches .done) = .next t) ∧ (∃ t, exec (.waitb (word (im 0) o0 o0)) (withBatches .running) = .next t) ∧
    (∃ t, exec (.waitb (word (im 0) o0 o0)) (withBatches (.failed 0x150)) = .next t) ∧
    (∃ t, exec (.waitb waitStageWord) withStage = .next t) ∧ (∃ t, exec (.waitb waitStageWord) (withThread {}) = .next t) ∧
    (∃ t, exec (.anch (word o0 o0 o0)) (withThread {}) = .next t) ∧ (∃ t, exec (.anch (word o0 o0 o0)) (atSwitch 5) = .next t) ∧
    selectState (atSwitch 101) 0 4 none = .refuse 0x1D3 :=
  ⟨let ⟨t, e, _⟩ := h.1.1 (word (im 0) o0 o0) (withBatches .done) _ 0 0 _ rfl (by decide +kernel) rfl rfl rfl (by decide +kernel) (by decide +kernel)
      (fun _ => by decide +kernel); ⟨t, e⟩,
   let ⟨t, e, _⟩ := h.1.2.1 (word (im 0) o0 o0) (withBatches .running) 0 0 _ rfl (by decide +kernel) rfl rfl (by decide +kernel); ⟨t, e⟩,
   ⟨_, h.1.2.2 (word (im 0) o0 o0) (withBatches (.failed 0x150)) 0 0 _ 11 0x150 _ rfl (by decide) (by decide +kernel) rfl rfl (by decide +kernel) rfl (by decide)⟩,
   let ⟨t, e, _⟩ := h.2.1 waitStageWord withStage _ 0 0 3 _ rfl (by decide +kernel) rfl rfl rfl rfl (by decide +kernel) (by decide +kernel) (by decide +kernel)
      (fun _ => by decide +kernel); ⟨t, e⟩,
   ⟨_, h.2.2.1 waitStageWord (withThread {}) 0 0 3 _ rfl (by decide) (by decide +kernel) rfl rfl rfl (by decide +kernel)⟩,
   let ⟨t, e, _⟩ := h.2.2.2.1 (word o0 o0 o0) (withThread {}) _ 0 rfl (by decide +kernel) rfl rfl (by decide +kernel) (by decide +kernel); ⟨t, e⟩,
   let ⟨t, e, _⟩ := h.2.2.2.2.1 (word o0 o0 o0) (atSwitch 5) _ 0 0 7 12 rfl (by decide +kernel) rfl rfl (by decide +kernel) (by decide +kernel); ⟨t, e⟩,
   h.2.2.2.2.2 (atSwitch 101) 0 4 { anw := 4, k := 7, cont := 12 } rfl rfl (by decide +kernel)⟩

/-- Core 0 has a slot, on cycle 100 of the segment, for a send to itself. -/
def slotGroup : Group :=
  { aGroup with kernel := { aGroup.kernel with segs := [{ first := 2, nw := 8 }], states := [{ cap := 100, slots := [{ cyc := 100 }] }] } }
def withSlot : State :=
  withThread { seg := some 2, prev := 99, restart := some { word := 2 }, n := [(1, 0x10000), (2, 3)], a := [(4, { base := 0x60000, stride := 256 })] } {} slotGroup
def timed (a b c : Operand) (m : BitVec 2 := 0) : Fields := { word a b c m with h := 0x1380 }
def withSend (x : Send) (k : Core := {}) : State := { withCore k with sends := [(7, x)] }

theorem witness_SendLandsOnItsCycle (h : Obligations.SendLandsOnItsCycle) :
    (∃ t, exec (.send (timed (nn 1) (aa 4) (im 7))) withSlot = .next t) ∧
    (∃ t, exec (.send (timed (nn 1) (nn 2) (im 7) 1)) withSlot = .next t) ∧
    (∃ t, exec (.send (timed (nn 2) (nn 2) (im 0) 2)) withSlot = .next t) ∧
    (∃ t, exec (.sendLanding 7) (withSend { addr := 0x10000, data := [1], lands := 100 }) = .next t) ∧
    (∃ t, exec (.sendLanding 7) (withSend { addr := 7, form := 2, lands := 100 } { en := 0x80 }) = .next t) ∧
    ∃ t, exec (.sendLanding 7) (withSend { addr := 7, form := 2, lands := 100 }) = .next t :=
  ⟨let ⟨t, _, _, e, _⟩ := h.1 (timed (nn 1) (aa 4) (im 7)) withSlot _ 0 0x60000 _ ⟨0, 0x10000⟩ rfl (by decide +kernel) rfl rfl (by decide) (by decide +kernel) rfl
      (by decide) (by decide +kernel) (by decide +kernel); ⟨t, e⟩,
   let ⟨t, _, _, e, _⟩ := h.2.1 (timed (nn 1) (nn 2) (im 7) 1) withSlot 0 _ ⟨0, 0x10000⟩ rfl (by decide +kernel) rfl (by decide) (by decide +kernel)
      (.inl ⟨rfl, by decide⟩); ⟨t, e⟩,
   let ⟨t, _, _, e, _⟩ := h.2.1 (timed (nn 2) (nn 2) (im 0) 2) withSlot 0 _ ⟨0, 3⟩ rfl (by decide +kernel) rfl (by decide) (by decide +kernel)
      (.inr ⟨rfl, by decide⟩); ⟨t, e⟩,
   let ⟨t, _, e, _⟩ := h.2.2.1 (withSend { addr := 0x10000, data := [1], lands := 100 }) 7 _ rfl rfl rfl ⟨rfl, rfl, rfl, rfl⟩ (by decide) (by decide +kernel)
      (by decide +kernel) (by decide +kernel); ⟨t, e⟩,
   let ⟨t, e, _⟩ := h.2.2.2.1 (withSend { addr := 7, form := 2, lands := 100 } { en := 0x80 }) 7 _ rfl rfl ⟨rfl, rfl, rfl, rfl⟩ rfl; ⟨t, e⟩,
   let ⟨t, e, _⟩ := h.2.2.2.1 (withSend { addr := 7, form := 2, lands := 100 }) 7 _ rfl rfl ⟨rfl, rfl, rfl, rfl⟩ rfl; ⟨t, e⟩⟩

theorem witness_DepositsAndTags (h : Obligations.DepositsAndTags) :
    (∃ t, exec (.depositArrival 0 7 5) (withCore {}) = .next t) ∧ (∃ t, exec (.depcfg (word (im 255) o0 o0)) (withThread {}) = .next t) ∧
    ∃ t, exec (.stag (word (aa 4) (nn 2) o0)) (withRemote 0) = .next t :=
  ⟨let ⟨t, e, _⟩ := h.1 (withCore {}) 0 7 5 (by decide) rfl nofun; ⟨t, e⟩,
   let ⟨t, e, _⟩ := h.2.1 (word (im 255) o0 o0) (withThread {}) 0 0 rfl (by decide +kernel); ⟨t, e⟩,
   let ⟨t, e, _⟩ := h.2.2 (word (aa 4) (nn 2) o0) (withRemote 0) 0 0 0x60000 rfl (by decide +kernel) (by decide +kernel) (by decide) (by decide) (by decide)
      (.inl (by decide)); ⟨t, e⟩⟩

/-- The control context has had a message refused as full. -/
def withRefused : State := { withThread { msgs := [11] } with ops := [(11, { kind := .amsg, av := 0x10000, words := [5], len := 8, st := .done, stat := 1 })] }
/-- A message on its way: it has left its NI, or not. -/
def withMessage (m : Nat) (va : Word) (mapv : BitVec 16) (k : Core := {}) (st : PartSt := .sent) : State :=
  { withCore k with ops := [(9, { kind := .amsg, m := m, av := va, words := [5], len := 8, mapv := mapv, part := { st := st } })] }
/-- A write that its thread issued before it has not been committed. -/
def behindWrite : Core := { pend := [{ id := 3, seq := 3, addr := 0x100, data := [1], endC := 99, commitC := 102 }] }

theorem witness_MessagesAreSentHeldAndArrive (h : Obligations.MessagesAreSentHeldAndArrive) :
    (∃ t, exec (.amsg (word (nn 1) (nn 2) o0)) (withRemote 0x10000) = .next t) ∧
    (∃ t, exec (.amsg (word (nn 1) (aa 4) (im 64))) (withRemote 0x10000) = .next t) ∧
    (∃ t, exec (.amsg (word (im 0) o0 o0)) (withThread {}) = .next t) ∧
    (∃ t, exec (.amsg (word (im 0) o0 o0)) withRefused = .next t) ∧
    (∃ t, exec (.amsg (word (nn 2) (nn 2) o0)) (withRemote 0x10000) = .next t) ∧
    (∃ t, exec (.amsgArrival 9) (withMessage 0 0x10000 0 {} .unbegun) = .next t) ∧
    (∃ t, exec (.amsgArrival 9) (withMessage 0 0x10000 0 behindWrite .unbegun) = .next t) ∧
    (∃ t, exec (.amsgArrival 9) (withMessage 1 7 0 { en := 0x80 }) = .next t) ∧
    (∃ t, exec (.amsgArrival 9) (withMessage 0 0x10000 0) = .next t) ∧
    ∃ t, exec (.amsgArrival 9) (withMessage 0 0x10000 1 {} .unbegun) = .next t :=
  ⟨let ⟨t, _, _, e, _⟩ := h.1.1 (word (nn 1) (nn 2) o0) (withRemote 0x10000) _ ⟨0, 0x10000⟩ (by decide +kernel) nofun (.inl rfl) rfl (by decide) (by decide +kernel)
      (by decide) (by decide +kernel); ⟨t, e⟩,
   let ⟨t, _, _, e, _⟩ := h.1.2.1 (word (nn 1) (aa 4) (im 64)) (withRemote 0x10000) _ _ ⟨0, 0x10000⟩ 64 0x60000 (by decide +kernel) rfl nofun nofun nofun rfl
      (by decide) (by decide +kernel) (by decide +kernel) (by decide +kernel) (by decide +kernel) (by decide) (by decide +kernel); ⟨t, e⟩,
   let ⟨t, _, _, e, _⟩ := h.1.2.2.1 (word (im 0) o0 o0) (withThread {}) (by decide +kernel) rfl rfl (by decide +kernel); ⟨t, e⟩,
   let ⟨t, _, _, e, _⟩ := h.1.2.2.2.1 (word (im 0) o0 o0) withRefused 11 [] (by decide +kernel) rfl rfl (by decide +kernel); ⟨t, e⟩,
   ⟨_, h.1.2.2.2.2 (word (nn 2) (nn 2) o0) (withRemote 0x10000) (by decide +kernel) nofun (by decide) (.inl rfl)⟩,
   let ⟨t, _, e, _⟩ := h.2.1 (withMessage 0 0x10000 0 {} .unbegun) 9 _ ⟨⟨rfl, rfl, rfl, rfl, rfl, (by decide +kernel), (by decide +kernel)⟩, nofun⟩ (by decide +kernel) (by decide +kernel)
      ⟨rfl, rfl, rfl, rfl⟩; ⟨t, e⟩,
   ⟨_, h.2.2.1 (withMessage 0 0x10000 0 behindWrite .unbegun) 9 _ ⟨⟨rfl, rfl, rfl, rfl, rfl, (by decide +kernel), (by decide +kernel)⟩, nofun⟩ (.inl (by decide +kernel))⟩,
   let ⟨t, _, e, _⟩ := h.2.2.2.1 (withMessage 1 7 0 { en := 0x80 }) 9 7 _ ⟨⟨rfl, rfl, rfl, rfl, rfl, (by decide +kernel), (by decide +kernel)⟩, rfl, ⟨rfl, rfl, rfl, rfl⟩, (by decide +kernel)⟩ rfl (by decide) (by decide) rfl (by decide) nofun
   ⟨t, e⟩,
   let ⟨t, _, e, _⟩ := h.2.2.2.2.1 (withMessage 0 0x10000 0) 9 0x10000 _ ⟨⟨rfl, rfl, rfl, rfl, rfl, (by decide +kernel), (by decide +kernel)⟩, rfl, ⟨rfl, rfl, rfl, rfl⟩, (by decide +kernel)⟩ nofun (by decide) (by decide) (by decide) (by decide)
      rfl rfl; ⟨t, e⟩,
   ⟨_, (h.2.2.2.2.2 (withMessage 0 0x10000 1 {} .unbegun) 9 _ rfl rfl rfl rfl rfl rfl (by decide +kernel)).1 (by decide +kernel)⟩⟩

/-- Domain 3 of group 0 holds core 0. -/
def aDomain : Domain := { configured := true, clusters := 1, cores := 1 }
def domainGroup (d : Domain) (g : Group := aGroup) : Group := { g with domains := [(3, d)] }
def withDomain (d : Domain) (k : Core := {}) (th : Thread := {}) : State :=
  withThread { th with n := [(1, 1), (2, 256), (3, 0x10000)], a := [(4, { base := 0x60000, stride := 256 })] } k (domainGroup d)
/-- Core 0 has atDomain. -/
def atDomain : Domain := { aDomain with arrivals := [{ core := 0 }] }
def barOf (m : BitVec 2 := 0) : Fields := word (im 3) o0 o0 m

theorem witness_BarrierWordsConfigureArriveAndWait (h : Obligations.BarrierWordsConfigureArriveAndWait) :
    (∃ t, exec (.barcfg (word (im 3) (nn 1) (nn 1))) (withDomain {}) = .next t) ∧
    (∃ t, exec (.bara barOf) (withDomain aDomain) = .next t) ∧ (∃ t, exec (.bar barOf) (withDomain aDomain) = .next t) ∧
    (∃ t, exec (.xput (word (nn 1) (aa 4) (nn 3))) (withRemote 0) = .next t) ∧
    (∃ t, exec (.xend (word (aa 4) (nn 2) (im 3))) (withDomain aDomain) = .next t) ∧
    (∃ t, exec (.barw barOf) (withDomain {} { rels := [(3, { total := 9 })] }) = .next t) ∧
    (∃ t, exec (.barw barOf) (withDomain {} { rels := [(3, { total := 9 })] } { waiting := true }) = .next t) ∧
    (∃ t, exec (.bar barOf) (withDomain {} { rels := [(3, { total := 9 })] } { waiting := true }) = .next t) ∧
    (∃ t, exec (.barw barOf) (withDomain atDomain) = .next t) ∧ (∃ t, exec (.barw barOf) (withDomain aDomain) = .next t) ∧
    ∃ t, exec (.barw barOf) (withDomain {} { rels := [(3, { fail := some 0x1C1 })] }) = .next t :=
  ⟨let ⟨t, e, _⟩ := h.1.1 (word (im 3) (nn 1) (nn 1)) (withDomain {}) 0 0 0 3 rfl (by decide +kernel) (by decide +kernel) rfl (by decide) (by decide +kernel)
   ⟨t, e⟩,
   let ⟨t, e, _⟩ := (h.1.2.1 barOf (withDomain aDomain) 0 0 0 3 aDomain rfl (by decide +kernel) rfl (by decide +kernel) (by decide +kernel) nofun nofun
      (by decide +kernel)).1 (by decide +kernel); ⟨t, e⟩,
   let ⟨t, e, _⟩ := (h.1.2.1 barOf (withDomain aDomain) 0 0 0 3 aDomain rfl (by decide +kernel) rfl (by decide +kernel) (by decide +kernel) nofun nofun
      (by decide +kernel)).2 (by decide +kernel); ⟨t, e⟩,
   let ⟨t, e, _⟩ := h.1.2.2.1 (word (nn 1) (aa 4) (nn 3)) (withRemote 0) _ 0 0 0x60000 2048 _ ⟨0, 0⟩ rfl (by decide +kernel) rfl rfl (by decide) (by decide)
      (by decide +kernel) (by decide +kernel) (by decide) (by decide +kernel) (by decide +kernel) (by decide); ⟨t, e⟩,
   let ⟨t, e, _⟩ := h.1.2.2.2 (word (aa 4) (nn 2) (im 3)) (withDomain aDomain) _ 0 0 0x60000 256 0 3 aDomain rfl (by decide +kernel) rfl (by decide +kernel)
      (by decide) rfl (by decide +kernel) (by decide +kernel) (by decide) (by decide) (by decide +kernel) (by decide +kernel) (by decide +kernel) nofun
   ⟨t, e⟩,
   let ⟨t, e, _⟩ := h.2.1 barOf (withDomain {} { rels := [(3, { total := 9 })] }) _ 0 3 { total := 9 } rfl (by decide +kernel) rfl rfl (by decide +kernel) rfl
      (by decide +kernel); ⟨t, e⟩,
   let ⟨t, e, _⟩ := h.2.2.1 (.barw barOf) barOf (withDomain {} { rels := [(3, { total := 9 })] } { waiting := true }) _ 0 3 { total := 9 } (.inl rfl) rfl rfl rfl (by decide +kernel)
      rfl rfl (by decide +kernel) rfl (by decide +kernel); ⟨t, e⟩,
   let ⟨t, e, _⟩ := h.2.2.1 (.bar barOf) barOf (withDomain {} { rels := [(3, { total := 9 })] } { waiting := true }) _ 0 3 { total := 9 } (.inr rfl) rfl rfl rfl (by decide +kernel)
      rfl rfl (by decide +kernel) rfl (by decide +kernel); ⟨t, e⟩,
   let ⟨t, e, _⟩ := h.2.2.2.1 barOf (withDomain atDomain) 0 3 rfl (by decide +kernel) rfl (by decide +kernel) (by decide +kernel)
      ⟨{ core := 0 }, by decide +kernel, rfl⟩; ⟨t, e⟩,
   let ⟨t, e, _⟩ := h.2.2.2.2.1 barOf (withDomain aDomain) 0 3 rfl (by decide +kernel) rfl (by decide +kernel) (.inr (by decide +kernel)); ⟨t, e⟩,
   let ⟨t, e, _⟩ := h.2.2.2.2.2 barOf (withDomain {} { rels := [(3, { fail := some 0x1C1 })] }) 0 3 0x1C1 { fail := some 0x1C1 } rfl (by decide +kernel) rfl
      (by decide +kernel) rfl
   ⟨t, e⟩⟩

def withPhase (d : Domain) (g : Group := aGroup) : State := withCore {} (domainGroup d g)
def aPacket : XPacket := { target := 0, src := 0x60000, len := 8 }

theorem witness_BarrierIsReleased (h : Obligations.BarrierIsReleased) :
    (∃ t, exec (.barrierRelease 0 3) (withPhase { atDomain with phase := 1 }) = .next t) ∧
    (∃ t, exec (.barrierRelease 0 3) (withPhase { aDomain with phase := 1, arrivals := [{ core := 0, xend := true, packets := [aPacket] }] }) = .next t) ∧
    (∃ t, exec (.exchangePacketLand 0 3 0) (withPhase { atDomain with phase := 2, deliveries := [{ saddr := 0x60000, daddr := 0x70000, len := 8 }] }) = .next t) ∧
    (∃ t, exec (.proofReady 0) (withPhase atDomain { aGroup with taking := [{ dom := 3 }] }) = .next t) ∧
    (∃ t, exec (.barrierRelease 0 3) (withPhase { atDomain with phase := 3 } { aGroup with taking := [{ dom := 3, ready := true }] }) = .next t) ∧
    ∃ a ∈ ({ arrivals := [{ core := 0, packets := [aPacket] }] } : Domain).arrivals, ∃ p ∈ a.packets, p.src = 0x60000 :=
  ⟨let ⟨t, e, _⟩ := h.1 (withPhase { atDomain with phase := 1 }) 0 3 { atDomain with phase := 1 } (by decide +kernel) rfl nofun rfl rfl (by decide +kernel) (by decide +kernel)
      (by decide +kernel) (by decide +kernel) rfl (by decide) (by decide +kernel); ⟨t, e⟩,
   let ⟨t, e, _⟩ := h.2.1 (withPhase { aDomain with phase := 1, arrivals := [{ core := 0, xend := true, packets := [aPacket] }] }) 0 3 0
      { aDomain with phase := 1, arrivals := [{ core := 0, xend := true, packets := [aPacket] }] } (by decide +kernel) rfl
      nofun rfl rfl (by decide) (by decide +kernel) (by decide +kernel); ⟨t, e⟩,
   let ⟨t, _, e, _⟩ := h.2.2.1 (withPhase { atDomain with phase := 2, deliveries := [{ saddr := 0x60000, daddr := 0x70000, len := 8 }] }) 0 3 0 0x70000 8
      { atDomain with phase := 2, deliveries := [{ saddr := 0x60000, daddr := 0x70000, len := 8 }] } { saddr := 0x60000, daddr := 0x70000, len := 8 }
      (by decide +kernel) rfl rfl rfl rfl (by decide +kernel) ⟨rfl, rfl, rfl, rfl⟩ rfl (by decide +kernel) (by decide +kernel); ⟨t, e⟩,
   let ⟨t, e, _⟩ := h.2.2.2.1 (withPhase atDomain { aGroup with taking := [{ dom := 3 }] }) 0 _ [] [] rfl nofun rfl; ⟨t, e⟩,
   let ⟨t, _, e, _⟩ := h.2.2.2.2.1 (withPhase { atDomain with phase := 3 } { aGroup with taking := [{ dom := 3, ready := true }] }) 0 3
      { atDomain with phase := 3 } (by decide +kernel) rfl nofun rfl rfl (by decide) ⟨_, .head _, rfl⟩ (by decide +kernel) rfl
   ⟨t, e⟩,
   let ⟨a, ha, p, hp, _, e, _⟩ := h.2.2.2.2.2 { arrivals := [{ core := 0, packets := [aPacket] }] } { saddr := 0x60000, daddr := 0, len := 8 } [0] (by decide +kernel)
   ⟨a, ha, p, hp, e.symm⟩⟩

/-- Thread `h` of core 0 is at word 4, beside the control context. -/
def inThread (h : Nat) (th : Thread) (k : Core := {}) : State :=
  { withCore { k with threads := [(0, { stat := .run, pc := 4 }), (h, { th with stat := .run, pc := 4 })] } with cur := .core 0 h }
/-- Helpers 1 to 10 are not free. -/
def allBusy : State := withCore { threads := (List.range 11).map fun h => (h, { stat := .run, pc := 4 }) }

theorem witness_HelperWordsStartEndAndJoin (h : Obligations.HelperWordsStartEndAndJoin) :
    (∃ t, exec (.hstart (word (nn 3) (im 59) o0)) (withThread {}) = .next t) ∧ (∃ t, exec (.hstart (word (nn 3) (im 59) o0)) allBusy = .next t) ∧
    (∃ t, exec (.hexit (word o0 o0 o0)) (inThread 10 {}) = .next t) ∧ (∃ t, exec (.hjoin (word (nn 2) o0 o0)) (withThread { n := [(2, 10)] }) = .next t) ∧
    (∃ t, exec (.hjoin (word (nn 2) o0 o0)) { inThread 10 {} with cur := .core 0 0, cores := [(0, { grp := some 0, budg := 1000, threads := [(0, { stat := .run, pc := 4, n := [(2, 10)] }), (10, { stat := .run })] })] } = .next t) ∧
    (∃ t, exec (.hstat (word (nn 2) o0 o0)) (withThread {}) = .next t) ∧ ∃ t, exec (.helperGrant 0) (inThread 10 {}) = .next t :=
  ⟨let ⟨t, e, _⟩ := h.1 (word (nn 3) (im 59) o0) (withThread {}) 0 1 _ rfl (by decide +kernel) rfl (by decide +kernel) (by decide) (by decide) (by decide +kernel)
      (fun j a b => by omega); ⟨t, e⟩,
   let ⟨t, e, _⟩ := h.2.1 (word (nn 3) (im 59) o0) allBusy 0 _ rfl (by decide +kernel) rfl (by decide +kernel)
      (by intro j a b; revert a; revert b; revert j; decide +kernel); ⟨t, e⟩,
   let ⟨t, e, _⟩ := h.2.2.1 (word o0 o0 o0) (inThread 10 {}) _ 0 10 rfl (by decide) (by decide) (by decide +kernel) rfl (by decide +kernel) (by decide +kernel)
   ⟨t, e⟩,
   let ⟨t, e, _⟩ := h.2.2.2.1 (word (nn 2) o0 o0) (withThread { n := [(2, 10)] }) 0 0 10 rfl (by decide +kernel) (by decide +kernel) (by decide)
      (.inr ⟨by decide +kernel, by decide +kernel⟩); ⟨t, e⟩,
   let ⟨t, e, _⟩ := h.2.2.2.2.1 (word (nn 2) o0 o0) { inThread 10 {} with cur := .core 0 0, cores := [(0, { grp := some 0, budg := 1000, threads := [(0, { stat := .run, pc := 4, n := [(2, 10)] }), (10, { stat := .run })] })] }
      0 10 rfl (by decide +kernel) (by decide +kernel) (by decide) (by decide) (by decide +kernel); ⟨t, e⟩,
   let ⟨t, _, e, _⟩ := h.2.2.2.2.2.1 (word (nn 2) o0 o0) (withThread {}) 0 rfl (by decide +kernel) (by decide); ⟨t, e⟩,
   let ⟨t, e, _⟩ := h.2.2.2.2.2.2 (inThread 10 {}) 0 10 (by decide +kernel) (by decide +kernel) rfl (by decide) (by decide) (by decide) (by decide +kernel)
      (by decide +kernel) (by intro j a b; revert a; revert b; revert j; decide +kernel); ⟨t, e⟩⟩

/-- The bank has performed a TKPOST, and its status has landed. -/
def posted : State := withThread { waiting := true, waitOn := some 9 } { reqs := [(9, { bank := 5, performed := true, flight := some 4 })] }

theorem witness_TaskWordsReachTheirQueue (h : Obligations.TaskWordsReachTheirQueue) :
    (∃ t, exec (.tkpost (word (aa 3) (nn 1) o0)) (withBanks {}) = .next t) ∧
    (∃ t, exec (.tkpost (word (aa 3) (nn 1) o0)) posted = .next t) ∧
    (∃ t, exec (.tkpost (word (nn 1) (nn 1) (nn 2) 1)) (withRemote 0x10000) = .next t) ∧
    (∃ t, exec (.tkpost (word (im 0) (nn 1) o0)) (withRemote 0x10000) = .next t) ∧
    (∃ t, exec (.tkpost (word (nn 1) (nn 1) (nn 2))) { withThread { waiting := true, waitOn := some 9 } with ops := [(9, { st := .done, stat := 3 })] } = .next t) ∧
    (∃ t, exec (.tktake (word (nn 1) (aa 3) o0)) (withBanks {}) = .next t) ∧
    (∃ t, exec (.tktake (word (nn 1) (im 0) o0)) (withThread {}) = .next t) ∧
    ∃ t, exec (.launch (word (nn 1) (aa 5) (nn 2))) (withBanks {}) = .next t :=
  ⟨let ⟨t, _, _, _, e, _⟩ := h.1 (word (aa 3) (nn 1) o0) (withBanks {}) _ 0 0 0x50000 rfl (by decide +kernel) rfl (.inl rfl) (by decide +kernel)
      (by decide +kernel) (by decide +kernel); ⟨t, e⟩,
   let ⟨t, e, _⟩ := h.2.1 (word (aa 3) (nn 1) o0) posted 9 { bank := 5, performed := true, flight := some 4 } 0 0 rfl rfl rfl rfl rfl rfl nofun
      (by decide +kernel); ⟨t, e⟩,
   let ⟨t, _, _, e, _⟩ := h.2.2.1 (word (nn 1) (nn 1) (nn 2) 1) (withRemote 0x10000) _ ⟨0, 0x10000⟩ (by decide +kernel) (.inl rfl) rfl (by decide) (by decide +kernel)
   ⟨t, e⟩,
   let ⟨t, _, _, e, _⟩ := h.2.2.2.1 (word (im 0) (nn 1) o0) (withRemote 0x10000) (by decide +kernel) rfl rfl (by decide); ⟨t, e⟩,
   let ⟨t, e, _⟩ := h.2.2.2.2.1 (word (nn 1) (nn 1) (nn 2)) { withThread { waiting := true, waitOn := some 9 } with ops := [(9, { st := .done, stat := 3 })] } 9 _ 0 0
      rfl rfl rfl (by decide +kernel) rfl rfl (by decide +kernel); ⟨t, e⟩,
   let ⟨t, _, _, e, _⟩ := h.2.2.2.2.2.1 (word (nn 1) (aa 3) o0) (withBanks {}) _ 0 0 0x50000 rfl (by decide +kernel) rfl nofun (by decide +kernel) (by decide)
      (by decide +kernel) (by decide +kernel) (by decide +kernel); ⟨t, e⟩,
   let ⟨t, _, _, _, e, _⟩ := h.2.2.2.2.2.2.1 (word (nn 1) (im 0) o0) (withThread {}) (by decide +kernel) rfl (by decide +kernel); ⟨t, e⟩,
   let ⟨t, _, _, e, _⟩ := h.2.2.2.2.2.2.2 (word (nn 1) (aa 5) (nn 2)) (withBanks {}) _ 0 0 0x70000 _ _ _ _ rfl (by decide +kernel) rfl (by decide +kernel) (by decide)
      (by decide) (by decide +kernel) (by decide +kernel) (by decide +kernel) (by decide +kernel) rfl rfl rfl; ⟨t, e⟩⟩

/-- Context 1 is Loaded, its queue 7 full. -/
def withQueue : State :=
  { State.reset with contexts := [(1, { st := 2, queues := [(7, { recs := List.range 32 })], hubMap := (List.range 512).map fun k => (k + 1, 2) })] }
def aRecord : List Word := [0x1000, 0, 0, 0, 0, 0, 0, 0]

theorem witness_LaunchRecordIsJudged (h : Obligations.LaunchRecordIsJudged) :
    (withQueue.postRecord 1 8 aRecord).1 = 8 ∧ (withQueue.postRecord 1 7 aRecord).1 = 1 ∧ (withQueue.postRecord 1 0 aRecord).1 = 0 ∧
    (withQueue.hubPost 1 512 (-2)).1 = 7 ∧ (withQueue.hubPost 1 512 1).1 = 0 ∧ (withQueue.hubPost 1 513 1).1 = 1 ∧
    ({ withQueue with contexts := [] }.hubPost 1 513 1).1 = 3 :=
  ⟨by rw [h.1 withQueue 1 8 aRecord (.inr (.inl (by decide)))],
   by rw [h.2.1 withQueue 1 7 aRecord (by decide +kernel) (by decide) (by decide +kernel) (by decide +kernel) (by decide +kernel) (by decide +kernel)],
   (h.2.2.1 withQueue 1 0 0 aRecord (by decide +kernel) (by decide) (by decide +kernel) (by decide +kernel) (by decide +kernel) (by decide +kernel) (by decide +kernel)).1,
   (h.2.2.2 withQueue 1 512 (-2) 0 (by decide +kernel)).1 rfl,
   ((h.2.2.2 withQueue 1 512 1 3 (by decide +kernel)).2.1 (by decide) (by decide +kernel)).1,
   by rw [(h.2.2.2 withQueue 1 513 1 1 (by decide +kernel)).2.2.2 (by decide) (by decide +kernel) (by decide +kernel)],
   ((h.2.2.2 { withQueue with contexts := [] } 1 513 1 1 (by decide +kernel)).2.2.1 (by decide) (by decide +kernel) (by decide +kernel)).1⟩


theorem witness_SpecialRegistersAreReadAndWritten (h : Obligations.SpecialRegistersAreReadAndWritten) :
    (∃ t, exec (.srr (word (nn 1) (sp 0x001) o0)) (withThread {}) = .next t) ∧ (∃ t, exec (.srr (word (nn 1) (sp 0x013) o0)) withStage = .next t) ∧
    (∃ t, exec (.srr (word (nn 1) (sp 0x001) o0)) (inRequest {}) = .next t) ∧
    (∃ t, exec (.srw (word (sp 0x106) (nn 1) o0)) (withThread { n := [(1, 3)] } { inj := [(1, 5), (2, 6)] }) = .next t) ∧
    ∃ t, exec (.setsz (word (nn 1) o0 o0)) (withThread {}) = .next t :=
  ⟨let ⟨t, e, _⟩ := h.1 (word (nn 1) (sp 0x001) o0) (withThread {}) 0 0 100 rfl (by decide +kernel) (by decide +kernel); ⟨t, e⟩,
   let ⟨t, _, e, _⟩ := h.2.1 (word (nn 1) (sp 0x013) o0) withStage 0 0 rfl (by decide +kernel); ⟨t, e⟩,
   let ⟨t, e, _⟩ := h.2.2.1 (word (nn 1) (sp 0x001) o0) (inRequest {}) 3 rfl (by decide +kernel) rfl; ⟨t, e⟩,
   let ⟨t, e, _⟩ := h.2.2.2.1 (word (sp 0x106) (nn 1) o0) (withThread { n := [(1, 3)] } { inj := [(1, 5), (2, 6)] }) 0 0 _ rfl (by decide +kernel) rfl
   ⟨t, e⟩,
   let ⟨t, e, _⟩ := h.2.2.2.2 (word (nn 1) o0 o0) (withThread {}) 0 0 rfl (by decide +kernel); ⟨t, e⟩⟩

theorem witness_RtendEndsItsRun (h : Obligations.RtendEndsItsRun) :
    (∃ t, exec (.rtend (word o0 o0 o0)) (withThread {}) = .next t) ∧ (∃ t, exec (.rtend (word o0 o0 o0)) inBurin = .next t) ∧
    (∃ t, exec (.rtend (word o0 o0 o0)) (inRequest {}) = .next t) ∧
    (∃ t, exec (.routineDispatch 0) (withCore { threads := [(0, { stat := .ending })] }) = .next t) ∧
    ∃ t, exec (.routineDispatch 0) (withCore { threads := [(0, { stat := .ending }), (10, { stat := .run })] }) = .next t :=
  ⟨let ⟨t, e, _⟩ := h.1 (word o0 o0 o0) (withThread {}) 0 rfl (by decide +kernel); ⟨t, e⟩,
   let ⟨t, e, _⟩ := h.2.1 (word o0 o0 o0) inBurin 0 rfl (by decide +kernel) rfl rfl; ⟨t, e⟩,
   let ⟨t, e, _⟩ := h.2.2.1 (word o0 o0 o0) (inRequest {}) 3 rfl (by decide +kernel); ⟨t, e⟩,
   let ⟨t, _, e, _⟩ := h.2.2.2.1 (withCore { threads := [(0, { stat := .ending })] }) 0 rfl rfl rfl (by decide +kernel) (by decide +kernel) (by decide +kernel)
      (by intro j a b; revert a; revert b; revert j; decide +kernel); ⟨t, e⟩,
   ⟨_, h.2.2.2.2 (withCore { threads := [(0, { stat := .ending }), (10, { stat := .run })] }) 0 rfl rfl (.inr (.inr ⟨10, by decide, by decide, by decide +kernel⟩))⟩⟩

/-- Registers n1 to n3, and a group 256 of context 1 in state `g`. -/
def withPriv (n : SMap Word) (g : GState := .pending) (st : Nat := 2) : State :=
  let s := withThread { n := n } { inj := [(1, 5)] }
  { s with groups := [(0, { aGroup with map := [0] }), (256, { ctx := 1, st := g })], contexts := [(0, { st := 2 }), (1, { st := st })],
           bins := [(34, 2)], phys := [(0x2005, 1), (0x2006, 0x58), (0x2007, 0x43)] }
def w1 : Fields := word (nn 1) o0 o0
def w2 : Fields := word (nn 1) (nn 2) o0
def w3 : Fields := word (nn 1) (nn 2) (nn 3)

theorem witness_PrivilegedWordsActOrTrap (h : Obligations.PrivilegedWordsActOrTrap) :
    (∃ t, exec (.snap w1) (withPriv [(1, 256)]) = .next t) ∧ (∃ t, exec (.roll w1) (withPriv [(1, 256)] .stopped) = .next t) ∧
    (∃ t, exec (.preempt w1) (withPriv [(1, 256)] .placed) = .next t) ∧ (∃ t, exec (.ctxsave w1) (withPriv [(1, 1)] .pending 4) = .next t) ∧
    (∃ t, exec (.ctxsaveKill (word (nn 1) o0 o0 1)) (withPriv [(1, 1)] .pending 3) = .next t) ∧ (∃ t, exec (.ctxsaveGkill (word (nn 1) o0 o0 2)) (withPriv [(1, 256)] .saved) = .next t) ∧
    (∃ t, exec (.ctxsave w1) (withPriv [(1, 256)]) = .next t) ∧ (∃ t, exec (.preempt w1) (withPriv [(1, 0)]) = .next t) ∧
    (∃ t, exec (.ctxload (word (nn 1) (im 1) o0)) (withPriv [(1, 1)] .saved 4) = .next t) ∧
    (∃ t, exec (.ctxload (word (nn 1) (im 1) (nn 3))) (withPriv [(1, 1), (3, 0x2000)] .pending 0) = .next t) ∧
    (∃ t, exec (.ctxload (word (nn 1) (im 1) o0)) (withPriv [(1, 256)]) = .next t) ∧ (∃ t, exec (.ctxload (word (nn 1) (im 1) o0)) (withPriv [(1, 1)]) = .next t) ∧
    (∃ t, exec (.tlbinv (word (nn 1) (nn 2) (im 1))) (withPriv [(1, 0xFFFFFFFFFF0000), (2, 255)]) = .next t) ∧
    (∃ t, exec (.tlbinv (word (nn 1) (nn 2) (im 1))) (withPriv [(1, 0x100000000000000), (2, 255)]) = .next t) ∧
    (∃ t, exec (.quota w2) (withPriv [(1, 255), (2, 7)]) = .next t) ∧ ∃ t, exec (.quota w2) (withPriv [(1, 256), (2, 7)]) = .next t :=
  ⟨let ⟨t, _, _, e, _⟩ := h.1 (.snap w1) _ _ _ (withPriv [(1, 256)]) rfl (by decide +kernel) (by decide +kernel) (by decide +kernel); ⟨t, e⟩,
   let ⟨t, _, _, e, _⟩ := h.1 (.roll w1) _ _ _ (withPriv [(1, 256)] .stopped) rfl (by decide +kernel) (by decide +kernel) (by decide +kernel); ⟨t, e⟩,
   let ⟨t, _, _, e, _⟩ := h.1 (.preempt w1) _ _ _ (withPriv [(1, 256)] .placed) rfl (by decide +kernel) (by decide +kernel) (by decide +kernel); ⟨t, e⟩,
   let ⟨t, _, _, e, _⟩ := h.1 (.ctxsave w1) _ _ _ (withPriv [(1, 1)] .pending 4) rfl (by decide +kernel) (by decide +kernel) (by decide +kernel); ⟨t, e⟩,
   let ⟨t, _, _, e, _⟩ := h.1 (.ctxsaveKill (word (nn 1) o0 o0 1)) _ _ _ (withPriv [(1, 1)] .pending 3) rfl (by decide +kernel) (by decide +kernel) (by decide +kernel); ⟨t, e⟩,
   let ⟨t, _, _, e, _⟩ := h.1 (.ctxsaveGkill (word (nn 1) o0 o0 2)) _ _ _ (withPriv [(1, 256)] .saved) rfl (by decide +kernel) (by decide +kernel) (by decide +kernel); ⟨t, e⟩,
   ⟨_, h.2.1 (.ctxsave w1) _ _ _ (withPriv [(1, 256)]) rfl (by decide +kernel) (by decide +kernel)⟩,
   ⟨_, h.2.2.1 (.preempt w1) _ _ _ (withPriv [(1, 0)]) rfl (by decide +kernel) (by decide +kernel) (by decide +kernel)⟩,
   let ⟨t, _, _, e, _⟩ := h.2.2.2.1 (word (nn 1) (im 1) o0) (withPriv [(1, 1)] .saved 4) 1 (by decide +kernel) (by decide +kernel) (by decide) (by decide) rfl
      (by decide +kernel) (by decide +kernel); ⟨t, e⟩,
   let ⟨t, _, _, e, _⟩ := h.2.2.2.2.1 (word (nn 1) (im 1) (nn 3)) (withPriv [(1, 1), (3, 0x2000)] .pending 0) 1 0x2000 (by decide +kernel) (by decide +kernel)
      (by decide) (by decide) rfl (by decide +kernel) (by decide) (by decide) (by decide +kernel) (by decide +kernel) (by decide +kernel); ⟨t, e⟩,
   ⟨_, h.2.2.2.2.2.1 (word (nn 1) (im 1) o0) (withPriv [(1, 256)]) (by decide +kernel) (by decide +kernel)⟩,
   ⟨_, h.2.2.2.2.2.2.1 (word (nn 1) (im 1) o0) (withPriv [(1, 1)]) (by decide +kernel) (by decide +kernel) (.inr ⟨rfl, by decide +kernel⟩)⟩,
   let ⟨t, _, _, e, _⟩ := h.2.2.2.2.2.2.2.1 (word (nn 1) (nn 2) (im 1)) (withPriv [(1, 0xFFFFFFFFFF0000), (2, 255)]) (by decide +kernel) (by decide +kernel)
      (by decide +kernel) (by decide +kernel) (by decide +kernel); ⟨t, e⟩,
   ⟨_, h.2.2.2.2.2.2.2.2.1 (word (nn 1) (nn 2) (im 1)) (withPriv [(1, 0x100000000000000), (2, 255)]) (by decide +kernel) (.inr (.inl (by decide +kernel)))⟩,
   let ⟨t, e, _⟩ := h.2.2.2.2.2.2.2.2.2.1 w2 (withPriv [(1, 255), (2, 7)]) 255 (by decide +kernel) (by decide +kernel) (by decide); ⟨t, e⟩,
   ⟨_, h.2.2.2.2.2.2.2.2.2.2 w2 (withPriv [(1, 256), (2, 7)]) (by decide +kernel) (by decide +kernel)⟩⟩

theorem find_of_all {α : Type} (m : SMap α) (f : α → Bool) (h : m.all (fun x => f x.2) = true) (k : Nat) (v : α) (e : SMap.find m k = some v) :
    f v = true := by
  induction m with
  | nil => cases e
  | cons x xs ih =>
    rw [List.all_cons, Bool.and_eq_true] at h
    rw [SMap.find] at e
    split at e
    · cases e; exact h.1
    · exact ih h.2 e
theorem get_of_all {α : Type} (d : α) (m : SMap α) (f : α → Bool) (h : m.all (fun x => f x.2) = true) (hd : f d = true) (k : Nat) :
    f (SMap.get d m k) = true := by
  rw [SMap.get]
  cases e : SMap.find m k with
  | none => exact hd
  | some v => exact find_of_all m f h k v e
/-- No thread of the core has more than 16 results in flight, and no more than 16 of its tiles are being written. -/
def few (k : Core) : Bool := k.threads.all (fun y => decide (y.2.flight.length ≤ 16)) && decide (k.tileEntries ≤ 16)
theorem few_flights {u : State} (h : u.cores.all (fun x => few x.2) = true) (h' : u.reqThreads = []) (ag : Agent) : u.inFlight ag ≤ 32 := by
  rw [State.inFlight]
  cases ag with
  | req id => rw [State.threadOf, State.reqAt, h']; exact Nat.le_of_ble_eq_true rfl
  | core c k =>
    have a := get_of_all ({} : Core) u.cores few h rfl c
    rw [few, Bool.and_eq_true] at a
    have b : ((u.coreAt c).thread k).flight.length ≤ 16 :=
      of_decide_eq_true (get_of_all ({} : Thread) _ (fun y : Thread => decide (y.flight.length ≤ 16)) a.1 rfl k)
    have d : u.tilesInFlight (.core c k) ≤ 16 := by
      cases k with
      | zero => exact of_decide_eq_true a.2
      | succ k => exact Nat.zero_le _
    exact Nat.add_le_add b d

theorem witness_RegistrationWordsBindMoveAndArm (h : Obligations.RegistrationWordsBindMoveAndArm) :
    slabHalves (BitVec.ofNat 64 (slabWord (feKey 3 15 16) 2)) = some [2174, 2175] ∧
    (∃ t, exec (.binset (word (nn 1) (im 3) o0)) (withPriv [(1, 6)]) = .next t) ∧ (∃ t, exec (.binset (word (nn 1) (im 1) o0)) (withPriv [(1, 4)]) = .next t) ∧
    (∃ t, exec (.binset (word (nn 1) (im 1) o0)) (withPriv [(1, 3)]) = .next t) ∧ (∃ t, exec (.binset (word (nn 1) (im 3) o0)) (withPriv [(1, 1)]) = .next t) ∧
    (∃ t, exec (.regbind w2) (withPriv [(1, 4), (2, 0x201)]) = .next t) ∧ (∃ t, exec (.regbind w2) (withPriv [(1, 4), (2, 0xA01)]) = .next t) ∧
    (∃ t, exec (.regbind w2) (withPriv [(1, 4), (2, 0x40000)]) = .next t) ∧ (∃ t, exec (.mapset w3) (withPriv [(3, 63)]) = .next t) ∧
    (∃ t, exec (.mapset w3) (withPriv []) = .next t) ∧ (∃ t, exec (.mapset w3) (withPriv [(3, 64)]) = .next t) ∧
    (∃ t, exec (.inj (word (im 15) (nn 2) o0)) (withPriv [(2, 65535)]) = .next t) ∧ ∃ t, exec (.inj (word (im 16) (nn 2) o0)) (withPriv []) = .next t :=
  ⟨h.1 3 15 16 2 (by decide) (by decide) (by decide) (by decide),
   let ⟨t, e, _⟩ := h.2.1 (word (nn 1) (im 3) o0) (withPriv [(1, 6)]) _ _ _ (by decide +kernel) rfl (by decide +kernel : _ = some [34, 35]) rfl (by decide +kernel)
      (by decide +kernel) (few_flights (by decide +kernel) rfl); ⟨t, e⟩,
   let ⟨t, e, _⟩ := h.2.2.1 (word (nn 1) (im 1) o0) (withPriv [(1, 4)]) _ _ _ (by decide +kernel) rfl (by decide +kernel : _ = some [34]) rfl (by decide +kernel)
      (by decide +kernel); ⟨t, e⟩,
   ⟨_, h.2.2.2.1 (word (nn 1) (im 1) o0) (withPriv [(1, 3)]) (by decide +kernel) (by decide +kernel)⟩,
   ⟨_, h.2.2.2.2.1 (word (nn 1) (im 3) o0) (withPriv [(1, 1)]) _ _ (by decide +kernel) rfl (by decide +kernel : _ = some [1]) (by decide +kernel)⟩,
   let ⟨t, e, _⟩ := h.2.2.2.2.2.1 w2 (withPriv [(1, 4), (2, 0x201)]) _ 17 17 17 (by decide +kernel) rfl (by decide +kernel) (by decide +kernel)
      (by intro g e; exact absurd (by decide +kernel : State.groupOn (found (.regbind w2) (withPriv [(1, 4), (2, 0x201)])) 17 = none) (by rw [e]; nofun))
      (by decide +kernel) (by decide +kernel) (by decide +kernel) (few_flights (by decide +kernel) rfl); ⟨t, e⟩,
   let ⟨t, e, _⟩ := h.2.2.2.2.2.2.1 w2 (withPriv [(1, 4), (2, 0xA01)]) _ 17 85 17 (by decide +kernel) rfl (by decide +kernel) (by decide +kernel) (by decide +kernel)
      (.inr (.inl (by decide +kernel))); ⟨t, e⟩,
   ⟨_, h.2.2.2.2.2.2.2.1 w2 (withPriv [(1, 4), (2, 0x40000)]) (by decide +kernel) (.inr ⟨17, by decide +kernel, by decide +kernel⟩)⟩,
   let ⟨t, e, _⟩ := h.2.2.2.2.2.2.2.2.1 w3 (withPriv [(3, 63)]) _ 0 0 63 (by decide +kernel) rfl (by decide +kernel) (by decide +kernel) (by decide +kernel)
      (by decide +kernel) (by decide) (by decide +kernel); ⟨t, e⟩,
   let ⟨t, e, _⟩ := h.2.2.2.2.2.2.2.2.2.1 w3 (withPriv []) _ 0 0 0 (by decide +kernel) rfl (by decide +kernel) (by decide +kernel) (by decide +kernel)
      (by decide +kernel) (by decide) (by decide +kernel); ⟨t, e⟩,
   ⟨_, h.2.2.2.2.2.2.2.2.2.2.1 w3 (withPriv [(3, 64)]) (by decide +kernel) (.inr (.inl (by decide +kernel)))⟩,
   let ⟨t, e, _⟩ := h.2.2.2.2.2.2.2.2.2.2.2.1 (word (im 15) (nn 2) o0) (withPriv [(2, 65535)]) 0 0 15 65535 rfl (by decide +kernel) (by decide +kernel)
      (by decide +kernel) (by decide) (by decide); ⟨t, e⟩,
   ⟨_, h.2.2.2.2.2.2.2.2.2.2.2.2 (word (im 16) (nn 2) o0) (withPriv []) (by decide +kernel) (.inl (by decide +kernel))⟩⟩

def okOf {α ε : Type} (d : α) (x : Except ε α) : α := match x with | .ok a => a | .error _ => d
theorem ok_of {α ε : Type} (d : α) {x : Except ε α} (h : x.isOk = true) : x = .ok (okOf d x) := by
  cases x with
  | ok a => rfl
  | error e => cases h

/-- Operation 9 of the control context of core 0. -/
def withOp (e : EngOp) (s : State := withCore {}) : State := { s with ops := [(9, e)] }
def aGet : EngOp := { kind := .rget, bv := 0x8000000000030000, len := 64, la := 0x60000 }
/-- Context 0 has one page, of 64 KiB at 0x30000, and its window 0 leads to the host. -/
def withPage (w0 w1 : Byte) (s : State := withCore {}) (root : Word := 0x0400000000100000) : State :=
  { s with contexts := [(0, { st := 2, keys := [0], root := root, home := [6], limit := 100 })],
           phys := [(0x100000, 0x30), (0x100007, w0), (0x100008, w1), (0x10000C, 2)] }
def aPage (w0 w1 : Nat) : Page := { at_ := 0x100000, w0 := 2 ^ 56 * w0 + 0x30, w1 := 0x200000000 + w1 }
def tableGroup : Group := { aGroup with kernel := { aGroup.kernel with loaderW := 1, rings := [0x10201000] } }

theorem walk_of {x : Walk} (f : Nat → Nat → Page → State → Bool) (h : (match x with | .got (.page a b p u) => f a b p u | _ => false) = true) :
    ∃ a b p u, x = .got (.page a b p u) ∧ f a b p u = true := by
  cases x with
  | got y =>
    cases y with
    | page a b p u => exact ⟨a, b, p, u, rfl, h⟩
    | _ => cases h
  | going _ => cases h
theorem walk_fails {x : Walk} {n : Nat} (h : (match x with | .got (.fail m) => m == n | _ => false) = true) : x = .got (.fail n) := by
  cases x with
  | got y =>
    cases y with
    | fail m => rw [eq_of_beq h]
    | _ => cases h
  | going _ => cases h
theorem walk_demands {x : Walk} (h : (match x with | .got .demand => true | _ => false) = true) : x = .got .demand := by
  cases x with
  | got y =>
    cases y with
    | demand => rfl
    | _ => cases h
  | going _ => cases h
theorem walk_swaps {x : Walk} (h : (match x with | .got (.swap _) => true | _ => false) = true) : ∃ p, x = .got (.swap p) := by
  cases x with
  | got y =>
    cases y with
    | swap p => exact ⟨p, rfl⟩
    | _ => cases h
  | going _ => cases h

theorem leaves (h : Obligations.RequestsAreTakenAndTranslated) (s : State) (e : EngOp) (g : toTranslate s 9 e)
    (h5 : (match walkStep s 9 e with
      | .got (.page a b p u) => (match partOf e a b p with | .ok e' => !orderHolds u 9 e' | .error _ => false)
      | _ => false) = true) : ∃ t, exec (.pageWalk 9 0) s = .next t := by
  obtain ⟨a, b, p, u, e1, e2⟩ := walk_of (fun a b p u => match partOf e a b p with | .ok e' => !orderHolds u 9 e' | .error _ => false) h5
  split at e2
  · next e' e3 =>
    obtain ⟨t, e, _⟩ := h.2.2.2.2.1 s u 9 a b e e' p g e1 e3 (by simpa using e2)
    exact ⟨t, e⟩
  · cases e2
theorem staysPut (h : Obligations.RequestsAreTakenAndTranslated) (s : State) (e : EngOp) (g : toTranslate s 9 e)
    (h5 : (match walkStep s 9 e with
      | .got (.page a b p u) => (match partOf e a b p with | .ok e' => orderHolds u 9 e' | .error _ => false)
      | _ => false) = true) : ∃ t, exec (.pageWalk 9 0) s = .next t := by
  obtain ⟨a, b, p, u, e1, e2⟩ := walk_of (fun a b p u => match partOf e a b p with | .ok e' => orderHolds u 9 e' | .error _ => false) h5
  split at e2
  · next e' e3 => exact ⟨_, h.2.2.2.2.2.1 s u 9 a b e e' p g e1 e3 e2⟩
  · cases e2
/-- Operation 9 begins its walk, or has begun it. -/
def aWalk (part : Part := { gen := some 0 }) : EngOp := { aGet with part := part }
theorem translates {s : State} {e : EngOp} (h1 : SMap.find s.ops 9 = some e) (h2 : e.st = .running) (h3 : e.cause = none) (h4 : s.opRests e = false)
    (h5 : e.part.st = .unbegun) (h6 : e.kind ≠ .wsig) (h7 : e.stale s = false) (h8 : s.invalidating e.ctx e.partVa = false) (h9 : s.parityCheck e = s) :
    toTranslate s 9 e := ⟨⟨h1, h2, h3, h4⟩, h5, fun e => absurd e h6, h7, h8, h9⟩

/-- Where the part was mounted without far memory (R1), a request to it has no memory core. -/
theorem witness_RequestToAbsentFarMemory (h : Obligations.RequestsAreTakenAndTranslated) (far : Config.farPresent = false) :
    ∃ t, exec (.memoryCoreRequest 9) { withOp aGet with contexts := [(0, { st := 2, home := [5] })] } = .next t :=
  let ⟨t, e, _⟩ := h.2.2.1 { withOp aGet with contexts := [(0, { st := 2, home := [5] })] } 9 aGet ⟨rfl, rfl, rfl, by decide +kernel⟩ rfl
    (by rw [farAbsent, far, (by decide +kernel : homeTarget { withOp aGet with contexts := [(0, { st := 2, home := [5] })] } aGet.ctx aGet.vaddr = 5)]; rfl)
  ⟨t, e⟩

/-- An earlier access of the same bytes has not been performed. -/
def behind (e : EngOp) : State := { withPage 0x80 0x76 with ops := [(8, { e with begun := true, part := { len := 64, st := .sent } }), (9, e)] }
/-- 32 requests of one memory core. -/
def crowd : State := { withPage 0x80 0x76 with ops := (9, aGet) :: (List.range 32).map fun i => (10 + i, { aGet with begun := true }) }
def aFault (w0 : Byte := 0x90) : State := { withPage w0 0x76 (withOp { aGet with part := { st := .held }, fva := 0x30000 }) with
    hub := { faults := [{ op := 9, va := 0x30000 }] }, contexts := [(0, { st := 2, keys := [0], root := 0x0400000000100000, home := [1], limit := 100 })] }
def aQuota : State := { aFault with contexts := [(0, { st := 2, keys := [0], root := 0x0400000000100000, home := [6], limit := 0 })] }
/-- A request whose walk has read the entry of a page without A and D, `n` swaps having failed. -/
def swapping (w1 n : Nat := 0) : EngOp := { aWalk { found := some (0x100000, (aPage 0x80 w1).w0, (aPage 0x80 w1).w1) } with swaps := n }

theorem witness_RequestsAreTakenAndTranslated (h : Obligations.RequestsAreTakenAndTranslated) :
    (∃ t, exec (.memoryCoreRequest 9) (withOp aGet) = .next t) ∧ (∃ t, exec (.memoryCoreRequest 9) crowd = .next t) ∧
    (∃ t, exec (.memoryCoreRequest 9) (withOp { kind := .cpyLd, la := 0x1000, cv := 64 } (withCore {} tableGroup)) = .next t) ∧
    (∃ t, exec (.pageWalk 9 0) (withPage 0x80 0x76 (withOp aWalk)) = .next t) ∧ (∃ t, exec (.pageWalk 9 0) (behind aWalk) = .next t) ∧
    (∃ t, exec (.pageWalk 9 0) (withPage 0x80 0x36 (withOp aWalk)) = .next t) ∧ (∃ t, exec (.pageWalk 9 0) (withPage 0x90 0x76 (withOp aWalk)) = .next t) ∧
    (aPage 0x80 0x76).v = true ∧
    (checkPage (withPage 0x80 0x77) 0 0x30000 0 6 (aPage 0x80 0x77) (fun _ s => s) = .fail 0x14B ∧
      checkPage (withPage 0x90 0x76) 0 0x30000 0 6 (aPage 0x90 0x76) (fun _ s => s) = .demand ∧
      checkPage (withPage 0x80 0xF6) 0 0x30000 0 6 (aPage 0x80 0xF6) (fun _ s => s) = .fail 0x14A ∧
      checkPage (withPage 0x80 0x36) 0 0x30000 0 6 (aPage 0x80 0x36) (fun _ s => s) = .fail 0x141) ∧
    lookup (withPage 0x80 0x76) 0 0x10000000000000 0 = .fail 0x142 ∧
    (∃ t, exec .faultService aFault = .next t) ∧ (∃ t, exec .faultService (aFault 0x92) = .next t) ∧ ∃ t, exec .faultService aQuota = .next t :=
  ⟨let ⟨t, e, _⟩ := h.1 (withOp aGet) 9 aGet ⟨rfl, rfl, rfl, rfl⟩ rfl (by decide +kernel) (by decide +kernel)
      ⟨rfl, by decide +kernel, .inr (.inr (.inr (.inr (.inl rfl))))⟩; ⟨t, e⟩,
   let ⟨t, e, _⟩ := h.2.1 crowd 9 aGet ⟨rfl, rfl, rfl, by decide +kernel⟩ rfl (by decide +kernel) (by decide +kernel); ⟨t, e⟩,
   let ⟨t, _, _, e, _⟩ := h.2.2.2.1 (withOp { kind := .cpyLd, la := 0x1000, cv := 64 } (withCore {} tableGroup)) 9 0 true _ ⟨rfl, rfl, rfl, rfl⟩ rfl
      (by decide +kernel) (by decide +kernel); ⟨t, e⟩,
   leaves h (withPage 0x80 0x76 (withOp aWalk)) aWalk (translates rfl rfl rfl (by decide +kernel) rfl nofun (by decide +kernel) (by decide +kernel)
      (by decide +kernel)) (by decide +kernel),
   staysPut h (behind aWalk) aWalk (translates rfl rfl rfl (by decide +kernel) rfl nofun (by decide +kernel) (by decide +kernel) (by decide +kernel))
      (by decide +kernel),
   let ⟨t, e, _⟩ := h.2.2.2.2.2.2.1 (withPage 0x80 0x36 (withOp aWalk)) 9 0x141 aWalk (translates rfl rfl rfl (by decide +kernel) rfl nofun
      (by decide +kernel) (by decide +kernel) (by decide +kernel)) (walk_fails (by decide +kernel)); ⟨t, e⟩,
   let ⟨t, e, _⟩ := h.2.2.2.2.2.2.2.1 (withPage 0x90 0x76 (withOp aWalk)) 9 aWalk (translates rfl rfl rfl (by decide +kernel) rfl nofun
      (by decide +kernel) (by decide +kernel) (by decide +kernel)) (walk_demands (by decide +kernel)) rfl (by decide +kernel); ⟨t, e⟩,
   (h.2.2.2.2.2.2.2.2.2.2.2.1 (withPage 0x80 0x76) 0 0x30000 (aPage 0x80 0x76) (eq_of_gives (by decide +kernel))).1,
   ⟨(h.2.2.2.2.2.2.2.2.2.2.2.2.1 (withPage 0x80 0x77) 0 0x30000 0 6 (aPage 0x80 0x77) _).1 (by decide +kernel),
    (h.2.2.2.2.2.2.2.2.2.2.2.2.1 (withPage 0x90 0x76) 0 0x30000 0 6 (aPage 0x90 0x76) _).2.1 (by decide +kernel) (by decide +kernel) (by decide +kernel),
    (h.2.2.2.2.2.2.2.2.2.2.2.2.1 (withPage 0x80 0xF6) 0 0x30000 0 6 (aPage 0x80 0xF6) _).2.2.1 (by decide +kernel) (by decide +kernel) (by decide +kernel),
    (h.2.2.2.2.2.2.2.2.2.2.2.2.1 (withPage 0x80 0x36) 0 0x30000 0 6 (aPage 0x80 0x36) _).2.2.2.1 (by decide +kernel) (by decide +kernel) (by decide +kernel)
      (by decide +kernel)⟩,
   h.2.2.2.2.2.2.2.2.2.2.2.2.2.1 (withPage 0x80 0x76) 0 0x10000000000000 0 (by decide +kernel),
   let ⟨t, e, _⟩ := h.2.2.2.2.2.2.2.2.2.2.2.2.2.2.1 aFault { op := 9, va := 0x30000 } [] { aGet with part := { st := .held }, fva := 0x30000 } (aPage 0x90 0x76)
      rfl rfl rfl (by decide +kernel) rfl rfl rfl rfl rfl (by decide +kernel) (by decide +kernel) (eq_of_gives (by decide +kernel)) (by decide +kernel)
      (by decide +kernel) (by decide +kernel) (by decide +kernel) (by decide +kernel); ⟨t, e⟩,
   let ⟨t, _, e, _⟩ := h.2.2.2.2.2.2.2.2.2.2.2.2.2.2.2.1 (aFault 0x92) { op := 9, va := 0x30000 } [] (aPage 0x92 0x76) rfl (by decide +kernel)
      (by decide +kernel) (by decide +kernel); ⟨t, e⟩,
   let ⟨t, e, _⟩ := h.2.2.2.2.2.2.2.2.2.2.2.2.2.2.2.2 aQuota { op := 9, va := 0x30000 } [] { aGet with part := { st := .held }, fva := 0x30000 } (aPage 0x90 0x76)
      rfl rfl rfl rfl rfl rfl (by decide +kernel) (eq_of_gives (by decide +kernel)) (by decide +kernel) (by decide +kernel) (by decide +kernel)
      (by decide +kernel) (by decide +kernel); ⟨t, e⟩⟩

theorem witness_WalksBeginSwapAndStartAgain (h : Obligations.RequestsAreTakenAndTranslated) :
    (∃ t, exec (.pageWalk 9 0) { withOp aWalk with gen := 1 } = .next t) ∧
    (∃ t, exec (.pageWalk 9 0) { withOp aGet with ops := [(9, aGet), (4, { kind := .tlbinv, begun := true, m := 1 })] } = .next t) ∧
    (∃ t, exec (.pageWalk 9 0) (withPage 0x80 0x76 (withOp (aWalk {}))) = .next t) ∧
    (∃ t, exec (.pageWalk 9 0) (withPage 0x80 0x70 (withOp aWalk)) = .next t) ∧
    (∃ t, walkStep (withPage 0x82 0x70) 9 (swapping 0x70) = .going t) ∧ (∃ x, walkStep (withPage 0x80 0x70) 9 (swapping 0x70) = .got x) ∧
    (∃ t, walkStep (withPage 0x80 0x74 (withOp (swapping 0x70))) 9 (swapping 0x70) = .going t) ∧
    ∃ x, walkStep (withPage 0x80 0x74) 9 (swapping 0x70 8) = .got x :=
  ⟨let ⟨t, e, _⟩ := (h.2.2.2.2.2.2.2.2.1 { withOp aWalk with gen := 1 } 9 aWalk ⟨rfl, rfl, rfl, by decide +kernel⟩ rfl nofun).1 (by decide +kernel); ⟨t, e⟩,
   ⟨_, (h.2.2.2.2.2.2.2.2.1 { withOp aGet with ops := [(9, aGet), (4, { kind := .tlbinv, begun := true, m := 1 })] } 9 aGet ⟨rfl, rfl, rfl, by decide +kernel⟩
      rfl nofun).2 (by decide +kernel) (by decide +kernel)⟩,
   let ⟨t, _, e, _⟩ := (h.2.2.2.2.2.2.2.2.2.1 (withPage 0x80 0x76 (withOp (aWalk {}))) 9 (aWalk {}) rfl).2.1 (translates rfl rfl rfl (by decide +kernel)
      rfl nofun (by decide +kernel) (by decide +kernel) (by decide +kernel)) (by decide +kernel) rfl; ⟨t, e⟩,
   let ⟨p, found⟩ := walk_swaps (by decide +kernel : (match walkStep (withPage 0x80 0x70 (withOp aWalk)) 9 aWalk with | .got (.swap _) => true | _ => false) = true)
   let ⟨t, _, e, _⟩ := (h.2.2.2.2.2.2.2.2.2.1 (withPage 0x80 0x70 (withOp aWalk)) 9 aWalk rfl).2.2 p (translates rfl rfl rfl (by decide +kernel)
      rfl nofun (by decide +kernel) (by decide +kernel) (by decide +kernel)) found; ⟨t, e⟩,
   ⟨_, (h.2.2.2.2.2.2.2.2.2.2.1 (withPage 0x82 0x70) 9 (swapping 0x70) (aPage 0x80 0x70) rfl).1 (by decide +kernel)⟩,
   ⟨_, (h.2.2.2.2.2.2.2.2.2.2.1 (withPage 0x80 0x70) 9 (swapping 0x70) (aPage 0x80 0x70) rfl).2.1 (by decide +kernel) (by decide +kernel) (by decide +kernel)⟩,
   let ⟨t, _, e, _⟩ := (h.2.2.2.2.2.2.2.2.2.2.1 (withPage 0x80 0x74 (withOp (swapping 0x70))) 9 (swapping 0x70) (aPage 0x80 0x70) rfl).2.2.1 rfl
      (by decide +kernel) (by decide +kernel) (by decide +kernel); ⟨t, e⟩,
   ⟨_, (h.2.2.2.2.2.2.2.2.2.2.1 (withPage 0x80 0x74) 9 (swapping 0x70 8) (aPage 0x80 0x70) rfl).2.2.2 (by decide +kernel) (by decide +kernel)⟩⟩

/-- Operation 9 has come to its home: stack 0, address 0x200000, a page of type `ct`. -/
def sentPart (ct : Nat := 0) (len : Nat := 64) : Part := { len := len, st := .sent, pa := 0x200000, home := 1, die := 0, ct := ct, stamp := [0, 0, 0, 0, 0] }
def atHomeOf (e : EngOp) : State := { withPage 0x80 0x76 (withOp { e with begun := true }) with granules := [(0x8000, true)] }
def admitted (e : EngOp) : State :=
  let v := okOf State.reset ((atHomeOf e).admitAt { e with begun := true })
  v.rekey (v.keyOf e.part.key) e.part.pa (if e.kind = .pgen then 0 else e.part.len)
theorem at_home {e : EngOp} (h1 : e.st = .running) (h2 : e.cause = none) (h3 : e.grp = 0) (h4 : e.part.st = .sent)
    (h5 : clocksAllow ((atHomeOf e).arrive { e with begun := true }) 9 { e with begun := true } = true)
    (h6 : localReady ((atHomeOf e).arrive { e with begun := true }) 9 { e with begun := true } = true) (h7 : e.part.home ≠ 6) (h8 : e.part.num = none)
    (h9 : ((atHomeOf e).admitAt { e with begun := true }).isOk = true) : atHome (atHomeOf e) (admitted e) 9 { e with begun := true } :=
  ⟨⟨rfl, h1, h2, h4, h5, fun _ => h6⟩, h7, _, by rw [State.arrive, h8]; exact ok_of _ h9, rfl⟩
theorem nothing_held {s : State} {g : Nat} (h : ((s.groupAt g).proof.isNone && s.groups.all (fun x => x.2.hold.isEmpty)) = true) : nothingHeld s g := by
  rw [Bool.and_eq_true, Option.isNone_iff_eq_none, List.all_eq_true] at h
  exact ⟨h.1, fun x hx => List.isEmpty_iff.1 (h.2 x hx)⟩

def aPut : EngOp := { kind := .rput, bv := 0x8000000000030000, len := 64, la := 0x60000, part := sentPart }
def anAtom (bv : Word) (ct : Nat := 0) : EngOp := { kind := .atom 0, bv := bv, cv := 3, fmt := 6, len := 4, part := sentPart ct 4 }
def aPgen (ct : Nat) : EngOp := { kind := .pgen, bv := 0x8000000000030000, len := 65536, part := sentPart ct 65536 }
def getOf (ct m : Nat) (off : Nat := 0) : EngOp := { aGet with m := m, part := { sentPart ct with pa := 0x200000 + off } }
/-- Two writes of host ports wait, the first for a get's completion. -/
def withPort (e : EngOp) : State := { withOp e with hub := { portWrites := [{ port := 3, op := 9 }, { port := 4, op := 5 }] } }
def heldState : State := { withCore {} with groups := [(0, { aGroup with proof := some {} })] }

theorem witness_HomesPerformTheirAccess (h : Obligations.HomesPerformTheirAccess) :
    (∃ t, exec (.homePerform 9 0) (atHomeOf (getOf 2 0)) = .next t) ∧ ((loadSegs aGet [1, 2]).flatMap (·.2) = [1, 2]) ∧
    (∃ t, exec (.homePerform 9 0) (atHomeOf (getOf 2 0 64)) = .next t) ∧ (∃ t, exec (.homePerform 9 0) (atHomeOf (getOf 2 1 64)) = .next t) ∧
    (∃ t, exec (.homePerform 9 0) (atHomeOf aPut) = .next t) ∧ (heldState.physWrite 0 1 0x200000 []).phys = [] ∧
    (∃ t, exec (.homePerform 9 0) (atHomeOf (anAtom 0x8000000000030004)) = .next t) ∧
    atomValue 0 6 (0xFFFFFFFF#32).toNat (1#32).toNat (0#32).toNat = 0 ∧ atomValue 1 7 (0xFFFFFFFFFFFFFFFF#64).toNat (1#64).toNat (0#64).toNat = 2 ^ 64 - 1 ∧
    (∃ t, exec (.homePerform 9 0) (atHomeOf (anAtom 0x8000000000030002)) = .next t) ∧
    (∃ t, exec (.homePerform 9 0) (atHomeOf (anAtom 0x8000000000030004 2)) = .next t) ∧ (∃ t, exec (.homePerform 9 0) (atHomeOf (aPgen 1)) = .next t) ∧
    (∃ t, exec (.homePerform 9 0) (atHomeOf (aPgen 2)) = .next t) ∧ ((atHomeOf aGet).typedWrite 0 1 2 0x20003F [1, 2] = .error 0x145) ∧
    (∃ t, (atHomeOf aGet).typedWrite 0 1 2 0x200040 [1, 2] = .ok t) ∧
    (∃ t, exec (.hostPortCompletion 3 true) (withPort { aGet with part := sentPart }) = .next t) ∧
    (∃ t, exec (.hostPortCompletion 3 false) (withPort { aGet with part := sentPart }) = .next t) ∧
    (∃ t, exec (.hostPortCompletion 3 false) (withPort aPut) = .next t) ∧ State.reset.rekey none 0x1F 2 = State.reset :=
  ⟨let ⟨t, e, _⟩ := h.1 (atHomeOf (getOf 2 0)) (admitted (getOf 2 0)) 9 _ (at_home rfl rfl rfl rfl (by decide +kernel) (by decide +kernel) (by decide) rfl
      (by decide +kernel)) rfl nofun rfl rfl (fun _ => by decide +kernel) (by decide +kernel); ⟨t, e⟩,
   (h.2.1 aGet [1, 2] rfl nofun).1,
   let ⟨t, e, _⟩ := h.2.2.1 (atHomeOf (getOf 2 0 64)) (admitted (getOf 2 0 64)) 9 _ (at_home rfl rfl rfl rfl (by decide +kernel) (by decide +kernel) (by decide) rfl
      (by decide +kernel)) rfl (by decide +kernel) rfl rfl (by decide +kernel); ⟨t, e⟩,
   let ⟨t, e, _⟩ := h.2.2.2.1 (atHomeOf (getOf 2 1 64)) (admitted (getOf 2 1 64)) 9 _ (at_home rfl rfl rfl rfl (by decide +kernel) (by decide +kernel) (by decide) rfl
      (by decide +kernel)) rfl (by decide +kernel) rfl rfl rfl; ⟨t, e⟩,
   let ⟨t, e, _⟩ := h.2.2.2.2.1 (atHomeOf aPut) (admitted aPut) 9 0 0 _ (at_home rfl rfl rfl rfl (by decide +kernel) (by decide +kernel) (by decide) rfl
      (by decide +kernel)) rfl rfl rfl rfl nofun rfl rfl (nothing_held (by decide +kernel))
      ⟨rfl, rfl, rfl, rfl⟩; ⟨t, e⟩,
   (h.2.2.2.2.2.1 heldState 0 1 0x200000 [] nofun (by decide +kernel) (by decide +kernel) (Nat.zero_le _)).1,
   let ⟨t, e, _⟩ := h.2.2.2.2.2.2.1 (atHomeOf (anAtom 0x8000000000030004)) (admitted (anAtom 0x8000000000030004)) 9 0 4 _ _ (at_home rfl rfl rfl rfl
      (by decide +kernel) (by decide +kernel) (by decide) rfl (by decide +kernel)) rfl rfl (by decide +kernel) nofun (nothing_held (by decide +kernel)) rfl rfl; ⟨t, e⟩,
   (h.2.2.2.2.2.2.2.1 0 0xFFFFFFFF 1 0).1, (h.2.2.2.2.2.2.2.2.1 1 0xFFFFFFFFFFFFFFFF 1 0).1,
   let ⟨t, e, _⟩ := h.2.2.2.2.2.2.2.2.2.1 (atHomeOf (anAtom 0x8000000000030002)) (admitted (anAtom 0x8000000000030002)) 9 _ 0x150 (at_home rfl rfl rfl rfl
      (by decide +kernel) (by decide +kernel) (by decide) rfl (by decide +kernel)) (.inl ⟨0, rfl, .inl ⟨by decide +kernel, rfl⟩⟩); ⟨t, e⟩,
   let ⟨t, e, _⟩ := h.2.2.2.2.2.2.2.2.2.1 (atHomeOf (anAtom 0x8000000000030004 2)) (admitted (anAtom 0x8000000000030004 2)) 9 _ 0x146 (at_home rfl rfl rfl rfl
      (by decide +kernel) (by decide +kernel) (by decide) rfl (by decide +kernel)) (.inl ⟨0, rfl, .inr ⟨by decide +kernel, rfl, rfl⟩⟩); ⟨t, e⟩,
   let ⟨t, e, _⟩ := h.2.2.2.2.2.2.2.2.2.1 (atHomeOf (aPgen 1)) (admitted (aPgen 1)) 9 _ 0x149 (at_home rfl rfl rfl rfl
      (by decide +kernel) (by decide +kernel) (by decide) rfl (by decide +kernel)) (.inr ⟨rfl, by decide, rfl⟩); ⟨t, e⟩,
   let ⟨t, e, _⟩ := h.2.2.2.2.2.2.2.2.2.2.1 (atHomeOf (aPgen 2)) (admitted (aPgen 2)) 9 _ (at_home rfl rfl rfl rfl
      (by decide +kernel) (by decide +kernel) (by decide) rfl (by decide +kernel)) rfl rfl; ⟨t, e⟩,
   (h.2.2.2.2.2.2.2.2.2.2.2.1 (atHomeOf aGet) 0 1 0x20003F [1, 2] nofun nofun).1 ⟨0x8000, by decide +kernel, by decide +kernel⟩,
   let ⟨t, e, _⟩ := (h.2.2.2.2.2.2.2.2.2.2.2.1 (atHomeOf aGet) 0 1 0x200040 [1, 2] nofun nofun).2 (by decide +kernel) (by decide +kernel); ⟨t, e⟩,
   let ⟨t, e, _⟩ := (h.2.2.2.2.2.2.2.2.2.2.2.2.1 (withPort { aGet with part := sentPart }) [] _ { port := 3, op := 9 } { aGet with part := sentPart } rfl nofun
      ⟨rfl, rfl, rfl, rfl⟩ rfl rfl nofun rfl).1; ⟨t, e⟩,
   let ⟨t, e, _⟩ := (h.2.2.2.2.2.2.2.2.2.2.2.2.1 (withPort { aGet with part := sentPart }) [] _ { port := 3, op := 9 } { aGet with part := sentPart } rfl nofun
      ⟨rfl, rfl, rfl, rfl⟩ rfl rfl nofun rfl).2; ⟨t, e⟩,
   ⟨_, h.2.2.2.2.2.2.2.2.2.2.2.2.2.1 (withPort aPut) [] _ { port := 3, op := 9 } rfl nofun (by intro e h; cases h; rfl) false⟩,
   h.2.2.2.2.2.2.2.2.2.2.2.2.2.2.2.1 State.reset none 0x1F 2 (by intro b _ _; rfl)⟩

def pushPart (segs : List (Nat × List Byte)) (off : Nat := 0) : Part := { off := off, len := 64, st := .pushing, segs := segs }
/-- The first push of a get, to the last bytes of a row. -/
def aPush (off : Nat := 0) : EngOp := { aGet with part := pushPart [(0x600FF, [1])] off }
def pushed (off : Nat) : EngOp := { aGet with len := 128, part := pushPart [] off }
/-- The burin unit has 16 triggers, and watches the row. -/
def watched : State := withCore { burin := { armed := true, rowBase := 0x600, rows := 1, pend := List.replicate 16 (0x600, 0) } }
def aRing : Sbs := { s := 2, rows := 1, base := 0x600, fills := 1, stage := 1, counts := [250] }

theorem witness_PushesLandAndAreCredited (h : Obligations.PushesLandAndAreCredited) :
    (∃ t, exec (.copyPush 9 0) (withOp (aPush) (withCore { sbs := [(3, aRing)] })) = .next t) ∧
    (∃ t, exec (.copyPush 9 0) (withOp (aPush) watched) = .next t) ∧
    (∃ t, exec (.copyPush 9 0) (withOp (aPush) (withCore { served := [(6, 101)] })) = .next t) ∧
    (∃ t, exec (.copyPush 9 0) (withOp (aPush) (withCore { banks := [(6, { pers := 5, first := 6 })] })) = .next t) ∧
    (∃ t, exec (.copyPush 9 0) (withOp (pushed 0)) = .next t) ∧ (∃ t, exec (.copyPush 9 0) (withOp (pushed 64)) = .next t) ∧
    (aRing.credit 0x601FF 10).counts.getD 0 0 = 256 ∧ aRing.credit 0x60200 10 = aRing ∧ aRing.credit 0x5FFFF 10 = aRing :=
  ⟨let ⟨t, _, e, _⟩ := h.1 (withOp (aPush) (withCore { sbs := [(3, aRing)] })) 9 0 0 0x600FF [1] [] aPush ⟨rfl, rfl, rfl, rfl⟩ rfl rfl rfl rfl
      (by decide +kernel) (by decide +kernel) (by decide +kernel); ⟨t, e⟩,
   ⟨_, h.2.1 (withOp (aPush) watched)
      9 0 0 0x600FF [1] [] aPush ⟨rfl, rfl, rfl, rfl⟩ rfl rfl rfl (by decide +kernel)⟩,
   let ⟨t, e, _⟩ := h.2.2.1 (withOp (aPush) (withCore { served := [(6, 101)] })) 9 0 0 0x600FF [1] [] aPush ⟨rfl, rfl, rfl, rfl⟩ rfl rfl rfl
      (by decide +kernel) (by decide +kernel); ⟨t, e⟩,
   let ⟨t, e, _⟩ := h.2.2.2.1 (withOp (aPush) (withCore { banks := [(6, { pers := 5, first := 6 })] })) 9 0 0 0x600FF [1] [] aPush ⟨rfl, rfl, rfl, rfl⟩ rfl rfl rfl
      (by decide +kernel) (by decide +kernel) (by decide +kernel); ⟨t, e⟩,
   let ⟨t, e, _⟩ := h.2.2.2.2.1 (withOp (pushed 0)) 9 (pushed 0) ⟨rfl, rfl, rfl, rfl⟩ rfl rfl rfl rfl; ⟨t, e⟩,
   let ⟨t, e, _⟩ := h.2.2.2.2.1 (withOp (pushed 64)) 9 (pushed 64) ⟨rfl, rfl, rfl, rfl⟩ rfl rfl rfl rfl; ⟨t, e⟩,
   (h.2.2.2.2.2.1 aRing 0x601FF 10 0 (by decide +kernel) (by decide +kernel) (by decide +kernel) (by decide +kernel)).1.trans (by decide +kernel),
   h.2.2.2.2.2.2 aRing 0x60200 10 (.inr (.inr (by decide +kernel))), h.2.2.2.2.2.2 aRing 0x5FFFF 10 (.inr (.inl (by decide +kernel)))⟩

def logical (kind : ReqKind) (a : Word) (mapv : BitVec 16 := 0) (st : PartSt := .sent) : EngOp :=
  { kind := kind, bv := a, len := 64, la := 0x60000, begun := true, mapv := mapv, part := { len := 64, st := st, stamp := [0, 0, 0, 0, 0] } }
theorem has_arrived {e : EngOp} (h1 : e.st = .running) (h2 : e.cause = none) (h3 : e.grp = 0) (h4 : e.part.st = .sent)
    (h5 : clocksAllow ((withOp e).arrive e) 9 e = true) (h6 : localReady ((withOp e).arrive e) 9 e = true) : Machine.arrived (withOp e) 9 e :=
  ⟨⟨rfl, h1, h2, h4, h5, fun _ => h6⟩, by rw [State.opRests, h3]; rfl⟩
def aSignal : EngOp := { kind := .wsig, av := 0x8000000000040000, bv := 0x8000000000030000, cv := 0x500000040, ev := 0x8000000000050000, len := 64, la := 0x60000 }
def aSending (kind : ReqKind) : EngOp := { logical kind 0x10000 0 .unbegun with issued := 5 }
/-- The source of the put has been written, but not committed. -/
def beforeSource : State := withOp (aSending .rput) (withCore { pend := [{ id := 3, seq := 3, addr := 0x60000, data := [1], endC := 99, commitC := 102 }] })
def aTwoSided : EngOp := { kind := .wsig, bv := 0x10000, ev := 0x20000, len := 64, la := 0x60000, begun := true, mapv := 1 }
def afterPut : State := { withCore {} with ops := [(8, aPut), (9, aSignal)] }
/-- The signal of a WSIG of peer 5 whose payload has failed. -/
def aPeerSignal : EngOp := { aSignal with peer := some 5, tag := 2, grp := 65536, agent := .req 1 }
def afterFailure : State := { withOp aPeerSignal with hub := { failedPayloads := [(5, 2, 0x145)] } }

theorem witness_LogicalRequestsAndSignals (h : Obligations.LogicalRequestsAndSignals) :
    (∃ t, exec (.remoteRequestReceive 9 0) (withOp (logical .rget 0x10000 1)) = .next t) ∧
    (∃ t, exec (.staleReissue 9 0) (withOp (logical .rget 0x10000 1)) = .next t) ∧ (∃ t, exec (.staleReissue 9 0) (withOp aTwoSided) = .next t) ∧
    (∃ t, exec (.remoteRequestReceive 9 0) (withOp (aSending .rget)) = .next t) ∧ (∃ t, exec (.remoteRequestReceive 9 0) (withOp (aSending .rput)) = .next t) ∧
    (∃ t, exec (.remoteRequestReceive 9 0) beforeSource = .next t) ∧
    (∃ t, exec (.remoteRequestReceive 9 0) (withOp { logical .rput 0x10000 0 .unbegun with begun := false }) = .next t) ∧
    (∃ t, exec (.remoteRequestReceive 9 0) (withOp (logical .rget 0x0FFFE0)) = .next t) ∧
    (∃ t, exec (.remoteRequestReceive 9 0) (withOp (logical .rget 0x10000)) = .next t) ∧
    (∃ t, exec (.remoteRequestReceive 9 0) (withOp (logical .rput 0x10000)) = .next t) ∧
    (∃ t, exec (.wsigSignal 9) (withOp aSignal) = .next t) ∧ (∃ t, exec (.wsigSignal 9) afterPut = .next t) ∧
    (∃ t, exec (.wsigSignal 9) afterFailure = .next t) ∧
    (∃ t, exec (.homePerform 9 0) (atHomeOf { aSignal with paid := true, m := 1, part := sentPart }) = .next t) ∧
    signalValue aSignal 7 = 5 ∧ signalValue { aSignal with m := 1, cv := 0xFFFFFFFF00000040 } 7 = 6 :=
  ⟨let ⟨t, e, _⟩ := h.1 (withOp (logical .rget 0x10000 1)) 9 _ ⟨rfl, rfl, rfl, rfl⟩ nofun rfl (by decide +kernel); ⟨t, e⟩,
   let ⟨t, e, _⟩ := h.2.1 (withOp (logical .rget 0x10000 1)) 9 _ ⟨0, 0x10000⟩ rfl (.inl rfl) (by decide +kernel); ⟨t, e⟩,
   let ⟨t, e, _⟩ := h.2.2.1 (withOp aTwoSided) 9 _ ⟨0, 0x10000⟩ ⟨0, 0x20000⟩ rfl rfl (by decide +kernel) (by decide +kernel); ⟨t, e⟩,
   let ⟨t, _, e, _⟩ := h.2.2.2.1 (withOp (aSending .rget)) 9 _ ⟨⟨rfl, rfl, rfl, rfl⟩, rfl, rfl, by decide +kernel, nofun, nofun⟩ (by decide +kernel) nofun; ⟨t, e⟩,
   let ⟨t, _, e, _⟩ := h.2.2.2.1 (withOp (aSending .rput)) 9 _ ⟨⟨rfl, rfl, rfl, rfl⟩, rfl, rfl, by decide +kernel, nofun, nofun⟩ (by decide +kernel)
      (fun _ => by decide +kernel); ⟨t, e⟩,
   ⟨_, h.2.2.2.2.1 beforeSource 9 _ ⟨⟨rfl, rfl, rfl, rfl⟩, rfl, rfl, by decide +kernel, nofun, nofun⟩ (.inr ⟨rfl, by decide +kernel⟩)⟩,
   let ⟨t, e, _⟩ := h.2.2.2.2.2.1 (withOp { logical .rput 0x10000 0 .unbegun with begun := false }) 9 _ ⟨rfl, rfl, rfl, rfl⟩ nofun rfl (.inr rfl) rfl (by decide +kernel)
   ⟨t, e⟩,
   let ⟨t, e, _⟩ := h.2.2.2.2.2.2.1 (withOp (logical .rget 0x0FFFE0)) 9 _ (has_arrived rfl rfl rfl rfl (by decide +kernel) (by decide +kernel)) rfl rfl (.inl rfl)
      (by decide +kernel); ⟨t, e⟩,
   let ⟨t, e, _⟩ := h.2.2.2.2.2.2.2.1 (withOp (logical .rget 0x10000)) 9 _ _ _ (has_arrived rfl rfl rfl rfl (by decide +kernel) (by decide +kernel)) rfl rfl rfl rfl rfl rfl
      (by decide +kernel) (by decide +kernel) (by decide +kernel) rfl rfl; ⟨t, e⟩,
   let ⟨t, e, _⟩ := h.2.2.2.2.2.2.2.2.1 (withOp (logical .rput 0x10000)) 9 0 0 _ (has_arrived rfl rfl rfl rfl (by decide +kernel) (by decide +kernel)) rfl rfl rfl rfl
      rfl rfl rfl rfl (by decide +kernel) (by decide +kernel) (by decide +kernel); ⟨t, e⟩,
   let ⟨t, e, _⟩ := h.2.2.2.2.2.2.2.2.2.1 (withOp aSignal) 9 _ ⟨rfl, rfl, rfl, rfl⟩ rfl rfl (by decide +kernel) rfl; ⟨t, e⟩,
   ⟨_, h.2.2.2.2.2.2.2.2.2.2.1 afterPut 9 _ ⟨rfl, rfl, rfl, rfl⟩ rfl
      ⟨(8, aPut), h.2.2.2.2.2.2.2.2.2.2.2.1 afterPut 9 8 aSignal aPut 0 0 rfl rfl rfl (by decide) rfl rfl rfl, rfl⟩⟩,
   let ⟨t, e, _⟩ := h.2.2.2.2.2.2.2.2.2.2.2.2.1 afterFailure 9 0x145 5 aPeerSignal ⟨rfl, rfl, rfl, by decide +kernel⟩ rfl rfl (by decide +kernel) rfl; ⟨t, e⟩,
   let ⟨t, e, _⟩ := h.2.2.2.2.2.2.2.2.2.2.2.2.2.1 (atHomeOf { aSignal with paid := true, m := 1, part := sentPart }) (admitted { aSignal with paid := true, m := 1, part := sentPart })
      9 _ (at_home rfl rfl rfl rfl (by decide +kernel) (by decide +kernel) (by decide) rfl (by decide +kernel)) rfl rfl nofun (nothing_held (by decide +kernel))
      (fun _ => rfl)
   ⟨t, e⟩,
   (h.2.2.2.2.2.2.2.2.2.2.2.2.2.2 aSignal 7).1 nofun, (h.2.2.2.2.2.2.2.2.2.2.2.2.2.2 { aSignal with m := 1, cv := 0xFFFFFFFF00000040 } 7).2 rfl⟩

/-- Die 0 has written, and has not said so. -/
def unsaid : State := { withCore {} with dies := [(0, { vc := [1, 0, 0, 0, 0], due := true })] }

theorem witness_ClocksAreNoticedAndMerged (h : Obligations.ClocksAreNoticedAndMerged) :
    (∃ t, exec (.clockNoticeSend 0) unsaid = .next t) ∧
    (∃ due, 100 < due ∧ (unsaid.message 0 4 prioNet .faultService).dueAt due prioNet .faultService) ∧ (∃ t, exec (.clockNoticeReceive 0 4 7) (withCore {}) = .next t) ∧
    (∃ t, exec (.rcReplyReceive 0 [1, 2, 3, 4, 5]) (withCore {}) = .next t) ∧
    (((withOp { aPut with part := { sentPart 1 with die := 2 } }).stampPart 9).dieAt 0).vc.getD 0 0 = 1 ∧
    ((withOp { aGet with part := { sentPart 1 with die := 2 } }).stampPart 9).dies = [] ∧
    clocksAllow (withCore {}) 9 { aGet with part := { sentPart 1 with die := 2, stamp := [0, 0, 0, 0, 1] } } = false :=
  ⟨let ⟨t, _, e, _⟩ := h.1 unsaid 0 4 (by decide) (by decide) rfl (by decide) (by decide +kernel); ⟨t, e⟩,
   let ⟨d, l, e, _⟩ := (h.2.1 unsaid _ 0 4 prioNet .faultService rfl).1; ⟨d, l, e⟩,
   let ⟨t, e, _⟩ := h.2.2.1 (withCore {}) 0 4 7 (by decide +kernel); ⟨t, e⟩,
   let ⟨t, e, _⟩ := h.2.2.2.1 (withCore {}) 0 [1, 2, 3, 4, 5]; ⟨t, e⟩,
   (h.2.2.2.2.1 (withOp { aPut with part := { sentPart 1 with die := 2 } }) 9 0 _ rfl (by decide +kernel) rfl (by decide) rfl (by decide) (by decide +kernel)).1,
   (h.2.2.2.2.2.1 (withOp { aGet with part := { sentPart 1 with die := 2 } }) 9 0 _ rfl (by decide +kernel) rfl (by decide) (.inl rfl)).1,
   h.2.2.2.2.2.2 (withCore {}) 9 4 { aGet with part := { sentPart 1 with die := 2, stamp := [0, 0, 0, 0, 1] } } rfl (by decide) (by decide) (by decide)
      (by decide +kernel)⟩

/-- The sequencer has operation 9, which names context or group `av`; group 256 of context 1 is in state `g`. -/
def askedOf (kind : ReqKind) (av : Word) (g : Group := { aGroup with ctx := 1, members := [17] }) (st : Nat := 2) (m : Nat := 0) (begun : Bool := false) : State :=
  let s := withPriv []
  { s with ops := [(9, { kind := kind, av := av, bv := 1, m := m, begun := begun, cv := 0x2000, fmt := if st = 0 then 1 else 0, va := 0x30000 })],
           groups := [(0, aGroup), (256, g)], contexts := [(0, { st := 2 }), (1, { st := st, area := 0x2000 })] }
def opOf (kind : ReqKind) (av : Word) (st m : Nat) (begun : Bool) : EngOp :=
  { kind := kind, av := av, bv := 1, m := m, begun := begun, cv := 0x2000, fmt := if st = 0 then 1 else 0, va := 0x30000 }
theorem is_asked (kind : ReqKind) (av : Word) (g : Group) (st m : Nat) (b : Bool) : asked (askedOf kind av g st m b) 9 (opOf kind av st m b) kind :=
  ⟨⟨rfl, rfl, rfl, rfl, ⟨0, 0, rfl, by decide⟩, rfl⟩, rfl, rfl⟩
def gp (st : GState) : Group := { aGroup with ctx := 1, st := st, members := [17] }
def protGroup : Group := { gp .running with record := [0, 0x0100000000000000] }
def provenGroup : Group := { gp .running with proof := some {} }
/-- Operation 9 is served by request thread 3. -/
def served (st : TStat) (tr : Option TrapRec := none) : State :=
  { withCore {} with ops := [(9, { thread := some 3 })], reqThreads := [(3, { op := 9, thread := { stat := st, trap := tr } })] }

/-- A deposit is on its way to core 17. -/
def unsettled : State := { askedOf .ctxsave 1 (gp .stopped) 3 0 false with agenda := [{ due := 200, ev := .depositArrival 17 0 0 }] }

theorem witness_OperationsComplete (h : Obligations.OperationsComplete) :
    (∃ t, exec (.engineOperationComplete 9) (withOp aGet) = .next t) ∧ (∃ t, exec (.engineOperationComplete 9) (withOp { aGet with cause := some 0x150 }) = .next t) ∧
    (∃ t, exec (.engineOperationComplete 9) (withOp { aGet with cause := some 0x150 } (withCore { finished := true })) = .next t) ∧
    (∃ t, exec (.engineOperationComplete 9) (served .run) = .next t) ∧ (∃ t, exec (.engineOperationComplete 9) (served .done) = .next t) ∧
    (∃ t, exec (.engineOperationComplete 9) (served .trapped (some { cause := 0x150 })) = .next t) ∧
    (∃ t, exec (.engineOperationComplete 9) (askedOf .snap 256 protGroup 2 0 false) = .next t) ∧
    (∃ t, exec (.engineOperationComplete 9) (askedOf .roll 256 (gp .running) 2 0 false) = .next t) ∧
    (∃ t, exec (.engineOperationComplete 9) (askedOf .roll 256 provenGroup 2 0 false) = .next t) ∧
    (∃ t, exec (.engineOperationComplete 9) (askedOf .preempt 256 (gp .running) 2 0 false) = .next t) ∧
    (∃ t, exec (.engineOperationComplete 9) (askedOf .preempt 256 (gp .killed) 2 0 false) = .next t) ∧
    (∃ t, exec (.engineOperationComplete 9) (askedOf .preempt 256 (gp .stopped) 2 0 true) = .next t) ∧
    (∃ t, exec (.engineOperationComplete 9) (askedOf .ctxsave 1 (gp .stopped) 3 0 false) = .next t) ∧
    (∃ t, exec (.engineOperationComplete 9) unsettled = .next t) ∧
    (∃ t, exec (.engineOperationComplete 9) (askedOf .ctxsave 1 (gp .stopped) 3 1 false) = .next t) ∧
    (∃ t, exec (.engineOperationComplete 9) (askedOf .ctxsave 1 (gp .killed) 5 1 true) = .next t) ∧
    (∃ t, exec (.engineOperationComplete 9) (askedOf .ctxsave 256 (gp .saved) 4 2 false) = .next t) ∧
    (∃ t, exec (.engineOperationComplete 9) (askedOf .ctxload 1 (gp .killed) 0 0 false) = .next t) ∧
    (∃ t, exec (.engineOperationComplete 9) (askedOf .ctxload 1 (gp .saved) 4 0 false) = .next t) ∧
    (∃ t, exec (.engineOperationComplete 9) (askedOf .tlbinv 0 (gp .running) 2 1 false) = .next t) ∧
    (∃ t, exec (.engineOperationComplete 9) { askedOf .tlbinv 0 (gp .running) 2 1 true with
      ops := [(8, { aGet with part := sentPart }), (9, { opOf .tlbinv 0 2 1 true with drain := [(8, partKey { aGet with part := sentPart })] })] } = .next t) ∧
    (∃ t, exec (.engineOperationComplete 9) (askedOf .tlbinv 0 (gp .running) 2 1 true) = .next t) ∧
    (∃ t, exec (.ueConsumed 256 0x281 7) (askedOf .snap 256 (gp .running) 2 0 false) = .next t) ∧
    (∃ t, exec (.ueConsumed 256 0x281 7) (askedOf .snap 256 provenGroup 2 0 false) = .next t) ∧
    ∃ t, exec (.ueConsumed 256 0x281 7) (askedOf .snap 256 (gp .saved) 2 0 false) = .next t :=
  ⟨let ⟨t, e, _⟩ := h.1 (withOp aGet) 9 aGet ⟨rfl, rfl, rfl, rfl, ⟨0, 0, rfl, by decide⟩, rfl⟩ (.inl rfl); ⟨t, e⟩,
   let ⟨t, e, _⟩ := h.1 (withOp { aGet with cause := some 0x150 }) 9 _ ⟨rfl, rfl, rfl, rfl, ⟨0, 0, rfl, by decide⟩, rfl⟩ (.inr nofun); ⟨t, e⟩,
   let ⟨t, _, e, _⟩ := h.2.1 (withOp { aGet with cause := some 0x150 } (withCore { finished := true })) 9 0x150 0 0 _ rfl rfl rfl rfl rfl (by decide) rfl rfl
      ⟨rfl, by decide⟩; ⟨t, e⟩,
   ⟨_, h.2.2.1 (served .run) 9 3 _ rfl rfl rfl rfl⟩,
   let ⟨t, e, _⟩ := h.2.2.2.1 (served .done) 9 3 0 0 _ none rfl rfl rfl rfl rfl (by decide) rfl rfl; ⟨t, e⟩,
   let ⟨t, e, _⟩ := h.2.2.2.1 (served .trapped (some { cause := 0x150 })) 9 3 0 0 _ (some 0x150) rfl rfl rfl rfl rfl (by decide) rfl rfl; ⟨t, e⟩,
   let ⟨t, e, _⟩ := h.2.2.2.2.1 (askedOf .snap 256 protGroup 2 0 false) 9 256 _ (is_asked ..) rfl rfl rfl (by decide +kernel) nofun; ⟨t, e⟩,
   let ⟨t, e, _⟩ := (h.2.2.2.2.2.1 (askedOf .roll 256 (gp .running) 2 0 false) 9 256 _ (is_asked ..) rfl rfl rfl).1 rfl; ⟨t, e⟩,
   let ⟨t, e, _⟩ := (h.2.2.2.2.2.1 (askedOf .roll 256 provenGroup 2 0 false) 9 256 _ (is_asked ..) rfl rfl rfl).2 nofun; ⟨t, e⟩,
   let ⟨t, e, _⟩ := h.2.2.2.2.2.2.1 (askedOf .preempt 256 (gp .running) 2 0 false) 9 256 _ (is_asked ..) rfl rfl rfl; ⟨t, e⟩,
   let ⟨t, e, _⟩ := (h.2.2.2.2.2.2.2.1 (askedOf .preempt 256 (gp .killed) 2 0 false) 9 _ .preempt (.inr (.inr rfl)) (is_asked ..)).1 rfl; ⟨t, e⟩,
   let ⟨t, e, _⟩ := (h.2.2.2.2.2.2.2.1 (askedOf .preempt 256 (gp .stopped) 2 0 true) 9 _ .preempt (.inr (.inr rfl)) (is_asked ..)).2 rfl rfl; ⟨t, e⟩,
   let ⟨t, e, _⟩ := h.2.2.2.2.2.2.2.2.1 (askedOf .ctxsave 1 (gp .stopped) 3 0 false) 9 1 256 _ (is_asked ..) rfl rfl rfl (by decide +kernel) (by decide +kernel)
      (by decide +kernel); ⟨t, e⟩,
   ⟨_, h.2.2.2.2.2.2.2.2.2.1 unsettled 9 1 _ ⟨⟨rfl, rfl, rfl, rfl, ⟨0, 0, rfl, by decide⟩, rfl⟩, rfl, rfl⟩ rfl rfl rfl (by decide +kernel)
      (by decide +kernel)⟩,
   let ⟨t, e, _⟩ := h.2.2.2.2.2.2.2.2.2.2.1 (askedOf .ctxsave 1 (gp .stopped) 3 1 false) 9 1 _ (is_asked ..) rfl rfl rfl (by decide +kernel); ⟨t, e⟩,
   let ⟨t, e, _⟩ := h.2.2.2.2.2.2.2.2.2.2.2.1 (askedOf .ctxsave 1 (gp .killed) 5 1 true) 9 1 _ (is_asked ..) rfl rfl rfl; ⟨t, e⟩,
   let ⟨t, e, _⟩ := h.2.2.2.2.2.2.2.2.2.2.2.2.1 (askedOf .ctxsave 256 (gp .saved) 4 2 false) 9 256 _ (is_asked ..) rfl rfl (by decide +kernel); ⟨t, e⟩,
   let ⟨t, e, _⟩ := h.2.2.2.2.2.2.2.2.2.2.2.2.2.1 (askedOf .ctxload 1 (gp .killed) 0 0 false) 9 1 0x2000 _ (is_asked ..) rfl rfl rfl rfl rfl (by decide +kernel)
   ⟨t, e⟩,
   let ⟨t, e, _⟩ := h.2.2.2.2.2.2.2.2.2.2.2.2.2.2.1 (askedOf .ctxload 1 (gp .saved) 4 0 false) 9 1 _ (is_asked ..) rfl rfl rfl rfl rfl; ⟨t, e⟩,
   let ⟨t, e, _⟩ := h.2.2.2.2.2.2.2.2.2.2.2.2.2.2.2.1 (askedOf .tlbinv 0 (gp .running) 2 1 false) 9 _ (is_asked ..) rfl; ⟨t, e⟩,
   let ⟨t, e, _⟩ := (h.2.2.2.2.2.2.2.2.2.2.2.2.2.2.2.2.1 { askedOf .tlbinv 0 (gp .running) 2 1 true with
      ops := [(8, { aGet with part := sentPart }), (9, { opOf .tlbinv 0 2 1 true with drain := [(8, partKey { aGet with part := sentPart })] })] } 9 _
      ⟨⟨rfl, rfl, rfl, rfl, ⟨0, 0, rfl, by decide⟩, rfl⟩, rfl, rfl⟩ rfl).1 (by decide +kernel); ⟨t, e⟩,
   let ⟨t, e, _⟩ := (h.2.2.2.2.2.2.2.2.2.2.2.2.2.2.2.2.1 (askedOf .tlbinv 0 (gp .running) 2 1 true) 9 _ (is_asked ..) rfl).2 rfl
      (by decide +kernel); ⟨t, e⟩,
   let ⟨t, e, _⟩ := h.2.2.2.2.2.2.2.2.2.2.2.2.2.2.2.2.2.1 (askedOf .snap 256 (gp .running) 2 0 false) 256 0x281 7 rfl rfl ⟨rfl, by decide⟩ rfl; ⟨t, e⟩,
   let ⟨t, e, _⟩ := h.2.2.2.2.2.2.2.2.2.2.2.2.2.2.2.2.2.2.1 (askedOf .snap 256 provenGroup 2 0 false) 256 0x281 7 rfl nofun nofun rfl; ⟨t, e⟩,
   ⟨_, h.2.2.2.2.2.2.2.2.2.2.2.2.2.2.2.2.2.2.2 (askedOf .snap 256 (gp .saved) 2 0 false) 256 0x281 7 rfl⟩⟩

/-- Group 256 on core 17, whose control context has one result in flight. -/
def withGroup (g : Group) (th : Thread := {}) (k : Core := {}) : State :=
  { State.reset with now := 100, read := true, opened := true, fresh := 50, contexts := [(0, { st := 2 }), (1, { st := 2 })], groups := [(256, g)],
                     cores := [(17, { k with grp := some 256, budg := 1000, threads := [(0, { th with pc := 4, flight := [{ dest := .n 1, land := 97 }] })] })] }
def inDomain (q : Coupled) : Group := { gp .running with domains := [(3, aDomain)], coupled := [(3, q)] }
/-- Its control context is in a timed segment, whose first word is `first`. -/
def inTimed (first : Nat) (q : Coupled) : Group := { inDomain q with kernel := { aGroup.kernel with segs := [{ first := first, nw := 4, coup := true }] } }
def atWord4 (first : Nat) : State := withGroup (inTimed first {}) { stat := .run, restart := some { word := 2 }, seg := some 2 }
def aProof : Proof := { dom := 3, rels := [(17, { total := 9 })], images := [{ at_ := 17, core := { grp := some 256, mem := [(5, 1)] } }] }
def moving (mapv : BitVec 16 := 0) : Group := { gp .changingMap with map := [1], moves := [(0, 63)], copying := true, mapv := mapv }
def stale : State := { withGroup (moving 1) with ops := [(9, { logical .rget 0x10000 with ctx := 1, grp := 256 })] }

theorem witness_GroupsStopRestoreMoveAndGoOn (h : Obligations.GroupsStopRestoreMoveAndGoOn) :
    (∃ t, exec (.stopAtCycle 256) (withGroup (gp .running) { stat := .run }) = .next t) ∧ (∃ t, exec (.stopAtCycle 256) (withGroup (gp .changingMap)) = .next t) ∧
    (∃ t, exec (.stopAtCycle 256) (withGroup { gp .stopped with preempts := [9] }) = .next t) ∧
    (∃ t, exec (.resumeCycle 1) (withGroup { gp .stopped with resumeAt := some 100, stopC := some 90 } { stat := .stopped }) = .next t) ∧
    (∃ t, exec (.coupledStop 256 3) (atWord4 2) = .next t) ∧ (∃ t, exec (.coupledStop 256 3) (atWord4 4) = .next t) ∧
    (∃ t, exec (.coupledRerelease 256 3) (withGroup (inDomain { stopped := true }) { stat := .stopped }) = .next t) ∧
    (∃ t, exec (.rollback 256) (withGroup { gp .stopped with proof := some aProof }) = .next t) ∧
    (∃ t, exec (.rollback 256) (withGroup { gp .running with ue := some (0x281, 7) }) = .next t) ∧
    (∃ t, exec (.rollbackRelease 256) (withGroup { gp .rollingBack with proof := some aProof }) = .next t) ∧
    (∃ t, exec (.mapChangeBegin 256) (withGroup { gp .running with moves := [(0, 63)] }) = .next t) ∧ (∃ t, exec (.mapCopyComplete 256) stale = .next t) ∧
    ∃ t, exec (.mapCopyComplete 256) (withGroup moving) = .next t :=
  ⟨let ⟨t, e, _⟩ := h.1 (withGroup (gp .running) { stat := .run }) 256 rfl; ⟨t, e⟩,
   ⟨_, h.2.1 (withGroup (gp .changingMap)) 256 (.inr (.inl rfl))⟩,
   let ⟨t, _, e, _⟩ := h.2.2.1 (withGroup { gp .stopped with preempts := [9] }) 256 9 rfl (.head _) (by decide +kernel); ⟨t, e⟩,
   let ⟨t, e, _⟩ := h.2.2.2.1 (withGroup { gp .stopped with resumeAt := some 100, stopC := some 90 } { stat := .stopped }) 1 256 10 rfl rfl rfl rfl
      (by decide +kernel) rfl; ⟨t, e⟩,
   let ⟨t, _, e, _⟩ := h.2.2.2.2.1 (atWord4 2) 256 3 17 {} { word := 2 } rfl rfl rfl (by decide +kernel) rfl rfl
      (by intro v hv; rw [(by decide +kernel : State.segOf (atWord4 2) (.core 17 0) ((State.coreAt (atWord4 2) 17).thread 0).pc = some { first := 2, nw := 4, coup := true })] at hv
          cases hv; rfl); ⟨t, e⟩,
   let ⟨t, _, e, _⟩ := h.2.2.2.2.2.1 (atWord4 4) 256 3 17 {} { first := 4, nw := 4, coup := true } rfl rfl rfl (by decide +kernel) rfl (by decide +kernel)
      (by decide +kernel); ⟨t, e⟩,
   let ⟨t, _, e, _⟩ := h.2.2.2.2.2.2.1 (withGroup (inDomain { stopped := true }) { stat := .stopped }) 256 3 17 { stopped := true } rfl rfl rfl
      (by decide +kernel) rfl; ⟨t, e⟩,
   let ⟨t, _, e, _⟩ := h.2.2.2.2.2.2.2.1 (withGroup { gp .stopped with proof := some aProof }) 256 aProof (.inr rfl) rfl (by decide +kernel) rfl; ⟨t, e⟩,
   let ⟨t, e, _⟩ := h.2.2.2.2.2.2.2.2.1 (withGroup { gp .running with ue := some (0x281, 7) }) 256 0x281 7 (.inl rfl) rfl rfl ⟨rfl, by decide⟩ rfl; ⟨t, e⟩,
   let ⟨t, e, _⟩ := h.2.2.2.2.2.2.2.2.2.1 (withGroup { gp .rollingBack with proof := some aProof }) 256 17 aProof { total := 9 } rfl rfl (by decide +kernel)
      (by decide +kernel); ⟨t, e⟩,
   let ⟨t, _, e, _⟩ := h.2.2.2.2.2.2.2.2.2.2.1 (withGroup { gp .running with moves := [(0, 63)] }) 256 [(0, 63)] rfl (by decide +kernel) nofun; ⟨t, e⟩,
   ⟨_, h.2.2.2.2.2.2.2.2.2.2.2.1 stale 256 rfl (by decide +kernel)⟩,
   let ⟨t, e, _⟩ := h.2.2.2.2.2.2.2.2.2.2.2.2 (withGroup moving) 256 _ rfl (by decide +kernel) rfl (by decide +kernel); ⟨t, e⟩⟩

/-- Group 256 is queued in queue 7 of context 1, for the image at 0x30000, which lies in host memory. -/
def queued : Group := { ctx := 1, queue := 7, record := [0x30000, 0, 0, 0, 0, 0, 0, 0] }
def taken : Group := { queued with dequeued := true }
def withLaunch (g : Group) (home : List Word := [6]) : State :=
  { State.reset with
      now := 100, opened := true, groups := [(256, g)],
      contexts := [(1, { st := 1, keys := [0], root := 0x0400000000100000, home := home, limit := 100, allow := 50, queues := [(7, { recs := [256] })],
                         hubMap := [(4, 2)] })],
      phys := [(0x100080, 0x30), (0x100087, 0x80), (0x100088, 0x7E), (0x10008C, 2)],
      host := [(0x200000, 1), (0x200005, 1), (0x200006, 0x49), (0x200007, 0x4B), (0x200008, 0x80), (0x20000C, 0x40), (0x200040, 100)] }
theorem pass_of {x : Checked} (h : (match x with | .pass _ _ => true | _ => false) = true) : ∃ k u, x = .pass k u := by
  cases x with
  | pass k u => exact ⟨k, u, rfl⟩
  | _ => cases h
theorem rejects {x : Checked} (h : (match x with | .fail _ _ u => u.hub.heldNotices.isEmpty && decide (u.hub.privQ.length < 1024) | _ => false) = true) :
    ∃ a b u, x = .fail a b u ∧ roomForNotice u := by
  cases x with
  | fail a b u =>
    rw [Bool.and_eq_true] at h
    exact ⟨a, b, u, rfl, List.isEmpty_iff.1 h.1, of_decide_eq_true h.2⟩
  | _ => cases h
def aKernel : Kernel := { codeW := 1, states := [{ cap := 100 }] }
/-- Core 0 has finished the work of a group that signals key 4 of its context. -/
def atRest (b : Bool) : State :=
  { withLaunch {} with groups := [(256, { ctx := 1, st := .running, members := [0], record := [0, 0, 0, 4] })], cores := [(0, { grp := some 256, finished := b })] }
/-- Its map is changing; and a host write of the same cycle comes first at the hub map. -/
def changing : State := { atRest true with groups := [(256, { ctx := 1, st := .changingMap, members := [0], record := [0, 0, 0, 4] })] }
def behindHost : State := { atRest true with agenda := [{ due := 100, ev := .hostLaunchDmwr 0 0x1FC0 [] }] }
def holdsKey (n : Nat) : State := { State.reset with contexts := [(1, { st := 1, dkeys := [1], hubMap := (List.range n).map fun k => (k + 2, 2) })] }

/-- Group 256 wants 64 clusters, of which group 0 holds one. -/
def crowded : State :=
  { withLaunch {} with groups := [(0, { aGroup with map := [0] }), (256, { taken with record := [0x30000, 0x3F0000000000, 0, 0, 0, 0, 0, 0] })] }
/-- Its context was saved after the record had left its queue. -/
def notServed : State := { withLaunch taken with contexts := [(1, { st := 4 })] }

theorem witness_LaunchIsServedPlacedStartedAndRetired (h : Obligations.LaunchIsServedPlacedStartedAndRetired) :
    256 ∈ queueHeads (withLaunch queued) ∧ (∃ t, exec .launchDecision (withLaunch queued) = .next t) ∧ (∃ t, exec .launchDecision (withLaunch taken) = .next t) ∧
    (∃ t, exec (.kernelCheck 256) (withLaunch taken) = .next t) ∧ (∃ t, exec (.kernelCheck 256) (withLaunch taken []) = .next t) ∧
    (leastState aKernel.states 100).isSome = true ∧ (∃ map, placementOf (withLaunch taken) taken = some map ∧ map.length = taken.cls) ∧
    (∃ t, exec (.placement 256) (withLaunch taken) = .next t) ∧
    (∃ t, exec (.placement 256) crowded = .next t) ∧ (∃ t, exec (.placement 256) notServed = .next t) ∧
    (∃ t, exec (.startBroadcast 256) (withLaunch { taken with st := .placed, members := [0], map := [0], kernel := aKernel }) = .next t) ∧
    (∃ t, exec (.groupRetire 256) (atRest true) = .next t) ∧ (∃ t, exec (.groupRetire 256) (atRest false) = .next t) ∧
    (∃ t, exec (.groupRetire 256) changing = .next t) ∧ (∃ t, exec (.groupRetire 256) behindHost = .next t) ∧
    (∃ t, exec (.dkeyRetry 1) (holdsKey 511) = .next t) ∧ (∃ t, exec (.dkeyRetry 1) (holdsKey 512) = .next t) ∧
    ∃ t, exec .heldPlacementRetry (withCore {}) = .next t :=
  ⟨(h.1 (withLaunch queued) _ 256 (by decide +kernel)).1,
   let ⟨t, _, e, _⟩ := h.2.1 (withLaunch queued) 256 rfl (by decide +kernel) (by decide +kernel) (by decide +kernel); ⟨t, e⟩,
   ⟨_, h.2.2.1 (withLaunch taken) (.inr (by decide +kernel))⟩,
   let ⟨k, u, p⟩ := pass_of (x := checkImage 256 (withLaunch taken)) (by decide +kernel)
   let ⟨t, _, e, _⟩ := h.2.2.2.1 (withLaunch taken) u 256 k rfl rfl rfl p; ⟨t, e⟩,
   let ⟨a, b, u, p, r⟩ := rejects (x := checkImage 256 (withLaunch taken [])) (by decide +kernel)
   let ⟨t, e, _⟩ := h.2.2.2.2.1 (withLaunch taken []) u 256 a b rfl rfl rfl p r; ⟨t, e⟩,
   (h.2.2.2.2.2.1 aKernel 0 100 (by decide +kernel)).2.2,
   have e : placementOf (withLaunch taken) taken = some [0] := by decide +kernel
   ⟨[0], e, (h.2.2.2.2.2.2.1 _ _ _ e).1⟩,
   let ⟨t, _, e, _⟩ := h.2.2.2.2.2.2.2.1 (withLaunch taken) 256 [0] rfl rfl (by decide +kernel) (by decide +kernel)
      (by decide +kernel); ⟨t, e⟩,
   let ⟨t, e, _⟩ := h.2.2.2.2.2.2.2.2.1 crowded 256 rfl rfl (.inl (by decide +kernel)); ⟨t, e⟩,
   let ⟨t, e, _⟩ := h.2.2.2.2.2.2.2.2.1 notServed 256 rfl rfl (.inr (by decide +kernel)); ⟨t, e⟩,
   let ⟨t, _, e, _⟩ := h.2.2.2.2.2.2.2.2.2.1 (withLaunch { taken with st := .placed, members := [0], map := [0], kernel := aKernel }) 256 0 0 _ rfl rfl
      (by decide +kernel) (by decide +kernel) (by decide +kernel); ⟨t, e⟩,
   let ⟨t, e, _⟩ := h.2.2.2.2.2.2.2.2.2.2.1 (atRest true) 256 rfl (by decide +kernel) (.inr (by decide +kernel)); ⟨t, e⟩,
   ⟨_, h.2.2.2.2.2.2.2.2.2.2.2.1 (atRest false) 256 rfl (by decide +kernel)⟩,
   ⟨_, (h.2.2.2.2.2.2.2.2.2.2.2.2.1 changing 256 (by decide +kernel)).1 rfl⟩,
   ⟨_, (h.2.2.2.2.2.2.2.2.2.2.2.2.1 behindHost 256 (by decide +kernel)).2 rfl (by decide +kernel) (by decide +kernel)⟩,
   let ⟨t, e, _⟩ := (h.2.2.2.2.2.2.2.2.2.2.2.2.2.1 (holdsKey 511) 1 1 rfl (by decide) (by decide +kernel)).1 (by decide +kernel); ⟨t, e⟩,
   let ⟨t, e, _⟩ := (h.2.2.2.2.2.2.2.2.2.2.2.2.2.1 (holdsKey 512) 1 1 rfl (by decide) (by decide +kernel)).2 (by decide +kernel); ⟨t, e⟩,
   let ⟨t, e, _⟩ := h.2.2.2.2.2.2.2.2.2.2.2.2.2.2 (withCore {}); ⟨t, e⟩⟩

/-- The host's view: context 0 is loaded, and context 1 with it; a peer may write through export 1 and read through export 2. -/
def withHub (h : Hub) (st : Nat := 2) : State :=
  { State.reset with hub := h, contexts := [(1, { st := st, area := 0x2000 })], phys := [(0x2006, 0x58), (0x2007, 0x43)] }
def opened : Hub := { ctx0Ld := true, exports := [(1, 0xFFFC000000000000), (2, 0x8008000000010000)] }
def signal (key : BitVec 32) (st : Nat := 2) : Prop := ∃ t, exec (.hubMapSignal 1 key) (withHub opened st) = .next t

def asks (src off form : Nat) (data : List Byte) (len : Nat) : Prop := ∃ t, exec (.peerRequest src off form data len) (withHub opened) = .next t
/-- A write of port 0 reaches the hub on the same cycle. -/
def portFirst : State := { withHub opened with agenda := [{ due := 0, ev := .hostLaunchDmwr 0 0x1FC0 aRecord }] }
/-- Its link 11 to device 5 is up. -/
def reached : State := { withHub { opened with fnum := 7, linkSets := [(5, 0x800)] } with links := [(11, { st := 2 })] }

theorem witness_HostWindowsAnswer (h : Obligations.HostWindowsAnswer) :
    (∃ t, exec (.hostLaunchDmwr 0 0x1FC0 aRecord) (withHub opened) = .next t) ∧ (∃ t, exec (.hostLaunchDmwr 0 0x1FD0 aRecord) (withHub opened) = .next t) ∧
    (∃ t, exec (.hostLaunchDmwr 1 0x1FC0 aRecord) portFirst = .next t) ∧ (∃ w, (withHub {}).launchWord (255 * 0x1000 + 7 * 0x200 + 0x1F8) = some w) ∧
    (∃ t, exec (.hostLaunchDmwr 0 0x1FC0 aRecord) (withHub {}) = .next t) ∧ (∃ t, exec (.launchWindowWrite 0 0xFFFFF) (withHub {}) = .next t) ∧
    (signal 4 ∧ signal 0 ∧ signal 4 5) ∧
    (∃ t, exec (.mgmtRegisterWrite 0x3FF8 0xFFFFFFFFFFFFFFFF) (withHub {}) = .next t) ∧ (∃ t, exec (.mgmtRegisterWrite 8 0xF) (withHub {}) = .next t) ∧
    (∃ t, exec (.fabnoWrite 7) { withHub {} with links := [(11, { st := 3 })] } = .next t) ∧ (∃ t, exec (.fabnoWrite 7) (withHub {}) = .next t) ∧
    (∃ t, exec (.ctx0pWrite 0x2FFF) (withHub {}) = .next t) ∧ (∃ t, exec (.ctx0pWrite 0x3000) (withHub {}) = .next t) ∧
    (∃ t, exec (.ctx0pWrite 0x2FFF) (withHub opened) = .next t) ∧
    (asks 5 0xC0000000 0 [] 8 ∧ asks 2 0x80000000 1 [1] 0) ∧
    (∃ t k, exec (.peerRequest 5 0xC0000000 0 [] 8) reached = .next t ∧ flitKind (k : Kept).flit = 2 ∧ k.flit.extractLsb' 32 16 = 0x187) ∧
    (asks 5 0x40000000 0 [] 8 ∧ asks 5 0x40000000 20 [] 8 ∧ asks 5 0x40000000 21 [] 0 ∧ asks 5 0x40000000 22 [1] 9) ∧
    asks 5 0x7FFFFFFF 1 [1] 0 ∧ asks 5 0x40000000 3 [1] 0 ∧ asks 5 0x40000000 19 [1] 8 :=
  ⟨let ⟨t, e, _⟩ := h.1 (withHub opened) 0 0x1FC0 1 7 aRecord _ rfl rfl (by decide +kernel) (by decide) (by decide) (by decide) (by decide) (by decide) rfl rfl
   ⟨t, e⟩,
   ⟨_, h.2.1 (withHub opened) 0 0x1FD0 aRecord rfl rfl (by decide +kernel) (.inr (.inl (by decide)))⟩,
   ⟨_, h.2.2.1 portFirst 1 0x1FC0 aRecord rfl (by decide +kernel)⟩,
   let ⟨w, e, _⟩ := h.2.2.2.1 (withHub {}) 255 7 _ rfl (by decide) (by decide) rfl (by decide +kernel) (by decide +kernel) (by decide +kernel) (by decide +kernel); ⟨w, e⟩,
   ⟨_, h.2.2.2.2.1 (withHub {}) 0 0x1FC0 aRecord rfl rfl (by decide +kernel)⟩,
   let ⟨t, e, _⟩ := h.2.2.2.2.2.1 (withHub {}) 0 0xFFFFF 255 7 rfl (by decide) (by decide) (by decide); ⟨t, e⟩,
   ⟨let ⟨t, e, _⟩ := h.2.2.2.2.2.2.1 (withHub opened) 0 1 4 _ rfl rfl (by decide +kernel) (by decide) (by decide) (by decide +kernel) (by decide +kernel) rfl; ⟨t, e⟩,
    ⟨_, h.2.2.2.2.2.2.2.1 (withHub opened) 0 1 0 rfl rfl (by decide +kernel) (by decide) (.inl rfl)⟩,
    ⟨_, h.2.2.2.2.2.2.2.1 (withHub opened 5) 0 1 4 rfl rfl (by decide +kernel) (by decide) (.inr (.inr rfl))⟩⟩,
   let ⟨t, e, _⟩ := (h.2.2.2.2.2.2.2.2.1 (withHub {}) 0xFFFFFFFFFFFFFFFF rfl).2.2.1 1023 (by decide); ⟨t, e⟩,
   let ⟨t, e, _⟩ := h.2.2.2.2.2.2.2.2.2.1 (withHub {}) 0xF rfl rfl; ⟨t, e⟩,
   ⟨_, (h.2.2.2.2.2.2.2.2.2.2.1 { withHub {} with links := [(11, { st := 3 })] } 7 rfl).1 ⟨11, by decide, by decide +kernel⟩⟩,
   ⟨_, (h.2.2.2.2.2.2.2.2.2.2.1 (withHub {}) 7 rfl).2.1 (by decide +kernel)⟩,
   let ⟨t, e, _⟩ := (h.2.2.2.2.2.2.2.2.2.2.2.1 (withHub {}) 0x2FFF 0x2000 rfl rfl (by decide)).1 (by decide +kernel) rfl; ⟨t, e⟩,
   let ⟨t, e, _⟩ := (h.2.2.2.2.2.2.2.2.2.2.2.1 (withHub {}) 0x3000 0x3000 rfl rfl (by decide)).2 (by decide +kernel); ⟨t, e⟩,
   let ⟨t, e, _⟩ := h.2.2.2.2.2.2.2.2.2.2.2.2.1 (withHub opened) 0x2FFF rfl rfl; ⟨t, e⟩,
   ⟨let ⟨t, e, _⟩ := (h.2.2.2.2.2.2.2.2.2.2.2.2.2 (withHub opened) 5 0xC0000000 0 8 0 0 0 0 [] (by decide +kernel) rfl rfl rfl).1
      (.inl (by decide +kernel)); ⟨t, e⟩,
    let ⟨t, e, _⟩ := (h.2.2.2.2.2.2.2.2.2.2.2.2.2 (withHub opened) 2 0x80000000 1 0 0x8008000000010000 0 0x40000000 2 [1] (by decide +kernel) rfl rfl rfl).1
      (.inr (.inr ⟨by decide, by decide, by decide +kernel⟩)); ⟨t, e⟩⟩,
   let ⟨t, e, _, _, f⟩ := (h.2.2.2.2.2.2.2.2.2.2.2.2.2 reached 5 0xC0000000 0 8 0 0 0 0 [] (by decide +kernel) rfl rfl rfl).1 (.inl (by decide +kernel))
   let ⟨k, _, f⟩ := f 11 (by decide +kernel) (by decide +kernel) (by decide +kernel)
   ⟨t, k, e, f⟩,
   have c : ∀ (form len : Nat) (data : List Byte), _ := fun form len data =>
     (h.2.2.2.2.2.2.2.2.2.2.2.2.2 (withHub opened) 5 0x40000000 form len 0xFFFC000000000000 0 0 0xFFF data (by decide +kernel) rfl rfl rfl).2
       (by decide +kernel) (.inl rfl)
   ⟨let ⟨t, _, _, e, _⟩ := (c 0 8 []).1 rfl (by decide); ⟨t, e⟩,
    let ⟨t, _, _, e, _⟩ := (c 20 8 []).2.1 rfl (by decide); ⟨t, e⟩,
    let ⟨t, _, _, e, _⟩ := (c 21 0 []).2.2.1 rfl (by decide +kernel); ⟨t, e⟩,
    let ⟨t, _, _, e, _⟩ := (c 22 9 [1]).2.2.2.1 rfl (by decide +kernel) nofun; ⟨t, e⟩⟩,
   let ⟨t, _, _, e, _⟩ := ((h.2.2.2.2.2.2.2.2.2.2.2.2.2 (withHub opened) 5 0x7FFFFFFF 1 0 0xFFFC000000000000 0 0x3FFFFFFF 0xFFF [1] (by decide +kernel) rfl rfl
      rfl).2 (by decide +kernel) (.inl rfl)).2.2.2.2.1 rfl (by decide +kernel) nofun; ⟨t, e⟩,
   let ⟨t, _, _, e, _⟩ := ((h.2.2.2.2.2.2.2.2.2.2.2.2.2 (withHub opened) 5 0x40000000 3 0 0xFFFC000000000000 0 0 0xFFF [1] (by decide +kernel) rfl rfl rfl).2
      (by decide +kernel) (.inl rfl)).2.2.2.2.2.1 (.inr rfl) (by decide +kernel); ⟨t, e⟩,
   let ⟨t, _, _, e, _⟩ := ((h.2.2.2.2.2.2.2.2.2.2.2.2.2 (withHub opened) 5 0x40000000 19 8 0xFFFC000000000000 0 0 0xFFF [1] (by decide +kernel) rfl rfl rfl).2
      (by decide +kernel) (.inl rfl)).2.2.2.2.2.2 (by decide) (by decide) (by decide +kernel); ⟨t, e⟩⟩

def withLink (k : Link) (h : Hub := {}) : State := { State.reset with links := [(11, k)], hub := h }
def up : Link := { st := 2, seqRx := 4095, buffer := [{ flit := makeFlit 1 6 5 0 5 }, { flit := makeFlit 1 7 5 0 5 }] }
/-- Link 11 is up, and the device is device 7. -/
def numbered : State := withLink up { fnum := 7, linkSets := [(5, 0x800)] }
theorem full_buffer (k : Kept) : 4096 ≤ (((withLink { st := 2, buffer := List.replicate 4096 k })).linkAt 11).buffer.length :=
  Nat.le_of_eq (List.length_replicate ..).symm

theorem witness_LinksTrainReplayAndFail (h : Obligations.LinksTrainReplayAndFail) :
    (∃ t, exec (.linkEnable 11) (withLink {}) = .next t) ∧ (∃ t, exec (.linkEnable 11) (withLink up) = .next t) ∧
    (∃ t, exec (.linkDisable 11) (withLink up) = .next t) ∧ (∃ t, exec (.linkTrainingDone 11 2) (withLink { st := 4 }) = .next t) ∧
    (∃ t, exec (.linkTrainingDone 11 1) (withLink { st := 4, attempts := 2 }) = .next t) ∧ (∃ t, exec (.linkTrainingDone 11 1) (withLink { st := 4, attempts := 1 }) = .next t) ∧
    (∃ t, exec (.linkRetrainTrigger 11 3) (withLink up) = .next t) ∧ (∃ t, exec (.flitReceive 11 0) (withLink {}) = .next t) ∧
    (∃ t, exec (.flitReceive 11 0) (withLink up) = .next t) ∧
    (∃ t, exec (.flitReceive 11 0) (withLink { up with window := List.replicate 15 1 }) = .next t ∧ (t.linkAt 11).st = 4) ∧
    (∃ t, exec (.flitReceive 11 (makeFlit 3 6 0 1 0)) (withLink up) = .next t) ∧ (∃ t, exec (.flitReceive 11 (makeFlit 3 9 0 1 0)) (withLink up) = .next t) ∧
    (∃ t, exec (.flitReceive 11 (makeFlit 1 4095 0 1 0)) numbered = .next t) ∧ (∃ t, exec (.flitReceive 11 (makeFlit 2 0 0 1 0)) (withLink up) = .next t) ∧
    (∃ t, exec (.linkSetChange 11 true) numbered = .next t ∧ 5 ∈ t.hub.linkHold) ∧ (∃ t, exec (.linkSetChange 11 false) (withLink {}) = .next t) ∧
    (∃ f, (((withLink up).sendFlit 11 15 4095 0 5).linkAt 11).buffer = up.buffer ++ [f]) ∧
    (∃ w, (((withLink { st := 2, buffer := List.replicate 4096 {} }).sendFlit 11 15 4095 0 5).linkAt 11).waiting = [w]) ∧
    (numbered.linkAt 11).usable = true ∧ (withLink up { linkSets := [(5, 0x800)] }).peerLink 5 0 = none :=
  ⟨let ⟨t, e, _⟩ := h.1 (withLink {}) 11 rfl; ⟨t, e⟩, ⟨_, h.2.1 (withLink up) 11 nofun⟩, let ⟨t, e, _⟩ := h.2.2.1 (withLink up) 11; ⟨t, e⟩,
   let ⟨t, _, e, _⟩ := h.2.2.2.1 (withLink { st := 4 }) 11 2 (.inr rfl) (by decide) ⟨rfl, by decide⟩; ⟨t, e⟩,
   let ⟨t, e, _⟩ := h.2.2.2.2.1 (withLink { st := 4, attempts := 2 }) 11 1 (.inr ⟨rfl, by decide⟩) (by decide) ⟨rfl, by decide⟩; ⟨t, e⟩,
   let ⟨t, e, _⟩ := h.2.2.2.2.2.1 (withLink { st := 4, attempts := 1 }) 11 1 rfl (by decide) (by decide); ⟨t, e⟩,
   let ⟨t, e, _⟩ := h.2.2.2.2.2.2.1 (withLink up) 11 3 rfl; ⟨t, e⟩, ⟨_, h.2.2.2.2.2.2.2.1 (withLink {}) 11 0 rfl⟩,
   let ⟨t, e, _⟩ := h.2.2.2.2.2.2.2.2.1 (withLink up) 11 0 rfl (by decide +kernel); ⟨t, e⟩,
   let ⟨t, e, _, _, _, _, _, _, r⟩ := h.2.2.2.2.2.2.2.2.1 (withLink { up with window := List.replicate 15 1 }) 11 0 rfl (by decide +kernel)
   ⟨t, e, r (by decide +kernel) (by decide +kernel)⟩,
   let ⟨t, e, _⟩ := h.2.2.2.2.2.2.2.2.2.1 (withLink up) 11 (makeFlit 3 6 0 1 0) { flit := makeFlit 1 6 5 0 5 } []
      [{ flit := makeFlit 1 7 5 0 5 }] rfl (by decide +kernel) (by decide +kernel) rfl (by decide +kernel) nofun; ⟨t, e⟩,
   let ⟨t, e, _⟩ := h.2.2.2.2.2.2.2.2.2.2.1 (withLink up) 11 (makeFlit 3 9 0 1 0) rfl (by decide +kernel) (by decide +kernel) nofun (by decide +kernel); ⟨t, e⟩,
   let ⟨t, e, _⟩ := (h.2.2.2.2.2.2.2.2.2.2.2.1 numbered 11 (makeFlit 1 4095 0 1 0) rfl (by decide +kernel) (.inl (by decide +kernel))).1 (by decide +kernel)
   ⟨t, e⟩,
   let ⟨t, e, _⟩ := (h.2.2.2.2.2.2.2.2.2.2.2.1 (withLink up) 11 (makeFlit 2 0 0 1 0) rfl (by decide +kernel) (.inr (by decide +kernel))).2 (by decide +kernel); ⟨t, e⟩,
   let ⟨t, e, _, _, m⟩ := (h.2.2.2.2.2.2.2.2.2.2.2.2.1 numbered 11 true).1 (.inl rfl)
   ⟨t, e, m 5 (by decide +kernel) ⟨11, by decide, { flit := makeFlit 1 6 5 0 5 }, .head _, by decide +kernel⟩⟩,
   let ⟨t, e, _⟩ := (h.2.2.2.2.2.2.2.2.2.2.2.2.1 (withLink {}) 11 false).2 rfl nofun; ⟨t, e⟩,
   let ⟨f, e, _⟩ := (h.2.2.2.2.2.2.2.2.2.2.2.2.2.1 (withLink up) 11 15 4095 0 5 (by decide) (by decide) (by decide +kernel)).1 rfl (by decide +kernel); ⟨_, e⟩,
   ⟨_, ((h.2.2.2.2.2.2.2.2.2.2.2.2.2.1 (withLink { st := 2, buffer := List.replicate 4096 {} }) 11 15 4095 0 5 (by decide) (by decide) (by decide +kernel)).2 (full_buffer {})).2.2⟩,
   (h.2.2.2.2.2.2.2.2.2.2.2.2.2.2.1 numbered 5 0 11 (by decide +kernel)).2.1,
   h.2.2.2.2.2.2.2.2.2.2.2.2.2.2.2 (withLink up { linkSets := [(5, 0x800)] }) 5 0 (.inr (.inr rfl))⟩

/-- One result of the control context of core 0 is in flight. -/
def landing (f : Flight) (k : Core := {}) : State := withThread { flight := [f] } k
def aWrite (commitC : Nat) : PendWrite := { id := 3, addr := 0x0FFEF8, data := [1], endC := 99, commitC := commitC }

/-- A scalar access that waits at bank 15 of core 0; a load's, a store's, and the load's on a cycle on which the bank has served another. -/
def anAccess (key : Nat) : Acc := { bank := 15, arrive := 100, scalar := true, addr := 0x0FFEF8, key := key }
def aLoad : State := landing { dest := .n 1, land := 102, seq := 8, sample := some { cyc := 100, addr := 0x0FFEF8, width := 8 } } { acc := [anAccess 8] }
def aStore : State := withThread {} { pend := [aWrite 103], acc := [anAccess 3] }
def aBusy : State := landing { dest := .n 1, land := 102, seq := 8, sample := some { cyc := 100, addr := 0x0FFEF8, width := 8 } } { acc := [anAccess 8], served := [(15, 101)] }

def aReplay : Replay := { thr := 0, id := 8, word := 3, injected := true }

theorem witness_ResultsLandAndWritesCommit (h : Obligations.ResultsLandAndWritesCommit) :
    (aLoad.serveScalar (.core 0) (anAccess 8)).accOf (.core 0) = [] ∧ (aStore.serveScalar (.core 0) (anAccess 3)).dueAt 103 (prioCommit + 0) (.counterproofCommit (.core 0) 3) ∧
    (aLoad.delayScalar (.core 0) (anAccess 8)).accOf (.core 0) = [anAccess 8] ∧
    aLoad.servePlace (.core 0) = aLoad.serveScalar (.core 0) (anAccess 8) ∧ aBusy.servePlace (.core 0) = aBusy.delayScalar (.core 0) (anAccess 8) ∧
    (∃ t, exec (.resultLanding (.core 0 0)) (landing { dest := .p 7, value := 1, land := 100 }) = .next t) ∧
    (∃ t, exec (.resultLanding (.core 0 0)) (landing { dest := .n 1, land := 100, lat := 1, seq := 8 } { inj := [(0, 2)] }) = .next t) ∧
    (∃ t, exec (.resultLanding (.core 0 0)) (inHandler { flight := [{ land := 100 }] } {}) = .next t) ∧
    (∃ t, exec (.counterproofMismatch 0 0 3 0) (landing { land := 100, word := 3, seq := 8, lat := 1 } { replays := [aReplay] }) = .next t) ∧
    (∃ t, exec (.counterproofMismatch 0 0 3 12) (withCore {}) = .next t) ∧
    (∃ t, exec (.counterproofMismatch 0 0 3 5) (withThread { restarts := 1 } {} timedGroup) = .next t) ∧
    (∃ t, exec (.counterproofCommit (.core 0) 3) (withThread {} { pend := [aWrite 100] }) = .next t) ∧
    (∃ t, exec (.counterproofCommit (.core 0) 3) (withThread {} { pend := [aWrite 101] }) = .next t) ∧ ∃ t, exec (.budgetRefill 0) (withCore {}) = .next t :=
  ⟨(h.1 aLoad (.core 0) (anAccess 8) _ _ rfl rfl rfl (.inl rfl) ⟨rfl, rfl, rfl, rfl⟩).2.2.1.trans (by decide +kernel),
   (h.2.1 aStore (.core 0) (anAccess 3) (aWrite 103) nofun rfl).2.1,
   (h.2.2.1 aLoad (.core 0) (anAccess 8) _ rfl rfl nofun).2.trans (by decide +kernel),
   (h.2.2.2.1 aLoad (.core 0) (anAccess 8) (by decide +kernel)).trans (if_pos (.inr (by decide +kernel))),
   (h.2.2.2.1 aBusy (.core 0) (anAccess 8) (by decide +kernel)).trans (if_neg (by decide +kernel)),
   let ⟨t, _, e, _⟩ := h.2.2.2.2.1 (landing { dest := .p 7, value := 1, land := 100 }) 0 0 0 _ rfl rfl rfl rfl rfl rfl (by decide +kernel) rfl rfl; ⟨t, e⟩,
   let ⟨t, e, _⟩ := h.2.2.2.2.2.1 (landing { dest := .n 1, land := 100, lat := 1, seq := 8 } { inj := [(0, 2)] }) 0 0 0 _ rfl rfl rfl rfl rfl rfl (by decide +kernel)
      (by decide) (by decide) nofun rfl rfl rfl (by decide +kernel); ⟨t, e⟩,
   ⟨_, h.2.2.2.2.2.2.1 (inHandler { flight := [{ land := 100 }] } {}) (.core 0 0) (.inl rfl)⟩,
   let ⟨t, e, _⟩ := h.2.2.2.2.2.2.2.2.1 (landing { land := 100, word := 3, seq := 8, lat := 1 } { replays := [aReplay] }) 0 0 3 0 _ (by decide) (by decide +kernel) rfl rfl
      (by decide +kernel) ⟨aReplay, .head _, rfl, rfl, rfl, rfl⟩ nofun nofun; ⟨t, e⟩,
   let ⟨t, e, _⟩ := h.2.2.2.2.2.2.2.1 (withCore {}) 0 0 3 12 4 (by decide) rfl; ⟨t, e⟩,
   let ⟨t, _, e, _⟩ := h.2.2.2.2.2.2.2.2.2.1 (withThread { restarts := 1 } {} timedGroup) 0 3 5 (by decide) (by decide +kernel) rfl (by decide); ⟨t, e⟩,
   let ⟨t, e, _⟩ := h.2.2.2.2.2.2.2.2.2.2.1 (withThread {} { pend := [aWrite 100] }) (.core 0) 3 (aWrite 100) [] [] rfl nofun nofun rfl (by decide +kernel) rfl rfl rfl rfl; ⟨t, e⟩,
   ⟨_, h.2.2.2.2.2.2.2.2.2.2.2.1 (withThread {} { pend := [aWrite 101] }) (.core 0) 3 (aWrite 101) rfl (.inl (by decide +kernel))⟩,
   let ⟨t, e, _⟩ := h.2.2.2.2.2.2.2.2.2.2.2.2 (withCore {}) 0; ⟨t, e⟩⟩

theorem count_pos (p : Nat → Bool) (h : p 0 = true) (n : Nat) : 0 < countFrames p (n + 1) := by
  induction n with
  | zero => simp [countFrames, h]
  | succ n ih => rw [countFrames]; omega
theorem first_home (h : Config.homeOf 0 = 1) : frameHome 0 = 1 := by simp [frameHome, placedIn, framesBelow, homeFrames, h]
theorem first_place (h : Config.homeOf 0 = 1) (g : Nat) (e : imagePlace g = some 0) : g = 0 := by
  have h0 : isStacked 0 = true := by simp [isStacked, first_home h]
  rw [imagePlace] at e
  split at e
  · cases g with
    | zero => rfl
    | succ n => simpa using Nat.ne_of_gt (count_pos isStacked h0 n) (Option.some.inj e)
  · split at e
    · exact absurd (Option.some.inj e) (by rw [stackedFrames]; omega)
    · cases e

/-- 32 halves of stack 0 are in bin C. -/
def binC : State := { withCore {} with bins := (List.range 32).map fun i => (i, 2) }
/-- The clock stands at step 1, whose condition is long gone; or it has just stepped. -/
def longQuiet : State := { withHub { clk := 1, stepped := some 0 } with now := 2 ^ 30 }
def justStepped : State := withHub { stepped := some 0 }

/-- It has been taken at the home of a core of stack 1. -/
def farPut : EngOp := { logical .rput 0x10000 with tgt := 272 }

/-- Which frames lie where is open (log entry 4), so the clause about a checkpoint's bytes has its witness on a part whose first frame is a frame of stack 0. -/
theorem witness_HubKeepsKeysCheckpointsPowerAndDies (h : Obligations.HubKeepsKeysCheckpointsPowerAndDies) :
    (∃ t, exec .checkpointSave (withHub {} 4) = .next t) ∧ (∃ t, exec .checkpointRestore (withHub {} 4) = .next t) ∧
    (∃ t, exec .checkpointSave (withHub {} 2) = .next t) ∧
    (Config.homeOf 0 = 1 → ∃ t, exec (.checkpointComplete true) (withHub { ckGo := true }) = .next t) ∧
    (∃ t, exec (.checkpointComplete false) (withHub { ckGo := true }) = .next t) ∧
    (∃ t, exec (.keyGenerate 4095) (withHub {}) = .next t) ∧ (∃ t, exec (.keyErase 4095) (withHub {}) = .next t) ∧
    (∃ t, exec .identityKeyRead (withHub {}) = .next t) ∧ (∃ t, exec (.attestationReport 7) (withHub {}) = .next t) ∧
    (∃ t, exec .clockStepDown (withCore {}) = .next t) ∧ (∃ t, exec .thermalStep (withCore {}) = .next t) ∧ binC.stepClock.hub.clk = 1 ∧
    longQuiet.stepClock.hub.clk = 0 ∧ (∃ t, exec .clockStepUp longQuiet = .next t) ∧
    ((∃ t, exec .clockStepDown justStepped = .next t) ∧ (∃ t, exec .thermalStep justStepped = .next t) ∧ exec .clockStepUp justStepped = .next justStepped) ∧
    (∃ t, exec (.pwrRefresh 5 6) (withHub {}) = .next t) ∧
    (∃ t, exec (.binDRetest 34 true) { withHub {} with bins := [(34, 3)] } = .next t) ∧
    (∃ t, exec (.binDRetest 34 false) { withHub {} with bins := [(34, 3)] } = .next t) ∧ (∃ t, exec (.binDRetest 34 false) (withHub {}) = .next t) ∧
    (∃ t, exec (.dieReset 0) (withCore {}) = .next t) ∧ (∃ t, exec (.dieReset 1) (withOp farPut) = .next t ∧ (t.opAt 9).cause = some 0x284) ∧
    exec (.dieReset 4) (withCore {}) = exec (.deviceReset 0) (withCore {}) :=
  ⟨let ⟨t, _, e, _⟩ := ((h.1 (withHub {} 4) rfl rfl).1 (by decide +kernel)).1; ⟨t, e⟩,
   let ⟨t, _, e, _⟩ := ((h.1 (withHub {} 4) rfl rfl).1 (by decide +kernel)).2; ⟨t, e⟩,
   ⟨_, ((h.1 (withHub {} 2) rfl rfl).2 (by decide +kernel)).1⟩,
   fun o =>
     let ⟨t, e, _⟩ := h.2.1 (withHub { ckGo := true }) 0 0 65535 rfl rfl (by simp [imagePlace, isStacked, countFrames, first_home o]) (by rw [stackedFrames]; omega)
       (by decide) (first_place o) (by decide +kernel)
     ⟨t, e⟩,
   let ⟨t, e, _⟩ := h.2.2.1 (withHub { ckGo := true }) rfl; ⟨t, e⟩,
   let ⟨t, _, e, _⟩ := (h.2.2.2.1 (withHub {}) 4095 (by decide)).1; ⟨t, e⟩, let ⟨t, e, _⟩ := (h.2.2.2.1 (withHub {}) 4095 (by decide)).2; ⟨t, e⟩,
   let ⟨t, e, _⟩ := h.2.2.2.2.1 (withHub {}); ⟨t, e⟩, let ⟨t, _, e, _⟩ := h.2.2.2.2.2.1 (withHub {}) 7; ⟨t, e⟩,
   let ⟨t, e, _⟩ := (h.2.2.2.2.2.2.1 (withCore {}) (by decide +kernel)).1; ⟨t, e⟩,
   let ⟨t, e, _⟩ := (h.2.2.2.2.2.2.1 (withCore {}) (by decide +kernel)).2.1; ⟨t, e⟩,
   ((h.2.2.2.2.2.2.1 binC (by decide +kernel)).2.2.1 (by decide +kernel) (by decide)).1,
   (h.2.2.2.2.2.2.1 longQuiet (by decide +kernel)).2.2.2.1 (by decide +kernel) (by decide) (by decide +kernel),
   let ⟨t, e, _⟩ := (h.2.2.2.2.2.2.1 longQuiet (by decide +kernel)).2.2.2.2 (by decide +kernel) (by decide +kernel); ⟨t, e⟩,
   have c := h.2.2.2.2.2.2.2.1 justStepped (by decide +kernel)
   ⟨let ⟨t, e, _⟩ := c.1; ⟨t, e⟩, let ⟨t, e, _⟩ := c.2.1; ⟨t, e⟩, c.2.2⟩,
   let ⟨t, e, _⟩ := h.2.2.2.2.2.2.2.2.1 (withHub {}) 5 6; ⟨t, e⟩,
   let ⟨t, e, _⟩ := h.2.2.2.2.2.2.2.2.2.1 { withHub {} with bins := [(34, 3)] } 34 (by decide +kernel) rfl ⟨rfl, by decide⟩; ⟨t, e⟩,
   let ⟨t, _, e, _⟩ := h.2.2.2.2.2.2.2.2.2.2.1 { withHub {} with bins := [(34, 3)] } 34 (by decide +kernel) rfl; ⟨t, e⟩,
   ⟨_, h.2.2.2.2.2.2.2.2.2.2.2.1 (withHub {}) 34 false (by decide +kernel)⟩,
   let ⟨t, e, _⟩ := h.2.2.2.2.2.2.2.2.2.2.2.2.1 (withCore {}) 0 (by decide) ⟨rfl, by decide⟩; ⟨t, e⟩,
   let ⟨t, e, _, _, c⟩ := h.2.2.2.2.2.2.2.2.2.2.2.2.1 (withOp farPut) 1 (by decide) ⟨rfl, by decide +kernel⟩
   ⟨t, e, c (by decide +kernel) (by decide +kernel) 9 farPut rfl (by decide +kernel)⟩,
   h.2.2.2.2.2.2.2.2.2.2.2.2.2 (withCore {}) 4 (by decide)⟩

theorem witness_ResetLeavesWhatTheRulesState (h : Obligations.ResetLeavesWhatTheRulesState) :
    (State.reset.contextAt 255).st = 0 ∧ State.reset.parked (feKey 3 15 16) = true ∧ (∃ t, exec (.deviceReset 0) (withCore {}) = .next t) ∧
    (∃ t, exec (.deviceReset 25) (withCore {}) = .next t) ∧ (∃ t, exec (.deviceReset 2) (withCore {}) = .next t) ∧
    step { withHub { failed := 4 } with read := true, opened := true, closed := true } = .fault (.heldInReset 4) :=
  ⟨h.1.2.2.1 255 (by decide) (by decide), (h.1.2.2.2.2.2.2.1 15 16 3 (by decide) (by decide) (by decide)).trans rfl,
   let ⟨t, e, _⟩ := h.2.1 (withCore {}); ⟨t, e⟩,
   let ⟨t, e, _⟩ := h.2.2.1 (withCore {}) 25 4 (by decide) (by decide); ⟨t, e⟩,
   let ⟨t, e, _⟩ := h.2.2.2.1 (withCore {}) 2 (by decide); ⟨t, e⟩,
   h.2.2.2.2 { withHub { failed := 4 } with read := true, opened := true, closed := true } (slots rfl rfl rfl) (by decide +kernel) rfl (by decide)⟩

end Sys2Proof.Tests
end

section
/-! What reset leaves, and a device held in reset (R15, R389, R423). -/

namespace Sys2Proof.Machine

/-! The state after reset: whatever is read there is the default of its kind. -/

@[simp] theorem State.reset_contextAt (x : Nat) : State.reset.contextAt x = {} := rfl
@[simp] theorem State.reset_dieAt (d : Nat) : State.reset.dieAt d = {} := rfl
@[simp] theorem State.reset_linkAt (l : Nat) : State.reset.linkAt l = {} := rfl
@[simp] theorem State.reset_coreAt (c : Nat) : State.reset.coreAt c = {} := rfl
@[simp] theorem Core.default_bank (b : Nat) : ({} : Core).bank b = {} := rfl

/-- The five clocks of a die that has counted nothing, and what it knows of the others. -/
theorem zeroClocks_getD (k : Nat) : [0, 0, 0, 0, 0].getD k 0 = 0 := by
  match k with
  | 0 | 1 | 2 | 3 | 4 => rfl
  | _ + 5 => rfl

/-! Front ends and their spares (R11, R15). -/

theorem feY_feKey {y : Nat} (st x : Nat) (hy : y < 17) : feY (feKey st x y) = y := by
  unfold feY feKey
  omega

/-- A front end that no registration has bound is a spare exactly in row 16. -/
theorem State.spare_of_unbound {s : State} {fe : Nat} (h : SMap.find s.bindings fe = none) : s.spare fe = (feY fe == 16) := by
  simp only [State.spare, h]

/-- Without a group no gang stands, and none absorbs a front end. -/
theorem State.absorbed_of_no_groups {s : State} (h : s.groups = []) (fe : Nat) : s.absorbed fe = false := by
  simp [State.absorbed, State.gangs, h]

theorem State.reset_parked (fe : Nat) : State.reset.parked fe = (feY fe == 16) := by
  rw [State.parked, State.spare_of_unbound rfl, State.absorbed_of_no_groups rfl, Bool.or_false]

/-- Registration touches the bins, the bindings, the agenda and the counter of free values, and nothing else. -/
theorem State.register_eq (s : State) : ∃ bins bindings agenda fresh,
    s.register = { s with bins := bins, bindings := bindings, agenda := agenda, fresh := fresh } :=
  ⟨_, _, _, _, rfl⟩

theorem State.register_hub (s : State) : s.register.hub = s.hub := by
  obtain ⟨_, _, _, _, registered⟩ := s.register_eq
  exact (congrArg State.hub registered :)

/-! Bring-up (R423). -/

/-- The hub of a device whose bring-up has failed at a step: held in reset, with the step and the image in the mailbox (log entry 67). -/
def heldHub (step image : Nat) : Hub :=
  { State.reset.hub with failed := step, mailbox := [BitVec.ofNat 512 (step + image * 256)] }

/-- A reset whose steps all pass leaves the part as registered. -/
theorem exec_deviceReset_passes {n : Nat} {s : State} (h : failingStep n s.afterReset.register = none) :
    exec (.deviceReset n) s = .next s.afterReset.register := by
  change execDeviceReset n s = _
  simp only [execDeviceReset, h]

/-- A part whose hub is as after reset, once a step has been noted as failed and mailed. -/
theorem State.mail_failed {s : State} (h : s.hub = State.reset.hub) (step image : Nat) :
    State.mail { s with hub := { s.hub with failed := step } } (BitVec.ofNat 512 (step + image * 256)) =
      { s with hub := heldHub step image } := by
  simp only [State.mail, h]
  rfl

/-- A step that fails leaves the same part, but for its hub. -/
theorem exec_deviceReset_held {n step image : Nat} {s : State} (h : failingStep n s.afterReset.register = some (step, image)) :
    exec (.deviceReset n) s = .next { s.afterReset.register with hub := heldHub step image } := by
  have asReset : s.afterReset.register.hub = State.reset.hub := s.afterReset.register_hub
  change execDeviceReset n s = _
  simp only [execDeviceReset, h, State.mail_failed asReset]

/-- Step 1 fails with the image that the outside names. -/
theorem failingStep_image {n : Nat} (h : n % 8 = 1) (s : State) : failingStep n s = some (1, n / 8 % 4 + 1) := by
  rw [failingStep, if_pos h]

theorem failingStep_two {n : Nat} (h : n % 8 = 2) (s : State) : failingStep n s = some (2, 0) := by
  rw [failingStep, if_neg (by omega), if_pos h]

/-- Where the outside fails no step, registration alone decides: step 4 fails where a stack is short of cores (R15). -/
theorem failingStep_zero (s : State) : failingStep 0 s = if enoughCores s then none else some (4, 0) := rfl

/-! A device held in reset (R423). -/

/-- Where no event is due, a step takes the turn of the cycle. -/
theorem step_of_noEvent {s : State} (h : noEvent s) : step s = runStep.turn s := by
  unfold step runStep
  cases ha : s.agenda with
  | nil => rfl
  | cons e rest =>
    have notDue : (decide (e.due ≤ s.now) && eventDue s e.prio) = false := by
      rcases h e (by rw [ha, List.head?_cons]) with later | heldBack
      · rw [decide_eq_false (by omega), Bool.false_and]
      · rw [heldBack, Bool.and_false]
    simp only [notDue, Bool.false_eq_true, if_false]

/-- At the end of its cycle a device whose bring-up has failed goes no further. -/
theorem step_heldInReset {s : State} (h : slotsOffered s) (ht : s.todo = []) (hc : s.closed = true) (hf : s.hub.failed ≠ 0) :
    step s = .fault (.heldInReset s.hub.failed) := by
  obtain ⟨quiet, read, opened⟩ := h
  rw [step_of_noEvent quiet]
  simp [runStep.turn, read, opened, ht, hc, hf]

/-! The clauses of the statement. -/

theorem State.reset_as_stated :
    State.reset.now = 0 ∧ State.reset.groups = [] ∧ (∀ x, 1 ≤ x → x ≤ 255 → (State.reset.contextAt x).st = 0) ∧
    (∀ d k, (State.reset.dieAt d).vc.getD k 0 = 0 ∧ (State.reset.dieAt d).know.getD k 0 = 0) ∧ (∀ l, (State.reset.linkAt l).st = 0) ∧
    (∀ c b, ((State.reset.coreAt c).bank b).pers = 0) ∧ (∀ x y st, st < 4 → x < 16 → y < 17 → (State.reset.parked (feKey st x y) = (y == 16))) ∧
    State.reset.hub.fnum = 0xFFF ∧ State.reset.hub.hsts = 0 ∧ State.reset.hub.ckpt = 0 ∧ State.reset.hub.pwr = 0 ∧ State.reset.hub.ctx0p = 0 ∧
    Memory.wf State.reset.phys ∧ Memory.wf State.reset.host := by
  have clocks (d k : Nat) : (State.reset.dieAt d).vc.getD k 0 = 0 ∧ (State.reset.dieAt d).know.getD k 0 = 0 :=
    ⟨zeroClocks_getD k, zeroClocks_getD k⟩
  have parked (x y st : Nat) (_ : st < 4) (_ : x < 16) (hy : y < 17) : State.reset.parked (feKey st x y) = (y == 16) := by
    rw [State.reset_parked, feY_feKey st x hy]
  refine ⟨rfl, rfl, ?_, clocks, ?_, ?_, parked, rfl, rfl, rfl, ?_, rfl, rfl, rfl⟩
  · intro x _ _
    rw [State.reset_contextAt]
  · intro l
    rw [State.reset_linkAt]
  · intro c b
    rw [State.reset_coreAt, Core.default_bank]
  · decide

/-- A reset that the outside lets pass goes back to the state after reset, or finds a stack short of cores; DRAM and host memory stand either way. -/
theorem exec_deviceReset_zero (s : State) :
    ∃ t, exec (.deviceReset 0) s = .next t ∧ t.now = 0 ∧ t.groups = [] ∧ t.cores = [] ∧ t.contexts = [] ∧ t.links = [] ∧
      t.dies = [] ∧ t.phys = s.phys ∧ t.host = s.host ∧
      (t.hub = State.reset.hub ∨ t.hub = { State.reset.hub with failed := 4, mailbox := [BitVec.ofNat 512 4] }) := by
  obtain ⟨_, _, _, _, registered⟩ := s.afterReset.register_eq
  cases enough : enoughCores s.afterReset.register with
  | true =>
    have passes : failingStep 0 s.afterReset.register = none := by rw [failingStep_zero, if_pos enough]
    refine ⟨_, exec_deviceReset_passes passes, ?_⟩
    rw [registered]
    exact ⟨rfl, rfl, rfl, rfl, rfl, rfl, rfl, rfl, .inl rfl⟩
  | false =>
    have short : failingStep 0 s.afterReset.register = some (4, 0) := by rw [failingStep_zero, if_neg (by rw [enough]; decide)]
    refine ⟨_, exec_deviceReset_held short, ?_⟩
    rw [registered]
    exact ⟨rfl, rfl, rfl, rfl, rfl, rfl, rfl, rfl, .inr rfl⟩

/-- A self-test that fails holds the device in reset, with the number of the image above that of the step. -/
theorem exec_deviceReset_image (s : State) {n image : Nat} (h : n % 8 = 1) (hi : image = n / 8 % 4 + 1) :
    ∃ t, exec (.deviceReset n) s = .next t ∧ t.hub.failed = 1 ∧ t.hub.mailbox = [BitVec.ofNat 512 (1 + 256 * image)] := by
  refine ⟨_, exec_deviceReset_held (failingStep_image h _), rfl, ?_⟩
  rw [Nat.mul_comm 256, hi]
  rfl

theorem exec_deviceReset_two (s : State) {n : Nat} (h : n % 8 = 2) :
    ∃ t, exec (.deviceReset n) s = .next t ∧ t.hub.failed = 2 ∧ t.hub.mailbox = [2] :=
  ⟨_, exec_deviceReset_held (failingStep_two h _), rfl, rfl⟩

/-- Settles O60: what is read after reset is the default of its kind, a device reset is decided by its failing step, and a device held in reset
has no turn left. That row 16 is spare after reset is log entry 13. -/
theorem resetLeavesWhatTheRulesState : Obligations.ResetLeavesWhatTheRulesState :=
  ⟨State.reset_as_stated, exec_deviceReset_zero, fun s _ _ h hi => exec_deviceReset_image s h hi, fun s _ h => exec_deviceReset_two s h,
    fun _ offered ht hc hf => step_heldInReset offered ht hc hf⟩

end Sys2Proof.Machine
end

section
/-! Slab words, and what the issue of a privileged word comes to (R64, R156, R282, R353). -/

namespace Sys2Proof.Machine

/-! Slab words (R11, R282). -/

theorem feX_feKey {x y : Nat} (st : Nat) (hx : x < 16) (hy : y < 17) : feX (feKey st x y) = x := by
  unfold feX feKey
  omega

theorem feStack_feKey {x y : Nat} (st : Nat) (hx : x < 16) (hy : y < 17) : feStack (feKey st x y) = st := by
  unfold feStack feKey
  omega

theorem slabWord_feKey {x y : Nat} (st half : Nat) (hx : x < 16) (hy : y < 17) :
    slabWord (feKey st x y) half = st * 2048 + y * 64 + x * 4 + half := by
  rw [slabWord, feStack_feKey st hx hy, feX_feKey st hx hy, feY_feKey st x hy]

/-- The word that names halves of a slab is read as naming them. -/
theorem slabHalves_slabWord {st x y half : Nat} (hs : st < 4) (hx : x < 16) (hy : y < 17) (hh : half < 3) :
    slabHalves (BitVec.ofNat 64 (slabWord (feKey st x y) half)) =
      some (if half = 2 then [feKey st x y * 2, feKey st x y * 2 + 1] else [feKey st x y * 2 + half]) := by
  obtain ⟨n, hn⟩ : ∃ n, n = st * 2048 + y * 64 + x * 4 + half := ⟨_, rfl⟩
  have value : (BitVec.ofNat 64 n).toNat = n := by rw [BitVec.toNat_ofNat]; omega
  have stack : n / 2048 % 4 = st := by omega
  have row : n / 64 % 32 = y := by omega
  have column : n / 4 % 16 = x := by omega
  have side : n % 4 = half := by omega
  have inRange : ¬ (8192 ≤ n ∨ 17 ≤ y ∨ half = 3) := by omega
  rw [slabWord_feKey st half hx hy, ← hn]
  simp only [slabHalves, value, stack, row, column, side]
  rw [if_neg (by simpa [or_assoc] using inRange)]

/-! What the checks of a word that goes have found (R156, R353). -/

theorem gate_go {x : WordOf} {s : State} (h : gate x s = .go) :
    x.form.cause x.w (s.privileged s.cur) (agentProfile s.cur) s.cx.timed = none ∧ (s.cx.timed && x.form.untimed) = false := by
  have hc : s.cx.ag = s.cur := rfl
  unfold gate at h
  simp only [hc] at h
  constructor
  · cases e : x.form.cause x.w (s.privileged s.cur) (agentProfile s.cur) s.cx.timed with
    | none => rfl
    | some n =>
      simp only [e] at h
      repeat (split at h <;> try contradiction)
  · cases e : s.cx.timed && x.form.untimed with
    | false => rfl
    | true =>
      simp only [e, Bool.or_true, if_true] at h
      repeat (split at h <;> try contradiction)

/-- A word outside the profile of the memory cores is issued by a thread of a core (R128, R155). -/
theorem gate_go_core {x : WordOf} {s : State} (h : gate x s = .go) (hm : x.form.memCore = false) : ∃ c k, s.cur = .core c k := by
  cases hc : s.cur with
  | core c k => exact ⟨c, k, rfl⟩
  | req id =>
    have cause := (gate_go h).1
    rw [hc] at cause
    simp only [Form.cause, agentProfile, Form.outside, hm, Bool.not_false, if_true] at cause
    split at cause <;> cases cause

/-! Privileged words: none is timed, and each is issued by a thread of a core. -/

section
variable {i : Instr} {s t : State} {x : WordOf} {body : Cx → Fields → State → Verdict}

theorem issues_gate (h : issues i s = true) (hw : i.word = some x) : gate x s = .go := by
  obtain ⟨_, _, _, y, hy, hg⟩ := passes_iff (issues_iff h).1
  rw [hw] at hy
  rwa [Option.some.inj hy]

theorem issue_cause {n : Nat} (h : issues i s = true) (hw : i.word = some x) (hb : body s.cx x.w (s.issued x) = .cause n) :
    issue i body s = .next (s.takeTrap s.cur s.mine.pc { cause := n }) := by
  obtain ⟨notWaiting, room, owes, _⟩ := passes_iff (issues_iff h).1
  exact issue_trap hw notWaiting (issues_gate h hw) owes (by omega) hb

/-- A word that may stand in no timed segment collides with no result: once it goes, its effect is the next state. -/
theorem issue_untimed_done (h : issues i s = true) (hw : i.word = some x) (hu : x.form.untimed = true)
    (hb : body s.cx x.w (s.issued x) = .done t) (hf : t.inFlight s.cur ≤ 32) : issue i body s = .next t := by
  obtain ⟨notWaiting, room, owes, _⟩ := passes_iff (issues_iff h).1
  have hg := issues_gate h hw
  have untimed : s.cx.timed = false := by simpa [hu] using (gate_go hg).2
  exact issue_done hw notWaiting hg owes (by omega) hb hf (lateCollision_none (by rw [untimed, Bool.false_and]))

/-- The status of a privileged word lands on the next cycle and is pushed (R64); the word does nothing else. -/
theorem issue_status {v : Word} (h : issues i s = true) (hw : i.word = some x) (hb : body s.cx x.w (s.issued x) = result s.cx .none v 1 (s.issued x)) :
    ∃ t, issue i body s = .next t ∧ lands s t .none v true 1 ∧ t.mine.pc = s.mine.pc + 1 ∧ registersKept s.mine t.mine ∧ onlyMine s t ∧
      bytesKept s t := by
  obtain ⟨t, next, landing, kept, _, pc, only⟩ := issue_result (issues_iff h).1 hw hb (fun _ _ hr => nomatch hr)
  exact ⟨t, next, landing, pc, kept, only, onlyMine_bytesKept only⟩

end

/-! The state in which a word has issued and its status is in flight: what BINSET, REGBIND and MAPSET then change leaves the thread alone. -/

def State.answered (s : State) (x : WordOf) (v : Word) : State := (s.issued x).land s.cur s.mine.pc .none v true 1

section
variable (s : State) (x : WordOf) (v : Word)

theorem onlyMine_issued_answered : onlyMine (s.issued x) (s.answered x v) := by
  have h := onlyMine_land (s.issued x) s.mine.pc .none v true 1
  rwa [State.issued_cur] at h

theorem onlyMine_answered : onlyMine s (s.answered x v) := onlyMine_trans (onlyMine_issued s x) (onlyMine_issued_answered s x v)

theorem State.answered_mine : (s.answered x v).mine =
    { (s.issued x).mine with flight := s.mine.flight ++
        [{ dest := .none, value := v, push := true, land := s.now + 1, word := s.mine.pc, seq := (s.issued x).fresh, lat := 1 }] } := by
  have h := State.land_mine (s.issued x) s.mine.pc .none v true 1
  rw [State.issued_cur] at h
  rw [State.answered, h, State.issued_mine, Thread.issued_flight, State.issued_now]

theorem State.answered_pc : (s.answered x v).mine.pc = s.mine.pc + 1 := by
  simp only [State.answered_mine, State.issued_mine, Thread.issued_pc]

theorem State.answered_registersKept : registersKept s.mine (s.answered x v).mine := by
  simp [State.answered_mine, State.issued_mine, registersKept]

theorem State.answered_lands : lands s (s.answered x v) .none v true 1 := by
  have due := State.land_dueAt (s.issued x) s.cur s.mine.pc .none v true 1
  rw [State.issued_now] at due
  exact ⟨_, congrArg Thread.flight (State.answered_mine s x v), rfl, rfl, rfl, rfl, rfl, rfl, due⟩

theorem State.answered_inFlight_cur : (s.answered x v).inFlight s.cur = s.inFlight s.cur + 1 := by
  have mine : (s.answered x v).threadOf s.cur = (s.answered x v).mine := by rw [State.mine, onlyMine_cur (onlyMine_answered s x v)]
  rw [onlyMine_inFlight (onlyMine_answered s x v), mine, State.answered_mine]
  simp only [List.length_append, List.length_singleton, State.inFlight, State.mine]
  omega

theorem State.answered_inFlight_other {ag : Agent} (h : ag ≠ s.cur) : (s.answered x v).inFlight ag = (s.issued x).inFlight ag := by
  have thread := (onlyMine_issued_answered s x v).2.1 ag (by rwa [State.issued_cur])
  rw [onlyMine_inFlight (onlyMine_issued_answered s x v), thread, State.inFlight]

end

/-- What is in flight in the thread and the agenda decide whether a result lands. -/
theorem lands_congr {s t u : State} {d : Dest} {v : Word} {push : Bool} {lat : Nat} (h : lands s t d v push lat) (hm : u.mine = t.mine)
    (ha : u.agenda = t.agenda) : lands s u d v push lat := by
  obtain ⟨f, flight, dest, value, pushed, land, known, sample, due⟩ := h
  exact ⟨f, by rw [hm, flight], dest, value, pushed, land, known, sample, by rwa [State.dueAt, ha]⟩

/-- Bytes stand in cores, clusters, global and host memory. -/
theorem bytesKept_congr {s t u : State} (h : bytesKept s t) (hc : u.cores = t.cores) (hk : u.clusters = t.clusters) (hp : u.phys = t.phys)
    (hh : u.host = t.host) : bytesKept s u := by
  obtain ⟨phys, host, places, views⟩ := h
  have mem (p : Place) : u.memOf p = t.memOf p := by
    cases p <;> simp only [State.memOf, State.coreAt, State.clusterAt, hc, hk]
  have pend (p : Place) : u.pendOf p = t.pendOf p := by
    cases p <;> simp only [State.pendOf, State.coreAt, State.clusterAt, hc, hk]
  exact ⟨fun a => by rw [hp, phys], fun a => by rw [hh, host], fun p a => by rw [mem, places],
    fun c who cyc a n => by rw [← views]; simp only [State.view, mem, pend]⟩

/-- A change of groups, bins and bindings leaves of the word its status in flight. -/
theorem State.answered_congr {s t : State} {x : WordOf} {v : Word}
    (h : ∃ groups bins passed due bindings, t = { s.answered x v with groups := groups, bins := bins, passed := passed, binDue := due,
                                                                      bindings := bindings }) :
    t.inFlight s.cur = s.inFlight s.cur + 1 ∧ lands s t .none v true 1 ∧ t.mine.pc = s.mine.pc + 1 ∧ registersKept s.mine t.mine ∧
      bytesKept s t := by
  obtain ⟨_, _, _, _, _, rfl⟩ := h
  have bytes := onlyMine_bytesKept (onlyMine_answered s x v)
  refine ⟨?_, lands_congr (s.answered_lands x v) rfl rfl, s.answered_pc x v, s.answered_registersKept x v,
    bytesKept_congr bytes rfl rfl rfl rfl⟩
  rw [← s.answered_inFlight_cur x v]
  cases s.cur with
  | core c k => cases k <;> rfl
  | req id => rfl

end Sys2Proof.Machine
end

section
/-! Bins, bindings and repair (R13 to R16, R319, R396, R397): what the move of a half changes. -/

namespace Sys2Proof.Machine

/-- What every step of a fold leaves alone, the fold leaves alone. -/
theorem foldl_keeps {α β γ : Type} (p : α → γ) {f : α → β → α} (h : ∀ a b, p (f a b) = p a) (l : List β) (a : α) : p (l.foldl f a) = p a := by
  induction l generalizing a with
  | nil => rfl
  | cons b rest ih => rw [List.foldl_cons, ih, h]

/-! Flight lists that hold at most 32 entries (R357): cores that move or are cleared bring no longer ones. -/

def Core.entries (k : Core) (t : Nat) : Nat := (k.thread t).flight.length + if t = 0 then k.tileEntries else 0

theorem State.inFlight_core (s : State) (c t : Nat) : s.inFlight (.core c t) = (s.coreAt c).entries t := by
  cases t <;> rfl

def Core.fits (k : Core) : Prop := ∀ t, k.entries t ≤ 32

def State.flightsFit (s : State) : Prop := ∀ c, (s.coreAt c).fits

theorem Core.cleared_fits (k : Core) : k.cleared.fits := by
  intro t
  cases t with
  | zero => exact Nat.zero_le _
  | succ n => exact Nat.zero_le _

theorem State.flightsFit_of_cores {s t : State} (h : s.flightsFit) (hc : t.cores = s.cores) : t.flightsFit := by
  intro c
  rw [State.coreAt, hc]
  exact h c

theorem State.flightsFit_setCore {s : State} {c : Nat} {k : Core} (h : s.flightsFit) (hk : k.fits) : (s.setCore c k).flightsFit := by
  intro d
  by_cases hd : d = c
  · rw [hd, State.setCore_coreAt_same]
    exact hk
  · rw [State.setCore_coreAt_other _ _ _ _ hd]
    exact h d

theorem State.answered_flightsFit {s : State} {x : WordOf} {v : Word} (h : ∀ ag, (s.issued x).inFlight ag ≤ 32) (hr : s.inFlight s.cur ≤ 28) :
    (s.answered x v).flightsFit := by
  intro c t
  rw [← State.inFlight_core]
  by_cases hc : .core c t = s.cur
  · rw [hc, State.answered_inFlight_cur]
    omega
  · rw [State.answered_inFlight_other s x v hc]
    exact h _

/-! The registration: bins, moves that are due, and bindings. What a repair and the end of a group leave of it. -/

def State.registration (s : State) : SMap Nat × List (Nat × Nat) × SMap Binding := (s.bins, s.binDue, s.bindings)

@[simp] theorem State.setGroup_registration (s : State) (g : Nat) (v : Group) : (s.setGroup g v).registration = s.registration := rfl
@[simp] theorem State.at_registration (s : State) (due prio : Nat) (ev : Instr) : (s.at due prio ev).registration = s.registration := rfl
@[simp] theorem State.later_registration (s : State) (least : Nat) (ev : Instr) : (s.later least ev).registration = s.registration := rfl

theorem State.setCtxState_registration (s : State) (x st : Nat) : (s.setCtxState x st).registration = s.registration := by
  unfold State.setCtxState
  dsimp only
  split <;> rfl

theorem State.setCtxState_cores (s : State) (x st : Nat) : (s.setCtxState x st).cores = s.cores := by
  unfold State.setCtxState
  dsimp only
  split <;> rfl

theorem State.settleContext_registration (s : State) (x : Nat) : (s.settleContext x).registration = s.registration := by
  unfold State.settleContext
  dsimp only
  split
  · rfl
  · exact State.setCtxState_registration _ _ _

theorem State.settleContext_cores (s : State) (x : Nat) : (s.settleContext x).cores = s.cores := by
  unfold State.settleContext
  dsimp only
  split
  · rfl
  · exact State.setCtxState_cores _ _ _

theorem State.post_registration (s : State) (code ctx grp detail : Nat) : (s.post code ctx grp detail).registration = s.registration := by
  unfold State.post
  dsimp only
  split <;> rfl

theorem State.post_cores (s : State) (code ctx grp detail : Nat) : (s.post code ctx grp detail).cores = s.cores := by
  unfold State.post
  dsimp only
  split <;> rfl

theorem State.endGroup_registration (s : State) (g : Nat) (st : GState) : (s.endGroup g st).registration = s.registration := by
  unfold State.endGroup
  dsimp only
  rw [State.at_registration, State.settleContext_registration, foldl_keeps State.registration (fun _ _ => by rfl)]
  exact foldl_keeps (f := fun u c => if ((State.coreAt u c).grp == some g) = true then u.modCore c Core.cleared else u) State.registration
    (fun u c => by split <;> rfl) _ _

theorem State.endGroup_flightsFit {s : State} (g : Nat) (st : GState) (h : s.flightsFit) : (s.endGroup g st).flightsFit := by
  unfold State.endGroup
  dsimp only
  refine State.flightsFit_of_cores (s := List.foldl _ s (s.groupAt g).members) ?_
    (by rw [State.at_cores, State.settleContext_cores, foldl_keeps State.cores (fun _ _ => by rfl)]; rfl)
  refine List.foldlRecOn _ _ h fun u hu c _ => ?_
  split
  · exact State.flightsFit_setCore hu (Core.cleared_fits _)
  · exact hu

/-! A core that moves (R316, R319). -/

theorem State.renameGroup_registration (s : State) (g : Nat) (f fk : Nat → Nat) : (s.renameGroup g f fk).registration = s.registration := rfl

theorem State.renameGroup_cores (s : State) (g : Nat) (f fk : Nat → Nat) : (s.renameGroup g f fk).cores = s.cores := rfl

theorem State.moveCores_registration (s : State) (g : Nat) (f fk : Nat → Nat) : (s.moveCores g f fk).registration = s.registration := by
  unfold State.moveCores
  dsimp only
  rw [State.renameGroup_registration]
  rw [foldl_keeps State.registration (fun u c => by split <;> rfl)]
  rw [foldl_keeps State.registration (fun u c => by split <;> rfl)]
  rw [foldl_keeps State.registration (fun u c => by split <;> rfl)]
  rw [foldl_keeps State.registration (fun u c => by split <;> rfl)]

theorem State.moveCores_flightsFit {s : State} (g : Nat) (f fk : Nat → Nat) (h : s.flightsFit) : (s.moveCores g f fk).flightsFit := by
  unfold State.moveCores
  dsimp only
  refine State.flightsFit_of_cores ?_ ((State.renameGroup_cores _ g f fk).trans
    ((foldl_keeps State.cores (fun u c => by split <;> rfl) _ _).trans (foldl_keeps State.cores (fun u c => by split <;> rfl) _ _)))
  refine List.foldlRecOn _ _ (List.foldlRecOn _ _ h fun u hu x _ => ?_) fun u hu x hx => ?_
  · split
    · exact hu
    · exact State.flightsFit_setCore hu (Core.cleared_fits _)
  · obtain ⟨c, _, rfl⟩ := List.mem_map.mp hx
    dsimp only
    split
    · exact State.flightsFit_setCore hu (hu c)
    · exact State.flightsFit_setCore hu (h c)

theorem State.moveCore_registration (s : State) (g old new : Nat) : (s.moveCore g old new).registration = s.registration := by
  unfold State.moveCore
  dsimp only
  split
  · rw [State.setGroup_registration, State.moveCores_registration]
  · rw [State.later_registration, State.setGroup_registration, State.moveCores_registration]

theorem State.moveCore_flightsFit {s : State} (g old new : Nat) (h : s.flightsFit) : (s.moveCore g old new).flightsFit := by
  have moved := State.moveCores_flightsFit g (fun c => if c = old then new else c) id h
  unfold State.moveCore
  dsimp only
  split
  · exact State.flightsFit_of_cores moved rfl
  · exact State.flightsFit_of_cores moved rfl

/-! Repair binds halves, moves a core or ends a group: no half changes its bin (R397). -/

/-- Bins and due moves stand, and the flight lists still hold at most 32 entries. -/
def binsStand (s t : State) : Prop := t.bins = s.bins ∧ t.binDue = s.binDue ∧ (s.flightsFit → t.flightsFit)

theorem binsStand_of_registration {s t : State} (h : t.registration = s.registration) (hf : s.flightsFit → t.flightsFit) : binsStand s t :=
  ⟨congrArg Prod.fst h, congrArg (·.2.1) h, hf⟩

theorem binsStand_trans {s t u : State} (h : binsStand s t) (g : binsStand t u) : binsStand s u :=
  ⟨g.1.trans h.1, g.2.1.trans h.2.1, g.2.2 ∘ h.2.2⟩

/-- Only bindings change. -/
def rebinds (s t : State) : Prop := ∃ bindings, t = { s with bindings := bindings }

theorem rebinds_refl (s : State) : rebinds s s := ⟨_, rfl⟩

theorem rebinds_trans {s t u : State} (h : rebinds s t) (g : rebinds t u) : rebinds s u := by
  obtain ⟨_, rfl⟩ := h
  obtain ⟨_, rfl⟩ := g
  exact ⟨_, rfl⟩

theorem binsStand_of_rebinds {s t : State} (h : rebinds s t) : binsStand s t := by
  obtain ⟨_, rfl⟩ := h
  exact ⟨rfl, rfl, id⟩

theorem rebinds_setBinding (s : State) (fe : Nat) (b : Binding) : rebinds s (s.setBinding fe b) := ⟨_, rfl⟩

theorem rebinds_bindSide (s : State) (fe side : Nat) (slab : Option Nat) : rebinds s (s.bindSide fe side slab) := ⟨_, rfl⟩

theorem rebinds_bindChain (s : State) (side : Nat) (l : List (Nat × Nat)) : rebinds s (s.bindChain side l) :=
  List.foldlRecOn _ _ (rebinds_refl s) fun _ hu _ _ => rebinds_trans hu (rebinds_bindSide _ _ _ _)

theorem rebinds_completeHalves {s t : State} {fe : Nat} (h : s.completeHalves fe = some t) : rebinds s t := by
  have every : ∀ t, s.completeHalves fe = some t → rebinds s t := by
    refine List.foldlRecOn (motive := fun r => ∀ t, r = some t → rebinds s t) _ _ (fun t ht => ?_) fun r hr side _ t ht => ?_
    · rw [← Option.some.inj ht]
      exact rebinds_refl s
    · obtain ⟨u, rfl, hu⟩ := Option.bind_eq_some_iff.mp ht
      refine rebinds_trans (hr u rfl) ?_
      dsimp only at hu
      by_cases has : (if side = 0 then (u.bindingOf fe).west else (u.bindingOf fe).east).isSome = true
      · rw [if_pos has] at hu
        rw [← Option.some.inj hu]
        exact rebinds_refl u
      · rw [if_neg has] at hu
        obtain ⟨chain, _, rfl⟩ := Option.map_eq_some_iff.mp hu
        exact rebinds_bindChain _ _ _
  exact every t h

theorem rebinds_parkedSpare {s t : State} {fe p : Nat} (h : s.parkedSpare fe = some (p, t)) : rebinds s t := by
  obtain ⟨q, _, hq⟩ := List.exists_of_findSome?_eq_some h
  split at hq
  · cases hq
  · obtain ⟨v, hv, same⟩ := Option.map_eq_some_iff.mp hq
    rw [← (Prod.mk.inj same).2]
    exact rebinds_trans (rebinds_setBinding _ _ _) (rebinds_trans (rebinds_completeHalves hv) (rebinds_setBinding _ _ _))

theorem binsStand_moveCore (s : State) (g old new : Nat) : binsStand s (s.moveCore g old new) :=
  binsStand_of_registration (State.moveCore_registration s g old new) (State.moveCore_flightsFit g old new)

theorem binsStand_killGroup (s : State) (g : Nat) : binsStand s (s.killGroup g) :=
  binsStand_of_registration (State.endGroup_registration s g .killed) (State.endGroup_flightsFit g .killed)

theorem binsStand_post (s : State) (code ctx grp detail : Nat) : binsStand s (s.post code ctx grp detail) :=
  binsStand_of_registration (State.post_registration s code ctx grp detail) fun h => State.flightsFit_of_cores h (State.post_cores s code ctx grp detail)

theorem binsStand_mendFrontEnd (s : State) (fe h : Nat) : binsStand s (s.mendFrontEnd fe h) := by
  unfold State.mendFrontEnd
  split
  case h_1 t completed =>
    split at completed
    · exact binsStand_of_rebinds (rebinds_completeHalves completed)
    · cases completed
  case h_2 =>
    split
    · exact binsStand_of_rebinds (rebinds_refl s)
    · split
      case h_1 p t spare =>
        split at spare
        · exact binsStand_trans (binsStand_of_rebinds (rebinds_parkedSpare spare))
            (binsStand_trans (binsStand_moveCore _ _ _ _) (binsStand_of_rebinds (rebinds_setBinding _ _ _)))
        · cases spare
      case h_2 => exact binsStand_trans (binsStand_killGroup _ _) (binsStand_post _ _ _ _ _)

end Sys2Proof.Machine
end

section
/-! The moves of halves to bins (R396, R397). -/

namespace Sys2Proof.Machine

/-! The move of one half (R396). -/

theorem State.binOf_put (s : State) (h k b : Nat) : SMap.get 0 (SMap.put s.bins h b) k = if k = h then b else s.binOf k :=
  SMap.get_put 0 s.bins h k b

/-- A half that enters bin D does so whatever the repair of its front end then does. -/
theorem State.enterD_stands (s : State) (h : Nat) :
    (s.enterD h).bins = SMap.put s.bins h 3 ∧ (s.enterD h).binDue = s.binDue ∧ (s.flightsFit → (s.enterD h).flightsFit) := by
  unfold State.enterD
  dsimp only
  split
  · exact ⟨rfl, rfl, fun fit => State.flightsFit_of_cores fit rfl⟩
  · refine (?_ : binsStand { s with bins := SMap.put s.bins h 3 } _)
    refine binsStand_trans ?_ (binsStand_mendFrontEnd _ _ _)
    split
    · exact ⟨rfl, rfl, fun fit => State.flightsFit_of_cores fit rfl⟩
    · exact ⟨rfl, rfl, fun fit => State.flightsFit_of_cores fit rfl⟩

theorem State.moveBin_binOf (s : State) (h bin k : Nat) : (s.moveBin h bin).binOf k = if k = h then bin else s.binOf k := by
  unfold State.moveBin
  split
  case isTrue there =>
    split
    case isTrue same => rw [same, there]
    case isFalse => rfl
  case isFalse =>
    split
    case isTrue toD => rw [State.binOf, (s.enterD_stands h).1, State.binOf_put, toD]
    case isFalse => exact s.binOf_put h k bin

theorem State.moveBin_binDue (s : State) (h bin : Nat) : (s.moveBin h bin).binDue = s.binDue := by
  unfold State.moveBin
  split
  · rfl
  · split
    · exact (s.enterD_stands h).2.1
    · rfl

theorem State.moveBin_flightsFit {s : State} (h bin : Nat) (fit : s.flightsFit) : (s.moveBin h bin).flightsFit := by
  unfold State.moveBin
  split
  · exact fit
  · split
    · exact (s.enterD_stands h).2.2 fit
    · exact State.flightsFit_of_cores fit rfl

/-- Only bins, the passes of retests and due moves change. -/
def rebins (s t : State) : Prop := ∃ bins passed due, t = { s with bins := bins, passed := passed, binDue := due }

theorem rebins_refl (s : State) : rebins s s := ⟨_, _, _, rfl⟩

theorem rebins_trans {s t u : State} (h : rebins s t) (g : rebins t u) : rebins s u := by
  obtain ⟨_, _, _, rfl⟩ := h
  obtain ⟨_, _, _, rfl⟩ := g
  exact ⟨_, _, _, rfl⟩

theorem rebins_moveBin (s : State) (h : Nat) {bin : Nat} (notD : bin ≠ 3) : rebins s (s.moveBin h bin) := by
  unfold State.moveBin
  split
  · exact rebins_refl s
  · exact ⟨_, _, _, rfl⟩

/-! BINSET's move of a half (R396): due while a group outside a proof barrier is bound to the half, and else at once. -/

/-- A group that stands at no proof barrier is bound to the half. -/
def State.binWaits (s : State) (h : Nat) : Bool :=
  match (s.boundTo h).bind s.groupOn with
  | some g => !(s.groupAt g).atProof
  | none => false

theorem State.binWaits_iff (s : State) (h : Nat) :
    s.binWaits h = true ↔ ∃ f g, s.boundTo h = some f ∧ s.groupOn f = some g ∧ (s.groupAt g).atProof = false := by
  unfold State.binWaits
  cases bound : s.boundTo h with
  | none => simp
  | some f => cases on : s.groupOn f <;> simp [on]

/-- What BINSET refuses with cause 0x201 is a move to bin D of a half whose move would wait. -/
theorem State.binHeld_eq (s : State) (h bin : Nat) : s.binHeld h bin = (bin == 3 && s.binOf h != 3 && s.binWaits h) := by
  unfold State.binHeld State.binWaits
  cases bound : s.boundTo h with
  | none => rfl
  | some f => cases on : s.groupOn f <;> simp [on]

theorem State.setBin_of_waits {s : State} {h : Nat} (bin : Nat) (waits : s.binWaits h = true) : s.setBin h bin = s.dueBin h bin := if_pos waits

theorem State.setBin_of_free {s : State} {h : Nat} (bin : Nat) (free : s.binWaits h = false) :
    s.setBin h bin = { s with binDue := s.binDue.filter (·.1 != h) }.moveBin h bin :=
  if_neg (c := s.binWaits h = true) (by rw [free]; decide)

theorem State.setBin_binOf_waits {s : State} {h : Nat} (bin k : Nat) (waits : s.binWaits h = true) : (s.setBin h bin).binOf k = s.binOf k := by
  rw [State.setBin_of_waits bin waits]
  rfl

theorem State.setBin_binOf_free {s : State} {h : Nat} (bin : Nat) (free : s.binWaits h = false) : (s.setBin h bin).binOf h = bin := by
  rw [State.setBin_of_free bin free, State.moveBin_binOf, if_pos rfl]

theorem State.setBin_binOf_other (s : State) {h k : Nat} (bin : Nat) (hk : k ≠ h) : (s.setBin h bin).binOf k = s.binOf k := by
  cases waits : s.binWaits h with
  | true => exact State.setBin_binOf_waits bin k waits
  | false =>
    rw [State.setBin_of_free bin waits, State.moveBin_binOf, if_neg hk]
    rfl

theorem State.setBin_due_waits {s : State} {h : Nat} (bin : Nat) (waits : s.binWaits h = true) : (h, bin) ∈ (s.setBin h bin).binDue := by
  simp [State.setBin_of_waits bin waits, State.dueBin]

theorem State.setBin_due_other {s : State} {h k b : Nat} (bin : Nat) (hk : k ≠ h) (due : (k, b) ∈ s.binDue) : (k, b) ∈ (s.setBin h bin).binDue := by
  cases waits : s.binWaits h with
  | true => simp [State.setBin_of_waits bin waits, State.dueBin, due, hk]
  | false => simp [State.setBin_of_free bin waits, State.moveBin_binDue, due, hk]

/-- A half that is in the bin stays there while halves are set to the same bin. -/
theorem State.setBin_binOf_there {s : State} {k bin : Nat} (h : Nat) (there : s.binOf k = bin) : (s.setBin h bin).binOf k = bin := by
  by_cases hk : k = h
  · subst hk
    cases waits : s.binWaits k with
    | true => rw [State.setBin_binOf_waits bin k waits, there]
    | false => exact State.setBin_binOf_free bin waits
  · rw [State.setBin_binOf_other s bin hk, there]

theorem State.setBin_flightsFit {s : State} (h bin : Nat) (fit : s.flightsFit) : (s.setBin h bin).flightsFit := by
  cases waits : s.binWaits h with
  | true =>
    rw [State.setBin_of_waits bin waits]
    exact State.flightsFit_of_cores fit rfl
  | false =>
    rw [State.setBin_of_free bin waits]
    exact State.moveBin_flightsFit h bin (State.flightsFit_of_cores fit rfl)

theorem rebins_setBin (s : State) (h : Nat) {bin : Nat} (notD : bin ≠ 3) : rebins s (s.setBin h bin) := by
  cases waits : s.binWaits h with
  | true =>
    rw [State.setBin_of_waits bin waits]
    exact ⟨_, _, _, rfl⟩
  | false =>
    rw [State.setBin_of_free bin waits]
    exact rebins_trans ⟨_, _, _, rfl⟩ (rebins_moveBin _ h notD)

/-! BINSET's moves, half after half. -/

def State.setBins (s : State) (hs : List Nat) (bin : Nat) : State := hs.foldl (fun s h => s.setBin h bin) s

theorem State.setBins_cons (s : State) (h : Nat) (hs : List Nat) (bin : Nat) : s.setBins (h :: hs) bin = (s.setBin h bin).setBins hs bin := rfl

theorem State.setBins_flightsFit {s : State} (hs : List Nat) (bin : Nat) (fit : s.flightsFit) : (s.setBins hs bin).flightsFit :=
  List.foldlRecOn _ _ fit fun _ hu h _ => State.setBin_flightsFit h bin hu

theorem rebins_setBins (s : State) (hs : List Nat) {bin : Nat} (notD : bin ≠ 3) : rebins s (s.setBins hs bin) :=
  List.foldlRecOn _ _ (rebins_refl s) fun u hu h _ => rebins_trans hu (rebins_setBin u h notD)

theorem State.setBins_binOf_there {s : State} {k bin : Nat} (hs : List Nat) (there : s.binOf k = bin) : (s.setBins hs bin).binOf k = bin :=
  List.foldlRecOn (motive := fun (u : State) => u.binOf k = bin) _ _ there fun _ hu h _ => State.setBin_binOf_there h hu

theorem State.setBins_binOf_other (s : State) {k : Nat} {hs : List Nat} (bin : Nat) (hk : k ∉ hs) : (s.setBins hs bin).binOf k = s.binOf k :=
  List.foldlRecOn (motive := fun (u : State) => u.binOf k = s.binOf k) _ _ rfl fun u hu _ hm =>
    (State.setBin_binOf_other u bin (ne_of_mem_of_not_mem hm hk).symm).trans hu

theorem State.setBins_due_other {s : State} {k b : Nat} {hs : List Nat} (bin : Nat) (hk : k ∉ hs) (due : (k, b) ∈ s.binDue) :
    (k, b) ∈ (s.setBins hs bin).binDue :=
  List.foldlRecOn (motive := fun (u : State) => (k, b) ∈ u.binDue) _ _ due fun _ hu _ hm => State.setBin_due_other bin (ne_of_mem_of_not_mem hm hk).symm hu

/-- Every half that is named ends in the bin, or its move there is due. -/
theorem State.setBins_binOf_or_due (s : State) {k : Nat} {hs : List Nat} (bin : Nat) (hk : k ∈ hs) :
    (s.setBins hs bin).binOf k = bin ∨ (k, bin) ∈ (s.setBins hs bin).binDue := by
  induction hs generalizing s with
  | nil => cases hk
  | cons h rest ih =>
    rw [State.setBins_cons]
    by_cases again : k ∈ rest
    · exact ih _ again
    · obtain rfl : k = h := by simpa [again] using hk
      cases waits : s.binWaits k with
      | true => exact .inr (State.setBins_due_other bin again (State.setBin_due_waits bin waits))
      | false => exact .inl (State.setBins_binOf_there rest (State.setBin_binOf_free bin waits))

/-- A move to another bin than D changes no binding and no group: whether the move of a further half waits stands. -/
theorem State.setBin_binWaits (s : State) (h k : Nat) {bin : Nat} (notD : bin ≠ 3) : (s.setBin h bin).binWaits k = s.binWaits k := by
  obtain ⟨_, _, _, e⟩ := rebins_setBin s h notD
  rw [e]
  rfl

theorem State.setBins_of_waits {s : State} {k bin : Nat} {hs : List Nat} (notD : bin ≠ 3) (hk : k ∈ hs) (waits : s.binWaits k = true) :
    (s.setBins hs bin).binOf k = s.binOf k ∧ (k, bin) ∈ (s.setBins hs bin).binDue := by
  induction hs generalizing s with
  | nil => cases hk
  | cons h rest ih =>
    have stands : (s.setBin h bin).binOf k = s.binOf k := by
      by_cases here : k = h
      · exact State.setBin_binOf_waits bin k (here ▸ waits)
      · exact State.setBin_binOf_other s bin here
    rw [State.setBins_cons]
    by_cases again : k ∈ rest
    · rw [← stands]
      exact ih again (by rwa [State.setBin_binWaits s h k notD])
    · obtain rfl : k = h := by simpa [again] using hk
      exact ⟨(State.setBins_binOf_other _ bin again).trans stands, State.setBins_due_other bin again (State.setBin_due_waits bin waits)⟩

theorem State.setBins_of_free {s : State} {k bin : Nat} {hs : List Nat} (notD : bin ≠ 3) (hk : k ∈ hs) (free : s.binWaits k = false) :
    (s.setBins hs bin).binOf k = bin := by
  induction hs generalizing s with
  | nil => cases hk
  | cons h rest ih =>
    rw [State.setBins_cons]
    by_cases again : k ∈ rest
    · exact ih again (by rwa [State.setBin_binWaits s h k notD])
    · obtain rfl : k = h := by simpa [again] using hk
      exact State.setBins_binOf_there rest (State.setBin_binOf_free bin free)

/-! What only the executing thread's state changes leaves of the registration. -/

section
variable {s t : State} (h : onlyMine s t)
include h

theorem onlyMine_bins : t.bins = s.bins := (congrArg State.bins h.1 :)
theorem onlyMine_bindings : t.bindings = s.bindings := (congrArg State.bindings h.1 :)
theorem onlyMine_groups : t.groups = s.groups := (congrArg State.groups h.1 :)
theorem onlyMine_groupAt (g : Nat) : t.groupAt g = s.groupAt g := (congrArg (State.groupAt · g) h.1 :)
theorem onlyMine_binOf (k : Nat) : t.binOf k = s.binOf k := (congrArg (State.binOf · k) h.1 :)
theorem onlyMine_bindingOf (fe : Nat) : t.bindingOf fe = s.bindingOf fe := (congrArg (State.bindingOf · fe) h.1 :)
theorem onlyMine_boundTo (k : Nat) : t.boundTo k = s.boundTo k := (congrArg (State.boundTo · k) h.1 :)
theorem onlyMine_parked (fe : Nat) : t.parked fe = s.parked fe := (congrArg (State.parked · fe) h.1 :)
theorem onlyMine_handle (w : Word) : t.handle w = s.handle w := (congrArg (State.handle · w) h.1 :)

theorem onlyMine_groupOn (fe : Nat) : t.groupOn fe = s.groupOn fe := by
  have grp : (t.coreAt fe).grp = (s.coreAt fe).grp := (congrArg Core.grp (h.2.2.1 fe) :)
  simp only [State.groupOn, grp, onlyMine_groups h]

theorem onlyMine_binWaits (k : Nat) : t.binWaits k = s.binWaits k := by
  have on : t.groupOn = s.groupOn := funext (onlyMine_groupOn h)
  simp only [State.binWaits, onlyMine_boundTo h, on, onlyMine_groupAt h]

end

end Sys2Proof.Machine
end

section
/-! BINSET, REGBIND, MAPSET and INJ (R282, R316, R319, R396, R397, R402). -/

namespace Sys2Proof.Machine

/-! The four words, their forms, and the state that each one's effect finds. -/

section
variable (w : Fields) (s : State)

theorem exec_binset : exec (.binset w) s = execBinset w s := rfl
theorem exec_regbind : exec (.regbind w) s = execRegbind w s := rfl
theorem exec_mapset : exec (.mapset w) s = execMapset w s := rfl
theorem exec_inj : exec (.inj w) s = execInj w s := rfl

theorem word_binset : (Instr.binset w).word = some ⟨0x314, fBinset, w⟩ := rfl
theorem word_regbind : (Instr.regbind w).word = some ⟨0x315, fRegbind, w⟩ := rfl
theorem word_mapset : (Instr.mapset w).word = some ⟨0x316, fMapset, w⟩ := rfl
theorem word_inj : (Instr.inj w).word = some ⟨0x313, fInj, w⟩ := rfl

theorem found_binset : found (.binset w) s = s.issued ⟨0x314, fBinset, w⟩ := rfl
theorem found_regbind : found (.regbind w) s = s.issued ⟨0x315, fRegbind, w⟩ := rfl
theorem found_mapset : found (.mapset w) s = s.issued ⟨0x316, fMapset, w⟩ := rfl

/-- An operand reads the same before and after the issue. -/
theorem State.issued_self_src (x : WordOf) (o : Operand) : ((s.issued x).self s.cx).src o = s.mine.src o := by
  have thread : (s.issued x).self s.cx = (s.issued x).mine := by rw [State.mine, State.issued_cur]; rfl
  rw [thread, State.issued_mine, Thread.issued_src]

end

/-! BINSET (R282). -/

/-- A change of bins after the issue is one of the whole word. -/
theorem onlyMine_of_rebins {s v t : State} (h : onlyMine s v) (r : rebins v t) :
    onlyMine s { t with bins := s.bins, passed := s.passed, binDue := s.binDue } := by
  obtain ⟨_, _, _, rfl⟩ := r
  have passed : v.passed = s.passed := (congrArg State.passed h.1 :)
  have due : v.binDue = s.binDue := (congrArg State.binDue h.1 :)
  rw [← onlyMine_bins h, ← passed, ← due]
  exact h

theorem exec_binset_badWord {w : Fields} {s : State} (h : issues (.binset w) s = true) (bad : slabHalves (s.mine.src w.a) = none) :
    exec (.binset w) s = .next (s.takeTrap s.cur s.mine.pc { cause := 0x200 }) := by
  rw [exec_binset, execBinset]
  refine issue_cause h (word_binset w) ?_
  simp only [State.issued_self_src, bad]

/-- The first half that BINSET moves to bin D is in it at once: a half whose move would wait is refused unless it is there already. -/
theorem State.setBins_binOf_head {u v : State} {h : Nat} {hs : List Nat} (only : onlyMine u v) (head : hs.head? = some h)
    (free : hs.any (u.binHeld · 3) = false) : (v.setBins hs 3).binOf h = 3 := by
  obtain ⟨rest, rfl⟩ : ∃ rest, hs = h :: rest := by
    cases hs with
    | nil => cases head
    | cons k rest => exact ⟨rest, by rw [Option.some.inj head]⟩
  have notHeld : u.binHeld h 3 = false := Bool.eq_false_iff.mpr (List.any_eq_false.mp free h List.mem_cons_self)
  cases waits : u.binWaits h with
  | true =>
    have there : u.binOf h = 3 := by simpa [State.binHeld_eq, waits] using notHeld
    exact State.setBins_binOf_there _ ((onlyMine_binOf only h).trans there)
  | false =>
    rw [State.setBins_cons]
    exact State.setBins_binOf_there rest (State.setBin_binOf_free 3 ((onlyMine_binWaits only h).trans waits))

section
variable {w : Fields} {s u : State} {hs : List Nat} {bin : Nat} (h : issues (.binset w) s = true) (hu : u = found (.binset w) s)
  (names : slabHalves (s.mine.src w.a) = some hs) (hb : bin = w.b.immInt.toNat)
include h hu names hb

theorem exec_binset_held (held : hs.any (u.binHeld · bin) = true) :
    exec (.binset w) s = .next (s.takeTrap s.cur s.mine.pc { cause := 0x201 }) := by
  subst hu hb
  rw [found_binset] at held
  rw [exec_binset, execBinset]
  refine issue_cause h (word_binset w) ?_
  simp only [State.issued_self_src, names, held, if_true]

variable (free : hs.any (u.binHeld · bin) = false)
include free

theorem exec_binset_refused (still : hs.all (u.binMoves · bin) = false) :
    ∃ t, exec (.binset w) s = .next t ∧ lands s t .none 1 true 1 ∧ t.mine.pc = s.mine.pc + 1 ∧ registersKept s.mine t.mine ∧ onlyMine s t ∧
      bytesKept s t := by
  subst hu hb
  rw [found_binset] at free still
  rw [exec_binset, execBinset]
  refine issue_status h (word_binset w) ?_
  simp only [State.issued_self_src, names, free, still, Bool.false_eq_true, if_false, Bool.not_false, if_true]

variable (moves : hs.all (u.binMoves · bin) = true) (room : ∀ ag, u.inFlight ag ≤ 32)
include moves room

theorem exec_binset_moves : exec (.binset w) s = .next ((s.answered ⟨0x314, fBinset, w⟩ 0).setBins hs bin) := by
  subst hu hb
  rw [found_binset] at free moves room
  obtain ⟨c, k, hc⟩ := gate_go_core (issues_gate h (word_binset w)) rfl
  obtain ⟨_, roomHere, _⟩ := passes_iff (issues_iff h).1
  have fit := State.setBins_flightsFit hs w.b.immInt.toNat (State.answered_flightsFit (v := 0) room roomHere)
  rw [exec_binset, execBinset]
  refine issue_untimed_done h (word_binset w) rfl ?_ (by rw [hc, State.inFlight_core]; exact fit c k)
  simp only [State.issued_self_src, names, free, moves, Bool.false_eq_true, if_false, Bool.not_true]
  rfl

theorem exec_binset_as_stated :
    ∃ t, exec (.binset w) s = .next t ∧ (∀ h, h ∉ hs → t.binOf h = s.binOf h) ∧
      (bin = 3 → (∀ h ∈ hs, t.binOf h = 3 ∨ (h, 3) ∈ t.binDue) ∧ ∀ h, hs.head? = some h → t.binOf h = 3) ∧
      (bin ≠ 3 →
        (∀ h ∈ hs, ∀ f g, u.boundTo h = some f → u.groupOn f = some g → (u.groupAt g).atProof = false →
          t.binOf h = s.binOf h ∧ (h, bin) ∈ t.binDue) ∧
        (∀ h ∈ hs, (∀ f g, u.boundTo h = some f → u.groupOn f = some g → (u.groupAt g).atProof = true) → t.binOf h = bin) ∧
        lands s t .none 0 true 1 ∧ t.mine.pc = s.mine.pc + 1 ∧ registersKept s.mine t.mine ∧
        onlyMine s { t with bins := s.bins, passed := s.passed, binDue := s.binDue } ∧ bytesKept s t) := by
  have fromIssue : onlyMine u (s.answered ⟨0x314, fBinset, w⟩ 0) := hu ▸ onlyMine_issued_answered s _ 0
  have only : onlyMine s (s.answered ⟨0x314, fBinset, w⟩ 0) := onlyMine_answered s _ 0
  refine ⟨_, exec_binset_moves h hu names hb free moves room, fun k hk => ?_, fun toD => ?_, fun notD => ⟨?_, ?_, ?_⟩⟩
  · exact (State.setBins_binOf_other _ bin hk).trans (onlyMine_binOf only k)
  · subst toD
    exact ⟨fun k hk => State.setBins_binOf_or_due _ 3 hk, fun k head => State.setBins_binOf_head fromIssue head free⟩
  · intro k hk f g bound on notAtProof
    have waits : u.binWaits k = true := (State.binWaits_iff _ k).mpr ⟨f, g, bound, on, notAtProof⟩
    obtain ⟨stands, due⟩ := State.setBins_of_waits notD hk ((onlyMine_binWaits fromIssue k).trans waits)
    exact ⟨stands.trans (onlyMine_binOf only k), due⟩
  · intro k hk atProof
    have notWaiting : u.binWaits k = false := by
      refine Bool.eq_false_iff.mpr fun waits => ?_
      obtain ⟨f, g, bound, on, notAtProof⟩ := (State.binWaits_iff _ k).mp waits
      rw [atProof f g bound on] at notAtProof
      cases notAtProof
    exact State.setBins_of_free notD hk ((onlyMine_binWaits fromIssue k).trans notWaiting)
  · obtain ⟨bins, passed, due, changed⟩ := rebins_setBins (s.answered ⟨0x314, fBinset, w⟩ 0) hs notD
    obtain ⟨_, landing, pc, kept, bytes⟩ := State.answered_congr ⟨_, bins, passed, due, _, changed⟩
    exact ⟨landing, pc, kept, onlyMine_of_rebins only ⟨bins, passed, due, changed⟩, bytes⟩

end

/-! REGBIND (R282, R319). -/

theorem State.setBinding_bindingOf_same (s : State) (fe : Nat) (b : Binding) : (s.setBinding fe b).bindingOf fe = b := by
  simp only [State.bindingOf, State.setBinding, SMap.find_put_same]

theorem State.setBinding_bindingOf_other (s : State) {fe f : Nat} (b : Binding) (h : f ≠ fe) : (s.setBinding fe b).bindingOf f = s.bindingOf f := by
  simp only [State.bindingOf, State.setBinding, SMap.find_put_other _ _ _ _ h]

theorem State.moveCore_bindingOf (s : State) (g old new fe : Nat) : (s.moveCore g old new).bindingOf fe = s.bindingOf fe := by
  have bindings : (s.moveCore g old new).bindings = s.bindings := congrArg (·.2.2) (s.moveCore_registration g old new)
  simp only [State.bindingOf, bindings]

theorem State.strandedCore_ne {s : State} {fe c : Nat} (h : s.strandedCore fe = some c) : c ≠ fe := by
  have found := List.find?_some h
  simp only [Bool.and_eq_true, bne_iff_ne] at found
  exact found.1.1.1.1.1

/-- A binding of an active front end changes that binding alone. -/
theorem State.regBind_of_active {s : State} {fe : Nat} (west east : Nat) (active : s.parked fe = false) :
    s.regBind fe west east = s.setBinding fe { west := some west, east := some east } := by
  simp only [State.regBind, active, Bool.false_eq_true, if_false]

theorem State.regBind_bindingOf (s : State) (fe west east : Nat) :
    (s.regBind fe west east).bindingOf fe = { west := some west, east := some east } := by
  have bound := s.setBinding_bindingOf_same fe { west := some west, east := some east }
  unfold State.regBind
  dsimp only
  split
  case h_2 => exact bound
  case h_1 c stranded =>
    have other : fe ≠ c := by
      split at stranded
      · exact (State.strandedCore_ne stranded).symm
      · cases stranded
    split
    · rw [State.moveCore_bindingOf, State.setBinding_bindingOf_other _ _ other, bound]
    · exact bound

theorem State.regBind_flightsFit {s : State} (fe west east : Nat) (fit : s.flightsFit) : (s.regBind fe west east).flightsFit := by
  have bound : (s.setBinding fe { west := some west, east := some east }).flightsFit := State.flightsFit_of_cores fit rfl
  unfold State.regBind
  dsimp only
  split
  · split
    · exact State.moveCore_flightsFit _ _ _ (State.flightsFit_of_cores bound rfl)
    · exact bound
  · exact bound

theorem exec_regbind_badWord {w : Fields} {s : State} (h : issues (.regbind w) s = true)
    (bad : frontEndOf (s.mine.src w.a) = none ∨ ∃ fe, frontEndOf (s.mine.src w.a) = some fe ∧ bindingWord (feStack fe) (s.mine.src w.b) = none) :
    exec (.regbind w) s = .next (s.takeTrap s.cur s.mine.pc { cause := 0x200 }) := by
  rw [exec_regbind, execRegbind]
  refine issue_cause h (word_regbind w) ?_
  rcases bad with noFrontEnd | ⟨fe, frontEnd, noBinding⟩
  · simp only [State.issued_self_src, noFrontEnd]
  · simp only [State.issued_self_src, frontEnd, noBinding]

section
variable {w : Fields} {s u : State} {fe west east : Nat} (h : issues (.regbind w) s = true) (hu : u = found (.regbind w) s)
  (frontEnd : frontEndOf (s.mine.src w.a) = some fe) (binding : bindingWord (feStack fe) (s.mine.src w.b) = some (west, east))
include h hu frontEnd binding

theorem exec_regbind_refused (atProof : ∀ g, u.groupOn fe = some g → (u.groupAt g).atProof = true)
    (refused : u.absorbed fe = true ∨ u.mayBind fe (west * 2) = false ∨ u.mayBind fe (east * 2 + 1) = false ∨
      ∃ g, u.groupOn fe = some g ∧ (u.groupAt g).width ≠ 1) :
    ∃ t, exec (.regbind w) s = .next t ∧ lands s t .none 1 true 1 ∧ t.mine.pc = s.mine.pc + 1 ∧ registersKept s.mine t.mine ∧ onlyMine s t ∧
      bytesKept s t := by
  subst hu
  rw [found_regbind] at atProof refused
  rw [exec_regbind, execRegbind]
  refine issue_status h (word_regbind w) ?_
  simp only [State.issued_self_src, frontEnd, binding]
  rw [if_neg (by simpa [Option.any_eq_true] using atProof), if_pos (by simpa [Option.any_eq_true, or_assoc] using refused)]

theorem exec_regbind_binds (free : ∀ g, u.groupOn fe = some g → (u.groupAt g).atProof = true ∧ (u.groupAt g).width = 1)
    (notAbsorbed : u.absorbed fe = false) (mayWest : u.mayBind fe (west * 2) = true) (mayEast : u.mayBind fe (east * 2 + 1) = true)
    (room : ∀ ag, u.inFlight ag ≤ 32) :
    exec (.regbind w) s = .next ((s.answered ⟨0x315, fRegbind, w⟩ 0).regBind fe west east) := by
  subst hu
  rw [found_regbind] at free notAbsorbed mayWest mayEast room
  obtain ⟨c, k, hc⟩ := gate_go_core (issues_gate h (word_regbind w)) rfl
  obtain ⟨_, roomHere, _⟩ := passes_iff (issues_iff h).1
  have fit := State.regBind_flightsFit fe west east (State.answered_flightsFit (v := 0) room roomHere)
  rw [exec_regbind, execRegbind]
  refine issue_untimed_done h (word_regbind w) rfl ?_ (by rw [hc, State.inFlight_core]; exact fit c k)
  simp only [State.issued_self_src, frontEnd, binding]
  rw [if_neg (by simpa [Option.any_eq_true] using fun g on => (free g on).1),
    if_neg (by simpa [Option.any_eq_true, notAbsorbed, mayWest, mayEast] using fun g on => (free g on).2)]
  rfl

theorem exec_regbind_as_stated (free : ∀ g, u.groupOn fe = some g → (u.groupAt g).atProof = true ∧ (u.groupAt g).width = 1)
    (notAbsorbed : u.absorbed fe = false) (mayWest : u.mayBind fe (west * 2) = true) (mayEast : u.mayBind fe (east * 2 + 1) = true)
    (room : ∀ ag, u.inFlight ag ≤ 32) :
    ∃ t, exec (.regbind w) s = .next t ∧ t.bindingOf fe = { west := some west, east := some east } ∧
      (s.parked fe = false → lands s t .none 0 true 1 ∧ t.mine.pc = s.mine.pc + 1 ∧ registersKept s.mine t.mine ∧
        (∀ f, f ≠ fe → t.bindingOf f = s.bindingOf f) ∧ onlyMine s { t with bindings := s.bindings } ∧ bytesKept s t) := by
  have only : onlyMine s (s.answered ⟨0x315, fRegbind, w⟩ 0) := onlyMine_answered s _ 0
  refine ⟨_, exec_regbind_binds h hu frontEnd binding free notAbsorbed mayWest mayEast room, State.regBind_bindingOf _ fe west east, fun active => ?_⟩
  rw [State.regBind_of_active west east ((onlyMine_parked only fe).trans active)]
  obtain ⟨_, landing, pc, kept, bytes⟩ := State.answered_congr (s := s) (v := 0) (x := ⟨0x315, fRegbind, w⟩)
    (t := State.setBinding _ fe { west := some west, east := some east }) ⟨_, _, _, _, _, rfl⟩
  refine ⟨landing, pc, kept, fun f other => ?_, ?_, bytes⟩
  · rw [State.setBinding_bindingOf_other _ _ other, onlyMine_bindingOf only]
  · rw [← onlyMine_bindings only]
    exact only

end

/-! MAPSET (R282, R316). -/

/-- The status of a word that has noted something in a group. -/
theorem State.setGroup_land (s : State) (g : Nat) (v : Group) (ag : Agent) (word : Nat) (d : Dest) (x : Word) (push : Bool) (lat : Nat) :
    (s.setGroup g v).land ag word d x push lat = (s.land ag word d x push lat).setGroup g v := by
  cases ag <;> rfl

theorem exec_mapset_badOperand {w : Fields} {s : State} (h : issues (.mapset w) s = true)
    (bad : s.handle (s.mine.src w.a) = none ∨ 64 ≤ (s.mine.src w.c).toNat ∨
      ∃ g, s.handle (s.mine.src w.a) = some g ∧ (s.groupAt g).cls ≤ (s.mine.src w.b).toNat) :
    exec (.mapset w) s = .next (s.takeTrap s.cur s.mine.pc { cause := 0x200 }) := by
  have issued := onlyMine_issued s ⟨0x316, fMapset, w⟩
  rw [exec_mapset, execMapset]
  refine issue_cause h (word_mapset w) ?_
  simp only [State.issued_self_src, onlyMine_handle issued, onlyMine_groupAt issued, Bool.or_eq_true, decide_eq_true_eq]
  cases named : s.handle (s.mine.src w.a) with
  | none => rfl
  | some g =>
    have outside : (s.groupAt g).cls ≤ (s.mine.src w.b).toNat ∨ 64 ≤ (s.mine.src w.c).toNat := by
      rcases bad with missing | cluster | ⟨_, same, logical⟩
      · rw [named] at missing
        cases missing
      · exact .inr cluster
      · rw [named] at same
        exact .inl (Option.some.inj same ▸ logical)
    simp only [outside, if_true]

section
variable {w : Fields} {s u : State} {g l k : Nat} (h : issues (.mapset w) s = true) (hu : u = found (.mapset w) s)
  (named : s.handle (s.mine.src w.a) = some g) (hl : l = (s.mine.src w.b).toNat) (hk : k = (s.mine.src w.c).toNat)
  (inGroup : l < (s.groupAt g).cls) (inPackage : k < 64)
include h hu named hl hk inGroup inPackage

theorem exec_mapset_refused (refused : moveAccepted u g l k = false) :
    ∃ t, exec (.mapset w) s = .next t ∧ lands s t .none 1 true 1 ∧ t.mine.pc = s.mine.pc + 1 ∧ registersKept s.mine t.mine ∧ onlyMine s t ∧
      bytesKept s t := by
  subst hu hl hk
  rw [found_mapset] at refused
  have issued := onlyMine_issued s ⟨0x316, fMapset, w⟩
  rw [exec_mapset, execMapset]
  refine issue_status h (word_mapset w) ?_
  simp only [State.issued_self_src, onlyMine_handle issued, onlyMine_groupAt issued, named]
  rw [if_neg (by simpa using And.intro inGroup inPackage), if_pos (by rw [refused]; rfl)]

theorem exec_mapset_as_stated (accepted : moveAccepted u g l k = true) :
    ∃ t, exec (.mapset w) s = .next t ∧ (t.groupAt g).moves = ((s.groupAt g).moves.filter fun m => m.1 != l) ++ [(l, k)] ∧
      (t.groupAt g).map = (s.groupAt g).map ∧ lands s t .none 0 true 1 ∧ t.mine.pc = s.mine.pc + 1 ∧ registersKept s.mine t.mine ∧ bytesKept s t := by
  subst hu
  rw [found_mapset] at accepted
  have issued := onlyMine_issued s ⟨0x316, fMapset, w⟩
  obtain ⟨_, roomHere, _⟩ := passes_iff (issues_iff h).1
  obtain ⟨inFlight, landing, pc, kept, bytes⟩ := State.answered_congr (s := s) (v := 0) (x := ⟨0x316, fMapset, w⟩)
    (t := State.setGroup _ g { s.groupAt g with moves := ((s.groupAt g).moves.filter fun m => m.1 != l) ++ [(l, k)] }) ⟨_, _, _, _, _, rfl⟩
  refine ⟨_, ?_, ?_, ?_, landing, pc, kept, bytes⟩
  · subst hl hk
    rw [exec_mapset, execMapset]
    refine issue_untimed_done h (word_mapset w) rfl ?_ (by omega)
    simp only [State.issued_self_src, onlyMine_handle issued, onlyMine_groupAt issued, named]
    rw [if_neg (by simpa using And.intro inGroup inPackage), if_neg (by rw [accepted]; decide), result, State.setGroup_land]
    rfl
  · rw [State.setGroup_groupAt_same]
  · rw [State.setGroup_groupAt_same]

end

/-! INJ (R282, R402). -/

theorem exec_inj_badOperand {w : Fields} {s : State} (h : issues (.inj w) s = true) (bad : 15 < w.a.immInt.toNat ∨ 65535 < (s.mine.src w.b).toNat) :
    exec (.inj w) s = .next (s.takeTrap s.cur s.mine.pc { cause := 0x200 }) := by
  rw [exec_inj, execInj]
  refine issue_cause h (word_inj w) ?_
  simp only [State.issued_self_src, Bool.or_eq_true, decide_eq_true_eq, bad, if_true]

theorem bytesKept_trans {s t u : State} (h : bytesKept s t) (g : bytesKept t u) : bytesKept s u :=
  ⟨fun a => (g.1 a).trans (h.1 a), fun a => (g.2.1 a).trans (h.2.1 a), fun p a => (g.2.2.1 p a).trans (h.2.2.1 p a),
    fun c who cyc a n => (g.2.2.2 c who cyc a n).trans (h.2.2.2 c who cyc a n)⟩

/-- A change of a core that leaves its memory and its held writes alone changes no byte. -/
theorem bytesKept_modCore (s : State) (c : Nat) {f : Core → Core} (mem : ∀ b, (f b).mem = b.mem) (pend : ∀ b, (f b).pend = b.pend) :
    bytesKept s (s.modCore c f) := by
  have core (d : Nat) : ((s.modCore c f).coreAt d).mem = (s.coreAt d).mem ∧ ((s.modCore c f).coreAt d).pend = (s.coreAt d).pend := by
    by_cases hd : d = c
    · rw [hd, State.modCore, State.setCore_coreAt_same]
      exact ⟨mem _, pend _⟩
    · rw [State.modCore, State.setCore_coreAt_other _ _ _ _ hd]
      exact ⟨rfl, rfl⟩
  have memOf (p : Place) : (s.modCore c f).memOf p = s.memOf p := by
    cases p with
    | core d => exact (core d).1
    | cluster k => rfl
  have pendOf (p : Place) : (s.modCore c f).pendOf p = s.pendOf p := by
    cases p with
    | core d => exact (core d).2
    | cluster k => rfl
  exact ⟨fun _ => rfl, fun _ => rfl, fun p a => by rw [memOf], fun c who cyc a n => by simp only [State.view, memOf, pendOf]⟩

/-- A thread of a core issues within the cores. -/
theorem State.issued_core_eq {s : State} {c k : Nat} (hc : s.cur = .core c k) (x : WordOf) : ∃ cores, s.issued x = { s with cores := cores } := by
  have issued := State.issued_eq_core (x := x) hc
  rw [hc] at issued
  exact ⟨_, issued⟩

theorem State.issued_inFlight (s : State) (x : WordOf) : (s.issued x).inFlight s.cur = s.inFlight s.cur := by
  rw [onlyMine_inFlight (onlyMine_issued s x), State.issued_threadOf, Thread.issued_flight, State.inFlight]

theorem othersKept_of_onlyMine {s t : State} (h : onlyMine s t) : othersKept s t := by
  intro ag other
  rw [h.2.1 ag other]
  exact ⟨⟨rfl, rfl, rfl, rfl, rfl⟩, rfl, rfl, rfl⟩

/-- A word of a thread of a core that changes, beside its issue, a part of the core that holds no thread and no byte. -/
theorem onlyCore_issued_modCore {s : State} {c k : Nat} {free : Core → Core → Core} {f : Core → Core} (hc : s.cur = .core c k) (x : WordOf)
    (changed : ∀ a b, coreKept a b → coreBut free a (f b)) (unchanged : ∀ a b, coreKept a b → coreBut free a b)
    (threads : ∀ b t, (f b).thread t = b.thread t) (bytes : bytesKept s ((s.issued x).modCore c f)) :
    onlyCore free s ((s.issued x).modCore c f) := by
  have only := onlyMine_issued s x
  obtain ⟨_, _, cores, otherCores, _, _⟩ := onlyMine_issued s x
  have other (d : Nat) (hd : d ≠ c) : ((s.issued x).modCore c f).coreAt d = (s.issued x).coreAt d := State.setCore_coreAt_other _ _ _ _ hd
  refine ⟨?_, fun d hd => ?_, fun d => ?_, fun ag ha => ?_, bytes.2.2.1⟩
  · obtain ⟨_, issued⟩ := State.issued_core_eq hc x
    rw [issued]
    rfl
  · rw [other d fun e => hd k (by rw [hc, e])]
    exact otherCores d hd
  · by_cases hd : d = c
    · rw [hd, State.modCore, State.setCore_coreAt_same]
      exact changed _ _ (cores c)
    · rw [other d hd]
      exact unchanged _ _ (cores d)
  · rw [State.modCore_threadOf threads]
    exact othersKept_of_onlyMine only ag ha

theorem State.modCore_mine (s : State) (c : Nat) {f : Core → Core} (threads : ∀ b t, (f b).thread t = b.thread t) : (s.modCore c f).mine = s.mine := by
  have cur : (s.modCore c f).cur = s.cur := rfl
  rw [State.mine, State.mine, cur, State.modCore_threadOf threads]

/-- INJ's change of its core: the count of one detector. -/
def Core.arm (d n : Nat) (k : Core) : Core := { k with inj := SMap.set 0 k.inj d n }

theorem Core.arm_coreBut (d n : Nat) {a b : Core} (kept : coreKept a b) : coreBut (fun b a => { a with inj := b.inj }) a (b.arm d n) :=
  (congrArg (fun k : Core => { k with inj := SMap.set 0 b.inj d n }) kept :)

theorem coreBut_inj {a b : Core} (kept : coreKept a b) : coreBut (fun b a => { a with inj := b.inj }) a b :=
  (congrArg (fun k : Core => { k with inj := b.inj }) kept :)

section
variable {w : Fields} {s : State} {c k d n : Nat} (hc : s.cur = .core c k) (h : issues (.inj w) s = true) (hd : d = w.a.immInt.toNat)
  (hn : n = (s.mine.src w.b).toNat) (detector : d ≤ 15) (count : n ≤ 65535)
include hc h hd hn detector count

theorem exec_inj_arms : exec (.inj w) s = .next ((s.issued ⟨0x313, fInj, w⟩).modCore c (Core.arm d n)) := by
  subst hd hn
  have core : s.cx.c = c := by simp only [State.cx, hc, State.coreOf]
  obtain ⟨_, roomHere, _⟩ := passes_iff (issues_iff h).1
  have room := Nat.le_trans (Nat.le_of_eq (State.issued_inFlight s ⟨0x313, fInj, w⟩)) roomHere
  rw [exec_inj, execInj]
  refine issue_untimed_done h (word_inj w) rfl ?_ ?_
  · simp only [State.issued_self_src, core]
    rw [if_neg (by simpa using And.intro detector count)]
    rfl
  · rw [hc, State.inFlight_core] at room ⊢
    rw [State.modCore, State.setCore_coreAt_same]
    exact Nat.le_trans room (by decide)

theorem exec_inj_as_stated :
    ∃ t, exec (.inj w) s = .next t ∧ (∀ e, SMap.get 0 (t.coreAt c).inj e = if e = d then n else SMap.get 0 (s.coreAt c).inj e) ∧
      t.mine.flight = s.mine.flight ∧ t.mine.pc = s.mine.pc + 1 ∧ registersKept s.mine t.mine ∧ onlyCore (fun b a => { a with inj := b.inj }) s t ∧
      bytesKept s t := by
  obtain ⟨_, _, cores, _⟩ := onlyMine_issued s ⟨0x313, fInj, w⟩
  have inj : ((s.issued ⟨0x313, fInj, w⟩).coreAt c).inj = (s.coreAt c).inj := (congrArg Core.inj (cores c) :)
  have mine : ((s.issued ⟨0x313, fInj, w⟩).modCore c (Core.arm d n)).mine = (s.issued ⟨0x313, fInj, w⟩).mine :=
    State.modCore_mine _ c fun _ _ => rfl
  have bytes : bytesKept s ((s.issued ⟨0x313, fInj, w⟩).modCore c (Core.arm d n)) :=
    bytesKept_trans (onlyMine_bytesKept (onlyMine_issued s _)) (bytesKept_modCore _ c (fun _ => rfl) fun _ => rfl)
  refine ⟨_, exec_inj_arms hc h hd hn detector count, fun e => ?_, ?_, ?_, ?_, ?_, bytes⟩
  · rw [State.modCore, State.setCore_coreAt_same, Core.arm, inj]
    split
    · next same => rw [same, SMap.get_set_same]
    · next other => exact SMap.get_set_other _ _ _ _ _ other
  · rw [mine, State.issued_mine, Thread.issued_flight]
  · rw [mine, State.issued_mine, Thread.issued_pc]
  · rw [mine, State.issued_mine]
    simp [registersKept]
  · exact onlyCore_issued_modCore hc _ (fun a b kept => Core.arm_coreBut d n kept) (fun a b kept => coreBut_inj kept) (fun _ _ => rfl) bytes

end

/-- Settles O47: each word's status and effect, clause by clause. That the move of a half bound to a group at a proof barrier takes effect at once is
log entry 54. -/
theorem registrationWordsBindMoveAndArm : Obligations.RegistrationWordsBindMoveAndArm :=
  ⟨fun _ _ _ _ hs hx hy hh => slabHalves_slabWord hs hx hy hh,
    fun _ _ _ _ _ h hu names hb free moves room => exec_binset_as_stated h hu names hb free moves room,
    fun _ _ _ _ _ h hu names hb free still => exec_binset_refused h hu names hb free still,
    fun _ _ h bad => exec_binset_badWord h bad,
    fun _ _ _ _ h hu names held => exec_binset_held h hu names rfl held,
    fun _ _ _ _ _ _ h hu frontEnd binding free notAbsorbed mayWest mayEast room =>
      exec_regbind_as_stated h hu frontEnd binding free notAbsorbed mayWest mayEast room,
    fun _ _ _ _ _ _ h hu frontEnd binding atProof refused => exec_regbind_refused h hu frontEnd binding atProof refused,
    fun _ _ h bad => exec_regbind_badWord h bad,
    fun _ _ _ _ _ _ h hu named hl hk inGroup inPackage accepted => exec_mapset_as_stated h hu named hl hk inGroup inPackage accepted,
    fun _ _ _ _ _ _ h hu named hl hk inGroup inPackage refused => exec_mapset_refused h hu named hl hk inGroup inPackage refused,
    fun _ _ h bad => exec_mapset_badOperand h bad,
    fun _ _ _ _ _ _ hc h hd hn detector count => exec_inj_as_stated hc h hd hn detector count,
    fun _ _ h bad => exec_inj_badOperand h bad⟩

end Sys2Proof.Machine
end

section
/-! What a word of a thread leaves of the stores, and the issue of a word whose effect is known (R25, R64, R350, R353, R357). -/

namespace Sys2Proof.Machine

/-! What stands where memory, held writes and the work on tiles stand. -/

/-- Of a core, the memory, the writes that are held, and what is in progress on tiles and rows stand. -/
def coreStores (a b : Core) : Prop := b.mem = a.mem ∧ b.pend = a.pend ∧ b.engs = a.engs ∧ b.vecs = a.vecs

/-- Every store stands, with the writes that are held, and the same agent is executing. -/
structure storesKept (s t : State) : Prop where
  cur : t.cur = s.cur
  now : t.now = s.now
  phys : t.phys = s.phys
  host : t.host = s.host
  clusters : t.clusters = s.clusters
  cores : ∀ c, coreStores (s.coreAt c) (t.coreAt c)

theorem coreStores_refl (a : Core) : coreStores a a := ⟨rfl, rfl, rfl, rfl⟩

theorem coreStores_trans {a b c : Core} (h : coreStores a b) (g : coreStores b c) : coreStores a c := by
  obtain ⟨mem, pend, engs, vecs⟩ := h
  obtain ⟨mem', pend', engs', vecs'⟩ := g
  exact ⟨mem'.trans mem, pend'.trans pend, engs'.trans engs, vecs'.trans vecs⟩

theorem coreStores_of_coreKept {a b : Core} (h : coreKept a b) : coreStores a b :=
  ⟨(congrArg Core.mem h :), (congrArg Core.pend h :), (congrArg Core.engs h :), (congrArg Core.vecs h :)⟩

theorem storesKept_of_cores {s t : State} (cores : t.cores = s.cores) (cur : t.cur = s.cur) (now : t.now = s.now) (phys : t.phys = s.phys)
    (host : t.host = s.host) (clusters : t.clusters = s.clusters) : storesKept s t :=
  ⟨cur, now, phys, host, clusters, fun c => by rw [State.coreAt, State.coreAt, cores]; exact coreStores_refl _⟩

theorem storesKept_refl (s : State) : storesKept s s := storesKept_of_cores rfl rfl rfl rfl rfl rfl

theorem storesKept_trans {s t u : State} (h : storesKept s t) (g : storesKept t u) : storesKept s u :=
  ⟨g.cur.trans h.cur, g.now.trans h.now, g.phys.trans h.phys, g.host.trans h.host, g.clusters.trans h.clusters,
    fun c => coreStores_trans (h.cores c) (g.cores c)⟩

theorem storesKept_of_onlyMine {s t : State} (h : onlyMine s t) : storesKept s t :=
  ⟨onlyMine_cur h, onlyMine_now h, (congrArg State.phys h.1 :), (congrArg State.host h.1 :), (congrArg State.clusters h.1 :),
    fun c => coreStores_of_coreKept (h.2.2.1 c)⟩

theorem storesKept_issued (s : State) (x : WordOf) : storesKept s (s.issued x) := storesKept_of_onlyMine (onlyMine_issued s x)

theorem storesKept_modCore (s : State) (c : Nat) {f : Core → Core} (kept : ∀ k, coreStores k (f k)) : storesKept s (s.modCore c f) := by
  refine ⟨rfl, rfl, rfl, rfl, rfl, fun d => ?_⟩
  by_cases hd : d = c
  · rw [hd, State.modCore, State.setCore_coreAt_same]
    exact kept _
  · rw [State.modCore, State.setCore_coreAt_other _ _ _ _ hd]
    exact coreStores_refl _

theorem storesKept_modThread (s : State) {ag : Agent} (cur : s.cur = ag) (f : Thread → Thread) : storesKept s (s.modThread ag f) := by
  subst cur
  exact storesKept_of_onlyMine (onlyMine_modThread s f)

theorem bytesKept_of_storesKept {s t : State} (h : storesKept s t) : bytesKept s t := by
  have mem (p : Place) : t.memOf p = s.memOf p := by
    cases p with
    | core c => exact (h.cores c).1
    | cluster k => simp only [State.memOf, State.clusterAt, h.clusters]
  have pend (p : Place) : t.pendOf p = s.pendOf p := by
    cases p with
    | core c => exact (h.cores c).2.1
    | cluster k => simp only [State.pendOf, State.clusterAt, h.clusters]
  exact ⟨fun _ => by rw [h.phys], fun _ => by rw [h.host], fun _ _ => by rw [mem], fun _ _ _ _ _ => by simp only [State.view, mem, pend]⟩

theorem storesKept_tilesInFlight {s t : State} (h : storesKept s t) (ag : Agent) : t.tilesInFlight ag = s.tilesInFlight ag := by
  cases ag with
  | req id => rfl
  | core c u =>
    obtain ⟨_, _, engs, vecs⟩ := h.cores c
    cases u with
    | zero => simp only [State.tilesInFlight, Core.tileEntries, engs, vecs]
    | succ n => rfl

/-! The executing thread. -/

theorem State.mine_of_cur {s : State} {ag : Agent} (cur : s.cur = ag) : s.threadOf ag = s.mine := by rw [State.mine, cur]

theorem State.modThread_mine {s : State} {ag : Agent} (cur : s.cur = ag) (f : Thread → Thread) : (s.modThread ag f).mine = f s.mine := by
  subst cur
  exact State.setThread_mine s _

theorem State.mine_congr {s t : State} (cores : t.cores = s.cores) (reqs : t.reqThreads = s.reqThreads) (cur : t.cur = s.cur) : t.mine = s.mine := by
  rw [State.mine, State.mine, cur]
  cases s.cur <;> simp only [State.threadOf, State.coreAt, State.reqAt, cores, reqs]

/-! The issue of a word whose effect is known. -/

theorem gate_go_run {x : WordOf} {s : State} (h : gate x s = .go) : s.mine.stat = .run := by
  have mine : s.threadOf s.cx.ag = s.mine := rfl
  cases e : s.mine.stat != .run with
  | false => simpa using e
  | true =>
    unfold gate at h
    simp only [mine, e, if_true] at h
    cases h

section
variable {i : Instr} {s t : State} {x : WordOf} {body : Cx → Fields → State → Verdict} (h : passes i s = true) (hw : i.word = some x)
include h hw

theorem passes_gate : gate x s = .go := by
  obtain ⟨_, _, _, y, hy, hg⟩ := passes_iff h
  rw [hw] at hy
  rwa [Option.some.inj hy]

theorem passes_run : s.mine.stat = .run := gate_go_run (passes_gate h hw)

/-- A word whose effect adds a few results, each of which lands alone, is over with that effect. -/
theorem issue_done_adds {l : List Flight} (hb : body s.cx x.w (s.issued x) = .done t) (cur : t.cur = s.cur)
    (tiles : t.tilesInFlight s.cur = s.tilesInFlight s.cur) (flight : t.mine.flight = s.mine.flight ++ l) (few : l.length ≤ 4)
    (alone : (s.cx.timed && s.wchk s.cx.c) = true → ∀ f ∈ l, ∀ r, f.dest.packed = some r → collideRecord s.mine r f.land = none) :
    issue i body s = .next t := by
  obtain ⟨notWaiting, room, owes, _⟩ := passes_iff h
  have mine : t.threadOf s.cur = t.mine := State.mine_of_cur cur
  refine issue_done hw notWaiting (passes_gate h hw) owes (by omega) hb ?_ ?_
  · have count : s.inFlight s.cur = s.mine.flight.length + s.tilesInFlight s.cur := rfl
    rw [State.inFlight, mine, flight, tiles, List.length_append]
    omega
  · cases watched : s.cx.timed && s.wchk s.cx.c with
    | false => exact lateCollision_none watched
    | true =>
      have ag : s.cx.ag = s.cur := rfl
      refine lateCollision_free fun f hf => ?_
      rw [ag, mine, flight, List.mem_append] at hf
      exact hf.imp_right (alone watched f)

/-- A word whose effect adds no result and changes no store is over with that effect. -/
theorem issue_done_kept (hb : body s.cx x.w (s.issued x) = .done t) (kept : storesKept s t) (flight : t.mine.flight = s.mine.flight) :
    issue i body s = .next t :=
  issue_done_adds (l := []) h hw hb kept.cur (storesKept_tilesInFlight kept _) (by rw [flight, List.append_nil]) (Nat.zero_le _) (fun _ _ hf => nomatch hf)

/-- A word that waits keeps its address. -/
theorem issue_wait_kept (hb : body s.cx x.w (s.issued x) = .wait t) (kept : storesKept s t) (flight : t.mine.flight = s.mine.flight) :
    issue i body s = .next (t.markWaiting s.cx) := by
  obtain ⟨notWaiting, room, owes, _⟩ := passes_iff h
  have count : s.inFlight s.cur = s.mine.flight.length + s.tilesInFlight s.cur := rfl
  refine issue_wait hw notWaiting (passes_gate h hw) owes (by omega) hb ?_
  have ag : s.cx.ag = s.cur := rfl
  rw [overfull, decide_eq_false_iff_not, ag, State.inFlight, State.mine_of_cur kept.cur, flight, storesKept_tilesInFlight kept]
  omega

/-- A word that finds a cause of its own takes its trap where it stands, and has done nothing. -/
theorem issue_traps {n : TrapInfo} (claim : n.claim = none) (hb : body s.cx x.w (s.issued x) = .trap n) :
    issue i body s = .next (s.takeTrap s.cur s.mine.pc n) := by
  obtain ⟨notWaiting, room, owes, _⟩ := passes_iff h
  have stays : s.conflictTrap n = s := by rw [State.conflictTrap, claim]
  rw [issue_trap hw notWaiting (passes_gate h hw) owes (by omega) hb, stays]
  rfl

end

theorem State.markWaiting_mine {t : State} {cx : Cx} (cur : t.cur = cx.ag) : (t.markWaiting cx).mine = { t.mine with waiting := true, pc := cx.pc } :=
  State.modThread_mine cur _

theorem storesKept_markWaiting {t : State} {cx : Cx} (cur : t.cur = cx.ag) : storesKept t (t.markWaiting cx) := storesKept_modThread t cur _

theorem onlyMine_markWaiting {t : State} {cx : Cx} (cur : t.cur = cx.ag) : onlyMine t (t.markWaiting cx) := by
  rw [State.markWaiting, ← cur]
  exact onlyMine_modThread t _

/-! A core that stands but for what the issue of a word changes. -/

theorem coreKept_eq {a b : Core} (h : coreKept a b) : ∃ threads budg spent issuedAt lend grant,
    b = { a with threads := threads, budg := budg, spent := spent, issuedAt := issuedAt, lend := lend, grant := grant } :=
  ⟨_, _, _, _, _, _, h⟩

end Sys2Proof.Machine
end

section
/-! When a word issues: its gate in untimed and in timed code (R66, R67, R68, R76, R136, R303). -/

namespace Sys2Proof.Machine

theorem wordDue_iff {s : State} {h : Hint} (due : wordDue s h = true) :
    s.mine.waiting = false ∧ s.mine.stat = .run ∧ owedTrap s s.cx = none ∧ s.mine.due (s.segOf s.cur s.mine.pc) h ≤ s.now := by
  simpa [wordDue, and_assoc] using due

/-- A thread without a timed segment is in none. -/
theorem cx_untimed {s : State} (h : untimedHere s = true) : s.cx.timed = false := by
  have seg : s.segOf s.cur s.mine.pc = none := by simpa [untimedHere] using h
  have timed : s.cx.timed = (s.segOf s.cur s.mine.pc).isSome := rfl
  rw [timed, seg, Option.isSome_none]

/-- A register without a write in flight has none that lands on any cycle. -/
theorem collideRecord_settled {th : Thread} {r : Nat} (h : th.outstanding r = none) (land : Nat) : collideRecord th r land = none := by
  rw [collideRecord, Option.map_eq_none_iff, List.find?_eq_none]
  intro f hf
  have other := List.find?_eq_none.mp h f hf
  simp_all

theorem windowRecord_settled {th : Thread} {r : Nat} (h : th.outstanding r = none) (now : Nat) : windowRecord th now r = none := by
  rw [windowRecord, h, Option.map_none]

theorem issues_of_gate {i : Instr} {x : WordOf} {s : State} (hw : i.word = some x) (due : wordDue s x.w.hint = true) (room : s.inFlight s.cur ≤ 28)
    (go : gate x s = .go) (alone : landsAlone i s = true) : issues i s = true := by
  obtain ⟨notWaiting, _, owes, _⟩ := wordDue_iff due
  simp [issues, passes, hw, notWaiting, room, owes, go, alone]

/-! The terms of a gate, by the names that the statement gives them. -/

theorem gate_beside (s : State) : (decide (1 ≤ s.cx.t) && decide (s.cx.t ≤ 10) && s.controlInTimed s.cx.c) = besideTimed s := rfl

theorem gate_reserve (s : State) :
    (if (decide (1 ≤ s.cx.t) && decide (s.cx.t ≤ 10) && s.controlInTimed s.cx.c) = true then ((s.kernelAt s.cx.c).states.getD (s.coreAt s.cx.c).state {}).resv else 0) = reserveHere s := rfl

theorem gate_debit (s : State) (x : WordOf) : (if budgeted s.cx.ag = true then wordUnits s s.cx x else 0) = debit s x := rfl

theorem gate_cause (s : State) (x : WordOf) :
    x.form.cause x.w (s.privileged s.cx.ag) (agentProfile s.cx.ag) s.cx.timed = encodingCause s x := rfl

theorem gate_thread (s : State) : s.threadOf s.cx.ag = s.mine := rfl

section
variable {x : WordOf} {s : State} (due : wordDue s x.w.hint = true) (cause : encodingCause s x = none)
include due cause

section
variable (untimed : untimedHere s = true) (units : debit s x + reserveHere s ≤ (s.coreAt s.cx.c).budg)
include untimed units

/-- An untimed word that finds its registers settled and its units there goes (R66, R67, R76, R136). -/
theorem gate_untimed_go (reads : s.mine.guardTrue x.w = true) (settled : registersSettled s x = true)
    (beside : besideTimed s = true → x.op / 64 ≠ 4 ∧ x.op / 64 ≠ 5) (notSend : x.op ≠ 0x248) (allowed : forbidden s.cx.t x = false) :
    gate x s = .go := by
  obtain ⟨_, run, _, dueNow⟩ := wordDue_iff due
  have timed := cx_untimed untimed
  have seg : s.segOf s.cx.ag s.cx.pc = none := Option.isNone_iff_eq_none.mp untimed
  have notLater : ¬ s.now < s.mine.due none x.w.hint := by
    rw [← seg]
    exact Nat.not_lt.mpr dueNow
  obtain ⟨board, guarded⟩ : scoreboard s.mine x = false ∧ (x.w.guardReg.any fun r => (s.mine.outstanding r).isSome) = false := by
    simpa [registersSettled] using settled
  have paid : ¬ (s.coreAt s.cx.c).budg < debit s x := by omega
  have kept : ¬ (s.coreAt s.cx.c).budg < debit s x + reserveHere s := by omega
  have notVector : (besideTimed s && (x.op / 64 == 4 || x.op / 64 == 5)) = false := by
    simpa using beside
  have otherWord : (x.op == 0x248) = false := by simpa using notSend
  simp only [gate, gate_thread, ↓gate_reserve, gate_beside, gate_debit, gate_cause, cause]
  simp [seg, timed, run, reads, notLater, board, guarded, paid, kept, notVector, otherWord, allowed]

/-- An untimed word whose guard reads false is passed over (R66). -/
theorem gate_untimed_skip (reads : s.mine.guardTrue x.w = false) (guarded : (x.w.guardReg.any fun r => (s.mine.outstanding r).isSome) = false) :
    gate x s = .skip := by
  obtain ⟨_, run, _, dueNow⟩ := wordDue_iff due
  have timed := cx_untimed untimed
  have seg : s.segOf s.cx.ag s.cx.pc = none := Option.isNone_iff_eq_none.mp untimed
  have notLater : ¬ s.now < s.mine.due none x.w.hint := by
    rw [← seg]
    exact Nat.not_lt.mpr dueNow
  have paid : ¬ (s.coreAt s.cx.c).budg < debit s x := by omega
  have kept : ¬ (s.coreAt s.cx.c).budg < debit s x + reserveHere s := by omega
  simp only [gate, gate_thread, ↓gate_reserve, gate_beside, gate_debit, gate_cause, cause]
  simp [seg, timed, run, reads, notLater, guarded, paid, kept]

end

/-- A timed word of the control context that is due, in a segment that has begun or begins, finds no write in flight and its units there: it goes
(R68, R69, R136, R303). -/
theorem gate_timed_go {c : Nat} {g : Seg} (control : s.cur = .core c 0) (inSegment : s.segOf s.cur s.mine.pc = some g)
    (settled : ∀ r ∈ x.w.guardReg ++ x.form.reads x.w ++ x.form.writes x.w, s.mine.outstanding r = none) (reads : s.mine.guardTrue x.w = true)
    (units : debit s x ≤ (s.coreAt c).budg) (notSend : x.op ≠ 0x248) (mayBeTimed : x.form.untimed = false) (allowed : forbidden 0 x = false)
    (later : s.mine.seg = some g.first → x.w.hint.delta ≠ 0) (anchored : s.mine.seg ≠ some g.first → s.mine.fresh = true) : gate x s = .go := by
  obtain ⟨_, run, _, dueNow⟩ := wordDue_iff due
  have core : s.cx.c = c := by simp only [State.cx, control, State.coreOf]
  have thread : s.cx.t = 0 := by simp only [State.cx, control, agentThread]
  have seg : s.segOf s.cx.ag s.cx.pc = some g := inSegment
  have timed : s.cx.timed = true := Option.isSome_iff_exists.mpr ⟨g, inSegment⟩
  have notLater : ¬ s.now < s.mine.due (some g) x.w.hint := by
    rw [← inSegment]
    exact Nat.not_lt.mpr dueNow
  have begun : (s.mine.seg != some g.first && !s.mine.fresh) = false := by
    simpa using anchored
  have ordered : (s.mine.seg == some g.first && x.w.hint.delta == 0) = false := by
    simpa using later
  have alone : besideTimed s = false := by simp [besideTimed, thread]
  have guardOpen : x.w.guardReg.findSome? (windowRecord s.mine s.now) = none :=
    List.findSome?_eq_none_iff.mpr fun r hr => windowRecord_settled (settled r (by simp [hr])) _
  have readsOpen : (x.form.reads x.w).findSome? (windowRecord s.mine s.now) = none :=
    List.findSome?_eq_none_iff.mpr fun r hr => windowRecord_settled (settled r (by simp [hr])) _
  have writesOpen : (x.form.writes x.w).findSome? (fun r => collideRecord s.mine r (s.now + x.form.lat)) = none :=
    List.findSome?_eq_none_iff.mpr fun r hr => collideRecord_settled (settled r (by simp [hr])) _
  have paid : ¬ (s.coreAt c).budg < debit s x := by omega
  have otherWord : (x.op == 0x248) = false := by simpa using notSend
  simp only [gate, gate_thread, ↓gate_reserve, gate_beside, gate_debit, gate_cause, cause]
  simp [reserveHere, seg, timed, run, reads, notLater, begun, ordered, alone, guardOpen, readsOpen, writesOpen, paid, otherWord, allowed, mayBeTimed,
    thread, core]

end

/-! The obligation's clauses. -/

theorem landsAlone_untimed {i : Instr} {s : State} (untimed : untimedHere s = true) : landsAlone i s = true := by
  simp [landsAlone, cx_untimed untimed]

theorem landsAlone_settled {i : Instr} {x : WordOf} {s : State} (hw : i.word = some x)
    (settled : ∀ r ∈ x.form.writes x.w, s.mine.outstanding r = none) : landsAlone i s = true := by
  have free : (x.form.writes x.w).all (fun r => (s.mine.outstanding r).isNone) = true :=
    List.all_eq_true.mpr fun r hr => by rw [settled r hr, Option.isNone_none]
  simp [landsAlone, hw, free]

/-! A word that is passed over. What three kinds of words do after their issue concerns a thread that has trapped. -/

theorem afterWait_running {cx : Cx} {t : State} (running : (t.self cx).stat = .run) (j : Nat) : afterWait cx j (.next t) = .next t := by
  cases trap : (t.self cx).trap with
  | none => simp [afterWait, trap]
  | some r => simp [afterWait, trap, running]

theorem burinIssue_running {i : Instr} {body : Cx → Fields → State → Verdict} {s t : State} (next : issue i body s = .next t)
    (running : (t.self s.cx).stat = .run) : burinIssue i body s = .next t := by
  unfold burinIssue
  simp only [next, running]
  cases (t.self s.cx).trap with
  | none => rfl
  | some r => simp

theorem execWaitb_running {w : Fields} {s t : State} (next : issue (.waitb w) waitbBody s = .next t) (running : (t.self s.cx).stat = .run) :
    execWaitb w s = .next t := by
  unfold execWaitb
  simp only [next, running]
  cases (t.self s.cx).trap with
  | none => rfl
  | some r => simp

/-- Where a word's issue, whatever its effect, leaves a thread that runs, the word's execution is its issue. -/
theorem exec_of_issue {i : Instr} {x : WordOf} {s t : State} (hw : i.word = some x) (next : ∀ body, issue i body s = .next t)
    (running : (t.self s.cx).stat = .run) : exec i s = .next t := by
  cases i
  case waitb w => exact execWaitb_running (next _) running
  case bkld w => exact burinIssue_running (next _) running
  case bkarm w => exact burinIssue_running (next _) running
  case bar w => exact (congrArg (afterWait s.cx w.a.immInt.toNat) (next _)).trans (afterWait_running running _)
  case barw w => exact (congrArg (afterWait s.cx w.a.immInt.toNat) (next _)).trans (afterWait_running running _)
  all_goals cases hw
  all_goals delta exec
  all_goals exact next _

theorem issue_skip {i : Instr} {x : WordOf} {s : State} (hw : i.word = some x) (due : wordDue s x.w.hint = true) (skip : gate x s = .skip)
    (body : Cx → Fields → State → Verdict) : issue i body s = .next (s.issued x) := by
  obtain ⟨notWaiting, _, owes, _⟩ := wordDue_iff due
  have first : s.cx.again = false := notWaiting
  simp only [issue, hw, first, skip, owes, Bool.false_eq_true, if_false]

theorem exec_skip {i : Instr} {x : WordOf} {s : State} (hw : i.word = some x) (due : wordDue s x.w.hint = true) (skip : gate x s = .skip) :
    exec i s = .next (s.issued x) := by
  obtain ⟨_, run, _, _⟩ := wordDue_iff due
  have thread : (s.issued x).self s.cx = s.mine.issued (s.segOf s.cur s.mine.pc) x.w.hint s.now := State.issued_threadOf s x
  exact exec_of_issue hw (issue_skip hw due skip) (by rw [thread, Thread.issued_stat, run])

theorem State.issued_agenda (s : State) (x : WordOf) : (s.issued x).agenda = s.agenda := by
  cases hc : s.cur with
  | core c k =>
    obtain ⟨_, issued⟩ := State.issued_core_eq hc x
    rw [issued]
  | req id => rw [State.issued_eq_req hc, State.setThread_agenda]

theorem State.issued_budg {s : State} {c u : Nat} (hc : s.cur = .core c u) (x : WordOf) :
    ((s.issued x).coreAt c).budg = (s.coreAt c).budg - debit s x := by
  rw [State.issued_eq_core hc, State.modCore, State.setCore_coreAt_same, hc]
  simp only [State.setThread, State.modCore, State.setCore_coreAt_same, Core.setThread_budg]
  rw [debit, hc]

/-- An untimed word whose guard reads false moves the pc on and debits its class, and does nothing else (R66). -/
theorem exec_guardFalse {i : Instr} {x : WordOf} {s : State} (hw : i.word = some x) (due : wordDue s x.w.hint = true) (skip : gate x s = .skip) :
    ∃ t, exec i s = .next t ∧ t.mine.pc = s.mine.pc + 1 ∧ t.mine.flight = s.mine.flight ∧ registersKept s.mine t.mine ∧
      t.mine.fflg = s.mine.fflg ∧ (∀ c u, s.cur = .core c u → (t.coreAt c).budg = (s.coreAt c).budg - debit s x) ∧ t.agenda = s.agenda ∧
      onlyMine s t ∧ bytesKept s t := by
  refine ⟨_, exec_skip hw due skip, ?_, ?_, ?_, ?_, fun c u hc => State.issued_budg hc x, State.issued_agenda s x, onlyMine_issued s x,
    onlyMine_bytesKept (onlyMine_issued s x)⟩
  all_goals simp [State.issued_mine, registersKept]

/-- Settles O27: the gate of R353, followed check by check, lets the word go or passes it over. -/
theorem wordIssuesWhenItIsDue : Obligations.WordIssuesWhenItIsDue :=
  ⟨fun _ _ _ hw due untimed room cause reads settled units beside notSend allowed =>
      issues_of_gate hw due room (gate_untimed_go due cause untimed units reads settled beside notSend allowed) (landsAlone_untimed untimed),
    fun _ _ _ _ _ control hw due inSegment room settled cause reads units notSend mayBeTimed allowed later anchored =>
      issues_of_gate hw due room
        (gate_timed_go due cause control inSegment settled reads units notSend mayBeTimed allowed later anchored)
        (landsAlone_settled hw fun r hr => settled r (List.mem_append_right _ hr)),
    fun _ _ _ hw due untimed cause guarded reads units => exec_guardFalse hw due (gate_untimed_skip due cause untimed units reads guarded)⟩

end Sys2Proof.Machine
end

section
/-! SRR, SRW and SETSZ (R63, R131, R152, R277, R281, R348). -/

namespace Sys2Proof.Machine

section
variable (w : Fields) (s : State)

theorem exec_srr : exec (.srr w) s = execSrr w s := rfl
theorem exec_srw : exec (.srw w) s = execSrw w s := rfl
theorem exec_setsz : exec (.setsz w) s = execSetsz w s := rfl

theorem word_srr : (Instr.srr w).word = some ⟨0x301, fSrr, w⟩ := rfl
theorem word_srw : (Instr.srw w).word = some ⟨0x302, fSrw, w⟩ := rfl
theorem word_setsz : (Instr.setsz w).word = some ⟨0x2d0, fSetsz, w⟩ := rfl

end

/-! A word with one result: the state that it leaves. -/

/-- The state in which a word has issued and its one result is in flight. -/
def State.resulted (s : State) (x : WordOf) (d : Dest) (v : Word) (lat : Nat) : State := (s.issued x).land s.cur s.mine.pc d v true lat

theorem onlyMine_resulted (s : State) (x : WordOf) (d : Dest) (v : Word) (lat : Nat) : onlyMine s (s.resulted x d v lat) := by
  have landed := onlyMine_land (s.issued x) s.mine.pc d v true lat
  rw [State.issued_cur] at landed
  exact onlyMine_trans (onlyMine_issued s x) landed

theorem State.resulted_mine (s : State) (x : WordOf) (d : Dest) (v : Word) (lat : Nat) : (s.resulted x d v lat).mine =
    { (s.issued x).mine with flight := s.mine.flight ++
        [{ dest := d, value := v, push := true, land := s.now + lat, word := s.mine.pc, seq := (s.issued x).fresh, lat := lat }] } := by
  have landed := State.land_mine (s.issued x) s.mine.pc d v true lat
  rw [State.issued_cur] at landed
  rw [State.resulted, landed, State.issued_mine, Thread.issued_flight, State.issued_now]

theorem State.resulted_lands (s : State) (x : WordOf) (d : Dest) (v : Word) (lat : Nat) : lands s (s.resulted x d v lat) d v true lat := by
  have due := State.land_dueAt (s.issued x) s.cur s.mine.pc d v true lat
  rw [State.issued_now] at due
  exact ⟨_, congrArg Thread.flight (State.resulted_mine s x d v lat), rfl, rfl, rfl, rfl, rfl, rfl, due⟩

/-- A scalar word whose result lands on its one latency leaves that result in flight, and nothing else (R25, R64). -/
theorem issue_resulted {i : Instr} {s : State} {body : Cx → Fields → State → Verdict} {x : WordOf} {d : Dest} {v : Word} {lat : Nat}
    (h : issues i s = true) (hw : i.word = some x) (hb : body s.cx x.w (s.issued x) = result s.cx d v lat (s.issued x))
    (writes : ∀ r, d.packed = some r → r ∈ x.form.writes x.w) (fixed : x.form.lat = lat) (nonzero : lat ≠ 0) :
    issue i body s = .next (s.resulted x d v lat) := by
  have only := onlyMine_resulted s x d v lat
  refine issue_done_adds (issues_iff h).1 hw hb (onlyMine_cur only) (storesKept_tilesInFlight (storesKept_of_onlyMine only) _)
    (congrArg Thread.flight (State.resulted_mine s x d v lat)) (Nat.le_add_left 1 3) fun watched f hf r hr => ?_
  obtain rfl := List.mem_singleton.mp hf
  exact result_alone h hw writes fixed nonzero watched r hr

section
variable (s : State) (x : WordOf) (d : Dest) (v : Word) (lat : Nat)

theorem State.resulted_pc : (s.resulted x d v lat).mine.pc = s.mine.pc + 1 := by
  simp only [State.resulted_mine, State.issued_mine, Thread.issued_pc]

theorem State.resulted_registersKept : registersKept s.mine (s.resulted x d v lat).mine := by
  simp [State.resulted_mine, State.issued_mine, registersKept]

end

/-! A destination register is among those that its word writes (R156). -/

theorem Form.cause_none_bad2 {f : Form} {w : Fields} {priv timed : Bool} {p : Profile} (h : f.cause w priv p timed = none) : f.a.bad2 w.a = false := by
  cases bad : f.a.bad2 w.a with
  | false => rfl
  | true =>
    simp only [Form.cause, bad, Bool.true_or, if_true] at h
    repeat (split at h <;> try contradiction)

theorem Form.dest_mem_writes {f : Form} {w : Fields} {priv timed : Bool} {p : Profile} (h : f.cause w priv p timed = none) (ha : f.a = pDst) {r : Nat}
    (hr : (Dest.n w.a.num).packed = some r) : r ∈ f.writes w := by
  obtain rfl : w.a.num = r := Option.some.inj hr
  have kind : w.a.kind = .nreg := by
    have good := Form.cause_none_bad2 h
    rw [ha] at good
    simp only [Pos.bad2, Pos.present, pDst, List.isEmpty_cons, Bool.not_false, Bool.false_and, Bool.true_and, Bool.or_eq_false_iff] at good
    simpa using good.1
  simp [Form.writes, ha, Pos.present, pDst, operandRegs, kind]

/-! SRR (R63, R152). -/

/-- A core's thread reads the register that SRR names as it stands at the issue; the value lands on the second cycle. -/
theorem exec_srr_resulted {w : Fields} {s : State} {v : Word} (h : issues (.srr w) s = true)
    (hv : (∃ c k, s.cur = .core c k ∧ v = BitVec.ofNat 64 (specialValue (s.issued ⟨0x301, fSrr, w⟩) s.cx w.b.num)) ∨
      ∃ id, s.cur = .req id ∧ w.b.num = 0x001 ∧ v = BitVec.ofNat 64 s.now) :
    exec (.srr w) s = .next (s.resulted ⟨0x301, fSrr, w⟩ (.n w.a.num) v 2) := by
  have agent : s.cx.ag = s.cur := rfl
  rw [exec_srr, execSrr]
  refine issue_resulted h (word_srr w) ?_ (fun r hr => Form.dest_mem_writes (gate_go (issues_gate h (word_srr w))).1 rfl hr) rfl (by decide)
  rcases hv with ⟨c, k, hc, rfl⟩ | ⟨id, hc, number, rfl⟩
  · simp only [agent, hc]
  · simp only [agent, hc, number, State.issued_now]

/-- What a core's issue of a word leaves: the thread with its pc moved on, and of the core, all but what the issue changes. -/
theorem State.issued_coreAt (s : State) (x : WordOf) (c : Nat) : ∃ threads budg spent issuedAt lend grant, (s.issued x).coreAt c =
    { s.coreAt c with threads := threads, budg := budg, spent := spent, issuedAt := issuedAt, lend := lend, grant := grant } :=
  coreKept_eq ((onlyMine_issued s x).2.2.1 c)

theorem onlyMine_contextAt {s t : State} (h : onlyMine s t) (x : Nat) : t.contextAt x = s.contextAt x := (congrArg (State.contextAt · x) h.1 :)

theorem onlyMine_groupOfCore {s t : State} (h : onlyMine s t) (c : Nat) : t.groupOfCore c = s.groupOfCore c := by
  have grp : (t.coreAt c).grp = (s.coreAt c).grp := (congrArg Core.grp (h.2.2.1 c) :)
  rw [State.groupOfCore, State.groupOfCore, grp]

theorem State.ctxOf_core {s : State} (c k : Nat) : s.ctxOf (.core c k) = s.groupOfCore c / 256 := rfl

theorem onlyMine_ctxOf {s t : State} (h : onlyMine s t) (c k : Nat) : t.ctxOf (.core c k) = s.ctxOf (.core c k) := by
  rw [State.ctxOf_core, State.ctxOf_core, onlyMine_groupOfCore h]

/-- Outside the trap context the context alone gives the privileged view (R347). -/
theorem State.privileged_core {s : State} {c k : Nat} (h : k ≠ 11) : s.privileged (.core c k) = (s.ctxOf (.core c k) == 0) := by
  unfold State.privileged
  split
  case h_1 same =>
    cases same
    contradiction
  case h_2 => rfl

section
variable {s : State} {c k : Nat} (hc : s.cur = .core c k) (x : WordOf)
include hc

theorem State.cx_core : s.cx.c = c := by simp only [State.cx, hc, State.coreOf]

theorem specialValue_issued {r n : Nat} (read : specialRead s r = some n) : specialValue (s.issued x) s.cx r = n := by
  have only := onlyMine_issued s x
  have agent : s.cx.ag = .core c k := hc
  have thread : (s.issued x).self s.cx = (s.issued x).mine := by rw [State.mine, State.issued_cur]; rfl
  obtain ⟨_, _, _, _, _, _, core⟩ := State.issued_coreAt s x c
  have group := onlyMine_groupOfCore only c
  unfold specialRead at read
  simp only [State.cx_core hc, hc] at read
  split at read <;> cases read
  all_goals
    simp [specialValue, agent, thread, State.cx_core hc, State.issued_mine, core, group, onlyMine_ctxOf only, onlyMine_contextAt only, onlyMine_groupAt only]


theorem specialValue_budg : specialValue (s.issued x) s.cx 0x008 = ((s.issued x).coreAt c).budg := by
  simp [specialValue, State.cx_core hc]

theorem specialValue_stage {j : Nat} (hj : j < 8) : specialValue (s.issued x) s.cx (0x010 + j) = ((s.coreAt c).stage j).word := by
  obtain ⟨_, _, _, _, _, _, core⟩ := State.issued_coreAt s x c
  have stage : ((s.issued x).coreAt c).stage j = (s.coreAt c).stage j := by rw [core]; rfl
  unfold specialValue
  rw [if_pos (by omega), State.cx_core hc, Nat.add_sub_cancel_left, stage]

theorem specialValue_depst : specialValue (s.issued x) s.cx 0x00A = depstWord (s.coreAt c) s.now := by
  obtain ⟨_, _, _, _, _, _, core⟩ := State.issued_coreAt s x c
  have depst : depstWord ((s.issued x).coreAt c) s.now = depstWord (s.coreAt c) s.now := by rw [core]; rfl
  simp [specialValue, State.cx_core hc, depst]

theorem State.issued_privileged : (s.issued x).privileged s.cur = s.privileged s.cur := by
  have inTrap : ((s.issued x).coreAt c).inTrap = (s.coreAt c).inTrap := (congrArg Core.inTrap ((onlyMine_issued s x).2.2.1 c) :)
  have ctx := onlyMine_ctxOf (onlyMine_issued s x) c k
  rw [hc]
  by_cases trap : k = 11
  · subst trap
    simp only [State.privileged, inTrap, ctx]
  · rw [State.privileged_core trap, State.privileged_core trap, ctx]

end

/-! The fields of the words that SRR reads (R86, R131, R348). -/

theorem extractLsb'_ofNat_word (n lo len : Nat) : ((BitVec.ofNat 64 n).extractLsb' lo len).toNat = n % 2 ^ 64 / 2 ^ lo % 2 ^ len := by
  rw [BitVec.extractLsb'_toNat, BitVec.toNat_ofNat, Nat.shiftRight_eq_div_pow]

/-- Four fields side by side are read where they were put. -/
theorem stageFields {a r f n : Nat} (ha : a < 2 ^ 12) (hr : r < 2 ^ 8) (hf : f < 2 ^ 16) :
    let v := (a * 2 ^ 52 + r * 2 ^ 44 + f * 2 ^ 28 + n % 2 ^ 17) % 2 ^ 64
    v / 2 ^ 52 % 2 ^ 12 = a ∧ v / 2 ^ 44 % 2 ^ 8 = r ∧ v / 2 ^ 28 % 2 ^ 16 = f ∧ v / 2 ^ 0 % 2 ^ 17 = n % 2 ^ 17 := by
  refine ⟨?_, ?_, ?_, ?_⟩ <;> omega

/-- A stage barrier's word holds its fields where R131 puts them. -/
theorem stageWord_word {b : Sbs} (hs : b.s < 2 ^ 12) (hr : b.rows < 2 ^ 8) : stageWord b (BitVec.ofNat 64 b.word) := by
  obtain ⟨stages, rows, fills, counts⟩ := stageFields (n := b.counts.headD 0) hs hr b.fills.isLt
  refine ⟨?_, ?_, ?_, ?_⟩
  · exact BitVec.eq_of_toNat_eq (by rw [extractLsb'_ofNat_word, BitVec.toNat_ofNat, Nat.mod_eq_of_lt hs]; exact stages)
  · exact BitVec.eq_of_toNat_eq (by rw [extractLsb'_ofNat_word, BitVec.toNat_ofNat, Nat.mod_eq_of_lt hr]; exact rows)
  · exact BitVec.eq_of_toNat_eq (by rw [extractLsb'_ofNat_word]; exact fills)
  · exact BitVec.eq_of_toNat_eq (by rw [extractLsb'_ofNat_word, BitVec.toNat_ofNat]; exact counts)

/-- A bit of a number of 64 bits. -/
theorem getLsbD_ofNat_word (n : Nat) {i : Nat} (hi : i < 64) : (BitVec.ofNat 64 n).getLsbD i = decide (n / 2 ^ i % 2 = 1) := by
  rw [BitVec.getLsbD_ofNat, decide_eq_true hi, Bool.true_and, Nat.testBit_eq_decide_div_mod_eq]

/-- DEPST holds its three fields where R86 puts them. -/
theorem depstWord_fields (k : Core) (now : Nat) : (BitVec.ofNat 64 (depstWord k now)).getLsbD 16 = k.dcol ∧
    (BitVec.ofNat 64 (depstWord k now)).extractLsb' 8 8 = k.arv ∧ (BitVec.ofNat 64 (depstWord k now)).extractLsb' 0 8 = k.enAt now := by
  have arv : k.arv.toNat < 2 ^ 8 := k.arv.isLt
  have en : (k.enAt now).toNat < 2 ^ 8 := (k.enAt now).isLt
  unfold depstWord
  refine ⟨?_, ?_, ?_⟩
  · rw [getLsbD_ofNat_word _ (by decide)]
    cases k.dcol <;> simp only [Bool.false_eq_true, if_true, if_false, decide_eq_true_eq, decide_eq_false_iff_not] <;> omega
  · refine BitVec.eq_of_toNat_eq ?_
    rw [extractLsb'_ofNat_word]
    split <;> omega
  · refine BitVec.eq_of_toNat_eq ?_
    rw [extractLsb'_ofNat_word]
    split <;> omega

/-- The four lowest bits of a number whose other fields lie above them. -/
theorem lowBits (h : Nat) (d c b a : Bool) :
    let v := h * 2 ^ 12 + (if d then 2 ^ 3 else 0) + (if c then 2 ^ 2 else 0) + (if b then 2 ^ 1 else 0) + (if a then 2 ^ 0 else 0)
    decide (v / 2 ^ 1 % 2 = 1) = b ∧ decide (v / 2 ^ 0 % 2 = 1) = a ∧ decide (v / 2 ^ 2 % 2 = 1) = c := by
  refine ⟨?_, ?_, ?_⟩ <;> cases d <;> cases c <;> cases b <;> cases a <;>
    simp only [Bool.false_eq_true, if_true, if_false, decide_eq_true_eq, decide_eq_false_iff_not] <;> omega

/-- CTL's bits 0 to 2 (R348). -/
theorem ctlWord_bits (s : State) (cx : Cx) : (BitVec.ofNat 64 (ctlWord s cx)).getLsbD 1 = s.privileged cx.ag ∧
    (BitVec.ofNat 64 (ctlWord s cx)).getLsbD 0 = (s.contextAt (s.ctxOf cx.ag)).wchk ∧
    (BitVec.ofNat 64 (ctlWord s cx)).getLsbD 2 = (s.coreAt cx.c).inTrap.isSome := by
  have above : (s.contextAt (s.ctxOf cx.ag)).allow * 2 ^ 32 + s.ctxOf cx.ag * 2 ^ 24 + cx.t % 16 * 2 ^ 12 =
      ((s.contextAt (s.ctxOf cx.ag)).allow * 2 ^ 20 + s.ctxOf cx.ag * 2 ^ 12 + cx.t % 16) * 2 ^ 12 := by omega
  simp only [getLsbD_ofNat_word _ (show 1 < 64 by decide), getLsbD_ofNat_word _ (show 0 < 64 by decide), getLsbD_ofNat_word _ (show 2 < 64 by decide)]
  unfold ctlWord
  simp only [above]
  exact lowBits _ _ _ _ _

/-! SRR's clauses. -/

/-- A result in flight changes the thread alone. -/
theorem State.land_budg (s : State) (ag : Agent) (word : Nat) (d : Dest) (v : Word) (push : Bool) (lat c : Nat) :
    ((s.land ag word d v push lat).coreAt c).budg = (s.coreAt c).budg := by
  rw [State.land_eq, State.at_coreAt]
  cases ag with
  | req id => rfl
  | core b u =>
    by_cases same : c = b
    · subst same
      rw [State.setThread, State.modCore, State.setCore_coreAt_same]
      rfl
    · rw [State.setThread, State.modCore, State.setCore_coreAt_other _ _ _ _ same]
      rfl

section
variable {w : Fields} {s : State} (h : issues (.srr w) s = true)
include h

theorem exec_srr_named {c k n : Nat} (hc : s.cur = .core c k) (read : specialRead s w.b.num = some n) :
    ∃ t, exec (.srr w) s = .next t ∧ lands s t (.n w.a.num) (BitVec.ofNat 64 n) true 2 ∧ t.mine.pc = s.mine.pc + 1 ∧ registersKept s.mine t.mine ∧
      onlyMine s t ∧ bytesKept s t := by
  have only := onlyMine_resulted s ⟨0x301, fSrr, w⟩ (.n w.a.num) (BitVec.ofNat 64 n) 2
  exact ⟨_, exec_srr_resulted h (.inl ⟨c, k, hc, by rw [specialValue_issued hc _ read]⟩), State.resulted_lands _ _ _ _ _, State.resulted_pc _ _ _ _ _,
    State.resulted_registersKept _ _ _ _ _, only, onlyMine_bytesKept only⟩

theorem exec_srr_fields {c k : Nat} (hc : s.cur = .core c k) :
    ∃ t v, exec (.srr w) s = .next t ∧ lands s t (.n w.a.num) v true 2 ∧
      (w.b.num = 0x008 → v = BitVec.ofNat 64 (t.coreAt c).budg) ∧
      (∀ j < 8, w.b.num = 0x010 + j → ((s.coreAt c).stage j).s < 2 ^ 12 → ((s.coreAt c).stage j).rows < 2 ^ 8 → stageWord ((s.coreAt c).stage j) v) ∧
      (w.b.num = 0x00A → v.getLsbD 16 = (s.coreAt c).dcol ∧ v.extractLsb' 8 8 = (s.coreAt c).arv ∧ v.extractLsb' 0 8 = (s.coreAt c).enAt s.now) ∧
      (w.b.num = 0x100 → v.getLsbD 1 = s.privileged s.cur ∧ v.getLsbD 0 = (s.contextAt (s.ctxOf s.cur)).wchk ∧
        v.getLsbD 2 = (s.coreAt c).inTrap.isSome) ∧
      t.mine.pc = s.mine.pc + 1 ∧ registersKept s.mine t.mine ∧ onlyMine s t ∧ bytesKept s t := by
  obtain ⟨v, value⟩ : ∃ v, v = BitVec.ofNat 64 (specialValue (s.issued ⟨0x301, fSrr, w⟩) s.cx w.b.num) := ⟨_, rfl⟩
  have issued := onlyMine_issued s ⟨0x301, fSrr, w⟩
  have only := onlyMine_resulted s ⟨0x301, fSrr, w⟩ (.n w.a.num) v 2
  refine ⟨_, v, exec_srr_resulted h (.inl ⟨c, k, hc, value⟩), State.resulted_lands _ _ _ _ _, fun number => ?_, fun j hj number stages rows => ?_,
    fun number => ?_, fun number => ?_, State.resulted_pc _ _ _ _ _, State.resulted_registersKept _ _ _ _ _, only, onlyMine_bytesKept only⟩
  · rw [State.resulted, State.land_budg, value, number, specialValue_budg hc]
  · rw [value, number, specialValue_stage hc _ hj]
    exact stageWord_word stages rows
  · rw [value, number, specialValue_depst hc]
    exact depstWord_fields _ _
  · have ctl : specialValue (s.issued ⟨0x301, fSrr, w⟩) s.cx 0x100 = ctlWord (s.issued ⟨0x301, fSrr, w⟩) s.cx := by simp [specialValue]
    have agent : s.cx.ag = s.cur := rfl
    have inTrap : ((s.issued ⟨0x301, fSrr, w⟩).coreAt c).inTrap = (s.coreAt c).inTrap := (congrArg Core.inTrap (issued.2.2.1 c) :)
    have context : (s.issued ⟨0x301, fSrr, w⟩).contextAt ((s.issued ⟨0x301, fSrr, w⟩).ctxOf s.cur) = s.contextAt (s.ctxOf s.cur) := by
      rw [hc, onlyMine_ctxOf issued, onlyMine_contextAt issued]
    obtain ⟨privileged, wchk, trap⟩ := ctlWord_bits (s.issued ⟨0x301, fSrr, w⟩) s.cx
    rw [value, number, ctl]
    rw [agent] at privileged wchk
    exact ⟨privileged.trans (State.issued_privileged hc _), wchk.trans (by rw [context]), trap.trans (by rw [State.cx_core hc, inTrap])⟩

/-- A request thread reads CYC (R128). -/
theorem exec_srr_request {id : Nat} (hc : s.cur = .req id) (number : w.b.num = 0x001) :
    ∃ t, exec (.srr w) s = .next t ∧ lands s t (.n w.a.num) (BitVec.ofNat 64 s.now) true 2 ∧ registersKept s.mine t.mine ∧ onlyMine s t :=
  ⟨_, exec_srr_resulted h (.inr ⟨id, hc, number, rfl⟩), State.resulted_lands _ _ _ _ _, State.resulted_registersKept _ _ _ _ _,
    onlyMine_resulted _ _ _ _ _⟩

end

/-! SRW (R63, R86, R348). -/

/-- A map from which keys are taken out by a test of the key. -/
theorem find_filter_key {α : Type} (m : SMap α) (p : Nat → Bool) (k : Nat) :
    SMap.find (m.filter fun e => p e.1) k = if p k = true then SMap.find m k else none := by
  induction m with
  | nil => simp [SMap.find]
  | cons e rest ih =>
    obtain ⟨j, v⟩ := e
    by_cases same : j = k
    · subst same
      cases keep : p j <;> simp [SMap.find, keep, ih]
    · cases keep : p j <;> simp [SMap.find, keep, ih, same]

/-- What CTL sets in a core that runs the context (R348). -/
def State.setControl (s : State) (v : Word) (c : Nat) : State :=
  s.modCore c fun k => { k with allow := clampAllow (v.toNat / 2 ^ 32 % 2 ^ 17), wchk := v.getLsbD 0 }

theorem State.setControl_contextAt (s : State) (v : Word) (c x : Nat) : (s.setControl v c).contextAt x = s.contextAt x := rfl

theorem State.setControl_mine (s : State) (v : Word) (c : Nat) : (s.setControl v c).mine = s.mine := State.modCore_mine s c fun _ _ => rfl

theorem State.setCtl_eq (s : State) (x : Nat) (v : Word) : s.setCtl x v =
    (s.coresOf x).foldl (fun u c => u.setControl v c)
      (s.modContext x fun c => { c with allow := clampAllow (v.toNat / 2 ^ 32 % 2 ^ 17), wchk := v.getLsbD 0 }) := rfl

theorem State.setCtl_contextAt (s : State) (x : Nat) (v : Word) : (s.setCtl x v).contextAt x =
    { s.contextAt x with allow := clampAllow (v.toNat / 2 ^ 32 % 2 ^ 17), wchk := v.getLsbD 0 } := by
  rw [State.setCtl_eq, foldl_keeps (State.contextAt · x) fun u c => State.setControl_contextAt u v c x, State.modContext,
    State.setContext_contextAt_same]

theorem State.setCtl_mine (s : State) (x : Nat) (v : Word) : (s.setCtl x v).mine = s.mine := by
  rw [State.setCtl_eq, foldl_keeps State.mine fun u c => State.setControl_mine u v c]
  rfl

theorem storesKept_setCtl (s : State) (x : Nat) (v : Word) : storesKept s (s.setCtl x v) := by
  rw [State.setCtl_eq]
  exact List.foldlRecOn _ _ (storesKept_of_cores rfl rfl rfl rfl rfl rfl) fun u kept c _ =>
    storesKept_trans kept (storesKept_modCore u c fun _ => ⟨rfl, rfl, rfl, rfl⟩)

section
variable {s : State} {cx : Cx} (cur : s.cur = cx.ag) (r : Nat) (v : Word)
include cur

/-- Of the thread, SRW writes VL and FFLG alone. -/
theorem writeSpecial_mine : (writeSpecial s cx r v).mine =
    { s.mine with vl := if r = 0x000 then v.setWidth 16 else s.mine.vl,
                  fflg := if r = 0x009 then s.mine.fflg &&& ~~~(v.setWidth 8) else s.mine.fflg } := by
  unfold writeSpecial
  dsimp only
  split
  case h_1 => exact State.modThread_mine cur _
  case h_2 => exact State.modThread_mine cur _
  case h_3 => exact State.modCore_mine s cx.c fun _ _ => rfl
  case h_4 => exact State.setCtl_mine s _ v
  case h_5 => exact State.modCore_mine s cx.c fun _ _ => rfl
  case h_6 => rfl
  case h_7 => exact State.modCore_mine s cx.c fun _ _ => rfl
  case h_8 => exact State.modCore_mine s cx.c fun _ _ => rfl
  case h_9 => rfl
  case h_10 vl fflg _ _ _ _ _ _ _ => rw [if_neg vl, if_neg fflg]

/-- SRW touches no store. -/
theorem storesKept_writeSpecial : storesKept s (writeSpecial s cx r v) := by
  have core (f : Core → Core) (kept : ∀ k, coreStores k (f k)) : storesKept s (s.modCore cx.c f) := storesKept_modCore s cx.c kept
  unfold writeSpecial
  dsimp only
  split
  case h_1 => exact storesKept_modThread s cur _
  case h_2 => exact storesKept_modThread s cur _
  case h_3 => exact core _ fun _ => ⟨rfl, rfl, rfl, rfl⟩
  case h_4 => exact storesKept_setCtl s _ v
  case h_5 => exact core _ fun _ => ⟨rfl, rfl, rfl, rfl⟩
  case h_6 => exact storesKept_of_cores rfl rfl rfl rfl rfl rfl
  case h_7 => exact core _ fun _ => ⟨rfl, rfl, rfl, rfl⟩
  case h_8 => exact core _ fun _ => ⟨rfl, rfl, rfl, rfl⟩
  case h_9 => exact storesKept_of_cores rfl rfl rfl rfl rfl rfl
  case h_10 => exact storesKept_refl s

end

/-! What each register is left with: the equations of R86 and R348. -/

section
variable (s : State) {cx : Cx} {c : Nat} (core : cx.c = c) (v : Word)
include core

theorem writeSpecial_depst : ((writeSpecial s cx 0x00A v).coreAt c) =
    { s.coreAt c with dcol := (s.coreAt c).dcol && !v.getLsbD 16, arv := (s.coreAt c).arv &&& ~~~(v.extractLsb' 8 8) } := by
  subst core
  exact State.setCore_coreAt_same _ _ _

theorem writeSpecial_epcw : (writeSpecial s cx 0x102 v).coreAt c = { s.coreAt c with epcw := v.setWidth 13 } := by
  subst core
  exact State.setCore_coreAt_same _ _ _

theorem writeSpecial_injm : (writeSpecial s cx 0x106 v).coreAt c =
    { s.coreAt c with inj := (s.coreAt c).inj.filter fun e => !v.getLsbD e.1 } := by
  subst core
  exact State.setCore_coreAt_same _ _ _

theorem writeSpecial_tvec : (writeSpecial s cx 0x107 v).coreAt c = { s.coreAt c with tvec := v.setWidth 11 } := by
  subst core
  exact State.setCore_coreAt_same _ _ _

end

section
variable (s : State) {cx : Cx} {x : Nat} (ctx : s.ctxOf cx.ag = x) (v : Word)
include ctx

theorem writeSpecial_ctl : (writeSpecial s cx 0x100 v).contextAt x =
    { s.contextAt x with allow := clampAllow (v.toNat / 2 ^ 32 % 2 ^ 17), wchk := v.getLsbD 0 } := by
  subst ctx
  exact State.setCtl_contextAt s _ v

theorem writeSpecial_quota : (writeSpecial s cx 0x104 v).contextAt x = { s.contextAt x with limit := v.toNat % 2 ^ 32, noticed := false } := by
  subst ctx
  exact State.setContext_contextAt_same _ _ _

theorem writeSpecial_area : (writeSpecial s cx 0x108 v).contextAt x = { s.contextAt x with area := v.toNat % 2 ^ 52 / 4096 * 4096 } := by
  subst ctx
  exact State.setContext_contextAt_same _ _ _

end

section
variable {w : Fields} {s : State} (h : issues (.srw w) s = true)
include h

theorem exec_srw_writes : exec (.srw w) s = .next (writeSpecial (s.issued ⟨0x302, fSrw, w⟩) s.cx w.a.num (s.mine.src w.b)) := by
  have kept := storesKept_writeSpecial (cx := s.cx) (State.issued_cur s ⟨0x302, fSrw, w⟩) w.a.num (s.mine.src w.b)
  have mine := writeSpecial_mine (cx := s.cx) (State.issued_cur s ⟨0x302, fSrw, w⟩) w.a.num (s.mine.src w.b)
  rw [exec_srw, execSrw]
  refine issue_done_kept (issues_iff h).1 (word_srw w) (by simp only [State.issued_self_src]) (storesKept_trans (storesKept_issued s _) kept) ?_
  rw [mine, State.issued_mine, Thread.issued_flight]


theorem exec_srw_as_stated {c k : Nat} {v : Word} (hc : s.cur = .core c k) (hv : v = s.mine.src w.b) :
    ∃ t, exec (.srw w) s = .next t ∧ t.mine.pc = s.mine.pc + 1 ∧ t.mine.flight = s.mine.flight ∧ t.mine.n = s.mine.n ∧ t.mine.q = s.mine.q ∧
      t.mine.a = s.mine.a ∧ t.mine.p = s.mine.p ∧ bytesKept s t ∧
      (w.a.num = 0x000 → t.mine.vl = v.setWidth 16 ∧ t.mine.fflg = s.mine.fflg) ∧
      (w.a.num ≠ 0x000 → t.mine.vl = s.mine.vl) ∧
      (w.a.num = 0x009 → t.mine.fflg = s.mine.fflg &&& ~~~(v.setWidth 8)) ∧
      (w.a.num = 0x00A → (t.coreAt c).dcol = ((s.coreAt c).dcol && !v.getLsbD 16) ∧ (t.coreAt c).arv = (s.coreAt c).arv &&& ~~~(v.extractLsb' 8 8)) ∧
      (w.a.num = 0x100 → (t.contextAt (s.ctxOf s.cur)).wchk = v.getLsbD 0 ∧
        (t.contextAt (s.ctxOf s.cur)).allow = min (v.toNat / 2 ^ 32 % 2 ^ 17) 65536) ∧
      (w.a.num = 0x102 → (t.coreAt c).epcw = v.setWidth 13) ∧
      (w.a.num = 0x104 → (t.contextAt (s.ctxOf s.cur)).limit = v.toNat % 2 ^ 32) ∧
      (w.a.num = 0x106 → ∀ d, SMap.find (t.coreAt c).inj d = if v.getLsbD d = true then none else SMap.find (s.coreAt c).inj d) ∧
      (w.a.num = 0x107 → (t.coreAt c).tvec = v.setWidth 11) ∧
      (w.a.num = 0x108 → (t.contextAt (s.ctxOf s.cur)).area = v.toNat % 2 ^ 52 / 4096 * 4096) := by
  obtain ⟨u, hu⟩ : ∃ u, u = s.issued ⟨0x302, fSrw, w⟩ := ⟨_, rfl⟩
  have only : onlyMine s u := hu ▸ onlyMine_issued s _
  have uMine : u.mine = s.mine.issued (s.segOf s.cur s.mine.pc) w.hint s.now := hu ▸ State.issued_mine s _
  have cur : u.cur = s.cx.ag := onlyMine_cur only
  have core : s.cx.c = c := State.cx_core hc
  have ctx : u.ctxOf s.cx.ag = s.ctxOf s.cur := by
    rw [← cur, onlyMine_cur only, hc]
    exact onlyMine_ctxOf only c k
  have mine := writeSpecial_mine cur w.a.num v
  have depst : ((u.coreAt c).dcol, (u.coreAt c).arv) = ((s.coreAt c).dcol, (s.coreAt c).arv) :=
    (congrArg (fun k : Core => (k.dcol, k.arv)) (only.2.2.1 c) :)
  have inj : (u.coreAt c).inj = (s.coreAt c).inj := (congrArg Core.inj (only.2.2.1 c) :)
  obtain ⟨dcol, arv⟩ := Prod.mk.inj depst
  refine ⟨writeSpecial u s.cx w.a.num v, by rw [exec_srw_writes h, hu, hv], ?_, ?_, ?_, ?_, ?_, ?_,
    bytesKept_trans (onlyMine_bytesKept only) (bytesKept_of_storesKept (storesKept_writeSpecial cur _ _)), ?_, ?_, ?_, ?_, ?_, ?_, ?_, ?_, ?_, ?_⟩
  · rw [mine, uMine, Thread.issued_pc]
  · rw [mine, uMine, Thread.issued_flight]
  · rw [mine, uMine, Thread.issued_n]
  · rw [mine, uMine, Thread.issued_q]
  · rw [mine, uMine, Thread.issued_a]
  · rw [mine, uMine, Thread.issued_p]
  · exact fun number => by rw [mine, uMine]; simp [number]
  · exact fun number => by rw [mine, uMine]; simp [number]
  · exact fun number => by rw [mine, uMine]; simp [number]
  · exact fun number => by rw [number, writeSpecial_depst u core, dcol, arv]; exact ⟨rfl, rfl⟩
  · exact fun number => by rw [number, writeSpecial_ctl u ctx]; exact ⟨rfl, rfl⟩
  · exact fun number => by rw [number, writeSpecial_epcw u core]
  · exact fun number => by rw [number, writeSpecial_quota u ctx]
  · intro number d
    rw [number, writeSpecial_injm u core, inj]
    refine (find_filter_key _ (fun d => !v.getLsbD d) d).trans ?_
    cases v.getLsbD d <;> rfl
  · exact fun number => by rw [number, writeSpecial_tvec u core]
  · exact fun number => by rw [number, writeSpecial_area u ctx]

end

/-! SETSZ (R277). -/

theorem exec_setsz_as_stated {w : Fields} {s : State} {c k : Nat} (hc : s.cur = .core c k) (h : issues (.setsz w) s = true) :
    ∃ t, exec (.setsz w) s = .next t ∧ (t.coreAt c).sz = (s.mine.src w.a).setWidth 32 ∧ t.mine.pc = s.mine.pc + 1 ∧
      t.mine.flight = s.mine.flight ∧ registersKept s.mine t.mine ∧ onlyCore (fun b a => { a with sz := b.sz }) s t ∧ bytesKept s t := by
  obtain ⟨f, hf⟩ : ∃ f : Core → Core, f = fun k => { k with sz := (s.mine.src w.a).setWidth 32 } := ⟨_, rfl⟩
  have stores : storesKept s ((s.issued ⟨0x2d0, fSetsz, w⟩).modCore c f) :=
    storesKept_trans (storesKept_issued s _) (storesKept_modCore _ c (by subst hf; exact fun _ => ⟨rfl, rfl, rfl, rfl⟩))
  have threads (b : Core) (t : Nat) : (f b).thread t = b.thread t := by subst hf; rfl
  have mine : ((s.issued ⟨0x2d0, fSetsz, w⟩).modCore c f).mine = s.mine.issued (s.segOf s.cur s.mine.pc) w.hint s.now :=
    (State.modCore_mine _ c threads).trans (State.issued_mine s _)
  have bytes := bytesKept_of_storesKept stores
  refine ⟨(s.issued ⟨0x2d0, fSetsz, w⟩).modCore c f, ?_, ?_, ?_, ?_, ?_, ?_, bytes⟩
  · rw [exec_setsz, execSetsz]
    refine issue_done_kept (issues_iff h).1 (word_setsz w) ?_ stores (by rw [mine, Thread.issued_flight])
    simp only [State.issued_self_src, State.cx_core hc, hf]
  · rw [State.modCore, State.setCore_coreAt_same, hf]
  · rw [mine, Thread.issued_pc]
  · rw [mine, Thread.issued_flight]
  · simp [mine, registersKept]
  · refine onlyCore_issued_modCore hc _ (fun a b kept => ?_) (fun a b kept => ?_) threads bytes
    · subst hf
      exact (congrArg (fun k : Core => { k with sz := (s.mine.src w.a).setWidth 32 }) kept :)
    · exact (congrArg (fun k : Core => { k with sz := b.sz }) kept :)

/-- Settles O44: SRR by the value that each register has at the issue, SRW register by register, and SETSZ. -/
theorem specialRegistersAreReadAndWritten : Obligations.SpecialRegistersAreReadAndWritten :=
  ⟨fun _ _ _ _ _ hc h read => exec_srr_named h hc read, fun _ _ _ _ hc h => exec_srr_fields h hc,
    fun _ _ _ hc h number => exec_srr_request h hc number, fun _ _ _ _ _ hc h hv => exec_srw_as_stated h hc hv,
    fun _ _ _ _ hc h => exec_setsz_as_stated hc h⟩

end Sys2Proof.Machine
end

section
/-! What a trap leaves of its thread (R309, R350). -/

namespace Sys2Proof.Machine

/-- The thread has trapped with this report: its registers and what is in flight stand. Only a timing trap may be reported as the third one. -/
structure trappedWith (a b : Thread) (pc : Nat) (n : TrapInfo) (r : TrapRec) : Prop where
  stat : b.stat = .trapped
  registers : registersKept a b
  flight : b.flight = a.flight
  trap : b.trap = some r
  record : r.record = n.record
  epcw : r.epcw = if n.after then pc + 1 else pc
  cause : r.cause = n.cause ∨ r.cause = 0x04D ∧ (n.timed || timingCause n.cause) = true

theorem State.startTrap_threadOf (s : State) (c t : Nat) (ag : Agent) : (s.startTrap c t).threadOf ag = s.threadOf ag := by
  cases ag with
  | req id => rfl
  | core d k =>
    by_cases hd : d = c
    · subst hd
      simp [State.startTrap, State.threadOf, Core.thread]
    · simp [State.startTrap, State.threadOf, State.setCore_coreAt_other _ _ _ _ hd]

theorem State.coupledReport_threadOf (s : State) (c : Nat) (energy : Bool) (ag : Agent) : (s.coupledReport c energy).threadOf ag = s.threadOf ag := by
  cases ag <;> simp only [State.coupledReport] <;> split <;> rfl

/-- What follows the trap of a thread leaves every thread as it is. -/
theorem State.trapOnset_threadOf (s : State) (c t : Nat) (first coupled energy : Bool) (ag : Agent) :
    (if coupled = true then (if first = true then s.startTrap c t else s).coupledReport c energy
      else if first = true then s.startTrap c t else s).threadOf ag = s.threadOf ag := by
  cases coupled <;> cases first <;> simp [State.coupledReport_threadOf, State.startTrap_threadOf]

theorem State.trapOnset_cur (s : State) (c t : Nat) (first coupled energy : Bool) :
    (if coupled = true then (if first = true then s.startTrap c t else s).coupledReport c energy
      else if first = true then s.startTrap c t else s).cur = s.cur := by
  have report (v : State) : (v.coupledReport c energy).cur = v.cur := by
    simp only [State.coupledReport]
    split <;> rfl
  cases coupled <;> cases first <;> simp only [report, if_true, if_false, Bool.false_eq_true] <;> rfl

theorem State.takeTrap_cur (s : State) {c t : Nat} (ht : t ≤ 10) (pc : Nat) (n : TrapInfo) : (s.takeTrap (.core c t) pc n).cur = s.cur := by
  rw [State.takeTrap.eq_4 _ _ _ _ _ (by omega) (by omega), State.trapOnset_cur]
  rfl

theorem ite_eq_else_or {p q : Prop} [Decidable p] (a b : Nat) (h : p → q) : (if p then a else b) = b ∨ (if p then a else b) = a ∧ q := by
  by_cases hp : p
  · exact .inr ⟨if_pos hp, h hp⟩
  · exact .inl (if_neg hp)

theorem State.takeTrap_thread (s : State) {c t : Nat} (ht : t ≤ 10) (pc : Nat) (n : TrapInfo) :
    ∃ r, trappedWith (s.threadOf (.core c t)) ((s.takeTrap (.core c t) pc n).threadOf (.core c t)) pc n r := by
  rw [State.takeTrap.eq_4 _ _ _ _ _ (by omega) (by omega), State.trapOnset_threadOf]
  simp only [State.threadOf, State.setCore_coreAt_same, Core.setThread_thread_same]
  refine ⟨_, { stat := rfl, registers := ?registers, flight := ?flight, trap := rfl, record := rfl, epcw := rfl,
               cause := ite_eq_else_or _ _ fun third => ?timed }⟩
  case registers =>
    cases s.segOf (.core c t) pc with
    | none => exact ⟨rfl, rfl, rfl, rfl, rfl⟩
    | some g => dsimp only; split <;> exact ⟨rfl, rfl, rfl, rfl, rfl⟩
  case flight =>
    cases s.segOf (.core c t) pc with
    | none => rfl
    | some g => dsimp only; split <;> rfl
  case timed =>
    simp only [Bool.and_eq_true] at third
    exact third.1.1

end Sys2Proof.Machine
end

section
/-! Anchors, and the waits that make them (R68, R125, R126, R131, R258, R277, R278, R305). -/

namespace Sys2Proof.Machine

theorem registersKept_trans {a b c : Thread} (h : registersKept a b) (g : registersKept b c) : registersKept a c := by
  obtain ⟨n, q, ptrs, p, vl⟩ := h
  obtain ⟨n', q', ptrs', p', vl'⟩ := g
  exact ⟨n'.trans n, q'.trans q, ptrs'.trans ptrs, p'.trans p, vl'.trans vl⟩

/-! The anchor of a control context. -/

/-- The core's plate state becomes `i`. -/
def Core.enter (i : Nat) (k : Core) : Core := { k with state := i }

/-- Cycle `a` is cycle 0 of the thread. -/
def Thread.anchored (th : Thread) (timed : Bool) (a k dom : Nat) (pc : Option Nat) : Thread :=
  { th with anchor := a, anchorK := k, anchorDom := dom, fresh := true, seg := none, dueAt := none,
            openTo := if timed then th.openTo else a - 1, notBefore := a, pc := pc.getD th.pc }

/-- An anchor ends what the core keeps for the cycles of the segment before. -/
def Core.anchored (k : Core) : Core :=
  if k.freed.isEmpty && k.replays.isEmpty then k else { k with freed := [], replays := k.replays.filter fun x => !x.timed }

def State.anchored (s : State) (cx : Cx) (a k dom : Nat) (pc : Option Nat) : State :=
  (s.modCore cx.c Core.anchored).modThread cx.ag fun th => th.anchored cx.timed a k dom pc

/-- A wait that has made an anchor at cycle `a` goes on at the next word: the thread stands but for the anchor, and so do every store, every
stage barrier and every release. -/
structure goesOn (cx : Cx) (a dom : Nat) (s t : State) : Prop where
  stores : storesKept s t
  registers : registersKept s.mine t.mine
  flight : t.mine.flight = s.mine.flight
  pc : t.mine.pc = s.mine.pc
  waiting : t.mine.waiting = s.mine.waiting
  stat : t.mine.stat = s.mine.stat
  stages : ∀ c, (t.coreAt c).sbs = (s.coreAt c).sbs
  rels : ∀ c, (t.coreAt c).rels = (s.coreAt c).rels
  todo : t.todo = s.todo
  agenda : t.agenda = s.agenda
  anchor : cx.t = 0 → t.mine.anchor = a ∧ t.mine.anchorDom = dom ∧ t.mine.fresh = true ∧ t.mine.notBefore = a

section
variable {s : State} {cx : Cx} {a dom : Nat} {sync : Option (Nat × Nat)}

theorem anchorAt_helper (helper : cx.t ≠ 0) : anchorAt cx a dom sync s = .done s := by
  simp [anchorAt, helper]

theorem anchorAt_stay (control : cx.t = 0) (stay : selectState s cx.c cx.pc sync = .stay) :
    anchorAt cx a dom sync s = .done (s.anchored cx a noAnchor dom none) := by
  simp only [anchorAt, control, stay]
  rfl

theorem anchorAt_switch {i k word : Nat} (control : cx.t = 0) (switch : selectState s cx.c cx.pc sync = .switch i k word) :
    anchorAt cx a dom sync s = .done ((s.modCore cx.c (Core.enter i)).anchored cx a k dom (some word)) := by
  simp only [anchorAt, control, switch]
  rfl

end

theorem Core.anchored_eq (k : Core) : ∃ freed replays, k.anchored = { k with freed := freed, replays := replays } := by
  unfold Core.anchored
  split
  · exact ⟨k.freed, k.replays, rfl⟩
  · exact ⟨_, _, rfl⟩

theorem Core.anchored_thread (k : Core) (t : Nat) : k.anchored.thread t = k.thread t := by
  obtain ⟨_, _, eq⟩ := k.anchored_eq
  rw [eq]
  rfl

section
variable {s : State} {cx : Cx} (cur : s.cur = cx.ag) (a k dom : Nat) (pc : Option Nat)
include cur

theorem State.anchored_mine : (s.anchored cx a k dom pc).mine = s.mine.anchored cx.timed a k dom pc := by
  have cur' : (s.modCore cx.c Core.anchored).cur = cx.ag := cur
  rw [State.anchored, State.modThread_mine cur', State.modCore_mine _ _ Core.anchored_thread]

theorem storesKept_anchored : storesKept s (s.anchored cx a k dom pc) := by
  have cur' : (s.modCore cx.c Core.anchored).cur = cx.ag := cur
  refine storesKept_trans (storesKept_modCore s cx.c fun v => ?_) (storesKept_modThread _ cur' _)
  obtain ⟨_, _, eq⟩ := v.anchored_eq
  rw [eq]
  exact ⟨rfl, rfl, rfl, rfl⟩

end

/-- What stands in a core beside its threads stands when the thread changes. -/
theorem State.modThread_coreAt {α : Type} (p : Core → α) (threads : ∀ k l, p { k with threads := l } = p k) (s : State) (ag : Agent)
    (f : Thread → Thread) (c : Nat) : p ((s.modThread ag f).coreAt c) = p (s.coreAt c) := by
  cases ag with
  | req id => rfl
  | core d t =>
    by_cases hd : c = d
    · subst hd
      simp only [State.modThread, State.setThread, State.modCore, State.setCore_coreAt_same, Core.setThread, threads]
    · simp only [State.modThread, State.setThread, State.modCore, State.setCore_coreAt_other _ _ _ _ hd]

theorem State.modCore_coreAt {α : Type} (p : Core → α) {f : Core → Core} (kept : ∀ k, p (f k) = p k) (s : State) (c d : Nat) :
    p ((s.modCore c f).coreAt d) = p (s.coreAt d) := by
  by_cases hd : d = c
  · subst hd
    simp only [State.modCore, State.setCore_coreAt_same, kept]
  · simp only [State.modCore, State.setCore_coreAt_other _ _ _ _ hd]

theorem State.anchored_coreAt {α : Type} (p : Core → α) (threads : ∀ k l, p { k with threads := l } = p k)
    (kept : ∀ k : Core, p k.anchored = p k) (s : State) (cx : Cx) (a k dom : Nat) (pc : Option Nat) (c : Nat) :
    p ((s.anchored cx a k dom pc).coreAt c) = p (s.coreAt c) :=
  (State.modThread_coreAt p threads _ _ _ c).trans (State.modCore_coreAt p kept s cx.c c)

theorem goesOn_refl {cx : Cx} (helper : cx.t ≠ 0) (a dom : Nat) (s : State) : goesOn cx a dom s s where
  stores := storesKept_refl s
  registers := ⟨rfl, rfl, rfl, rfl, rfl⟩
  flight := rfl
  pc := rfl
  waiting := rfl
  stat := rfl
  stages _ := rfl
  rels _ := rfl
  todo := rfl
  agenda := rfl
  anchor control := absurd control helper

theorem goesOn_anchored {s : State} {cx : Cx} (cur : s.cur = cx.ag) (a dom : Nat) : goesOn cx a dom s (s.anchored cx a noAnchor dom none) := by
  have mine := State.anchored_mine cur a noAnchor dom none
  have stands {α : Type} (p : Core → α) (threads : ∀ k l, p { k with threads := l } = p k)
      (rest : ∀ k f r, p { k with freed := f, replays := r } = p k) (c : Nat) :
      p ((s.anchored cx a noAnchor dom none).coreAt c) = p (s.coreAt c) :=
    State.anchored_coreAt p threads (fun k => by obtain ⟨_, _, eq⟩ := k.anchored_eq; rw [eq, rest]) s cx a noAnchor dom none c
  have whole : ∀ ag, ((s.modCore cx.c Core.anchored).modThread ag fun th => th.anchored cx.timed a noAnchor dom none).todo = s.todo ∧
      ((s.modCore cx.c Core.anchored).modThread ag fun th => th.anchored cx.timed a noAnchor dom none).agenda = s.agenda := fun ag => by
    cases ag <;> exact ⟨rfl, rfl⟩
  exact {
    stores := storesKept_anchored cur a noAnchor dom none
    registers := by rw [mine]; exact ⟨rfl, rfl, rfl, rfl, rfl⟩
    flight := by rw [mine]; rfl
    pc := by rw [mine]; rfl
    waiting := by rw [mine]; rfl
    stat := by rw [mine]; rfl
    stages := stands Core.sbs (fun _ _ => rfl) fun _ _ _ => rfl
    rels := stands Core.rels (fun _ _ => rfl) fun _ _ _ => rfl
    todo := (whole cx.ag).1
    agenda := (whole cx.ag).2
    anchor := fun _ => by rw [mine]; exact ⟨rfl, rfl, rfl, rfl⟩ }

/-- A satisfied wait goes on where the selector leaves the state as it is (R68, R305). -/
theorem anchorAt_goesOn {s : State} {cx : Cx} {a dom : Nat} {sync : Option (Nat × Nat)} (cur : s.cur = cx.ag)
    (stay : cx.t = 0 → selectState s cx.c cx.pc sync = .stay) : ∃ t, anchorAt cx a dom sync s = .done t ∧ goesOn cx a dom s t := by
  by_cases control : cx.t = 0
  · exact ⟨_, anchorAt_stay control (stay control), goesOn_anchored cur a dom⟩
  · exact ⟨s, anchorAt_helper control, goesOn_refl control a dom s⟩

/-! What the selector of a core reads (R305). -/

def Core.selector (k : Core) : Option Nat × Nat × BitVec 32 × Nat × Nat := (k.grp, k.state, k.sz, k.xtotal, k.allow)

theorem selectState_congr {s t : State} {c : Nat} (groups : t.groups = s.groups) (core : (t.coreAt c).selector = (s.coreAt c).selector)
    (pc : Nat) (sync : Option (Nat × Nat)) : selectState t c pc sync = selectState s c pc sync := by
  simp only [Core.selector, Prod.mk.injEq] at core
  obtain ⟨grp, state, sz, xtotal, allow⟩ := core
  have kernel : t.kernelAt c = s.kernelAt c := by
    simp only [State.kernelAt, State.groupAt, State.groupOfCore, groups, grp]
  simp only [selectState, kernel, state, sz, xtotal, allow]

theorem onlyMine_selector {s t : State} (h : onlyMine s t) (c : Nat) : (t.coreAt c).selector = (s.coreAt c).selector :=
  (congrArg Core.selector (h.2.2.1 c) :)

theorem foldl_stays {α β : Type} {f : α → β → α} {a : α} {l : List β} (stays : ∀ b ∈ l, f a b = a) : l.foldl f a = a := by
  induction l with
  | nil => rfl
  | cons b rest ih => rw [List.foldl_cons, stays b List.mem_cons_self, ih fun x hx => stays x (List.mem_cons_of_mem _ hx)]

/-- No state covers a size that is above every capacity. -/
theorem leastState_none {states : List PlateState} {size : Nat} (small : ∀ i, i < states.length → (states.getD i {}).cap < size) :
    leastState states size = none :=
  foldl_stays fun i hi => if_pos (small i (List.mem_range.mp hi))

theorem selectState_refuses {s : State} {c pc : Nat} {e : Switch}
    (entry : ((s.kernelAt c).states.getD (s.coreAt c).state {}).switches.find? (fun e => e.anw == pc) = some e) (src : e.src = 0)
    (small : ∀ i, i < (s.kernelAt c).states.length → ((s.kernelAt c).states.getD i {}).cap < (s.coreAt c).sz.toNat) :
    selectState s c pc none = .refuse 0x1D3 := by
  simp only [selectState, entry, src, leastState_none small]

/-! Batches (R124, R125). -/

theorem unfinished_congr {s t : State} (ops : t.ops = s.ops) (l : List Batch) : unfinished t l = unfinished s l := by
  have ended : t.opEnded = s.opEnded := funext fun o => by simp only [State.opEnded, ops]
  induction l with
  | nil => rfl
  | cons b rest ih => rw [unfinished, unfinished, ih, Batch.ended, Batch.ended, ended]

theorem firstFailed_congr {s t : State} (ops : t.ops = s.ops) (l : List Batch) : firstFailed t l = firstFailed s l := by
  simp only [firstFailed, State.opFailed, ops]

theorem onlyMine_ops {s t : State} (h : onlyMine s t) : t.ops = s.ops := (congrArg State.ops h.1 :)

/-- A join raises at most a flag, and takes at most the poison of the joined operations. -/
theorem State.join_eq (s : State) (ag : Agent) (l : List Nat) :
    s.join ag l = s ∨ ∃ ops, s.join ag l = { s.modThread ag fun th => th.raise fNAR with ops := ops } := by
  have taken (v : State) : ∃ ops, l.foldl (fun s o => if (SMap.find s.ops o).isSome then s.modOp o fun e => { e with poisoned := false } else s) v =
      { v with ops := ops } := by
    induction l generalizing v with
    | nil => exact ⟨v.ops, rfl⟩
    | cons o rest ih =>
      rw [List.foldl_cons]
      split
      · exact ih _
      · exact ih v
  unfold State.join
  split
  · exact .inr (taken _)
  · exact .inl rfl

/-- The thread stands but for its flags, and so do every store and what the selectors read. -/
structure threadStands (s t : State) : Prop where
  stores : storesKept s t
  registers : registersKept s.mine t.mine
  flight : t.mine.flight = s.mine.flight
  pc : t.mine.pc = s.mine.pc
  waiting : t.mine.waiting = s.mine.waiting
  stat : t.mine.stat = s.mine.stat
  groups : t.groups = s.groups
  selector : ∀ c, (t.coreAt c).selector = (s.coreAt c).selector

theorem threadStands_refl (s : State) : threadStands s s where
  stores := storesKept_refl s
  registers := ⟨rfl, rfl, rfl, rfl, rfl⟩
  flight := rfl
  pc := rfl
  waiting := rfl
  stat := rfl
  groups := rfl
  selector _ := rfl

theorem threadStands_join {s : State} {ag : Agent} (cur : s.cur = ag) (l : List Nat) : threadStands s (s.join ag l) := by
  rcases s.join_eq ag l with eq | ⟨ops, eq⟩
  · rw [eq]
    exact threadStands_refl s
  · subst cur
    have only := onlyMine_modThread s fun th => th.raise fNAR
    have mine : (s.join s.cur l).mine = s.mine.raise fNAR := by
      rw [eq]
      exact State.modThread_mine rfl _
    have stores := storesKept_of_onlyMine only
    have groups := onlyMine_groups only
    have selector := onlyMine_selector only
    exact {
      stores := eq ▸ ⟨stores.cur, stores.now, stores.phys, stores.host, stores.clusters, stores.cores⟩
      registers := mine ▸ ⟨rfl, rfl, rfl, rfl, rfl⟩
      flight := mine ▸ rfl
      pc := mine ▸ rfl
      waiting := mine ▸ rfl
      stat := mine ▸ rfl
      groups := eq ▸ groups
      selector := eq ▸ selector }

theorem threadStands_modCore (s : State) (c : Nat) {f : Core → Core} (stores : ∀ k, coreStores k (f k)) (threads : ∀ k, (f k).threads = k.threads)
    (selector : ∀ k, (f k).selector = k.selector) : threadStands s (s.modCore c f) := by
  have mine : (s.modCore c f).mine = s.mine := State.modCore_mine s c fun k t => by rw [Core.thread, threads, Core.thread]
  exact {
    stores := storesKept_modCore s c stores
    registers := mine ▸ ⟨rfl, rfl, rfl, rfl, rfl⟩
    flight := mine ▸ rfl
    pc := mine ▸ rfl
    waiting := mine ▸ rfl
    stat := mine ▸ rfl
    groups := rfl
    selector := State.modCore_coreAt Core.selector selector s c }

/-! Writes that have not been committed (R28, R72, R278). -/

theorem onlyMine_writesLeft {s t : State} (h : onlyMine s t) (c k : Nat) : writesLeft t c k = writesLeft s c k := by
  have clusters : t.clusters = s.clusters := (congrArg State.clusters h.1 :)
  obtain ⟨_, _, _, _, _, _, core⟩ := coreKept_eq (h.2.2.1 c)
  simp only [writesLeft, State.uncommitted, State.rowsToWrite, State.pendOf, State.clusterAt, clusters, onlyMine_now h, core]
  rfl

/-! WAITB and ANCH (R125, R126, R131, R258, R278). -/

/-- The stage barrier once a fill has been taken. -/
def Sbs.next (b : Sbs) : Sbs := { b with fills := b.fills + 1, stage := (b.stage + 1) % b.s, counts := b.counts.drop 1 }

def Core.setStage (k : Core) (j : Nat) (b : Sbs) : Core := { k with sbs := SMap.put k.sbs j b }

theorem waitStage_full {cx : Cx} {j : Nat} {u : State} {b : Sbs} (stage : (u.coreAt cx.c).stage j = b) (set : b.s ≠ 0)
    (full : b.rows * 256 ≤ b.counts.headD 0) (taken : (u.coreAt cx.c).burin.untaken = false) :
    waitStage cx j u = anchorAt cx (u.now + 1) 0 none (u.modCore cx.c fun k => k.setStage j b.next) := by
  have noStop : burinStop (u.coreAt cx.c) cx = none := by simp [burinStop, taken]
  simp only [waitStage, stage, set, noStop, ite_self, Nat.not_lt.mpr full, if_false]
  rfl

/-- What ANCH does after its issue. -/
def anchBody (cx : Cx) (_ : Fields) (s : State) : Verdict := if threadQuiet s cx then anchorAt cx (s.now + 1) 0 none s else .wait s

section
variable {w : Fields} {s : State}

theorem word_waitb : (Instr.waitb w).word = some ⟨0x209, fWaitb, w⟩ := rfl
theorem exec_anch : exec (.anch w) s = issue (.anch w) anchBody s := rfl
theorem word_anch : (Instr.anch w).word = some ⟨0x2d1, fAnch, w⟩ := rfl

theorem onlyMine_modThread_cur {s : State} {ag : Agent} (cur : s.cur = ag) (f : Thread → Thread) : onlyMine s (s.modThread ag f) := by
  subst cur
  exact onlyMine_modThread s f

theorem State.cx_thread {c k : Nat} (hc : s.cur = .core c k) : s.cx.t = k := by
  simp only [State.cx, hc, agentThread]

/-- A wait that traps for a cause of its own is over with its trap: no stop of the burin unit is taken. -/
theorem execWaitb_trapped {c k pc : Nat} {n : TrapInfo} (hc : s.cur = .core c k) (hk : k ≤ 10) (cause : n.cause ≠ 0x0E0)
    (next : issue (.waitb w) waitbBody s = .next (s.takeTrap s.cur pc n)) : execWaitb w s = .next (s.takeTrap s.cur pc n) := by
  obtain ⟨r, trapped⟩ := s.takeTrap_thread hk pc n (c := c)
  have self : (s.takeTrap s.cur pc n).self s.cx = (s.takeTrap (.core c k) pc n).threadOf (.core c k) := by
    have ag : s.cx.ag = s.cur := rfl
    rw [State.self, ag, hc]
  have other : r.cause ≠ 0x0E0 := by
    rcases trapped.cause with eq | ⟨eq, _⟩ <;> rw [eq]
    · exact cause
    · decide
  simp only [execWaitb, next, self, trapped.trap]
  simp [other]

theorem State.issued_registersKept (x : WordOf) : registersKept s.mine (s.issued x).mine := by
  rw [State.issued_mine]
  simp only [registersKept, Thread.issued_n, Thread.issued_q, Thread.issued_a, Thread.issued_p, Thread.issued_vl, and_self]

/-- A word that goes on with an anchor once what it waits for is there (R68, R305). -/
theorem issue_goesOn {i : Instr} {x : WordOf} {body : Cx → Fields → State → Verdict} {a dom : Nat} {sync : Option (Nat × Nat)} {v : State}
    (h : passes i s = true) (hw : i.word = some x) (hb : body s.cx x.w (s.issued x) = anchorAt s.cx a dom sync v)
    (stands : threadStands (s.issued x) v) (stay : s.cx.t = 0 → selectState (s.issued x) s.cx.c s.mine.pc sync = .stay) :
    ∃ t, issue i body s = .next t ∧ goesOn s.cx a dom v t ∧ t.mine.pc = s.mine.pc + 1 ∧ t.mine.waiting = false ∧ t.mine.stat = .run ∧
      t.mine.flight = s.mine.flight ∧ registersKept s.mine t.mine ∧ bytesKept s t := by
  have cur : v.cur = s.cx.ag := stands.stores.cur.trans (State.issued_cur s x)
  obtain ⟨t, done, goes⟩ := anchorAt_goesOn (a := a) (dom := dom) cur fun control =>
    (selectState_congr stands.groups (stands.selector s.cx.c) s.mine.pc sync).trans (stay control)
  have mine := State.issued_mine s x
  have kept : storesKept s t := storesKept_trans (storesKept_issued s x) (storesKept_trans stands.stores goes.stores)
  have flight : t.mine.flight = s.mine.flight := by rw [goes.flight, stands.flight, mine, Thread.issued_flight]
  obtain ⟨notWaiting, _⟩ := passes_iff h
  refine ⟨t, issue_done_kept h hw (hb.trans done) kept flight, goes, ?pc, ?waiting, ?stat, flight, ?registers, bytesKept_of_storesKept kept⟩
  case pc => rw [goes.pc, stands.pc, mine, Thread.issued_pc]
  case waiting => rw [goes.waiting, stands.waiting, mine, Thread.issued_waiting]; exact notWaiting
  case stat => rw [goes.stat, stands.stat, mine, Thread.issued_stat]; exact passes_run h hw
  case registers => exact registersKept_trans (State.issued_registersKept x) (registersKept_trans stands.registers goes.registers)

/-- The batches of the thread, and the operations in them, stand after the issue. -/
theorem State.issued_batches (x : WordOf) : ((s.issued x).self s.cx).batches = s.mine.batches := by
  have self : (s.issued x).self s.cx = (s.issued x).mine := State.mine_of_cur (State.issued_cur s x)
  rw [self, State.issued_mine, Thread.issued_batches]

theorem State.issued_ops (x : WordOf) : (s.issued x).ops = s.ops := onlyMine_ops (onlyMine_issued s x)

/-- A wait that the issue has satisfied is over with its anchor. -/
theorem exec_waitb_goesOn {v : State} (h : issues (.waitb w) s = true)
    (hb : waitbBody s.cx w (s.issued ⟨0x209, fWaitb, w⟩) = anchorAt s.cx (s.now + 1) 0 none v)
    (stands : threadStands (s.issued ⟨0x209, fWaitb, w⟩) v)
    (stay : s.cx.t = 0 → selectState (s.issued ⟨0x209, fWaitb, w⟩) s.cx.c s.mine.pc none = .stay) :
    ∃ t, exec (.waitb w) s = .next t ∧ goesOn s.cx (s.now + 1) 0 v t ∧ t.mine.pc = s.mine.pc + 1 ∧ t.mine.waiting = false ∧
      t.mine.flight = s.mine.flight ∧ registersKept s.mine t.mine ∧ bytesKept s t := by
  obtain ⟨t, next, goes, pc, waiting, stat, flight, registers, bytes⟩ := issue_goesOn (issues_iff h).1 word_waitb hb stands stay
  have self : t.self s.cx = t.mine := State.mine_of_cur (goes.stores.cur.trans (stands.stores.cur.trans (State.issued_cur s _)))
  exact ⟨t, execWaitb_running next (self ▸ stat), goes, pc, waiting, flight, registers, bytes⟩

section
variable {cx : Cx} {n : Nat} {u : State} {next : State → Verdict}

theorem waitBatches_more (more : n < unfinished u (u.self cx).batches) : ∃ v, waitBatches cx n u next = .wait v ∧
    (v = u ∨ ∃ f : Thread → Nat, v = u.modThread cx.ag fun th => { th with openTo := f th }) := by
  simp only [waitBatches, more, if_true]
  split
  · exact ⟨_, rfl, .inr ⟨_, rfl⟩⟩
  · exact ⟨_, rfl, .inl rfl⟩

variable (fresh : cx.again = false) (done : unfinished u (u.self cx).batches ≤ n)
include fresh done

theorem waitBatches_failed {o m : Nat} {b : Batch} (failed : firstFailed u ((u.self cx).batches.drop n).reverse = some (o, m, b)) :
    waitBatches cx n u next = .trap { cause := m, record := failRecord (u.opAt o) b.num.toNat, op := some o } := by
  simp only [waitBatches, Nat.not_lt.mpr done, fresh, failed, if_false, Bool.false_eq_true]

theorem waitBatches_done (passed : firstFailed u ((u.self cx).batches.drop n).reverse = none) :
    waitBatches cx n u next = next (u.join cx.ag (((u.self cx).batches.drop n).reverse.flatMap (·.ops))) := by
  simp only [waitBatches, Nat.not_lt.mpr done, fresh, passed, if_false, Bool.false_eq_true]

end

theorem waitbBody_batches {cx : Cx} {u : State} (imm : w.a.kind = .imm) :
    waitbBody cx w u = waitBatches cx w.a.immInt.toNat u fun v => anchorAt cx (v.now + 1) 0 none v := by
  simp only [waitbBody, imm]

theorem waitbBody_stage {c k j : Nat} {u : State} (hc : s.cur = .core c k) (special : w.a.kind = .special) (number : w.a.num = 0x010 + j) :
    waitbBody s.cx w u = waitStage s.cx j u := by
  have ag : s.cx.ag = .core c k := hc
  have index : w.a.num - 0x010 = j := by omega
  simp only [waitbBody, special, ag, index]

section
variable (h : issues (.waitb w) s = true)
include h

section
variable {n : Nat} (imm : w.a.kind = .imm) (hn : n = w.a.immInt.toNat)
include imm hn

theorem exec_waitb_completes {c k : Nat} (hc : s.cur = .core c k) (done : unfinished s s.mine.batches ≤ n)
    (passed : firstFailed s (s.mine.batches.drop n).reverse = none)
    (stay : k = 0 → selectState (found (.waitb w) s) c s.mine.pc none = .stay) :
    ∃ t, exec (.waitb w) s = .next t ∧ t.mine.pc = s.mine.pc + 1 ∧ t.mine.waiting = false ∧ t.mine.flight = s.mine.flight ∧
      registersKept s.mine t.mine ∧ (k = 0 → t.mine.anchor = s.now + 1 ∧ t.mine.fresh = true ∧ t.mine.notBefore = s.now + 1) ∧
      bytesKept s t := by
  subst hn
  have thread := State.cx_thread hc
  have stands := threadStands_join (State.issued_cur s ⟨0x209, fWaitb, w⟩) ((s.mine.batches.drop w.a.immInt.toNat).reverse.flatMap (·.ops))
  have body : waitbBody s.cx w (s.issued ⟨0x209, fWaitb, w⟩) = anchorAt s.cx (s.now + 1) 0 none
      ((s.issued ⟨0x209, fWaitb, w⟩).join s.cur ((s.mine.batches.drop w.a.immInt.toNat).reverse.flatMap (·.ops))) := by
    rw [waitbBody_batches imm, waitBatches_done (passes_iff (issues_iff h).1).1]
    · rw [State.issued_batches, ← State.issued_now s ⟨0x209, fWaitb, w⟩, ← stands.stores.now]
      rfl
    · rwa [State.issued_batches, unfinished_congr (State.issued_ops _)]
    · rwa [State.issued_batches, firstFailed_congr (State.issued_ops _)]
  obtain ⟨t, next, goes, pc, waiting, flight, registers, bytes⟩ := exec_waitb_goesOn h body stands fun control => by
    rw [State.cx_core hc]
    exact stay (thread ▸ control)
  refine ⟨t, next, pc, waiting, flight, registers, fun control => ?_, bytes⟩
  obtain ⟨anchor, _, fresh, notBefore⟩ := goes.anchor (thread.trans control)
  exact ⟨anchor, fresh, notBefore⟩

theorem exec_waitb_waits (more : n < unfinished s s.mine.batches) :
    ∃ t, exec (.waitb w) s = .next t ∧ t.mine.pc = s.mine.pc ∧ t.mine.waiting = true ∧ t.mine.flight = s.mine.flight ∧
      registersKept s.mine t.mine ∧ onlyMine s t ∧ bytesKept s t := by
  subst hn
  rw [← unfinished_congr (State.issued_ops ⟨0x209, fWaitb, w⟩), ← State.issued_batches ⟨0x209, fWaitb, w⟩] at more
  obtain ⟨v, wait, opened⟩ := waitBatches_more (next := fun v => anchorAt s.cx (v.now + 1) 0 none v) more
  have issued := State.issued_mine s ⟨0x209, fWaitb, w⟩
  obtain ⟨only, n, mine⟩ : onlyMine (s.issued ⟨0x209, fWaitb, w⟩) v ∧ ∃ n, v.mine = { (s.issued ⟨0x209, fWaitb, w⟩).mine with openTo := n } := by
    rcases opened with rfl | ⟨f, rfl⟩
    · exact ⟨onlyMine_refl _, _, rfl⟩
    · exact ⟨onlyMine_modThread_cur (State.issued_cur s _) _, f _, State.modThread_mine (State.issued_cur s _) _⟩
  have only := onlyMine_trans (onlyMine_issued s _) only
  have cur : v.cur = s.cx.ag := onlyMine_cur only
  have flight : v.mine.flight = s.mine.flight := by rw [mine, issued]; exact Thread.issued_flight _ _ _ _
  have next := issue_wait_kept (issues_iff h).1 word_waitb ((waitbBody_batches imm).trans wait) (storesKept_of_onlyMine only) flight
  have run : v.mine.stat = .run := by
    rw [mine, issued]
    exact (Thread.issued_stat _ _ _ _).trans (passes_run (issues_iff h).1 word_waitb)
  have marked := State.markWaiting_mine cur
  have only' := onlyMine_trans only (onlyMine_markWaiting cur)
  have self : (v.markWaiting s.cx).self s.cx = (v.markWaiting s.cx).mine := State.mine_of_cur (onlyMine_cur only')
  refine ⟨_, execWaitb_running next ?_, ?_, ?_, ?_, ?_, only', onlyMine_bytesKept only'⟩
  · rw [self, marked]; exact run
  · rw [marked]; rfl
  · rw [marked]
  · rw [marked]; exact flight
  · rw [marked, mine, issued]
    simp only [registersKept, Thread.issued_n, Thread.issued_q, Thread.issued_a, Thread.issued_p, Thread.issued_vl, and_self]

theorem exec_waitb_traps {c k o m : Nat} {b : Batch} (hc : s.cur = .core c k) (hk : k ≤ 10) (done : unfinished s s.mine.batches ≤ n)
    (failed : firstFailed s (s.mine.batches.drop n).reverse = some (o, m, b)) (cause : m ≠ 0x0E0) :
    exec (.waitb w) s = .next (s.takeTrap s.cur s.mine.pc { cause := m, record := failRecord (s.opAt o) b.num.toNat, op := some o }) := by
  subst hn
  refine execWaitb_trapped hc hk cause (issue_traps (issues_iff h).1 word_waitb rfl ?_)
  have opAt : (s.issued ⟨0x209, fWaitb, w⟩).opAt o = s.opAt o := by rw [State.opAt, State.opAt, State.issued_ops]
  rw [← opAt]
  refine (waitbBody_batches imm).trans (waitBatches_failed (passes_iff (issues_iff h).1).1 ?_ ?_)
  · rwa [State.issued_batches, unfinished_congr (State.issued_ops _)]
  · rwa [State.issued_batches, firstFailed_congr (State.issued_ops _)]

end

section
variable {c k j : Nat} {b : Sbs} (hc : s.cur = .core c k) (special : w.a.kind = .special) (number : w.a.num = 0x010 + j)
  (hb : b = (s.coreAt c).stage j)
include hc special number hb

theorem exec_waitb_takesFill (set : b.s ≠ 0) (full : b.rows * 256 ≤ b.counts.headD 0) (taken : (s.coreAt c).burin.untaken = false)
    (stay : k = 0 → selectState (found (.waitb w) s) c s.mine.pc none = .stay) :
    ∃ t, exec (.waitb w) s = .next t ∧ (t.coreAt c).stage j = { b with fills := b.fills + 1, stage := (b.stage + 1) % b.s, counts := b.counts.drop 1 } ∧
      t.mine.pc = s.mine.pc + 1 ∧ t.mine.waiting = false ∧ registersKept s.mine t.mine ∧
      (k = 0 → t.mine.anchor = s.now + 1 ∧ t.mine.fresh = true) ∧ bytesKept s t := by
  have thread := State.cx_thread hc
  have core := State.cx_core hc
  have only := onlyMine_issued s ⟨0x209, fWaitb, w⟩
  have stage : ((s.issued ⟨0x209, fWaitb, w⟩).coreAt c).stage j = b := hb ▸ (congrArg (Core.stage · j) (only.2.2.1 c) :)
  have burin : ((s.issued ⟨0x209, fWaitb, w⟩).coreAt c).burin = (s.coreAt c).burin := (congrArg Core.burin (only.2.2.1 c) :)
  have body : waitbBody s.cx w (s.issued ⟨0x209, fWaitb, w⟩) = anchorAt s.cx (s.now + 1) 0 none
      ((s.issued ⟨0x209, fWaitb, w⟩).modCore c fun k => k.setStage j b.next) := by
    rw [waitbBody_stage hc special number, waitStage_full (core.symm ▸ stage) set full (core.symm ▸ burin.symm ▸ taken), core, State.issued_now]
  obtain ⟨t, next, goes, pc, waiting, _, registers, bytes⟩ := exec_waitb_goesOn h body
    (threadStands_modCore _ _ (fun _ => ⟨rfl, rfl, rfl, rfl⟩) (fun _ => rfl) fun _ => rfl) fun control => by
      rw [core]
      exact stay (thread ▸ control)
  refine ⟨t, next, ?_, pc, waiting, registers, fun control => ?_, bytes⟩
  · rw [Core.stage, goes.stages c, State.modCore, State.setCore_coreAt_same]
    exact SMap.get_put_same _ _ _ _
  · obtain ⟨anchor, _, fresh, _⟩ := goes.anchor (thread.trans control)
    exact ⟨anchor, fresh⟩

theorem exec_waitb_unset (hk : k ≤ 10) (unset : b.s = 0) : exec (.waitb w) s = .next (s.takeTrap s.cur s.mine.pc { cause := 0x0D1 }) := by
  have core := State.cx_core hc
  have stage : ((s.issued ⟨0x209, fWaitb, w⟩).coreAt c).stage j = b :=
    hb ▸ (congrArg (Core.stage · j) ((onlyMine_issued s ⟨0x209, fWaitb, w⟩).2.2.1 c) :)
  refine execWaitb_trapped hc hk (by decide) (issue_traps (issues_iff h).1 word_waitb rfl ?_)
  refine (waitbBody_stage hc special number).trans ?_
  simp only [waitStage, core, stage, unset, if_true, Verdict.cause]

end
end

/-! ANCH (R278). -/

section
variable {c : Nat} (hc : s.cur = .core c 0) (landed : s.mine.flight = []) (committed : writesLeft s c 0 = false)
include hc landed committed

theorem anchBody_quiet : anchBody s.cx w (s.issued ⟨0x2d1, fAnch, w⟩) = anchorAt s.cx (s.now + 1) 0 none (s.issued ⟨0x2d1, fAnch, w⟩) := by
  have self : (s.issued ⟨0x2d1, fAnch, w⟩).self s.cx = (s.issued ⟨0x2d1, fAnch, w⟩).mine := State.mine_of_cur (State.issued_cur s _)
  have quiet : threadQuiet (s.issued ⟨0x2d1, fAnch, w⟩) s.cx = true := by
    rw [threadQuiet, self, State.issued_mine, Thread.issued_flight, landed, State.cx_core hc, State.cx_thread hc,
      onlyMine_writesLeft (onlyMine_issued s _), committed]
    rfl
  rw [anchBody, if_pos quiet, State.issued_now]

variable (h : issues (.anch w) s = true)
include h

theorem exec_anch_stays (stay : selectState (found (.anch w) s) c s.mine.pc none = .stay) :
    ∃ t, exec (.anch w) s = .next t ∧ t.mine.pc = s.mine.pc + 1 ∧ t.mine.anchor = s.now + 1 ∧ t.mine.fresh = true ∧ t.mine.waiting = false ∧
      registersKept s.mine t.mine ∧ bytesKept s t := by
  obtain ⟨t, next, goes, pc, waiting, _, _, registers, bytes⟩ := issue_goesOn (issues_iff h).1 word_anch (anchBody_quiet hc landed committed)
    (threadStands_refl _) fun _ => (State.cx_core hc).symm ▸ stay
  obtain ⟨anchor, _, fresh, _⟩ := goes.anchor (State.cx_thread hc)
  exact ⟨t, exec_anch.trans next, pc, anchor, fresh, waiting, registers, bytes⟩

theorem exec_anch_switches {i k word : Nat} (switch : selectState (found (.anch w) s) c s.mine.pc none = .switch i k word) :
    ∃ t, exec (.anch w) s = .next t ∧ t.mine.pc = word ∧ t.mine.anchor = s.now + 1 ∧ t.mine.anchorK = k ∧ (t.coreAt c).state = i := by
  have core := State.cx_core hc
  have body := (anchBody_quiet hc landed committed).trans (anchorAt_switch (State.cx_thread hc) (core.symm ▸ switch))
  have cur : ((s.issued ⟨0x2d1, fAnch, w⟩).modCore s.cx.c (Core.enter i)).cur = s.cx.ag := State.issued_cur s _
  have mine := State.anchored_mine cur (s.now + 1) k 0 (some word)
  have kept := storesKept_trans (storesKept_issued s ⟨0x2d1, fAnch, w⟩) (storesKept_trans (storesKept_modCore _ s.cx.c
    (f := Core.enter i) fun _ => ⟨rfl, rfl, rfl, rfl⟩) (storesKept_anchored cur (s.now + 1) k 0 (some word)))
  have entered := State.modCore_mine (s.issued ⟨0x2d1, fAnch, w⟩) s.cx.c (f := Core.enter i) fun _ _ => rfl
  rw [entered, State.issued_mine] at mine
  have flight := congrArg Thread.flight mine
  rw [Thread.anchored, Thread.issued_flight] at flight
  have next := issue_done_kept (issues_iff h).1 word_anch body kept flight
  refine ⟨_, exec_anch.trans next, ?_, ?_, ?_, ?_⟩
  · rw [mine]; rfl
  · rw [mine]; rfl
  · rw [mine]; rfl
  · rw [State.anchored_coreAt Core.state (fun _ _ => rfl) (fun v => by obtain ⟨_, _, eq⟩ := v.anchored_eq; rw [eq]), core, State.modCore,
      State.setCore_coreAt_same, Core.enter]

end
end

/-- Settles O35: a satisfied wait anchors its thread, one that is not waits, and a failed operation is reported. -/
theorem waitsAnchorTheirThread : Obligations.WaitsAnchorTheirThread := by
  unfold Obligations.WaitsAnchorTheirThread
  refine ⟨⟨?completes, ?waits, ?fails⟩, ?fill, ?unset, ?anchors, ?switches, ?refuses⟩
  case completes =>
    intro w s u c k n hc h hu imm hn done passed stay
    subst hu
    exact exec_waitb_completes h imm hn hc done passed stay
  case waits =>
    intro w s c k n _ h imm hn more
    exact exec_waitb_waits h imm hn more
  case fails =>
    intro w s c k n o m b hc hk h imm hn done failed cause
    exact exec_waitb_traps h imm hn hc hk done failed cause
  case fill =>
    intro w s u c k j b hc h hu special number hb set full taken stay
    subst hu
    exact exec_waitb_takesFill h hc special number hb set full taken stay
  case unset =>
    intro w s c k j b hc hk h special number hb unset
    exact exec_waitb_unset h hc special number hb hk unset
  case anchors =>
    intro w s u c hc h hu landed committed stay
    subst hu
    exact exec_anch_stays hc landed committed h stay
  case switches =>
    intro w s u c i k word hc h hu landed committed switch
    subst hu
    exact exec_anch_switches hc landed committed h switch
  case refuses =>
    intro s c pc e entry src small
    exact selectState_refuses entry src small

end Sys2Proof.Machine
end

section
/-! Barrier words: a domain is configured, its members arrive and wait for its release (R68, R269 to R271, R321 to R323, R325). -/

namespace Sys2Proof.Machine

/-! What the issue of a word leaves of domains and targets. -/

section
variable {s t : State} (h : onlyMine s t)
include h

theorem onlyMine_has (d : Domain) (c : Nat) : d.has (t.coreAt c) = d.has (s.coreAt c) := (congrArg d.has (h.2.2.1 c) :)

theorem onlyMine_place (c : Nat) : (t.coreAt c).stk = (s.coreAt c).stk ∧ (t.coreAt c).clus = (s.coreAt c).clus ∧ (t.coreAt c).core = (s.coreAt c).core :=
  ⟨(congrArg Core.stk (h.2.2.1 c) :), (congrArg Core.clus (h.2.2.1 c) :), (congrArg Core.core (h.2.2.1 c) :)⟩

theorem onlyMine_rels (c : Nat) : (t.coreAt c).rels = (s.coreAt c).rels := (congrArg Core.rels (h.2.2.1 c) :)

theorem onlyMine_xputs (c : Nat) : (t.coreAt c).xputs = (s.coreAt c).xputs := (congrArg Core.xputs (h.2.2.1 c) :)

theorem onlyMine_personality (c a n : Nat) : (t.coreAt c).personality a n = (s.coreAt c).personality a n :=
  (congrArg (Core.personality · a n) (h.2.2.1 c) :)

theorem onlyMine_domainMembers (g : Nat) (d : Domain) : t.domainMembers g d = s.domainMembers g d := by
  simp only [State.domainMembers, onlyMine_groupAt h, onlyMine_has h]

theorem onlyMine_wholeGroup (g : Nat) (d : Domain) : t.wholeGroup g d = s.wholeGroup g d := by
  simp only [State.wholeGroup, onlyMine_groupAt h, onlyMine_has h]

theorem onlyMine_barcfgBad (g j : Nat) (clusters : Word) (cores : BitVec 16) : barcfgBad t g j clusters cores = barcfgBad s g j clusters cores := by
  simp only [barcfgBad, onlyMine_groupAt h, onlyMine_place h]

theorem onlyMine_logicalTarget (c : Nat) (r : Word) : logicalTarget t c r = logicalTarget s c r := by
  simp only [logicalTarget, State.memberAt, onlyMine_groupOfCore h, onlyMine_groupAt h, onlyMine_place h]

end

section
variable {w : Fields} {s : State}

theorem exec_barcfg : exec (.barcfg w) s = execBarcfg w s := rfl
theorem exec_bara : exec (.bara w) s = execBara w s := rfl
theorem exec_bar : exec (.bar w) s = execBar w s := rfl
theorem exec_barw : exec (.barw w) s = execBarw w s := rfl
theorem exec_xput : exec (.xput w) s = execXput w s := rfl
theorem exec_xend : exec (.xend w) s = execXend w s := rfl

theorem word_barcfg : (Instr.barcfg w).word = some ⟨0x283, fBarcfg, w⟩ := rfl
theorem word_bara : (Instr.bara w).word = some ⟨0x281, fBar "BARA", w⟩ := rfl
theorem word_bar : (Instr.bar w).word = some ⟨0x280, fBar "BAR", w⟩ := rfl
theorem word_barw : (Instr.barw w).word = some ⟨0x282, fBarw, w⟩ := rfl
theorem word_xput : (Instr.xput w).word = some ⟨0x249, fXput, w⟩ := rfl
theorem word_xend : (Instr.xend w).word = some ⟨0x24a, fXend, w⟩ := rfl

theorem State.issued_self (x : WordOf) : (s.issued x).self s.cx = (s.issued x).mine := State.mine_of_cur (State.issued_cur s x)

end

/-! A word that changes no store and no more of its thread than its issue does. -/

/-- The thread has gone on to its next word; its registers, what is in flight and every byte stand. -/
structure steppedOn (s t : State) : Prop where
  pc : t.mine.pc = s.mine.pc + 1
  flight : t.mine.flight = s.mine.flight
  registers : registersKept s.mine t.mine
  bytes : bytesKept s t

/-- The thread waits at its word; its registers, what is in flight and every byte stand. -/
structure waitsHere (s t : State) : Prop where
  waiting : t.mine.waiting = true
  stat : t.mine.stat = .run
  pc : t.mine.pc = s.mine.pc
  flight : t.mine.flight = s.mine.flight
  registers : registersKept s.mine t.mine
  bytes : bytesKept s t

section
variable {i : Instr} {x : WordOf} {body : Cx → Fields → State → Verdict} {s t : State} (h : issues i s = true) (hw : i.word = some x)
  (kept : storesKept (s.issued x) t) (mine : t.mine = (s.issued x).mine)
include h hw kept mine

theorem issue_steppedOn (hb : body s.cx x.w (s.issued x) = .done t) : issue i body s = .next t ∧ steppedOn s t := by
  have issued := State.issued_mine s x
  have all := storesKept_trans (storesKept_issued s x) kept
  have flight : t.mine.flight = s.mine.flight := by rw [mine, issued, Thread.issued_flight]
  have pc : t.mine.pc = s.mine.pc + 1 := by rw [mine, issued, Thread.issued_pc]
  exact ⟨issue_done_kept (issues_iff h).1 hw hb all flight, pc, flight, mine ▸ State.issued_registersKept x, bytesKept_of_storesKept all⟩

theorem waitsHere_markWaiting : waitsHere s (t.markWaiting s.cx) := by
  have issued := State.issued_mine s x
  have all := storesKept_trans (storesKept_issued s x) kept
  have marked := State.markWaiting_mine (cx := s.cx) all.cur
  exact {
    waiting := by rw [marked]
    stat := by
      rw [marked, mine, issued]
      exact (Thread.issued_stat _ _ _ _).trans (passes_run (issues_iff h).1 hw)
    pc := by rw [marked]; rfl
    flight := by
      rw [marked, mine, issued]
      exact Thread.issued_flight _ _ _ _
    registers := by
      rw [marked, mine]
      exact State.issued_registersKept x
    bytes := bytesKept_of_storesKept (storesKept_trans all (storesKept_markWaiting (cx := s.cx) all.cur)) }

theorem issue_marksWaiting (hb : body s.cx x.w (s.issued x) = .wait t) : issue i body s = .next (t.markWaiting s.cx) := by
  have flight : t.mine.flight = s.mine.flight := by rw [mine, State.issued_mine, Thread.issued_flight]
  exact issue_wait_kept (issues_iff h).1 hw hb (storesKept_trans (storesKept_issued s x) kept) flight

end

/-- A wait of a barrier that leaves its thread running consumes no failed release. -/
theorem afterWait_next {cx : Cx} {j : Nat} {out : Out} {t : State} (next : out = .next t) (cur : t.cur = cx.ag) (running : t.mine.stat = .run) :
    afterWait cx j out = .next t := by
  have self : t.self cx = t.mine := State.mine_of_cur cur
  rw [next]
  exact afterWait_running (self ▸ running) j

/-! BARCFG (R269). -/

theorem storesKept_setGroup (s : State) (g : Nat) (v : Group) : storesKept s (s.setGroup g v) := storesKept_of_cores rfl rfl rfl rfl rfl rfl

theorem State.setDomain_domain (s : State) (g j : Nat) (d : Domain) (i : Nat) :
    ((s.setDomain g j d).groupAt g).domain i = if i = j then d else (s.groupAt g).domain i := by
  rw [State.setDomain, State.modGroup, State.setGroup_groupAt_same]
  exact SMap.get_put _ _ _ _ _

/-- The domain holds these clusters and cores, and is configured. -/
def Domain.holding (d : Domain) (clusters : Word) (cores : BitVec 16) : Domain := { d with configured := true, clusters := clusters, cores := cores }

theorem exec_barcfg_configures {w : Fields} {s : State} {c k g j : Nat} (hc : s.cur = .core c k) (h : issues (.barcfg w) s = true)
    (hg : g = s.groupOfCore c) (hj : j = w.a.immInt.toNat) (narrow : (s.mine.src w.c).toNat < 65536)
    (good : barcfgBad s g j (s.mine.src w.b) ((s.mine.src w.c).setWidth 16) = false) :
    ∃ t, exec (.barcfg w) s = .next t ∧
      (t.groupAt g).domain j = ((s.groupAt g).domain j).holding (s.mine.src w.b) ((s.mine.src w.c).setWidth 16) ∧
      (∀ i, i ≠ j → (t.groupAt g).domain i = (s.groupAt g).domain i) ∧ t.mine.pc = s.mine.pc + 1 ∧ t.mine.flight = s.mine.flight ∧
      registersKept s.mine t.mine ∧ onlyMine s { t with groups := s.groups } ∧ bytesKept s t := by
  have only := onlyMine_issued s ⟨0x283, fBarcfg, w⟩
  have inRange : ¬ ((s.mine.src w.c).toNat / 65536 != 0 || barcfgBad s g j (s.mine.src w.b) ((s.mine.src w.c).setWidth 16)) = true := by
    rw [good]
    simpa using Nat.div_eq_of_lt narrow
  obtain ⟨next, stepped⟩ : exec (.barcfg w) s = .next ((s.issued ⟨0x283, fBarcfg, w⟩).setDomain g j
      (((s.groupAt g).domain j).holding (s.mine.src w.b) ((s.mine.src w.c).setWidth 16))) ∧ steppedOn s _ := by
    rw [exec_barcfg, execBarcfg]
    refine issue_steppedOn h word_barcfg (storesKept_setGroup _ _ _) (State.mine_congr rfl rfl rfl) ?_
    simp only [State.issued_self_src, State.cx_core hc, onlyMine_groupOfCore only, onlyMine_barcfgBad only, onlyMine_groupAt only, ← hg, ← hj]
    exact if_neg inRange
  have groups := onlyMine_groups only
  refine ⟨_, next, ?_, fun i hi => ?_, stepped.pc, stepped.flight, stepped.registers, ?_, stepped.bytes⟩
  · rw [State.setDomain_domain, if_pos rfl]
  · rw [State.setDomain_domain, if_neg hi, onlyMine_groupAt only]
  · have same : { (s.issued ⟨0x283, fBarcfg, w⟩) with groups := s.groups } = s.issued ⟨0x283, fBarcfg, w⟩ := by rw [← groups]
    exact same ▸ only

/-! Arrivals (R270, R271, R323). -/

/-- The core may arrive on the domain: it is a member, has not arrived in this phase, and a proof is one that the group takes. -/
structure mayArrive (s : State) (c : Nat) (d : Domain) (a : Arrival) : Prop where
  core : a.core = c
  member : d.has (s.coreAt c) = true
  first : ∀ x ∈ d.arrivals, x.core ≠ c
  proof : a.proof = true → (s.groupAt (s.groupOfCore c)).prot = true ∧ s.wholeGroup (s.groupOfCore c) d = true

/-- The arrival has been counted; the last one has started the pass of 40 cycles. -/
structure arrivesOn (s t : State) (g j : Nat) (d : Domain) (a : Arrival) : Prop where
  stores : storesKept s t
  mine : t.mine = s.mine
  arrivals : ((t.groupAt g).domain j).arrivals = d.arrivals ++ [a]
  last : (∀ x ∈ s.domainMembers g d, x = a.core ∨ ∃ y ∈ d.arrivals, y.core = x) →
    ((t.groupAt g).domain j).phase = 1 ∧ t.dueAt (s.now + 40) prioRelease (.barrierRelease g j)

theorem State.releaseAt_domain (s : State) (g j t : Nat) :
    ((s.releaseAt g j t).groupAt g).domain j = { (s.groupAt g).domain j with due := t } :=
  (State.setDomain_domain s g j _ j).trans (if_pos rfl)

theorem State.releaseAt_dueAt (s : State) (g j t : Nat) : (s.releaseAt g j t).dueAt t prioRelease (.barrierRelease g j) := State.at_dueAt _ _ _ _

/-- The release of an earlier phase is no longer pending. -/
def Core.dropRelease (j : Nat) (k : Core) : Core := { k with rels := SMap.erase k.rels j }

theorem State.modCore_domainMembers (s : State) (c g : Nat) (d : Domain) {f : Core → Core} (has : ∀ k, d.has (f k) = d.has k) :
    (s.modCore c f).domainMembers g d = s.domainMembers g d := by
  have has (x : Nat) : d.has ((s.modCore c f).coreAt x) = d.has (s.coreAt x) := State.modCore_coreAt d.has has s c x
  simp only [State.domainMembers, has]
  rfl

theorem storesKept_dropRelease (s : State) (c j : Nat) : storesKept s (s.modCore c (Core.dropRelease j)) :=
  storesKept_modCore s c fun _ => ⟨rfl, rfl, rfl, rfl⟩

theorem arrivesOn_at {s t : State} {g j : Nat} {d : Domain} {a : Arrival} (arrives : arrivesOn s t g j d a) (due prio : Nat) (ev : Instr) :
    arrivesOn s (t.at due prio ev) g j d a where
  stores := storesKept_trans arrives.stores (storesKept_of_cores rfl rfl rfl rfl rfl rfl)
  mine := arrives.mine
  arrivals := arrives.arrivals
  last all := ⟨(arrives.last all).1, agendaKept_at t due prio ev _ (arrives.last all).2⟩

section
variable {s : State} {c g j : Nat} {d : Domain} {a : Arrival}

/-- The arrival is not the last one: some member has not arrived. -/
theorem arrivesOn_setDomain (some_missing : ¬ ∀ x ∈ s.domainMembers g d, x = a.core ∨ ∃ y ∈ d.arrivals, y.core = x) :
    arrivesOn s ((s.modCore c (Core.dropRelease j)).setDomain g j { d with arrivals := d.arrivals ++ [a] }) g j d a where
  stores := storesKept_trans (storesKept_dropRelease s c j) (storesKept_setGroup _ _ _)
  mine := (State.mine_congr rfl rfl rfl).trans (State.modCore_mine s c fun _ _ => rfl)
  arrivals := by rw [State.setDomain_domain, if_pos rfl]
  last all := absurd all some_missing

theorem arrivesOn_releaseAt : arrivesOn s (((s.modCore c (Core.dropRelease j)).setDomain g j
    { d with arrivals := d.arrivals ++ [a], phase := 1 }).releaseAt g j (s.now + 40)) g j d a where
  stores := storesKept_trans (storesKept_dropRelease s c j) (storesKept_of_cores rfl rfl rfl rfl rfl rfl)
  mine := (State.mine_congr rfl rfl rfl).trans (State.modCore_mine s c fun _ _ => rfl)
  arrivals := by rw [State.releaseAt_domain, State.setDomain_domain, if_pos rfl]
  last _ := by
    rw [State.releaseAt_domain, State.setDomain_domain, if_pos rfl]
    exact ⟨rfl, State.releaseAt_dueAt _ _ _ _⟩

end

theorem arriveAt_arrives {cx : Cx} {j g twice : Nat} {d : Domain} {a : Arrival} {s : State} (hg : g = s.groupOfCore cx.c)
    (hd : d = (s.groupAt g).domain j) (may : mayArrive s cx.c d a) : ∃ t, arriveAt cx j a twice s = .ok t ∧ arrivesOn s t g j d a := by
  have again : (d.arrivals.any fun x => x.core == cx.c) = false := by simpa using may.first
  have taken : (a.proof && (!(s.groupAt g).prot || !s.wholeGroup g d)) = false := by
    cases proof : a.proof with
    | false => rfl
    | true =>
      obtain ⟨prot, whole⟩ := may.proof proof
      rw [hg, prot, whole]
      rfl
  have members : (s.modCore cx.c fun k => { k with rels := SMap.erase k.rels j }).domainMembers g d = s.domainMembers g d :=
    State.modCore_domainMembers s cx.c g d fun _ => rfl
  simp only [arriveAt, ← hg, ← hd, may.member, again, taken, members, Bool.not_true, Bool.false_eq_true, if_false]
  split
  case isTrue =>
    refine ⟨_, rfl, ?_⟩
    split
    · exact arrivesOn_at arrivesOn_releaseAt _ _ _
    · exact arrivesOn_releaseAt
  case isFalse missing =>
    refine ⟨_, rfl, arrivesOn_setDomain fun all => missing ?_⟩
    simp only [List.all_eq_true, List.any_append, List.any_cons, List.any_nil, Bool.or_false, Bool.or_eq_true, List.any_eq_true, beq_iff_eq]
    exact fun x hx => (all x hx).symm.imp id Eq.symm

theorem mayArrive_of_onlyMine {s t : State} (h : onlyMine s t) {c : Nat} {d : Domain} {a : Arrival} (may : mayArrive s c d a) : mayArrive t c d a where
  core := may.core
  member := (onlyMine_has h d c).trans may.member
  first := may.first
  proof given := by
    rw [onlyMine_groupOfCore h, onlyMine_groupAt h, onlyMine_wholeGroup h]
    exact may.proof given

/-- An arrival after the issue counts for the domain as it stood before. -/
theorem issued_arrives {s : State} {c k j g twice : Nat} {d : Domain} {a : Arrival} (hc : s.cur = .core c k) (x : WordOf) (hg : g = s.groupOfCore c)
    (hd : d = (s.groupAt g).domain j) (may : mayArrive s c d a) :
    ∃ t, arriveAt s.cx j a twice (s.issued x) = .ok t ∧ arrivesOn (s.issued x) t g j d a ∧
      ((∀ x ∈ s.domainMembers g d, x = c ∨ ∃ y ∈ d.arrivals, y.core = x) →
        ((t.groupAt g).domain j).phase = 1 ∧ t.dueAt (s.now + 40) prioRelease (.barrierRelease g j)) := by
  have only := onlyMine_issued s x
  have core := State.cx_core hc
  obtain ⟨t, ok, arrives⟩ := arriveAt_arrives (cx := s.cx) (g := g) (j := j) (twice := twice) (s := s.issued x) (by rw [core, onlyMine_groupOfCore only, hg])
    (by rw [onlyMine_groupAt only, hd]) (core.symm ▸ mayArrive_of_onlyMine only may)
  refine ⟨t, ok, arrives, fun all => ?_⟩
  have last := arrives.last
  rw [onlyMine_domainMembers only, State.issued_now, may.core] at last
  exact last all

section
variable {w : Fields} {s : State} {c k g j : Nat} {d : Domain} (hc : s.cur = .core c k) (hg : g = s.groupOfCore c) (hj : j = w.a.immInt.toNat)
  (hd : d = (s.groupAt g).domain j) (may : mayArrive s c d { core := c, proof := w.m.getLsbD 0, cyc := s.now })
include hc hg hj hd may

theorem exec_bara_arrives (h : issues (.bara w) s = true) :
    ∃ t, exec (.bara w) s = .next t ∧
      ((t.groupAt g).domain j).arrivals = d.arrivals ++ [{ core := c, proof := w.m.getLsbD 0, cyc := s.now }] ∧
      ((∀ x ∈ s.domainMembers g d, x = c ∨ ∃ y ∈ d.arrivals, y.core = x) → ((t.groupAt g).domain j).phase = 1 ∧
        t.dueAt (s.now + 40) prioRelease (.barrierRelease g j)) ∧
      t.mine.pc = s.mine.pc + 1 ∧ t.mine.flight = s.mine.flight ∧ registersKept s.mine t.mine ∧ bytesKept s t := by
  obtain ⟨t, ok, arrives, last⟩ := issued_arrives (twice := 0x1C5) hc ⟨0x281, fBar "BARA", w⟩ hg hd may
  obtain ⟨next, stepped⟩ : exec (.bara w) s = .next t ∧ steppedOn s t := by
    rw [exec_bara, execBara]
    refine issue_steppedOn h word_bara arrives.stores arrives.mine ?_
    simp only [State.cx_core hc, State.issued_now, ← hj, ok]
  exact ⟨t, next, arrives.arrivals, last, stepped.pc, stepped.flight, stepped.registers, stepped.bytes⟩

theorem exec_bar_arrives (pending : SMap.find (s.coreAt c).rels j = none) (h : issues (.bar w) s = true) :
    ∃ t, exec (.bar w) s = .next t ∧
      ((t.groupAt g).domain j).arrivals = d.arrivals ++ [{ core := c, proof := w.m.getLsbD 0, cyc := s.now }] ∧ t.mine.waiting = true ∧
      t.mine.pc = s.mine.pc ∧ t.mine.flight = s.mine.flight ∧ registersKept s.mine t.mine ∧ bytesKept s t := by
  have fresh : s.cx.again = false := (passes_iff (issues_iff h).1).1
  have rels := onlyMine_rels (onlyMine_issued s ⟨0x280, fBar "BAR", w⟩) c
  obtain ⟨t, ok, arrives, _⟩ := issued_arrives (twice := 0x1C5) hc ⟨0x280, fBar "BAR", w⟩ hg hd may
  have kept := storesKept_trans (storesKept_issued s ⟨0x280, fBar "BAR", w⟩) arrives.stores
  have waits := waitsHere_markWaiting h word_bar arrives.stores arrives.mine
  have cur : (t.markWaiting s.cx).cur = s.cur := (storesKept_markWaiting (cx := s.cx) kept.cur).cur.trans kept.cur
  have next : exec (.bar w) s = .next (t.markWaiting s.cx) := by
    rw [exec_bar, execBar]
    refine afterWait_next (issue_marksWaiting h word_bar arrives.stores arrives.mine ?_) cur waits.stat
    simp only [fresh, State.cx_core hc, State.issued_now, ← hj, ok, rels, pending, Option.any_none, Bool.false_eq_true, if_false]
  have domain : ((t.markWaiting s.cx).groupAt g).domain j = (t.groupAt g).domain j := by
    rw [onlyMine_groupAt (onlyMine_markWaiting kept.cur)]
  exact ⟨_, next, domain ▸ arrives.arrivals, waits.waiting, waits.pc, waits.flight, waits.registers, waits.bytes⟩

end

/-! Pointers that advance as their word issues (R249, R251). -/

section
variable {s : State} {cx : Cx} (cur : s.cur = cx.ag) (o : Operand)
include cur

theorem onlyMine_advanceNow : onlyMine s (s.advanceNow cx o) := by
  unfold State.advanceNow
  split
  · exact onlyMine_modThread_cur cur _
  · exact onlyMine_refl s

theorem State.advanceNow_mine : ∃ a, (s.advanceNow cx o).mine = { s.mine with a := a } := by
  unfold State.advanceNow
  split
  · exact ⟨_, State.modThread_mine cur _⟩
  · exact ⟨s.mine.a, rfl⟩

theorem moved_advanceNow : moved o s.mine (s.advanceNow cx o).mine := by
  cases inc : o.inc with
  | false =>
    have same : s.advanceNow cx o = s := by rw [State.advanceNow, if_neg (by rw [inc]; decide)]
    rw [same]
    exact ⟨rfl, rfl, rfl, rfl, fun r => by simp [inc]⟩
  | true =>
    have mine : (s.advanceNow cx o).mine = s.mine.writeA o.num
        { s.mine.readA o.num with base := (s.mine.readA o.num).base + BitVec.ofInt 24 (s.mine.readA o.num).stride.toInt } := by
      rw [State.advanceNow, if_pos inc]
      exact State.modThread_mine cur _
    rw [mine]
    refine ⟨rfl, rfl, rfl, rfl, fun r => ?_⟩
    by_cases hr : r = o.num
    · subst hr
      simp only [inc, and_self, if_true]
      exact SMap.get_set_same _ _ _ _
    · simp only [hr, and_false, if_false]
      exact SMap.get_set_other _ _ _ _ _ hr

end

theorem moved_of_registersKept {o : Operand} {a b c : Thread} (same : registersKept a b) (h : moved o b c) : moved o a c := by
  obtain ⟨n, q, ptrs, p, vl⟩ := same
  obtain ⟨n', q', p', vl', h⟩ := h
  have readA (r : Nat) : b.readA r = a.readA r := by rw [Thread.readA, Thread.readA, ptrs]
  simp only [readA] at h
  exact ⟨n'.trans n, q'.trans q, p'.trans p, vl'.trans vl, h⟩

/-- The thread has gone on to its next word, and the pointer of an operand has advanced; what is in flight and every byte stand. -/
structure movedOn (o : Operand) (s t : State) : Prop where
  pc : t.mine.pc = s.mine.pc + 1
  flight : t.mine.flight = s.mine.flight
  moved : moved o s.mine t.mine
  bytes : bytesKept s t

theorem issue_movedOn {i : Instr} {x : WordOf} {body : Cx → Fields → State → Verdict} {s t : State} {o : Operand} (h : issues i s = true)
    (hw : i.word = some x) (kept : storesKept (s.issued x) t) (mine : t.mine = (s.issued x).mine)
    (hb : body s.cx x.w (s.issued x) = .done (t.advanceNow s.cx o)) :
    issue i body s = .next (t.advanceNow s.cx o) ∧ movedOn o s (t.advanceNow s.cx o) := by
  have issued := State.issued_mine s x
  have all := storesKept_trans (storesKept_issued s x) kept
  have cur : t.cur = s.cx.ag := all.cur
  obtain ⟨_, advanced⟩ := State.advanceNow_mine cur o
  have flight : (t.advanceNow s.cx o).mine.flight = s.mine.flight := by
    rw [advanced, mine, issued]
    exact Thread.issued_flight _ _ _ _
  have pc : (t.advanceNow s.cx o).mine.pc = s.mine.pc + 1 := by
    rw [advanced, mine, issued]
    exact Thread.issued_pc _ _ _ _
  have whole := storesKept_trans all (storesKept_of_onlyMine (onlyMine_advanceNow cur o))
  have registers : registersKept s.mine t.mine := mine ▸ State.issued_registersKept x
  exact ⟨issue_done_kept (issues_iff h).1 hw hb whole flight, pc, flight, moved_of_registersKept registers (moved_advanceNow cur o),
    bytesKept_of_storesKept whole⟩

/-- What changes the executing thread alone adds nothing to what has changed in its core. -/
theorem onlyCore_onlyMine {free : Core → Core → Core} {s t u : State} (rest : ∀ a b x, coreBut free a b → coreKept b x → coreBut free a x)
    (h : onlyCore free s t) (cur : t.cur = s.cur) (after : onlyMine t u) (reqThreads : u.reqThreads = t.reqThreads) : onlyCore free s u := by
  have memory := onlyMine_bytesKept after
  obtain ⟨whole, others, cores, threads, bytes⟩ := h
  obtain ⟨whole', threads', cores', others', _, _⟩ := after
  refine ⟨?_, fun d hd => ?_, fun d => rest _ _ _ (cores d) (cores' d), fun ag ha => ?_, fun p a => ?_⟩
  · rw [whole', reqThreads, whole]
  · exact (others' d (cur ▸ hd)).trans (others d hd)
  · rw [threads' ag (cur ▸ ha)]
    exact threads ag ha
  · exact (memory.2.2.1 p a).trans (bytes p a)

theorem State.advanceNow_reqThreads (s : State) {cx : Cx} {c k : Nat} (hc : cx.ag = .core c k) (o : Operand) :
    (s.advanceNow cx o).reqThreads = s.reqThreads := by
  unfold State.advanceNow
  split
  · rw [hc]
    rfl
  · rfl

theorem issued_fresh (s : State) (x : WordOf) : (s.issued x).fresh = s.fresh := by
  cases hc : s.cur with
  | core c k =>
    obtain ⟨_, issued⟩ := State.issued_core_eq hc x
    rw [issued]
  | req id =>
    rw [State.issued_eq_req hc, hc]
    rfl

theorem Thread.issued_base (th : Thread) (seg : Option Seg) (h : Hint) (now : Nat) (o : Operand) (typed : Bool) :
    (th.issued seg h now).base o typed = th.base o typed := by
  simp only [Thread.base, Thread.issued_readA, Thread.issued_value]

/-! Counted exchange (R109, R271). -/

/-- One more packet waits for the exchange. -/
def Core.queue (p : XPacket) (k : Core) : Core := { k with xputs := k.xputs ++ [p] }

/-- The packets have left with an arrival. -/
def Core.sendQueue (k : Core) : Core := { k with xputs := [] }

theorem coreBut_xputs {a b c : Core} (h : coreBut (fun b a => { a with xputs := b.xputs }) a b) (kept : coreKept b c) :
    coreBut (fun b a => { a with xputs := b.xputs }) a c := by
  unfold coreBut coreKept at *
  rw [kept, h]

theorem onlyCore_queue {s : State} {c k : Nat} (hc : s.cur = .core c k) (x : WordOf) (p : XPacket) :
    onlyCore (fun b a => { a with xputs := b.xputs }) s ((s.issued x).modCore c (Core.queue p)) := by
  have kept := storesKept_trans (storesKept_issued s x) (storesKept_modCore (s.issued x) c (f := Core.queue p) fun _ => ⟨rfl, rfl, rfl, rfl⟩)
  refine onlyCore_issued_modCore hc x (fun _ b kept => ?_) (fun _ b kept => ?_) (fun _ _ => rfl) (bytesKept_of_storesKept kept)
  · exact (congrArg (fun k : Core => { k with xputs := (Core.queue p b).xputs }) kept :)
  · exact (congrArg (fun k : Core => { k with xputs := b.xputs }) kept :)

theorem exec_xput_queues {w : Fields} {s : State} {c k a n : Nat} {r : Word} {g : Target} {p : XPacket} (hc : s.cur = .core c k)
    (h : issues (.xput w) s = true) (hr : r = s.mine.src w.a) (logical : r.getLsbD 63 = false) (low : r.toNat % 2 ^ 24 = 0)
    (target : logicalTarget s c r = some g) (ha : a = s.mine.base w.b false) (hn : n = (s.mine.src w.c).toNat)
    (guard : guardTrap (found (.xput w) s) s.cx a n true false = none) (plain : (s.coreAt c).personality a n = false)
    (room : (s.coreAt c).xputs.length < 256) (hp : p = { target := g.fe, src := a, len := n, mark := s.fresh, issued := s.now }) :
    ∃ t, exec (.xput w) s = .next t ∧ (t.coreAt c).xputs = (s.coreAt c).xputs ++ [p] ∧ t.mine.pc = s.mine.pc + 1 ∧
      t.mine.flight = s.mine.flight ∧ moved w.b s.mine t.mine ∧ onlyCore (fun b a => { a with xputs := b.xputs }) s t := by
  have only := onlyMine_issued s ⟨0x249, fXput, w⟩
  have core := State.cx_core hc
  have base : ((s.issued ⟨0x249, fXput, w⟩).self s.cx).base w.b false = a := by
    rw [State.issued_self, State.issued_mine, Thread.issued_base, ha]
  have unguarded : guardTrap (s.issued ⟨0x249, fXput, w⟩) s.cx a n true false = none := guard
  have kept := storesKept_modCore (s.issued ⟨0x249, fXput, w⟩) c (f := Core.queue p) fun _ => ⟨rfl, rfl, rfl, rfl⟩
  have mine := State.modCore_mine (s.issued ⟨0x249, fXput, w⟩) c (f := Core.queue p) fun _ _ => rfl
  obtain ⟨next, on⟩ : exec (.xput w) s = .next (((s.issued ⟨0x249, fXput, w⟩).modCore c (Core.queue p)).advanceNow s.cx w.b) ∧ movedOn w.b s _ := by
    rw [exec_xput, execXput]
    refine issue_movedOn h word_xput kept mine ?_
    simp only [State.issued_self_src, ← hr, ← hn, base, core, logical, low, onlyMine_logicalTarget only, target, onlyMine_personality only, plain,
      onlyMine_xputs only, State.issued_now, issued_fresh, unguarded, causeIf, firstTrap, checked, decide_eq_false (Nat.not_le.mpr room), bne_self_eq_false,
      Bool.or_self, Bool.false_eq_true, if_false, ← hp]
    rfl
  have cur : ((s.issued ⟨0x249, fXput, w⟩).modCore c (Core.queue p)).cur = s.cur := State.issued_cur s _
  have after := onlyMine_advanceNow (cx := s.cx) cur w.b
  refine ⟨_, next, ?_, on.pc, on.flight, on.moved,
    onlyCore_onlyMine (fun _ _ _ => coreBut_xputs) (onlyCore_queue hc _ p) cur after (State.advanceNow_reqThreads _ hc w.b)⟩
  rw [onlyMine_xputs after, State.modCore, State.setCore_coreAt_same, Core.queue, onlyMine_xputs only]

/-- XEND arrives with the packets that wait. -/
theorem exec_xend_arrives {w : Fields} {s : State} {c k a n g j : Nat} {d : Domain} {arrival : Arrival} (hc : s.cur = .core c k)
    (h : issues (.xend w) s = true) (ha : a = s.mine.base w.a false) (hn : n = (s.mine.src w.b).toNat) (hj : j = w.c.immInt.toNat)
    (hg : g = s.groupOfCore c) (hd : d = (s.groupAt g).domain j) (aligned : a % 256 = 0) (bounded : n ≤ 4194304)
    (guard : guardTrap (found (.xend w) s) s.cx a n false true = none) (plain : (s.coreAt c).personality a n = false)
    (member : d.has (s.coreAt c) = true) (first : ∀ x ∈ d.arrivals, x.core ≠ c)
    (harrival : arrival = { core := c, xend := true, cap := n, area := a, packets := (s.coreAt c).xputs, cyc := s.now }) :
    ∃ t, exec (.xend w) s = .next t ∧ (t.coreAt c).xputs = [] ∧ ((t.groupAt g).domain j).arrivals = d.arrivals ++ [arrival] ∧
      ((∀ x ∈ s.domainMembers g d, x = c ∨ ∃ y ∈ d.arrivals, y.core = x) → t.dueAt (s.now + 40) prioRelease (.barrierRelease g j)) ∧
      t.mine.pc = s.mine.pc + 1 ∧ t.mine.flight = s.mine.flight ∧ moved w.a s.mine t.mine ∧ bytesKept s t := by
  have only := onlyMine_issued s ⟨0x24a, fXend, w⟩
  have core := State.cx_core hc
  have base : ((s.issued ⟨0x24a, fXend, w⟩).self s.cx).base w.a false = a := by
    rw [State.issued_self, State.issued_mine, Thread.issued_base, ha]
  have unguarded : guardTrap (s.issued ⟨0x24a, fXend, w⟩) s.cx a n false true = none := guard
  obtain ⟨v, ok, arrives, last⟩ := issued_arrives (twice := 0x1C2) hc ⟨0x24a, fXend, w⟩ hg hd
    (a := arrival) ⟨by rw [harrival], member, first, by rw [harrival]; exact nofun⟩
  have kept := storesKept_trans arrives.stores (storesKept_modCore v c (f := Core.sendQueue) fun _ => ⟨rfl, rfl, rfl, rfl⟩)
  have mine := (State.modCore_mine v c (f := Core.sendQueue) fun _ _ => rfl).trans arrives.mine
  obtain ⟨next, on⟩ : exec (.xend w) s = .next ((v.modCore c Core.sendQueue).advanceNow s.cx w.a) ∧ movedOn w.a s _ := by
    rw [exec_xend, execXend]
    refine issue_movedOn h word_xend kept mine ?_
    simp only [State.issued_self_src, ← hn, ← hj, base, core, aligned, onlyMine_personality only, plain,
      onlyMine_xputs only, State.issued_now, unguarded, causeIf, firstTrap, checked, decide_eq_false (Nat.not_lt.mpr bounded), bne_self_eq_false,
      Bool.false_eq_true, if_false, ← harrival, ok]
    rfl
  have cur : (v.modCore c Core.sendQueue).cur = s.cx.ag := arrives.stores.cur.trans (State.issued_cur s _)
  have after := onlyMine_advanceNow (cx := s.cx) cur w.a
  have groupAt := onlyMine_groupAt after g
  refine ⟨_, next, ?_, ?_, fun all => ?_, on.pc, on.flight, on.moved, on.bytes⟩
  · rw [onlyMine_xputs after, State.modCore, State.setCore_coreAt_same, Core.sendQueue]
  · rw [groupAt]
    exact arrives.arrivals
  · exact after.2.2.2.2.2 _ (last all).2

/-! The release (R68, R322, R323). -/

/-- The total of a release, which BARW pushes. -/
def releaseFlight (cx : Cx) (s : State) (r : Release) : Flight :=
  { dest := .none, value := BitVec.ofNat 64 r.total, push := true, land := s.now + (if cx.again then 0 else 1), word := cx.pc, seq := s.fresh,
    lat := if cx.again then 0 else 1 }

/-- The state once the release has been taken and its total has been sent on its way. -/
def State.takeRelease (s : State) (cx : Cx) (j : Nat) (total : Bool) (r : Release) : State :=
  let s := s.modCore cx.c (Core.dropRelease j)
  if total then s.land cx.ag cx.pc .none (BitVec.ofNat 64 r.total) true (if cx.again then 0 else 1) else s

/-- What a release that has been taken leaves: the thread but for the total on its way, every store, and what the selector reads. -/
structure releaseTaken (cx : Cx) (j : Nat) (l : List Flight) (s t : State) : Prop where
  stores : storesKept s t
  mine : t.mine = { s.mine with flight := s.mine.flight ++ l }
  groups : t.groups = s.groups
  selector : ∀ c, (t.coreAt c).selector = (s.coreAt c).selector
  rels : SMap.find (t.coreAt cx.c).rels j = none
  todo : t.todo = s.todo
  due : ∀ f ∈ l, t.dueAt f.land prioLanding (.resultLanding cx.ag)

theorem releaseTaken_dropRelease (cx : Cx) (j : Nat) (s : State) : releaseTaken cx j [] s (s.modCore cx.c (Core.dropRelease j)) where
  stores := storesKept_dropRelease s cx.c j
  mine := by
    rw [State.modCore_mine s cx.c (f := Core.dropRelease j) fun _ _ => rfl, List.append_nil]
  groups := rfl
  selector := State.modCore_coreAt Core.selector (f := Core.dropRelease j) (fun _ => rfl) s cx.c
  rels := by
    rw [State.modCore, State.setCore_coreAt_same, Core.dropRelease]
    exact SMap.find_erase_same _ _
  todo := rfl
  due := nofun

theorem releaseTaken_takeRelease {s : State} {cx : Cx} (cur : s.cur = cx.ag) (j : Nat) (total : Bool) (r : Release) :
    releaseTaken cx j (if total then [releaseFlight cx s r] else []) s (s.takeRelease cx j total r) := by
  have dropped := releaseTaken_dropRelease cx j s
  cases total with
  | false => exact dropped
  | true =>
    have cur' : (s.modCore cx.c (Core.dropRelease j)).cur = cx.ag := cur
    have only : onlyMine (s.modCore cx.c (Core.dropRelease j)) (s.takeRelease cx j true r) := by
      rw [State.takeRelease, if_pos rfl, ← cur']
      exact onlyMine_land _ _ _ _ _ _
    have groups := onlyMine_groups only
    have todo : (s.takeRelease cx j true r).todo = (s.modCore cx.c (Core.dropRelease j)).todo := (congrArg State.todo only.1 :)
    exact {
      stores := storesKept_trans dropped.stores (storesKept_of_onlyMine only)
      mine := by
        rw [State.takeRelease, if_pos rfl, ← cur', State.land_mine, dropped.mine, List.append_nil]
        rfl
      groups := groups
      selector := fun c => (onlyMine_selector only c).trans (dropped.selector c)
      rels := by
        rw [onlyMine_rels only]
        exact dropped.rels
      todo := todo
      due := fun f hf => by
        rw [if_pos rfl, List.mem_singleton] at hf
        subst hf
        exact State.land_dueAt _ _ _ _ _ _ _ }

/-- A wait of the control context that finds its release goes on with an anchor (R68, R323). -/
theorem awaitRelease_goesOn {s : State} {cx : Cx} {j : Nat} {total : Bool} {r : Release} (cur : s.cur = cx.ag)
    (there : SMap.find (s.coreAt cx.c).rels j = some r) (good : r.fail = none)
    (stay : cx.t = 0 → selectState s cx.c cx.pc (some (r.maxSz, r.maxTotal)) = .stay) :
    ∃ t, awaitRelease cx j total s = .done (if cx.again then { t with todo := .thr cx.c cx.t :: t.todo } else t) ∧
      goesOn cx (if cx.again then s.now else s.now + 1) j (s.takeRelease cx j total r) t := by
  have taken := releaseTaken_takeRelease cur j total r
  obtain ⟨t, done, goes⟩ := anchorAt_goesOn (cx := cx) (a := if cx.again then s.now else s.now + 1) (dom := j) (taken.stores.cur.trans cur) fun control =>
    (selectState_congr taken.groups (taken.selector cx.c) cx.pc (some (r.maxSz, r.maxTotal))).trans (stay control)
  refine ⟨t, ?_, goes⟩
  rw [← taken.stores.now] at done
  delta State.takeRelease Core.dropRelease at done
  simp only [awaitRelease, there, good]
  rw [done]

theorem exec_barw_takesRelease {w : Fields} {s : State} {c j : Nat} {r : Release} (hc : s.cur = .core c 0) (h : issues (.barw w) s = true)
    (hj : j = w.a.immInt.toNat) (there : SMap.find (s.coreAt c).rels j = some r) (good : r.fail = none)
    (stay : selectState (found (.barw w) s) c s.mine.pc (some (r.maxSz, r.maxTotal)) = .stay) :
    ∃ t, exec (.barw w) s = .next t ∧ lands s t .none (BitVec.ofNat 64 r.total) true 1 ∧ t.mine.pc = s.mine.pc + 1 ∧
      t.mine.anchor = s.now + 1 ∧ t.mine.anchorDom = j ∧ t.mine.fresh = true ∧ SMap.find (t.coreAt c).rels j = none ∧
      registersKept s.mine t.mine ∧ bytesKept s t := by
  have only := onlyMine_issued s ⟨0x282, fBarw, w⟩
  have core := State.cx_core hc
  have cur : (s.issued ⟨0x282, fBarw, w⟩).cur = s.cx.ag := State.issued_cur s _
  have fresh : s.cx.again = false := (passes_iff (issues_iff h).1).1
  have taken := releaseTaken_takeRelease cur j true r
  obtain ⟨t, done, goes⟩ := awaitRelease_goesOn (total := true) cur (by rw [core, onlyMine_rels only, there]) good fun _ => core.symm ▸ stay
  simp only [fresh, Bool.false_eq_true, if_false, State.issued_now] at done goes
  have kept : storesKept s t := storesKept_trans (storesKept_issued s _) (storesKept_trans taken.stores goes.stores)
  have flight : t.mine.flight = s.mine.flight ++ [releaseFlight s.cx (s.issued ⟨0x282, fBarw, w⟩) r] := by
    rw [goes.flight, taken.mine, State.issued_mine, Thread.issued_flight]
    rfl
  have pc : t.mine.pc = s.mine.pc + 1 := by
    rw [goes.pc, taken.mine, State.issued_mine]
    exact Thread.issued_pc _ _ _ _
  have stat : t.mine.stat = .run := by
    rw [goes.stat, taken.mine, State.issued_mine]
    exact (Thread.issued_stat _ _ _ _).trans (passes_run (issues_iff h).1 word_barw)
  have next : exec (.barw w) s = .next t := by
    rw [exec_barw, execBarw]
    refine afterWait_next (issue_done_adds (issues_iff h).1 word_barw (hj ▸ done) kept.cur (storesKept_tilesInFlight kept _) flight (Nat.le_add_left 1 3)
      fun _ f hf r packed => ?_) kept.cur stat
    rw [List.mem_singleton.mp hf] at packed
    exact nomatch packed
  obtain ⟨anchor, dom, begins, _⟩ := goes.anchor (State.cx_thread hc)
  have land : (releaseFlight s.cx (s.issued ⟨0x282, fBarw, w⟩) r).land = s.now + 1 := by
    rw [releaseFlight, fresh, State.issued_now]
    rfl
  have due := taken.due _ (List.mem_singleton.mpr rfl)
  rw [land, State.dueAt, ← goes.agenda] at due
  refine ⟨t, next, ⟨_, flight, rfl, rfl, rfl, land, rfl, rfl, due⟩, pc, anchor, dom, begins, ?_, ?_, bytesKept_of_storesKept kept⟩
  · rw [goes.rels, ← core]
    exact taken.rels
  · have registers := goes.registers
    rw [taken.mine] at registers
    exact registersKept_trans (State.issued_registersKept _) registers

/-! A word that has waited and is executed again (R323). -/

theorem State.again_cur (s : State) : (s.again s.cx).cur = s.cur := onlyMine_cur (onlyMine_modThread s _)

theorem State.again_mine (s : State) :
    (s.again s.cx).mine = { s.mine with waiting := false, pc := s.mine.pc + 1, openTo := if s.cx.timed then s.mine.openTo else s.now } :=
  State.modThread_mine rfl _

theorem onlyMine_again (s : State) : onlyMine s (s.again s.cx) := onlyMine_modThread s _

/-- A wait that is over is the word's last execution. -/
theorem issue_again_done {i : Instr} {x : WordOf} {body : Cx → Fields → State → Verdict} {s t : State} (hw : i.word = some x)
    (waiting : s.mine.waiting = true) (hb : body s.cx x.w (s.again s.cx) = .done t) (fits : t.inFlight s.cur ≤ 32) : issue i body s = .next t := by
  have again : s.cx.again = true := waiting
  have ag : s.cx.ag = s.cur := rfl
  have notOver : overfull t s.cur = false := decide_eq_false (Nat.not_lt.mpr fits)
  rw [issue_again hw waiting, hb]
  simp [finish, ag, notOver, lateCollision, again]

/-- A wait whose release has come ends on the release's cycle, and its thread's next word may issue on that cycle. -/
theorem exec_takesRelease_again {i : Instr} {w : Fields} {s : State} {c j : Nat} {r : Release} {total : Bool}
    {body : Cx → Fields → State → Verdict} {x : WordOf} (hc : s.cur = .core c 0) (waiting : s.mine.waiting = true) (run : s.mine.stat = .run)
    (room : s.inFlight s.cur ≤ 31) (hw : i.word = some x) (hx : x.w = w) (he : exec i s = afterWait s.cx j (issue i body s))
    (hb : body s.cx w (s.again s.cx) = awaitRelease s.cx j total (s.again s.cx)) (there : SMap.find (s.coreAt c).rels j = some r)
    (good : r.fail = none) (stay : selectState (s.again s.cx) c s.mine.pc (some (r.maxSz, r.maxTotal)) = .stay) :
    ∃ t, exec i s = .next t ∧ t.mine.pc = s.mine.pc + 1 ∧ t.mine.waiting = false ∧ t.mine.anchor = s.now ∧ t.mine.anchorDom = j ∧
      t.mine.fresh = true ∧ SMap.find (t.coreAt c).rels j = none ∧ registersKept s.mine t.mine ∧ t.todo = .thr c 0 :: s.todo ∧
      t.mine.flight = s.mine.flight ++ (if total then [releaseFlight s.cx (s.again s.cx) r] else []) ∧ bytesKept s t := by
  subst hx
  have only := onlyMine_again s
  have core := State.cx_core hc
  have thread := State.cx_thread hc
  have again : s.cx.again = true := waiting
  have cur : (s.again s.cx).cur = s.cx.ag := State.again_cur s
  have taken := releaseTaken_takeRelease cur j total r
  obtain ⟨t, done, goes⟩ := awaitRelease_goesOn (total := total) cur (by rw [core, onlyMine_rels only, there]) good fun _ => core.symm ▸ stay
  simp only [again, if_true, onlyMine_now only] at done goes
  have kept : storesKept s t := storesKept_trans (storesKept_of_onlyMine only) (storesKept_trans taken.stores goes.stores)
  have flight : t.mine.flight = s.mine.flight ++ (if total then [releaseFlight s.cx (s.again s.cx) r] else []) := by
    rw [goes.flight, taken.mine, State.again_mine]
  have few : (if total then [releaseFlight s.cx (s.again s.cx) r] else []).length ≤ 1 := by
    cases total with
    | false => exact Nat.zero_le _
    | true => exact Nat.le_refl _
  have stat : t.mine.stat = .run := by rw [goes.stat, taken.mine, State.again_mine]; exact run
  obtain ⟨anchor, dom, begins, _⟩ := goes.anchor thread
  have whole : storesKept s { t with todo := .thr s.cx.c s.cx.t :: t.todo } := storesKept_trans kept (storesKept_of_cores rfl rfl rfl rfl rfl rfl)
  have fits : ({ t with todo := .thr s.cx.c s.cx.t :: t.todo } : State).inFlight s.cur ≤ 32 := by
    have mine : ({ t with todo := .thr s.cx.c s.cx.t :: t.todo } : State).threadOf s.cur = t.mine := by
      rw [State.mine, kept.cur]
      cases s.cur <;> rfl
    have count : s.inFlight s.cur = s.mine.flight.length + s.tilesInFlight s.cur := rfl
    rw [State.inFlight, storesKept_tilesInFlight whole, mine, flight, List.length_append]
    omega
  have same : ({ t with todo := .thr s.cx.c s.cx.t :: t.todo } : State).mine = t.mine := State.mine_congr rfl rfl rfl
  refine ⟨{ t with todo := .thr s.cx.c s.cx.t :: t.todo }, ?_, ?_, ?_, same ▸ anchor, same ▸ dom, same ▸ begins, ?_, ?_, ?_, same ▸ flight,
    bytesKept_of_storesKept whole⟩
  · rw [he]
    exact afterWait_next (issue_again_done hw waiting (hb.trans done) fits) kept.cur (same ▸ stat)
  · rw [same, goes.pc, taken.mine, State.again_mine]
  · rw [same, goes.waiting, taken.mine, State.again_mine]
  · have rels := goes.rels c
    rw [← core] at rels ⊢
    exact (congrArg (SMap.find · j) rels).trans taken.rels
  · have registers := goes.registers
    rw [taken.mine, State.again_mine] at registers
    exact same ▸ registers
  · rw [core, thread, goes.todo, taken.todo]
    exact congrArg _ (congrArg State.todo only.1 :)

/-! A wait without a release, and one whose release has failed (R270, R325). -/

/-- What a wait leaves of its failed release concerns no thread. -/
theorem afterWait_threads (cx : Cx) (j : Nat) (t : State) : ∃ v, afterWait cx j (.next t) = .next v ∧ v.mine = t.mine := by
  unfold afterWait
  refine ⟨_, rfl, (apply_ite State.mine _ _ _).trans
    ((ite_congr rfl (fun _ => rfl) fun _ => State.modCore_mine t cx.c fun k u => ?_).trans (ite_self _))⟩
  cases SMap.find k.rels j with
  | none => rfl
  | some r =>
    simp only []
    rw [apply_ite (Core.thread · u), apply_ite (Core.thread · u)]
    exact (ite_congr rfl (fun _ => rfl) fun _ => ite_self _).trans (ite_self _)

section
variable {w : Fields} {s : State} {c j : Nat} (hc : s.cur = .core c 0) (h : issues (.barw w) s = true) (hj : j = w.a.immInt.toNat)
include hc h hj

theorem exec_barw_waits (pending : SMap.find (s.coreAt c).rels j = none)
    (member : ((s.groupAt (s.groupOfCore c)).domain j).has (s.coreAt c) = true)
    (arrived : ∃ x ∈ ((s.groupAt (s.groupOfCore c)).domain j).arrivals, x.core = c) :
    ∃ t, exec (.barw w) s = .next t ∧ t.mine.waiting = true ∧ t.mine.pc = s.mine.pc ∧ t.mine.flight = s.mine.flight ∧
      registersKept s.mine t.mine ∧ onlyMine s t ∧ bytesKept s t := by
  have only := onlyMine_issued s ⟨0x282, fBarw, w⟩
  have core := State.cx_core hc
  have cur : (s.issued ⟨0x282, fBarw, w⟩).cur = s.cx.ag := State.issued_cur s _
  have waits := waitsHere_markWaiting h word_barw (storesKept_refl _) rfl
  have marked := onlyMine_markWaiting cur
  have awaits : awaitRelease s.cx j true (s.issued ⟨0x282, fBarw, w⟩) = .wait (s.issued ⟨0x282, fBarw, w⟩) := by
    have gathered : (((s.groupAt (s.groupOfCore c)).domain j).arrivals.any fun x => x.core == c) = true := by simpa using arrived
    simp only [awaitRelease, core, onlyMine_rels only, pending, onlyMine_groupOfCore only, onlyMine_groupAt only, onlyMine_has only, member, gathered,
      Bool.and_self, if_true]
  have next : exec (.barw w) s = .next ((s.issued ⟨0x282, fBarw, w⟩).markWaiting s.cx) := by
    rw [exec_barw, execBarw]
    exact afterWait_next (issue_marksWaiting h word_barw (storesKept_refl _) rfl (hj ▸ awaits)) ((onlyMine_cur marked).trans cur) waits.stat
  exact ⟨_, next, waits.waiting, waits.pc, waits.flight, waits.registers, onlyMine_trans only marked, waits.bytes⟩

/-- A wait that finds a cause traps with it. -/
theorem exec_barw_traps {n : TrapInfo} (claim : n.claim = none) (cause : awaitRelease s.cx j true (s.issued ⟨0x282, fBarw, w⟩) = .trap n) :
    ∃ t r, exec (.barw w) s = .next t ∧ trappedWith s.mine t.mine s.mine.pc n r := by
  have issued := issue_traps (issues_iff h).1 word_barw claim (body := fun cx w s => awaitRelease cx w.a.immInt.toNat true s) (hj ▸ cause)
  obtain ⟨v, next, mine⟩ := afterWait_threads s.cx j (s.takeTrap s.cur s.mine.pc n)
  obtain ⟨r, trapped⟩ := s.takeTrap_thread (c := c) (t := 0) (Nat.zero_le _) s.mine.pc n
  refine ⟨v, r, ?_, ?_⟩
  · rw [exec_barw, execBarw, issued, ← hj]
    exact next
  · have cur : (s.takeTrap (.core c 0) s.mine.pc n).cur = .core c 0 := (s.takeTrap_cur (Nat.zero_le _) _ _).trans hc
    have self : s.mine = s.threadOf (.core c 0) := (State.mine_of_cur hc).symm
    rw [hc] at mine
    rw [mine, ← State.mine_of_cur cur]
    exact self ▸ trapped

theorem exec_barw_noArrival (pending : SMap.find (s.coreAt c).rels j = none)
    (absent : ((s.groupAt (s.groupOfCore c)).domain j).has (s.coreAt c) = false ∨ ∀ x ∈ ((s.groupAt (s.groupOfCore c)).domain j).arrivals, x.core ≠ c) :
    ∃ t, exec (.barw w) s = .next t ∧ t.mine.stat = .trapped ∧ (t.mine.trap.map fun x => (x.cause, x.epcw)) = some (0x1C5, s.mine.pc) ∧
      registersKept s.mine t.mine ∧ t.mine.flight = s.mine.flight := by
  have only := onlyMine_issued s ⟨0x282, fBarw, w⟩
  have none_here : (((s.groupAt (s.groupOfCore c)).domain j).has (s.coreAt c) &&
      ((s.groupAt (s.groupOfCore c)).domain j).arrivals.any fun x => x.core == c) = false := by
    rcases absent with out | missing
    · rw [out, Bool.false_and]
    · rw [Bool.and_eq_false_iff]
      exact .inr (by simpa using missing)
  obtain ⟨t, r, next, trapped⟩ := exec_barw_traps hc h hj (n := { cause := 0x1C5 }) rfl (by
    simp only [awaitRelease, State.cx_core hc, onlyMine_rels only, pending, onlyMine_groupOfCore only, onlyMine_groupAt only, onlyMine_has only,
      none_here, Bool.false_eq_true, if_false]
    rfl)
  have cause : r.cause = 0x1C5 := trapped.cause.resolve_right fun ⟨_, timing⟩ => absurd timing (by decide)
  refine ⟨t, next, trapped.stat, ?_, trapped.registers, trapped.flight⟩
  rw [trapped.trap, Option.map_some, cause, trapped.epcw]
  rfl

theorem exec_barw_failed {n : Nat} {r : Release} (there : SMap.find (s.coreAt c).rels j = some r) (failed : r.fail = some n) :
    ∃ t, exec (.barw w) s = .next t ∧ t.mine.stat = .trapped ∧ (timingCause n = false → t.mine.trap.map (·.cause) = some n) ∧
      t.mine.trap.map (·.record) = some r.record := by
  have only := onlyMine_issued s ⟨0x282, fBarw, w⟩
  obtain ⟨t, q, next, trapped⟩ := exec_barw_traps hc h hj (n := { cause := n, record := r.record }) rfl (by
    simp only [awaitRelease, State.cx_core hc, onlyMine_rels only, there, failed]
    rfl)
  refine ⟨t, next, trapped.stat, fun precise => ?_, ?_⟩
  · rw [trapped.trap, Option.map_some, trapped.cause.resolve_right fun ⟨_, timing⟩ => ?_]
    simp [precise] at timing
  · rw [trapped.trap, Option.map_some, trapped.record]

end

/-- Settles O39: a domain is configured, its members arrive, and a wait goes on at its release, waits before it, or traps. -/
theorem barrierWordsConfigureArriveAndWait : Obligations.BarrierWordsConfigureArriveAndWait := by
  unfold Obligations.BarrierWordsConfigureArriveAndWait
  refine ⟨⟨?configures, ?arrives, ?queues, ?sends⟩, ?takes, ?goesOn, ?waits, ?noArrival, ?failed⟩
  case configures =>
    intro w s c k g j hc h hg hj narrow good
    exact exec_barcfg_configures hc h hg hj narrow good
  case arrives =>
    intro w s c k g j d hc hg hj hd member first proof pending
    have may : mayArrive s c d { core := c, proof := w.m.getLsbD 0, cyc := s.now } := ⟨rfl, member, first, fun given => hg ▸ proof given⟩
    exact ⟨exec_bara_arrives hc hg hj hd may, exec_bar_arrives hc hg hj hd may pending⟩
  case queues =>
    intro w s u c k a n r g hc h hu hr logical low target ha hn guard plain room
    subst hu
    exact exec_xput_queues hc h hr logical low target ha hn guard plain room rfl
  case sends =>
    intro w s u c k a n g j d hc h hu ha hn hj hg hd aligned bounded guard plain member first
    subst hu
    exact exec_xend_arrives hc h ha hn hj hg hd aligned bounded guard plain member first rfl
  case takes =>
    intro w s u c j r hc h hu hj there good stay
    subst hu
    exact exec_barw_takesRelease hc h hj there good stay
  case goesOn =>
    intro i w s u c j r hi hc waiting run room hu hj there good stay
    subst hu hj
    rcases hi with rfl | rfl
    · obtain ⟨t, next, pc, waited, anchor, dom, begins, rels, registers, todo, flight, bytes⟩ :=
        exec_takesRelease_again (total := true) hc waiting run room word_barw rfl rfl rfl there good stay
      refine ⟨t, next, pc, waited, anchor, dom, begins, rels, registers, todo, nofun, fun _ => ⟨_, flight, rfl, rfl, ?_, rfl⟩, bytes⟩
      have again : s.cx.again = true := waiting
      rw [releaseFlight, again, onlyMine_now (onlyMine_again s)]
      rfl
    · obtain ⟨t, next, pc, waited, anchor, dom, begins, rels, registers, todo, flight, bytes⟩ :=
        exec_takesRelease_again (total := false) hc waiting run room word_bar rfl rfl (if_pos waiting) there good stay
      exact ⟨t, next, pc, waited, anchor, dom, begins, rels, registers, todo, fun _ => flight.trans (List.append_nil _), nofun, bytes⟩
  case waits =>
    intro w s c j hc h hj pending member arrived
    exact exec_barw_waits hc h hj pending member arrived
  case noArrival =>
    intro w s c j hc h hj pending absent
    exact exec_barw_noArrival hc h hj pending absent
  case failed =>
    intro w s c j n r hc h hj there failed
    exact exec_barw_failed hc h hj there failed

end Sys2Proof.Machine
end

section
/-! Accesses of scalar loads and stores: what waits at a bank, and the writes that are held (R71, R72, R88, R173 to R176). -/

namespace Sys2Proof.Machine

/-! The held writes and the waiting accesses of a place. -/

theorem State.setAcc_threadOf (s : State) (p : Place) (l : List Acc) (ag : Agent) : (s.setAcc p l).threadOf ag = s.threadOf ag := by
  cases p with
  | core c => exact State.modCore_threadOf (f := fun k => { k with acc := l }) (fun _ _ => rfl) ag
  | cluster k => rfl

theorem State.setPend_threadOf (s : State) (p : Place) (l : List PendWrite) (ag : Agent) : (s.setPend p l).threadOf ag = s.threadOf ag := by
  cases p with
  | core c => exact State.modCore_threadOf (f := fun k => { k with pend := l }) (fun _ _ => rfl) ag
  | cluster k => rfl

theorem State.setAcc_cur (s : State) (p : Place) (l : List Acc) : (s.setAcc p l).cur = s.cur := by cases p <;> rfl
theorem State.setPend_cur (s : State) (p : Place) (l : List PendWrite) : (s.setPend p l).cur = s.cur := by cases p <;> rfl

theorem State.setAcc_mine (s : State) (p : Place) (l : List Acc) : (s.setAcc p l).mine = s.mine := by
  rw [State.mine, State.setAcc_cur, State.setAcc_threadOf, State.mine]

theorem State.setPend_mine (s : State) (p : Place) (l : List PendWrite) : (s.setPend p l).mine = s.mine := by
  rw [State.mine, State.setPend_cur, State.setPend_threadOf, State.mine]

theorem State.modCluster_clusterAt (s : State) (k j : Nat) (f : Cluster → Cluster) :
    (s.modCluster k f).clusterAt j = if j = k then f (s.clusterAt k) else s.clusterAt j := SMap.get_put _ _ _ _ _

theorem State.setAcc_accOf (s : State) (p : Place) (l : List Acc) : (s.setAcc p l).accOf p = l := by
  cases p with
  | core c => simp only [State.setAcc, State.accOf, State.modCore, State.setCore_coreAt_same]
  | cluster k => simp only [State.setAcc, State.accOf, State.modCluster_clusterAt, if_true]

theorem State.setAcc_pendOf (s : State) (p q : Place) (l : List Acc) : (s.setAcc p l).pendOf q = s.pendOf q := by
  cases p with
  | core c =>
    cases q with
    | core d => exact State.modCore_coreAt Core.pend (f := fun k => { k with acc := l }) (fun _ => rfl) s c d
    | cluster k => rfl
  | cluster k =>
    cases q with
    | core d => rfl
    | cluster j =>
      simp only [State.setAcc, State.pendOf, State.modCluster_clusterAt]
      split
      · rename_i hj
        rw [hj]
      · rfl

theorem State.setPend_pendOf (s : State) (p q : Place) (l : List PendWrite) : (s.setPend p l).pendOf q = if q = p then l else s.pendOf q := by
  cases p with
  | core c =>
    cases q with
    | core d =>
      by_cases hd : d = c
      · subst hd
        simp only [State.setPend, State.pendOf, State.modCore, State.setCore_coreAt_same, if_true]
      · simp only [State.setPend, State.pendOf, State.modCore, State.setCore_coreAt_other _ _ _ _ hd, Place.core.injEq, hd, if_false]
    | cluster k => rfl
  | cluster k =>
    cases q with
    | core d => rfl
    | cluster j =>
      simp only [State.setPend, State.pendOf, State.modCluster_clusterAt, Place.cluster.injEq]
      split <;> rfl

/-! What a word of a core changes in its core and in the clusters. -/

theorem onlyCore_of_onlyMine {free : Core → Core → Core} {s t : State}
    (rest : ∀ a b, coreKept a b → coreBut free a b) (h : onlyMine s t) (reqThreads : t.reqThreads = s.reqThreads) : onlyCore free s t := by
  have memory := onlyMine_bytesKept h
  have threads := othersKept_of_onlyMine h
  obtain ⟨whole, _, cores, others, _, _⟩ := h
  refine ⟨?_, others, fun d => rest _ _ (cores d), threads, memory.2.2.1⟩
  rw [whole, reqThreads]

/-- A further change of the executing core that the statement leaves open. -/
theorem onlyCore_modCore {free : Core → Core → Core} {s t : State} {c k : Nat} {f : Core → Core} (hc : s.cur = .core c k)
    (rest : ∀ a b, coreBut free a b → coreBut free a (f b)) (threads : ∀ b u, (f b).thread u = b.thread u) (mem : ∀ b, (f b).mem = b.mem)
    (h : onlyCore free s t) : onlyCore free s (t.modCore c f) := by
  obtain ⟨whole, others, cores, threadsKept, bytes⟩ := h
  have other (d : Nat) (hd : d ≠ c) : (t.modCore c f).coreAt d = t.coreAt d := State.setCore_coreAt_other _ _ _ _ hd
  refine ⟨?_, fun d hd => ?_, fun d => ?_, fun ag ha => ?_, fun p a => ?_⟩
  · rw [whole]
    rfl
  · rw [other d fun e => hd k (by rw [hc, e])]
    exact others d hd
  · by_cases hd : d = c
    · rw [hd, State.modCore, State.setCore_coreAt_same]
      exact rest _ _ (cores c)
    · rw [other d hd]
      exact cores d
  · rw [State.modCore_threadOf threads]
    exact threadsKept ag ha
  · rw [← bytes p a]
    cases p with
    | core d => exact congrArg (memByte · a) (State.modCore_coreAt Core.mem mem t c d)
    | cluster j => rfl

/-- A further change of a cluster that leaves its memory. -/
theorem onlyCore_modCluster {free : Core → Core → Core} {s t : State} {j : Nat} {f : Cluster → Cluster} (mem : ∀ v, (f v).mem = v.mem)
    (h : onlyCore free s t) : onlyCore free s (t.modCluster j f) := by
  obtain ⟨whole, others, cores, threadsKept, bytes⟩ := h
  refine ⟨?_, others, cores, threadsKept, fun p a => ?_⟩
  · rw [whole]
    rfl
  · rw [← bytes p a]
    cases p with
    | core d => rfl
    | cluster i =>
      simp only [State.memOf, State.modCluster_clusterAt]
      split
      · rename_i hi
        rw [mem, hi]
      · rfl

/-! The parts of a core that scalar accesses change. -/

theorem coreBut_access_of_kept {a b : Core} (kept : coreKept a b) : coreBut accessState a b := by
  unfold coreBut accessState
  unfold coreKept at kept
  rw [kept]

section
variable {a b : Core} (h : coreBut accessState a b)
include h

theorem coreBut_access_kept {x : Core} (kept : coreKept b x) : coreBut accessState a x := by
  unfold coreBut coreKept accessState at *
  rw [kept, h]

theorem coreBut_access_acc (l : List Acc) : coreBut accessState a { b with acc := l } := (congrArg (fun k : Core => { k with acc := l }) h :)

theorem coreBut_access_pend (l : List PendWrite) : coreBut accessState a { b with pend := l } := (congrArg (fun k : Core => { k with pend := l }) h :)

end

section
variable {s t : State} {c k : Nat} (hc : s.cur = .core c k) (h : onlyCore accessState s t) (a : Nat)
include hc h

theorem onlyCore_setAcc (l : List Acc) : onlyCore accessState s (t.setAcc (placeOf c a) l) := by
  unfold placeOf
  split
  · exact onlyCore_modCluster (f := fun v => { v with acc := l }) (fun _ => rfl) h
  · exact onlyCore_modCore hc (fun _ _ kept => coreBut_access_acc kept l) (fun _ _ => rfl) (fun _ => rfl) h

theorem onlyCore_setPend (l : List PendWrite) : onlyCore accessState s (t.setPend (placeOf c a) l) := by
  unfold placeOf
  split
  · exact onlyCore_modCluster (f := fun v => { v with pend := l }) (fun _ => rfl) h
  · exact onlyCore_modCore hc (fun _ _ kept => coreBut_access_pend kept l) (fun _ _ => rfl) (fun _ => rfl) h

end

theorem onlyCore_access_tilesInFlight {s t : State} (h : onlyCore accessState s t) (ag : Agent) : t.tilesInFlight ag = s.tilesInFlight ag := by
  obtain ⟨_, _, cores, _, _⟩ := h
  cases ag with
  | req id => rfl
  | core d u =>
    have engs : (t.coreAt d).engs = (s.coreAt d).engs := (congrArg Core.engs (cores d) :)
    have vecs : (t.coreAt d).vecs = (s.coreAt d).vecs := (congrArg Core.vecs (cores d) :)
    cases u with
    | zero => simp only [State.tilesInFlight, Core.tileEntries, engs, vecs]
    | succ n => rfl

/-! An access that is noted at its bank (R88). -/

section
variable {s : State} {c k : Nat} (cx : Cx) (x : Access) (key : Nat)

theorem State.noteAccess_mine : (s.noteAccess cx x key).mine = s.mine := State.setAcc_mine _ _ _
theorem State.noteAccess_cur : (s.noteAccess cx x key).cur = s.cur := State.setAcc_cur _ _ _
theorem State.noteAccess_pendOf (p : Place) : (s.noteAccess cx x key).pendOf p = s.pendOf p := State.setAcc_pendOf _ _ _ _

theorem onlyCore_noteAccess {v : State} (hc : s.cur = .core c k) (core : cx.c = c) (h : onlyCore accessState s v) :
    onlyCore accessState s (v.noteAccess cx x key) := by
  subst core
  exact onlyCore_setAcc hc h _ _

/-- What is noted of the access. -/
theorem State.noteAccess_accOf : ∃ q ∈ (s.noteAccess cx x key).accOf (placeOf cx.c x.addr.ea), q.bank = bankIn x.addr.ea ∧
    q.arrive = accessCycle s x.addr.ea ∧ q.who = requester cx.t ∧ q.core = cx.c ∧ q.first = cx.timed ∧ q.scalar = true ∧ q.addr = x.addr.ea ∧
    q.key = key := by
  unfold State.noteAccess
  rw [State.setAcc_accOf]
  exact ⟨_, List.mem_append_right _ (List.mem_singleton.mpr rfl), rfl, rfl, rfl, rfl, rfl, rfl, rfl, rfl⟩

end

/-! The advance of a pointer (R26, R65, R173). -/

/-- The landing of an advanced pointer. -/
def ptrFlight (cx : Cx) (s : State) (o : Operand) (by_ : Int) (lat : Nat) : Flight :=
  { dest := .a o.num, push := false, land := s.now + lat, word := cx.pc, seq := s.fresh, lat := lat,
    value := ({ s.mine.readA o.num with base := (s.mine.readA o.num).base + BitVec.ofInt 24 by_ } : Ptr).image }

section
variable {s : State} {cx : Cx} (cur : s.cur = cx.ag) (o : Operand) (by_ : Int) (lat : Nat)
include cur

theorem onlyMine_advance : onlyMine s (s.advance cx o by_ lat) := by
  unfold State.advance
  split
  · rw [← cur]
    exact onlyMine_land _ _ _ _ _ _
  · exact onlyMine_refl s

theorem State.advance_mine : (s.advance cx o by_ lat).mine =
    { s.mine with flight := s.mine.flight ++ if o.inc then [ptrFlight cx s o by_ lat] else [] } := by
  have self : s.self cx = s.mine := State.mine_of_cur cur
  unfold State.advance
  split
  · rw [← cur, State.land_mine, self]
    rfl
  · rw [List.append_nil]

omit cur in
theorem State.advance_reqThreads {c k : Nat} (hc : cx.ag = .core c k) : (s.advance cx o by_ lat).reqThreads = s.reqThreads := by
  unfold State.advance
  split
  · rw [hc]
    rfl
  · rfl

end

/-- A pointer that is post-incremented is one. -/
theorem Thread.stride_of_inc {th : Thread} {o : Operand} (inc : o.inc = true) : th.stride o = (th.readA o.num).stride.toInt := by
  have kind : o.kind = .ptr := by
    simp only [Operand.inc, Bool.and_eq_true, beq_iff_eq] at inc
    exact inc.1
  simp only [Thread.stride, kind]

/-! Results that land alone (R70). -/

section
variable {s : State} {x : WordOf} (watched : (s.cx.timed && s.wchk s.cx.c) = true)
include watched

theorem collideRecord_of_landCollide {d : Dest} {land r : Nat} (alone : landCollide (s.issued x) s.cx d land = none) (packed : d.packed = some r) :
    collideRecord s.mine r land = none := by
  have wchk : (s.issued x).wchk s.cx.c = s.wchk s.cx.c := (congrArg Core.wchk ((onlyMine_issued s x).2.2.1 s.cx.c) :)
  have same : collideRecord ((s.issued x).self s.cx) r land = collideRecord s.mine r land := by
    rw [State.issued_self, State.issued_mine]
    simp only [collideRecord, Thread.issued_flight, Thread.issued_anchor]
  rw [landCollide, wchk, if_pos watched, packed, Option.map_eq_none_iff] at alone
  exact same ▸ alone

end

end Sys2Proof.Machine
end

section
/-! Scalar loads and stores of a thread of a core (R71, R72, R173 to R176). -/

namespace Sys2Proof.Machine

/-! The word and the access that it makes. -/

theorem loadOf_issue {i : Instr} {n : Nat} {w : Fields} (h : loadOf i = some (n, w)) :
    ∃ x : WordOf, i.word = some x ∧ x.w = w ∧ ∀ s, exec i s = issue i (ldlBody n) s := by
  unfold loadOf at h
  split at h <;> cases h <;> exact ⟨_, rfl, rfl, fun _ => rfl⟩

theorem storeOf_issue {i : Instr} {n : Nat} {w : Fields} (h : storeOf i = some (n, w)) :
    ∃ x : WordOf, i.word = some x ∧ x.w = w ∧ ∀ s, exec i s = issue i (stlBody n) s := by
  unfold storeOf at h
  split at h <;> cases h <;> exact ⟨_, rfl, rfl, fun _ => rfl⟩

theorem found_of_word {i : Instr} {x : WordOf} (hw : i.word = some x) (s : State) : found i s = s.issued x := by rw [found, hw]

theorem scalarAddr_congr {s : State} {cx cx' : Cx} (ag : cx.ag = cx'.ag) (core : cx.c = cx'.c) (o p : Operand) :
    scalarAddr s cx o p = scalarAddr s cx' o p := by
  simp only [scalarAddr, State.self, ag, core]

section
variable {s : State} {c k : Nat} (hc : s.cur = .core c k) (x : WordOf)
include hc

/-- The address is the same for the word and for the state that the word has left. -/
theorem State.issued_scalarAddr (o p : Operand) : scalarAddr (s.issued x) (s.issued x).cx o p = scalarAddr (s.issued x) s.cx o p := by
  refine scalarAddr_congr (State.issued_cur s x) ?_ o p
  rw [State.cx_core hc, State.cx_core ((State.issued_cur s x).trans hc)]

theorem onlyCore_issued : onlyCore accessState s (s.issued x) := by
  obtain ⟨_, issued⟩ := State.issued_core_eq hc x
  exact onlyCore_of_onlyMine (fun _ _ => coreBut_access_of_kept) (onlyMine_issued s x) (by rw [issued])

end

theorem accessGoes_iff {s u : State} {x : Access} {given : Bool} (goes : accessGoes s u x given = true) :
    accessHeld u s.cx x = false ∧ accessTrap u s.cx x given (accessCycle u x.addr.ea) = none := by
  simpa [accessGoes] using goes

theorem State.issued_accessCycle (s : State) (x : WordOf) (a : Nat) : accessCycle (s.issued x) a = accessCycle s a := by
  rw [accessCycle, accessCycle, State.issued_now]

theorem accessCycle_eq (s : State) (a : Nat) : accessCycle s a = s.now + if isShared a then 3 else 1 := by
  unfold accessCycle
  split <;> rfl

theorem storesKept_pendOf {s t : State} (h : storesKept s t) (p : Place) : t.pendOf p = s.pendOf p := by
  cases p with
  | core c =>
    obtain ⟨_, pend, _, _⟩ := h.cores c
    exact pend
  | cluster k => simp only [State.pendOf, State.clusterAt, h.clusters]

theorem onlyMine_pendOf {s t : State} (h : onlyMine s t) (p : Place) : t.pendOf p = s.pendOf p := storesKept_pendOf (storesKept_of_onlyMine h) p

theorem onlyMine_accOf {s t : State} (h : onlyMine s t) (p : Place) : t.accOf p = s.accOf p := by
  cases p with
  | core c => exact (congrArg Core.acc (h.2.2.1 c) :)
  | cluster k =>
    have clusters := (storesKept_of_onlyMine h).clusters
    simp only [State.accOf, State.clusterAt, clusters]

/-! The end of a word that has made an access: the pointer advances (R65, R173). -/

/-- A scalar access has been made in `v`, with these results in flight. -/
structure accessMade (s v : State) (x : WordOf) (l : List Flight) : Prop where
  only : onlyCore accessState s v
  mine : v.mine = { (s.issued x).mine with flight := s.mine.flight ++ l }
  few : l.length ≤ 1
  alone : (s.cx.timed && s.wchk s.cx.c) = true → ∀ f ∈ l, ∀ r, f.dest.packed = some r → collideRecord s.mine r f.land = none

/-- The word is over: its results are in flight, its pointer lands, and the rest of the thread stands. -/
structure accessDone (s v t : State) (l : List Flight) (o : Operand) : Prop where
  after : onlyMine v t
  flight : ∀ f ∈ l, f ∈ t.mine.flight
  advances : advances s t o
  pc : t.mine.pc = s.mine.pc + 1
  registers : registersKept s.mine t.mine
  fflg : t.mine.fflg = s.mine.fflg
  only : onlyCore accessState s t

theorem issue_accessDone {i : Instr} {x : WordOf} {body : Cx → Fields → State → Verdict} {s v : State} {o : Operand} {l : List Flight} {c k : Nat}
    (hc : s.cur = .core c k) (h : passes i s = true) (hw : i.word = some x) (made : accessMade s v x l) (inc : incCollide (s.issued x) s.cx o 1 = none)
    (hb : body s.cx x.w (s.issued x) = .done (v.advance s.cx o ((v.self s.cx).stride o) 1)) :
    ∃ t, issue i body s = .next t ∧ accessDone s v t l o := by
  have cur : v.cur = s.cx.ag := (congrArg State.cur made.only.1 :)
  have now : v.now = s.now := (congrArg State.now made.only.1 :)
  have self : v.self s.cx = v.mine := State.mine_of_cur cur
  have readA (r : Nat) : v.mine.readA r = s.mine.readA r := by
    rw [made.mine, State.issued_mine]
    exact Thread.issued_readA _ _ _ _ r
  rw [self] at hb
  have mine := State.advance_mine cur o (v.mine.stride o) 1
  have after := onlyMine_advance cur o (v.mine.stride o) 1
  have only := onlyCore_onlyMine (fun _ _ _ h kept => coreBut_access_kept h kept) made.only cur after (State.advance_reqThreads o _ 1 hc)
  generalize ht : v.advance s.cx o (v.mine.stride o) 1 = t at *
  have flight : t.mine.flight = s.mine.flight ++ (l ++ if o.inc then [ptrFlight s.cx v o (v.mine.stride o) 1] else []) := by
    rw [mine, made.mine, List.append_assoc]
  have few : (l ++ if o.inc then [ptrFlight s.cx v o (v.mine.stride o) 1] else []).length ≤ 4 := by
    have := made.few
    rw [List.length_append]
    split <;> simp only [List.length_cons, List.length_nil] <;> omega
  refine ⟨t, issue_done_adds h hw hb (onlyMine_cur after |>.trans cur) (onlyCore_access_tilesInFlight only _) flight few fun watched f hf r packed => ?_, ?_⟩
  · rcases List.mem_append.mp hf with mem | mem
    · exact made.alone watched f mem r packed
    · split at mem
      case isTrue given =>
        rw [List.mem_singleton.mp mem] at packed ⊢
        rw [incCollide, if_pos given, State.issued_now, ← now] at inc
        exact collideRecord_of_landCollide watched inc packed
      case isFalse => exact nomatch mem
  · exact {
      after := after
      flight := fun f hf => by
        rw [flight]
        exact List.mem_append_right _ (List.mem_append_left _ hf)
      advances := fun given => by
        refine ⟨ptrFlight s.cx v o (v.mine.stride o) 1, ?_, rfl, rfl, by rw [ptrFlight, now], ?_⟩
        · rw [flight, if_pos given]
          exact List.mem_append_right _ (List.mem_append_right _ (List.mem_singleton.mpr rfl))
        · rw [ptrFlight, Thread.stride_of_inc given, readA]
      pc := by
        rw [mine, made.mine, State.issued_mine]
        exact Thread.issued_pc _ _ _ _
      registers := by
        rw [mine, made.mine]
        exact State.issued_registersKept x
      fflg := by
        rw [mine, made.mine, State.issued_mine]
        exact Thread.issued_fflg _ _ _ _
      only := only }

/-! Loads (R71, R176). -/

/-- The result of a load, which samples its bytes on the access's cycle. -/
def loadFlight (cx : Cx) (s : State) (a : Access) (dest : Dest) : Flight :=
  { dest := dest, push := true, land := accessCycle s a.addr.ea + loadLatency a.addr.ea, word := cx.pc, seq := s.fresh,
    sample := some { addr := a.addr.ea, width := a.width, signed := a.signed, ptr := false, cyc := accessCycle s a.addr.ea },
    lat := accessCycle s a.addr.ea + loadLatency a.addr.ea - s.now }

/-- The load before its access is noted. -/
def State.loading (s : State) (cx : Cx) (a : Access) (dest : Dest) : State :=
  s.take.2.modThread cx.ag fun th => { th with flight := th.flight ++ [loadFlight cx s a dest] }

theorem loadArray_eq (s : State) (cx : Cx) (a : Access) (dest : Dest) :
    loadArray cx a dest true false s = (s.loading cx a dest).noteAccess cx a s.fresh := rfl

section
variable {s : State} {cx : Cx} (cur : s.cur = cx.ag) (a : Access) (dest : Dest)
include cur

theorem onlyMine_loading : onlyMine s (s.loading cx a dest) :=
  onlyMine_trans (onlyMine_take s) (onlyMine_modThread_cur (s := s.take.2) cur _)

theorem loadArray_mine : (loadArray cx a dest true false s).mine = { s.mine with flight := s.mine.flight ++ [loadFlight cx s a dest] } := by
  rw [loadArray_eq, State.noteAccess_mine]
  exact State.modThread_mine (s := s.take.2) cur _

theorem loadArray_pendOf (p : Place) : (loadArray cx a dest true false s).pendOf p = s.pendOf p := by
  rw [loadArray_eq, State.noteAccess_pendOf, onlyMine_pendOf (onlyMine_loading cur a dest)]

theorem loadArray_accOf : ∃ q ∈ (loadArray cx a dest true false s).accOf (placeOf cx.c a.addr.ea), q.bank = bankIn a.addr.ea ∧
    q.arrive = accessCycle s a.addr.ea ∧ q.who = requester cx.t ∧ q.core = cx.c ∧ q.first = cx.timed ∧ q.scalar = true ∧ q.addr = a.addr.ea ∧
    q.key = s.fresh := by
  have cycle : accessCycle (s.loading cx a dest) a.addr.ea = accessCycle s a.addr.ea := by
    rw [accessCycle, accessCycle, onlyMine_now (onlyMine_loading cur a dest)]
  rw [loadArray_eq, ← cycle]
  exact State.noteAccess_accOf cx a s.fresh

omit cur in
theorem onlyCore_loadArray {u : State} {c k : Nat} (hc : s.cur = .core c k) (ag : cx.ag = s.cur) (core : cx.c = c) (h : onlyCore accessState s u)
    (cur : u.cur = s.cur) : onlyCore accessState s (loadArray cx a dest true false u) := by
  have loading := onlyMine_loading (cur.trans ag.symm) a dest
  have reqThreads : (u.loading cx a dest).reqThreads = u.reqThreads := by
    rw [State.loading, ag, hc]
    rfl
  rw [loadArray_eq]
  exact onlyCore_noteAccess cx a u.fresh hc core (onlyCore_onlyMine (fun _ _ _ h kept => coreBut_access_kept h kept) h cur loading reqThreads)

end

/-- A load that no check stops goes to its bank, and its pointer advances. -/
theorem ldlBody_goes {n : Nat} {w : Fields} {s : State} {c k : Nat} (hc : s.cur = .core c k) (x : WordOf)
    (plain : (loadAccess n w (s.issued x)).addr.pers = 0) (goes : accessGoes s (s.issued x) (loadAccess n w (s.issued x)) (!w.c.zero) = true)
    (alone : landCollide (s.issued x) s.cx (.n w.a.num) (accessCycle s (loadAccess n w (s.issued x)).addr.ea +
      loadLatency (loadAccess n w (s.issued x)).addr.ea) = none) (inc : incCollide (s.issued x) s.cx w.b 1 = none) :
    ∃ v, v = loadArray s.cx (loadAccess n w (s.issued x)) (.n w.a.num) true false (s.issued x) ∧
      ldlBody n s.cx w (s.issued x) = .done (v.advance s.cx w.b ((v.self s.cx).stride w.b) 1) := by
  obtain ⟨held, trap⟩ := accessGoes_iff goes
  have ag : s.cx.ag = .core c k := hc
  have access : loadAccess n w (s.issued x) = { addr := scalarAddr (s.issued x) s.cx w.b w.c, width := n, signed := w.m.getLsbD 0, m := w.m.toNat } := by
    rw [loadAccess, State.issued_scalarAddr hc]
  refine ⟨_, rfl, ?_⟩
  rw [State.issued_accessCycle] at trap
  rw [access] at plain held trap alone ⊢
  simp only at plain trap alone
  simp only [ldlBody, ag, State.issued_accessCycle, held, plain, alone, inc, trap, unlessHeld, afterTag, Option.map_none, ite_self, firstTrap, checked,
    bne_self_eq_false, Bool.false_eq_true, if_false]

/-- What a load leaves: one more result in flight, and the landing of a pointer that is post-incremented. -/
theorem exec_load_samples {i : Instr} {s : State} {n : Nat} {w : Fields} {c u : Nat} (load : loadOf i = some (n, w)) (hc : s.cur = .core c u)
    (h : passes i s = true) (plain : (loadAccess n w (found i s)).addr.pers = 0)
    (goes : accessGoes s (found i s) (loadAccess n w (found i s)) (!w.c.zero) = true)
    (alone : landCollide (found i s) s.cx (.n w.a.num) (accessCycle s (loadAccess n w (found i s)).addr.ea +
      (if isShared (loadAccess n w (found i s)).addr.ea then 5 else 3)) = none) (inc : incCollide (found i s) s.cx w.b 1 = none) :
    ∃ t, exec i s = .next t ∧
      (∃ f ∈ t.mine.flight, ∃ sm, f.dest = .n w.a.num ∧ f.push = true ∧ f.sample = some sm ∧
        sm.addr = (loadAccess n w (found i s)).addr.ea ∧ sm.width = n ∧ sm.signed = w.m.getLsbD 0 ∧ sm.ptr = false ∧
        f.land = sm.cyc + (if isShared sm.addr then 5 else 3) ∧ sm.cyc = s.now + (if isShared sm.addr then 3 else 1) ∧
        atBank s t c u sm.addr f.seq sm.cyc) ∧
      advances s t w.b ∧ t.mine.pc = s.mine.pc + 1 ∧ registersKept s.mine t.mine ∧ t.mine.fflg = s.mine.fflg ∧
      (∀ p, (t.pendOf p).map PendWrite.what = (s.pendOf p).map PendWrite.what) ∧ onlyCore accessState s t := by
  obtain ⟨x, hw, hx, exec_eq⟩ := loadOf_issue load
  rw [found_of_word hw] at *
  obtain ⟨v, hv, body⟩ := ldlBody_goes hc x plain goes alone inc
  have cur : (s.issued x).cur = s.cx.ag := State.issued_cur s x
  have core := State.cx_core hc
  have thread := State.cx_thread hc
  generalize ha : loadAccess n w (s.issued x) = a at *
  have vmine : v.mine = { (s.issued x).mine with flight := s.mine.flight ++ [loadFlight s.cx (s.issued x) a (.n w.a.num)] } := by
    rw [hv, loadArray_mine cur, State.issued_mine, Thread.issued_flight]
  have landing : (loadFlight s.cx (s.issued x) a (.n w.a.num)).land = accessCycle s a.addr.ea + (if isShared a.addr.ea then 5 else 3) := by
    rw [loadFlight, State.issued_accessCycle]
    rfl
  have made : accessMade s v x [loadFlight s.cx (s.issued x) a (.n w.a.num)] := {
    only := hv ▸ onlyCore_loadArray a _ hc rfl core (onlyCore_issued hc x) cur
    mine := vmine
    few := Nat.le_refl _
    alone := fun watched f hf r packed => by
      rw [List.mem_singleton.mp hf] at packed ⊢
      rw [landing]
      exact collideRecord_of_landCollide watched alone packed }
  obtain ⟨t, next, done⟩ := issue_accessDone (body := ldlBody n) (o := w.b) hc h hw made inc (by rw [hx]; exact body)
  obtain ⟨q, mem, bank, arrive, who, qcore, first, scalar, addr, key⟩ := loadArray_accOf cur a (.n w.a.num)
  have cycle : accessCycle (s.issued x) a.addr.ea = s.now + if isShared a.addr.ea then 3 else 1 := by
    rw [State.issued_accessCycle, accessCycle_eq]
  have waits : q ∈ t.accOf (placeOf c a.addr.ea) := by
    rw [onlyMine_accOf done.after, hv, ← core]
    exact mem
  refine ⟨t, (exec_eq s).trans next, ⟨_, done.flight _ (List.mem_singleton.mpr rfl), _, rfl, rfl, rfl, rfl, ?width, ?signed, rfl, rfl, cycle,
    q, waits, bank, arrive, thread ▸ who, qcore.trans core, first, scalar, addr, key⟩,
    done.advances, done.pc, done.registers, done.fflg, fun p => ?pend, done.only⟩
  case width => rw [← ha]; rfl
  case signed => rw [← ha]; rfl
  case pend => rw [onlyMine_pendOf done.after, hv, loadArray_pendOf cur, onlyMine_pendOf (onlyMine_issued s x)]

/-- Settles O3: the load's result samples its bytes on the cycle of its access, and lands after it. -/
theorem loadSamplesItsAddress : Obligations.LoadSamplesItsAddress := by
  unfold Obligations.LoadSamplesItsAddress
  intro i s n w c u load hc h plain goes alone inc
  exact exec_load_samples load hc h plain goes alone inc

end Sys2Proof.Machine
end

section
/-! Scalar stores are held until their commit (R71, R72, R173 to R176). -/

namespace Sys2Proof.Machine

/-! The memory of a place, and what a requester sees of it. -/

theorem onlyMine_memOf {s t : State} (h : onlyMine s t) (p : Place) : t.memOf p = s.memOf p := by
  have stores := storesKept_of_onlyMine h
  cases p with
  | core c =>
    obtain ⟨mem, _, _, _⟩ := stores.cores c
    exact mem
  | cluster k => simp only [State.memOf, State.clusterAt, stores.clusters]

theorem State.setAcc_memOf (s : State) (p q : Place) (l : List Acc) : (s.setAcc p l).memOf q = s.memOf q := by
  cases p with
  | core c =>
    cases q with
    | core d => exact State.modCore_coreAt Core.mem (f := fun k => { k with acc := l }) (fun _ => rfl) s c d
    | cluster k => rfl
  | cluster k =>
    cases q with
    | core d => rfl
    | cluster j =>
      simp only [State.setAcc, State.memOf, State.modCluster_clusterAt]
      split
      case isTrue same => rw [same]
      case isFalse => rfl

theorem State.setPend_memOf (s : State) (p q : Place) (l : List PendWrite) : (s.setPend p l).memOf q = s.memOf q := by
  cases p with
  | core c =>
    cases q with
    | core d => exact State.modCore_coreAt Core.mem (f := fun k => { k with pend := l }) (fun _ => rfl) s c d
    | cluster k => rfl
  | cluster k =>
    cases q with
    | core d => rfl
    | cluster j =>
      simp only [State.setPend, State.memOf, State.modCluster_clusterAt]
      split
      case isTrue same => rw [same]
      case isFalse => rfl

theorem leBytes_length (n v : Nat) : (leBytes n v).length = n := by
  induction n generalizing v with
  | zero => rfl
  | succ n ih => rw [leBytes, List.length_cons, ih]

/-- A held write is not seen in a range that it does not meet. -/
theorem State.view_of_held {s t : State} {p : Place} {v : PendWrite} (mem : ∀ q, t.memOf q = s.memOf q)
    (pend : ∀ q, t.pendOf q = s.pendOf q ++ if q = p then [v] else []) {d b k : Nat}
    (apart : placeOf d b ≠ p ∨ b + k ≤ v.addr ∨ v.addr + v.data.length ≤ b) (who cyc : Nat) : t.view d who cyc b k = s.view d who cyc b k := by
  have unseen : (if placeOf d b = p then [v] else []).filter (fun w => w.addr < b + k && b < w.addr + w.data.length) = [] := by
    split
    case isTrue here =>
      have misses : (decide (v.addr < b + k) && decide (b < v.addr + v.data.length)) = false := by
        rw [Bool.and_eq_false_iff, decide_eq_false_iff_not, decide_eq_false_iff_not]
        have := apart.resolve_left (fun other => other here)
        omega
      rw [List.filter_cons_of_neg (by rw [misses]; decide), List.filter_nil]
    case isFalse => rfl
  simp only [State.view, mem, pend, List.filter_append, unseen, List.append_nil]

/-! Stores (R71, R72, R176). -/

/-- The write that a store holds until it commits, 3 cycles after its access. -/
def heldStore (cx : Cx) (s : State) (a : Access) (v : Word) : PendWrite :=
  { id := s.fresh, seq := s.fresh, who := requester cx.t, core := cx.c, addr := a.addr.ea, data := leBytes a.width v.toNat, word := cx.pc,
    endC := accessCycle s a.addr.ea, commitC := accessCycle s a.addr.ea + 3, scalar := true }

/-- The store before its access is noted. -/
def State.storing (s : State) (cx : Cx) (a : Access) (v : Word) : State :=
  s.take.2.setPend (placeOf cx.c a.addr.ea) (s.pendOf (placeOf cx.c a.addr.ea) ++ [heldStore cx s a v])

section
variable (s : State) (cx : Cx) (a : Access) (v : Word)

theorem storeArray_eq : storeArray cx a v s = (s.storing cx a v).noteAccess cx a s.fresh := rfl

theorem State.take_mine : s.take.2.mine = s.mine := State.mine_congr rfl rfl rfl

theorem storeArray_mine : (storeArray cx a v s).mine = s.mine := by
  rw [storeArray_eq, State.noteAccess_mine, State.storing, State.setPend_mine, State.take_mine]

theorem storeArray_memOf (q : Place) : (storeArray cx a v s).memOf q = s.memOf q := by
  rw [storeArray_eq, State.noteAccess, State.setAcc_memOf, State.storing, State.setPend_memOf]
  exact onlyMine_memOf (onlyMine_take s) q

theorem storeArray_pendOf (q : Place) :
    (storeArray cx a v s).pendOf q = s.pendOf q ++ if q = placeOf cx.c a.addr.ea then [heldStore cx s a v] else [] := by
  rw [storeArray_eq, State.noteAccess_pendOf, State.storing, State.setPend_pendOf]
  split
  case isTrue same => rw [same]
  case isFalse =>
    rw [List.append_nil]
    exact onlyMine_pendOf (onlyMine_take s) q

theorem storeArray_accOf : ∃ q ∈ (storeArray cx a v s).accOf (placeOf cx.c a.addr.ea), q.bank = bankIn a.addr.ea ∧
    q.arrive = accessCycle s a.addr.ea ∧ q.who = requester cx.t ∧ q.core = cx.c ∧ q.first = cx.timed ∧ q.scalar = true ∧ q.addr = a.addr.ea ∧
    q.key = s.fresh := by
  have cycle : accessCycle (s.storing cx a v) a.addr.ea = accessCycle s a.addr.ea := by
    rw [accessCycle, accessCycle, State.storing]
    cases placeOf cx.c a.addr.ea <;> rfl
  rw [storeArray_eq, ← cycle]
  exact State.noteAccess_accOf cx a s.fresh

variable {s} in
theorem onlyCore_storeArray {u : State} {c k : Nat} (hc : s.cur = .core c k) (core : cx.c = c) (h : onlyCore accessState s u) :
    onlyCore accessState s (storeArray cx a v u) := by
  have cur : u.cur = s.cur := (congrArg State.cur h.1 :)
  have taken := onlyCore_onlyMine (fun _ _ _ h kept => coreBut_access_kept h kept) h cur (onlyMine_take u) rfl
  rw [storeArray_eq]
  refine onlyCore_noteAccess cx a u.fresh hc core ?_
  rw [State.storing, core]
  exact onlyCore_setPend hc taken _ _

end

/-- A store that no check stops goes to its bank, and its pointer advances. -/
theorem stlBody_goes {n : Nat} {w : Fields} {s : State} {c k : Nat} (hc : s.cur = .core c k) (x : WordOf)
    (plain : (storeAccess n w (s.issued x)).addr.pers = 0) (goes : accessGoes s (s.issued x) (storeAccess n w (s.issued x)) (!w.c.zero) = true)
    (inc : incCollide (s.issued x) s.cx w.a 1 = none) :
    ∃ v, v = storeArray s.cx (storeAccess n w (s.issued x)) (s.mine.src w.b) (s.issued x) ∧
      stlBody n s.cx w (s.issued x) = .done (v.advance s.cx w.a ((v.self s.cx).stride w.a) 1) := by
  obtain ⟨held, trap⟩ := accessGoes_iff goes
  have ag : s.cx.ag = .core c k := hc
  have access : storeAccess n w (s.issued x) = { addr := scalarAddr (s.issued x) s.cx w.a w.c, width := n, store := true, m := w.m.toNat } := by
    rw [storeAccess, State.issued_scalarAddr hc]
  refine ⟨_, rfl, ?_⟩
  rw [State.issued_accessCycle] at trap
  rw [access] at plain held trap ⊢
  simp only at plain trap
  simp only [stlBody, ag, State.issued_accessCycle, State.issued_self_src, held, plain, inc, trap, unlessHeld, firstTrap, checked,
    bne_self_eq_false, Bool.false_eq_true, if_false]

/-- What a store leaves: one more held write, which commits 3 cycles after its access, and the landing of a pointer that is post-incremented. -/
theorem exec_store_holds {i : Instr} {s : State} {n : Nat} {w : Fields} {c u : Nat} (store : storeOf i = some (n, w)) (hc : s.cur = .core c u)
    (h : passes i s = true) (plain : (storeAccess n w (found i s)).addr.pers = 0)
    (goes : accessGoes s (found i s) (storeAccess n w (found i s)) (!w.c.zero) = true) (inc : incCollide (found i s) s.cx w.a 1 = none) :
    ∃ t, exec i s = .next t ∧
      (∀ p, (t.pendOf p).map PendWrite.what = (s.pendOf p).map PendWrite.what ++
        (if p = placeOf c (storeAccess n w (found i s)).addr.ea then
           [(s.fresh, (storeAccess n w (found i s)).addr.ea, leBytes n (s.mine.src w.b).toNat, requester u, c)] else [])) ∧
      (∃ v ∈ t.pendOf (placeOf c (storeAccess n w (found i s)).addr.ea), v.id = s.fresh ∧ v.commitC = v.endC + 3 ∧
        v.endC = s.now + (if isShared v.addr then 3 else 1) ∧ atBank s t c u v.addr v.id v.endC) ∧
      (∀ a, (storeAccess n w (found i s)).addr.ea = a → ∀ d who cyc b k,
        (placeOf d b ≠ placeOf c a ∨ b + k ≤ a ∨ a + n ≤ b) → t.view d who cyc b k = s.view d who cyc b k) ∧
      advances s t w.a ∧ t.mine.pc = s.mine.pc + 1 ∧ registersKept s.mine t.mine ∧ t.mine.fflg = s.mine.fflg ∧
      onlyCore accessState s t := by
  obtain ⟨x, hw, hx, exec_eq⟩ := storeOf_issue store
  rw [found_of_word hw] at *
  obtain ⟨v, hv, body⟩ := stlBody_goes hc x plain goes inc
  have core := State.cx_core hc
  have thread := State.cx_thread hc
  have issued := onlyMine_issued s x
  generalize ha : storeAccess n w (s.issued x) = a at *
  have width : a.width = n := by rw [← ha]; rfl
  have made : accessMade s v x [] := {
    only := hv ▸ onlyCore_storeArray s.cx a _ hc core (onlyCore_issued hc x)
    mine := by rw [hv, storeArray_mine, List.append_nil, State.issued_mine, ← Thread.issued_flight s.mine _ _ _]
    few := Nat.zero_le _
    alone := fun _ _ hf => nomatch hf }
  obtain ⟨t, next, done⟩ := issue_accessDone (body := stlBody n) (o := w.a) hc h hw made inc (by rw [hx]; exact body)
  have pend (p : Place) : t.pendOf p = s.pendOf p ++ if p = placeOf c a.addr.ea then [heldStore s.cx (s.issued x) a (s.mine.src w.b)] else [] := by
    rw [onlyMine_pendOf done.after, hv, storeArray_pendOf, onlyMine_pendOf issued, core]
  have mem (p : Place) : t.memOf p = s.memOf p := by
    rw [onlyMine_memOf done.after, hv, storeArray_memOf, onlyMine_memOf issued]
  have cycle : accessCycle (s.issued x) a.addr.ea = s.now + if isShared a.addr.ea then 3 else 1 := by
    rw [State.issued_accessCycle, accessCycle_eq]
  obtain ⟨q, waits, bank, arrive, who, qcore, first, scalar, addr, key⟩ := storeArray_accOf (s.issued x) s.cx a (s.mine.src w.b)
  have waits : q ∈ t.accOf (placeOf c a.addr.ea) := by
    rw [onlyMine_accOf done.after, hv, ← core]
    exact waits
  refine ⟨t, (exec_eq s).trans next, fun p => ?what, ⟨heldStore s.cx (s.issued x) a (s.mine.src w.b), ?there, issued_fresh s x, rfl, cycle,
    q, waits, bank, arrive, thread ▸ who, qcore.trans core, first, scalar, addr, key⟩, fun ea hea d who cyc b k apart => ?view,
    done.advances, done.pc, done.registers, done.fflg, done.only⟩
  case what =>
    rw [pend, List.map_append]
    split
    case isTrue => rw [List.map_singleton, PendWrite.what, heldStore, issued_fresh, width, thread, core]
    case isFalse => rfl
  case there =>
    rw [pend, if_pos rfl]
    exact List.mem_append_right _ (List.mem_singleton.mpr rfl)
  case view =>
    subst hea
    refine State.view_of_held mem pend ?_ who cyc
    rw [heldStore, leBytes_length, width]
    exact apart

/-- Settles O4: the store's bytes are held until 3 cycles after its access, and no other byte reads differently. -/
theorem storeIsHeldUntilItsCommit : Obligations.StoreIsHeldUntilItsCommit := by
  unfold Obligations.StoreIsHeldUntilItsCommit
  intro i s n w c u store hc h plain goes inc
  exact exec_store_holds store hc h plain goes inc

end Sys2Proof.Machine
end

section
/-! The vector clocks of the dies (R112 to R114). -/

namespace Sys2Proof.Machine

theorem exec_clockNoticeSend (d : Nat) (s : State) : exec (.clockNoticeSend d) s = execClockNoticeSend d s := rfl
theorem exec_clockNoticeReceive (d src n : Nat) (s : State) : exec (.clockNoticeReceive d src n) s = execClockNoticeReceive d src n s := rfl
theorem exec_rcReplyReceive (d : Nat) (clk : List Nat) (s : State) : exec (.rcReplyReceive d clk) s = execRcReplyReceive d clk s := rfl

/-! A message between dies (R112). -/

/-- The cycle on which a message that leaves now arrives. -/
def State.messageCycle (s : State) (src dst : Nat) : Nat :=
  let soonest := s.now + 1 + Config.duration s.fresh
  if src = dst then soonest else max soonest (SMap.get 0 (s.dieAt src).last dst)

section
variable (s : State) (src dst prio : Nat) (ev : Instr)

theorem State.message_dueAt : (s.message src dst prio ev).dueAt (s.messageCycle src dst) prio ev := by
  unfold State.message State.messageCycle
  by_cases same : src = dst
  · simp only [same, if_true]
    exact State.at_dueAt _ _ _ _
  · simp only [same, if_false]
    exact State.at_dueAt _ _ _ _

theorem State.message_agendaKept : agendaKept s (s.message src dst prio ev) := by
  unfold State.message
  by_cases same : src = dst
  · simp only [same, if_true]
    exact agendaKept_at s.delay.2 _ _ _
  · simp only [same, if_false]
    exact agendaKept_at (s.delay.2.setDie src _) _ _ _

theorem State.message_now : (s.message src dst prio ev).now = s.now := by
  unfold State.message
  by_cases same : src = dst <;> simp [same]

theorem State.message_ops : (s.message src dst prio ev).ops = s.ops := by
  unfold State.message
  by_cases same : src = dst <;> simp [same]

/-- Of its own die a message changes when the latest one to each other die arrives. -/
theorem State.message_dieAt_src : (s.message src dst prio ev).dieAt src =
    { s.dieAt src with last := ((s.message src dst prio ev).dieAt src).last } := by
  unfold State.message
  by_cases same : src = dst <;> simp [same]

theorem State.message_dieAt_other {y : Nat} (hy : y ≠ src) : (s.message src dst prio ev).dieAt y = s.dieAt y := by
  unfold State.message
  by_cases same : src = dst
  · simp [same]
  · simp [same, State.setDie_dieAt_other _ _ _ _ hy]

theorem State.message_last {src dst : Nat} (apart : src ≠ dst) :
    SMap.get 0 ((s.message src dst prio ev).dieAt src).last dst = s.messageCycle src dst := by
  simp [State.message, State.messageCycle, apart]
  rfl

theorem State.messageCycle_later : s.now < s.messageCycle src dst := by
  unfold State.messageCycle
  dsimp only
  split <;> omega

theorem State.messageCycle_inOrder {src dst : Nat} (apart : src ≠ dst) : SMap.get 0 (s.dieAt src).last dst ≤ s.messageCycle src dst := by
  unfold State.messageCycle
  rw [if_neg apart]
  exact Nat.le_max_right _ _

end

theorem message_as_stated {s t : State} {src dst prio : Nat} {ev : Instr} (sent : t = s.message src dst prio ev) :
    (∃ due, s.now < due ∧ t.dueAt due prio ev ∧
      (src ≠ dst → SMap.get 0 (s.dieAt src).last dst ≤ due ∧ SMap.get 0 (t.dieAt src).last dst = due)) ∧
      ∀ y, y ≠ src → t.dieAt y = s.dieAt y := by
  subst sent
  exact ⟨⟨s.messageCycle src dst, s.messageCycle_later src dst, s.message_dueAt src dst prio ev,
    fun apart => ⟨s.messageCycle_inOrder apart, s.message_last prio ev apart⟩⟩, fun _ hy => s.message_dieAt_other src dst prio ev hy⟩

/-! A notice (R113). -/

/-- The notices of die `d` that carry the count `n`, to the dies of a list. -/
def State.notify (s : State) (d n : Nat) (l : List Nat) : State :=
  l.foldl (fun s x => s.message d x prioNet (.clockNoticeReceive x d n)) s

/-- Notices change the agenda, to which they come, and of their own die when the latest message to another one arrives. -/
structure Notified (s t : State) (d : Nat) : Prop where
  now : t.now = s.now
  ops : t.ops = s.ops
  own : t.dieAt d = { s.dieAt d with last := (t.dieAt d).last }
  other : ∀ y, y ≠ d → t.dieAt y = s.dieAt y
  agenda : agendaKept s t

theorem notified_refl (s : State) (d : Nat) : Notified s s d := ⟨rfl, rfl, rfl, fun _ _ => rfl, agendaKept_refl s⟩

theorem Notified.trans {s t u : State} {d : Nat} (h : Notified s t d) (g : Notified t u d) : Notified s u d where
  now := g.now.trans h.now
  ops := g.ops.trans h.ops
  own := by rw [g.own, h.own]
  other y hy := (g.other y hy).trans (h.other y hy)
  agenda := agendaKept_trans h.agenda g.agenda

theorem notified_message (s : State) (d x : Nat) (ev : Instr) : Notified s (s.message d x prioNet ev) d where
  now := s.message_now d x prioNet ev
  ops := s.message_ops d x prioNet ev
  own := s.message_dieAt_src d x prioNet ev
  other _ hy := s.message_dieAt_other d x prioNet ev hy
  agenda := s.message_agendaKept d x prioNet ev

theorem notified_notify (s : State) (d n : Nat) (l : List Nat) : Notified s (s.notify d n l) d :=
  List.foldlRecOn (motive := fun (u : State) => Notified s u d) _ _ (notified_refl s d) fun u hu x _ => hu.trans (notified_message u d x _)

/-- Each die of the list has its notice due. -/
theorem State.notify_dueAt (s : State) (d n : Nat) {x : Nat} {l : List Nat} (hx : x ∈ l) :
    ∃ due, s.now < due ∧ (s.notify d n l).dueAt due prioNet (.clockNoticeReceive x d n) := by
  induction l generalizing s with
  | nil => cases hx
  | cons y rest ih =>
    have first := notified_message s d y (.clockNoticeReceive y d n)
    rcases List.mem_cons.mp hx with rfl | later
    · exact ⟨_, s.messageCycle_later d x, (notified_notify _ d n rest).agenda _ (s.message_dueAt d x prioNet _)⟩
    · obtain ⟨due, after, there⟩ := ih (s.message d y prioNet (.clockNoticeReceive y d n)) later
      exact ⟨due, first.now ▸ after, there⟩

/-- The die that sends a notice notes its cycle and its count. -/
def Die.sending (k : Die) (now n : Nat) : Die := { k with noticed := now, sent := n, due := false }

theorem State.sendNotice_eq (s : State) (d : Nat) : s.sendNotice d =
    (s.setDie d ((s.dieAt d).sending s.now ((s.dieAt d).vc.getD d 0))).notify d ((s.dieAt d).vc.getD d 0) ((List.range 5).filter (· != d)) := rfl

theorem exec_clockNoticeSend_sends {s : State} {d x : Nat} (hx : x < 5) (hd : x ≠ d) (due : (s.dieAt d).due = true)
    (rested : (s.dieAt d).noticed + 32 ≤ s.now) (counted : (s.dieAt d).vc.getD d 0 ≠ (s.dieAt d).sent) :
    ∃ t due, exec (.clockNoticeSend d) s = .next t ∧ s.now < due ∧ t.dueAt due prioNet (.clockNoticeReceive x d ((s.dieAt d).vc.getD d 0)) ∧
      t.dieAt d = { s.dieAt d with noticed := s.now, sent := (s.dieAt d).vc.getD d 0, due := false, last := (t.dieAt d).last } ∧
      (∀ y, y ≠ d → t.dieAt y = s.dieAt y) ∧ t.ops = s.ops := by
  have goes : exec (.clockNoticeSend d) s = .next (s.sendNotice d) := by
    rw [exec_clockNoticeSend, execClockNoticeSend]
    have notEarly : ¬ s.now < (s.dieAt d).noticed + 32 := by omega
    simp [due, notEarly, counted, -List.getD_eq_getElem?_getD]
  have others : x ∈ (List.range 5).filter (· != d) := by simp [hx, hd]
  obtain ⟨cycle, after, there⟩ := State.notify_dueAt (s.setDie d ((s.dieAt d).sending s.now ((s.dieAt d).vc.getD d 0))) d
    ((s.dieAt d).vc.getD d 0) others
  have sent := notified_notify (s.setDie d ((s.dieAt d).sending s.now ((s.dieAt d).vc.getD d 0))) d ((s.dieAt d).vc.getD d 0)
    ((List.range 5).filter (· != d))
  rw [← State.sendNotice_eq] at there sent
  refine ⟨_, cycle, goes, after, there, ?_, fun y hy => ?_, sent.ops⟩
  · have own := sent.own
    rwa [State.setDie_dieAt_same] at own
  · rw [sent.other y hy, State.setDie_dieAt_other _ _ _ _ hy]

/-! Notices and replies that arrive (R113). -/

theorem getD_set_same {l : List Nat} {k : Nat} (v : Nat) (hk : k < l.length) : (l.set k v).getD k 0 = v := by
  simp [List.getD_eq_getElem?_getD, List.getElem?_set_self hk]

theorem getD_set_other (l : List Nat) {k x : Nat} (v : Nat) (hx : x ≠ k) : (l.set k v).getD x 0 = l.getD x 0 := by
  simp [List.getD_eq_getElem?_getD, List.getElem?_set_ne hx.symm]

theorem vecMax_getD (x y : List Nat) {k : Nat} (hk : k < 5) : (vecMax x y).getD k 0 = max (x.getD k 0) (y.getD k 0) := by
  simp [vecMax, List.getD_eq_getElem?_getD, List.getElem?_range hk]

theorem exec_clockNoticeReceive_merges (s : State) (d n : Nat) {src : Nat} (hs : src < (s.dieAt d).know.length) :
    ∃ t, exec (.clockNoticeReceive d src n) s = .next t ∧ (t.dieAt d).know.getD src 0 = max ((s.dieAt d).know.getD src 0) n ∧
      (∀ x, x ≠ src → (t.dieAt d).know.getD x 0 = (s.dieAt d).know.getD x 0) ∧ (t.dieAt d).vc = (s.dieAt d).vc ∧
      ∀ y, y ≠ d → t.dieAt y = s.dieAt y := by
  refine ⟨_, exec_clockNoticeReceive d src n s, ?_⟩
  rw [State.setDie_dieAt_same]
  exact ⟨getD_set_same _ hs, fun x hx => getD_set_other _ _ hx, rfl, fun y hy => State.setDie_dieAt_other _ _ _ _ hy⟩

/-- That a notice falls due changes nothing else of the dies, and no operation. -/
theorem State.noticeClock_spec (s : State) (d : Nat) : (∃ due, (s.noticeClock d).dieAt d = { s.dieAt d with due := due }) ∧
    (∀ y, y ≠ d → (s.noticeClock d).dieAt y = s.dieAt y) ∧ (s.noticeClock d).ops = s.ops := by
  unfold State.noticeClock
  dsimp only
  split
  · exact ⟨⟨_, rfl⟩, fun _ _ => rfl, rfl⟩
  · exact ⟨⟨true, State.setDie_dieAt_same _ _ _⟩, fun y hy => State.setDie_dieAt_other _ _ _ _ hy, rfl⟩

theorem exec_rcReplyReceive_merges (s : State) (d : Nat) (clk : List Nat) :
    ∃ t, exec (.rcReplyReceive d clk) s = .next t ∧ (∀ x < 5, (t.dieAt d).vc.getD x 0 = max ((s.dieAt d).vc.getD x 0) (clk.getD x 0)) ∧
      (t.dieAt d).know = (s.dieAt d).know ∧ ∀ y, y ≠ d → t.dieAt y = s.dieAt y := by
  obtain ⟨⟨due, own⟩, other, _⟩ := State.noticeClock_spec (s.setDie d { s.dieAt d with vc := vecMax (s.dieAt d).vc clk }) d
  rw [State.setDie_dieAt_same] at own
  refine ⟨_, exec_rcReplyReceive d clk s, fun x hx => ?_, ?_, fun y hy => ?_⟩
  · rw [own, vecMax_getD _ _ hx]
  · rw [own]
  · rw [other y hy, State.setDie_dieAt_other _ _ _ _ hy]

/-! Stamps (R113, R114). -/

theorem get_of_find {α : Type} {d v : α} {m : SMap α} {k : Nat} (h : SMap.find m k = some v) : SMap.get d m k = v := by
  rw [SMap.get, h]
  rfl

theorem State.opAt_of_find {s : State} {o : Nat} {e : EngOp} (h : SMap.find s.ops o = some e) : s.opAt o = e := get_of_find h

section
variable {s : State} {o d : Nat} {e : EngOp} (there : SMap.find s.ops o = some e) (hd : d = s.dieOfOp e) (rc : e.part.ct = 1)
  (home : e.part.die ≠ 5)
include there hd rc home

/-- A write on another die counts one, and takes the clock that it has counted in as its stamp. -/
theorem stampPart_counts (writes : e.writes = true) (away : d ≠ e.part.die) (has : d < (s.dieAt d).vc.length) :
    ((s.stampPart o).dieAt d).vc.getD d 0 = (s.dieAt d).vc.getD d 0 + 1 ∧
      ((s.stampPart o).opAt o).part.num = some ((s.dieAt d).vc.getD d 0 + 1) ∧
      ((s.stampPart o).opAt o).part.stamp = ((s.stampPart o).dieAt d).vc := by
  subst hd
  obtain ⟨vc, hvc⟩ : ∃ vc, vc = (s.dieAt (s.dieOfOp e)).vc.set (s.dieOfOp e) ((s.dieAt (s.dieOfOp e)).vc.getD (s.dieOfOp e) 0 + 1) := ⟨_, rfl⟩
  have counted : vc.getD (s.dieOfOp e) 0 = (s.dieAt (s.dieOfOp e)).vc.getD (s.dieOfOp e) 0 + 1 := by rw [hvc, getD_set_same _ has]
  have stamped : s.stampPart o = ((s.setDie (s.dieOfOp e) { s.dieAt (s.dieOfOp e) with vc := vc }).setOp o
      { e with part := { e.part with stamp := vc, num := some (vc.getD (s.dieOfOp e) 0) } }).noticeClock (s.dieOfOp e) := by
    simp [State.stampPart, State.opAt_of_find there, rc, home, writes, away, hvc, -List.getD_eq_getElem?_getD]
  obtain ⟨⟨due, own⟩, _, ops⟩ := State.noticeClock_spec ((s.setDie (s.dieOfOp e) { s.dieAt (s.dieOfOp e) with vc := vc }).setOp o
      { e with part := { e.part with stamp := vc, num := some (vc.getD (s.dieOfOp e) 0) } }) (s.dieOfOp e)
  have op := congrArg (SMap.get {} · o) ops
  change State.opAt _ o = State.opAt _ o at op
  rw [← stamped] at own op
  rw [State.setOp_dieAt, State.setDie_dieAt_same] at own
  rw [State.setOp_opAt_same] at op
  rw [own, op]
  exact ⟨counted, congrArg some counted, rfl⟩

/-- Another access takes the clock as it stands. -/
theorem stampPart_reads (counts : e.writes = false ∨ d = e.part.die) :
    (s.stampPart o).dies = s.dies ∧ ((s.stampPart o).opAt o).part.stamp = (s.dieAt d).vc ∧ ((s.stampPart o).opAt o).part.num = none := by
  subst hd
  have stays : (e.writes && s.dieOfOp e != e.part.die) = false := by
    rcases counts with reads | near
    · rw [reads, Bool.false_and]
    · simp [near]
  have stamped : s.stampPart o = s.setOp o { e with part := { e.part with stamp := (s.dieAt (s.dieOfOp e)).vc, num := none } } := by
    simp [State.stampPart, State.opAt_of_find there, rc, home, stays]
  rw [stamped, State.setOp_opAt_same]
  exact ⟨rfl, rfl, rfl⟩

end

/-- The access waits at a home that knows less of a die than its stamp. -/
theorem clocksAllow_behind {s : State} {o k : Nat} {e : EngOp} (rc : e.part.ct = 1) (home : e.part.die ≠ 5) (hk : k < 5)
    (away : k ≠ e.part.die) (behind : (s.dieAt e.part.die).know.getD k 0 < e.part.stamp.getD k 0) : clocksAllow s o e = false := by
  rw [clocksAllow, if_neg (by simp [rc, home]), List.all_eq_false]
  refine ⟨k, List.mem_range.mpr hk, ?_⟩
  simp [away, Nat.not_le.mpr behind, -List.getD_eq_getElem?_getD]

/-- Settles O52: a notice is a fold of messages, each in order after the earlier ones; receivers take maxima; and a stamp is the clock as it
stands, with the write itself counted in. -/
theorem clocksAreNoticedAndMerged : Obligations.ClocksAreNoticedAndMerged :=
  ⟨fun _ _ _ hx hd due rested counted => exec_clockNoticeSend_sends hx hd due rested counted, fun _ _ _ _ _ _ sent => message_as_stated sent,
    fun s d _ n hs => exec_clockNoticeReceive_merges s d n hs, exec_rcReplyReceive_merges,
    fun _ _ _ _ there hd rc home writes away has => stampPart_counts there hd rc home writes away has,
    fun _ _ _ _ there hd rc home counts => stampPart_reads there hd rc home counts,
    fun _ _ _ _ rc home hk away behind => clocksAllow_behind rc home hk away behind⟩

end Sys2Proof.Machine
end

section
/-! The privileged words that start an operation of the sequencer, and QUOTA (R123, R282, R346, R360 to R362). -/

namespace Sys2Proof.Machine

/-! The start of an engine operation (R123, R124). -/

/-- What an operation that starts takes from the thread that issues it. -/
def opFor (s : State) (cx : Cx) (e : EngOp) : EngOp :=
  { e with agent := cx.ag, core := cx.c, ctx := s.ctxOf cx.ag, grp := s.groupOfCore cx.c, mapv := (s.groupAt (s.groupOfCore cx.c)).mapv,
           issued := s.now, parent := match cx.ag with | .req id => some id | _ => none }

def Thread.unseal (q : Nat) (th : Thread) : Thread := { th with unsealed := th.unsealed ++ [q] }

/-- An operation has started, but for its entry: it is in the unsealed set, and its first event is on its way. -/
def State.sending (s : State) (ag : Agent) (ev : Nat → Instr) : State := (s.take.2.modThread ag (Thread.unseal s.fresh)).later 1 (ev s.fresh)

def State.starting (s : State) (cx : Cx) (e : EngOp) (ev : Nat → Instr) : State :=
  { s.sending cx.ag ev with ops := SMap.put s.ops s.fresh (opFor s cx e) }

theorem startOp_starting {s : State} {cx : Cx} {e : EngOp} {ev : Nat → Instr} (room : opsFull (s.self cx) = false) :
    startOp cx e ev s = .done (s.starting cx e ev) := by
  rw [startOp, startOpBy, room]
  obtain ⟨ag, c, t, pc, timed, seg⟩ := cx
  cases ag <;> rfl

theorem onlyMine_later (s : State) (least : Nat) (ev : Instr) : onlyMine s (s.later least ev) := onlyMine_trans (onlyMine_take s) (onlyMine_at _ _ _ _)

theorem State.later_dueAt (s : State) {least : Nat} (ev : Instr) : ∃ d, s.now + least ≤ d ∧ (s.later least ev).dueAt d prioNet ev :=
  ⟨s.now + least + Config.duration s.fresh, by omega, State.at_dueAt s.delay.2 _ _ _⟩

theorem onlyMine_sending (s : State) (ev : Nat → Instr) : onlyMine s (s.sending s.cur ev) :=
  onlyMine_trans (onlyMine_take s) (onlyMine_trans (onlyMine_modThread s.take.2 _) (onlyMine_later _ _ _))

theorem State.sending_mine (s : State) (ev : Nat → Instr) : (s.sending s.cur ev).mine = s.mine.unseal s.fresh :=
  State.modThread_mine (s := s.take.2) rfl _

theorem State.sending_dueAt (s : State) (ev : Nat → Instr) : ∃ d, s.now < d ∧ (s.sending s.cur ev).dueAt d prioNet (ev s.fresh) := by
  have now : (s.take.2.modThread s.cur (Thread.unseal s.fresh)).now = s.now := onlyMine_now (onlyMine_modThread s.take.2 (Thread.unseal s.fresh))
  obtain ⟨d, after, due⟩ := State.later_dueAt (s.take.2.modThread s.cur (Thread.unseal s.fresh)) (least := 1) (ev s.fresh)
  exact ⟨d, by omega, due⟩

theorem onlySent_of_onlyMine {s t u : State} (h : onlyMine s u) (ht : t = { u with ops := t.ops }) : onlySent s t := by
  have dies : u.dies = s.dies := (congrArg State.dies h.1 :)
  have ops : u.ops = s.ops := (congrArg State.ops h.1 :)
  have same : { t with ops := s.ops, dies := s.dies } = u := by
    rw [ht, ← dies, ← ops]
  refine ⟨same ▸ h, fun d => ?_⟩
  rw [ht]
  show u.dieAt d = _
  rw [State.dieAt, dies]
  rfl

/-- A word of a core's thread that starts an operation is over with its start. -/
theorem issue_startsOp {i : Instr} {x : WordOf} {body : Cx → Fields → State → Verdict} {s : State} {e : EngOp} {ev : Nat → Instr} {c k : Nat}
    (hc : s.cur = .core c k) (h : issues i s = true) (hw : i.word = some x) (room : opRoom s = true) (running : e.st = .running)
    (unperformed : e.performed = false) (hb : body s.cx x.w (s.issued x) = startOp s.cx e ev (s.issued x)) :
    ∃ t q, issue i body s = .next t ∧ opStarted s t q (opFor (s.issued x) s.cx e) (ev q) := by
  have only := onlyMine_issued s x
  have hag : s.cx.ag = (s.issued x).cur := (State.issued_cur s x).symm
  have notFull : opsFull ((s.issued x).self s.cx) = false := by
    rw [State.issued_self, State.issued_mine, opsFull, Thread.issued_unsealed]
    simpa [opRoom] using room
  have sent := onlyMine_sending (s.issued x) ev
  have all := onlyMine_trans only sent
  have thread := State.sending_mine (s.issued x) ev
  obtain ⟨d, after, due⟩ := State.sending_dueAt (s.issued x) ev
  rw [← hag] at sent all thread due
  rw [State.issued_now] at after
  have mine : ((s.issued x).starting s.cx e ev).mine = (s.issued x).mine.unseal (s.issued x).fresh := (State.mine_congr rfl rfl rfl).trans thread
  have kept : storesKept s ((s.issued x).starting s.cx e ev) :=
    storesKept_trans (storesKept_of_onlyMine all) (storesKept_of_cores rfl rfl rfl rfl rfl rfl)
  have flight : ((s.issued x).starting s.cx e ev).mine.flight = s.mine.flight := by
    rw [mine, State.issued_mine]
    exact Thread.issued_flight _ _ _ _
  have ops : (s.issued x).ops = s.ops := (congrArg State.ops only.1 :)
  refine ⟨(s.issued x).starting s.cx e ev, (s.issued x).fresh, issue_done_kept (issues_iff h).1 hw ?_ kept flight, ?_⟩
  · rw [hb, startOp_starting notFull]
  · refine ⟨⟨SMap.find_put_same _ _ _, rfl, rfl, onlyMine_groupOfCore only _, ?_, State.issued_now s x, running, unperformed, ?_, ⟨d, after, due⟩, flight, ?_,
      onlySent_of_onlyMine all rfl, fun o ho => ?_⟩, ?_⟩
    · have ag : s.cx.ag = .core c k := hc
      rw [opFor, ag, hc]
      exact onlyMine_ctxOf only c k
    · rw [mine, State.issued_mine]
      exact congrArg (· ++ [_]) (Thread.issued_unsealed _ _ _ _)
    · rw [mine, State.issued_mine]
      exact Thread.issued_pc _ _ _ _
    · exact ops ▸ SMap.find_put_other _ _ _ _ ho
    · rw [mine]
      exact State.issued_registersKept x

/-! SNAP, ROLL, PREEMPT and CTXSAVE (R282, R346, R360, R361). -/

/-- The body that these words share: the register must name a context or a group, and in a state that fits. -/
def privBody (kind : ReqKind) (m : Nat) (cx : Cx) (w : Fields) (s : State) : Verdict :=
  let v := (s.self cx).src w.a
  if !privNumber s kind m v then .cause 0x200
  else if !privFits s kind m v then .cause 0x201
  else startPriv cx { kind := kind, m := m, av := v } s

/-- The body of a word that names a group: the number must be one's, and the state is refused or not. -/
def groupBody (kind : ReqKind) (m : Nat) (refuses : State → Nat → Bool) (cx : Cx) (w : Fields) (s : State) : Verdict :=
  match s.handle ((s.self cx).src w.a) with
  | none => .cause 0x200
  | some g => if refuses s g then .cause 0x201 else startPriv cx { kind := kind, m := m, av := (s.self cx).src w.a } s

theorem groupBody_privBody {kind : ReqKind} {m : Nat} {refuses : State → Nat → Bool} (form : (kind == .ctxsave && m != 2) = false)
    (fits : ∀ s v g, s.handle v = some g → privFits s kind m v = !refuses s g) : groupBody kind m refuses = privBody kind m := by
  funext cx w s
  simp only [groupBody, privBody, privNumber, form, Bool.false_eq_true, if_false]
  cases named : s.handle ((s.self cx).src w.a) with
  | none => rfl
  | some g => simp [fits s _ g named]

section
variable (w : Fields) (s : State)

theorem exec_snap_groupBody : exec (.snap w) s = issue (.snap w) (groupBody .snap 0 fun _ _ => false) s := rfl
theorem exec_roll_groupBody : exec (.roll w) s = issue (.roll w) (groupBody .roll 0 fun _ _ => false) s := rfl
theorem exec_preempt_groupBody : exec (.preempt w) s =
    issue (.preempt w) (groupBody .preempt 0 fun s g => g < 256 || !(s.groupAt g).st.runs) s := rfl
theorem exec_gkill_groupBody : exec (.ctxsaveGkill w) s =
    issue (.ctxsaveGkill w) (groupBody .ctxsave 2 fun s g => g < 256 || !(s.groupAt g).rests) s := rfl

end

theorem saveBody_privBody {m : Nat} (hm : m ≠ 2) : saveBody m = privBody .ctxsave m := by
  funext cx w s
  have form : ((.ctxsave : ReqKind) == .ctxsave && m != 2) = true := by simp [hm]
  unfold saveBody privBody privNumber privFits contextNumber
  simp only [form, if_true]
  by_cases out : 255 < ((s.self cx).src w.a).toNat
  · simp [out, Nat.not_le.mpr out]
  · simp [out, Nat.not_lt.mp out]

/-- Each of the words is one of the core's own profile, and its body is the shared one. -/
theorem privOp_body {i : Instr} {kind : ReqKind} {m : Nat} {w : Fields} (hi : privOp i = some (kind, m, w)) :
    ∃ x, i.word = some x ∧ x.w = w ∧ x.form.memCore = false ∧ ∀ s, exec i s = issue i (privBody kind m) s := by
  unfold privOp at hi
  split at hi
  case h_1 => cases hi; exact ⟨_, rfl, rfl, rfl, fun s => by
    rw [exec_snap_groupBody, groupBody_privBody rfl fun s v g named => by simp [privFits, named]]⟩
  case h_2 => cases hi; exact ⟨_, rfl, rfl, rfl, fun s => by
    rw [exec_roll_groupBody, groupBody_privBody rfl fun s v g named => by simp [privFits, named]]⟩
  case h_3 => cases hi; exact ⟨_, rfl, rfl, rfl, fun s => by
    rw [exec_preempt_groupBody, groupBody_privBody rfl fun s v g named => by simp [privFits, named, ← decide_not]]⟩
  case h_4 => cases hi; exact ⟨_, rfl, rfl, rfl, fun s => congrArg (issue (.ctxsave w) · s) (saveBody_privBody (m := 0) (by decide))⟩
  case h_5 => cases hi; exact ⟨_, rfl, rfl, rfl, fun s => congrArg (issue (.ctxsaveKill w) · s) (saveBody_privBody (m := 1) (by decide))⟩
  case h_6 => cases hi; exact ⟨_, rfl, rfl, rfl, fun s => by
    rw [exec_gkill_groupBody, groupBody_privBody rfl fun s v g named => by simp [privFits, named, ← decide_not]]⟩
  case h_7 => cases hi

theorem savable_congr {s t : State} (h : onlyMine s t) (x : Nat) : savable t x = savable s x := by
  rw [savable, savable, onlyMine_contextAt h]

theorem privNumber_congr {s t : State} (h : onlyMine s t) (kind : ReqKind) (m : Nat) (v : Word) : privNumber t kind m v = privNumber s kind m v := by
  rw [privNumber, privNumber, onlyMine_handle h]

theorem privFits_congr {s t : State} (h : onlyMine s t) (kind : ReqKind) (m : Nat) (v : Word) : privFits t kind m v = privFits s kind m v := by
  simp only [privFits, savable_congr h, onlyMine_handle h, onlyMine_groupAt h]

/-- A register that fits names a context or a group. -/
theorem privNumber_of_privFits {s : State} {kind : ReqKind} {m : Nat} {v : Word} (fits : privFits s kind m v = true) : privNumber s kind m v = true := by
  unfold privFits at fits
  unfold privNumber
  split at fits
  · rename_i context
    rw [if_pos context]
    exact (Bool.and_eq_true_iff.mp fits).1
  · rename_i group
    rw [if_neg group]
    cases named : s.handle v with
    | none => rw [named] at fits; cases fits
    | some g => rfl

section
variable {i : Instr} {kind : ReqKind} {m : Nat} {w : Fields} {s : State} (hi : privOp i = some (kind, m, w)) (h : issues i s = true)
include hi h

theorem exec_priv_starts (fits : privFits s kind m (s.mine.src w.a) = true) (room : opRoom s = true) :
    ∃ t q e, exec i s = .next t ∧ opStarted s t q e (.engineOperationComplete q) ∧ e.kind = kind ∧ e.m = m ∧ e.av = s.mine.src w.a := by
  obtain ⟨x, hw, rfl, core, body⟩ := privOp_body hi
  obtain ⟨c, k, hc⟩ := gate_go_core (issues_gate h hw) core
  have only := onlyMine_issued s x
  obtain ⟨t, q, next, started⟩ := issue_startsOp (body := privBody kind m) (e := { kind := kind, m := m, av := s.mine.src x.w.a })
    (ev := .engineOperationComplete) hc h hw room rfl rfl (by
      simp only [privBody, State.issued_self_src, privNumber_congr only, privFits_congr only, fits, privNumber_of_privFits fits]
      rfl)
  exact ⟨t, q, _, (body s).trans next, started, rfl, rfl, rfl⟩

theorem exec_priv_noNumber (none : privNumber s kind m (s.mine.src w.a) = false) :
    exec i s = .next (s.takeTrap s.cur s.mine.pc { cause := 0x200 }) := by
  obtain ⟨x, hw, rfl, _, body⟩ := privOp_body hi
  rw [body]
  refine issue_cause h hw ?_
  simp only [privBody, State.issued_self_src, privNumber_congr (onlyMine_issued s x), none]
  rfl

theorem exec_priv_wrongState (number : privNumber s kind m (s.mine.src w.a) = true) (unfit : privFits s kind m (s.mine.src w.a) = false) :
    exec i s = .next (s.takeTrap s.cur s.mine.pc { cause := 0x201 }) := by
  obtain ⟨x, hw, rfl, _, body⟩ := privOp_body hi
  have only := onlyMine_issued s x
  rw [body]
  refine issue_cause h hw ?_
  simp only [privBody, State.issued_self_src, privNumber_congr only, privFits_congr only, number, unfit]
  rfl

end

/-! Numbers of contexts. -/

theorem contextNumber_none {w : Word} (out : 255 < w.toNat) : contextNumber w = none := if_pos out
theorem contextNumber_some {w : Word} (within : w.toNat ≤ 255) : contextNumber w = some w.toNat := if_neg (Nat.not_lt.mpr within)

/-! CTXLOAD (R282, R360). -/

section
variable {w : Fields} {s : State}

theorem word_ctxload : (Instr.ctxload w).word = some ⟨0x319, fCtxload, w⟩ := rfl
theorem word_tlbinv : (Instr.tlbinv w).word = some ⟨0x317, fTlbinv, w⟩ := rfl
theorem word_quota : (Instr.quota w).word = some ⟨0x31a, fQuota, w⟩ := rfl
theorem exec_ctxload : exec (.ctxload w) s = execCtxload w s := rfl
theorem exec_tlbinv : exec (.tlbinv w) s = execTlbinv w s := rfl
theorem exec_quota : exec (.quota w) s = execQuota w s := rfl

theorem onlyMine_phys {t : State} (h : onlyMine s t) : t.phys = s.phys := (congrArg State.phys h.1 :)

theorem exec_ctxload_loads {x : Nat} (h : issues (.ctxload w) s = true) (hx : (s.mine.src w.a).toNat = x) (within : x ≤ 255) (user : x ≠ 0)
    (noArea : w.c.zero = true) (saved : (s.contextAt x).st = 4) (room : opRoom s = true) :
    ∃ t q e, exec (.ctxload w) s = .next t ∧ opStarted s t q e (.engineOperationComplete q) ∧ e.kind = .ctxload ∧ e.m = w.b.immInt.toNat ∧
      e.av = s.mine.src w.a ∧ e.fmt = 0 := by
  subst hx
  obtain ⟨c, k, hc⟩ := gate_go_core (issues_gate h word_ctxload) rfl
  obtain ⟨t, q, next, started⟩ : ∃ t q, exec (.ctxload w) s = .next t ∧ opStarted s t q (opFor (s.issued ⟨0x319, fCtxload, w⟩) s.cx
      { kind := .ctxload, m := w.b.immInt.toNat, av := s.mine.src w.a }) (.engineOperationComplete q) := by
    rw [exec_ctxload, execCtxload]
    refine issue_startsOp (ev := .engineOperationComplete) hc h word_ctxload room rfl rfl ?_
    simp only [State.issued_self_src, contextNumber_some within, onlyMine_contextAt (onlyMine_issued s _), user, noArea, saved, if_false, if_true]
    rfl
  exact ⟨t, q, _, next, started, rfl, rfl, rfl, rfl⟩

theorem exec_ctxload_installs {x c : Nat} (h : issues (.ctxload w) s = true) (hx : (s.mine.src w.a).toNat = x) (within : x ≤ 255) (user : x ≠ 0)
    (area : w.c.zero = false) (hc : (s.mine.src w.c).toNat = c) (small : c < 2 ^ 52) (aligned : c % 4096 = 0) (free : (s.contextAt x).st = 0)
    (header : headerFits s.phys c x = true) (room : opRoom s = true) :
    ∃ t q e, exec (.ctxload w) s = .next t ∧ opStarted s t q e (.engineOperationComplete q) ∧ e.kind = .ctxload ∧ e.av = s.mine.src w.a ∧
      e.cv = s.mine.src w.c ∧ e.fmt = 1 := by
  subst hx
  subst hc
  obtain ⟨c, k, hc⟩ := gate_go_core (issues_gate h word_ctxload) rfl
  have only := onlyMine_issued s ⟨0x319, fCtxload, w⟩
  obtain ⟨t, q, next, started⟩ : ∃ t q, exec (.ctxload w) s = .next t ∧ opStarted s t q (opFor (s.issued ⟨0x319, fCtxload, w⟩) s.cx
      { kind := .ctxload, m := w.b.immInt.toNat, av := s.mine.src w.a, cv := BitVec.ofNat 64 (s.mine.src w.c).toNat, fmt := 1 })
      (.engineOperationComplete q) := by
    rw [exec_ctxload, execCtxload]
    refine issue_startsOp (ev := .engineOperationComplete) hc h word_ctxload room rfl rfl ?_
    simp only [State.issued_self_src, contextNumber_some within, onlyMine_contextAt only, onlyMine_phys only, user, area, free, header, aligned,
      Nat.not_le.mpr small, if_false]
    rfl
  exact ⟨t, q, _, next, started, rfl, rfl, (BitVec.ofNat_toNat 64 _).trans (BitVec.setWidth_eq _), rfl⟩

theorem exec_ctxload_noNumber (h : issues (.ctxload w) s = true) (out : 255 < (s.mine.src w.a).toNat) :
    exec (.ctxload w) s = .next (s.takeTrap s.cur s.mine.pc { cause := 0x200 }) := by
  rw [exec_ctxload, execCtxload]
  refine issue_cause h word_ctxload ?_
  simp only [State.issued_self_src, contextNumber_none out]

theorem exec_ctxload_wrongState (h : issues (.ctxload w) s = true) (within : (s.mine.src w.a).toNat ≤ 255)
    (unfit : (s.mine.src w.a).toNat = 0 ∨ w.c.zero = true ∧ (s.contextAt (s.mine.src w.a).toNat).st ≠ 4) :
    exec (.ctxload w) s = .next (s.takeTrap s.cur s.mine.pc { cause := 0x201 }) := by
  rw [exec_ctxload, execCtxload]
  refine issue_cause h word_ctxload ?_
  simp only [State.issued_self_src, contextNumber_some within, onlyMine_contextAt (onlyMine_issued s _)]
  rcases unfit with zero | ⟨noArea, state⟩
  · rw [if_pos zero]
  · by_cases zero : (s.mine.src w.a).toNat = 0
    · rw [if_pos zero]
    · rw [if_neg zero, if_pos noArea, if_pos (by simpa using state)]

/-! TLBINV (R282). -/

theorem exec_tlbinv_starts (h : issues (.tlbinv w) s = true) (aligned : (s.mine.src w.a).toNat % 65536 = 0) (small : (s.mine.src w.a).toNat < 2 ^ 56)
    (within : (s.mine.src w.b).toNat ≤ 255) (room : opRoom s = true) :
    ∃ t q e, exec (.tlbinv w) s = .next t ∧ opStarted s t q e (.engineOperationComplete q) ∧ e.kind = .tlbinv ∧ e.va = (s.mine.src w.a).toNat ∧
      e.bv = s.mine.src w.b ∧ e.m = w.c.immInt.toNat := by
  obtain ⟨c, k, hc⟩ := gate_go_core (issues_gate h word_tlbinv) rfl
  obtain ⟨t, q, next, started⟩ : ∃ t q, exec (.tlbinv w) s = .next t ∧ opStarted s t q (opFor (s.issued ⟨0x317, fTlbinv, w⟩) s.cx
      { kind := .tlbinv, m := w.c.immInt.toNat, va := (s.mine.src w.a).toNat, bv := s.mine.src w.b }) (.engineOperationComplete q) := by
    rw [exec_tlbinv, execTlbinv]
    refine issue_startsOp (ev := .engineOperationComplete) hc h word_tlbinv room rfl rfl ?_
    simp only [State.issued_self_src, contextNumber_some within, aligned, Nat.not_le.mpr small]
    rfl
  exact ⟨t, q, _, next, started, rfl, rfl, rfl, rfl⟩

theorem exec_tlbinv_refuses (h : issues (.tlbinv w) s = true)
    (bad : (s.mine.src w.a).toNat % 65536 ≠ 0 ∨ 2 ^ 56 ≤ (s.mine.src w.a).toNat ∨ 255 < (s.mine.src w.b).toNat) :
    exec (.tlbinv w) s = .next (s.takeTrap s.cur s.mine.pc { cause := 0x200 }) := by
  rw [exec_tlbinv, execTlbinv]
  refine issue_cause h word_tlbinv ?_
  simp only [State.issued_self_src]
  by_cases out : 255 < (s.mine.src w.b).toNat
  · simp only [contextNumber_none out]
  · have address : (s.mine.src w.a).toNat % 65536 ≠ 0 ∨ 2 ^ 56 ≤ (s.mine.src w.a).toNat := by
      rcases bad with odd | large | far
      · exact .inl odd
      · exact .inr large
      · exact absurd far out
    simp only [contextNumber_some (Nat.not_lt.mp out)]
    exact if_pos (by simpa using address)

/-! QUOTA (R362). -/

theorem exec_quota_limits {x : Nat} (h : issues (.quota w) s = true) (hx : (s.mine.src w.a).toNat = x) (within : x ≤ 255) :
    ∃ t, exec (.quota w) s = .next t ∧ t.contextAt x = { s.contextAt x with limit := (s.mine.src w.b).toNat % 2 ^ 32, noticed := false } ∧
      (∀ y, y ≠ x → t.contextAt y = s.contextAt y) ∧ t.mine.flight = s.mine.flight ∧ t.mine.pc = s.mine.pc + 1 ∧ registersKept s.mine t.mine ∧
      onlyMine s { t with contexts := s.contexts } ∧ bytesKept s t := by
  subst hx
  have only := onlyMine_issued s ⟨0x31a, fQuota, w⟩
  obtain ⟨next, stepped⟩ : exec (.quota w) s = .next ((s.issued ⟨0x31a, fQuota, w⟩).setLimit (s.mine.src w.a).toNat (s.mine.src w.b).toNat) ∧
      steppedOn s _ := by
    rw [exec_quota, execQuota]
    refine issue_steppedOn h word_quota (storesKept_of_cores rfl rfl rfl rfl rfl rfl) (State.mine_congr rfl rfl rfl) ?_
    simp only [State.issued_self_src, contextNumber_some within]
  have contexts : (s.issued ⟨0x31a, fQuota, w⟩).contexts = s.contexts := (congrArg State.contexts only.1 :)
  refine ⟨_, next, ?_, fun y hy => ?_, stepped.flight, stepped.pc, stepped.registers, ?_, stepped.bytes⟩
  · rw [State.setLimit, State.modContext, State.setContext_contextAt_same, onlyMine_contextAt only]
  · rw [State.setLimit, State.modContext, State.setContext_contextAt_other _ _ _ _ hy, onlyMine_contextAt only]
  · have same : { (s.issued ⟨0x31a, fQuota, w⟩) with contexts := s.contexts } = s.issued ⟨0x31a, fQuota, w⟩ := by rw [← contexts]
    exact same ▸ only

theorem exec_quota_noNumber (h : issues (.quota w) s = true) (out : 255 < (s.mine.src w.a).toNat) :
    exec (.quota w) s = .next (s.takeTrap s.cur s.mine.pc { cause := 0x200 }) := by
  rw [exec_quota, execQuota]
  refine issue_cause h word_quota ?_
  simp only [State.issued_self_src, contextNumber_none out]

end

/-- Settles O46: each word's body either starts its operation, or names the number or the state that does not fit. -/
theorem privilegedWordsActOrTrap : Obligations.PrivilegedWordsActOrTrap :=
  ⟨fun _ _ _ _ _ hi h fits room => exec_priv_starts hi h fits room, fun _ _ _ _ _ hi h none => exec_priv_noNumber hi h none,
    fun _ _ _ _ _ hi h number unfit => exec_priv_wrongState hi h number unfit,
    fun _ _ _ h hx within user noArea saved room => exec_ctxload_loads h hx within user noArea saved room,
    fun _ _ _ _ h hx within user area hc small aligned free header room =>
      exec_ctxload_installs h hx within user area hc small aligned free header room,
    fun _ _ h out => exec_ctxload_noNumber h out, fun _ _ h within unfit => exec_ctxload_wrongState h within unfit,
    fun _ _ h aligned small within room => exec_tlbinv_starts h aligned small within room, fun _ _ h bad => exec_tlbinv_refuses h bad,
    fun _ _ _ h hx within => exec_quota_limits h hx within, fun _ _ h out => exec_quota_noNumber h out⟩

end Sys2Proof.Machine
end

section
/-! How an operation ends (R123, R129, R337), and what the functions of the sequencer leave alone. -/

namespace Sys2Proof.Machine

/-! The event that an operation has come to its end (R123). -/

theorem exec_complete (o : Nat) (s : State) : exec (.engineOperationComplete o) s = execEngineOperationComplete o s := rfl

section
variable {s : State} {o : Nat} {e : EngOp} (there : SMap.find s.ops o = some e) (running : e.st = .running)
include there running

theorem exec_complete_served {id : Nat} (program : e.thread = some id) (goesOn : s.requestEnd id = none) :
    exec (.engineOperationComplete o) s = .next s := by
  rw [exec_complete, execEngineOperationComplete, there]
  simp [running, program, goesOn]

/-- A request that a program serves ends as the program says; the program's thread and operations are gone. -/
theorem exec_complete_program {id : Nat} {cause : Option Nat} (program : e.thread = some id) (ends : s.requestEnd id = some cause) :
    ∃ ops, exec (.engineOperationComplete o) s = .next ({ s with ops := ops, reqThreads := SMap.erase s.reqThreads id }.finishOp o
      (s.programEnd (s.reqAt id).thread.allOps e cause) cause) := by
  rw [exec_complete, execEngineOperationComplete, there]
  exact ⟨s.ops.filter fun x => !(s.reqAt id).thread.allOps.contains x.1, by simp [running, program, ends]⟩

variable (alone : e.thread = none)
include alone

theorem exec_complete_caused (caused : e.cause ≠ none) : exec (.engineOperationComplete o) s = .next (s.finishOp o e e.cause) := by
  rw [exec_complete, execEngineOperationComplete, there]
  simp [running, alone, Option.isSome_iff_ne_none.mpr caused]

theorem exec_complete_access (noCause : e.cause = none) (access : e.kind.accesses = true) :
    exec (.engineOperationComplete o) s = .next (s.finishOp o e none) := by
  rw [exec_complete, execEngineOperationComplete, there]
  simp only [running, alone, noCause, bne_self_eq_false, Bool.false_eq_true, if_false, Option.isSome_none]
  split
  case h_7 => rfl
  all_goals
    rename_i privileged
    rw [privileged] at access
    cases access

theorem exec_complete_groupOp (noCause : e.cause = none) (kind : e.kind = .snap ∨ e.kind = .roll ∨ e.kind = .preempt) :
    exec (.engineOperationComplete o) s = .next (s.groupOp o e) := by
  rw [exec_complete, execEngineOperationComplete, there]
  rcases kind with kind | kind | kind <;> simp [running, alone, noCause, kind]

theorem exec_complete_saveOp (noCause : e.cause = none) (kind : e.kind = .ctxsave) :
    exec (.engineOperationComplete o) s = .next (s.saveOp o e) := by
  rw [exec_complete, execEngineOperationComplete, there]
  simp [running, alone, noCause, kind]

theorem exec_complete_loadOp (noCause : e.cause = none) (kind : e.kind = .ctxload) :
    exec (.engineOperationComplete o) s = .next (s.loadOp o e) := by
  rw [exec_complete, execEngineOperationComplete, there]
  simp [running, alone, noCause, kind]

theorem exec_complete_invalidateOp (noCause : e.cause = none) (kind : e.kind = .tlbinv) :
    exec (.engineOperationComplete o) s = .next (s.invalidateOp o e) := by
  rw [exec_complete, execEngineOperationComplete, there]
  simp [running, alone, noCause, kind]

end

/-! The end itself (R123, R337). -/

theorem State.post_groupAt (s : State) (code ctx grp detail g : Nat) : (s.post code ctx grp detail).groupAt g = s.groupAt g := by
  unfold State.post
  dsimp only
  split <;> rfl

theorem State.post_now (s : State) (code ctx grp detail : Nat) : (s.post code ctx grp detail).now = s.now := by
  unfold State.post
  dsimp only
  split <;> rfl

def OpSt.ofCause : Option Nat → OpSt
  | some n => .failed n
  | none => .done

/-- The operation as it stands once it has ended. -/
def EngOp.ended (e : EngOp) (cause : Option Nat) : EngOp := { e with st := OpSt.ofCause cause, performed := true }

section
variable {s : State} {e : EngOp} {c k : Nat} (o : Nat) (cause : Option Nat)

theorem State.endOp_core (agent : e.agent = .core c k) (notBurin : k ≠ 12) : s.endOp o e cause = s.setOp o (e.ended cause) := by
  unfold State.endOp
  dsimp only
  split
  case h_1 burin => exact absurd (agent.symm.trans burin) (by simpa using fun _ => notBurin)
  case h_2 request => exact absurd (agent.symm.trans request) (by simp)
  case h_3 => rfl

variable (peer : e.peer = none) (agent : e.agent = .core c k) (notBurin : k ≠ 12)
include peer agent notBurin

/-- While its member works on, the end of an operation of a core's thread changes that operation alone. -/
theorem State.finishOp_working (working : (s.coreAt e.core).finished = false) : s.finishOp o e cause = s.setOp o (e.ended cause) := by
  unfold State.finishOp
  rw [peer]
  dsimp only
  rw [State.endOp_core o cause agent notBurin, State.setOp_coreAt, working]
  rfl

/-- Once its work is finished, a cause becomes a notice, and the group may retire. -/
theorem State.finishOp_finished {n : Nat} (finished : (s.coreAt e.core).finished = true) : ∃ detail, s.finishOp o e (some n) =
    ((s.setOp o (e.ended (some n))).post n e.ctx (e.grp % 256) detail).at s.now prioNet (.groupRetire e.grp) := by
  refine ⟨e.fva.toNat % 2 ^ 37 + (if e.fva.getLsbD 37 then 2 ^ 37 else 0), ?_⟩
  unfold State.finishOp
  rw [peer]
  dsimp only
  rw [State.endOp_core o (some n) agent notBurin, State.setOp_coreAt, finished]
  simp only [Bool.not_true, Bool.false_eq_true, if_false, State.post_now, State.setOp_now]

end

/-- Where there is room, a notice is the last of the queue (R345). -/
theorem State.post_room {s : State} (room : roomForNotice s) (code ctx grp detail : Nat) :
    s.post code ctx grp detail = { s with hub := { s.hub with privQ := s.hub.privQ ++ [noticeWord code ctx grp detail] } } := by
  obtain ⟨noneHeld, short⟩ := room
  unfold State.post
  simp [noneHeld, privCapacity, short]

theorem State.setOp_find (s : State) (o : Nat) (e : EngOp) : SMap.find (s.setOp o e).ops o = some e := SMap.find_put_same _ _ _

theorem opsKept_setOp (s : State) (o : Nat) (e : EngOp) : opsKept s (s.setOp o e) o := fun _ hx => SMap.find_put_other _ _ _ _ hx

/-! The clauses on operations that end. -/

section
variable {s : State} {o : Nat} {e : EngOp}

theorem exec_complete_ends (own : ownOp s o e) (ends : e.kind.accesses = true ∨ e.cause ≠ none) :
    ∃ t, exec (.engineOperationComplete o) s = .next t ∧
      SMap.find t.ops o = some (e.ended e.cause) ∧ opsKept s t o ∧
      t.cores = s.cores ∧ t.phys = s.phys := by
  obtain ⟨there, running, alone, peer, ⟨c, k, agent, notBurin⟩, working⟩ := own
  have finishes : exec (.engineOperationComplete o) s = .next (s.finishOp o e e.cause) := by
    by_cases caused : e.cause = none
    · rw [caused]
      exact exec_complete_access there running alone caused (ends.resolve_right (· caused))
    · exact exec_complete_caused there running alone caused
  rw [State.finishOp_working o e.cause peer agent notBurin working] at finishes
  exact ⟨_, finishes, State.setOp_find _ _ _, opsKept_setOp _ _ _, rfl, rfl⟩

theorem exec_complete_notices {n c k : Nat} (there : SMap.find s.ops o = some e) (running : e.st = .running) (alone : e.thread = none)
    (peer : e.peer = none) (agent : e.agent = .core c k) (notBurin : k ≠ 12) (finished : (s.coreAt e.core).finished = true)
    (cause : e.cause = some n) (room : roomForNotice s) :
    ∃ t detail, exec (.engineOperationComplete o) s = .next t ∧ t.hub.privQ = s.hub.privQ ++ [noticeWord n e.ctx (e.grp % 256) detail] ∧
      t.dueAt s.now prioNet (.groupRetire e.grp) ∧ t.cores = s.cores := by
  have finishes := exec_complete_caused there running alone (cause ▸ Option.some_ne_none n)
  obtain ⟨detail, ended⟩ := State.finishOp_finished (s := s) o peer agent notBurin (n := n) finished
  have room' : roomForNotice (s.setOp o (e.ended (some n))) := room
  rw [cause, ended, State.post_room room'] at finishes
  exact ⟨_, detail, finishes, rfl, State.at_dueAt _ _ _ _, rfl⟩

/-- What a program reports of a request leaves its agent, and that no peer waits for it. -/
theorem State.programEnd_agent (s : State) (ops : List Nat) (e : EngOp) (cause : Option Nat) :
    (s.programEnd ops e cause).peer = e.peer ∧ (s.programEnd ops e cause).agent = e.agent ∧ (s.programEnd ops e cause).core = e.core := by
  unfold State.programEnd
  dsimp only
  split
  · exact ⟨rfl, rfl, rfl⟩
  · split <;> exact ⟨rfl, rfl, rfl⟩

theorem exec_complete_as_program {id c k : Nat} {cause : Option Nat} (there : SMap.find s.ops o = some e) (running : e.st = .running)
    (program : e.thread = some id) (peer : e.peer = none) (agent : e.agent = .core c k) (notBurin : k ≠ 12)
    (working : (s.coreAt e.core).finished = false) (ends : s.requestEnd id = some cause) :
    ∃ t, exec (.engineOperationComplete o) s = .next t ∧ (t.opAt o).st = .ofCause cause ∧
      SMap.find t.reqThreads id = none ∧ t.cores = s.cores := by
  obtain ⟨ops, finishes⟩ := exec_complete_program there running program ends
  obtain ⟨samePeer, sameAgent, sameCore⟩ := s.programEnd_agent (s.reqAt id).thread.allOps e cause
  rw [State.finishOp_working o cause (samePeer.trans peer) (sameAgent.trans agent) notBurin (sameCore ▸ working)] at finishes
  refine ⟨_, finishes, ?_, SMap.find_erase_same _ _, rfl⟩
  rw [State.setOp_opAt_same]
  rfl

end

end Sys2Proof.Machine
end

section
/-! SNAP, ROLL and PREEMPT reach their group (R282, R327, R331, R346). -/

namespace Sys2Proof.Machine

section
variable {s : State} {o : Nat} {e : EngOp} {kind : ReqKind}

/-- What the sequencer has been asked ends as every operation of a thread does, in any state in which its member still works. -/
theorem asked_finishOp {t : State} (h : asked s o e kind) (cause : Option Nat) (working : (t.coreAt e.core).finished = false) :
    t.finishOp o e cause = t.setOp o (e.ended cause) := by
  obtain ⟨⟨_, _, _, peer, ⟨c, k, agent, notBurin⟩, _⟩, _, _⟩ := h
  exact State.finishOp_working o cause peer agent notBurin working

theorem asked_working (h : asked s o e kind) : (s.coreAt e.core).finished = false := h.1.2.2.2.2.2

theorem asked_opAt (h : asked s o e kind) : s.opAt o = e := State.opAt_of_find h.1.1

theorem exec_asked_groupOp (h : asked s o e kind) (hk : kind = .snap ∨ kind = .roll ∨ kind = .preempt) :
    exec (.engineOperationComplete o) s = .next (s.groupOp o e) := by
  obtain ⟨⟨there, running, alone, _⟩, noCause, rfl⟩ := h
  exact exec_complete_groupOp there running alone noCause hk

theorem exec_asked_saveOp (h : asked s o e .ctxsave) : exec (.engineOperationComplete o) s = .next (s.saveOp o e) := by
  obtain ⟨⟨there, running, alone, _⟩, noCause, hk⟩ := h
  exact exec_complete_saveOp there running alone noCause hk

theorem exec_asked_loadOp (h : asked s o e .ctxload) : exec (.engineOperationComplete o) s = .next (s.loadOp o e) := by
  obtain ⟨⟨there, running, alone, _⟩, noCause, hk⟩ := h
  exact exec_complete_loadOp there running alone noCause hk

theorem exec_asked_invalidateOp (h : asked s o e .tlbinv) : exec (.engineOperationComplete o) s = .next (s.invalidateOp o e) := by
  obtain ⟨⟨there, running, alone, _⟩, noCause, hk⟩ := h
  exact exec_complete_invalidateOp there running alone noCause hk

theorem asked_running (h : asked s o e kind) : e.st = .running := h.1.2.1

/-! An operation that waits to be joined with its group. -/

theorem State.mark_opAt (s : State) (o : Nat) : (s.mark o).opAt o = { s.opAt o with begun := true } := State.setOp_opAt_same _ _ _

theorem asked_mark (h : asked s o e kind) : ((s.mark o).opAt o).st = .running ∧ ((s.mark o).opAt o).begun = true := by
  have waits : e.st = .running := asked_running h
  rw [State.mark_opAt, asked_opAt h]
  exact ⟨waits, rfl⟩

theorem State.modGroup_groupAt (s : State) (g : Nat) (f : Group → Group) : (s.modGroup g f).groupAt g = f (s.groupAt g) := State.setGroup_groupAt_same _ _ _

theorem State.callRollback_called {s : State} {g : Nat} (notYet : s.pending (.rollback g) = false) :
    s.callRollback g = s.later stopDelay (.rollback g) := by
  rw [State.callRollback, notYet]
  rfl

/-- A call for a rollback changes the agenda and the counter of free values. -/
theorem State.callRollback_eq (s : State) (g : Nat) : ∃ agenda fresh, s.callRollback g = { s with agenda := agenda, fresh := fresh } := by
  unfold State.callRollback
  split
  · exact ⟨_, _, rfl⟩
  · exact ⟨_, _, rfl⟩

def Group.noteSnap (o : Nat) (g : Group) : Group := { g with snaps := g.snaps ++ [o] }
def Group.noteRoll (o : Nat) (g : Group) : Group := { g with rolls := g.rolls ++ [o] }
def Group.notePreempt (o : Nat) (g : Group) : Group := { g with preempts := g.preempts ++ [o] }

theorem exec_snap_noted {g : Nat} (h : asked s o e .snap) (hg : e.av.toNat = g) (live : (s.groupAt g).st.ended = false) (first : e.begun = false)
    (prot : (s.groupAt g).prot = true) (whole : ((s.groupAt g).domain 0).configured = true → s.wholeGroup g ((s.groupAt g).domain 0) = true) :
    ∃ t, exec (.engineOperationComplete o) s = .next t ∧ (t.groupAt g).snaps = (s.groupAt g).snaps ++ [o] ∧ (t.opAt o).st = .running ∧
      (t.opAt o).begun = true ∧ t.cores = s.cores := by
  subst hg
  have kind : e.kind = .snap := h.2.2
  have taken : (!(s.groupAt e.av.toNat).prot ||
      (((s.groupAt e.av.toNat).domain 0).configured && !s.wholeGroup e.av.toNat ((s.groupAt e.av.toNat).domain 0))) = false := by
    cases configured : ((s.groupAt e.av.toNat).domain 0).configured with
    | false => simp [prot]
    | true => simp [prot, whole configured]
  have noted : s.groupOp o e = (s.mark o).modGroup e.av.toNat (Group.noteSnap o) := by
    unfold State.groupOp
    simp only [live, first, kind, taken, Bool.false_eq_true, if_false]
    rfl
  obtain ⟨waits, begun⟩ := asked_mark h
  refine ⟨_, (exec_asked_groupOp h (.inl rfl)).trans (congrArg _ noted), ?_, waits, begun, rfl⟩
  rw [State.modGroup_groupAt]
  rfl

theorem exec_roll_noted {g : Nat} (h : asked s o e .roll) (hg : e.av.toNat = g) (live : (s.groupAt g).st.ended = false) (first : e.begun = false)
    (proven : (s.groupAt g).proof ≠ none) :
    ∃ t, exec (.engineOperationComplete o) s = .next t ∧ (t.groupAt g).rolls = (s.groupAt g).rolls ++ [o] ∧
      ((s.groupAt g).st.holds = true → s.pending (.rollback g) = false → ∃ d, s.now + 128 ≤ d ∧ t.dueAt d prioNet (.rollback g)) ∧
      t.cores = s.cores := by
  subst hg
  have kind : e.kind = .roll := h.2.2
  have hasProof : (s.groupAt e.av.toNat).proof.isNone = false := by simpa [Option.isSome_iff_ne_none] using proven
  have noted : s.groupOp o e = if (s.groupAt e.av.toNat).st.holds
      then ((s.mark o).modGroup e.av.toNat (Group.noteRoll o)).callRollback e.av.toNat else (s.mark o).modGroup e.av.toNat (Group.noteRoll o) := by
    unfold State.groupOp
    simp only [live, first, kind, hasProof, Bool.false_eq_true, if_false]
    rfl
  have rolls : (((s.mark o).modGroup e.av.toNat (Group.noteRoll o)).groupAt e.av.toNat).rolls = (s.groupAt e.av.toNat).rolls ++ [o] := by
    rw [State.modGroup_groupAt]
    rfl
  refine ⟨_, (exec_asked_groupOp h (.inr (.inl rfl))).trans (congrArg _ noted), ?_⟩
  cases holds : (s.groupAt e.av.toNat).st.holds with
  | false => exact ⟨rolls, nofun, rfl⟩
  | true =>
    refine ⟨?_, fun _ notYet => ?_, ?_⟩
    · obtain ⟨_, _, called⟩ := ((s.mark o).modGroup e.av.toNat (Group.noteRoll o)).callRollback_eq e.av.toNat
      rw [if_pos rfl, called]
      exact rolls
    · have called := State.callRollback_called (s := (s.mark o).modGroup e.av.toNat (Group.noteRoll o)) notYet
      rw [if_pos rfl, called]
      exact State.later_dueAt ((s.mark o).modGroup e.av.toNat (Group.noteRoll o)) _
    · obtain ⟨_, _, called⟩ := ((s.mark o).modGroup e.av.toNat (Group.noteRoll o)).callRollback_eq e.av.toNat
      rw [if_pos rfl, called]
      rfl

theorem exec_roll_unproven {g : Nat} (h : asked s o e .roll) (hg : e.av.toNat = g) (live : (s.groupAt g).st.ended = false) (first : e.begun = false)
    (unproven : (s.groupAt g).proof = none) :
    ∃ t, exec (.engineOperationComplete o) s = .next t ∧ (t.opAt o).st = .failed 0x1C8 ∧ t.cores = s.cores := by
  subst hg
  have kind : e.kind = .roll := h.2.2
  have fails : s.groupOp o e = s.setOp o (e.ended (some 0x1C8)) := by
    rw [← asked_finishOp h (some 0x1C8) (asked_working h)]
    unfold State.groupOp
    simp only [live, first, kind, unproven, Bool.false_eq_true, if_false]
    rfl
  refine ⟨_, (exec_asked_groupOp h (.inr (.inl rfl))).trans (congrArg _ fails), ?_, rfl⟩
  rw [State.setOp_opAt_same]
  rfl

theorem GState.runs_live {st : GState} (runs : st.runs = true) : st.ended = false := by
  cases st with
  | placed | running | changingMap | rollingBack => rfl
  | _ => cases runs

theorem exec_preempt_noted {g : Nat} (h : asked s o e .preempt) (hg : e.av.toNat = g) (runs : (s.groupAt g).st.runs = true) (first : e.begun = false) :
    ∃ t, exec (.engineOperationComplete o) s = .next t ∧ (t.groupAt g).preempts = (s.groupAt g).preempts ++ [o] ∧
      (∃ d, s.now + 128 ≤ d ∧ t.dueAt d prioNet (.stopAtCycle g)) ∧ (t.opAt o).st = .running ∧ t.cores = s.cores := by
  subst hg
  have kind : e.kind = .preempt := h.2.2
  have noted : s.groupOp o e = ((s.mark o).modGroup e.av.toNat (Group.notePreempt o)).later stopDelay (.stopAtCycle e.av.toNat) := by
    unfold State.groupOp
    simp only [GState.runs_live runs, runs, first, kind, Bool.not_true, Bool.false_eq_true, if_false]
    rfl
  refine ⟨_, (exec_asked_groupOp h (.inr (.inr rfl))).trans (congrArg _ noted), ?_, State.later_dueAt ((s.mark o).modGroup e.av.toNat (Group.notePreempt o)) _,
    (asked_mark h).1, rfl⟩
  exact congrArg Group.preempts (State.modGroup_groupAt (s.mark o) e.av.toNat (Group.notePreempt o))

/-- Of a group that has ended meanwhile nothing is joined; of another, the second visit joins the operation. -/
theorem exec_groupOp_ends (hk : kind = .snap ∨ kind = .roll ∨ kind = .preempt) (h : asked s o e kind) :
    ((s.groupAt e.av.toNat).st.ended = true → ∃ t, exec (.engineOperationComplete o) s = .next t ∧ (t.opAt o).st = .failed 0x200) ∧
    ((s.groupAt e.av.toNat).st.ended = false → e.begun = true →
      ∃ t, exec (.engineOperationComplete o) s = .next t ∧ (t.opAt o).st = .done) := by
  have next := exec_asked_groupOp h hk
  refine ⟨fun ended => ⟨_, next, ?_⟩, fun live again => ⟨_, next, ?_⟩⟩
  · rw [State.groupOp, if_pos ended, asked_finishOp h _ (asked_working h), State.setOp_opAt_same]
    rfl
  · rw [State.groupOp, if_neg (by rw [live]; decide), if_pos again, asked_finishOp h _ (asked_working h), State.setOp_opAt_same]
    rfl

end

end Sys2Proof.Machine
end

section
/-! The end of a group, and contexts that are saved and killed (R346, R355, R356, R360, R361). -/

namespace Sys2Proof.Machine

/-! States of contexts (R346). -/

/-- The state of a context that is set changes contexts and its header. -/
theorem State.setCtxState_eq (s : State) (x st : Nat) : ∃ contexts phys, s.setCtxState x st = { s with contexts := contexts, phys := phys } := by
  unfold State.setCtxState
  dsimp only
  split
  · exact ⟨_, _, rfl⟩
  · exact ⟨_, _, rfl⟩

theorem State.setCtxState_groupAt (s : State) (x st g : Nat) : (s.setCtxState x st).groupAt g = s.groupAt g := by
  obtain ⟨_, _, only⟩ := s.setCtxState_eq x st
  rw [only]
  rfl

theorem State.setCtxState_contextAt (s : State) (x st : Nat) : (s.setCtxState x st).contextAt x = { s.contextAt x with st := st } := by
  unfold State.setCtxState
  dsimp only
  split
  case isTrue same => rw [← same]
  case isFalse => exact State.setContext_contextAt_same _ _ _

theorem State.settleContext_eq (s : State) (x : Nat) : ∃ contexts phys, s.settleContext x = { s with contexts := contexts, phys := phys } := by
  unfold State.settleContext
  dsimp only
  split
  · exact ⟨_, _, rfl⟩
  · exact State.setCtxState_eq _ _ _

/-! The end of a group (R310, R361). -/

/-- What is left of a group that has ended. -/
def Group.over (g : Group) (st : GState) : Group :=
  { g with st := st, heldPlace := false, hold := [], granules := [], proof := none, taking := [], deferred := [], members := [], map := [],
           saved := [], savedShared := [], domains := [], moves := [], snaps := [], rolls := [], preempts := [], coupled := [] }

/-- Each core is as it was, or cleared. -/
def coresCleared (s t : State) : Prop := ∀ c, t.coreAt c = s.coreAt c ∨ t.coreAt c = (s.coreAt c).cleared

theorem coresCleared_refl (s : State) : coresCleared s s := fun _ => .inl rfl

theorem Core.cleared_cleared (k : Core) : k.cleared.cleared = k.cleared := rfl

theorem coresCleared_trans {s t u : State} (h : coresCleared s t) (g : coresCleared t u) : coresCleared s u := by
  intro c
  rcases g c with same | gone
  · rw [same]
    exact h c
  · rcases h c with same | cleared
    · exact .inr (by rw [gone, same])
    · exact .inr (by rw [gone, cleared, Core.cleared_cleared])

theorem coresCleared_of_cores {s t : State} (h : t.cores = s.cores) : coresCleared s t := fun c => .inl (by rw [State.coreAt, h]; rfl)

theorem coresCleared_modCore (s : State) (c : Nat) : coresCleared s (s.modCore c Core.cleared) := by
  intro d
  by_cases here : d = c
  · subst here
    exact .inr (State.setCore_coreAt_same _ _ _)
  · exact .inl (State.setCore_coreAt_other _ _ _ _ here)

/-- A core that is cleared has no finished work. -/
theorem coresCleared_working {s t : State} (h : coresCleared s t) {c : Nat} (working : (s.coreAt c).finished = false) :
    (t.coreAt c).finished = false := by
  rcases h c with same | cleared
  · rw [same, working]
  · rw [cleared]
    rfl

/-- The cores of a group are cleared as it ends. -/
def State.clearMembers (s : State) (g : Nat) (members : List Nat) : State :=
  members.foldl (fun s c => if (s.coreAt c).grp == some g then s.modCore c Core.cleared else s) s

theorem State.clearMembers_eq (s : State) (g : Nat) (members : List Nat) :
    ∃ cores, s.clearMembers g members = { s with cores := cores } ∧ coresCleared s (s.clearMembers g members) := by
  refine List.foldlRecOn (motive := fun (u : State) => ∃ cores, u = { s with cores := cores } ∧ coresCleared s u) _ _
    ⟨s.cores, rfl, coresCleared_refl s⟩ fun u ⟨_, only, hu⟩ c _ => ?_
  split
  · exact ⟨_, by rw [only]; rfl, coresCleared_trans hu (coresCleared_modCore u c)⟩
  · exact ⟨_, only, hu⟩

/-- Events that come to the agenda on this cycle change nothing else. -/
theorem foldl_at_eq (s : State) (prio : Nat) (ev : Nat → Instr) (l : List Nat) :
    ∃ agenda, l.foldl (fun s o => s.at s.now prio (ev o)) s = { s with agenda := agenda } := by
  refine List.foldlRecOn (motive := fun (u : State) => ∃ agenda, u = { s with agenda := agenda }) _ _ ⟨s.agenda, rfl⟩ fun u hu o _ => ?_
  obtain ⟨_, rfl⟩ := hu
  exact ⟨_, rfl⟩

/-- The end of a group leaves of the group what is over, and clears cores; of the rest it changes operations, sends, request threads, clusters,
the agenda, and the state of its context. -/
theorem State.endGroup_eq (s : State) (g : Nat) (st : GState) : ∃ cores ops sends reqThreads clusters agenda contexts phys,
    s.endGroup g st =
      { s with cores := cores, groups := SMap.put s.groups g ((s.groupAt g).over st), ops := ops, sends := sends, reqThreads := reqThreads,
               clusters := clusters, agenda := agenda, contexts := contexts, phys := phys } ∧
      coresCleared s (s.endGroup g st) := by
  obtain ⟨cores, cleared, clearing⟩ := s.clearMembers_eq g (s.groupAt g).members
  unfold State.clearMembers at cleared clearing
  unfold State.endGroup
  dsimp only
  rw [cleared] at clearing ⊢
  generalize hw : State.setGroup _ _ _ = w
  obtain ⟨agenda, joined⟩ := foldl_at_eq w prioNet .engineOperationComplete ((s.groupAt g).snaps ++ (s.groupAt g).rolls ++ (s.groupAt g).preempts)
  rw [joined]
  obtain ⟨contexts, phys, settled⟩ := State.settleContext_eq { w with agenda := agenda } (s.groupAt g).ctx
  rw [settled]
  subst hw
  exact ⟨_, _, _, _, _, _, _, _, rfl, clearing⟩

end Sys2Proof.Machine
end

section
/-! Groups and contexts that are killed (R346, R361). -/

namespace Sys2Proof.Machine

section
variable (s : State) (g : Nat)

theorem State.killGroup_groupAt : (s.killGroup g).groupAt g = (s.groupAt g).over .killed := by
  obtain ⟨_, _, _, _, _, _, _, _, only, _⟩ := s.endGroup_eq g .killed
  rw [State.killGroup, only]
  exact SMap.get_put_same _ _ _ _

theorem State.killGroup_groupAt_other {i : Nat} (hi : i ≠ g) : (s.killGroup g).groupAt i = s.groupAt i := by
  obtain ⟨_, _, _, _, _, _, _, _, only, _⟩ := s.endGroup_eq g .killed
  rw [State.killGroup, only]
  exact SMap.get_put_other _ _ _ _ _ hi

theorem State.killGroup_now : (s.killGroup g).now = s.now := by
  obtain ⟨_, _, _, _, _, _, _, _, only, _⟩ := s.endGroup_eq g .killed
  rw [State.killGroup, only]

theorem State.killGroup_hub : (s.killGroup g).hub = s.hub := by
  obtain ⟨_, _, _, _, _, _, _, _, only, _⟩ := s.endGroup_eq g .killed
  rw [State.killGroup, only]

theorem State.killGroup_cleared : coresCleared s (s.killGroup g) := by
  obtain ⟨_, _, _, _, _, _, _, _, _, cleared⟩ := s.endGroup_eq g .killed
  exact cleared

/-- A group that has ended stays so. -/
theorem State.killGroup_ended {i : Nat} (ended : (s.groupAt i).st.ended = true ∨ i = g) : ((s.killGroup g).groupAt i).st.ended = true := by
  by_cases here : i = g
  · rw [here, State.killGroup_groupAt]
    rfl
  · rw [State.killGroup_groupAt_other s g here]
    exact ended.resolve_right here

end

/-- The groups of a list are killed. -/
def State.killGroups (s : State) (l : List Nat) : State := l.foldl (fun s g => s.killGroup g) s

theorem State.killGroups_now (s : State) (l : List Nat) : (s.killGroups l).now = s.now := foldl_keeps State.now State.killGroup_now l s

theorem State.killGroups_ended (s : State) {l : List Nat} {i : Nat} (ended : (s.groupAt i).st.ended = true ∨ i ∈ l) :
    ((s.killGroups l).groupAt i).st.ended = true := by
  induction l generalizing s with
  | nil => exact ended.resolve_right (by simp)
  | cons g rest ih =>
    refine ih (s.killGroup g) ?_
    rcases ended with already | listed
    · exact .inl (s.killGroup_ended g (.inl already))
    · exact (List.mem_cons.mp listed).imp_left fun here => s.killGroup_ended g (.inr here)

def LQueue.emptied (q : LQueue) : LQueue := { q with recs := [] }

/-- The launch queues, the hub map and the DKEY signals of a context are emptied. -/
def Context.emptied (c : Context) : Context := { c with queues := mapVals LQueue.emptied c.queues, hubMap := [], dkeys := [] }

theorem mapVals_find {α : Type} (f : α → α) (m : SMap α) (k : Nat) : SMap.find (mapVals f m) k = (SMap.find m k).map f := by
  induction m with
  | nil => rfl
  | cons x rest ih =>
    obtain ⟨j, v⟩ := x
    have step : mapVals f ((j, v) :: rest) = (j, f v) :: mapVals f rest := rfl
    rw [step, SMap.find, SMap.find]
    split
    · rfl
    · exact ih

theorem Context.emptied_queue (c : Context) (q : Nat) : (c.emptied.queue q).recs = [] := by
  have found : SMap.find c.emptied.queues q = (SMap.find c.queues q).map LQueue.emptied := mapVals_find _ _ _
  rw [Context.queue, SMap.get, found]
  cases SMap.find c.queues q <;> rfl

theorem State.killContext_eq (s : State) (x : Nat) : s.killContext x =
    ((s.killGroups ((s.groupsOf x).filter fun g => !(s.groupAt g).st.ended)).modContext x Context.emptied).setCtxState x 5 := rfl

theorem State.killContext_contextAt (s : State) (x : Nat) : ∃ c : Context, (s.killContext x).contextAt x = { c.emptied with st := 5 } := by
  refine ⟨(s.killGroups ((s.groupsOf x).filter fun g => !(s.groupAt g).st.ended)).contextAt x, ?_⟩
  rw [State.killContext_eq, State.setCtxState_contextAt, State.modContext, State.setContext_contextAt_same]

theorem State.killContext_now (s : State) (x : Nat) : (s.killContext x).now = s.now := by
  obtain ⟨_, _, only⟩ := State.setCtxState_eq
    ((s.killGroups ((s.groupsOf x).filter fun g => !(s.groupAt g).st.ended)).modContext x Context.emptied) x 5
  rw [State.killContext_eq, only]
  exact State.killGroups_now _ _

theorem State.killContext_ended (s : State) {x g : Nat} (hg : g ∈ s.groupsOf x) : ((s.killContext x).groupAt g).st.ended = true := by
  rw [State.killContext_eq, State.setCtxState_groupAt, State.modContext, State.setContext_groupAt]
  refine State.killGroups_ended s ?_
  cases ended : (s.groupAt g).st.ended with
  | true => exact .inl rfl
  | false => exact .inr (List.mem_filter.mpr ⟨hg, by rw [ended]; rfl⟩)

/-! Frames that a context maps no more (R122). -/

/-- Only the tables of frames, the marks of granules, and what pages a context has had change. -/
def reframed (s t : State) : Prop := ∃ granules groups frameTags frameOwner mappers pages,
  t = { s with granules := granules, groups := groups, frameTags := frameTags, frameOwner := frameOwner, mappers := mappers, pages := pages }

theorem reframed_refl (s : State) : reframed s s := ⟨_, _, _, _, _, _, rfl⟩

theorem reframed_trans {s t u : State} (h : reframed s t) (g : reframed t u) : reframed s u := by
  obtain ⟨_, _, _, _, _, _, rfl⟩ := h
  obtain ⟨_, _, _, _, _, _, rfl⟩ := g
  exact ⟨_, _, _, _, _, _, rfl⟩

theorem reframed_unmap (s : State) (x : Nat) (ends : Nat → Nat → Bool) : reframed s (s.unmap x ends) := by
  refine List.foldlRecOn (motive := fun (u : State) => reframed s u) _ _ (reframed_refl s) fun u hu f _ => reframed_trans hu ?_
  dsimp only
  split
  · exact reframed_refl u
  · split <;> exact ⟨_, _, _, _, _, _, rfl⟩

theorem reframed_forget (s : State) (x : Nat) : reframed s (s.forget x) :=
  reframed_trans (reframed_unmap s x fun _ _ => true) ⟨_, _, _, _, _, _, rfl⟩

theorem reframed_cores {s t : State} (h : reframed s t) : t.cores = s.cores := by
  obtain ⟨_, _, _, _, _, _, rfl⟩ := h
  rfl

theorem reframed_phys {s t : State} (h : reframed s t) : t.phys = s.phys := by
  obtain ⟨_, _, _, _, _, _, rfl⟩ := h
  rfl

theorem reframed_contexts {s t : State} (h : reframed s t) : t.contexts = s.contexts := by
  obtain ⟨_, _, _, _, _, _, rfl⟩ := h
  rfl

/-! CTXSAVE.kill and CTXSAVE.gkill (R361). -/

/-- An operation that goes on, its next event later, leaves contexts and groups. -/
def State.goesOn (s : State) (o : Nat) : State := (s.mark o).later 1 (.engineOperationComplete o)

theorem State.goesOn_contextAt (s : State) (o x : Nat) : (s.goesOn o).contextAt x = s.contextAt x := rfl
theorem State.goesOn_groupAt (s : State) (o g : Nat) : (s.goesOn o).groupAt g = s.groupAt g := rfl

theorem State.goesOn_dueAt (s : State) (o : Nat) : ∃ d, s.now < d ∧ (s.goesOn o).dueAt d prioNet (.engineOperationComplete o) :=
  State.later_dueAt (s.mark o) (least := 1) _

section
variable {s : State} {o : Nat} {e : EngOp} (h : asked s o e .ctxsave)
include h

theorem exec_ctxsave_kills {x : Nat} (hx : e.av.toNat = x) (hm : e.m = 1) (first : e.begun = false) (fits : savable s x = true) :
    ∃ t, exec (.engineOperationComplete o) s = .next t ∧ (t.contextAt x).st = 5 ∧ (t.contextAt x).hubMap = [] ∧
      (∀ q, ((t.contextAt x).queue q).recs = []) ∧ (∀ g ∈ s.groupsOf x, (t.groupAt g).st.ended = true) ∧
      ∃ d, s.now < d ∧ t.dueAt d prioNet (.engineOperationComplete o) := by
  subst hx
  have kills : s.saveOp o e = (s.killContext e.av.toNat).goesOn o := by
    simp [State.saveOp, hm, first, fits, State.goesOn]
  obtain ⟨c, context⟩ := s.killContext_contextAt e.av.toNat
  rw [← State.goesOn_contextAt _ o] at context
  obtain ⟨d, after, due⟩ := State.goesOn_dueAt (s.killContext e.av.toNat) o
  rw [State.killContext_now] at after
  refine ⟨_, (exec_asked_saveOp h).trans (congrArg _ kills), ?_, ?_, fun q => ?_, fun g hg => ?_, d, after, due⟩
  · rw [context]
  · rw [context]
    rfl
  · rw [context]
    exact c.emptied_queue q
  · rw [State.goesOn_groupAt]
    exact s.killContext_ended hg

theorem exec_ctxsave_killed {x : Nat} (hx : e.av.toNat = x) (hm : e.m = 1) (again : e.begun = true) :
    ∃ t, exec (.engineOperationComplete o) s = .next t ∧ (t.contextAt x).st = 0 ∧ (t.opAt o).st = .done := by
  subst hx
  have cores : ((s.forget e.av.toNat).setCtxState e.av.toNat 0).cores = s.cores :=
    (State.setCtxState_cores _ _ _).trans (reframed_cores (reframed_forget s _))
  have frees : s.saveOp o e = ((s.forget e.av.toNat).setCtxState e.av.toNat 0).setOp o (e.ended none) := by
    rw [← asked_finishOp h none (coresCleared_working (coresCleared_of_cores cores) (asked_working h))]
    simp [State.saveOp, hm, again]
  refine ⟨_, (exec_asked_saveOp h).trans (congrArg _ frees), ?_, ?_⟩
  · rw [State.setOp_contextAt, State.setCtxState_contextAt]
  · rw [State.setOp_opAt_same]
    rfl

theorem exec_ctxsave_killsGroup {g : Nat} (hg : e.av.toNat = g) (hm : e.m = 2) (rests : (s.groupAt g).rests = true) :
    ∃ t, exec (.engineOperationComplete o) s = .next t ∧ (t.groupAt g).st = .killed ∧ (t.groupAt g).members = [] ∧ (t.groupAt g).hold = [] := by
  subst hg
  have kills : s.saveOp o e = (s.killGroup e.av.toNat).setOp o (e.ended none) := by
    rw [← asked_finishOp h none (coresCleared_working (s.killGroup_cleared _) (asked_working h))]
    simp [State.saveOp, hm, rests]
  refine ⟨_, (exec_asked_saveOp h).trans (congrArg _ kills), ?_⟩
  rw [State.setOp_groupAt, State.killGroup_groupAt]
  exact ⟨rfl, rfl, rfl⟩

end

end Sys2Proof.Machine
end

section
/-! Contexts that are saved (R355, R356, R360). -/

namespace Sys2Proof.Machine

/-- What a save writes beside the members: physical memory, and the counter of free values. -/
def physWritten (s t : State) : Prop := ∃ phys fresh, t = { s with phys := phys, fresh := fresh }

theorem physWritten_trans {s t u : State} (h : physWritten s t) (g : physWritten t u) : physWritten s u := by
  obtain ⟨_, _, rfl⟩ := h
  obtain ⟨_, _, rfl⟩ := g
  exact ⟨_, _, rfl⟩

theorem physWritten_writeOpen (s : State) (a n : Nat) : physWritten s (s.writeOpen a n) := by
  have bytes := (s.freeBytes_spec n).2
  unfold State.writeOpen
  dsimp only
  rw [bytes]
  exact ⟨_, _, rfl⟩

theorem physWritten_writeOthers (s : State) (a width : Nat) : physWritten s (s.writeOthers a width) := by
  unfold State.writeOthers
  exact physWritten_trans (physWritten_writeOpen _ _ _) (physWritten_trans (physWritten_writeOpen _ _ _) (physWritten_trans (physWritten_writeOpen _ _ _) ⟨_, _, rfl⟩))

/-- The members of a group that is saved leave their front ends. -/
def State.clearAll (s : State) (l : List Nat) : State := l.foldl (fun s c => s.modCore c Core.cleared) s

theorem State.clearAll_cleared (s : State) (l : List Nat) : coresCleared s (s.clearAll l) :=
  List.foldlRecOn (motive := fun (u : State) => coresCleared s u) _ _ (coresCleared_refl s) fun u hu c _ =>
    coresCleared_trans hu (coresCleared_modCore u c)

theorem coresCleared_grp {s t : State} (h : coresCleared s t) {c : Nat} (free : (s.coreAt c).grp = none) : (t.coreAt c).grp = none := by
  rcases h c with same | cleared
  · rw [same, free]
  · rw [cleared]
    rfl

/-- Each member that is cleared runs no group any more. -/
theorem State.clearAll_grp (s : State) {l : List Nat} {c : Nat} (hc : c ∈ l) : ((s.clearAll l).coreAt c).grp = none := by
  induction l generalizing s with
  | nil => cases hc
  | cons d rest ih =>
    rcases List.mem_cons.mp hc with rfl | later
    · refine coresCleared_grp (State.clearAll_cleared (s.modCore c Core.cleared) rest) ?_
      rw [State.modCore, State.setCore_coreAt_same]
      rfl
    · exact ih _ later

theorem foldl_modCluster_eq (s : State) (f : Cluster → Cluster) (l : List Nat) :
    ∃ clusters, l.foldl (fun s k => s.modCluster k f) s = { s with clusters := clusters } := by
  refine List.foldlRecOn (motive := fun (u : State) => ∃ clusters, u = { s with clusters := clusters }) _ _ ⟨s.clusters, rfl⟩ fun u hu k _ => ?_
  obtain ⟨_, rfl⟩ := hu
  exact ⟨_, rfl⟩

/-- The members of a group leave their front ends, and what was on its way to them. -/
def State.vacate (s : State) (gr : Group) : State :=
  gr.map.foldl (fun s k => s.modCluster k fun v => { v with heldDeps := v.heldDeps.filter fun d => !gr.members.contains d.1 })
    ((s.cancel fun e => (eventCore e).any gr.members.contains).clearAll gr.members)

/-- What a group keeps of a member: its front end, and its core. -/
def Image.place (i : Image) : Nat × Core := (i.at_, i.core)

/-- A save physWritten the block of the group, keeps the images of its members, and lets its clusters fall free. -/
theorem State.saveGroup_eq (s : State) (g : Nat) : ∃ w images shared, physWritten (s.takeAlong g) w ∧
    images.map Image.place = ((s.takeAlong g).groupAt g).members.map (fun c => (c, (s.takeAlong g).coreAt c)) ∧
    s.saveGroup g = (w.vacate ((s.takeAlong g).groupAt g)).setGroup g
      { (s.takeAlong g).groupAt g with st := .saved, saved := images, savedShared := shared } := by
  unfold State.saveGroup
  dsimp only
  refine ⟨_, _, _, ?_, ?_, rfl⟩
  · split
    · exact ⟨_, _, rfl⟩
    · refine List.foldlRecOn (motive := fun (u : State) => physWritten (s.takeAlong g) u) _ _ ?_ fun u hu r _ => physWritten_trans hu (physWritten_writeOthers _ _ _)
      exact physWritten_trans ⟨_, s.fresh, rfl⟩ (physWritten_writeOpen _ _ _)
  · rw [List.map_map]
    rfl

theorem State.takeAlong_coreAt (s : State) (g c : Nat) : (s.takeAlong g).coreAt c = s.coreAt c := rfl

theorem physWritten_coreAt {s t : State} (h : physWritten s t) (c : Nat) : t.coreAt c = s.coreAt c := by
  obtain ⟨_, _, rfl⟩ := h
  rfl

theorem State.vacate_coreAt (s : State) (gr : Group) (c : Nat) :
    (s.vacate gr).coreAt c = ((s.cancel fun e => (eventCore e).any gr.members.contains).clearAll gr.members).coreAt c := by
  obtain ⟨_, only⟩ := foldl_modCluster_eq ((s.cancel fun e => (eventCore e).any gr.members.contains).clearAll gr.members)
    (fun v => { v with heldDeps := v.heldDeps.filter fun d => !gr.members.contains d.1 }) gr.map
  rw [State.vacate, only]
  rfl

/-- A group that is saved: its members' images are in it, and its members are cleared. -/
structure savedAs (s t : State) (g : Nat) : Prop where
  st : (t.groupAt g).st = .saved
  saved : (t.groupAt g).saved.map Image.place = (s.groupAt g).members.map fun c => (c, s.coreAt c)
  grp : ∀ c ∈ (s.groupAt g).members, (t.coreAt c).grp = none
  cleared : coresCleared s t

theorem savedAs_saveGroup (s : State) (g : Nat) : savedAs s (s.saveGroup g) g := by
  obtain ⟨w, images, shared, wrote, kept, only⟩ := s.saveGroup_eq g
  have left (c : Nat) := State.vacate_coreAt w ((s.takeAlong g).groupAt g) c
  rw [only]
  refine ⟨?_, ?_, fun c hc => ?_, fun c => ?_⟩
  · rw [State.setGroup_groupAt_same]
  · rw [State.setGroup_groupAt_same]
    exact kept
  · rw [State.setGroup_coreAt, left]
    exact State.clearAll_grp _ hc
  · have cleared := State.clearAll_cleared (w.cancel fun e => (eventCore e).any ((s.takeAlong g).groupAt g).members.contains)
      ((s.takeAlong g).groupAt g).members c
    rw [State.setGroup_coreAt, left]
    rwa [State.cancel_coreAt, physWritten_coreAt wrote, State.takeAlong_coreAt] at cleared

/-! CTXSAVE (R360). -/

/-- The saved groups of a list wait for no placement any more. -/
def State.dropHeld (s : State) (l : List Nat) : State :=
  l.foldl (fun s g => if (s.groupAt g).st == .saved then s.modGroup g fun gr => { gr with heldPlace := false } else s) s

theorem State.dropHeld_spec (s : State) (l : List Nat) : (s.dropHeld l).cores = s.cores ∧
    ∀ g, ((s.dropHeld l).groupAt g).st = (s.groupAt g).st ∧ ((s.dropHeld l).groupAt g).saved = (s.groupAt g).saved := by
  refine List.foldlRecOn (motive := fun (u : State) => u.cores = s.cores ∧
    ∀ g, (u.groupAt g).st = (s.groupAt g).st ∧ (u.groupAt g).saved = (s.groupAt g).saved) _ _ ⟨rfl, fun _ => ⟨rfl, rfl⟩⟩ fun u ⟨cores, same⟩ i _ => ?_
  split
  · refine ⟨cores, fun g => ?_⟩
    by_cases here : g = i
    · subst here
      rw [State.modGroup_groupAt]
      exact same g
    · rw [State.modGroup, State.setGroup_groupAt_other _ _ _ _ here]
      exact same g
  · exact ⟨cores, same⟩

theorem State.writeHeader_cores (s : State) (x : Nat) : (s.writeHeader x).cores = s.cores := rfl
theorem State.writeHeader_groupAt (s : State) (x g : Nat) : (s.writeHeader x).groupAt g = s.groupAt g := rfl

theorem State.saveContext_eq {s : State} {x g : Nat} (one : stoppedGroups s x = [g]) : ∃ due, s.saveContext x =
    ((((s.saveGroup g).dropHeld ((s.saveGroup g).groupsOf x)).writeHeader x).setCtxState x 4).at due prioNet .heldPlacementRetry := by
  unfold State.saveContext
  rw [one]
  exact ⟨_, rfl⟩

theorem savedAs_saveContext {s : State} {x g : Nat} (one : stoppedGroups s x = [g]) :
    savedAs s (s.saveContext x) g ∧ ((s.saveContext x).contextAt x).st = 4 := by
  have saved := savedAs_saveGroup s g
  obtain ⟨cores, same⟩ := State.dropHeld_spec (s.saveGroup g) ((s.saveGroup g).groupsOf x)
  obtain ⟨due, steps⟩ := State.saveContext_eq one
  have left : (s.saveContext x).cores = (s.saveGroup g).cores := by
    rw [steps, State.at_cores, State.setCtxState_cores, State.writeHeader_cores, cores]
  have group : (s.saveContext x).groupAt g = ((s.saveGroup g).dropHeld ((s.saveGroup g).groupsOf x)).groupAt g := by
    rw [steps, State.at_groupAt, State.setCtxState_groupAt, State.writeHeader_groupAt]
  refine ⟨⟨?_, ?_, fun c hc => ?_, coresCleared_trans saved.cleared (coresCleared_of_cores left)⟩, ?_⟩
  · rw [group, (same g).1, saved.st]
  · rw [group, (same g).2, saved.saved]
  · rw [State.coreAt, left]
    exact saved.grp c hc
  · rw [steps, State.at_contextAt, State.setCtxState_contextAt]

section
variable {s : State} {o : Nat} {e : EngOp} (h : asked s o e .ctxsave)
include h

theorem exec_ctxsave_saves {x g : Nat} (hx : e.av.toNat = x) (hm : e.m = 0) (first : e.begun = false) (fits : savable s x = true)
    (one : stoppedGroups s x = [g]) (settled : groupSettled s g = true) :
    ∃ t, exec (.engineOperationComplete o) s = .next t ∧ (t.contextAt x).st = 4 ∧ (t.groupAt g).st = .saved ∧
      (t.groupAt g).saved.map (fun i => (i.at_, i.core)) = (s.groupAt g).members.map (fun c => (c, s.coreAt c)) ∧
      (∀ c ∈ (s.groupAt g).members, (t.coreAt c).grp = none) ∧ (t.opAt o).st = .done := by
  subst hx
  obtain ⟨saved, context⟩ := savedAs_saveContext one
  have saves : s.saveOp o e = (s.saveContext e.av.toNat).setOp o (e.ended none) := by
    rw [← asked_finishOp h none (coresCleared_working saved.cleared (asked_working h))]
    simp [State.saveOp, hm, first, fits, one, settled]
  refine ⟨_, (exec_asked_saveOp h).trans (congrArg _ saves), ?_⟩
  simp only [State.setOp_contextAt, State.setOp_groupAt, State.setOp_coreAt, State.setOp_opAt_same]
  exact ⟨context, saved.st, saved.saved, saved.grp, rfl⟩

theorem exec_ctxsave_waits {x : Nat} (hx : e.av.toNat = x) (hm : e.m = 0) (first : e.begun = false) (fits : savable s x = true)
    (unsettled : (stoppedGroups s x).all (groupSettled s) = false) :
    exec (.engineOperationComplete o) s = .next (s.at (s.now + 1) prioNet (.engineOperationComplete o)) := by
  subst hx
  rw [exec_asked_saveOp h]
  simp [State.saveOp, hm, first, fits, unsettled]

end

end Sys2Proof.Machine
end

section
/-! Contexts that are loaded (R348, R355, R359, R360, R364). -/

namespace Sys2Proof.Machine

theorem State.setCtxState_phys {s : State} {x st : Nat} (new : (s.contextAt x).st ≠ st) :
    (s.setCtxState x st).phys = memWrite s.phys ((s.contextAt x).area + 4) [BitVec.ofNat 8 st] := by
  unfold State.setCtxState
  dsimp only
  rw [if_neg new]

theorem State.wakeSequencer_eq (s : State) : ∃ agenda fresh, s.wakeSequencer = { s with agenda := agenda, fresh := fresh } := by
  unfold State.wakeSequencer
  split
  · exact ⟨_, _, rfl⟩
  · exact ⟨_, _, rfl⟩

theorem memByte_memWrite_one (m : Memory) (a : Nat) (b : Byte) : memByte (memWrite m a [b]) a = b := memByte_memSet_same m a b

theorem State.wakeSequencer_contextAt (s : State) (x : Nat) : s.wakeSequencer.contextAt x = s.contextAt x := by
  obtain ⟨_, _, only⟩ := s.wakeSequencer_eq
  rw [only]
  rfl

theorem State.wakeSequencer_opAt (s : State) (o : Nat) : s.wakeSequencer.opAt o = s.opAt o := by
  obtain ⟨_, _, only⟩ := s.wakeSequencer_eq
  rw [only]
  rfl

theorem State.wakeSequencer_phys (s : State) : s.wakeSequencer.phys = s.phys := by
  obtain ⟨_, _, only⟩ := s.wakeSequencer_eq
  rw [only]

theorem State.wakeSequencer_groups (s : State) : s.wakeSequencer.groups = s.groups := by
  obtain ⟨_, _, only⟩ := s.wakeSequencer_eq
  rw [only]

theorem State.wakeSequencer_cores (s : State) : s.wakeSequencer.cores = s.cores := by
  obtain ⟨_, _, only⟩ := s.wakeSequencer_eq
  rw [only]

/-- A context that is installed is what its header says, before its state is set. -/
def State.headed (s : State) (x area : Nat) : State :=
  ((s.setContext x { queues := (s.contextAt x).queues }).readHeader x area).noteCharged x

theorem State.installContext_eq (s : State) (x area : Nat) : s.installContext x area = (s.headed x area).setCtxState x 1 := rfl

theorem State.headed_contextAt (s : State) (x area : Nat) : ∃ used wchk home guard charged, (s.headed x area).contextAt x =
    { area := area, root := BitVec.ofNat 64 (get64 s.phys (area + 8)), used := used, limit := get64 s.phys (area + 0x10) % 2 ^ 32,
      allow := clampAllow (get64 s.phys (area + 0x18) % 2 ^ 17), wchk := wchk, keys := keysOf s.phys area, home := home, guard := guard,
      queues := (s.contextAt x).queues, charged := charged } := by
  unfold State.headed State.noteCharged State.readHeader State.modContext
  simp only [State.setContext_contextAt_same]
  exact ⟨_, _, _, _, _, rfl⟩

section
variable {s : State} {o : Nat} {e : EngOp} (h : asked s o e .ctxload)
include h

theorem exec_ctxload_installed {x a : Nat} (hx : e.av.toNat = x) (form : e.fmt = 1) (first : e.begun = false) (ha : e.cv.toNat = a)
    (free : (s.contextAt x).st = 0) (header : headerFits s.phys a x = true) :
    ∃ t, exec (.engineOperationComplete o) s = .next t ∧ (t.contextAt x).st = 1 ∧ (t.contextAt x).area = a ∧
      (t.contextAt x).root = BitVec.ofNat 64 (get64 s.phys (a + 8)) ∧ (t.contextAt x).limit = get64 s.phys (a + 0x10) % 2 ^ 32 ∧
      (t.contextAt x).allow = min (get64 s.phys (a + 0x18) % 2 ^ 17) 65536 ∧ (t.contextAt x).keys = keysOf s.phys a ∧
      (t.contextAt x).queues = (s.contextAt x).queues ∧ memByte t.phys (a + 4) = 1 ∧ (t.opAt o).st = .done := by
  subst hx
  subst ha
  have cores : (s.installContext e.av.toNat e.cv.toNat).cores = s.cores := State.setCtxState_cores _ _ _
  have installs : s.loadOp o e = ((s.installContext e.av.toNat e.cv.toNat).setOp o (e.ended none)).wakeSequencer := by
    rw [← asked_finishOp h none (coresCleared_working (coresCleared_of_cores cores) (asked_working h))]
    simp [State.loadOp, form, first, free, header]
  obtain ⟨_, _, _, _, _, headed⟩ := s.headed_contextAt e.av.toNat e.cv.toNat
  have context := State.setCtxState_contextAt (s.headed e.av.toNat e.cv.toNat) e.av.toNat 1
  have byte := State.setCtxState_phys (s := s.headed e.av.toNat e.cv.toNat) (x := e.av.toNat) (st := 1) (by rw [headed]; exact Nat.zero_ne_one)
  rw [← State.installContext_eq, headed] at context byte
  refine ⟨_, (exec_asked_loadOp h).trans (congrArg _ installs), ?_⟩
  rw [State.wakeSequencer_contextAt, State.wakeSequencer_phys, State.wakeSequencer_opAt, State.setOp_contextAt, State.setOp_phys, State.setOp_opAt_same,
    context, byte]
  exact ⟨rfl, rfl, rfl, rfl, rfl, rfl, rfl, memByte_memWrite_one _ _ _, rfl⟩

theorem exec_ctxload_reloaded {x : Nat} (hx : e.av.toNat = x) (form : e.fmt = 0) (first : e.begun = false) (hm : e.m = 0)
    (saved : (s.contextAt x).st = 4) :
    ∃ t, exec (.engineOperationComplete o) s = .next t ∧ (t.contextAt x).st = 1 ∧ t.groups = s.groups ∧ (t.opAt o).st = .done := by
  subst hx
  obtain ⟨u, hu⟩ : ∃ u, u = (s.readHeader e.av.toNat (s.contextAt e.av.toNat).area).setCtxState e.av.toNat 1 := ⟨_, rfl⟩
  have cores : u.wakeSequencer.cores = s.cores := by
    rw [State.wakeSequencer_cores, hu, State.setCtxState_cores]
    rfl
  have groups : u.groups = s.groups := by
    obtain ⟨_, _, only⟩ := (s.readHeader e.av.toNat (s.contextAt e.av.toNat).area).setCtxState_eq e.av.toNat 1
    rw [hu, only]
    rfl
  have loads : s.loadOp o e = u.wakeSequencer.setOp o (e.ended none) := by
    rw [← asked_finishOp h none (coresCleared_working (coresCleared_of_cores cores) (asked_working h)), hu]
    simp [State.loadOp, form, first, hm, saved]
  refine ⟨_, (exec_asked_loadOp h).trans (congrArg _ loads), ?_⟩
  rw [State.setOp_contextAt, State.setOp_groups, State.setOp_opAt_same, State.wakeSequencer_contextAt, State.wakeSequencer_groups]
  refine ⟨?_, groups, rfl⟩
  rw [hu, State.setCtxState_contextAt]

end

end Sys2Proof.Machine
end

section
/-! TLBINV (R120, R121, R362, R364, R373). -/

namespace Sys2Proof.Machine

/-! Operations that a cause ends while their translation goes (R121). -/

/-- Replies are on their way: of operations their course changes, but none ends. -/
def replied (s t : State) : Prop := (∃ ops dies agenda fresh, t = { s with ops := ops, dies := dies, agenda := agenda, fresh := fresh }) ∧
  ∀ o, (t.opAt o).st = (s.opAt o).st

theorem replied_refl (s : State) : replied s s := ⟨⟨_, _, _, _, rfl⟩, fun _ => rfl⟩

theorem replied_trans {s t u : State} (h : replied s t) (g : replied t u) : replied s u := by
  obtain ⟨⟨_, _, _, _, rfl⟩, st⟩ := h
  obtain ⟨⟨_, _, _, _, rfl⟩, st'⟩ := g
  exact ⟨⟨_, _, _, _, rfl⟩, fun o => (st' o).trans (st o)⟩

theorem State.message_eq (s : State) (src dst prio : Nat) (ev : Instr) :
    ∃ dies agenda fresh, s.message src dst prio ev = { s with dies := dies, agenda := agenda, fresh := fresh } := by
  unfold State.message
  dsimp only
  split
  · exact ⟨_, _, _, rfl⟩
  · exact ⟨_, _, _, rfl⟩

theorem replied_message (s : State) (src dst prio : Nat) (ev : Instr) : replied s (s.message src dst prio ev) := by
  obtain ⟨_, _, _, only⟩ := s.message_eq src dst prio ev
  rw [only]
  exact ⟨⟨_, _, _, _, rfl⟩, fun _ => rfl⟩

theorem replied_setOp {s : State} {o : Nat} {e : EngOp} (st : e.st = (s.opAt o).st) : replied s (s.setOp o e) := by
  refine ⟨⟨_, _, _, _, rfl⟩, fun i => ?_⟩
  by_cases here : i = o
  · rw [here, State.setOp_opAt_same, st]
  · rw [State.setOp_opAt_other _ _ _ _ here]

theorem replied_failOp (s : State) (o cause va kind : Nat) : replied s (s.failOp o cause va kind) := by
  unfold State.failOp
  dsimp only
  refine replied_trans ?_ (replied_message _ _ _ _ _)
  exact replied_setOp rfl

theorem replied_endOldReads (s : State) (l : List (Nat × Nat)) : replied s (s.endOldReads l) := by
  refine List.foldlRecOn (motive := fun (u : State) => replied s u) _ _ (replied_refl s) fun u hu d _ => ?_
  dsimp only
  split
  · exact replied_trans hu (replied_failOp _ _ _ _ _)
  · exact hu

/-! The end of a shoot-down. -/

theorem reframed_mapFrame (s : State) (home pa x va : Nat) : reframed s (s.mapFrame home pa x va) := by
  unfold State.mapFrame
  dsimp only
  split
  · exact reframed_refl s
  · exact ⟨_, _, _, _, _, _, rfl⟩

theorem reframed_notePage (s : State) (x sz vpn : Nat) : reframed s (s.notePage x sz vpn) := by
  unfold State.notePage
  split
  · exact reframed_refl s
  · exact ⟨_, _, _, _, _, _, rfl⟩

theorem reframed_retag (s : State) (x : Nat) (p : Page) : reframed s (s.retag x p) := by
  unfold State.retag
  dsimp only
  split
  · exact reframed_refl s
  · refine List.foldlRecOn (motive := fun (u : State) => reframed s u) _ _ (reframed_refl s) fun u hu i _ => reframed_trans hu ?_
    generalize hv : State.notePage _ _ _ _ = v
    have noted : reframed u v := hv ▸ reframed_trans (reframed_mapFrame _ _ _ _ _) (reframed_notePage _ _ _ _)
    split
    · exact noted
    · refine reframed_trans noted ?_
      split <;> exact ⟨_, _, _, _, _, _, rfl⟩

/-- The frames that a shoot-down has seen are as the table says, and pages that stand no more are no longer charged. -/
theorem State.endInvalidate_spec (s : State) (e : EngOp) : (s.endInvalidate e).cores = s.cores ∧ (s.endInvalidate e).phys = s.phys ∧
    (e.m = 1 → ((s.endInvalidate e).contextAt e.bv.toNat).keys = keysOf s.phys (s.contextAt e.bv.toNat).area) := by
  obtain ⟨u, hu, used, charged, ends⟩ : ∃ u, reframed s u ∧ ∃ used charged, s.endInvalidate e =
      if e.m = 1 then (u.setContext e.bv.toNat { u.contextAt e.bv.toNat with used := used, charged := charged }).modContext e.bv.toNat fun c =>
        { c with keys := keysOf u.phys c.area }
      else u.setContext e.bv.toNat { u.contextAt e.bv.toNat with used := used, charged := charged } := by
    refine ⟨_, ?_, _, _, rfl⟩
    refine List.foldlRecOn (motive := fun (u : State) => reframed s u) _ _ ?_ fun u hu p _ => reframed_trans hu (reframed_retag _ _ _)
    exact reframed_trans (reframed_unmap _ _ _) ⟨_, _, _, _, _, _, rfl⟩
  have cores := reframed_cores hu
  have phys := reframed_phys hu
  have context : u.contextAt e.bv.toNat = s.contextAt e.bv.toNat := by rw [State.contextAt, reframed_contexts hu]; rfl
  rw [ends]
  by_cases all : e.m = 1
  · rw [if_pos all]
    refine ⟨cores, phys, fun _ => ?_⟩
    rw [State.modContext, State.setContext_contextAt_same, State.setContext_contextAt_same, ← phys, ← context]
  · rw [if_neg all]
    exact ⟨cores, phys, fun one => absurd one all⟩

/-! TLBINV's visits of the sequencer. -/

/-- The generation has moved, and the entries that are named are gone. -/
def State.shotDown (s : State) (e : EngOp) : State :=
  { s with gen := s.gen + 1, tlb := s.tlb.filter fun t => !invalidates e.bv.toNat e.va e.m t }

theorem State.beginInvalidate_eq (s : State) (o : Nat) (e : EngOp) : ∃ v l, s.beginInvalidate o e =
    (((s.shotDown e).setOp o v).endOldReads l).at (s.now + 1) prioNet (.engineOperationComplete o) := ⟨_, _, rfl⟩

section
variable {s : State} {o : Nat} {e : EngOp} (h : asked s o e .tlbinv)
include h

theorem exec_tlbinv_begins (first : e.begun = false) :
    ∃ t, exec (.engineOperationComplete o) s = .next t ∧ t.gen = s.gen + 1 ∧
      (∀ x ∈ s.tlb, (x ∈ t.tlb ↔ invalidates e.bv.toNat e.va e.m x = false)) ∧ t.dueAt (s.now + 1) prioNet (.engineOperationComplete o) ∧
      t.phys = s.phys ∧ t.cores = s.cores := by
  obtain ⟨v, l, begins⟩ := s.beginInvalidate_eq o e
  have visit : s.invalidateOp o e = s.beginInvalidate o e := by simp [State.invalidateOp, first]
  obtain ⟨⟨_, _, _, _, only⟩, _⟩ := replied_endOldReads ((s.shotDown e).setOp o v) l
  refine ⟨_, (exec_asked_invalidateOp h).trans (congrArg _ (visit.trans begins)), ?_, fun x hx => ?_, State.at_dueAt _ _ _ _, ?_, ?_⟩
  · rw [State.at_gen, only]
    rfl
  · rw [State.at_tlb, only]
    change x ∈ s.tlb.filter (fun t => !invalidates e.bv.toNat e.va e.m t) ↔ _
    simp [hx]
  · rw [State.at_phys, only]
    rfl
  · rw [State.at_cores, only]
    rfl

theorem exec_tlbinv_drains (again : e.begun = true) (left : e.drain.any (stillOld s) = true ∨ olderWalk s (e.part.gen.getD 0) = true) :
    ∃ t, exec (.engineOperationComplete o) s = .next t ∧ t.dueAt (s.now + 1) prioNet (.engineOperationComplete o) ∧ (t.opAt o).st = .running ∧
      t.phys = s.phys ∧ t.cores = s.cores ∧ t.tlb = s.tlb ∧ t.contexts = s.contexts := by
  have visit : s.invalidateOp o e = (s.endOldReads e.drain).at (s.now + 1) prioNet (.engineOperationComplete o) := by
    unfold State.invalidateOp
    rw [if_neg (by simp [again]), if_pos (by simpa using left)]
  obtain ⟨⟨_, _, _, _, only⟩, st⟩ := replied_endOldReads s e.drain
  refine ⟨_, (exec_asked_invalidateOp h).trans (congrArg _ visit), State.at_dueAt _ _ _ _, ?_, ?_⟩
  · rw [State.at_opAt, st, asked_opAt h]
    exact asked_running h
  · rw [State.at_phys, State.at_cores, State.at_tlb, State.at_contexts, only]
    exact ⟨rfl, rfl, rfl, rfl⟩

theorem exec_tlbinv_ends (again : e.begun = true) (drained : e.drain.any (stillOld s) = false) (noWalk : olderWalk s (e.part.gen.getD 0) = false) :
    ∃ t, exec (.engineOperationComplete o) s = .next t ∧ (t.opAt o).st = .done ∧ t.phys = s.phys ∧
      (e.m = 1 → (t.contextAt e.bv.toNat).keys = keysOf s.phys (s.contextAt e.bv.toNat).area) := by
  obtain ⟨cores, phys, keys⟩ := s.endInvalidate_spec e
  have visit : s.invalidateOp o e = (s.endInvalidate e).setOp o (e.ended none) := by
    rw [← asked_finishOp h none (coresCleared_working (coresCleared_of_cores cores) (asked_working h))]
    unfold State.invalidateOp
    rw [if_neg (by simp [again]), if_neg (by simp only [drained, noWalk]; decide)]
  refine ⟨_, (exec_asked_invalidateOp h).trans (congrArg _ visit), ?_, phys, keys⟩
  rw [State.setOp_opAt_same]
  rfl

end

end Sys2Proof.Machine
end

section
/-! Corrupt data that are consumed (R330, R400), and the obligation on operations. -/

namespace Sys2Proof.Machine

theorem exec_ueConsumed (g code detail : Nat) (s : State) : exec (.ueConsumed g code detail) s = execUeConsumed g code detail s := rfl

section
variable {s : State} {g : Nat} (code detail : Nat)

theorem State.freeBins_none (none : s.binDue = []) : s.freeBins = s := by
  rw [State.freeBins, none]
  rfl

theorem exec_ueConsumed_kills (holds : (s.groupAt g).st.holds = true) (unproven : (s.groupAt g).proof = none) (room : roomForNotice s)
    (noMoves : s.binDue = []) :
    ∃ t, exec (.ueConsumed g code detail) s = .next t ∧ (t.groupAt g).st = .killed ∧
      t.hub.privQ = s.hub.privQ ++ [noticeWord code (g / 256) (g % 256) detail] := by
  have hub := s.killGroup_hub g
  have roomLeft : roomForNotice (s.killGroup g) := by rwa [roomForNotice, hub]
  have due : (s.killWith g code detail).binDue = s.binDue := (binsStand_trans (binsStand_killGroup s g) (binsStand_post _ _ _ _ _)).2.1
  have kills : exec (.ueConsumed g code detail) s = .next (s.killWith g code detail) := by
    rw [exec_ueConsumed, execUeConsumed, State.freeBins_none (due.trans noMoves)]
    simp [holds, unproven]
  refine ⟨_, kills, ?_, ?_⟩
  · rw [State.killWith, State.post_groupAt, State.killGroup_groupAt]
    rfl
  · rw [State.killWith, State.post_room roomLeft, hub]

theorem exec_ueConsumed_rollsBack (holds : (s.groupAt g).st.holds = true) (steady : (s.groupAt g).st ≠ .rollingBack)
    (proven : (s.groupAt g).proof ≠ none) (notYet : s.pending (.rollback g) = false) :
    ∃ t, exec (.ueConsumed g code detail) s = .next t ∧ (t.groupAt g).ue = some (code, detail) ∧
      (∃ d, s.now + 128 ≤ d ∧ t.dueAt d prioNet (.rollback g)) ∧ t.cores = s.cores := by
  obtain ⟨u, hu⟩ : ∃ u, u = s.setGroup g { s.groupAt g with ue := some (code, detail) } := ⟨_, rfl⟩
  have calls : exec (.ueConsumed g code detail) s = .next (u.later stopDelay (.rollback g)) := by
    rw [← State.callRollback_called (s := u) (by rw [hu]; exact notYet), hu, exec_ueConsumed, execUeConsumed]
    simp [holds, steady, Option.isSome_iff_ne_none.mpr proven]
  have group : (u.groupAt g).ue = some (code, detail) := by rw [hu, State.setGroup_groupAt_same]
  obtain ⟨d, after, due⟩ := State.later_dueAt u (least := stopDelay) (.rollback g)
  have now : u.now = s.now := by rw [hu]; rfl
  exact ⟨_, calls, group, ⟨d, now ▸ after, due⟩, by rw [hu]; rfl⟩

theorem exec_ueConsumed_late (gone : (s.groupAt g).st.holds = false) : exec (.ueConsumed g code detail) s = .next s := by
  rw [exec_ueConsumed, execUeConsumed]
  simp [gone]

end

/-- Settles O53: what an operation's end changes, and then each operation of the sequencer by its own visit. That CTXLOAD without run leaves the
groups is log entry 36; that a second visit joins PREEMPT, log entry 34. -/
theorem operationsComplete : Obligations.OperationsComplete := by
  unfold Obligations.OperationsComplete
  exact ⟨fun s o e own ends => exec_complete_ends own ends,
    fun s o n c k e there running alone peer agent notBurin finished cause room =>
      exec_complete_notices there running alone peer agent notBurin finished cause room,
    fun s o id e there running program goesOn => exec_complete_served there running program goesOn,
    fun s o id c k e cause there running program peer agent notBurin working ends =>
      exec_complete_as_program there running program peer agent notBurin working ends,
    fun s o g e h hg live first prot whole => exec_snap_noted h hg live first prot whole,
    fun s o g e h hg live first => ⟨exec_roll_unproven h hg live first, exec_roll_noted h hg live first⟩,
    fun s o g e h hg runs first => exec_preempt_noted h hg runs first,
    fun s o e kind hk h => exec_groupOp_ends hk h,
    fun s o x g e h hx hm first fits one settled => exec_ctxsave_saves h hx hm first fits one settled,
    fun s o x e h hx hm first fits unsettled => exec_ctxsave_waits h hx hm first fits unsettled,
    fun s o x e h hx hm first fits => exec_ctxsave_kills h hx hm first fits,
    fun s o x e h hx hm again => exec_ctxsave_killed h hx hm again,
    fun s o g e h hg hm rests => exec_ctxsave_killsGroup h hg hm rests,
    fun s o x a e h hx form first ha free header => exec_ctxload_installed h hx form first ha free header,
    fun s o x e h hx form first hm saved => exec_ctxload_reloaded h hx form first hm saved,
    fun s o e h first => exec_tlbinv_begins h first,
    fun s o e h again => ⟨exec_tlbinv_drains h again, exec_tlbinv_ends h again⟩,
    fun s g code detail holds unproven room noMoves => exec_ueConsumed_kills code detail holds unproven room noMoves,
    fun s g code detail holds steady proven notYet => exec_ueConsumed_rollsBack code detail holds steady proven notYet,
    fun s g code detail gone => exec_ueConsumed_late code detail gone⟩

end Sys2Proof.Machine
end
